-- ==== Sys2Proof/Word.lean ====
section
/-! DEFINITION. The word types of the model and the index ranges of the package's units
(spec/01_architecture.md R14, R17). -/

namespace Sys2Proof

/-- A byte of any memory. -/
abbrev Byte := BitVec 8

/-- A 32-bit word: a register, a counter value, an FP32 encoding. -/
abbrev Word := BitVec 32

/-- A sparse table of one canonical form: keys strictly rising, and no entry equal to what a key
that is not listed reads as. Its operations stand in Sys2Proof/Machine/Table.lean. -/
abbrev SMap (α : Type) := List (Nat × α)

/-- A memory: a sparse table of bytes. -/
abbrev Mem := SMap Byte

/-- Facets 0 to 23 (R15). -/
abbrev FacetId := Fin 24
/-- Partitions 0 to 31 (R32). -/
abbrev PartId := Fin 32
/-- PCI Express functions: 0 the PF, p the VF of partition p (R377). -/
abbrev FnId := Fin 32
/-- Submission queues (R385). -/
abbrev QueueId := Fin 4096
/-- Sync counters (R384). -/
abbrev CtrId := Fin 16384
/-- HBM3E stacks (R249). -/
abbrev StackId := Fin 12
/-- Halves: 0 is A, 1 is B (R17). -/
abbrev HalfId := Fin 2
/-- Link ports (R301). -/
abbrev PortId := Fin 12
/-- Codec blocks: encode engines 0 to 7, decode engines 8 to 11 (R18). -/
abbrev CodecId := Fin 12
/-- Thin-channel engines (R241). -/
abbrev TceId := Fin 2
/-- Chord engines (R315). -/
abbrev ChordId := Fin 2
/-- Lifecycle indices of units (R451). -/
abbrev UnitId := Fin 64
/-- Package granule numbers (R249). -/
abbrev GranId := Fin 576

end Sys2Proof
end

