-- ==== Sys2Proof/Syntax.lean ====
section
/-! DEFINITION. The commands of the block: one constructor of Instr per row of spec/opcode_table.json.
A command is one whole, indivisible step (spec/95_what_each_step_holds.md). Its operands are what the
step brings from outside the model's state: the unit that acts, what the host writes, what arrives on a
link, what a sensor reads. A facet's instruction is no operand: the facet fetches it (R98). -/

namespace Sys2Proof

/-- The units of a facet that hold an instruction in flight (R117), numbered as in FCT_STATUS. -/
inductive FUnit where
  | control | array | vector | mover
  deriving DecidableEq, Repr

/-- What follows the function lifecycle (R451, R382): a unit of PWR_LC_u or a partition. -/
inductive LcId where
  | unit (u : UnitId)
  | part (p : PartId)
  deriving DecidableEq, Repr

/-- Engines that take jobs from queues (R388). -/
inductive EngineId where
  | codec (c : CodecId)
  | thin (e : TceId)
  deriving DecidableEq, Repr

/-- Where an ECC error strikes (R443, R446). -/
inductive EccSource where
  | stack | near | facetStore | directory | seqTable | apex
  deriving DecidableEq, Repr

/-- Why a unit fails (R444). -/
inductive FailCause where
  | stalled | training | stackErrors | controlState
  deriving DecidableEq, Repr

/-- The reference clocks (R459). -/
inductive RefClock where
  | pcie | sys | opt | vid
  deriving DecidableEq, Repr

/-- Why a lane is removed (R284). -/
inductive LaneFault where
  | lostLock | uncorrectable
  deriving DecidableEq, Repr

/-- Codewords of one lane that have arrived: how many were corrected, how many were uncorrectable (R282). -/
structure LaneCount where
  lane : Nat
  corrected : Nat
  bad : Nat
  deriving DecidableEq, Repr

/-- An arriving flit and what the PHY and the sender tell of it: its codewords by lane, whether one of its bytes lies in an
uncorrectable codeword (R282), and the credit that its sender spent on it, of a channel and hop class or of the channel's
shared area (R290; notes/assumptions/62.md). -/
structure Arrival where
  flit : BitVec 2048
  words : List LaneCount
  lost : Bool
  vc : Nat
  hop : Nat
  shared : Bool
  deriving DecidableEq, Repr

/-- A transaction header (11, header-flit bytes 8 to 39), its fields as numbers. -/
structure TxHeader where
  src : Nat
  dst : Nat
  srcPart : Nat
  dstPart : Nat
  tag : Nat
  space : Nat
  offset : Nat
  len : Nat
  code : Nat
  ret : Bool
  scalar : Bool
  arg : BitVec 64
  deriving DecidableEq, Repr

/-- A HELLO of a peer (R305): every field, with the certificate and the signature as bytes. -/
structure Hello where
  coord : Nat
  dim : Nat
  planHash : List Byte
  versions : BitVec 16
  fwVer : Word
  cert : List Byte
  signature : List Byte
  deriving DecidableEq, Repr

/-- A link-state announcement (R303): a vertex, its dimension and whether that port is UP. -/
structure LinkNews where
  vertex : Nat
  dim : Nat
  up : Bool
  deriving DecidableEq, Repr

/-- What the NVM port finds of the device (R413): present, its density in Mbit, a profile of xSPI,
4-byte addressing and 64 KiB sectors offered. -/
structure NvmDevice where
  present : Bool
  mbit : Nat
  profile : Bool
  addr4 : Bool
  sector64 : Bool
  deriving DecidableEq, Repr

/-- The board's return of the NVM bus (R415, R463): whether NVM_BOARD_N has been high for 10 µs, and the device that the port
then finds. -/
structure NvmReturn where
  high : Bool
  device : NvmDevice
  deriving DecidableEq, Repr

/-- What the governor finds in its 1 µs step (R433): the highest codes (5 mV units) at which each
limit is met, whether a limit stays unmet at 0.55 V, the telemetry it shows, and the rails whose target write receives
no valid AVSBus response (R457). -/
structure GovernorReading where
  capCode : Nat
  pwrcapCode : Nat
  thermCode : Nat
  unmet : Bool
  slewing : Bool
  powerW : BitVec 16
  tjMax : BitVec 8
  silent : List Nat := []
  deriving DecidableEq, Repr

/-- The kinds of traffic at a shared arbiter: those of R36, and the records of completion, which its table does not name
(notes/assumptions/64.md). -/
inductive Traffic where
  | refresh | meridian | warning | codec | link | ringBlock | chord | facet | thin | neededMove | fetch | record
  | prefetchMove | eviction | scrub | host
  deriving DecidableEq, Repr

/-- The sources at a shared arbiter (R37, R61, R62). -/
inductive ArbSource where
  | refresh | meridian | warning | bridge | directory | host
  | facet (f : FacetId)
  | thin (e : TceId)
  | codec (c : CodecId)
  | chord (e : ChordId)
  | port (p : PortId)
  deriving DecidableEq, Repr

/-- A request for one granule at the front of its source's queue at an arbiter: the kind of its traffic, whether it writes, and
the space-0 offset of the granule, or, at the bridge and at a router output, 0. -/
structure ArbRequest where
  src : ArbSource
  kind : Traffic
  write : Bool
  off : Nat
  deriving DecidableEq, Repr

/-- A PCI Express configuration request: to a function, and the size that it writes into BAR4's Resizable BAR capability, if it
does, in powers of 2 from 1 GiB to 1 TiB (R375). -/
structure CfgRequest where
  fn : FnId
  barSize : Option (Fin 11)
  deriving DecidableEq, Repr

/-- A place in a queue's BAR2 page (R378, R387). -/
structure DoorbellPage where
  queue : QueueId
  offset : Nat
  deriving DecidableEq, Repr

/-- A BAR0 write as it arrives (R394): the offset of its first word, and the byte enables and data of the words that follow that
one, where it is a 64-bit or a misaligned access. -/
structure WriteAccess where
  offset : Nat
  more : List (BitVec 4 × Word)
  deriving DecidableEq, Repr

/-- A BAR0 read as it arrives (R394): the offset of its first word, the byte enables of that word, and those of the words that
follow it. -/
structure ReadAccess where
  offset : Nat
  enables : BitVec 4 := 0xF
  more : List (BitVec 4) := []
  deriving DecidableEq, Repr

/-- The commands. -/
inductive Instr where
  -- Facets (04, 01)
  | workClaim (f : FacetId)
  | programDone (f : FacetId)
  | instructionComplete (f : FacetId) (u : FUnit)
  | waitTimeout (f : FacetId)
  | gangAbortStop (f : FacetId)
  | nop (f : FacetId)
  | fence (f : FacetId)
  | setseed (f : FacetId)
  | dload (f : FacetId)
  | matmul (f : FacetId)
  | matmulLr (f : FacetId)
  | matmulKv (f : FacetId)
  | conv (f : FacetId)
  | attn (f : FacetId)
  | vew (f : FacetId)
  | vrowstat (f : FacetId)
  | norm (f : FacetId)
  | vfunc (f : FacetId)
  | softmax (f : FacetId)
  | quant (f : FacetId)
  | pool (f : FacetId)
  | upsample (f : FacetId)
  | gatherMatmul (f : FacetId)
  | matmulScatter (f : FacetId)
  | ringAttn (f : FacetId)
  | exchangeV (f : FacetId)
  | put (f : FacetId)
  | get (f : FacetId)
  | atomic (f : FacetId)
  | prefetch (f : FacetId)
  | evict (f : FacetId)
  | poolAllocate (f : FacetId)
  | checkerSample (f : FacetId)
  -- Chord contexts (12)
  | contextOpen (e : ChordId) (p : PartId)
  | gatherPieceLanded (e : ChordId) (p : PartId)
  | scatterReduce (e : ChordId) (p : PartId)
  | exchangeCounts (e : ChordId) (p : PartId)
  | exchangeData (e : ChordId) (p : PartId)
  | ringStepBoundary (e : ChordId) (p : PartId)
  | ringStall (e : ChordId) (p : PartId)
  | collAbort (e : ChordId) (p : PartId)
  | preemptRequest (e : ChordId) (value : Word)
  -- The home directory and memory (10)
  | tileRead (p : PartId) (offset : Nat) (len : Nat)
  | tileWrite (src : Nat) (p : PartId) (offset : Nat) (data : List Byte)
  | tilePromote (p : PartId) (offset : Nat) (p3 : Bool)
  | tileSeal (offset : Nat)
  | tileUnseal (offset : Nat)
  | tileLands (offset : Nat)
  | promotionUnits (offset : Nat)
  | heldWriteAccept (h : HalfId)
  | arbiterGrant (arbiter : Nat) (arrivals : List ArbRequest)
  | stackTempRead (s : StackId) (temp : BitVec 8)
  | hbmRefresh (s : StackId)
  -- Thin-channel engines (09)
  | input (e : TceId)
  | output (e : TceId)
  | thin (e : TceId)
  | tceFrameDone (e : TceId)
  -- Codec engines (13)
  | openStream (c : CodecId)
  | encodeFrame (c : CodecId)
  | encodeUnitDone (c : CodecId)
  | inputRelease (c : CodecId)
  | decodeFrame (c : CodecId)
  | closeStream (c : CodecId)
  | late (c : CodecId)
  | jobClaim (e : EngineId)
  -- Host interface, queues, partitions (14)
  | doorbell (fn : FnId) (q : DoorbellPage) (value : Option Word)
  | hostSignal (fn : FnId) (n : CtrId) (value : Word)
  | counterSet (n : CtrId) (value : Word)
  | queueEnable (fn : FnId) (q : QueueId) (value : Word)
  | queueDisable (fn : FnId) (q : QueueId) (value : Word)
  | cqHeadWrite (fn : FnId) (q : QueueId) (value : Word)
  | completionRecord (q : QueueId)
  | imodTimeout (q : QueueId)
  | partitionTableWrite (fn : FnId) (p : PartId) (offset : Nat) (value : Word)
  | partEnable (fn : FnId) (p : PartId) (value : Word)
  | partDisable (fn : FnId) (p : PartId) (value : Word)
  | lcEnable (fn : FnId) (u : UnitId) (value : Word)
  | lcDisable (fn : FnId) (u : UnitId) (value : Word)
  | rampDone (u : LcId)
  | drainDone (u : LcId)
  | unitFail (u : UnitId) (cause : FailCause)
  | dataError (src : EccSource) (u : UnitId) (offset : Nat)
  | functionLevelReset (fn : FnId)
  | busMasterEnable (fn : FnId) (bme vf : Bool)
  | pcieConfigRequest (fn : CfgRequest)
  | bar4Access (fn : FnId) (offset : Nat) (len : Nat) (data : Option (List Byte))
  | registerWrite (fn : FnId) (offset : WriteAccess) (enables : BitVec 4) (value : Word)
  | wzRegisterRead (fn : FnId) (offset : ReadAccess)
  | triplicatedScrub
  | granuleWrite (fn : FnId) (g : GranId) (value : Word)
  | flushDone (g : GranId)
  | scrubDone (g : GranId)
  -- Transactions and links (11)
  | putTransaction (h : TxHeader) (data : List Byte)
  | getReq (h : TxHeader)
  | atomicTransaction (h : TxHeader) (data : List Byte)
  | signalTransaction (h : TxHeader)
  | ack (tag : BitVec 16)
  | getData (tag : BitVec 16) (data : List Byte)
  | atomicRet (tag : BitVec 16) (data : List Byte)
  | nack (tag : BitVec 16) (code : BitVec 8)
  | linkTimeout (tag : BitVec 16)
  | tagRelease (tag : BitVec 16)
  | flitReceive (p : PortId) (flit : Arrival)
  | flitNak (p : PortId) (ackSeq : BitVec 14)
  | routerForward (p : PortId)
  | laneRemove (p : PortId) (lane : Nat) (cause : LaneFault)
  | retrainDone (p : PortId)
  | retrainTimeout (p : PortId)
  | trainDone (p : PortId)
  | trainTimeout (p : PortId)
  | nonce (p : PortId) (n : BitVec 256)
  | hello (p : PortId) (h : Hello)
  | verdictPhase
  | verdict (p : PortId) (up : Bool)
  | linkStateAnnounce (p : PortId) (news : LinkNews)
  | rediscover (value : Word)
  | portRelease (value : Word)
  | meridianSync
  | meridianExchange (received sent : BitVec 64)
  -- Boot and trust (16)
  | resetAssert
  | resetRelease
  | nvmDiscovery (d : NvmDevice)
  | verify
  | identity
  | firmwareStart
  | hbmTraining (failed : List StackId)
  | pcieReadiness
  | linkDiscovery
  | ready
  | lastGaspArm
  | perstAssert
  | recoveryEnter (value : Word)
  | recoveryGo (value : Word)
  | recoveryVerifyDone
  | nvmRelease (value : Word)
  | nvmReclaim (boardHigh : NvmReturn)
  | fuseCommitSvn (value : Word)
  | fuseBurnOwner (value : Word)
  | fuseDone (failed : Bool)
  | doeDiscovery (index : Nat)
  | getCert
  | getReport (hostNonce : BitVec 256)
  -- Power, faults, section capture (17)
  | governorStep (r : GovernorReading)
  | pwrcapAssert
  | pwrcapRelease
  | pwrwarnAssert
  | pwrwarnWithdraw
  | trip (cause : Fin 16) (source : BitVec 8)
  | apexStop
  | refclkLoss (c : RefClock)
  | freezeNAssert
  | sectionRequest (value : Word)
  | thaw
  | sectionRead
  | idcode
  | bypass
  | perstRelease
  | powerLoss
  | correctedError (src : EccSource) (u : UnitId) (offset : Nat)
  | singleUpset (offset : Nat) (copy : Fin 3) (bit : Fin 32)
  | triplicatedRead (fn : FnId) (offset : ReadAccess)
  deriving DecidableEq, Repr

end Sys2Proof
end

