-- ==== Sys2Proof/Machine/Table.lean ====
section
/-! DEFINITION. The operations of sparse tables (the one data structure behind memories, the register
file, counters and every numbered unit) and of little-endian byte strings. -/

namespace Sys2Proof.Machine

/-- The value a table holds at a key; `d` is what a key that is not listed reads as. -/
def tget {α : Type} (m : SMap α) (d : α) (k : Nat) : α :=
  match m with
  | [] => d
  | (k', v) :: t => if k = k' then v else if k < k' then d else tget t d k

/-- The table with `v` at key `k`, in the canonical form: writing `d` removes the entry. -/
def tset {α : Type} [DecidableEq α] (m : SMap α) (d : α) (k : Nat) (v : α) : SMap α :=
  match m with
  | [] => if v = d then [] else [(k, v)]
  | (k', v') :: t =>
    if k < k' then (if v = d then (k', v') :: t else (k, v) :: (k', v') :: t)
    else if k = k' then (if v = d then t else (k, v) :: t)
    else (k', v') :: tset t d k v

/-- The canonical form: keys strictly rising from `lo`, no entry equal to the default. -/
def twfFrom {α : Type} [DecidableEq α] (d : α) : Nat → SMap α → Bool
  | _, [] => true
  | lo, (k, v) :: t => decide (lo ≤ k) && decide (v ≠ d) && twfFrom d (k + 1) t

/-- The canonical form of a whole table. -/
def twf {α : Type} [DecidableEq α] (d : α) (m : SMap α) : Bool := twfFrom d 0 m

/-- A memory in canonical form: a byte that is not listed reads as 0. -/
def memWf (m : Mem) : Bool := twf 0 m

/-- The byte of a memory at an address; an unlisted one reads as 0. -/
def rd (m : Mem) (a : Nat) : Byte := tget m 0 a

/-- The memory with one byte written. -/
def wr (m : Mem) (a : Nat) (b : Byte) : Mem := tset m 0 a b

/-- `n` bytes from address `a`. -/
def rdBytes (m : Mem) (a : Nat) : Nat → List Byte
  | 0 => []
  | n + 1 => rd m a :: rdBytes m (a + 1) n

/-- The memory with these cells written, first to last. -/
def wrCells (m : Mem) : List (Nat × Byte) → Mem
  | [] => m
  | (a, b) :: t => wrCells (wr m a b) t

/-- The cells that put a byte string at an address. -/
def cellsAt (a : Nat) : List Byte → List (Nat × Byte)
  | [] => []
  | b :: t => (a, b) :: cellsAt (a + 1) t

/-- A byte string as a number, little-endian (R68). -/
def leNat : List Byte → Nat
  | [] => 0
  | b :: t => b.toNat + 256 * leNat t

/-- A number as `n` bytes, little-endian. -/
def natLe : Nat → Nat → List Byte
  | 0, _ => []
  | n + 1, v => BitVec.ofNat 8 v :: natLe n (v / 256)

/-- `n` bytes of a memory as a number, little-endian. -/
def rdNat (m : Mem) (a n : Nat) : Nat := leNat (rdBytes m a n)

/-- Bits [hi:lo] of a number (R9). -/
def bits (v hi lo : Nat) : Nat := (v >>> lo) % 2 ^ (hi + 1 - lo)

/-- Bit i of a number. -/
def bit (v i : Nat) : Bool := v.testBit i

/-- Bits [hi:lo] of a bit string, as a number. -/
def fld {w : Nat} (v : BitVec w) (hi lo : Nat) : Nat := bits v.toNat hi lo

/-- The bit string with bits [hi:lo] replaced. -/
def putFld {w : Nat} (v : BitVec w) (hi lo : Nat) (x : Nat) : BitVec w :=
  let m : BitVec w := BitVec.ofNat w ((2 ^ (hi + 1 - lo) - 1) <<< lo)
  (v &&& ~~~m) ||| (BitVec.ofNat w (x <<< lo) &&& m)

/-- 1 for true. -/
def b2n (b : Bool) : Nat := if b then 1 else 0

/-- The first element that satisfies a test, with its place. -/
def findIdxFrom {α : Type} (p : α → Bool) : Nat → List α → Option Nat
  | _, [] => none
  | i, a :: t => if p a then some i else findIdxFrom p (i + 1) t

/-- ⌈a / b⌉. -/
def cdiv (a b : Nat) : Nat := (a + b - 1) / b

/-- a rounded up to a multiple of b. -/
def roundUp (a b : Nat) : Nat := cdiv a b * b

/-- Adds to a 32-bit count that stops at 0xFFFF_FFFF (R402). -/
def satAdd32 (c : Word) (n : Nat) : Word :=
  if c.toNat + n < 2 ^ 32 then BitVec.ofNat 32 (c.toNat + n) else 0xFFFF_FFFF

/-- A two's-complement number of `w` bits. -/
def signedOf (w v : Nat) : Int := if v % 2 ^ w < 2 ^ (w - 1) then ((v % 2 ^ w : Nat) : Int) else ((v % 2 ^ w : Nat) : Int) - 2 ^ w

/-- CRC over bytes, reflected, with all-ones start and final inversion: `w` bits, `poly` the
reflected polynomial. -/
def crcBit (w poly c : Nat) : Nat → Nat
  | 0 => c
  | n + 1 => crcBit w poly (if c % 2 = 1 then (c / 2) ^^^ poly else c / 2) n

/-- The running CRC after a byte string. -/
def crcRun (w poly : Nat) : Nat → List Byte → Nat
  | c, [] => c
  | c, b :: t => crcRun w poly (crcBit w poly (c ^^^ b.toNat) 8) t

/-- CRC-32C (Castagnoli), as the completion record's CHECK (R391). -/
def crc32c (l : List Byte) : Nat := (crcRun 32 0x82F63B78 (2 ^ 32 - 1) l) ^^^ (2 ^ 32 - 1)

/-- CRC-64/XZ, as every flit carries it (R286): ECMA-182 reflected. -/
def crc64 (l : List Byte) : Nat := (crcRun 64 0xC96C5795D7870F42 (2 ^ 64 - 1) l) ^^^ (2 ^ 64 - 1)

end Sys2Proof.Machine
end

