-- ==== Sys2Proof/Machine/Num.lean ====
section
/-! DEFINITION. Number formats, exact values and rounding (spec/03_numerics.md R67 to R82). Every value is
an exact dyadic number until it is rounded once; FP32 operations round to nearest, ties to even (R79). -/

namespace Sys2Proof.Machine

/-- An exact value: NaN, an infinity, or ±m × 2^e. -/
inductive Val where
  | nan
  | inf (neg : Bool)
  | num (neg : Bool) (m : Nat) (e : Int)
  deriving DecidableEq, Repr

/-- The element formats of R67. T5 trits are taken from their blocks (R70). -/
inductive Elem where
  | fp32 | bf16 | fp16 | e4m3 | e5m2 | e2m3 | e3m2 | e2m1 | int8 | int4
  deriving DecidableEq, Repr

/-- Bits of an element. -/
def Elem.width : Elem → Nat
  | .fp32 => 32 | .bf16 => 16 | .fp16 => 16 | .e4m3 => 8 | .e5m2 => 8
  | .e2m3 => 6 | .e3m2 => 6 | .e2m1 => 4 | .int8 => 8 | .int4 => 4

/-- Exponent bits, fraction bits and bias (R67); integers have none. -/
def Elem.shape : Elem → Nat × Nat × Nat
  | .fp32 => (8, 23, 127) | .bf16 => (8, 7, 127) | .fp16 => (5, 10, 15)
  | .e4m3 => (4, 3, 7) | .e5m2 => (5, 2, 15) | .e2m3 => (2, 3, 1) | .e3m2 => (3, 2, 3) | .e2m1 => (2, 1, 1)
  | .int8 => (0, 8, 0) | .int4 => (0, 4, 0)

/-- The value of a floating-point encoding without special codes. -/
def finVal (eb mb bias v : Nat) : Val :=
  let s := bit v (eb + mb)
  let ex := bits v (eb + mb - 1) mb
  let fr := v % 2 ^ mb
  if ex = 0 then .num s fr (1 - (bias : Int) - mb)
  else .num s (2 ^ mb + fr) ((ex : Int) - bias - mb)

/-- The exact value of an element's bits (R67, R73). -/
def Elem.value (f : Elem) (v : Nat) : Val :=
  match f with
  | .int8 => let i := signedOf 8 v; .num (decide (i < 0)) i.natAbs 0
  | .int4 => let i := signedOf 4 v; .num (decide (i < 0)) i.natAbs 0
  | .e4m3 => if v % 128 = 0x7F then .nan else finVal 4 3 7 v
  | .fp32 | .bf16 | .fp16 | .e5m2 =>
    let (eb, mb, bias) := f.shape
    if bits v (eb + mb - 1) mb = 2 ^ eb - 1 then
      (if v % 2 ^ mb = 0 then .inf (bit v (eb + mb)) else .nan)
    else finVal eb mb bias v
  | .e2m3 | .e3m2 | .e2m1 => let (eb, mb, bias) := f.shape; finVal eb mb bias v

/-- How a conversion rounds (R78): nearest, or stochastically with the element's random word. -/
inductive RMode where
  | rne
  | sr (r : Word)
  deriving DecidableEq, Repr

/-- m / 2^k rounded (R78, R80): D is the discarded fraction of the target's quantum in 32 bits. -/
def shiftRound (mode : RMode) (m k : Nat) : Nat :=
  let t := m >>> k
  let rest := m % 2 ^ k
  match mode with
  | .rne =>
    let half := 2 ^ k / 2
    if rest = 0 then t
    else if rest > half || (rest = half && t % 2 = 1) then t + 1 else t
  | .sr r =>
    let d := if k ≤ 32 then rest <<< (32 - k) else rest >>> (k - 32)
    if d + r.toNat ≥ 2 ^ 32 then t + 1 else t

/-- ±m × 2^e rounded to a precision of `p` bits with no quantum below 2^qmin: the rounded
significand and its exponent, which is at least qmin. -/
def roundTo (mode : RMode) (p : Nat) (qmin : Int) (m : Nat) (e : Int) : Nat × Int :=
  if m = 0 then (0, qmin)
  else
    let q := max (e + ((Nat.log2 m + 1 : Nat) : Int) - p) qmin
    if q ≤ e then (m <<< (e - q).toNat, q) else (shiftRound mode m (q - e).toNat, q)

/-- Compares m × 2^e with n × 2^g: is the first larger? -/
def dyLt (n : Nat) (g : Int) (m : Nat) (e : Int) : Bool :=
  let b := min g e
  decide (n <<< (g - b).toNat < m <<< (e - b).toNat)

/-- Encodes a rounded significand: fields of a floating-point format, before overflow rules. -/
def packFin (eb mb bias : Nat) (neg : Bool) (m : Nat) (q : Int) : Nat :=
  let qmin : Int := 1 - (bias : Int) - mb
  let s := b2n neg <<< (eb + mb)
  if m < 2 ^ mb then s + m
  else
    let (m, q) := if m ≥ 2 ^ (mb + 1) then (m / 2, q + 1) else (m, q)
    s + ((q - qmin + 1).toNat <<< mb) + (m - 2 ^ mb)

/-- The largest finite code of a floating-point element, without sign (R67). -/
def Elem.maxCode : Elem → Nat
  | .fp32 => 0x7F7FFFFF | .bf16 => 0x7F7F | .fp16 => 0x7BFF | .e4m3 => 0x7E | .e5m2 => 0x7B
  | .e2m3 => 0x1F | .e3m2 => 0x1F | .e2m1 => 0x7 | .int8 => 127 | .int4 => 7

/-- The canonical NaN of a format (R74); formats without NaN hold 0 (R76, INT). -/
def Elem.nanCode : Elem → Nat
  | .fp32 => 0x7FC00000 | .bf16 => 0x7FC0 | .fp16 => 0x7E00 | .e4m3 => 0x7F | .e5m2 => 0x7E
  | _ => 0

/-- A conversion to an element format (R76): the code, and whether the element was written as the
largest or least value because its own lay beyond it (counted under R149). -/
def Elem.encode (f : Elem) (mode : RMode) (x : Val) : Nat × Bool :=
  match f with
  | .int8 | .int4 =>
    let w := f.width
    let hi := 2 ^ (w - 1) - 1
    match x with
    | .nan => (0, false)
    | .inf false => (hi, true)
    | .inf true => (2 ^ (w - 1), true)
    | .num neg m e =>
      let n := if 0 ≤ e then m <<< e.toNat else shiftRound mode m (-e).toNat
      if neg then (if n > hi + 1 then (2 ^ (w - 1), true) else ((2 ^ w - n) % 2 ^ w, false))
      else (if n > hi then (hi, true) else (n, false))
  | _ =>
    let (eb, mb, bias) := f.shape
    let sgn := fun (neg : Bool) => b2n neg <<< (eb + mb)
    match x with
    | .nan => (f.nanCode, false)
    | .inf neg =>
      match f with
      | .e4m3 => (f.nanCode, false)
      | .e2m3 | .e3m2 | .e2m1 => (sgn neg + f.maxCode, false)
      | _ => (sgn neg + ((2 ^ eb - 1) <<< mb), false)
    | .num neg m e =>
      let (m', q) := roundTo mode (mb + 1) (1 - (bias : Int) - mb) m e
      let c := packFin eb mb bias false m' q
      if c ≤ f.maxCode then (sgn neg + c, false)
      else
        match f with
        | .fp32 | .bf16 | .fp16 => (sgn neg + ((2 ^ eb - 1) <<< mb), false)
        | _ => (sgn neg + f.maxCode, true)

/-- The exact value of an FP32 encoding. -/
def fval (x : Word) : Val := Elem.fp32.value x.toNat

/-- The FP32 encoding of a value, rounded to nearest (R79), with canonical NaN (R74). -/
def f32 (v : Val) : Word := BitVec.ofNat 32 (Elem.fp32.encode .rne v).1

/-- Canonical NaN, zero, one and the infinities of FP32. -/
def fNaN : Word := 0x7FC0_0000
def fZero : Word := 0x0000_0000
def fOne : Word := 0x3F80_0000
def fInf : Word := 0x7F80_0000
def fNegInf : Word := 0xFF80_0000

/-- Sum of exact values: an exactly zero sum of opposite signs is +0 (R77). -/
def Val.add : Val → Val → Val
  | .nan, _ => .nan
  | _, .nan => .nan
  | .inf a, .inf b => if a = b then .inf a else .nan
  | .inf a, _ => .inf a
  | _, .inf b => .inf b
  | .num a m e, .num b n g =>
    let q := min e g
    let x : Int := ((m <<< (e - q).toNat : Nat) : Int)
    let y : Int := ((n <<< (g - q).toNat : Nat) : Int)
    let t := (if a then -x else x) + (if b then -y else y)
    if t = 0 then .num (a && b) 0 q else .num (decide (t < 0)) t.natAbs q

/-- Negation: only the sign. -/
def Val.neg : Val → Val
  | .nan => .nan
  | .inf a => .inf (!a)
  | .num a m e => .num (!a) m e

/-- Product of exact values. -/
def Val.mul : Val → Val → Val
  | .nan, _ => .nan
  | _, .nan => .nan
  | .inf a, .inf b => .inf (a != b)
  | .inf a, .num b n _ => if n = 0 then .nan else .inf (a != b)
  | .num a m _, .inf b => if m = 0 then .nan else .inf (a != b)
  | .num a m e, .num b n g => .num (a != b) (m * n) (e + g)

/-- x × 2^k. -/
def Val.scale : Val → Int → Val
  | .num a m e, k => .num a m (e + k)
  | v, _ => v

/-- Bits kept of a quotient or root before its one rounding; a sticky last bit makes the rounding
that follows correct. -/
def guardBits : Nat := 96

/-- Quotient, exact enough that one rounding to FP32 is the correct one. -/
def Val.div : Val → Val → Val
  | .nan, _ => .nan
  | _, .nan => .nan
  | .inf _, .inf _ => .nan
  | .inf a, .num b _ _ => .inf (a != b)
  | .num a _ _, .inf b => .num (a != b) 0 0
  | .num a m e, .num b n g =>
    if n = 0 then (if m = 0 then .nan else .inf (a != b))
    else
      let k := guardBits + Nat.log2 n + 1
      let q := (m <<< k) / n
      let sticky := if (m <<< k) % n = 0 then 0 else 1
      .num (a != b) (2 * q + sticky) (e - g - k - 1)

/-- The integer square root, by bits from the top. -/
def isqrtGo (n : Nat) : Nat → Nat → Nat
  | 0, r => r
  | i + 1, r => let c := r + 2 ^ i; isqrtGo n i (if c * c ≤ n then c else r)

/-- ⌊√n⌋. -/
def isqrt (n : Nat) : Nat := isqrtGo n (Nat.log2 n / 2 + 1) 0

/-- Square root of a positive value, exact enough that one rounding to FP32 is correct. -/
def Val.sqrt : Val → Val
  | .nan => .nan
  | .inf a => if a then .nan else .inf false
  | .num a m e =>
    if m = 0 then .num a 0 e
    else if a then .nan
    else
      let (m, e) := if e % 2 = 0 then (m, e) else (m * 2, e - 1)
      let k := guardBits
      let n := m <<< (2 * k)
      let r := isqrt n
      let sticky := if r * r = n then 0 else 1
      .num false (2 * r + sticky) (e / 2 - k - 1)

/-- FP32 operations, each rounded to nearest (R79). -/
def fadd (a b : Word) : Word := f32 ((fval a).add (fval b))
def fsub (a b : Word) : Word := f32 ((fval a).add (fval b).neg)
def fmul (a b : Word) : Word := f32 ((fval a).mul (fval b))
def fdiv (a b : Word) : Word := f32 ((fval a).div (fval b))
def fsqrt (a : Word) : Word := f32 (fval a).sqrt

/-- Whether an encoding is NaN, an infinity, a zero. -/
def fIsNaN (a : Word) : Bool := decide (fval a = .nan)
def fIsInf (a : Word) : Bool := match fval a with | .inf _ => true | _ => false
def fIsZero (a : Word) : Bool := match fval a with | .num _ m _ => decide (m = 0) | _ => false

/-- Sign and magnitude as an ordered integer; -0 lies below +0 (R174). -/
def fKey (a : Word) : Int :=
  let m : Int := ((a.toNat % 2 ^ 31 : Nat) : Int)
  if bit a.toNat 31 then -m - 1 else m

/-- Comparisons of non-NaN encodings as numbers. -/
def flt (a b : Word) : Bool :=
  !(fIsNaN a) && !(fIsNaN b) && !(fIsZero a && fIsZero b) && decide (fKey a < fKey b)

/-- Maximum and minimum with +0 above -0; either input NaN gives canonical NaN (R174). -/
def fmax (a b : Word) : Word := if fIsNaN a || fIsNaN b then fNaN else if fKey a < fKey b then b else a
def fmin (a b : Word) : Word := if fIsNaN a || fIsNaN b then fNaN else if fKey a < fKey b then a else b

/-- Sign operations: a NaN gives canonical NaN (R174). -/
def fabs (a : Word) : Word := if fIsNaN a then fNaN else a &&& 0x7FFF_FFFF
def fneg (a : Word) : Word := if fIsNaN a then fNaN else a ^^^ 0x8000_0000

/-- A BF16 encoding as FP32, and FP32 rounded to BF16 as FP32 (R75, R76). -/
def bf16Widen (v : Nat) : Word := f32 (Elem.bf16.value v)
def toBf16 (mode : RMode) (a : Word) : Nat := (Elem.bf16.encode mode (fval a)).1
def roundBf16 (a : Word) : Word := bf16Widen (toBf16 .rne a)

/-- A natural number as FP32, rounded to nearest. -/
def f32OfNat (n : Nat) : Word := f32 (.num false n 0)

/-- An integer as FP32, rounded to nearest. -/
def f32OfInt (i : Int) : Word := f32 (.num (decide (i < 0)) i.natAbs 0)

/-- Positive normal FP32, as a scale must be (R150). -/
def fPosNormal (a : Word) : Bool :=
  let e := bits a.toNat 30 23
  !(bit a.toNat 31) && decide (0 < e) && decide (e < 255)

/-- One round of Philox4x32 (R81) on the counter words and key. -/
def philoxRound : (Word × Word × Word × Word) → Word → Word → (Word × Word × Word × Word)
  | (x0, x1, x2, x3), k0, k1 =>
    let p0 := 0xD2511F53 * x0.toNat
    let p1 := 0xCD9E8D57 * x2.toNat
    let hi := fun (p : Nat) => (BitVec.ofNat 32 (p / 2 ^ 32) : Word)
    let lo := fun (p : Nat) => (BitVec.ofNat 32 p : Word)
    (hi p1 ^^^ x1 ^^^ k0, lo p1, hi p0 ^^^ x3 ^^^ k1, lo p0)

/-- `n` rounds with the key schedule. -/
def philoxRun : Nat → (Word × Word × Word × Word) → Word → Word → (Word × Word × Word × Word)
  | 0, x, _, _ => x
  | n + 1, x, k0, k1 => philoxRun n (philoxRound x k0 k1) (k0 + 0x9E3779B9) (k1 + 0xBB67AE85)

/-- The random word of the element with logical index l, for a seed and a stream (R81). -/
def randomWord (seed : BitVec 64) (stream : Word) (l : Nat) : Word :=
  let q := l / 4
  let k0 : Word := BitVec.ofNat 32 seed.toNat
  let k1 : Word := BitVec.ofNat 32 (seed.toNat / 2 ^ 32)
  match philoxRun 10 (BitVec.ofNat 32 q, BitVec.ofNat 32 (q / 2 ^ 32), stream, 0) k0 k1 with
  | (x0, x1, x2, x3) => match l % 4 with | 0 => x0 | 1 => x1 | 2 => x2 | _ => x3

/-- The five trits of a T5 byte as digits minus 1 (R70); an invalid byte decodes as zeros (R72). -/
def tritOf (byte i : Nat) : Int :=
  if byte ≥ 0xF3 then 0 else ((byte / 3 ^ i % 3 : Nat) : Int) - 1

end Sys2Proof.Machine
end

