-- ==== Sys2Proof/Machine/Atomics.lean ====
section
/-! DEFINITION. The memory-side adders (spec/10_memory.md R273 to R278, R92, R102): one contribution
applied to one element. -/

namespace Sys2Proof.Machine

/-- Bytes of an element under an ATOMIC code (R102, R274). -/
def atomicBytes (code : Nat) : Nat :=
  match code with
  | 1 | 4 | 5 => 8
  | 8 => 2
  | _ => 4

/-- Integer operations (R275): add wraps, max and min compare as signed. -/
def atomicInt (w : Nat) (op : Nat) (old x : Nat) : Nat :=
  let a := signedOf w old
  let b := signedOf w x
  match op with
  | 0 => (old + x) % 2 ^ w
  | 1 => if a < b then x else old
  | _ => if b < a then x else old

/-- What an exact-mode contribution does (R277): the slot, the element, and whether XOVER is set. -/
def exactAdd (slot : BitVec 128) (elem x : Word) : BitVec 128 × Word × Bool :=
  match fval x with
  | .nan => (slot, fNaN, false)
  | .inf neg =>
    let e := if fIsNaN elem then elem
             else if fIsInf elem && bit elem.toNat 31 != neg then fNaN
             else if neg then fNegInf else fInf
    (slot, e, false)
  | .num neg m ex =>
    if !dyLt m ex 1 63 then
      let e := if fIsNaN elem then elem
               else if fIsInf elem && bit elem.toNat 31 != neg then fNaN
               else if neg then fNegInf else fInf
      (slot, e, true)
    else
      let k := ex + 64
      let c := if 0 ≤ k then m <<< k.toNat else shiftRound .rne m (-k).toNat
      let t := if neg then slot - BitVec.ofNat 128 c else slot + BitVec.ofNat 128 c
      let v := t.toInt
      let e := if fIsNaN elem || fIsInf elem then elem
               else f32 (.num (decide (v < 0)) v.natAbs (-64))
      (t, e, false)

/-- One contribution on an element's old bits (not exact mode): the new bits (R275). -/
def atomicPlain (code old x : Nat) : Nat :=
  match code with
  | 0 => atomicInt 32 0 old x
  | 1 => atomicInt 64 0 old x
  | 2 => atomicInt 32 1 old x
  | 3 => atomicInt 32 2 old x
  | 4 => atomicInt 64 1 old x
  | 5 => atomicInt 64 2 old x
  | 6 => (fadd (BitVec.ofNat 32 old) (BitVec.ofNat 32 x)).toNat
  | 8 => toBf16 .rne (f32 ((Elem.bf16.value old).add (Elem.bf16.value x)))
  | _ => old

end Sys2Proof.Machine
end

