-- ==== Sys2Proof/Config.lean ====
section
/-! DEFINITION. The free values of the model: what the spec leaves open, or leaves to a published
standard that the spec names and does not repeat. Each is a constant without a body, so nothing
can be proved of its value (notes/assumptions/10.md to 17.md). -/

namespace Sys2Proof.Config

/-- What a sequence header or SPS requires (R347, R350, R368): its profile (AV1 0 Main; HEVC 1 Main, 2 Main 10, 3 Main Still
Picture; else none of these), ten times its level, whether it is monochrome, else whether 4:2:0, whether 10-bit, its largest picture, and
for HEVC sps_max_dec_pic_buffering_minus1. -/
structure SeqHeader where
  profile : Nat
  level : Nat
  mono : Bool
  yuv420 : Bool
  ten : Bool
  width : Nat
  height : Nat
  buffers : Nat
  deriving DecidableEq, Repr, Inhabited

/-- What is decoded of a superblock: whether it lies in a unit that an error abandons, its vector in quarter samples (none where it
is intra), and the superblocks of earlier frames, by frame and number, from which it is predicted (R368 to R370). -/
structure Block where
  bad : Bool
  vec : Option (Int × Int)
  refs : List (Nat × Nat)
  deriving DecidableEq, Repr, Inhabited

/-- A picture of a stream: whether its header is in error, its size, whether it is an IRAP picture (a key frame), its order count
and recovery_poc_cnt where it carries that SEI, the distinct frames that its reference update leaves held (AV1), the frames that
are kept after it, by number, the units in error, its superblocks, its codes in raster order, and its film grain. -/
structure Picture where
  bad : Bool
  width : Nat
  height : Nat
  irap : Bool
  poc : Int
  sei : Option Nat
  held : Nat
  keep : List Nat
  errors : Nat
  blocks : List Block
  luma : List Nat
  cb : List Nat
  cr : List Nat
  grain : Option Nat
  deriving DecidableEq, Repr, Inhabited

/-- A decoded frame: its number in decoding order, its size and form, its codes, its vectors by superblock (none where that is intra
or concealed), and its marks by superblock: those that errors leave, those that missing references leave (R370). -/
structure Decoded where
  number : Nat
  width : Nat
  height : Nat
  ten : Bool
  mono : Bool
  luma : List Nat
  cb : List Nat
  cr : List Nat
  vecs : List (Option (Int × Int))
  err : List Nat
  miss : List Nat
  grain : Option Nat
  deriving DecidableEq, Repr, Inhabited

/-- What a chunk holds, in order: a sequence header, a picture, an error outside a picture, or no more than frames that fall due; with
each the numbers of the frames that then fall due for output (R367, R368). -/
inductive DecItem where
  | header (h : SeqHeader)
  | picture (p : Picture) (due : List Nat)
  | error
  | show (due : List Nat)
  deriving DecidableEq, Repr, Inhabited

/-- What a decode engine finds in a chunk: the stream's next state (a code), its items, and whether it has read the reference
area. -/
structure DecResult where
  state : Nat
  items : List DecItem
  reads : Bool
  deriving DecidableEq, Repr, Inhabited

/-- What an encode engine makes of one frame (R352, R358): the stream's next reference state (a
code), the frame header's payload, the payload of each unit, and how the QP moves from row to row. -/
structure EncResult where
  state : Nat
  frame : List Byte
  units : List (List Byte)
  qps : List Nat
  deriving DecidableEq, Repr, Inhabited

/-- How far a native special function's result lies from the correctly rounded one (R182): the
function code and the FP32 argument. The model clamps it to the error bound of R182 before it uses
it (Sys2Proof/Machine/Special.lean), so the bound holds whatever this constant is.
FREE VALUE, notes/assumptions/10.md. -/
opaque ulpOffset : Nat → Word → Int

/-- Encoder decisions and bitstream (R352, R365): from the stream's configuration record, its reference
state, the job record, the bytes of the input frame and its regions, and the vectors that the motion search
found for each superblock.
FREE VALUE, notes/assumptions/11.md. -/
opaque encode : BitVec 512 → Nat → BitVec 512 → List Byte → List (List (Option (Int × Int))) → EncResult

/-- The luma sample of a stream's reference picture at a position in quarter samples, through the codec's
interpolation filter (R348, R365): from the configuration record and the reference state.
FREE VALUE, notes/assumptions/11.md. -/
opaque refSample : BitVec 512 → Nat → Int → Int → Nat

/-- λ times the cost estimate of a vector (R365), X and Y in quarter samples.
FREE VALUE, notes/assumptions/11.md. -/
opaque vecCost : BitVec 512 → Nat → Int → Int → Nat

/-- Whether a vector lies within the stream's reach (R365).
FREE VALUE, notes/assumptions/11.md. -/
opaque vecReach : BitVec 512 → Int → Int → Bool

/-- Payload k of a stream's parameter sets (AV1: the sequence header; HEVC: VPS, SPS, PPS and, last, the access unit delimiter), from
its configuration, ten times the level it declares, and whether that is in the High tier (R348, R359).
FREE VALUE, notes/assumptions/11.md. -/
opaque paramSet : BitVec 512 → Nat → Bool → Nat → List Byte

/-- The stepping's fixed rule for a frame's starting QP (R362): from the configuration, the virtual buffer's fullness times FPS_NUM
and the previous frame's QP. FREE VALUE, notes/assumptions/11.md. -/
opaque startQp : BitVec 512 → Nat → Nat → Nat

/-- Decoder (R349, R367): from the stream's configuration record, its state, the frames that it keeps, and the chunk.
FREE VALUE, notes/assumptions/11.md. -/
opaque decode : BitVec 512 → Nat → List Decoded → List Byte → DecResult

/-- The numbers of the frames still due for output when a decode stream closes (R357).
FREE VALUE, notes/assumptions/11.md. -/
opaque decodeFlush : BitVec 512 → Nat → List Nat

/-- AV1 film-grain synthesis (R349): of a plane (0 luma, 1 Cb, 2 Cr), from its grain and its codes.
FREE VALUE, notes/assumptions/11.md. -/
opaque filmGrain : Nat → Nat → List Nat → List Nat

/-- Falcon-1024 verification (16, R418): public key, message, signature.
FREE VALUE, notes/assumptions/12.md. -/
opaque falconVerify : List Byte → List Byte → List Byte → Bool

/-- A byte of the padded Falcon-1024 signature of a message under the device identity key of this secret (R421, R423).
FREE VALUE, notes/assumptions/12.md. -/
opaque falconSign : List Byte → List Byte → Nat → Byte

/-- Falcon-1024 key generation from a seed: the public key (R421).
FREE VALUE, notes/assumptions/12.md. -/
opaque falconPublic : List Byte → List Byte

/-- The hash of Calaisa's image key in the boot ROM (R418). FREE VALUE, notes/assumptions/12.md. -/
opaque calaisaHash : List Byte

/-- Calaisa's certifying key, against which a peer's certificate is checked (R306).
FREE VALUE, notes/assumptions/12.md. -/
opaque calaisaCertKey : List Byte

/-- The boot ROM version of the attestation report (R423). FREE VALUE, notes/assumptions/12.md. -/
opaque romVersion : Word

/-- Whether a level (ten times its number) and tier admit the picture size, frame rate and bit rate (R348), by the
codec's own standard: from the configuration record, the level and whether the tier is High.
FREE VALUE, notes/assumptions/13.md. -/
opaque levelAdmits : BitVec 512 → Nat → Bool → Bool

/-- Beats completed by a loop in one ns (R49, R50): loop number (facets 0 to 23, halves 24 and 25), the
voltage of its core rail where it has one (R432), the junction's temperature, and the time, by which the silicon's own rate is free.
FREE VALUE, notes/assumptions/14.md. -/
opaque beats : Nat → List Nat → Nat → Nat → Nat

/-- Beats of a facet's loop in that ns in which an A row entered (R144), from the same.
FREE VALUE, notes/assumptions/14.md. -/
opaque activeBeats : Nat → List Nat → Nat → Nat → Nat

/-- A byte the spec leaves unspecified (R344, R424, R443), applied to the model's fresh counter
and a position. FREE VALUE, notes/assumptions/15.md. -/
opaque freeByte : Nat → Nat → Byte

/-- Where the member of a rank keeps what this member keeps at an offset of its own (R318, R325, R327, R330,
R332, R335): the spec lets the addresses differ and does not say how a sender learns them.
FREE VALUE, notes/assumptions/27.md. -/
opaque peerAddr : Nat → Nat → Nat

/-- RECV_SIZE_64K of the member of a rank, which may differ from this member's (R318) and places its second ring buffer (R335,
R336): the spec does not say how a sender learns it. FREE VALUE, notes/assumptions/27.md. -/
opaque peerSize : Nat → Nat

/-- Whether a gang's compute is unfinished when a watchdog expires (R343), applied to the model's fresh
counter. FREE VALUE, notes/assumptions/29.md. -/
opaque computeLeft : Nat → Bool

/-- Calaisa's PCI-SIG Vendor ID (R423). FREE VALUE, notes/assumptions/12.md. -/
opaque calaisaVendor : BitVec 16

/-- A byte of a region of a section read-out that the state does not hold or the spec leaves to the stepping (R449), and how
many logic regions there are, how a region is numbered and how long one is: by the fresh counter, the region and the position.
FREE VALUE, notes/assumptions/17.md. -/
opaque scanByte : Nat → Nat → Nat → Byte
opaque scanLayout : Nat → Nat → Nat → Nat

/-- How far a sequence of the NVM port or of the fuses had come when it was cut off (R427, R428, R462), by the fresh counter.
FREE VALUE, notes/assumptions/50.md and 54.md. -/
opaque cutAt : Nat → Nat → Nat

/-- A byte that a codec's reference area holds (R357), by the stream's configuration, its reference state and the position.
FREE VALUE, notes/assumptions/11.md. -/
opaque refByte : BitVec 512 → Nat → Nat → Byte

/-- What the PCIe link trains to (R374), by the fresh counter: position 0 its width, position 1 its rate.
FREE VALUE, notes/assumptions/17.md. -/
opaque trained : Nat → Nat → Nat

/-- What the test port has put into the reserved bits of the register at a place of the map (R400), by the number of its uses.
FREE VALUE, notes/assumptions/46.md. -/
opaque testControl : Nat → Nat → BitVec 32

/-- The random nonce a port sends (R305). FREE VALUE, notes/assumptions/17.md. -/
opaque nonce : Nat → Nat → BitVec 256

end Sys2Proof.Config
end

