-- ==== Sys2Proof/Machine/Regs.lean ====
section
/-! DEFINITION. The register map (spec/15_registers.md R394 to R412 and the register tables of every
chapter): names, BAR0 offsets, fields with their access codes, and reset values. -/

namespace Sys2Proof.Machine

/-- Access codes (R13, R398). -/
inductive Access where
  | ro | rw | rk | lv | wz | rw3 | ro3
  deriving DecidableEq, Repr

/-- The registers, each with its index; a two-word value has one name and a flag for its HI word. -/
inductive Reg where
  | bttId | bttVersions | bttSerial (hi : Bool) | bttFwVer | bttGstatus
  | errSummary | errHwLog | errHwWhere (hi : Bool) | errCeCnt | errUeCnt
  | errMirror (o : Nat) | errRegLog | errVoteWhere | errRejectWhere | errVoteCnt
  | pwrStatus | pwrCap | pwrSlew | pwrVtarget | pwrLog | pwrPower | pwrVcore | pwrTrip | pwrLgSeq
  | pwrLgSel | pwrBeat (h : Nat) (hi : Bool) | pwrLgWindow (o : Nat)
  | pwrLc (u : Nat)
  | merTime (hi : Bool) | merStatus | merLog
  | secCtrl | secStatus | secLog
  | partCtrl (p : Nat) | partUnits (p : Nat) | partCodecs (p : Nat) | partCeil (p : Nat)
  | partQueues (p : Nat) | partCtrs (p : Nat) | partQmask (p f : Nat)
  | seqWord (o : Nat) | seqWindow (fn : Nat)
  | ctrValue (n : Nat) | ctrSignal (n : Nat)
  | fctStatus (f : Nat) | fctFaultLog (f : Nat) | fctFaultIndex (f : Nat) | fctWaitLimit (f : Nat)
  | fctCapLog (f : Nat) | fctBeat (f : Nat) (hi : Bool) | fctActive (f : Nat) (hi : Bool)
  | fctNumLog (f : Nat) | fctT5Bad (f : Nat) | fctQLog (f : Nat) | fctQsatCnt (f : Nat)
  | fctQzeroCnt (f : Nat) | fctQpromoCnt (f : Nat) | fctQoutCnt (f : Nat) | fctChkSamples (f : Nat)
  | fctChkExceeds (f : Nat) | fctChkMaxerr (f : Nat) | fctChkTile (f : Nat) | fctChkWhere (f : Nat)
  | fctVLog (f : Nat) | fctNegvarCnt (f : Nat) | fctAttLog (f : Nat) | fctKeyfmtWhere (f : Nat)
  | fctKeyfmtPage (f : Nat)
  | memStatus (s : Nat) | memLog (s : Nat) | memP1OverCnt (s : Nat) | memGran (g : Nat)
  | nmhStatus (h : Nat) | nmhLog (h : Nat) | nmhP1OverCnt (h : Nat) | nmhBridgeP1OverCnt (h : Nat)
  | nmhOcc (p : Nat) | nmhEvwaitCnt (p : Nat)
  | lnkPortStatus (p : Nat) | lnkPortMap (p : Nat) | lnkPortLog (p : Nat) | lnkFecCorr (p : Nat)
  | lnkFecUncorr (p : Nat) | lnkReplayCnt (p : Nat)
  | lnkVertexStatus | lnkCtrl | lnkOpTimeout | lnkRanks (p : Nat) | rankEntry (p r : Nat)
  | chdStatus (e : Nat) | chdLog (e : Nat) | chdPreemptReq (e : Nat) | chdPreemptDone (e : Nat)
  | chdWatchdog (e p : Nat) | chdStall (e p : Nat)
  | codStatus (c : Nat) | codLog (c : Nat) | codLateCnt (c : Nat) | codSyntaxCnt (c : Nat)
  | codConcealCnt (c : Nat)
  | tceStatus (e : Nat) | tceLog (e : Nat) | tceClampCnt (e : Nat)
  | hstLink | hstLog | bar4Base (fn : Nat) (hi : Bool)
  | qRing (q : Nat) (hi : Bool) | qCfg (q : Nat) | qHead (q : Nat) | qCq (q : Nat) (hi : Bool)
  | qCqCfg (q : Nat) | qCqHead (q : Nat) | qCqTail (q : Nat) | qLog (q : Nat)
  | msixWord (fn o : Nat) | msixPending (fn o : Nat)
  | bootStatus | imageLog | recovCtrl | nvmCtrl | fuseCtrl | ownerHash (i : Nat)
  deriving DecidableEq, Repr

/-- One 32-bit field. -/
def whole (a : Access) : List (Nat × Nat × Access) := [(31, 0, a)]

/-- A log of `n` WZ bits under reserved bits. -/
def wzLog (n : Nat) : List (Nat × Nat × Access) := [(31, n, .rk), (n - 1, 0, .wz)]

/-- The fields of a register: highest bit, lowest bit, access code. -/
def Reg.fields : Reg → List (Nat × Nat × Access)
  | .bttId => [(31, 8, .ro), (7, 0, .rk)]
  | .bttVersions => [(31, 28, .rk), (27, 0, .ro)]
  | .bttSerial _ => whole .ro
  | .bttFwVer => whole .ro
  | .bttGstatus => [(31, 6, .rk), (5, 0, .lv)]
  | .errSummary => [(31, 14, .rk), (13, 0, .lv)]
  | .errHwLog => wzLog 7
  | .errHwWhere _ => whole .ro
  | .errCeCnt => whole .ro
  | .errUeCnt => whole .ro
  | .errMirror _ => whole .ro
  | .errRegLog => wzLog 4
  | .errVoteWhere => [(31, 26, .rk), (25, 0, .ro)]
  | .errRejectWhere => [(31, 27, .ro), (26, 26, .rk), (25, 0, .ro)]
  | .errVoteCnt => whole .ro
  | .pwrStatus => [(31, 10, .rk), (9, 4, .lv), (3, 0, .rk)]
  | .pwrCap => [(31, 27, .rk), (26, 16, .rw3), (15, 11, .rk), (10, 0, .rw3)]
  | .pwrSlew => [(31, 27, .rk), (26, 16, .ro3), (15, 7, .rk), (6, 0, .rw3)]
  | .pwrVtarget => [(31, 8, .rk), (7, 0, .rw3)]
  | .pwrLog => wzLog 6
  | .pwrPower => [(31, 24, .rk), (23, 0, .lv)]
  | .pwrVcore => whole .lv
  | .pwrTrip => [(31, 12, .rk), (11, 0, .ro)]
  | .pwrLgSeq => whole .ro
  | .pwrLgSel => [(31, 1, .rk), (0, 0, .rw)]
  | .pwrBeat _ _ => whole .ro
  | .pwrLgWindow _ => whole .ro
  | .pwrLc _ => [(31, 9, .rk), (8, 8, .rw), (7, 4, .rk), (3, 0, .lv)]
  | .merTime _ => whole .ro
  | .merStatus => [(31, 28, .rk), (27, 16, .lv), (15, 11, .rk), (10, 0, .lv)]
  | .merLog => wzLog 3
  | .secCtrl => [(31, 2, .rk), (1, 0, .rw)]
  | .secStatus => [(31, 4, .rk), (3, 0, .lv)]
  | .secLog => wzLog 2
  | .partCtrl _ => [(31, 9, .rk), (8, 8, .rw3), (7, 3, .rk), (2, 0, .lv)]
  | .partUnits _ => [(31, 24, .rk), (23, 0, .rw3)]
  | .partCodecs _ => [(31, 12, .rk), (11, 0, .rw3)]
  | .partCeil _ => [(31, 10, .rk), (9, 0, .rw3)]
  | .partQueues _ => [(31, 25, .rk), (24, 0, .rw3)]
  | .partCtrs _ => [(31, 29, .rk), (28, 0, .rw3)]
  | .partQmask _ _ => [(31, 25, .rk), (24, 0, .rw3)]
  | .seqWord _ => whole .lv
  | .seqWindow _ => [(31, 6, .rk), (5, 0, .rw)]
  | .ctrValue _ => whole .lv
  | .ctrSignal _ => whole .lv
  | .fctStatus _ => [(31, 22, .rk), (21, 0, .lv)]
  | .fctFaultLog _ => [(31, 9, .rk), (8, 8, .wz), (7, 0, .ro)]
  | .fctFaultIndex _ => [(31, 28, .rk), (27, 0, .ro)]
  | .fctWaitLimit _ => [(31, 24, .rk), (23, 0, .rw)]
  | .fctCapLog _ => [(31, 26, .rk), (25, 0, .ro)]
  | .fctBeat _ _ => whole .ro
  | .fctActive _ _ => whole .ro
  | .fctNumLog _ => wzLog 4
  | .fctT5Bad _ => whole .ro
  | .fctQLog _ => wzLog 5
  | .fctQsatCnt _ => whole .ro
  | .fctQzeroCnt _ => whole .ro
  | .fctQpromoCnt _ => whole .ro
  | .fctQoutCnt _ => whole .ro
  | .fctChkSamples _ => whole .ro
  | .fctChkExceeds _ => whole .ro
  | .fctChkMaxerr _ => whole .ro
  | .fctChkTile _ => whole .ro
  | .fctChkWhere _ => [(31, 28, .rk), (27, 0, .ro)]
  | .fctVLog _ => wzLog 3
  | .fctNegvarCnt _ => whole .ro
  | .fctAttLog _ => wzLog 3
  | .fctKeyfmtWhere _ => [(31, 24, .rk), (23, 0, .ro)]
  | .fctKeyfmtPage _ => whole .ro
  | .memStatus _ => [(31, 24, .rk), (23, 12, .lv), (11, 0, .rk)]
  | .memLog _ => wzLog 3
  | .memP1OverCnt _ => whole .ro
  | .memGran _ => [(31, 16, .rk), (15, 14, .lv), (13, 9, .rw3), (8, 5, .rk), (4, 0, .rw3)]
  | .nmhStatus _ => [(31, 17, .rk), (16, 0, .lv)]
  | .nmhLog _ => wzLog 2
  | .nmhP1OverCnt _ => whole .ro
  | .nmhBridgeP1OverCnt _ => whole .ro
  | .nmhOcc _ => [(31, 17, .rk), (16, 0, .ro)]
  | .nmhEvwaitCnt _ => whole .ro
  | .lnkPortStatus _ => [(31, 24, .rk), (23, 0, .lv)]
  | .lnkPortMap _ => [(31, 11, .rk), (10, 0, .ro3)]
  | .lnkPortLog _ => wzLog 11
  | .lnkFecCorr _ => whole .ro
  | .lnkFecUncorr _ => whole .ro
  | .lnkReplayCnt _ => whole .ro
  | .lnkVertexStatus => [(31, 19, .rk), (18, 17, .lv), (16, 0, .ro)]
  | .lnkCtrl => [(31, 13, .rk), (12, 0, .rw)]
  | .lnkOpTimeout => [(31, 24, .rk), (23, 0, .rw)]
  | .lnkRanks _ => [(31, 13, .rk), (12, 0, .rw3)]
  | .rankEntry _ _ => [(31, 31, .rw3), (30, 17, .rk), (16, 0, .rw3)]
  | .chdStatus _ => [(31, 6, .rk), (5, 0, .lv)]
  | .chdLog _ => wzLog 5
  | .chdPreemptReq _ => whole .rw
  | .chdPreemptDone _ => whole .lv
  | .chdWatchdog _ _ => [(31, 24, .rk), (23, 0, .rw)]
  | .chdStall _ _ => [(31, 26, .rk), (25, 0, .ro)]
  | .codStatus _ => [(31, 13, .rk), (12, 1, .lv), (0, 0, .ro)]
  | .codLog _ => wzLog 6
  | .codLateCnt _ => whole .ro
  | .codSyntaxCnt _ => whole .ro
  | .codConcealCnt _ => whole .ro
  | .tceStatus _ => [(31, 6, .rk), (5, 0, .lv)]
  | .tceLog _ => wzLog 3
  | .tceClampCnt _ => whole .ro
  | .hstLink => [(31, 8, .rk), (7, 0, .lv)]
  | .hstLog => wzLog 2
  | .bar4Base _ _ => whole .rw
  | .qRing _ _ => whole .rw
  | .qCfg _ => [(31, 25, .rk), (24, 0, .rw)]
  | .qHead _ => whole .ro
  | .qCq _ _ => whole .rw
  | .qCqCfg _ => whole .rw
  | .qCqHead _ => whole .rw
  | .qCqTail _ => whole .ro
  | .qLog _ => wzLog 4
  | .msixWord _ _ => whole .rw
  | .msixPending _ _ => whole .lv
  | .bootStatus => [(31, 26, .rk), (25, 14, .ro3), (13, 7, .ro), (6, 4, .rk), (3, 0, .lv)]
  | .imageLog => [(31, 16, .rk), (15, 8, .ro), (7, 4, .rk), (3, 0, .wz)]
  | .recovCtrl => [(31, 30, .rk), (29, 12, .rw), (11, 0, .rk)]
  | .nvmCtrl => [(31, 8, .rk), (7, 4, .ro), (3, 2, .rk), (1, 1, .lv), (0, 0, .rw)]
  | .fuseCtrl => [(31, 24, .rw), (23, 20, .rk), (19, 12, .rw), (11, 1, .rk), (0, 0, .lv)]
  | .ownerHash _ => whole .rw

/-- The reset value of the stored fields; live fields show their cause instead. -/
def Reg.resetValue : Reg → Word
  | .bttId => 0xE101_A100
  | .bttVersions => 0x0111_1111
  | .lnkOpTimeout => 0x0000_4E20
  | .chdWatchdog _ _ => 0x0000_C350
  | .pwrVtarget => 0x0000_008C
  | .pwrLc _ => 0x0000_0100
  | .msixWord _ o => if o % 16 = 12 then 1 else 0
  | _ => 0

/-- Where a two-word value's word lies. -/
def hiOff (hi : Bool) : Nat := if hi then 4 else 0

/-- The prism of facet f (R15). -/
def prismOf (f : Nat) : Nat := f / 6
/-- The start of facet f's block (R15). -/
def facetBlock (f : Nat) : Nat := 0x0010_0000 + f * 0x0001_0000
/-- The start of partition p's entry (R382). -/
def partBlock (p : Nat) : Nat := 0x0001_0000 + p * 0x0400
/-- The start of the other blocks (R410). -/
def memBlock (s : Nat) : Nat := 0x0040_0000 + s * 0x0001_0000
def nmhBlock (h : Nat) : Nat := 0x0050_0000 + h * 0x8000
def portBlock (p : Nat) : Nat := 0x0060_0000 + p * 0x1000
def chordBlock (e : Nat) : Nat := 0x0070_0000 + e * 0x0001_0000
def codecBlock (c : Nat) : Nat := 0x0080_0000 + c * 0x0001_0000
def thinBlock (e : Nat) : Nat := 0x0090_0000 + e * 0x0001_0000
def queueBlock (q : Nat) : Nat := 0x00A1_0000 + q * 0x40

/-- The BAR0 offset of a register (R410). -/
def Reg.offset : Reg → Nat
  | .bttId => 0x0000 | .bttVersions => 0x0004 | .bttSerial hi => 0x0008 + hiOff hi
  | .bttFwVer => 0x0010 | .bttGstatus => 0x0020
  | .errSummary => 0x1000 | .errHwLog => 0x1004 | .errHwWhere hi => 0x1008 + hiOff hi
  | .errCeCnt => 0x1010 | .errUeCnt => 0x1014 | .errMirror o => 0x1000 + o
  | .errRegLog => 0x1F00 | .errVoteWhere => 0x1F04 | .errRejectWhere => 0x1F08 | .errVoteCnt => 0x1F0C
  | .pwrStatus => 0x2000 | .pwrCap => 0x2004 | .pwrSlew => 0x2008 | .pwrVtarget => 0x200C
  | .pwrLog => 0x2010 | .pwrPower => 0x2014 | .pwrVcore => 0x2018 | .pwrTrip => 0x201C
  | .pwrLgSeq => 0x2020 | .pwrLgSel => 0x2024 | .pwrBeat h hi => 0x2040 + 8 * h + hiOff hi
  | .pwrLgWindow o => 0x2800 + o
  | .pwrLc u => 0x3000 + 4 * u
  | .merTime hi => 0x4000 + hiOff hi | .merStatus => 0x4008 | .merLog => 0x400C
  | .secCtrl => 0x5000 | .secStatus => 0x5004 | .secLog => 0x5008
  | .partCtrl p => partBlock p | .partUnits p => partBlock p + 4 | .partCodecs p => partBlock p + 8
  | .partCeil p => partBlock p + 0xC | .partQueues p => partBlock p + 0x10
  | .partCtrs p => partBlock p + 0x14 | .partQmask p f => partBlock p + 0x100 + 4 * f
  | .seqWord o => 0x0002_0000 + o | .seqWindow _ => 0x0003_0000
  | .ctrValue n => 0x0004_0000 + 16 * n | .ctrSignal n => 0x0004_0000 + 16 * n + 4
  | .fctStatus f => facetBlock f | .fctFaultLog f => facetBlock f + 0x8
  | .fctFaultIndex f => facetBlock f + 0xC | .fctWaitLimit f => facetBlock f + 0x10
  | .fctCapLog f => facetBlock f + 0x14 | .fctBeat f hi => facetBlock f + 0x40 + hiOff hi
  | .fctActive f hi => facetBlock f + 0x48 + hiOff hi | .fctNumLog f => facetBlock f + 0x80
  | .fctT5Bad f => facetBlock f + 0x84 | .fctQLog f => facetBlock f + 0xC0
  | .fctQsatCnt f => facetBlock f + 0xC4 | .fctQzeroCnt f => facetBlock f + 0xC8
  | .fctQpromoCnt f => facetBlock f + 0xCC | .fctQoutCnt f => facetBlock f + 0xD0
  | .fctChkSamples f => facetBlock f + 0xD4 | .fctChkExceeds f => facetBlock f + 0xD8
  | .fctChkMaxerr f => facetBlock f + 0xDC | .fctChkTile f => facetBlock f + 0xE0
  | .fctChkWhere f => facetBlock f + 0xE4 | .fctVLog f => facetBlock f + 0x100
  | .fctNegvarCnt f => facetBlock f + 0x104 | .fctAttLog f => facetBlock f + 0x140
  | .fctKeyfmtWhere f => facetBlock f + 0x144 | .fctKeyfmtPage f => facetBlock f + 0x148
  | .memStatus s => memBlock s | .memLog s => memBlock s + 8 | .memP1OverCnt s => memBlock s + 0xC
  | .memGran g => memBlock (g / 48) + 0x100 + 4 * (g % 48)
  | .nmhStatus h => nmhBlock h | .nmhLog h => nmhBlock h + 8 | .nmhP1OverCnt h => nmhBlock h + 0xC
  | .nmhBridgeP1OverCnt h => nmhBlock h + 0x10
  | .nmhOcc p => 0x0051_0000 + 4 * p | .nmhEvwaitCnt p => 0x0051_0100 + 4 * p
  | .lnkPortStatus p => portBlock p | .lnkPortMap p => portBlock p + 4 | .lnkPortLog p => portBlock p + 8
  | .lnkFecCorr p => portBlock p + 0x10 | .lnkFecUncorr p => portBlock p + 0x14
  | .lnkReplayCnt p => portBlock p + 0x18
  | .lnkVertexStatus => 0x0060_F000 | .lnkCtrl => 0x0060_F004 | .lnkOpTimeout => 0x0060_F008
  | .lnkRanks p => 0x0067_F000 + 4 * p | .rankEntry p r => 0x0068_0000 + p * 0x4000 + 4 * r
  | .chdStatus e => chordBlock e | .chdLog e => chordBlock e + 8 | .chdPreemptReq e => chordBlock e + 0x10
  | .chdPreemptDone e => chordBlock e + 0x14 | .chdWatchdog e p => chordBlock e + 0x100 + 4 * p
  | .chdStall e p => chordBlock e + 0x200 + 4 * p
  | .codStatus c => codecBlock c | .codLog c => codecBlock c + 8 | .codLateCnt c => codecBlock c + 0xC
  | .codSyntaxCnt c => codecBlock c + 0x10 | .codConcealCnt c => codecBlock c + 0x14
  | .tceStatus e => thinBlock e | .tceLog e => thinBlock e + 8 | .tceClampCnt e => thinBlock e + 0xC
  | .hstLink => 0x00A0_0000 | .hstLog => 0x00A0_0008 | .bar4Base _ hi => 0x00A0_0010 + hiOff hi
  | .qRing q hi => queueBlock q + hiOff hi | .qCfg q => queueBlock q + 8 | .qHead q => queueBlock q + 0xC
  | .qCq q hi => queueBlock q + 0x10 + hiOff hi | .qCqCfg q => queueBlock q + 0x18
  | .qCqHead q => queueBlock q + 0x1C | .qCqTail q => queueBlock q + 0x20 | .qLog q => queueBlock q + 0x24
  | .msixWord _ o => 0x00A8_0000 + o | .msixPending _ o => 0x00A9_0000 + o
  | .bootStatus => 0x00B0_0000 | .imageLog => 0x00B0_0008 | .recovCtrl => 0x00B0_0010
  | .nvmCtrl => 0x00B0_0014 | .fuseCtrl => 0x00B0_0018 | .ownerHash i => 0x00B0_0040 + 4 * i

/-- The function whose own copy a register is; 0 where there is one copy. -/
def Reg.copyOf : Reg → Nat
  | .seqWindow fn => fn
  | .bar4Base fn _ => fn
  | .msixWord fn _ => fn
  | .msixPending fn _ => fn
  | _ => 0

/-- The register file's key: the offset, with the function above it where each has its own copy. -/
def Reg.key (r : Reg) : Nat := r.copyOf * 0x0400_0000 + r.offset

/-- MSI-X vectors of a function (R375). -/
def msixVectors (fn : Nat) : Nat := if fn = 0 then 256 else 64

/-- The bits of a register under one access code. -/
def maskOf (a : Access) : List (Nat × Nat × Access) → Nat
  | [] => 0
  | (hi, lo, b) :: t => (if a = b then (2 ^ (hi + 1 - lo) - 1) <<< lo else 0) ||| maskOf a t

/-- The bits of register r under access code a. -/
def Reg.mask (r : Reg) (a : Access) : Word := BitVec.ofNat 32 (maskOf a r.fields)

/-- Whether a register holds triplicated fields (R404). -/
def Reg.triplicated (r : Reg) : Bool := r.fields.any fun x => x.2.2 == .rw3 || x.2.2 == .ro3

/-- Offsets in the facet block. -/
def facetReg (f o : Nat) : Option Reg :=
  match o with
  | 0x0 => some (.fctStatus f) | 0x8 => some (.fctFaultLog f) | 0xC => some (.fctFaultIndex f)
  | 0x10 => some (.fctWaitLimit f) | 0x14 => some (.fctCapLog f)
  | 0x40 => some (.fctBeat f false) | 0x44 => some (.fctBeat f true)
  | 0x48 => some (.fctActive f false) | 0x4C => some (.fctActive f true)
  | 0x80 => some (.fctNumLog f) | 0x84 => some (.fctT5Bad f)
  | 0xC0 => some (.fctQLog f) | 0xC4 => some (.fctQsatCnt f) | 0xC8 => some (.fctQzeroCnt f)
  | 0xCC => some (.fctQpromoCnt f) | 0xD0 => some (.fctQoutCnt f) | 0xD4 => some (.fctChkSamples f)
  | 0xD8 => some (.fctChkExceeds f) | 0xDC => some (.fctChkMaxerr f) | 0xE0 => some (.fctChkTile f)
  | 0xE4 => some (.fctChkWhere f)
  | 0x100 => some (.fctVLog f) | 0x104 => some (.fctNegvarCnt f)
  | 0x140 => some (.fctAttLog f) | 0x144 => some (.fctKeyfmtWhere f) | 0x148 => some (.fctKeyfmtPage f)
  | _ => none

/-- Offsets in a partition's entry. -/
def partReg (p o : Nat) : Option Reg :=
  match o with
  | 0x0 => some (.partCtrl p) | 0x4 => some (.partUnits p) | 0x8 => some (.partCodecs p)
  | 0xC => some (.partCeil p) | 0x10 => some (.partQueues p) | 0x14 => some (.partCtrs p)
  | _ => if 0x100 ≤ o ∧ o < 0x160 then some (.partQmask p ((o - 0x100) / 4)) else none

/-- Offsets in a queue's block. -/
def queueReg (q o : Nat) : Option Reg :=
  match o with
  | 0x0 => some (.qRing q false) | 0x4 => some (.qRing q true) | 0x8 => some (.qCfg q)
  | 0xC => some (.qHead q) | 0x10 => some (.qCq q false) | 0x14 => some (.qCq q true)
  | 0x18 => some (.qCqCfg q) | 0x1C => some (.qCqHead q) | 0x20 => some (.qCqTail q) | 0x24 => some (.qLog q)
  | _ => none

/-- Offsets in the power block. -/
def powerReg (o : Nat) : Option Reg :=
  match o with
  | 0x2000 => some .pwrStatus | 0x2004 => some .pwrCap | 0x2008 => some .pwrSlew | 0x200C => some .pwrVtarget
  | 0x2010 => some .pwrLog | 0x2014 => some .pwrPower | 0x2018 => some .pwrVcore | 0x201C => some .pwrTrip
  | 0x2020 => some .pwrLgSeq | 0x2024 => some .pwrLgSel
  | 0x2040 => some (.pwrBeat 0 false) | 0x2044 => some (.pwrBeat 0 true)
  | 0x2048 => some (.pwrBeat 1 false) | 0x204C => some (.pwrBeat 1 true)
  | _ => if 0x2800 ≤ o then some (.pwrLgWindow (o - 0x2800)) else none

/-- Offsets of the error-log block at which a log is mirrored (R446); between them lies no register. -/
def mirrorAt (o : Nat) : Bool :=
  [(0x100, 0x2E0), (0x300, 0x338), (0x340, 0x37C), (0x380, 0x3B8), (0x3C0, 0x3D8), (0x400, 0x600)].any fun r =>
    decide (r.1 ≤ o) && decide (o < r.2)

/-- Offsets in the error-log block (R446). -/
def errorReg (o : Nat) : Option Reg :=
  match o with
  | 0x1000 => some .errSummary | 0x1004 => some .errHwLog | 0x1008 => some (.errHwWhere false)
  | 0x100C => some (.errHwWhere true) | 0x1010 => some .errCeCnt | 0x1014 => some .errUeCnt
  | 0x1F00 => some .errRegLog | 0x1F04 => some .errVoteWhere | 0x1F08 => some .errRejectWhere
  | 0x1F0C => some .errVoteCnt
  | _ => if mirrorAt (o - 0x1000) then some (.errMirror (o - 0x1000)) else none

/-- Offsets in the low 64 KiB. -/
def lowReg (o : Nat) : Option Reg :=
  match o / 0x1000 with
  | 0 =>
    match o with
    | 0x0 => some .bttId | 0x4 => some .bttVersions | 0x8 => some (.bttSerial false)
    | 0xC => some (.bttSerial true) | 0x10 => some .bttFwVer | 0x20 => some .bttGstatus
    | _ => none
  | 1 => errorReg o
  | 2 => powerReg o
  | 3 => if o < 0x3100 then some (.pwrLc ((o - 0x3000) / 4)) else none
  | 4 =>
    match o with
    | 0x4000 => some (.merTime false) | 0x4004 => some (.merTime true) | 0x4008 => some .merStatus
    | 0x400C => some .merLog | _ => none
  | 5 =>
    match o with
    | 0x5000 => some .secCtrl | 0x5004 => some .secStatus | 0x5008 => some .secLog | _ => none
  | _ => none

/-- Offsets of the memory controllers, the directories and the links. -/
def fabricReg (o : Nat) : Option Reg :=
  if o < 0x004C_0000 then
    let s := (o - 0x0040_0000) / 0x0001_0000
    match o % 0x0001_0000 with
    | 0x0 => some (.memStatus s) | 0x8 => some (.memLog s) | 0xC => some (.memP1OverCnt s)
    | x => if 0x100 ≤ x ∧ x < 0x1C0 then some (.memGran (s * 48 + (x - 0x100) / 4)) else none
  else if 0x0050_0000 ≤ o ∧ o < 0x0051_0000 then
    let h := (o - 0x0050_0000) / 0x8000
    match o % 0x8000 with
    | 0x0 => some (.nmhStatus h) | 0x8 => some (.nmhLog h) | 0xC => some (.nmhP1OverCnt h)
    | 0x10 => some (.nmhBridgeP1OverCnt h) | _ => none
  else if 0x0051_0000 ≤ o ∧ o < 0x0051_0080 then some (.nmhOcc ((o - 0x0051_0000) / 4))
  else if 0x0051_0100 ≤ o ∧ o < 0x0051_0180 then some (.nmhEvwaitCnt ((o - 0x0051_0100) / 4))
  else if 0x0060_0000 ≤ o ∧ o < 0x0060_C000 then
    let p := (o - 0x0060_0000) / 0x1000
    match o % 0x1000 with
    | 0x0 => some (.lnkPortStatus p) | 0x4 => some (.lnkPortMap p) | 0x8 => some (.lnkPortLog p)
    | 0x10 => some (.lnkFecCorr p) | 0x14 => some (.lnkFecUncorr p) | 0x18 => some (.lnkReplayCnt p)
    | _ => none
  else if o = 0x0060_F000 then some .lnkVertexStatus
  else if o = 0x0060_F004 then some .lnkCtrl
  else if o = 0x0060_F008 then some .lnkOpTimeout
  else if 0x0067_F000 ≤ o ∧ o < 0x0067_F080 then some (.lnkRanks ((o - 0x0067_F000) / 4))
  else if 0x0068_0000 ≤ o ∧ o < 0x0070_0000 then
    some (.rankEntry ((o - 0x0068_0000) / 0x4000) (o % 0x4000 / 4))
  else none

/-- Offsets of the engines, the host interface and the boot block, seen by function fn. -/
def engineReg (fn o : Nat) : Option Reg :=
  if o < 0x0072_0000 then
    let e := (o - 0x0070_0000) / 0x0001_0000
    match o % 0x0001_0000 with
    | 0x0 => some (.chdStatus e) | 0x8 => some (.chdLog e) | 0x10 => some (.chdPreemptReq e)
    | 0x14 => some (.chdPreemptDone e)
    | x => if 0x100 ≤ x ∧ x < 0x180 then some (.chdWatchdog e ((x - 0x100) / 4))
           else if 0x200 ≤ x ∧ x < 0x280 then some (.chdStall e ((x - 0x200) / 4)) else none
  else if 0x0080_0000 ≤ o ∧ o < 0x008C_0000 then
    let c := (o - 0x0080_0000) / 0x0001_0000
    match o % 0x0001_0000 with
    | 0x0 => some (.codStatus c) | 0x8 => some (.codLog c) | 0xC => some (.codLateCnt c)
    | 0x10 => some (.codSyntaxCnt c) | 0x14 => some (.codConcealCnt c) | _ => none
  else if 0x0090_0000 ≤ o ∧ o < 0x0092_0000 then
    let e := (o - 0x0090_0000) / 0x0001_0000
    match o % 0x0001_0000 with
    | 0x0 => some (.tceStatus e) | 0x8 => some (.tceLog e) | 0xC => some (.tceClampCnt e) | _ => none
  else if o = 0x00A0_0000 then some .hstLink
  else if o = 0x00A0_0008 then some .hstLog
  else if o = 0x00A0_0010 then some (.bar4Base fn false)
  else if o = 0x00A0_0014 then some (.bar4Base fn true)
  else if 0x00A1_0000 ≤ o ∧ o < 0x00A5_0000 then queueReg ((o - 0x00A1_0000) / 0x40) (o % 0x40)
  else if 0x00A8_0000 ≤ o ∧ o < 0x00A8_0000 + 16 * msixVectors fn then some (.msixWord fn (o - 0x00A8_0000))
  else if 0x00A9_0000 ≤ o ∧ o < 0x00A9_0000 + msixVectors fn / 8 then some (.msixPending fn (o - 0x00A9_0000))
  else if 0x00B0_0000 ≤ o ∧ o < 0x00C0_0000 then
    match o with
    | 0x00B0_0000 => some .bootStatus | 0x00B0_0008 => some .imageLog | 0x00B0_0010 => some .recovCtrl
    | 0x00B0_0014 => some .nvmCtrl | 0x00B0_0018 => some .fuseCtrl
    | _ => if 0x00B0_0040 ≤ o ∧ o < 0x00B0_0080 then some (.ownerHash ((o - 0x00B0_0040) / 4)) else none
  else none

/-- The register at a 4-byte-aligned offset as function fn sees the map; none where no register
lies (R397). -/
def regAt (fn o : Nat) : Option Reg :=
  if o % 4 ≠ 0 then none
  else if o < 0x0001_0000 then lowReg o
  else if o < 0x0001_8000 then partReg ((o - 0x0001_0000) / 0x400) (o % 0x400)
  else if 0x0002_0000 ≤ o ∧ o < 0x0003_0000 then some (.seqWord (o - 0x0002_0000))
  else if o = 0x0003_0000 then some (.seqWindow fn)
  else if 0x0004_0000 ≤ o ∧ o < 0x0008_0000 then
    (if o % 16 = 0 then some (.ctrValue ((o - 0x0004_0000) / 16))
     else if o % 16 = 4 then some (.ctrSignal ((o - 0x0004_0000) / 16)) else none)
  else if 0x0010_0000 ≤ o ∧ o < 0x0028_0000 then
    facetReg ((o - 0x0010_0000) / 0x0001_0000) (o % 0x0001_0000)
  else if 0x0040_0000 ≤ o ∧ o < 0x0070_0000 then fabricReg o
  else if 0x0070_0000 ≤ o ∧ o < 0x00C0_0000 then engineReg fn o
  else none

end Sys2Proof.Machine
end

