-- ==== Sys2Proof/Machine/State.lean ====
section
/-! DEFINITION. The state of one vertex: every register, memory, buffer, counter, mode and land the spec
gives the package, and the queue of commands that wait. Plain data. Sparse tables (SMap) hold what is
numbered; what a number that is not listed reads as is a definition of Sys2Proof/Machine/Ops.lean. -/

namespace Sys2Proof.Machine

/-- A register: three copies (R404; equal where the field is not triplicated) and the new-set marks
of its WZ bits (R399). -/
structure RegCell where
  a : Word
  b : Word
  c : Word
  mark : Word
  deriving DecidableEq, Repr

/-- What runs on a stack granule after a MEM_GRAN write (R253). -/
structure GranProc where
  flush : Bool
  scrub : Bool
  needScrub : Bool
  clearClass : Bool
  deriving DecidableEq, Repr

/-- Directory states (R261); a tile without an entry is ABSENT. -/
inductive TileState where
  | filling | copy | movingUp | near | movingDown | cleaning
  deriving DecidableEq, Repr

/-- A write that reaches a directory: bytes, one memory-side atomic on an element (and its slot, in exact mode), or
the element that an exact-mode adder writes after its slot (R278). -/
inductive MemOp where
  | store (cells : List Host.Cell)
  | atomic (code : Nat) (addr : Nat) (slot : Nat) (value : Nat)
  | elem (addr : Nat) (value : Word)
  deriving DecidableEq, Repr

/-- A held write (R264): its source, its partition and what it writes, at most one granule; `bad` when
its data are poisoned (R443), and the arrived transaction that it belongs to (State.txDue). -/
structure HeldWrite where
  src : Nat
  part : Nat
  tile : Nat
  op : MemOp
  bad : Bool
  tx : Option Nat := none
  deriving DecidableEq, Repr

/-- A directory entry (R261). -/
structure DirEntry where
  size : Nat
  st : TileState
  owner : Nat
  units : List Nat
  touch : Nat
  handPin : Bool
  jobPins : List Nat
  p3 : Bool
  promo : Option Bool
  sealReq : Bool
  unsealReq : Bool
  held : List HeldWrite
  deriving DecidableEq, Repr

/-- A promotion that waits for units (R269), with the victim whose landing it awaits, and since when it waits. -/
structure PromoWait where
  tile : Nat
  part : Nat
  p3 : Bool
  counted : Bool
  victim : Option Nat
  since : Nat := 0
  deriving DecidableEq, Repr

/-- A memory controller's refresh and temperature state (R255, R256). -/
structure MemCtl where
  temp : Nat
  refresh : Nat
  throttle : Bool
  selfRefresh : Bool
  refreshDue : Bool
  deriving DecidableEq, Repr

/-- A request that waits at an arbiter (R63, R66): its class, and whether the P1 limit has held it (R61). -/
structure ArbWait where
  req : ArbRequest
  cls : Nat
  held : Bool
  deriving DecidableEq, Repr

/-- A shared arbiter (R60, R61, R37): frame slot, floor slots owed, last source served of each class, the classes of the last
grants, the requests that wait, the grant made last and its time. -/
structure Arbiter where
  slot : Nat
  owed3 : Nat
  owed4 : Nat
  last : SMap Nat
  hist : List Nat
  waiting : List ArbWait
  grant : Option ArbWait
  lastAt : Option Nat
  deriving DecidableEq, Repr

/-- An entry of a crossing FIFO (R56, R58): the ns for which it has stood there, and whether it is a read command, whose data
come back. -/
structure XEntry where
  age : Nat
  read : Bool
  deriving DecidableEq, Repr

/-- A boundary between the fabric and a clock domain (R56, R57): the FIFO away from the fabric, the one toward it, oldest
first, and the entries of the second that reads have reserved. -/
structure Crossing where
  away : List XEntry
  back : List XEntry
  reserved : Nat
  deriving DecidableEq, Repr

/-- A claimed work descriptor (R24, R390); `mute` once a Function Level Reset has ended its records (R381). -/
structure Claimed where
  queue : Nat
  part : Nat
  wseq : Word
  gang : Nat
  wd : BitVec 512
  mute : Bool := false
  deriving DecidableEq, Repr

/-- Why a member stopped: its code, the faulting member and instruction, and DETAIL (R391). -/
structure Stop where
  code : BitVec 8
  member : Nat
  index : Nat
  detail : Word
  deriving DecidableEq, Repr

/-- A byte range of a footprint (R118): host memory or stack memory, inclusive start, exclusive end, and the stretches of
at least 8 KiB inside it of which the instruction names no byte (R268). `named` says that it counts for the hazards of R118,
`used` that the instruction accesses it (R253, R267, R268): R206 names pages that an instruction never reads, and the rotation
rows that it reads are no part of its footprint. -/
structure Range where
  host : Bool
  lo : Nat
  hi : Nat
  write : Bool
  gaps : List (Nat × Nat) := []
  named : Bool := true
  used : Bool := true
  deriving DecidableEq, Repr

/-- Remote operations (R28). -/
inductive RemKind where
  | put | get | atomic | signal
  deriving DecidableEq, Repr

/-- A remote operation as its issuer forms it; `bad` when its data are poisoned (R443). A put or get whose
`nbits` is not 0 moves that many bits alone: they begin at bit `skip` of a get's data and at bit `head` of the
first byte written, whose other bits stay (R68, R111). `t5` says that a get's data are blocks of T5 (R71). -/
structure RemJob where
  kind : RemKind
  rank : Nat
  space : Nat
  offset : Nat
  len : Nat
  data : List Byte
  destHost : Bool
  dest : Nat
  code : Nat
  ret : Bool
  scalar : Bool
  arg : BitVec 64
  bad : Bool := false
  skip : Nat := 0
  head : Nat := 0
  nbits : Nat := 0
  t5 : Bool := false
  deriving DecidableEq, Repr

/-- What a sequencer fetches: instructions, the initial table, the entries of a DLOAD (R97, R98, R103). -/
inductive FetchKind where
  | code | table | dload
  deriving DecidableEq, Repr

/-- Who issued an operation: a facet's unit, an instruction's signal (its index), a sequencer's fetch, a chord context. -/
inductive OpOwner where
  | facet (f : Nat) (u : FUnit)
  | signal (f : Nat) (index : Nat)
  | fetch (f : Nat) (k : FetchKind)
  | chord (e : Nat) (p : Nat)
  | nobody
  deriving DecidableEq, Repr

/-- An operation in flight, by its tag; `dead` once it has timed out (R298). -/
structure RemOp where
  job : RemJob
  owner : OpOwner
  part : Nat
  since : Nat
  dead : Bool
  deriving DecidableEq, Repr

/-- Transaction types on the wire (11, TTYPE). -/
inductive TxKind where
  | put | getReq | atomic | signal | ack | getData | atomicRet | nack | control
  deriving DecidableEq, Repr

/-- A transaction handed to the router; a CONTROL message leaves by the port it names (R305). -/
structure Tx where
  kind : TxKind
  header : TxHeader
  data : List Byte
  port : Option Nat := none
  deriving DecidableEq, Repr

/-- What follows once an operation's writes have landed: an ACK, the bytes that its contributions found, for an issuer of this
vertex those at their destination, or, of a completion record, its interrupt and DONE_CTR (R391, R393). -/
inductive TxBack where
  | ack (header : TxHeader)
  | prior (header : TxHeader)
  | issuer (o : OpOwner) (part : Nat) (job : RemJob)
  | record (queue : Nat) (doneCtr : Option Nat)
  deriving DecidableEq, Repr

/-- A PUT, ATOMIC or completion record that is complete once its writes have landed (R28, R262): its number, and what its contributions found,
by address. -/
structure TxDue where
  seq : Nat
  back : TxBack
  old : Mem
  deriving DecidableEq, Repr

/-- A flit in a buffer (R285, R289 to R291): its channel, its hop class, its destination, the flits of its train
still to come, whether it stands in the shared area, the port a CONTROL message leaves by, and its bits. -/
structure BufFlit where
  vc : Nat
  hop : Nat
  dst : Nat
  left : Nat
  shared : Bool
  port : Option Nat
  flit : BitVec 2048
  deriving DecidableEq, Repr

/-- Slots of a page that a MATMUL_KV in flight has written (R195): the space-0 offset of the page-table
entry, and how many. -/
structure KvPost where
  pte : Nat
  slots : Nat
  deriving DecidableEq, Repr

/-- An instruction in flight on a unit (R117, R118): its index, its words, its footprint, the refusal
to report at completion, the operations not yet issued, the tiles whose moves it waits for, the chord
context it takes part in, the page slots and sequence lengths its completion counts, when it issued, and the
DETAIL of its fault (R391). -/
structure InFlight where
  index : Nat
  ins : BitVec 256
  foot : List Range
  fault : BitVec 8
  todo : List RemJob
  tiles : List Nat
  ctx : Option (Nat × Nat)
  post : List KvPost
  lens : List (Nat × Nat)
  since : Nat
  detail : Word
  key : Nat × Nat := (0, 0)
  deriving DecidableEq, Repr

/-- A running program (R97, R98): the instructions fetched and not yet issued, those asked for, whether they are fetched
singly, the code of a fetch that was refused, whether the initial table is still to come, since when its next instruction
waits, and, where that wait is for a page pool, for the pool of which sequence (R116, R202). -/
structure Run where
  cl : Claimed
  pc : Nat
  buf : List (BitVec 256) := []
  asked : Nat := 0
  narrow : Bool := false
  fetchFail : Nat := 0
  tableDue : Bool := false
  table : SMap (BitVec 512)
  seeds : SMap (BitVec 64)
  control : Option InFlight
  array : Option InFlight
  vector : Option InFlight
  mover : Option InFlight
  waiting : Option Nat
  poolSeq : Option Nat := none
  stop : Option Stop
  posted : Bool
  deriving DecidableEq, Repr

/-- A sample queued in the shadow checker (R167): the queue, the instruction and its index, the tile
number, the largest magnitude of the reference and of the difference, and whether the reference is all
zero while the output is not. -/
structure Sample where
  queue : Nat
  index : Nat
  tile : Nat
  threshExp : Nat
  reference : List Word
  written : List Word
  deriving DecidableEq, Repr

/-- A facet's sequencer and checker (R14, R24, R168). -/
structure Facet where
  run : Option Run
  next : Option Claimed
  served : Option Nat
  samples : List Sample
  deriving DecidableEq, Repr

/-- A gang (R23, R122, R390), with the facets that have claimed a place of it. -/
structure Gang where
  queue : Nat
  part : Nat
  wseq : Word
  wd : BitVec 512
  size : Nat
  claimed : Nat
  facets : List Nat := []
  ended : Nat
  fault : Option Stop
  deriving DecidableEq, Repr

/-- Who waits for a completion record to be written (R391). -/
inductive RecOwner where
  | facet (f : Nat)
  | nextOf (f : Nat)
  | codec (c : Nat)
  | thin (e p : Nat)
  | nobody
  deriving DecidableEq, Repr

/-- A completion record before its number and time are known (R391). -/
structure Rec where
  owner : RecOwner
  wseq : Word
  status : BitVec 8
  gang : Nat
  faultMember : Nat
  faultIndex : Nat
  userTag : Word
  detail : Word
  doneCtr : Option Nat
  mute : Bool := false
  deriving DecidableEq, Repr

/-- A submission queue behind its registers (R387, R388, R391, R393): over-posted, the signals that raised the
credit of a codec or thin-channel queue (their order, DB_CTR after each), records that wait, interrupts due; of a codec queue the
entries beyond HEAD that have been claimed (R352), and when the waits of entries not yet claimed were reached (R372). -/
structure Queue where
  overPosted : Bool
  posts : List (Nat × Word)
  waiting : List Rec
  irq : List Nat
  taken : List Word := []
  ready : List (Word × Nat) := []
  deriving DecidableEq, Repr

/-- A host access that has arrived and waits for earlier ones (R253, R376, R396): a write or a read of a register (the bytes
it enables, and whether they follow those of the word before, R394), a doorbell, an access to `len` bytes of space 0. -/
inductive HostPost where
  | register (off : Nat) (be : BitVec 4) (w : Word)
  | read (off : Nat) (be : BitVec 4) (join : Bool)
  | doorbell (q : Nat) (w : Word)
  | bar4 (addr len : Nat) (data : Option (List Byte))
  deriving DecidableEq, Repr

/-- A PCI Express function (R377): its held messages, its accesses that wait, oldest first, and the size of its BAR4, a power of
2 (R375). -/
structure FnState where
  bme : Bool
  vf : Bool
  held : List Nat
  waiting : List HostPost
  barLog : Nat := 30
  deriving DecidableEq, Repr

/-- A thin-channel job in its engine (R241, R243): the frame and the output tile that are next, and whether every tile of the frame
has been computed. -/
structure ThinJob where
  queue : Nat
  part : Nat
  wseq : Word
  record : BitVec 512
  started : Bool
  frame : Nat
  tile : Nat
  written : Bool
  bad : Bool
  posted : Bool
  mute : Bool := false
  deriving DecidableEq, Repr

/-- A thin-channel engine (R35, R241): the partition it served last, and the jobs in it, at most one of a partition. -/
structure Tce where
  served : Option Nat
  jobs : List ThinJob
  deriving DecidableEq, Repr

/-- What a decode stream holds (R367 to R370): the sequence header in force, whether decoding has begun, the order count of the recovery
point where it began at an SEI, the frames kept, and how many have been decoded. -/
structure DecStream where
  header : Option Config.SeqHeader
  begun : Bool
  recover : Option Int
  kept : List Config.Decoded
  count : Nat
  deriving DecidableEq, Repr
/-- A stream that has just been opened. -/
def dec0 : DecStream := { header := none, begun := false, recover := none, kept := [], count := 0 }

/-- An open stream slot (R352): configuration, FRAME jobs since OPEN, the virtual buffer's fullness times
FPS_NUM, the reference state's code, complete or output frames, the refresh cycle's frame, the last map ring, the
vectors of the previous frame's superblocks (R365), the previous frame's QP (R362), and what a decoder holds. -/
structure Slot where
  cfg : BitVec 512
  frames : Nat
  full : Nat
  ref : Nat
  outN : Nat
  cycle : Option Nat
  mapBase : Nat
  vecs : List (Option (Int × Int)) := []
  qp : Nat := 0
  dec : DecStream := dec0
  deriving DecidableEq, Repr

/-- A codec job in its engine (R352, R358, R359, R371, R372): when its wait was reached, whether it is late, and,
once it runs, the units of its frame, those written, what its end keeps of the stream, its input frame's tiles. -/
structure CodecJob where
  queue : Nat
  part : Nat
  wseq : Word
  record : BitVec 512
  waitAt : Nat
  late : Bool
  started : Bool
  units : List (List Byte)
  done : Nat
  released : Bool
  pins : List Nat
  nextRef : Nat
  nextVecs : List (Option (Int × Int)) := []
  qps : List Nat
  bad : Bool
  posted : Bool
  mute : Bool := false
  deriving DecidableEq, Repr

/-- A codec engine (R352). -/
structure Codec where
  slots : SMap (Option Slot)
  job : Option CodecJob
  deriving DecidableEq, Repr

/-- A gang member of a chord context: its facet, its fused instruction and its program. -/
structure CtxMember where
  facet : Nat
  unit : FUnit
  ins : BitVec 256
  index : Nat
  run : Run
  deriving DecidableEq, Repr

/-- A transfer that a chord context has still to finish: the member it goes to, the credits it needs, its puts
not yet issued, and the signal that follows them (0 CRED, 1 LAND), R321. -/
structure ChdSend where
  dest : Nat
  cred : Nat
  jobs : List RemJob
  sig : Option Nat
  deriving DecidableEq, Repr

/-- The running softmax state of a query row (R219, R339). -/
structure RowState where
  m : Word
  l : Word
  o : List Word
  bad : Bool
  deriving DecidableEq, Repr

/-- A chord-engine context (R316): the opcode, the schedule and the attention parameters, the program's
threshold base and claim, the gang, the own group index, the step or phase, what it has still to send and has
had acknowledged, landed pieces taken, running softmax rows, the time a watchdog counts from, the fault it
ends with, since when its first transfer waits for credits, and of a ring whose walk failed the captures of R226. -/
structure Ctx where
  op : Nat
  sch : BitVec 512
  par : BitVec 512
  keys : Nat
  base : Word
  wseq : Word
  queue : Nat
  size : Nat
  members : List CtxMember
  opened : Bool
  own : Nat
  step : Nat
  sends : List ChdSend
  sent : Nat
  pieces : Nat
  phase : Nat
  rows : SMap RowState
  since : Nat
  fail : BitVec 8
  aborting : Bool
  credAt : Option Nat := none
  key : Nat × Nat := (0, 0)
  walkFail : Bool := false
  deriving DecidableEq, Repr

/-- Port states (R306, R310, LNK_PORT_STATUS). -/
inductive PortSt where
  | off | training | up | absent | disabled | quarantined | draining
  deriving DecidableEq, Repr

/-- A link port (R283 to R308): its state and lanes, the handshake, the time training began, sequence numbers and
replay buffer, the input buffer with the trains still open in it (latest first), the flits it has sent, the credits
in use, and per channel the source whose train holds the output and the source served last. A flit of the replay buffer has how
often it was replayed and the credit it takes; `again` are those still to be sent once more (R287), each on a credit of its
own. `lost` are the lanes removed (R284), `bads` the uncorrectable codewords of the
last ms by lane and time, `retrainAt` is when a retrain began. -/
structure Port where
  st : PortSt
  lanes : List Nat
  retraining : Bool
  trained : Bool
  mine : Option (BitVec 256)
  peerNonce : Option (BitVec 256)
  peer : Option Hello
  finding : Option Nat
  verdict : Option Bool
  version : Nat
  since : Nat
  rxSeq : Nat
  txSeq : Nat
  replay : List (BitVec 2048 × Nat × Nat)
  again : List (BitVec 2048 × Nat) := []
  inbuf : List BufFlit
  trains : List BufFlit
  sent : List (BitVec 2048)
  used : SMap Nat
  route : SMap Nat
  lost : List Nat := []
  bads : List (Nat × Nat × Nat) := []
  retrainAt : Nat := 0
  deriving DecidableEq, Repr

/-- Meridian time (R311, R312): `trips` are the round trips of the last 64 exchanges, `asked` the timestamp of the exchange in
progress, `askedAt` when it began, `asks` the timestamps of children that wait for an answer, at most one of a port: the port,
the timestamp, the time it came. -/
structure Meridian where
  locked : Bool
  root : Bool
  rootCoord : Nat
  parentDim : Nat
  depth : Nat
  slew : Int
  trips : List Int
  asked : Option (BitVec 64)
  askedAt : Option Nat
  asks : List (Nat × BitVec 64 × BitVec 64)
  resync : Bool
  phase : Nat
  deriving DecidableEq, Repr

/-- What a verified image says (R416, R417). -/
structure ImageInfo where
  fwVer : Word
  svn : Nat
  sections : Nat
  digest : List Byte
  signer : List Byte
  planHash : List Byte
  ndim : Nat
  twisted : Bool
  autoRemap : Bool
  populated : BitVec 4096
  coord : Nat
  lanes : List (BitVec 128)
  defaults : List Byte
  capW : Nat
  pwrcapW : Nat
  slew : Nat
  capMaxW : Nat
  testPort : Nat
  svnCommit : Bool
  recoveryEnter : Bool
  deriving DecidableEq, Repr

/-- Boot, trust and recovery (R419 to R429). Of a fuse command that runs: its operation, whether it is allowed and what it is to
burn; `apexDead` once the apex cores have stopped. -/
structure Boot where
  phase : Nat
  nvmOk : Bool
  verified : Bool
  idDone : Bool
  idBad : Bool
  image : Option ImageInfo
  source : Nat
  recovery : Bool
  going : Bool
  ready : Bool
  pcieReady : Bool
  apexRun : Bool
  apexMem : Mem
  recBuf : Mem
  fuse : Nat
  fuseOk : Bool
  fuseSvn : Nat := 0
  fuseHash : BitVec 512 := 0
  apexDead : Bool := false
  deriving DecidableEq, Repr

/-- What is kept without power or fixed at manufacture (R413, R421, R426): the NVM with its density in
Mbit, the ring's note of a record that was not written (R439), the fuses, the serial number, the device secret and the
certificate. -/
structure NonVol where
  nvm : Mem
  mbit : Nat
  note : Bool := false
  owned : Bool
  svn : Nat
  ownerHash : BitVec 512
  serial : BitVec 64
  secret : List Byte
  cert : List Byte
  deriving DecidableEq, Repr

/-- A record being programmed (R436): its place in the NVM, its bytes, when Program began. -/
structure GaspProgram where
  addr : Nat
  bytes : List Byte
  since : BitVec 64
  deriving DecidableEq, Repr

/-- The last-gasp ring as the device holds it (R439). -/
structure LastGasp where
  armed : Option Nat
  newest : Option Nat
  seq : Nat
  skipped : Bool
  program : Option GaspProgram := none
  deriving DecidableEq, Repr

/-- The power governor's state and telemetry (R432 to R435); the rails in 2.5 mV. -/
structure Power where
  vcore : List Nat
  powerW : Nat
  tjMax : Nat
  gating : Bool
  slewing : Bool
  therm : Bool
  warnStop : Bool
  deriving DecidableEq, Repr

/-- Section capture (R447, R449, R450), with the meridian time at the freeze; `due` where a request waits for Check to end. -/
structure Freeze where
  frozen : Bool
  full : Bool
  readout : Bool
  stamp : BitVec 64
  due : Bool := false
  deriving DecidableEq, Repr

/-- The work in progress of a unit, as far as it has come, and since when it stands there (R444). -/
structure Watch where
  work : List Nat
  since : Nat
  deriving DecidableEq, Repr

/-- Lifecycle states (R452). -/
inductive LcSt where
  | off | ramping | on | draining
  deriving DecidableEq, Repr

/-- A unit or partition in its lifecycle; `moved` when it changes partition and must be cleared (R46). -/
structure Lc where
  st : LcSt
  failed : Bool
  moved : Bool
  deriving DecidableEq, Repr

/-- The lands (R461), true when asserted; NVM_REL and APEX_HB true when high and toggling. -/
structure Pins where
  reset : Bool
  perst : Bool
  pwrwarn : Bool
  pwrcap : Bool
  freeze : Bool
  nvmBoard : Bool
  trip : Bool
  apexHb : Bool
  nvmRel : Bool
  deriving DecidableEq, Repr

/-- Reference clocks present (R460). -/
structure Clocks where
  pcie : Bool
  sys : Bool
  opt : Bool
  vid : Bool
  deriving DecidableEq, Repr

/-- An MSI-X message: the function and the vector that send it, and the write that it is. -/
structure MsixMessage where
  fn : Nat
  vector : Nat
  address : Nat
  data : Word
  deriving DecidableEq, Repr

/-- What the PCIe link has trained to (R374): lanes, and the code of the rate in HST_LINK. -/
structure PcieLink where
  width : Nat
  rate : Nat
  deriving DecidableEq, Repr

/-- What the outside has been told: the data of the last host read, whether the last configuration
request was retried, MSI-X messages sent, transactions handed to the router, flits delivered to this
vertex, the DOE answer and the TAP output. The model's own field. -/
structure Out where
  data : List Byte
  retry : Bool
  poisoned : Bool
  msix : List MsixMessage
  tx : List Tx
  delivered : List (BitVec 2048)
  doe : List Byte
  tap : List (BitVec 32)
  deriving DecidableEq, Repr

/-- The state of the vertex. -/
structure State where
  pending : List Instr
  fresh : Nat
  limClock : Nat
  time : BitVec 64
  out : Out
  nv : NonVol
  host : Mem
  regs : SMap RegCell
  ctr : SMap Word
  mem : Mem
  poison : List Nat
  ues : SMap (List Nat)
  classBits : List Nat
  gran : SMap GranProc
  dir : SMap (Option DirEntry)
  waitWrites : List HeldWrite
  promos : List PromoWait
  memctl : SMap MemCtl
  arbs : SMap Arbiter
  xings : SMap Crossing
  beats : SMap Nat
  active : SMap Nat
  facets : SMap Facet
  gangs : List Gang
  seqTab : Mem
  queues : SMap Queue
  posts : Nat
  fns : SMap FnState
  tces : SMap Tce
  codecs : SMap Codec
  ctxs : SMap (Option Ctx)
  ops : SMap (Option RemOp)
  nextTag : Nat
  txDue : List TxDue
  txSeq : Nat
  ports : SMap Port
  inject : List BufFlit
  injected : Nat
  routes : SMap (Option Nat)
  linkMap : List (Nat × Nat)
  meridian : Meridian
  boot : Boot
  gasp : LastGasp
  power : Power
  freeze : Freeze
  halted : Bool
  watch : SMap Watch
  units : SMap Lc
  parts : SMap Lc
  pins : Pins
  clocks : Clocks
  link : PcieLink
  tests : Nat
  deriving DecidableEq, Repr

/-- Faults of the model. The spec gives every command an effect, so no meaning raises one (safe: a stop
of the model only ever loses behaviours); the constructor keeps the type inhabited for the host. -/
inductive Fault where
  /-- Raised by no command. -/
  | unused
  deriving DecidableEq, Repr

/-- Refusals of the model. -/
inductive Refusal where
  /-- The arm of a command without a meaning in Machine/Dispatch.lean (safe: it stops). No command
  is in this case. -/
  | notModelled (mnemonic : String)
  deriving DecidableEq, Repr

/-- Fuses and manufacture data that the spec does not state: an unowned part with nothing burned
(DESIGN CHOICE, notes/assumptions/7.md). -/
def nonVolReset : NonVol :=
  { nvm := [], mbit := 0, owned := false, svn := 0, ownerHash := 0, serial := 0, secret := [], cert := [] }

/-- The machine right after reset: RESET_N asserted, PHASE 0x1, every unit OFF, every register at its
reset value (its cell is not listed), memories listing nothing (R420, R431, R452). -/
def State.reset : State :=
  { pending := []
    fresh := 0
    limClock := 0
    time := 0
    out := { data := [], retry := false, poisoned := false, msix := [], tx := [], delivered := [], doe := [], tap := [] }
    nv := nonVolReset
    host := []
    regs := []
    ctr := []
    mem := []
    poison := []
    ues := []
    classBits := []
    gran := []
    dir := []
    waitWrites := []
    promos := []
    memctl := []
    arbs := []
    xings := []
    beats := []
    active := []
    facets := []
    gangs := []
    seqTab := []
    queues := []
    posts := 0
    fns := []
    tces := []
    codecs := []
    ctxs := []
    ops := []
    nextTag := 0
    txDue := []
    txSeq := 0
    ports := []
    inject := []
    injected := 0
    routes := []
    linkMap := []
    meridian := { locked := false, root := false, rootCoord := 0, parentDim := 0, depth := 0, slew := 0,
                  trips := [], asked := none, askedAt := none, asks := [], resync := false, phase := 0 }
    boot := { phase := 1, nvmOk := false, verified := false, idDone := false, idBad := false, image := none,
              source := 0, recovery := false, going := false, ready := false, pcieReady := false,
              apexRun := false, apexMem := [], recBuf := [], fuse := 0, fuseOk := false }
    gasp := { armed := none, newest := none, seq := 0, skipped := false }
    power := { vcore := [280, 280, 280, 280], powerW := 0, tjMax := 0, gating := false, slewing := false,
               therm := false, warnStop := false }
    freeze := { frozen := false, full := false, readout := false, stamp := 0 }
    halted := false
    watch := []
    units := []
    parts := []
    pins := { reset := true, perst := false, pwrwarn := false, pwrcap := false, freeze := false,
              nvmBoard := false, trip := false, apexHb := false, nvmRel := false }
    clocks := { pcie := true, sys := true, opt := true, vid := true }
    link := { width := 0, rate := 0 }
    tests := 0 }

end Sys2Proof.Machine
end

