-- ==== Sys2Proof/Machine/Ops.lean ====
section
/-! DEFINITION. The named operations over the state: the register file, sync counters, interrupts, the
partition table, the address space and its checks. What a number that a table does not list reads as
stands here. -/

namespace Sys2Proof.Machine

/-- What the numbered units are before anything happened to them. -/
def facet0 : Facet := { run := none, next := none, served := none, samples := [] }
def queue0 : Queue := { overPosted := false, posts := [], waiting := [], irq := [] }
def fn0 : FnState := { bme := false, vf := false, held := [], waiting := [] }
def tce0 : Tce := { served := none, jobs := [] }
def codec0 : Codec := { slots := [], job := none }
def lc0 : Lc := { st := .off, failed := false, moved := false }
def memctl0 : MemCtl := { temp := 0, refresh := 0, throttle := false, selfRefresh := false, refreshDue := false }
def arb0 : Arbiter := { slot := 0, owed3 := 0, owed4 := 0, last := [], hist := [], waiting := [], grant := none, lastAt := none }
def xing0 : Crossing := { away := [], back := [], reserved := 0 }
def gran0 : GranProc := { flush := false, scrub := false, needScrub := false, clearClass := false }
def port0 : Port :=
  { st := .off, lanes := [], retraining := false, trained := false, mine := none, peerNonce := none, peer := none,
    finding := none, verdict := none, version := 0, since := 0, rxSeq := 16383, txSeq := 0, replay := [], inbuf := [],
    trains := [], sent := [], used := [], route := [] }
/-- A port that starts afresh: what it has sent stays, and a removed lane stays removed (R284). -/
def Port.blank (q : Port) : Port := { port0 with sent := q.sent, lost := q.lost }

/-- A unit of each numbered kind, and the state with it replaced. -/
def State.facet (s : State) (f : Nat) : Facet := tget s.facets facet0 f
def State.setFacet (s : State) (f : Nat) (v : Facet) : State := { s with facets := tset s.facets facet0 f v }
def State.queue (s : State) (q : Nat) : Queue := tget s.queues queue0 q
def State.setQueue (s : State) (q : Nat) (v : Queue) : State := { s with queues := tset s.queues queue0 q v }
def State.fn (s : State) (n : Nat) : FnState := tget s.fns fn0 n
def State.setFn (s : State) (n : Nat) (v : FnState) : State := { s with fns := tset s.fns fn0 n v }
def State.tce (s : State) (e : Nat) : Tce := tget s.tces tce0 e
def State.setTce (s : State) (e : Nat) (v : Tce) : State := { s with tces := tset s.tces tce0 e v }
/-- The job of a partition in a thin-channel engine, put in its place, and taken out. -/
def State.thinJob (s : State) (e p : Nat) : Option ThinJob := (s.tce e).jobs.find? fun j => j.part == p
def State.putThin (s : State) (e : Nat) (j : ThinJob) : State :=
  s.setTce e { s.tce e with jobs := j :: (s.tce e).jobs.filter fun x => x.part != j.part }
def State.dropThin (s : State) (e p : Nat) : State :=
  s.setTce e { s.tce e with jobs := (s.tce e).jobs.filter fun x => x.part != p }
def State.codec (s : State) (c : Nat) : Codec := tget s.codecs codec0 c
def State.setCodec (s : State) (c : Nat) (v : Codec) : State := { s with codecs := tset s.codecs codec0 c v }
def State.port (s : State) (p : Nat) : Port := tget s.ports port0 p
def State.setPort (s : State) (p : Nat) (v : Port) : State := { s with ports := tset s.ports port0 p v }
def State.memCtl (s : State) (n : Nat) : MemCtl := tget s.memctl memctl0 n
def State.setMemCtl (s : State) (n : Nat) (v : MemCtl) : State := { s with memctl := tset s.memctl memctl0 n v }
def State.arb (s : State) (a : Nat) : Arbiter := tget s.arbs arb0 a
def State.setArb (s : State) (a : Nat) (v : Arbiter) : State := { s with arbs := tset s.arbs arb0 a v }
def State.xing (s : State) (d : Nat) : Crossing := tget s.xings xing0 d
def State.setXing (s : State) (d : Nat) (v : Crossing) : State := { s with xings := tset s.xings xing0 d v }
def State.granProc (s : State) (g : Nat) : GranProc := tget s.gran gran0 g
def State.setGranProc (s : State) (g : Nat) (v : GranProc) : State := { s with gran := tset s.gran gran0 g v }
def State.unit (s : State) (u : Nat) : Lc := tget s.units lc0 u
def State.setUnit (s : State) (u : Nat) (v : Lc) : State := { s with units := tset s.units lc0 u v }
def State.part (s : State) (p : Nat) : Lc := tget s.parts lc0 p
def State.setPart (s : State) (p : Nat) (v : Lc) : State := { s with parts := tset s.parts lc0 p v }
def State.ctx (s : State) (e p : Nat) : Option Ctx := tget s.ctxs none (e * 32 + p)
def State.setCtx (s : State) (e p : Nat) (v : Option Ctx) : State := { s with ctxs := tset s.ctxs none (e * 32 + p) v }
def State.op (s : State) (t : Nat) : Option RemOp := tget s.ops none t
def State.setOp (s : State) (t : Nat) (v : Option RemOp) : State := { s with ops := tset s.ops none t v }
def State.dirEntry (s : State) (tile : Nat) : Option DirEntry := tget s.dir none tile
def State.setDir (s : State) (tile : Nat) (v : Option DirEntry) : State := { s with dir := tset s.dir none tile v }

/-! The register file. -/

/-- Three equal copies and no mark. -/
def cellOf (w : Word) : RegCell := { a := w, b := w, c := w, mark := 0 }

/-- The bitwise vote, two of three (R404). -/
def vote (a b c : Word) : Word := (a &&& b) ||| (a &&& c) ||| (b &&& c)

/-- A register's cell; one that is not listed holds its reset value. -/
def State.cell (s : State) (r : Reg) : RegCell := tget s.regs (cellOf r.resetValue) r.key

/-- The state with a register's cell replaced. -/
def State.setCell (s : State) (r : Reg) (c : RegCell) : State :=
  { s with regs := tset s.regs (cellOf r.resetValue) r.key c }

/-- The value a use of a register sees: the vote of its copies (R404). -/
def State.val (s : State) (r : Reg) : Word := vote (s.cell r).a (s.cell r).b (s.cell r).c

/-- The register with all its copies replaced; marks stay. -/
def State.setVal (s : State) (r : Reg) (w : Word) : State :=
  s.setCell r { a := w, b := w, c := w, mark := (s.cell r).mark }

/-- A field of a register's value. -/
def State.get (s : State) (r : Reg) (hi lo : Nat) : Nat := fld (s.val r) hi lo

/-- A register with one field replaced. -/
def State.put (s : State) (r : Reg) (hi lo x : Nat) : State := s.setVal r (putFld (s.val r) hi lo x)

/-- Adds to a saturating 32-bit counter register (R402). -/
def State.count (s : State) (r : Reg) (n : Nat) : State := if n = 0 then s else s.setVal r (satAdd32 (s.val r) n)

/-- Whether the device accesses a function's host memory and sends its messages (R377): Bus Master
Enable is 1 and, but for the PF, the VF is enabled; and the PCIe link is not down for want of its clock (R460), which the model
treats as R377 treats a disabled function (notes/assumptions/74.md). -/
def State.hostOn (s : State) (fn : Nat) : Bool := s.clocks.pcie && (s.fn fn).bme && (fn == 0 || (s.fn fn).vf)

/-- The message of a vector as its table entry gives it, and whether it may be sent: the function's accesses are on (R377) and the
entry is not masked. The entry's layout, which R375 and R393 do not state, is that of PCI Express (PRESUMED,
notes/assumptions/75.md). -/
def State.msixMessage (s : State) (fn v : Nat) : MsixMessage :=
  { fn := fn, vector := v
    address := (s.val (.msixWord fn (16 * v))).toNat + (s.val (.msixWord fn (16 * v + 4))).toNat * 2 ^ 32
    data := s.val (.msixWord fn (16 * v + 8)) }
def State.msixOpen (s : State) (fn v : Nat) : Bool := s.hostOn fn && !(s.val (.msixWord fn (16 * v + 12))).getLsbD 0

/-- Sends the MSI-X message of a vector, or holds it while it may not be sent (R377, R393). -/
def State.msix (s : State) (fn v : Nat) : State :=
  if s.msixOpen fn v then { s with out := { s.out with msix := s.out.msix ++ [s.msixMessage fn v] } }
  else if (s.fn fn).held.contains v then s
  else s.setFn fn { s.fn fn with held := (s.fn fn).held ++ [v] }

/-- Sends the held messages of a function that may now be sent. -/
def State.sendHeld (s : State) (fn : Nat) : State :=
  let l := (s.fn fn).held
  let s1 := { s with out := { s.out with msix := s.out.msix ++ (l.filter (s.msixOpen fn)).map (s.msixMessage fn) } }
  s1.setFn fn { s.fn fn with held := l.filter fun v => !s.msixOpen fn v }

/-- Sets a WZ bit by an event (R399, R401): from 0 it sets the bit and its new-set mark, writes the
capture fields (register, high bit, low bit, value) and raises vector 0 of the PF (R446); a bit that is
1 already leaves everything. -/
def State.setWz (s : State) (r : Reg) (b : Nat) (caps : List (Reg × Nat × Nat × Nat)) : State :=
  if bit (s.val r).toNat b then s
  else
    let s := caps.foldl (fun s x => s.put x.1 x.2.1 x.2.2.1 x.2.2.2) s
    let m : Word := BitVec.ofNat 32 (2 ^ b)
    let w := s.val r ||| m
    (s.setCell r { a := w, b := w, c := w, mark := (s.cell r).mark ||| m }).msix 0 0

/-- Sets a WZ bit when a condition holds. -/
def State.flag (s : State) (r : Reg) (b : Nat) (c : Bool) : State := if c then s.setWz r b [] else s

/-- Repairs a register whose copies disagree (R405): the vote goes into all three, the repair is
counted and logged. -/
def State.repair (s : State) (r : Reg) : State :=
  let c := s.cell r
  if c.a = c.b ∧ c.b = c.c then s
  else
    let s := (s.setVal r (vote c.a c.b c.c)).count .errVoteCnt 1
    s.setWz .errRegLog 0 [(.errVoteWhere, 25, 0, r.offset)]

/-! The partition table (R382). -/

/-- Facets of a partition, one bit each; its codec blocks; its ceiling in slot units (R266). -/
def State.partFacets (s : State) (p : Nat) : Nat := s.get (.partUnits p) 23 0
def State.partCodecs (s : State) (p : Nat) : Nat := s.get (.partCodecs p) 11 0
def State.ceiling (s : State) (p : Nat) : Nat := s.get (.partCeil p) 9 0 * 128

/-- Whether a partition owns a queue or a counter. -/
def State.ownsQueue (s : State) (p q : Nat) : Bool :=
  let a := s.get (.partQueues p) 11 0
  decide (a ≤ q) && decide (q < a + s.get (.partQueues p) 24 12)
def State.ownsCtr (s : State) (p n : Nat) : Bool :=
  let a := s.get (.partCtrs p) 13 0
  decide (a ≤ n) && decide (n < a + s.get (.partCtrs p) 28 14)

/-- Whether queue q lies in facet f's mask for partition p (R22). -/
def State.inMask (s : State) (p f q : Nat) : Bool :=
  let a := s.get (.partQmask p f) 11 0
  decide (a ≤ q) && decide (q < a + s.get (.partQmask p f) 24 12)

/-- The partitions, and the one that owns a facet, a codec block, a queue or a counter. -/
def parts32 : List Nat := List.range 32
def State.facetPart (s : State) (f : Nat) : Option Nat := parts32.find? fun p => bit (s.partFacets p) f
def State.codecPart (s : State) (c : Nat) : Option Nat := parts32.find? fun p => bit (s.partCodecs p) c
def State.queuePart (s : State) (q : Nat) : Option Nat := parts32.find? fun p => s.ownsQueue p q
def State.ctrPart (s : State) (n : Nat) : Option Nat := parts32.find? fun p => s.ownsCtr p n

/-- Lifecycle indices (R451). -/
def uFacet (f : Nat) : Nat := f
def uCodec (c : Nat) : Nat := 24 + c
def uThin (e : Nat) : Nat := 36 + e
def uChord (e : Nat) : Nat := 38 + e
def uStack (t : Nat) : Nat := 40 + t
def uPort (p : Nat) : Nat := 52 + p

/-- A unit, or a partition, is ON. -/
def State.unitOn (s : State) (u : Nat) : Bool := (s.unit u).st == .on
def State.partOn (s : State) (p : Nat) : Bool := (s.part p).st == .on

/-- The fabric runs: out of reset, not halted by a trip, not held by a section capture. -/
def State.live (s : State) : Bool := !s.pins.reset && !s.halted && !s.freeze.frozen

/-- Whether the copies of any register disagree. -/
def State.upset (s : State) : Bool := s.regs.any fun x => !(x.2.a == x.2.b && x.2.b == x.2.c)

/-- A step of a unit uses these registers (R405): copies that disagree are repaired (notes/assumptions/35.md). -/
def State.useNow (s : State) (l : List Reg) : State := if s.upset then l.foldl State.repair s else s
def State.use (s : State) (l : List Reg) : State := if s.live then s.useNow l else s

/-- A step for partition p uses its entry and its rank count; one that names a rank its entry too. -/
def partEntry (p : Nat) : List Reg :=
  [.partCtrl p, .partUnits p, .partCodecs p, .partCeil p, .partQueues p, .partCtrs p, .lnkRanks p] ++
    (List.range 24).map fun f => .partQmask p f
def State.usePart (s : State) (p : Nat) : State := s.use (partEntry p)
/-- The rank by which a chord engine's operation names the last entry of a table, which the rank of a global address cannot
(R304), and the entry that a rank other than 0xFFF names. -/
def topRank : Nat := 0x1000
def tableIndex (r : Nat) : Nat := if r = topRank then 0xFFF else r
def State.useRank (s : State) (p r : Nat) : State := if r = 0xFFF then s else s.use [.lnkRanks p, .rankEntry p (tableIndex r)]
/-- An arriving operation is held against the ranks of its target's table (R297). -/
def State.useRanks (s : State) (p : Nat) : State :=
  if s.upset then s.use (.lnkRanks p :: (List.range (s.get (.lnkRanks p) 12 0)).map fun r => .rankEntry p r) else s

/-- Queues offer work (R436, R442): the fabric runs and no power warning has stopped claiming. -/
def State.offers (s : State) : Bool := s.live && !s.power.warnStop

/-! Sync counters and queues. -/

/-- A counter's value; a counter that is not listed holds 0. -/
def State.counter (s : State) (n : Nat) : Word := tget s.ctr 0 n
def State.setCounter (s : State) (n : Nat) (v : Word) : State := { s with ctr := tset s.ctr 0 n v }

/-- Whether a value has reached a threshold (R113). -/
def reached (v θ : Word) : Bool := decide ((v - θ).toNat < 2 ^ 31)

/-- A ring's depth from its DEPTH_LOG2 code (R385). -/
def depthOf (code : Nat) : Nat := if code = 0 then 65536 else 2 ^ code

/-- A queue's work credit (R387). -/
def State.credit (s : State) (q : Nat) : Nat :=
  (s.counter (s.get (.qCfg q) 24 11) - s.val (.qHead q)).toNat

/-- Whether a queue is enabled; its kind: 0 FACET, 1 CODEC, 2 THIN. -/
def State.qEnabled (s : State) (q : Nat) : Bool := bit (s.val (.qCfg q)).toNat 10
def State.qKind (s : State) (q : Nat) : Nat := s.get (.qCfg q) 5 4
def State.qDepth (s : State) (q : Nat) : Nat := depthOf (s.get (.qCfg q) 3 0)
def State.cqDepth (s : State) (q : Nat) : Nat := depthOf (s.get (.qCqCfg q) 3 0)

/-- The enabled queues, in ascending number: those whose configuration is listed. -/
def State.enabledQueues (s : State) : List Nat :=
  s.regs.filterMap fun x =>
    let o := x.1 - 0x00A1_0000
    if 0x00A1_0000 ≤ x.1 ∧ x.1 < 0x00A5_0000 ∧ o % 64 = 8 ∧ s.qEnabled (o / 64) then some (o / 64) else none

/-- Marks queues whose credit has come to exceed their depth (R387): they offer nothing from then on. -/
def State.overPost (s : State) (n : Nat) : State :=
  s.enabledQueues.foldl (fun s q =>
    if s.get (.qCfg q) 24 11 = n && decide (s.qDepth q < s.credit q) && !(s.queue q).overPosted then
      (s.setQueue q { s.queue q with overPosted := true }).setWz (.qLog q) 1 []
    else s) s

/-- Notes a signal with the codec and thin-channel queues whose credit it raises (R388). -/
def State.notePost (s : State) (n : Nat) : State :=
  let s1 := s.enabledQueues.foldl (fun t q =>
    if s.get (.qCfg q) 24 11 = n ∧ s.qKind q ≠ 0 then
      t.setQueue q { t.queue q with posts := (t.queue q).posts ++ [(s.posts, s.counter n)] }
    else t) s
  { s1 with posts := s.posts + 1 }

/-- A signal (R25): adds to a counter; doorbells are signals (R387). -/
def State.signal (s : State) (n : Nat) (v : Word) : State :=
  ((s.setCounter n (s.counter n + v)).notePost n).overPost n

/-- Signal values accepted (R114, R384, R387). -/
def sigOk (v : Word) : Bool := decide (1 ≤ v.toNat) && decide (v.toNat < 2 ^ 31)

/-- Adds the free-value counter's step: the model's own (notes/assumptions/2.md). -/
def State.bump (s : State) : State := { s with fresh := s.fresh + 1 }
/-- The same, where free values were used. -/
def State.bumpIf (s : State) (b : Bool) : State := if b then s.bump else s

/-- Bytes the spec leaves unspecified, fresh at each use (notes/assumptions/15.md). -/
def State.freeBytes (s : State) (n : Nat) : List Byte := (List.range n).map (Config.freeByte s.fresh)

/-! Addresses (R108 to R111, R471). -/

/-- Error codes of R120, R298, R345, R355 and R445. -/
def eNone : Nat := 0x00
def eIsaVer : Nat := 0x01
def eOpcode : Nat := 0x02
def eRsvdBits : Nat := 0x03
def eRoundMode : Nat := 0x04
def eDescVer : Nat := 0x05
def eDescKind : Nat := 0x06
def eFormatCode : Nat := 0x07
def eFormatPair : Nat := 0x08
def eShape : Nat := 0x09
def eKAlign : Nat := 0x0A
def eAlign : Nat := 0x0B
def eSplitMode : Nat := 0x0C
def eRankRange : Nat := 0x0D
def eAddrSpace : Nat := 0x0E
def eAddrRange : Nat := 0x0F
def eAddrOwner : Nat := 0x10
def eSigValue : Nat := 0x11
def eIssueCapacity : Nat := 0x12
def eDtabRange : Nat := 0x13
def eWaitTimeout : Nat := 0x20
def eKeyfmt : Nat := 0x21
def eRingStall : Nat := 0x22
def eAborted : Nat := 0x23
def eGangSize : Nat := 0x24
def eUnreachable : Nat := 0x25
def eLinkTimeout : Nat := 0x26
def eCollAbort : Nat := 0x27
def eCountOverflow : Nat := 0x28
def ePreempted : Nat := 0x29
def eStreamFull : Nat := 0x2A
def eStreamState : Nat := 0x2B
def eUnsupported : Nat := 0x2C
def eDataError : Nat := 0x2D
def eUnitOff : Nat := 0x2E
def eDrained : Nat := 0x2F

/-- A global address (R108). -/
structure GAddr where
  rank : Nat
  space : Nat
  off : Nat
  deriving DecidableEq, Repr

/-- Decodes a global address. -/
def gaddr (a : Nat) : GAddr := { rank := bits a 63 52, space := bits a 51 48, off := bits a 47 0 }

/-- This vertex's coordinate: the lane map's, as LNK_VERTEX_STATUS shows it. -/
def State.coord (s : State) : Nat := s.get .lnkVertexStatus 11 0

/-- What serves a logical rank of a partition (R108, R304): the code of a refusal, or the coordinate
and partition. A rank whose entry is not VALID is refused like one beyond the table (DEDUCED,
notes/assumptions/18.md). -/
def State.rankTarget (s : State) (p r : Nat) : Except Nat (Nat × Nat) :=
  if r = 0xFFF then .ok (s.coord, p)
  else
    let k := tableIndex r
    if s.get (.lnkRanks p) 12 0 ≤ k then .error eRankRange
    else if s.get (.rankEntry p k) 31 31 = 0 then .error eRankRange
    else .ok (s.get (.rankEntry p k) 11 0, s.get (.rankEntry p k) 16 12)

/-- Whether a rank names the issuing vertex and partition (R471). -/
def State.ownRank (s : State) (p r : Nat) : Bool :=
  match s.rankTarget p r with
  | .ok (c, q) => c == s.coord && q == p
  | .error _ => false

/-- The package granule number of a space-0 offset (R249); none in the holes. -/
def granuleOf (off : Nat) : Option Nat :=
  let g := off / 2 ^ 30
  if g / 64 < 12 ∧ g % 64 < 48 then some (g / 64 * 48 + g % 64) else none

/-- The stack of a space-0 offset. -/
def stackOf (off : Nat) : Nat := off / 2 ^ 36

/-- The half of a space-0 offset: stacks 0 to 5 on half A (R249). -/
def halfOf (off : Nat) : Nat := if stackOf off < 6 then 0 else 1

/-- Whether a granule belongs to a partition (R252). -/
def State.ownsGranule (s : State) (p g : Nat) : Bool :=
  bit (s.val (.memGran g)).toNat 9 && s.get (.memGran g) 4 0 == p

/-- A step that touches bytes of the stacks uses MEM_GRAN of their granules. -/
def State.useStacks (s : State) (off len : Nat) : State :=
  if s.upset && decide (0 < len) then
    s.use (((List.range ((off + len - 1) / 2 ^ 30 - off / 2 ^ 30 + 1)).filterMap fun i => granuleOf (off + i * 2 ^ 30)).map Reg.memGran)
  else s

/-- A step for partition p that names an address uses its rank's entry and its granules. -/
def State.useAddr (s : State) (p : Nat) (a : GAddr) (len : Nat) : State :=
  let s := s.useRank p a.rank
  if a.space < 2 then s.useStacks a.off len else s

/-- The code of the first check of R109 that one granule of an access fails; 0 if none. -/
def State.granCheck (s : State) (p off : Nat) : Nat :=
  match granuleOf off with
  | none => eAddrRange
  | some g =>
    if !s.ownsGranule p g then eAddrOwner
    else if !s.unitOn (uStack (stackOf off)) then eUnitOff
    else 0

/-- The smaller of two refusal codes, 0 being none: the check that stands first in R120. -/
def firstCode (a b : Nat) : Nat := if a = 0 then b else if b = 0 then a else min a b

/-- The least nonzero code of a list: the first check of R120 that fails. -/
def leastCode (l : List Nat) : Nat := l.foldl firstCode 0

/-- The code c when a condition holds, else 0. -/
def when (c : Bool) (code : Nat) : Nat := if c then code else 0

/-- R109 for `len` bytes at an offset of a space of this vertex, for partition p: 0 or the code. -/
def State.spaceCheck (s : State) (p space off len : Nat) : Nat :=
  if len = 0 then 0
  else if space = 0 ∨ space = 1 then
    let last := off + len - 1
    (List.range (last / 2 ^ 30 - off / 2 ^ 30 + 1)).foldl
      (fun c i => firstCode c (s.granCheck p (if i = 0 then off else (off / 2 ^ 30 + i) * 2 ^ 30))) 0
  else if space = 2 then
    (if off + len > 2 ^ 18 ∨ off % 16 ≠ 0 then eAddrRange
     else if (List.range (cdiv len 16)).all fun i => s.ownsCtr p (off / 16 + i) then 0 else eAddrOwner)
  else if space = 3 then
    (if !s.hostOn p then eAddrSpace else if off + len > 2 ^ 48 then eAddrRange else 0)
  else eAddrSpace

/-- R109 for an operand of partition p that must lie on the own vertex, in spaces 0, 1 and 3 (or 0
and 1 only). An operand without a byte (a descriptor table of no entries) names nothing. -/
def State.ownCheck (s : State) (p : Nat) (host : Bool) (a : GAddr) (len : Nat) : Nat :=
  if len = 0 then 0 else
  match s.rankTarget p a.rank with
  | .error c => c
  | .ok (c, q) =>
    if ¬(c = s.coord ∧ q = p) then eAddrSpace
    else if a.space = 2 ∨ (a.space = 3 ∧ !host) then eAddrSpace
    else s.spaceCheck p a.space a.off len

/-- Where a byte of the own vertex lies: in host memory under its function's number, or in the stacks. -/
def hostKey (fn off : Nat) : Nat := fn * 2 ^ 48 + off

/-- One byte of the own vertex. -/
def State.rdByte (s : State) (p space off : Nat) : Byte :=
  if space = 3 then rd s.host (hostKey p off) else rd s.mem off

/-- `n` bytes of the own vertex. -/
def State.rdMem (s : State) (p space off n : Nat) : List Byte :=
  if space = 3 then rdBytes s.host (hostKey p off) n else rdBytes s.mem off n

/-- `n` bytes at a global address of the own vertex, as a number. -/
def State.rdVal (s : State) (p : Nat) (a : GAddr) (n : Nat) : Nat := leNat (s.rdMem p a.space a.off n)

/-- Writes to host memory, in the order issued (R376); none while the function's accesses are stopped (R377). -/
def State.wrHost (s : State) (fn off : Nat) (b : List Byte) : State :=
  if s.hostOn fn then { s with host := wrCells s.host (cellsAt (hostKey fn off) b) } else s

/-- Whether any byte of a range of the stacks is poisoned (R443). -/
def State.poisoned (s : State) (off len : Nat) : Bool :=
  decide (0 < len) && s.poison.any fun g => decide (g * 256 < off + len) && decide (off < g * 256 + 256)

end Sys2Proof.Machine
end

