-- ==== Sys2Proof/Machine/Directory.lean ====
section
/-! DEFINITION. The home directories (spec/10_memory.md R257 to R272, spec/01_architecture.md R36 to R44):
tiles and their classes, the transitions of R262, held writes, promotions, victims, and the one
way in which bytes of stack memory are written. -/

namespace Sys2Proof.Machine

/-! Traffic and its classes (R36). -/

/-- The class of a kind of traffic; no partition changes it (R36, R66). -/
def trafficClass : Traffic → Nat
  | .refresh | .meridian | .warning => 0
  | .codec => 1
  | .link | .ringBlock | .chord => 2
  | .facet | .thin | .neededMove | .fetch | .record => 3
  | .prefetchMove | .eviction | .scrub | .host => 4

/-- The number of a unit of a facet, and the sources of writes by number (R264). -/
def uNum : FUnit → Nat
  | .control => 0
  | .array => 1
  | .vector => 2
  | .mover => 3
def srcFacet (f : Nat) (u : FUnit) : Nat := f * 4 + uNum u
def srcChord (e p : Nat) : Nat := 100 + e * 32 + p
def srcThin (e p : Nat) : Nat := 600 + e * 32 + p
def srcCodec (c : Nat) : Nat := 210 + c
def srcHost (fn : Nat) : Nat := 300 + fn
def srcLink (p : Nat) : Nat := 400 + p
def srcQueue : Nat := 500

/-- The kind of traffic that a source's writes are. -/
def srcTraffic (src : Nat) : Traffic :=
  if src < 100 then .facet
  else if src < 200 then .chord
  else if src < 300 then .codec
  else if src < 400 then .host
  else if src < 500 then .link
  else if src < 600 then .record
  else .thin

/-- Bytes of a tile of a granule (R252, TILE); a slot unit holds 8 KiB (R257). -/
def unitBytes : Nat := 8192
def State.tileBytes (s : State) (g : Nat) : Nat :=
  match s.get (.memGran g) 11 10 with
  | 0 => 8192
  | 1 => 32768
  | _ => 131072

/-- The tile that holds a space-0 offset (R258): its base, and its size. -/
def State.tileOf (s : State) (off : Nat) : Nat × Nat :=
  match granuleOf off with
  | none => (off - off % 8192, 8192)
  | some g => let n := s.tileBytes g; (off - off % n, n)

/-- The tiles that hold a byte of a range, ascending: `fuel` tiles at most. -/
def State.tilesFrom (s : State) : Nat → Nat → Nat → List Nat
  | 0, _, _ => []
  | n + 1, pos, stop =>
    if stop ≤ pos then []
    else let (b, z) := s.tileOf pos; b :: State.tilesFrom s n (b + z) stop

/-- The tiles of a range of bytes. -/
def State.tilesOf (s : State) (off len : Nat) : List Nat := s.tilesFrom (len / 8192 + 2) off (off + len)

/-- CLASS of a granule: 0 mutable, 1 read-only, 2 paged. -/
def State.granClass (s : State) (g : Nat) : Nat := s.get (.memGran g) 13 12

/-- Whether a tile is read-only (R258). -/
def State.tileRo (s : State) (tile : Nat) : Bool :=
  match granuleOf tile with
  | none => false
  | some g =>
    match s.granClass g with
    | 0 => false
    | 1 => true
    | _ => s.classBits.contains tile

/-- The partition that owns a tile: the owner of its granule. -/
def State.tileOwner (s : State) (tile : Nat) : Nat :=
  match granuleOf tile with
  | none => 0
  | some g => s.get (.memGran g) 4 0

/-- A list of numbers with one added, ascending, without repeats. -/
def insNat (x : Nat) : List Nat → List Nat
  | [] => [x]
  | y :: t => if x < y then x :: y :: t else if x = y then y :: t else y :: insNat x t

/-- Sets or clears a tile's class bit; it means something in paged granules only (R258). -/
def State.setClass (s : State) (tile : Nat) (ro : Bool) : State :=
  match granuleOf tile with
  | none => s
  | some g =>
    if s.granClass g = 2 then
      { s with classBits := if ro then insNat tile s.classBits else s.classBits.filter fun x => x ≠ tile }
    else s

/-- The entries of the directories, and those of one half. -/
def State.entries (s : State) : List (Nat × DirEntry) :=
  s.dir.filterMap fun x => x.2.map fun e => (x.1, e)

/-- A partition's occupancy in slot units (R266). -/
def State.occupancy (s : State) (p : Nat) : Nat :=
  s.entries.foldl (fun n x => if x.2.owner = p then n + x.2.units.length else n) 0

/-- The slot units in use in a half, and how many are free (R257). -/
def State.usedUnits (s : State) (h : Nat) : List Nat :=
  s.entries.foldl (fun l x => if halfOf x.1 = h then x.2.units ++ l else l) []
def unitsPerHalf : Nat := 49152
def State.freeUnits (s : State) (h : Nat) : Nat := unitsPerHalf - (s.usedUnits h).length

/-- The k lowest numbers from i upward that are not in use (notes/assumptions/16.md). -/
def takeFree (used : List Nat) : Nat → Nat → Nat → List Nat
  | 0, _, _ => []
  | _, _, 0 => []
  | n + 1, i, k + 1 => if used.contains i then takeFree used n (i + 1) (k + 1) else i :: takeFree used n (i + 1) k

/-- The last-touch time now (R261, R267). -/
def State.touchTime (s : State) : Nat := s.time.toNat / 1024

/-- Touches a tile at an access that near memory serves (R267): in COPY and NEAR, and reads in MOVING_DOWN and CLEANING. -/
def State.touch (s : State) (tile : Nat) : State :=
  match s.dirEntry tile with
  | none => s
  | some e =>
    match e.st with
    | .filling | .movingUp => s
    | .copy | .near | .movingDown | .cleaning => s.setDir tile (some { e with touch := s.touchTime })

/-- The in-flight instructions of a run. -/
def Run.flights (r : Run) : List InFlight := [r.control, r.array, r.vector, r.mover].filterMap id

/-- Every instruction in flight on the package. -/
def State.flights (s : State) : List InFlight :=
  s.facets.foldl (fun l x => match x.2.run with | none => l | some r => l ++ r.flights) []

/-- Whether a footprint names a byte of a tile (R268): it meets the tile, and not in a stretch that it passes over. -/
def footMeets (foot : List Range) (lo hi : Nat) : Bool :=
  foot.any fun r => !r.host && decide (r.lo < hi) && decide (lo < r.hi) &&
    r.used && !(r.gaps.any fun g => decide (g.1 ≤ max lo r.lo) && decide (min hi r.hi ≤ g.2))

/-- A range of bytes cut at the stretches inside it. -/
def cutRange (lo hi : Nat) : List (Nat × Nat) → List (Nat × Nat)
  | [] => [(lo, hi)]
  | g :: t => (lo, g.1) :: cutRange g.2 hi t

/-- The bytes of a footprint range without the stretches that it passes over. -/
def Range.runs (r : Range) : List (Nat × Nat) := cutRange r.lo r.hi r.gaps

/-- A tile's use count (R268): the issued instructions that name it and have not completed; an EVICT counts
not (R272). -/
def State.useCount (s : State) (tile size : Nat) : Nat :=
  (s.flights.filter fun i => fld i.ins 7 0 != 0x54 && footMeets i.foot tile (tile + size)).length

/-- Whether a tile is an input-frame tile of an encode job, between the start of the job and its release (R44, R371). -/
def State.jobInput (s : State) (tile : Nat) : Bool :=
  s.codecs.any fun x => match x.2.job with | some j => j.started && !j.released && !j.posted && j.pins.contains tile | none => false

/-- Whether a tile may be evicted (R44, R261, R263, R268): a tile in FILLING or MOVING_UP is not. -/
def State.evictable (s : State) (tile : Nat) (e : DirEntry) : Bool :=
  (e.st == .copy || e.st == .near) && !e.handPin && e.jobPins.isEmpty && !s.jobInput tile && s.useCount tile e.size == 0

/-- The oldest evictable tile among those a test admits (R267, R270). -/
def State.oldest (s : State) (p : Nat → DirEntry → Bool) : Option Nat :=
  (s.entries.foldl (fun (b : Option (Nat × Nat)) x =>
    if p x.1 x.2 && s.evictable x.1 x.2 then
      match b with
      | none => some (x.2.touch, x.1)
      | some (t, _) => if x.2.touch < t then some (x.2.touch, x.1) else b
    else b) none).map fun x => x.2

/-- Starts a move down at P4 (R260, R262). -/
def State.moveDown (s : State) (tile : Nat) (e : DirEntry) : State :=
  s.setDir tile (some { e with st := .movingDown, p3 := false })

/-- A victim or an EVICT on an evictable tile (R259, R260, R262, R270): a copy is dropped, a near tile moves down. -/
def State.evictTile (s : State) (tile : Nat) : State :=
  match s.dirEntry tile with
  | none => s
  | some e =>
    match e.st with
    | .copy => s.setDir tile none
    | .near => s.moveDown tile e
    | _ => s

/-- Takes k units and starts the copy, FILLING, of a read-only tile, or the move, MOVING_UP, of a mutable one (R259, R260, R262). -/
def State.startPromote (s : State) (tile size : Nat) (p3 : Bool) : State :=
  let h := halfOf tile
  let used := s.usedUnits h
  let k := size / unitBytes
  s.setDir tile (some
    { size := size, st := if s.tileRo tile then .filling else .movingUp, owner := s.tileOwner tile,
      units := takeFree used (used.length + k) 0 k, touch := s.touchTime, handPin := false, jobPins := [],
      p3 := p3, promo := none, sealReq := false, unsealReq := false, held := [] })

/-- R269 and R270 from where a promotion stands, for at most `fuel` victims: the state, and the wait if the
promotion still waits. -/
def State.obtain : Nat → State → PromoWait → State × Option PromoWait
  | 0, s, w => (s, some w)
  | n + 1, s, w =>
    let size := (s.tileOf w.tile).2
    let k := size / unitBytes
    let h := halfOf w.tile
    let own := decide (s.ceiling w.part < s.occupancy w.part + k)
    if !own && decide (k ≤ s.freeUnits h) then (s.startPromote w.tile size w.p3, none)
    else
      match s.oldest (fun t e => if own then e.owner == w.part else halfOf t == h) with
      | none =>
        if w.counted then (s, some w)
        else ((s.count (.nmhEvwaitCnt w.part) 1).setWz (.nmhLog h) 0 [], some { w with counted := true })
      | some v =>
        let s' := s.evictTile v
        if (s'.dirEntry v).isSome then (s', some { w with victim := some v })
        else State.obtain n s' { w with victim := none }

/-- A waiting promotion tries again; while the victim it awaits still moves, it waits (R269). -/
def State.retryPromo (s : State) (w : PromoWait) : State × Option PromoWait :=
  let moving : Bool := match w.victim with
    | none => false
    | some v => match s.dirEntry v with | some e => e.st == .movingDown | none => false
  if moving then (s, some w) else State.obtain (s.dir.length + 1) s { w with victim := none }

/-- Promote (R262): a space-1 access, a PREFETCH, or a pending promotion that starts. -/
def State.promote (s : State) (tile : Nat) (p3 : Bool) : State :=
  match s.dirEntry tile with
  | some e =>
    match e.st with
    | .filling => s.setDir tile (some { e with touch := s.touchTime, p3 := e.p3 || p3 })
    | .copy | .near => s.touch tile
    | .movingUp => s.setDir tile (some { e with p3 := e.p3 || p3 })
    | .movingDown =>
      s.setDir tile (some { e with p3 := e.p3 || p3, promo := some (p3 || e.promo == some true) })
    | .cleaning => s
  | none =>
    let p := s.tileOwner tile
    let s := s.use [.partCeil p]
    if s.ceiling p = 0 then s
    else if s.promos.any fun w => w.tile == tile then
      { s with promos := s.promos.map fun w => if w.tile = tile then { w with p3 := w.p3 || p3 } else w }
    else
      let w : PromoWait := { tile := tile, part := p, p3 := p3, counted := false, victim := none, since := s.limClock }
      match State.obtain (s.dir.length + 1) s w with
      | (s, none) => s
      | (s, some w) => { s with promos := s.promos ++ [w] }

/-- Promotes, or touches, every tile of a range. -/
def State.promoteRange (s : State) (off len : Nat) (p3 : Bool) : State :=
  let s := s.useStacks off len
  (s.tilesOf off len).foldl (fun s t => s.promote t p3) s
def State.touchRange (s : State) (off len : Nat) : State :=
  let s := s.useStacks off len
  (s.tilesOf off len).foldl (fun s t => s.touch t) s

/-- Whether cells overwrite the whole 256-byte granule g. -/
def coversGranule (cells : List Host.Cell) (g : Nat) : Bool :=
  (List.range 256).all fun i => cells.any fun c => c.1 == g * 256 + i

/-- Poison after bytes were written (R443): poisoned data mark their granules; whole granules
overwritten with good data are cleared. -/
def State.poisonAfter (s : State) (cells : List Host.Cell) (bad : Bool) : State :=
  if bad then { s with poison := cells.foldl (fun l c => insNat (c.1 / 256) l) s.poison }
  else if s.poison.isEmpty then s
  else { s with poison := s.poison.filter fun g => !coversGranule cells g }

/-- Stores bytes at their home. -/
def State.applyStore (s : State) (cells : List Host.Cell) (bad : Bool) : State :=
  ({ s with mem := wrCells s.mem cells }).poisonAfter cells bad

/-- What was held before a write of the same granule of one transfer: contributions, or elements of one adder, at
ascending addresses (R264, R274). -/
def HeldWrite.follows (w v : HeldWrite) : Bool :=
  v.src == w.src && v.tx == w.tx &&
    (match v.op, w.op with
     | .atomic c x sx _, .atomic d y sy _ =>
       c == d && decide (x < y) && (if c = 7 then sx / 256 == sy / 256 else x / 256 == y / 256)
     | .elem x _, .elem y _ => decide (x < y) && x / 256 == y / 256
     | _, _ => false)

/-- Granules that held writes take in the buffer, those of one transfer to one granule together. -/
def heldGranules : List HeldWrite → Nat
  | [] => 0
  | [_] => 1
  | v :: w :: t => heldGranules (w :: t) + (if w.follows v then 0 else 1)

/-- Granules of held writes of a partition in a half (R264). -/
def State.heldOf (s : State) (p h : Nat) : Nat :=
  s.entries.foldl (fun n x => if halfOf x.1 = h then n + heldGranules (x.2.held.filter fun w => w.part == p) else n) 0

/-- Whether a write whose tile is moving must wait outside the buffer: its share of 64 granules is
full, or an earlier write of the share still waits (R264). -/
def State.holdFull (s : State) (w : HeldWrite) : Bool :=
  let last : Option HeldWrite := (s.dirEntry w.tile).bind fun e => e.held.getLast?
  let joins : Bool := match last with | some v => w.follows v | none => false
  (decide (64 ≤ s.heldOf w.part (halfOf w.tile)) && !joins) ||
    s.waitWrites.any fun x => x.part == w.part && halfOf x.tile == halfOf w.tile

/-- Bytes that writes store in turn. -/
def storedBy (m : Mem) (l : List HeldWrite) : Mem :=
  l.foldl (fun m w =>
    match w.op with
    | .store cells => wrCells m cells
    | .elem addr e => wrCells m (cellsAt addr (natLe 4 e.toNat))
    | .atomic _ _ _ _ => m) m

/-- The stacks as they stand once every held and waiting write has landed: what a write of a part of a byte keeps beside it. -/
def State.latest (s : State) : Mem := storedBy (s.entries.foldl (fun m x => storedBy m x.2.held) s.mem) s.waitWrites

/-- The tile whose entry holds an offset, in the size it was placed with; else the tile of the granule's TILE. -/
def State.tileAt (s : State) (off : Nat) : Nat :=
  match s.entries.find? fun x => decide (x.1 ≤ off) && decide (off < x.1 + x.2.size) with
  | some x => x.1
  | none => (s.tileOf off).1

/-- Whether a write to a tile would be held. -/
def State.moving (s : State) (tile : Nat) : Bool :=
  match s.dirEntry tile with
  | none => false
  | some e => !(e.st == .copy || e.st == .near)

/-- A write that waits raises the copy or move of its tile to P3 where it is of that class (R40, R66). -/
def State.raise (s : State) (w : HeldWrite) : State :=
  match s.dirEntry w.tile with
  | none => s
  | some e => s.setDir w.tile (some { e with p3 := e.p3 || trafficClass (srcTraffic w.src) == 3 })

/-- A write as its tile's state treats it (R259, R262, Write), without the wait for space: applied by `app` at the home
(true in near memory), or held. -/
def State.writeVia (app : Bool → HeldWrite → State → State) (s : State) (w : HeldWrite) : State :=
  match s.dirEntry w.tile with
  | none => app false w s
  | some e =>
    match e.st with
    | .copy => app false w (s.setDir w.tile none)
    | .near => app true w (s.setDir w.tile (some { e with touch := s.touchTime }))
    | _ => (s.setDir w.tile (some { e with held := e.held ++ [w] })).raise w

/-- Whether a write must come after one that still waits: of its source to its tile (R264), or of an adder to its tile
(R278). -/
def HeldWrite.after (w x : HeldWrite) : Bool :=
  x.tile == w.tile && (x.src == w.src || (match x.op, w.op with | .elem _ _, .elem _ _ => true | _, _ => false))

/-- A write reaches its directory (R262, R264): it waits outside a full share and behind a write that it must follow. -/
def State.dirVia (app : Bool → HeldWrite → State → State) (s : State) (w : HeldWrite) : State :=
  if (s.moving w.tile && s.holdFull w) || s.waitWrites.any w.after then { s with waitWrites := s.waitWrites ++ [w] }.raise w
  else s.writeVia app w

/-- Bytes at their home. -/
def applyCells (_near : Bool) (w : HeldWrite) (s : State) : State :=
  match w.op with
  | .store cells => s.applyStore cells w.bad
  | .elem addr e => s.applyStore (cellsAt addr (natLe 4 e.toNat)) w.bad
  | .atomic _ _ _ _ => s

/-- An exact-mode element as the adders last wrote it (R278): in memory, or in the writes still held
(notes/assumptions/61.md). -/
def State.elemNow (s : State) (addr : Nat) : Word := BitVec.ofNat 32 (rdNat s.latest addr 4)

/-- The slot's adder writes the element of contribution `w`, as a write to the element's tile (R278, R264). -/
def State.writeElem (s : State) (w : HeldWrite) (addr : Nat) (e : Word) : State :=
  s.dirVia applyCells { w with tile := s.tileAt addr, op := .elem addr e }

/-- Whether what follows an operation's landing tells what its contributions found. -/
def TxBack.wantsOld : TxBack → Bool
  | .ack _ | .record _ _ => false
  | .prior _ => true
  | .issuer _ _ j => j.ret

/-- An atomic notes what it found, for the answer that returns it (R294). -/
def State.noteOld (s : State) (w : HeldWrite) (addr : Nat) (old : List Byte) : State :=
  match w.tx with
  | none => s
  | some n => { s with txDue := s.txDue.map fun d => if d.seq = n ∧ d.back.wantsOld = true then { d with old := wrCells d.old (cellsAt addr old) } else d }

/-- Applies a write at its tile's home (R273): the bytes, or the contribution at the adder there; in exact mode
that is the adder of the slot. What is computed from poisoned data is poisoned (R443). -/
def applyOp (near : Bool) (w : HeldWrite) (s : State) : State :=
  match w.op with
  | .store _ | .elem _ _ => applyCells near w s
  | .atomic code addr slot x =>
    if code = 7 then
      let old := s.elemNow addr
      match exactAdd (BitVec.ofNat 128 (rdNat s.mem slot 16)) old (BitVec.ofNat 32 x) with
      | (sl, e, o) =>
        let bad := w.bad || s.poisoned slot 16 || s.poisoned addr 4
        (((s.applyStore (cellsAt slot (natLe 16 sl.toNat)) bad).noteOld w addr (natLe 4 old.toNat)).writeElem { w with bad := bad }
          addr e).flag (if near then .nmhLog (halfOf slot) else .memLog (stackOf slot)) (if near then 1 else 2) o
    else
      let n := atomicBytes code
      let c := cellsAt addr (natLe n (atomicPlain code (rdNat s.mem addr n) x))
      (s.applyStore c (w.bad || s.poisoned addr n)).noteOld w addr (rdBytes s.mem addr n)

/-- A write or atomic as its tile's state treats it, and one that reaches its directory (R259, R262, R263, R273). -/
def State.writeNow (s : State) (w : HeldWrite) : State := s.writeVia applyOp w
def State.dirWrite (s : State) (w : HeldWrite) : State := s.dirVia applyOp w

/-- Cells cut where the 256-byte granule changes. -/
def groupCells : List Host.Cell → List (List Host.Cell)
  | [] => []
  | c :: t =>
    match groupCells t with
    | [] => [[c]]
    | [] :: r => [c] :: r
    | (d :: g) :: r => if c.1 / 256 = d.1 / 256 then (c :: d :: g) :: r else [c] :: (d :: g) :: r

/-- The granules that cells lie in. -/
def cellGrans (cells : List Host.Cell) : List Nat :=
  cells.foldl (fun l c => match granuleOf c.1 with | some g => insNat g l | none => l) []

/-- Writes bytes of stack memory for a source, granule by granule, through the directories. -/
def State.storeCells (s : State) (src p : Nat) (cells : List Host.Cell) (bad : Bool) (tx : Option Nat := none) : State :=
  let s := if s.upset then s.use ((cellGrans cells).map Reg.memGran) else s
  if s.dir.isEmpty && s.waitWrites.isEmpty then
    ({ s with mem := wrCells s.mem cells }).poisonAfter cells bad
  else
    (groupCells cells).foldl (fun s g =>
      match g with
      | [] => s
      | c :: _ => s.dirWrite { src := src, part := p, tile := (s.tileOf c.1).1, op := .store g, bad := bad, tx := tx }) s

/-- Bytes that wait for the new values of their granule (R253), behind the writes that wait already. -/
def State.waitCells (s : State) (src p : Nat) (cells : List Host.Cell) (bad : Bool) : State :=
  { s with waitWrites := s.waitWrites ++ (groupCells cells).filterMap fun g =>
      match g with
      | [] => none
      | c :: _ => some { src := src, part := p, tile := (s.tileOf c.1).1, op := .store g, bad := bad, tx := none } }

/-- Whether a Function Level Reset has silenced the work behind a source of writes: none of it reaches host memory (R381). -/
def State.muted (s : State) (src : Nat) : Bool :=
  if src < 100 then (match (s.facet (src / 4)).run with | some r => r.cl.mute | none => false)
  else if src < 200 then
    (match s.ctx ((src - 100) / 32) ((src - 100) % 32) with | some c => c.members.any fun m => m.run.cl.mute | none => false)
  else if src < 300 then (match (s.codec (src - 210)).job with | some j => j.mute | none => false)
  else if src < 600 then false
  else match s.thinJob ((src - 600) / 32) ((src - 600) % 32) with | some j => j.mute | none => false

/-- Writes bytes at an offset of a space of the own vertex. -/
def State.storeBytes (s : State) (src p space off : Nat) (b : List Byte) (bad : Bool)
    (tx : Option Nat := none) : State :=
  if space = 3 then (if s.muted src then s else s.wrHost p off b) else s.storeCells src p (cellsAt off b) bad tx

/-- One atomic contribution in the stacks, at the home of its target, in exact mode that of its slot (R273, R278). -/
def State.storeAtomic (s : State) (src p code addr slot x : Nat) (tx : Option Nat := none) (bad : Bool := false) : State :=
  let home := if code = 7 then slot else addr
  let s := s.useStacks home 1
  s.dirWrite { src := src, part := p, tile := (s.tileOf home).1, op := .atomic code addr slot x, bad := bad, tx := tx }

/-- Whether a source still has writes that have not landed. -/
def State.writesLeft (s : State) (src : Nat) : Bool :=
  s.waitWrites.any (fun w => w.src == src) || s.entries.any fun x => x.2.held.any fun w => w.src == src

/-- Applies held writes in the order in which they reached the directory. -/
def State.applyHeld (s : State) (near : Bool) (l : List HeldWrite) : State :=
  l.foldl (fun s w => applyOp near w s) s

/-- Whether a tile's granule is being flushed (R253), or its stack drains (R452). -/
def State.flushing (s : State) (tile : Nat) : Bool :=
  match granuleOf tile with
  | none => false
  | some g => (s.granProc g).flush || (s.unit (uStack (stackOf tile))).st == .draining

/-- Whether any granule of a range waits for its new values (R253): a permitted access waits for them. -/
def State.granBusy (s : State) (off len : Nat) : Bool :=
  decide (0 < len) && s.gran.any fun x =>
    let base := x.1 / 48 * 2 ^ 36 + x.1 % 48 * 2 ^ 30
    (x.2.flush || x.2.scrub) && decide (off < base + 2 ^ 30) && decide (base < off + len)

/-- Whether a footprint names a byte of a granule that takes new values (R253). -/
def State.footBusy (s : State) (foot : List Range) : Bool :=
  foot.any fun r => !r.host && r.used && r.runs.any fun x => s.granBusy x.1 (x.2 - x.1)

/-- A tile that has just settled returns to the stack where its granule is being flushed (R253). -/
def State.settle (s : State) (tile : Nat) : State := if s.flushing tile then s.evictTile tile else s

/-- Seal (R262, R195): the tile's class bit set, or recorded. -/
def State.sealTile (s : State) (tile : Nat) : State :=
  match s.dirEntry tile with
  | none => s.setClass tile true
  | some e =>
    match e.st with
    | .movingUp => s.setDir tile (some { e with sealReq := true })
    | .movingDown => s.setDir tile (some { e with sealReq := true, unsealReq := false })
    | .near =>
      let s' := s.setClass tile true
      if s'.tileRo tile then s'.setDir tile (some { e with st := .cleaning }) else s'
    | _ => s

/-- Unseal (R262). -/
def State.unsealTile (s : State) (tile : Nat) : State :=
  match s.dirEntry tile with
  | none => s.setClass tile false
  | some e =>
    match e.st with
    | .filling | .cleaning =>
      if (s.setClass tile false).tileRo tile then s else s.setDir tile (some { e with unsealReq := true })
    | .movingDown => s.setDir tile (some { e with unsealReq := true, sealReq := false })
    | .copy =>
      let s' := s.setClass tile false
      if s'.tileRo tile then s' else s'.setDir tile (some { e with st := .near })
    | _ => s

/-- Lands (R260, R262, R263): the last byte of the tile's copy, move or write-back arrives. -/
def State.landTile (s : State) (tile : Nat) : State :=
  match s.dirEntry tile with
  | none => s
  | some e =>
    let e0 := { e with held := [], sealReq := false, unsealReq := false, promo := none, p3 := false }
    let now := s.touchTime
    match e.st with
    | .filling =>
      if e.unsealReq then
        (((s.setClass tile false).setDir tile (some { e0 with st := .near, touch := now })).applyHeld true e.held).settle tile
      else if e.held.isEmpty then (s.setDir tile (some { e0 with st := .copy, touch := now })).settle tile
      else (s.setDir tile none).applyHeld false e.held
    | .movingUp =>
      let s1 := (s.setDir tile (some { e0 with st := .near, touch := now })).applyHeld true e.held
      (if e.sealReq then s1.sealTile tile else s1).settle tile
    | .movingDown =>
      let s1 := (s.setDir tile none).applyHeld false e.held
      let s2 := if e.sealReq then s1.setClass tile true else if e.unsealReq then s1.setClass tile false else s1
      (match e.promo with
       | none => s2
       | some p3 => if s2.flushing tile then s2 else s2.promote tile p3)
    | .cleaning =>
      if e.unsealReq then
        (((s.setClass tile false).setDir tile (some { e0 with st := .near, touch := if e.held.isEmpty then e.touch else now })).applyHeld
          true e.held).settle tile
      else if e.held.isEmpty then (s.setDir tile (some { e0 with st := .copy })).settle tile
      else (s.setDir tile none).applyHeld false e.held
    | _ => s

/-- Whether a write that has waited is permitted (R253): its partition still owns the tile's granule; the host writes through
the PF whoever owns it. -/
def State.mayWrite (s : State) (w : HeldWrite) : Bool := w.src == srcHost 0 || s.spaceCheck w.part 0 w.tile 1 == 0

/-- A waiting write of half h that can be taken now: the first, in order of arrival, whose tile no
longer moves or whose share has room and that no earlier write of its share precedes (R264); one to a granule that takes new
values waits for them, and one that they do not permit waits no longer (R253). -/
def takeWaiting (s : State) (h : Nat) : List HeldWrite → List HeldWrite → Option (HeldWrite × List HeldWrite)
  | _, [] => none
  | pre, w :: t =>
    let first := !(pre.any fun x => x.part == w.part && halfOf x.tile == h)
    if halfOf w.tile == h && first &&
        (!s.mayWrite w || (!s.granBusy w.tile 1 && (!s.moving w.tile || decide (s.heldOf w.part h < 64)))) then
      some (w, pre ++ t)
    else takeWaiting s h (pre ++ [w]) t

end Sys2Proof.Machine
end

