-- ==== Sys2Proof/Machine/Special.lean ====
section
/-! DEFINITION. The tangent unit (spec/07_vector_and_tangent.md R182 to R187): special values, native
functions within their error bounds, and Ocent mode bit for bit. Mathematical functions are evaluated in
fixed point with 512 fraction bits and rounded once; what R182 leaves open is Config.ulpOffset, clamped to
the bound of R182 (notes/assumptions/10.md). -/

namespace Sys2Proof.Machine

/-- Fraction bits of the fixed-point evaluation. -/
def fxBits : Nat := 512

/-- Product and quotient of fixed-point numbers. -/
def fxMul (a b : Int) : Int := (a * b) / 2 ^ fxBits
def fxOne : Int := 2 ^ fxBits

/-- atanh(1/d) × 2^512 by its series, `n` terms from place `k` with power `p` = 2^512 / d^(2k+1). -/
def fxAtanhInv (d : Nat) : Nat → Nat → Nat → Nat
  | 0, _, _ => 0
  | n + 1, k, p => p / (2 * k + 1) + fxAtanhInv d n (k + 1) (p / (d * d))

/-- atan(1/d) × 2^512 by its alternating series. -/
def fxAtanInv (d : Nat) : Nat → Nat → Nat → Int
  | 0, _, _ => 0
  | n + 1, k, p =>
    let t : Int := ((p / (2 * k + 1) : Nat) : Int)
    (if k % 2 = 0 then t else -t) + fxAtanInv d n (k + 1) (p / (d * d))

/-- ln 2 = 2 atanh(1/3). -/
def fxLn2 : Int := ((2 * fxAtanhInv 3 170 0 (2 ^ fxBits / 3) : Nat) : Int)

/-- π = 16 atan(1/5) − 4 atan(1/239). -/
def fxPi : Int := 16 * fxAtanInv 5 120 0 (2 ^ fxBits / 5) - 4 * fxAtanInv 239 40 0 (2 ^ fxBits / 239)

/-- e^r by its series for 0 ≤ r < 1: the sum of the terms from `t`. -/
def fxExpGo (r : Int) : Nat → Nat → Int → Int
  | 0, _, t => t
  | n + 1, k, t => t + fxExpGo r n (k + 1) (fxMul t r / (k + 1 : Nat))

/-- e^r × 2^512 for 0 ≤ r < 1. -/
def fxExp (r : Int) : Int := fxExpGo r 115 0 fxOne

/-- The odd (from `k` = 1, `t` = r) or even (from 0, 1) alternating series of sin and cos. -/
def fxTrigGo (r2 : Int) : Nat → Nat → Int → Int
  | 0, _, t => t
  | n + 1, k, t => t - fxTrigGo r2 n (k + 2) (fxMul t r2 / ((k + 1) * (k + 2) : Nat))

/-- Σ x^(2k+1) / (1·3·5···(2k+1)). -/
def fxNormGo (x2 : Int) : Nat → Nat → Int → Int
  | 0, _, t => t
  | n + 1, k, t => t + fxNormGo x2 n (k + 1) (fxMul t x2 / ((2 * k + 3 : Nat) : Int))

/-- A finite value in fixed point, truncated below 2^-512. -/
def Val.fx : Val → Int
  | .num a m e =>
    let k := e + fxBits
    let x : Int := if 0 ≤ k then ((m <<< k.toNat : Nat) : Int) else ((m >>> (-k).toNat : Nat) : Int)
    if a then -x else x
  | _ => 0

/-- A fixed-point number times 2^k as a value. -/
def fxVal (x : Int) (k : Int) : Val := .num (decide (x < 0)) x.natAbs (k - fxBits)

/-- ⌊x⌋ of a finite value. -/
def Val.floor : Val → Int
  | .num a m e =>
    let x : Int := if a then -(m : Int) else m
    if 0 ≤ e then x * 2 ^ e.toNat else x / 2 ^ (-e).toNat
  | _ => 0

/-- |x| ≥ n for a finite value. -/
def Val.absGe : Val → Nat → Bool
  | .num _ m e, n => if 0 ≤ e then decide (n ≤ m <<< e.toNat) else decide (n <<< (-e).toNat ≤ m)
  | .inf _, _ => true
  | .nan, _ => false

/-- The sign of a value. -/
def Val.isNeg : Val → Bool
  | .num a _ _ => a
  | .inf a => a
  | .nan => false

/-- |x|. -/
def Val.abs : Val → Val
  | .num _ m e => .num false m e
  | .inf _ => .inf false
  | .nan => .nan

/-- 2^x. -/
def exp2Val (x : Val) : Val :=
  if x.absGe 4096 then (if x.isNeg then .num false 1 (-5000) else .num false 1 5000)
  else
    let n := x.floor
    let u := x.fx - n * fxOne
    if u = 0 then .num false 1 n else fxVal (fxExp (fxMul u fxLn2)) n

/-- e^x. -/
def expVal (x : Val) : Val :=
  if x.absGe 2048 then (if x.isNeg then .num false 1 (-5000) else .num false 1 5000)
  else
    let n := x.fx / fxLn2
    fxVal (fxExp (x.fx - n * fxLn2)) n

/-- ln of a number in [1, 2) in fixed point: 2 atanh((m − 1) / (m + 1)). -/
def fxLn (m : Int) : Int :=
  let y := ((m - fxOne) * fxOne) / (m + fxOne)
  2 * (fxAtanhGo (fxMul y y) 170 0 y)
where
  fxAtanhGo (y2 : Int) : Nat → Nat → Int → Int
    | 0, _, _ => 0
    | n + 1, k, p => p / ((2 * k + 1 : Nat) : Int) + fxAtanhGo y2 n (k + 1) (fxMul p y2)

/-- log2 x of a positive finite value. -/
def log2Val : Val → Val
  | .num _ m e =>
    let k := Nat.log2 m
    let mant : Int := ((if k ≤ fxBits then m <<< (fxBits - k) else m >>> (k - fxBits) : Nat) : Int)
    let ip : Int := e + k
    let frac := (fxLn mant * fxOne) / fxLn2
    fxVal (ip * fxOne + frac) 0
  | v => v

/-- tanh |x|, with x's sign given back by the caller. -/
def tanhAbs (x : Val) : Val :=
  if x.absGe 64 then fxVal (fxOne - 1) 0
  else
    let ev := expVal ((x.abs).scale 1)
    Val.div (ev.add (.num true 1 0)) (ev.add (.num false 1 0))

/-- The logistic function. -/
def sigmoidVal (x : Val) : Val :=
  let ev := expVal x
  if x.isNeg then Val.div ev (ev.add (.num false 1 0))
  else Val.div (.num false 1 0) ((expVal x.neg).add (.num false 1 0))

/-- The normal distribution function Φ, to 2^-300 absolute, 0 or 1 beyond |x| = 16. -/
def phiVal (x : Val) : Val :=
  if x.absGe 16 then (if x.isNeg then .num false 0 0 else .num false 1 0)
  else
    let a := (x.abs).fx
    let s := fxNormGo (fxMul a a) 640 0 a
    let dens := Val.div (expVal ((x.mul x).scale (-1)).neg) (Val.sqrt (fxVal (2 * fxPi) 0))
    let half := dens.mul (fxVal s 0)
    let h : Val := .num false 1 (-1)
    if x.isNeg then h.add half.neg else h.add half

/-- sin (`odd`) or cos of a finite value. -/
def trigVal (odd : Bool) (x : Val) : Val :=
  let r := x.fx % (2 * fxPi)
  let r := if r > fxPi then r - 2 * fxPi else r
  let r2 := fxMul r r
  if odd then fxVal (fxTrigGo r2 90 1 r) 0 else fxVal (fxTrigGo r2 90 0 fxOne) 0

/-- The special values of R183, in both modes: some result where the table gives one. -/
def specialValue (fn : Nat) (x : Word) : Option Word :=
  let v := fval x
  let neg := bit x.toNat 31
  if fIsNaN x then some fNaN
  else
    match fn, v with
    | 0, .inf _ => some (if neg then fZero else fInf)
    | 0x0B, .inf _ => some (if neg then fZero else fInf)
    | 0, .num _ 0 _ => some fOne
    | 0x0B, .num _ 0 _ => some fOne
    | 1, .inf _ => some (if neg then fNaN else fInf)
    | 1, .num _ 0 _ => some fNegInf
    | 1, _ => if neg then some fNaN else none
    | 2, .inf _ => some (if neg then 0x8000_0000 else fZero)
    | 2, .num _ 0 _ => some (if neg then fNegInf else fInf)
    | 3, .inf _ => some (if neg then fNaN else fZero)
    | 3, .num _ 0 _ => some (if neg then fNegInf else fInf)
    | 3, _ => if neg then some fNaN else none
    | 4, .inf _ => some (if neg then fNaN else fInf)
    | 4, .num _ 0 _ => some x
    | 4, _ => if neg then some fNaN else none
    | 5, .inf _ => some (if neg then 0xBF80_0000 else fOne)
    | 5, .num _ 0 _ => some x
    | 6, .inf _ => some (if neg then fZero else fOne)
    | 6, .num _ 0 _ => some 0x3F00_0000
    | 7, .inf _ => some (if neg then 0x8000_0000 else fInf)
    | 7, .num _ 0 _ => some x
    | 8, .inf _ => some (if neg then 0x8000_0000 else fInf)
    | 8, .num _ 0 _ => some x
    | 9, .inf _ => some fNaN
    | 9, .num _ 0 _ => some x
    | 0x0A, .inf _ => some fNaN
    | 0x0A, .num _ 0 _ => some fOne
    | _, _ => none

/-- The mathematical value of a native function at a finite non-special argument (R182). -/
def exactValue (fn : Nat) (x : Word) : Val :=
  let v := fval x
  match fn with
  | 0 => exp2Val v
  | 1 => log2Val v
  | 2 => Val.div (.num false 1 0) v
  | 3 => Val.div (.num false 1 0) (Val.sqrt v)
  | 4 => Val.sqrt v
  | 5 => tanhAbs v
  | 6 => sigmoidVal v
  | 7 => v.mul (phiVal v)
  | 8 => v.mul (sigmoidVal v)
  | 9 => trigVal true v.abs
  | 0x0A => trigVal false v
  | _ => exp2Val (fval (fmul x 0x3FB8AA3B))

/-- Where the error bound holds in ulp (R182), the bound; elsewhere the exponent of the absolute one. -/
inductive Bound where
  | ulp (n : Nat)
  | abs (k : Nat)
  deriving DecidableEq, Repr

/-- The error bound of a function at an argument. -/
def errorBound (fn : Nat) (x : Word) : Bound :=
  let v := fval x
  match fn with
  | 0 | 2 | 3 => .ulp 1
  | 1 => if (log2Val v).abs.fx ≥ 2 ^ (fxBits - 10) then .ulp 1 else .abs 33
  | 4 => .ulp 0
  | 5 | 6 => .ulp 2
  | 7 => if v.isNeg && v.absGe 5 && decide (x ≠ 0xC0A0_0000) then .abs 30 else .ulp 3
  | 8 => if v.isNeg && v.absGe 20 && decide (x ≠ 0xC1A0_0000) then .abs 30 else .ulp 3
  | 9 | 0x0A => if v.absGe (2 ^ 20) && decide (x ≠ 0x4980_0000) && decide (x ≠ 0xC980_0000) then .abs 24 else .ulp 2
  | _ => .ulp 2

/-- An offset clamped to ±n. -/
def clampInt (n : Nat) (d : Int) : Int := max (-(n : Int)) (min n d)

/-- A finite encoding of a magnitude and a sign. -/
def signMag (neg : Bool) (m : Nat) : Word := BitVec.ofNat 32 (m % 2 ^ 31 + (if neg then 2 ^ 31 else 0))

/-- Magnitudes that a monotonic function takes at an argument of R183's table, at its bound, or where the bound becomes an
absolute one: results below stay below them, results above stay above. -/
def pinned (fn : Nat) (x : Word) : List Nat :=
  match fn with
  | 0 | 5 | 0x0B => [0x3F80_0000]
  | 1 => [0x3A7F_FFFF]
  | 6 => [0x3F00_0000, 0x3F80_0000]
  | 0x0A => if decide (fxPi < (fval x).abs.fx) then [] else [0x3F80_0000]
  | _ => []

/-- A magnitude moved by the free offset of at most n units in the last place, over no pinned magnitude, up to +∞. -/
def movedMag (fn n : Nat) (pins : List Nat) (neg : Bool) (m : Nat) : Nat :=
  pins.foldl (fun r p => if m = p then p else if m < p then min r p else max r p)
    (max 0 (min 0x7F80_0000 ((m : Int) + clampInt n (Config.ulpOffset fn (signMag neg m))))).toNat

/-- The result whose correctly rounded magnitude is m: within n ulp of it, and rising with it, as the greatest of the moved
magnitudes up to m; those more than 2n below m cannot be the greatest (R182, R183; notes/assumptions/10.md). -/
def withinUlp (fn n : Nat) (pins : List Nat) (neg : Bool) (m : Nat) : Nat :=
  (List.range (2 * n + 1)).foldl (fun b k => if k ≤ m then max b (movedMag fn n pins neg (m - k)) else b) 0

/-- A result under a bound in ulp: the correctly rounded one where it is infinite or the function is exact. -/
def ulpResult (fn n : Nat) (x w : Word) : Word :=
  if fIsInf w ∨ n = 0 then w else signMag (bit w.toNat 31) (withinUlp fn n (pinned fn x) (bit w.toNat 31) (w.toNat % 2 ^ 31))

/-- The exact value moved by a free offset of at most 2^-k. -/
def absResult (k : Nat) (d : Int) (ev : Val) : Word :=
  f32 (ev.add (.num (decide (d < 0)) (clampInt (2 ^ 16) d).natAbs (-(k : Int) - 17)))

/-- A result under an absolute bound. GELU and SiLU keep their sign and stay above their value at the end of the domain, log2
stays between the results at its ends, sin keeps its sign (R183); one offset serves all arguments of the three monotonic ones. -/
def absRule (fn k : Nat) (x : Word) (ev : Val) : Word :=
  match fn with
  | 1 =>
    let w := absResult k (Config.ulpOffset 1 0) ev
    signMag (bit w.toNat 31) (min (w.toNat % 2 ^ 31) 0x3A7F_FFFF)
  | 7 | 8 =>
    let w := absResult k (Config.ulpOffset fn 0) ev
    let e : Word := if fn = 7 then 0xC0A0_0000 else 0xC1A0_0000
    let lim := ulpResult fn 3 e (f32 (exactValue fn e))
    if bit w.toNat 31 then signMag true (min (w.toNat % 2 ^ 31) (lim.toNat % 2 ^ 31)) else 0x8000_0000
  | 9 =>
    let w := absResult k (Config.ulpOffset 9 x) ev
    if bit w.toNat 31 = ev.isNeg then w else signMag ev.isNeg 0
  | _ => absResult k (Config.ulpOffset fn x) ev

/-- The native result (R182): tanh and sin are odd. -/
def nativeFn (fn : Nat) (x : Word) : Word :=
  match specialValue fn x with
  | some r => r
  | none =>
    let odd := fn = 5 || fn = 9
    let arg := if odd then x &&& 0x7FFF_FFFF else x
    let ev := exactValue fn arg
    let r := match errorBound fn arg with
      | .ulp n => ulpResult fn n arg (f32 ev)
      | .abs k => absRule fn k arg ev
    if odd && bit x.toNat 31 then fneg r else r

/-- The table value g(k / 256) of an Ocent function, correctly rounded (R186). -/
def ocentTable (fn k : Nat) : Word :=
  let u : Val := .num (decide (k < 128)) ((k : Int) - 128).natAbs (-4)
  match fn with
  | 0 => f32 (exp2Val (.num false k (-8)))
  | 2 => f32 (Val.div (.num false 256 0) (.num false (256 + k) 0))
  | 3 => f32 (Val.sqrt (Val.div (.num false 64 0) (.num false (64 + k) 0)))
  | 5 => let t := tanhAbs u; f32 (if k < 128 then t.neg else t)
  | 6 | 8 => f32 (sigmoidVal u)
  | _ => f32 (phiVal u)

/-- Interpolation at u = (place + f) / 256 (R186), with `t` = u × 256 and f exact. -/
def ocentY (fn : Nat) (t : Val) : Word :=
  let k := min t.floor.toNat 255
  let f := t.add (.num true k 0)
  let a := ocentTable fn k
  fadd a (f32 (f.mul (fval (fsub (ocentTable fn (k + 1)) a))))

/-- Ocent mode (R186). -/
def ocentFn (fn : Nat) (x : Word) : Word :=
  let xb := roundBf16 x
  match specialValue fn xb with
  | some r => if fIsNaN r then r else roundBf16 r
  | none =>
    match fval xb with
    | .num neg m e =>
      let lg : Int := e + Nat.log2 m
      let z : Word := match fn with
        | 0 =>
          let v : Val := .num neg m e
          if v.absGe 4096 then (if neg then fZero else fInf)
          else
            let n := v.floor
            f32 ((fval (ocentY 0 ((v.add (.num (decide (0 < n)) n.natAbs 0)).scale 8))).scale n)
        | 2 =>
          let w : Val := .num false m (e - lg)
          let r := f32 ((fval (ocentY 2 ((w.add (.num true 1 0)).scale 8))).scale (-lg))
          if neg then fneg r else r
        | 3 =>
          let h := lg / 2
          let w : Val := .num false m (e - 2 * h)
          f32 ((fval (ocentY 3 ((w.add (.num true 1 0)).scale 6))).scale (-h))
        | _ =>
          let v : Val := .num neg m e
          let c : Val := if v.absGe 8 then .num neg 8 0 else v
          let y := ocentY fn ((c.add (.num false 8 0)).scale 4)
          if fn = 7 || fn = 8 then fmul xb y else y
      roundBf16 z
    | _ => fNaN

/-- Ocent mode is offered for these functions (R182). -/
def ocentOffered (fn : Nat) : Bool :=
  fn = 0 || fn = 2 || fn = 3 || fn = 5 || fn = 6 || fn = 7 || fn = 8

/-- The functions the attention path, NORM and SOFTMAX use (R181, R188, R219). -/
def exp2n (x : Word) : Word := nativeFn 0 x
def log2n (x : Word) : Word := nativeFn 1 x
def recipn (x : Word) : Word := nativeFn 2 x
def rsqrtn (x : Word) : Word := nativeFn 3 x

end Sys2Proof.Machine
end

