-- ==== Sys2Proof/Machine/Operands.lean ====
section
/-! DEFINITION. Operands: the fields of an instruction (R100), tensor descriptors and members' views (R110,
R111), element addressing in every layout (R68 to R71, R112, R136, R230), exact reads with block scales and
outlier records (R69, R157), and the output of an instruction with its rounding and split (R79 to R82, R105). -/

namespace Sys2Proof.Machine

/-! Instruction fields (R100). -/

abbrev Ins := BitVec 256
def iOpcode (i : Ins) : Nat := fld i 7 0
def iVer (i : Ins) : Nat := fld i 11 8
def iRound (i : Ins) : Nat := fld i 13 12
def iSeed (i : Ins) : Nat := fld i 17 14
def iXacc (i : Ins) : Bool := i.getLsbD 18
def iChk (i : Ins) : Bool := i.getLsbD 19
def iRef (i : Ins) : Bool := i.getLsbD 20
def iAcc (i : Ins) : Bool := i.getLsbD 21
def iSplit (i : Ins) : Nat := fld i 23 22
def iOut (i : Ins) : Nat := fld i 31 24
def iA (i : Ins) : Nat := fld i 39 32
def iB (i : Ins) : Nat := fld i 47 40
def iC (i : Ins) : Nat := fld i 55 48
def iAux (i : Ins) : Nat := fld i 63 56
def iWaitCtr (i : Ins) : Nat := fld i 77 64
def iWaitEn (i : Ins) : Bool := i.getLsbD 79
def iMod (i : Ins) : Nat := fld i 95 80
def iSigCtr (i : Ins) : Nat := fld i 109 96
def iSigMode (i : Ins) : Nat := fld i 115 114
def iSigRank (i : Ins) : Nat := fld i 127 116
def iSigValue (i : Ins) : Word := BitVec.ofNat 32 (fld i 159 128)
def iWaitThresh (i : Ins) : Word := BitVec.ofNat 32 (fld i 191 160)
def iImm (i : Ins) : Nat := fld i 223 192
def iStream (i : Ins) : Nat := fld i 255 224
/-- STREAM:IMM as one 64-bit operand (R103). -/
def iLong (i : Ins) : Nat := fld i 255 192

/-! Descriptors. -/

abbrev Desc := BitVec 512
def dVer (d : Desc) : Nat := fld d 479 476
def dKind (d : Desc) : Nat := fld d 464 463
def dFormat (d : Desc) : Nat := fld d 455 448
def dLayout (d : Desc) : Nat := fld d 459 456
def dNdim (d : Desc) : Nat := fld d 462 460
def dScaleMode (d : Desc) : Nat := fld d 466 465
def dBlockAxis (d : Desc) : Nat := fld d 469 467
def dCap (d : Desc) : Nat := fld d 488 480
def dGangStep (d : Desc) : Nat := fld d 447 416
def dAddr (d : Desc) : Nat := fld d 63 0
def dScaleAddr (d : Desc) : Nat := fld d 127 64
/-- DIMk, k = 0 to 4; STRIDEk in bytes, k = 1 to 4. -/
def dDim (d : Desc) (k : Nat) : Nat := fld d (159 + 32 * k) (128 + 32 * k)
def dStride (d : Desc) (k : Nat) : Nat := fld d (287 + 32 * k) (256 + 32 * k) * 64
/-- The five extents. -/
def dDims (d : Desc) : List Nat := (List.range 5).map (dDim d)

/-- Storage formats (R67, R110): unblocked elements, MX elements, T5. -/
inductive Fmt where
  | plain (e : Elem)
  | mx (e : Elem)
  | t5
  deriving DecidableEq, Repr

/-- The format of a code (R110). -/
def fmtOf : Nat → Option Fmt
  | 0x00 => some (.plain .fp32) | 0x01 => some (.plain .bf16) | 0x02 => some (.plain .fp16)
  | 0x03 => some (.plain .e4m3) | 0x04 => some (.plain .e5m2)
  | 0x10 => some (.mx .e4m3) | 0x11 => some (.mx .e5m2) | 0x12 => some (.mx .e2m3)
  | 0x13 => some (.mx .e3m2) | 0x14 => some (.mx .e2m1)
  | 0x20 => some (.plain .int8) | 0x21 => some (.plain .int4)
  | 0x30 => some .t5
  | _ => none

/-- A descriptor's format, FP32 where its code is reserved (such a descriptor never issues). -/
def dFmt (d : Desc) : Fmt := (fmtOf (dFormat d)).getD (.plain .fp32)
/-- The element of a format; T5 has its own. -/
def Fmt.elem : Fmt → Elem
  | .plain e => e
  | .mx e => e
  | .t5 => .int4
/-- Bits of an element; a T5 element takes 2 on average. -/
def Fmt.width : Fmt → Nat
  | .t5 => 2
  | f => f.elem.width
/-- Formats with 32-element blocks. -/
def Fmt.blocked : Fmt → Bool
  | .plain _ => false
  | _ => true
/-- Formats with a scale array of E8M0 bytes. -/
def Fmt.isMx : Fmt → Bool
  | .mx _ => true
  | _ => false
/-- Formats narrower than FP32 that an instruction writes under its rounding field (R79). -/
def Fmt.narrow : Fmt → Bool
  | .plain .fp32 => false
  | _ => true

/-- Indices of a tensor, DIM0 first. -/
abbrev Idx := List Nat
/-- Index k. -/
def ix (i : Idx) (k : Nat) : Nat := i.getD k 0
/-- Index k replaced. -/
def ixSet (i : Idx) (k v : Nat) : Idx := i.set k v
/-- The index at position l of a shape, DIM0 fastest (R82), and its inverse. -/
def unravel : List Nat → Nat → Idx
  | [], _ => []
  | n :: t, l => l % max n 1 :: unravel t (l / max n 1)
def ravel : List Nat → Idx → Nat
  | n :: t, i :: r => i + n * ravel t r
  | _, _ => 0
/-- The product of extents. -/
def volume (l : List Nat) : Nat := l.foldl (· * ·) 1
/-- Every index of a shape, in logical order. -/
def allIdx (dims : List Nat) : List Idx := (List.range (volume dims)).map (unravel dims)

/-- A tensor as one member sees it (R111): the descriptor, the member's first index along dimension
NDIM − 1, and Kp of the reading pass mode for ENGINE panels (R137). -/
structure View where
  d : Desc
  start : Nat
  kp : Nat
  deriving DecidableEq, Repr

/-- Member g's view. -/
def viewOf (d : Desc) (g kp : Nat) : View := { d := d, start := g * dGangStep d, kp := kp }
/-- The outermost named dimension. -/
def View.top (v : View) : Nat := dNdim v.d - 1
/-- An index of the view as an index of the stored tensor. -/
def View.abs (v : View) (i : Idx) : Idx := ixSet i v.top (ix i v.top + v.start)
def View.dims (v : View) : List Nat := dDims v.d
def View.fmt (v : View) : Fmt := dFmt v.d
def View.base (v : View) : GAddr := gaddr (dAddr v.d)
def View.sbase (v : View) : GAddr := gaddr (dScaleAddr v.d)

/-- Channels per block of a CB layout (R112). -/
def cbBlock (layout : Nat) : Nat := if layout = 1 then 32 else 16

/-- The grid of 32-element blocks (R69, R71): the tensor's extents, the block axis divided. -/
def blockGrid (d : Desc) : List Nat :=
  let x := dBlockAxis d
  (dDims d).set x (cdiv (dDim d x) 32)
/-- The block of an element: its grid coordinates. -/
def blockIdx (d : Desc) (i : Idx) : Idx := ixSet i (dBlockAxis d) (ix i (dBlockAxis d) / 32)

/-- ENGINE panels (R136): the index of the panel that holds (n, k, batch), and the panel's size. -/
def panelIndex (d : Desc) (kp : Nat) (i : Idx) : Nat :=
  let pk := cdiv (dDim d 1) kp
  let pn := cdiv (dDim d 0) 512
  let batch := (ix i 4 * dDim d 3 + ix i 3) * dDim d 2 + ix i 2
  batch * (pk * pn) + ix i 0 / 512 * pk + ix i 1 / kp
def panelBytes (f : Fmt) (kp : Nat) : Nat :=
  match f with
  | .t5 => kp / 32 * 4096
  | _ => kp * 512 * f.width / 8

/-- The bit at which an element of the stored tensor begins, from ADDR; for T5, its block's first bit. -/
def elemBit (v : View) (i : Idx) : Nat :=
  let d := v.d
  let f := v.fmt
  let w := f.width
  match dLayout d with
  | 1 | 2 =>
    let b := cbBlock (dLayout d)
    let cb := cdiv (dDim d 0) b
    let lin := (((ix i 4 * cb + ix i 0 / b) * dDim d 3 + ix i 3) * dDim d 2 + ix i 2) * dDim d 1 + ix i 1
    lin * b * w + ix i 0 % b * w
  | 4 =>
    let p := panelIndex d v.kp i * panelBytes f v.kp * 8
    match f with
    | .t5 => p + (ix i 1 % v.kp / 32 * 512 + ix i 0 % 512) * 64
    | _ => p + (ix i 1 % v.kp * 512 + ix i 0 % 512) * w
  | _ =>
    let j := if f = .t5 then blockIdx d i else i
    let w0 := if f = .t5 then 64 else w
    ix j 0 * w0 + (ix j 1 * dStride d 1 + ix j 2 * dStride d 2 + ix j 3 * dStride d 3 + ix j 4 * dStride d 4) * 8

/-- The byte of an element's block scale, from SCALE_ADDR (R69, R136, R230): CB32 keeps one byte per
position and channel block, in the order of the elements. -/
def scaleByte (v : View) (i : Idx) : Nat :=
  let d := v.d
  match dLayout d with
  | 1 | 2 =>
    let cb := cdiv (dDim d 0) 32
    (((ix i 4 * cb + ix i 0 / 32) * dDim d 3 + ix i 3) * dDim d 2 + ix i 2) * dDim d 1 + ix i 1
  | 4 => panelIndex d v.kp i * (v.kp / 32 * 512) + ix i 1 % v.kp / 32 * 512 + ix i 0 % 512
  | _ => ravel (blockGrid d) (blockIdx d i)

/-- Blocks of a tensor. -/
def blockCount (d : Desc) : Nat := volume (blockGrid d)

/-! Quantisation tiles of outlier tensors (R153, R156). -/

/-- The tile grid's extents: DIM0 by 512, DIM1 by 8. -/
def tileGrid (d : Desc) : List Nat :=
  [cdiv (dDim d 0) 512, cdiv (dDim d 1) 8, dDim d 2, dDim d 3, dDim d 4]
/-- The tile of an element, by coordinates and by number. -/
def tileIdx (i : Idx) : Idx := [ix i 0 / 512, ix i 1 / 8, ix i 2, ix i 3, ix i 4]
def tileNum (d : Desc) (i : Idx) : Nat := ravel (tileGrid d) (tileIdx i)
/-- The local index of an element in its tile. -/
def localIdx (i : Idx) : Nat := ix i 1 % 8 * 512 + ix i 0 % 512
/-- Bytes of a tile record and of a promotion slot. -/
def recBytes (cap : Nat) : Nat := 64 * cdiv (8 + 4 * cap) 64
def slotBytes (f : Fmt) : Nat := if f = .mx .e4m3 ∨ f = .mx .e5m2 then 8192 else 4224
/-- The side area: where it begins from SCALE_ADDR, its records, its slots, its end. -/
def sideOff (d : Desc) : Nat := 64 * cdiv (blockCount d) 64
def recOff (d : Desc) (t : Nat) : Nat := sideOff d + t * recBytes (dCap d)
def slotOff (d : Desc) (t : Nat) : Nat :=
  sideOff d + volume (tileGrid d) * recBytes (dCap d) + t * slotBytes (dFmt d)
def sideEnd (d : Desc) : Nat := slotOff d (volume (tileGrid d))

/-! Reads. -/

/-- `w` bits of the own vertex from bit `b` of an offset. -/
def State.rdBits (s : State) (p space off b w : Nat) : Nat :=
  bits (leNat (s.rdMem p space (off + b / 8) (cdiv (b % 8 + w) 8))) (b % 8 + w - 1) (b % 8)

/-- What a read finds besides the value: an E8M0 scale of 0xFF, an invalid T5 byte. -/
structure RdEvent where
  scaleNan : Bool
  t5 : Bool
  deriving DecidableEq, Repr

/-- An element's bits, or its trit digit for T5 (R70 to R72). -/
def State.rdRaw (s : State) (p : Nat) (v : View) (i : Idx) : Nat :=
  let j := v.abs i
  match v.fmt with
  | .t5 =>
    let e := ix j (if dLayout v.d = 4 then 1 else dBlockAxis v.d) % 32
    s.rdBits p v.base.space v.base.off (elemBit v j + e / 5 * 8) 8
  | f => s.rdBits p v.base.space v.base.off (elemBit v j) f.width

/-- An element's exact value without block scale. -/
def State.rdElem (s : State) (p : Nat) (v : View) (i : Idx) : Val :=
  let r := s.rdRaw p v i
  match v.fmt with
  | .t5 =>
    let j := v.abs i
    let t := tritOf r (ix j (if dLayout v.d = 4 then 1 else dBlockAxis v.d) % 32 % 5)
    .num (decide (t < 0)) t.natAbs 0
  | f => f.elem.value r

/-- An element's E8M0 code: 127 where the format has none (R84). -/
def State.rdScale (s : State) (p : Nat) (v : View) (i : Idx) : Nat :=
  let j := v.abs i
  match v.fmt with
  | .plain _ => 127
  | .mx _ => (s.rdByte p v.sbase.space (v.sbase.off + scaleByte v j)).toNat
  | .t5 => (s.rdByte p v.base.space (v.base.off + elemBit v j / 8 + 7)).toNat

/-- A value times 2^(X − 127); NaN under the code 0xFF (R69). -/
def scaled (x : Val) (code : Nat) : Val := if code = 255 then .nan else x.scale ((code : Int) - 127)

/-- The record of an element's quantisation tile: PROMOTED, COUNT and where the entries lie. -/
def State.tileRec (s : State) (p : Nat) (v : View) (i : Idx) : Bool × Nat × Nat :=
  let j := v.abs i
  let o := v.sbase.off + recOff v.d (tileNum v.d j)
  let h := leNat (s.rdMem p v.sbase.space o 8)
  (bit h 9, bits h 8 0, o + 8)

/-- The listed value of an element of an outlier tensor (R156). -/
def State.listed (s : State) (p : Nat) (v : View) (i : Idx) : Option Val :=
  match s.tileRec p v i with
  | (_, n, o) =>
    ((List.range n).find? fun k =>
      leNat (s.rdMem p v.sbase.space (o + 4 * k) 2) % 4096 == localIdx (v.abs i)).map fun k =>
      Elem.bf16.value (leNat (s.rdMem p v.sbase.space (o + 4 * k + 2) 2))

/-- Whether an element lies in a promoted tile, and its bits and scale code in the slot (R155). -/
def State.promoted (s : State) (p : Nat) (v : View) (i : Idx) : Bool := (s.tileRec p v i).1
def State.slotElem (s : State) (p : Nat) (v : View) (i : Idx) : Val × Nat :=
  let j := v.abs i
  let o := v.sbase.off + slotOff v.d (tileNum v.d j)
  let l := localIdx j
  if slotBytes v.fmt = 8192 then (Elem.bf16.value (leNat (s.rdMem p v.sbase.space (o + 2 * l) 2)), 127)
  else (Elem.e4m3.value (s.rdByte p v.sbase.space (o + l)).toNat,
        (s.rdByte p v.sbase.space (o + 4096 + l / 512 * 16 + l % 512 / 32)).toNat)

/-- An element's exact value with its block scale, its listed value or its slot's (R157). -/
def State.rdExact (s : State) (p : Nat) (v : View) (i : Idx) : Val :=
  if dCap v.d = 0 then scaled (s.rdElem p v i) (s.rdScale p v i)
  else
    match s.listed p v i with
    | some x => x
    | none =>
      if s.promoted p v i then (let e := s.slotElem p v i; scaled e.1 e.2)
      else scaled (s.rdElem p v i) (s.rdScale p v i)

/-- The static or per-channel scale of an element (R145): 1 where there is none. -/
def State.rdFactor (s : State) (p : Nat) (v : View) (i : Idx) : Word :=
  match v.fmt, dScaleMode v.d with
  | .plain _, 1 => BitVec.ofNat 32 (leNat (s.rdMem p v.sbase.space v.sbase.off 4))
  | .plain _, 2 => BitVec.ofNat 32 (leNat (s.rdMem p v.sbase.space (v.sbase.off + 4 * ix (v.abs i) 0) 4))
  | _, _ => fOne

/-- An operand element as a vector unit reads it: the exact value in FP32, times its static factor (R171). -/
def State.rdVec (s : State) (p : Nat) (v : View) (i : Idx) : Word :=
  let x := f32 (s.rdExact p v i)
  if dScaleMode v.d = 0 then x else fmul x (s.rdFactor p v i)

/-! Extents of a view in bytes (R109, R118). -/

/-- One past the last bit of the stored elements of a view, from ADDR, and the first. -/
def View.bitRange (v : View) : Nat × Nat :=
  let d := v.d
  let last := v.abs ((dDims d).map fun n => n - 1)
  let first := v.abs [0, 0, 0, 0, 0]
  let f := v.fmt
  match dLayout d with
  | 1 | 2 =>
    let b := cbBlock (dLayout d)
    let c := roundUp (dDim d 0) b - 1
    (elemBit v first, elemBit v (if dNdim d = 1 then last else ixSet last 0 c) + f.width)
  | 4 =>
    let nb := panelIndex d v.kp last
    (panelIndex d v.kp first * panelBytes f v.kp * 8, (nb + 1) * panelBytes f v.kp * 8)
  | _ => (elemBit v first, elemBit v last + (if f = .t5 then 64 else f.width))

/-- The bytes of a view's elements: first and one past the last, from ADDR. -/
def View.elemBytes (v : View) : Nat × Nat := (v.bitRange.1 / 8, cdiv v.bitRange.2 8)

/-- The bytes of a view's scales, from SCALE_ADDR: the E8M0 array, or the FP32 scales. -/
def View.scaleBytes (v : View) : Nat × Nat :=
  let d := v.d
  let last := v.abs ((dDims d).map fun n => n - 1)
  let first := v.abs [0, 0, 0, 0, 0]
  match v.fmt, dScaleMode d with
  | .mx _, _ =>
    if dLayout d = 4 then
      (panelIndex d v.kp first * (v.kp / 32 * 512), (panelIndex d v.kp last + 1) * (v.kp / 32 * 512))
    else (scaleByte v first, scaleByte v last + 1)
  | .plain _, 1 => (0, 4)
  | .plain _, 2 => (4 * ix first 0, 4 * ix last 0 + 4)
  | _, _ => (0, 0)

/-- The bytes of a view's side area, from SCALE_ADDR: records and slots of its tiles (R156). -/
def View.sideBytes (v : View) : List (Nat × Nat) :=
  let d := v.d
  if dCap d = 0 then []
  else
    let a := tileNum d (v.abs [0, 0, 0, 0, 0])
    let b := tileNum d (v.abs ((dDims d).map fun n => n - 1)) + 1
    [(recOff d a, recOff d b), (slotOff d a, slotOff d b)]

/-- Every range of bytes of a view: elements, scales, side area, as offsets of their space. -/
def View.ranges (v : View) : List (GAddr × Nat) :=
  let e := v.elemBytes
  let sc := v.scaleBytes
  let side := v.sideBytes.map fun r => ({ v.sbase with off := v.sbase.off + r.1 }, r.2 - r.1)
  ({ v.base with off := v.base.off + e.1 }, e.2 - e.1) ::
    (if sc.2 = 0 then [] else [({ v.sbase with off := v.sbase.off + sc.1 }, sc.2 - sc.1)]) ++ side

/-- Where the rows along DIM0 of a PLAIN view begin, from ADDR, ascending; and the bytes of a row. -/
def View.rowStarts (v : View) : List Nat :=
  (allIdx (v.dims.set 0 1)).foldl (fun l i => insNat (elemBit v (v.abs i) / 8) l) []
def View.rowBytes (v : View) : Nat :=
  let first := elemBit v (v.abs [0, 0, 0, 0, 0])
  let last := elemBit v (v.abs [dDim v.d 0 - 1, 0, 0, 0, 0])
  cdiv (last + (if v.fmt = .t5 then 64 else v.fmt.width)) 8 - first / 8

/-- Stretches of at least 8 KiB between rows of n bytes. -/
def rowGaps (base n : Nat) : List Nat → List (Nat × Nat)
  | a :: b :: t => if a + n + 8192 ≤ b then (base + a + n, base + b) :: rowGaps base n (b :: t) else rowGaps base n (b :: t)
  | _ => []

/-- The stretches that the elements of a view pass over: only strides of a PLAIN tensor leave any. -/
def View.gaps (v : View) : List (Nat × Nat) :=
  if dLayout v.d = 0 ∧ ((List.range (dNdim v.d)).any fun k => k != 0 && decide (8192 ≤ dStride v.d k)) = true then
    rowGaps v.base.off v.rowBytes v.rowStarts
  else []

/-- The ranges of a view without the stretches that its elements pass over (R109, R111, R268, R271). -/
def View.pieces (v : View) : List (GAddr × Nat) :=
  match v.ranges with
  | [] => []
  | e :: t => (cutRange e.1.off (e.1.off + e.2) v.gaps).map (fun x => ({ e.1 with off := x.1 }, x.2 - x.1)) ++ t

/-- The bytes that a view names: its rows along DIM0, its scales, its side area. -/
def View.rows (v : View) : List (GAddr × Nat) :=
  if dLayout v.d ≠ 0 then v.ranges
  else (v.rowStarts.map fun b => ({ v.base with off := v.base.off + b }, v.rowBytes)) ++ v.ranges.tail

/-- Whether two lists of byte ranges share a byte of the own vertex. -/
def viewsMeet (l m : List (GAddr × Nat)) : Bool :=
  l.any fun x => m.any fun y =>
    (x.1.space == 3) == (y.1.space == 3) && decide (x.1.off < y.1.off + y.2) && decide (y.1.off < x.1.off + x.2)

/-- The footprint of a view: from the lowest to the highest byte of each part (R118), with the stretches between (R268). -/
def View.foot (v : View) (wr : Bool) : List Range :=
  match v.ranges.map fun r => ({ host := r.1.space == 3, lo := r.1.off, hi := r.1.off + r.2, write := wr } : Range) with
  | [] => []
  | e :: t => { e with gaps := v.gaps } :: t

/-! Splits (R105). -/

/-- The outermost dimension whose extent exceeds 1. Of an output whose extents are all 1 the spec names none: DESIGN CHOICE, it is
dimension 0, so that the last member alone computes (notes/assumptions/66.md). -/
def outerDim (dims : List Nat) : Nat :=
  match (List.range 5).reverse.find? fun k => decide (1 < dims.getD k 1) with
  | some k => k
  | none => 0
/-- Member g's range of an extent E among G members: from, up to (exclusive). -/
def splitRange (e g n : Nat) : Nat × Nat := (g * e / n, (g + 1) * e / n)
/-- Whether an output element lies in member g's share under SPLIT = 0b01. -/
def inShare (split : Bool) (dims : List Nat) (g n : Nat) (i : Idx) : Bool :=
  if split then
    let k := outerDim dims
    let r := splitRange (dims.getD k 1) g n
    decide (r.1 ≤ ix i k) && decide (ix i k < r.2)
  else true

/-- The rounding mode of an element (R78 to R81): nearest under RNE and in reference mode, else SR with
its random word. -/
def elemMode (i : Ins) (seed : BitVec 64) (dims : List Nat) (x : Idx) : RMode :=
  if iRound i = 1 && !iRef i then .sr (randomWord seed (BitVec.ofNat 32 (iStream i)) (ravel dims x)) else .rne

/-! Scratch copies of a memory, in which an instruction forms the bytes it writes. -/

/-- A memory and the addresses written in it. -/
structure Scr where
  m : Mem
  touched : List Nat

/-- Writes `w` bits at a bit address. -/
def Scr.put (x : Scr) (a w v : Nat) : Scr :=
  let first := a / 8
  let n := cdiv (a % 8 + w) 8
  let old := rdNat x.m first n
  let sh := a % 8
  let new := bits old (sh - 1) 0 * (if sh = 0 then 0 else 1) + ((v % 2 ^ w) <<< sh) + ((old >>> (sh + w)) <<< (sh + w))
  { m := wrCells x.m (cellsAt first (natLe n new))
    touched := (List.range n).foldl (fun l k => insNat (first + k) l) x.touched }

/-- The cells a scratch copy has written. -/
def Scr.cells (x : Scr) : List Host.Cell := x.touched.map fun a => (a, rd x.m a)

end Sys2Proof.Machine
end

