-- ==== Sys2Proof/Machine/Quant.lean ====
section
/-! DEFINITION. The quantiser (spec/06_narrow_formats.md R145 to R156): block scales, static scales, outlier
records and promotion, and the bytes an instruction's output becomes. -/

namespace Sys2Proof.Machine

/-- What a write through the quantiser counts and flags (R147 to R150, R154, R155). -/
structure QStat where
  sat : Nat
  zero : Nat
  promo : Nat
  out : Nat
  nan : Bool
  bad : Bool
  deriving DecidableEq, Repr

def qstat0 : QStat := { sat := 0, zero := 0, promo := 0, out := 0, nan := false, bad := false }
def QStat.add (a b : QStat) : QStat :=
  { sat := a.sat + b.sat, zero := a.zero + b.zero, promo := a.promo + b.promo, out := a.out + b.out,
    nan := a.nan || b.nan, bad := a.bad || b.bad }

/-- emax of an MX element (R146). -/
def emaxOf : Elem → Int
  | .e4m3 => 8
  | .e5m2 => 15
  | .e3m2 => 4
  | _ => 2

/-- The outlier gap G (R152). -/
def gapOf : Elem → Nat
  | .e3m2 => 4
  | .e4m3 => 6
  | .e5m2 => 8
  | _ => 3

/-- Magnitude bits: they order as magnitudes do, NaN aside. -/
def magBits (w : Word) : Nat := w.toNat % 2 ^ 31

/-- Whether |a| > 2^g × |b|, infinities included; NaN aside. -/
def magGap (g : Nat) (a b : Word) : Bool :=
  match fval a, fval b with
  | .inf _, .inf _ => false
  | .inf _, _ => true
  | .num _ m e, .num _ n f => dyLt n (f + g) m e
  | _, _ => false

/-- The scale code of a block of finite values (R146). -/
def blockCode (f : Elem) (vals : List Word) : Nat :=
  let amax := vals.foldl (fun m w => max m (magBits w)) 0
  if amax = 0 then 0
  else
    match fval (BitVec.ofNat 32 amax) with
    | .num _ m e =>
      let x := e + (Nat.log2 m : Int) - emaxOf f + 127
      let lim := f.value f.maxCode
      let x := match lim with
        | .num _ n g => if dyLt n (g + x - 127) m e then x + 1 else x
        | _ => x
      (max 0 (min x 254)).toNat
    | _ => 0

/-- One block through R146 to R148: the scale code, the element codes, whether it was all zero, whether
it held an infinity or a NaN. -/
def quantBlock (f : Elem) (vals : List Word) (modes : List RMode) : Nat × List Nat × Bool × Bool :=
  if vals.any fun w => fIsNaN w || fIsInf w then (255, vals.map fun _ => 0, false, true)
  else
    let x := blockCode f vals
    let q := (vals.zip modes).map fun vm => (f.encode vm.2 ((fval vm.1).scale (127 - (x : Int)))).1
    if q.all fun c => c % 2 ^ (f.width - 1) == 0 then (0, vals.map fun _ => 0, true, false)
    else (x, q, false, false)

/-- Magnitudes in descending order. -/
def insDesc (w : Word) : List Word → List Word
  | [] => [w]
  | x :: t => if magBits x < magBits w then w :: x :: t else x :: insDesc w t

/-- The outliers of a block (R152): the least magnitude that counts as one. -/
def outlierCut (f : Elem) (vals : List Word) : Option Nat :=
  if vals.any fIsNaN then none
  else
    let a := vals.foldr insDesc []
    ([4, 3, 2, 1].find? fun i =>
      decide (i < a.length) && decide (0 < magBits (a.getD i 0)) && magGap (gapOf f) (a.getD (i - 1) 0) (a.getD i 0)).map
      fun i => magBits (a.getD (i - 1) 0)

/-- What an instruction writes: the view, the owning function's host memory or the stacks, the share,
the rounding mode and the FP32 value of each element, and the static factor of each (R149). -/
structure OutSpec where
  v : View
  fn : Nat
  mine : Idx → Bool
  mode : Idx → RMode
  val : Idx → Word
  factor : Idx → Word

/-- The bit at which an element, and the byte at which a scale or side byte, lies in the memory written. -/
def OutSpec.org (o : OutSpec) (a : GAddr) : Nat := if a.space = 3 then hostKey o.fn a.off else a.off
def OutSpec.elemAt (o : OutSpec) (i : Idx) : Nat := o.org o.v.base * 8 + elemBit o.v (o.v.abs i)
def OutSpec.scaleAt (o : OutSpec) (n : Nat) : Nat := (o.org o.v.sbase + n) * 8

/-- Writes one element of an unblocked format (R76, R149, R150). -/
def putPlain (o : OutSpec) (e : Elem) (x : Scr × QStat) (i : Idx) : Scr × QStat :=
  let w := o.val i
  let s := o.factor i
  let scaledMode := dScaleMode o.v.d ≠ 0
  if scaledMode ∧ !fPosNormal s then
    (x.1.put (o.elemAt i) e.width e.nanCode, { x.2 with bad := true })
  else
    let q := if scaledMode then fdiv w s else w
    let c := e.encode (o.mode i) (fval q)
    let counted := match e with | .fp32 | .bf16 | .fp16 => false | _ => c.2
    (x.1.put (o.elemAt i) e.width c.1, { x.2 with sat := x.2.sat + b2n counted })

/-- The elements of block `b` of a grid: indices along the block axis. -/
def blockElems (d : Desc) (b : Idx) : List Idx :=
  let k := dBlockAxis d
  let first := ix b k * 32
  (List.range (min 32 (dDim d k - first))).map fun j => ixSet b k (first + j)

/-- Writes one MX block (R146 to R148); `drop` tells the elements that are listed outliers. -/
def putBlock (o : OutSpec) (e : Elem) (drop : Idx → Bool) (x : Scr × QStat) (b : Idx) : Scr × QStat :=
  let els := blockElems o.v.d b
  if !(els.any o.mine) then x
  else
    match quantBlock e (els.map fun i => if drop i then 0 else o.val i) (els.map o.mode) with
    | (code, q, z, n) =>
      let scr := (els.zip q).foldl
        (fun (c : Scr) iq => if o.mine iq.1 then c.put (o.elemAt iq.1) e.width iq.2 else c) x.1
      match els with
      | [] => x
      | i0 :: _ =>
        if o.mine i0 then
          (scr.put (o.scaleAt (scaleByte o.v (o.v.abs i0))) 8 code,
           { x.2 with zero := x.2.zero + b2n z, nan := x.2.nan || n })
        else (scr, x.2)

/-- The blocks of a quantisation tile, by grid coordinates (BLOCK_AXIS is 0, R153). -/
def tileBlocks (d : Desc) (t : Idx) : List Idx :=
  (List.range 8).foldr (fun r l =>
    let row := ix t 1 * 8 + r
    if row < dDim d 1 then
      (((List.range 16).filter fun c => decide (ix t 0 * 512 + c * 32 < dDim d 0)).map fun c =>
        [ix t 0 * 16 + c, row, ix t 2, ix t 3, ix t 4]) ++ l
    else l) []

/-- Writes a promoted tile's slot (R155): BF16 elements, or E4M3 elements with their scales. -/
def putSlotBlock (o : OutSpec) (so : Nat) (x : Scr × QStat) (b : Idx) : Scr × QStat :=
  let els := blockElems o.v.d b
  if slotBytes o.v.fmt = 8192 then
    (els.foldl (fun (c : Scr) i =>
      c.put (o.scaleAt (so + 2 * localIdx (o.v.abs i))) 16 (Elem.bf16.encode (o.mode i) (fval (o.val i))).1) x.1, x.2)
  else
    match quantBlock .e4m3 (els.map o.val) (els.map o.mode) with
    | (code, q, z, n) =>
      let scr := (els.zip q).foldl
        (fun (c : Scr) iq => c.put (o.scaleAt (so + localIdx (o.v.abs iq.1))) 8 iq.2) x.1
      match els with
      | [] => x
      | i0 :: _ =>
        let l := localIdx (o.v.abs i0)
        (scr.put (o.scaleAt (so + 4096 + l / 512 * 16 + l % 512 / 32)) 8 code,
         { x.2 with zero := x.2.zero + b2n z, nan := x.2.nan || n })

/-- Writes the placeholders of a promoted tile: code 0 and scale 0x00 (R155). -/
def putPlaceholder (o : OutSpec) (e : Elem) (c : Scr) (b : Idx) : Scr :=
  match blockElems o.v.d b with
  | [] => c
  | i0 :: t =>
    ((i0 :: t).foldl (fun (c : Scr) i => c.put (o.elemAt i) e.width 0) c).put
      (o.scaleAt (scaleByte o.v (o.v.abs i0))) 8 0

/-- Writes one quantisation tile of an outlier tensor (R152 to R156). -/
def putTile (o : OutSpec) (e : Elem) (x : Scr × QStat) (t : Idx) : Scr × QStat :=
  let d := o.v.d
  let blocks := tileBlocks d t
  let elems := blocks.foldr (fun b l => blockElems d b ++ l) []
  if !(elems.any o.mine) then x
  else
    let drop := fun (i : Idx) =>
      match outlierCut e ((blockElems d (blockIdx d i)).map o.val) with
      | none => false
      | some m => decide (m ≤ magBits (o.val i))
    let outs := elems.filter drop
    let num := tileNum d (o.v.abs [ix t 0 * 512, ix t 1 * 8, ix t 2, ix t 3, ix t 4])
    let ro := recOff d num
    let n := outs.length
    if n ≤ dCap d then
      let y := blocks.foldl (putBlock o e drop) x
      let hdr := y.1.put (o.scaleAt ro) 64 n
      let scr := (outs.zip (List.range n)).foldl (fun (c : Scr) ik =>
        c.put (o.scaleAt (ro + 8 + 4 * ik.2)) 32
          (localIdx (o.v.abs ik.1) + (toBf16 .rne (o.val ik.1)) <<< 16)) hdr
      (scr, { y.2 with out := y.2.out + n })
    else
      let y := blocks.foldl (putSlotBlock o (slotOff d num)) x
      let scr := (blocks.foldl (putPlaceholder o e) y.1).put (o.scaleAt ro) 64 (2 ^ 9)
      (scr, { y.2 with promo := y.2.promo + 1 })

/-- Writes an output tensor's share through the quantiser. -/
def putOut (o : OutSpec) (m : Mem) : Scr × QStat :=
  let x : Scr × QStat := ({ m := m, touched := [] }, qstat0)
  match o.v.fmt with
  | .plain e => ((allIdx o.v.dims).filter o.mine).foldl (putPlain o e) x
  | .mx e =>
    if dCap o.v.d = 0 then (allIdx (blockGrid o.v.d)).foldl (putBlock o e fun _ => false) x
    else (allIdx (tileGrid o.v.d)).foldl (putTile o e) x
  | .t5 => x

/-- Stores what an instruction formed: to host memory, or through the directories (R262). -/
def State.storeScr (s : State) (src p space : Nat) (x : Scr) (bad : Bool) : State :=
  if space = 3 then { s with host := wrCells s.host x.cells } else s.storeCells src p x.cells bad

/-- The memory behind a space. -/
def State.memOf (s : State) (space : Nat) : Mem := if space = 3 then s.host else s.latest

/-- Counts and flags of a write through facet f's quantiser (R169, R170). -/
def State.logQuant (s : State) (f : Nat) (q : QStat) : State :=
  let s := (((s.count (.fctQsatCnt f) q.sat).count (.fctQzeroCnt f) q.zero).count (.fctQpromoCnt f) q.promo).count
    (.fctQoutCnt f) q.out
  (((s.flag (.fctQLog f) 0 (decide (0 < q.sat))).flag (.fctQLog f) 1 q.nan).flag (.fctQLog f) 2
    (decide (0 < q.promo))).flag (.fctQLog f) 3 q.bad

end Sys2Proof.Machine
end

