-- ==== Sys2Proof/Machine/Flags.lean ====
section
/-! DEFINITION. What completion records hold, and interrupts (spec/14_host_and_partitions.md R391 to R393), and the fault
log of a facet with its capture registers (spec/04_facet_programming.md R121, R122). -/

namespace Sys2Proof.Machine

/-- The address of a ring's slot: its global address plus the slot's offset (R388, R391). -/
def State.ringAddr (s : State) (q : Nat) (cq : Bool) : GAddr :=
  if cq then gaddr ((s.val (.qCq q true)).toNat * 2 ^ 32 + (s.val (.qCq q false)).toNat)
  else gaddr ((s.val (.qRing q true)).toNat * 2 ^ 32 + (s.val (.qRing q false)).toNat)

/-- The partition that owns a queue; 0 where none does (such a queue is not enabled). -/
def State.qPart (s : State) (q : Nat) : Nat := (s.queuePart q).getD 0

/-- The 64 bytes of record number n (R391). -/
def recordBytes (r : Rec) (n : Word) (q : Nat) (time : Nat) : List Byte :=
  let b := natLe 4 n.toNat ++ natLe 4 r.wseq.toNat ++ natLe 2 (q % 4096) ++ natLe 1 r.status.toNat ++
    natLe 1 (r.gang % 32) ++ natLe 1 (r.faultMember % 32) ++ natLe 1 0 ++ natLe 2 r.faultIndex ++
    natLe 4 r.userTag.toNat ++ natLe 4 r.detail.toNat ++ natLe 8 0 ++ natLe 8 time ++ natLe 20 0
  b ++ natLe 4 (crc32c b)

/-- Whether a record can be written now: the ring has room (R391), and its memory is reachable (R377) and takes no new values
(R253). -/
def State.cqFull (s : State) (q : Nat) : Bool :=
  decide ((s.val (.qCqTail q) - s.val (.qCqHead q)).toNat = s.cqDepth q)
def State.cqReachable (s : State) (q : Nat) : Bool :=
  let a := s.ringAddr q true
  if a.space = 3 then s.hostOn (s.qPart q) else !s.granBusy (a.off + (s.val (.qCqTail q)).toNat % s.cqDepth q * 64) 64

/-- IMOD_COUNT: 0 and 1 both mean every record (R385). -/
def imodCount (c : Nat) : Nat := if c = 0 then 1 else c

/-- Sends a queue's message when enough records are pending (R393). -/
def State.interrupt (s : State) (q : Nat) : State :=
  let c := s.val (.qCqCfg q)
  if !(bit c.toNat 4) then s
  else
    let l := (s.queue q).irq ++ [s.limClock]
    if imodCount (fld c 20 13) ≤ l.length then
      (s.setQueue q { s.queue q with irq := [] }).msix (s.qPart q) (fld c 12 5)
    else s.setQueue q { s.queue q with irq := l }

/-- Captures of a fault (R122, R142, R226): code, queue and index, and the capacity and key registers,
which read 0 when the fault is another. A need beyond the 24 bits of NEED_KIB (R140) the spec does not provide for: DESIGN CHOICE,
the field keeps its low 24 bits (notes/assumptions/66.md). -/
def faultCaps (f code q index : Nat) (cap key : Nat × Nat) : List (Reg × Nat × Nat × Nat) :=
  [(.fctFaultLog f, 7, 0, code), (.fctFaultIndex f, 27, 16, q), (.fctFaultIndex f, 15, 0, index),
   (.fctCapLog f, 25, 24, cap.1), (.fctCapLog f, 23, 0, cap.2),
   (.fctKeyfmtWhere f, 23, 0, key.1), (.fctKeyfmtPage f, 31, 0, key.2)]

/-- Sets FAULT in facet f's log (R121). -/
def State.logFault (s : State) (f code q index : Nat) (cap key : Nat × Nat) : State :=
  (s.setWz (.fctFaultLog f) 8 (faultCaps f code q index cap key)).flag (.fctAttLog f) 1 (code == eKeyfmt)

/-- The gang of a claimed descriptor. -/
def State.gangOf (s : State) (q : Nat) (w : Word) : Option Gang := s.gangs.find? fun g => g.queue == q && g.wseq == w

/-- Changes the gang of a claimed descriptor. -/
def State.mapGang (s : State) (q : Nat) (w : Word) (h : Gang → Gang) : State :=
  { s with gangs := s.gangs.map fun g => if g.queue = q ∧ g.wseq = w then h g else g }

/-- A member stops (R121, R122): its own status, the gang's first fault, and the log. DESIGN CHOICE (notes/assumptions/73.md): a
DRAINED stop (R452) aborts the gang as a fault does, and a stop with ABORTED or DRAINED sets FAULT and CODE of FCT_FAULT_LOG. -/
def State.stopMember (s : State) (f : Nat) (code index : Nat) (detail : Word) (cap key : Nat × Nat) : State :=
  let fc := s.facet f
  match fc.run with
  | none => s
  | some r =>
    if r.stop.isSome then s
    else
      let st : Stop := { code := BitVec.ofNat 8 code, member := r.cl.gang, index := index, detail := detail }
      let s := s.logFault f code r.cl.queue index cap key
      let s := s.setFacet f { s.facet f with run := some { r with stop := some st, waiting := none } }
      s.mapGang r.cl.queue r.cl.wseq fun g => if g.fault.isNone then { g with fault := some st } else g

/-- A member stops with PREEMPTED (R340, R345): a completion status, no fault of the program. -/
def State.stopQuiet (s : State) (f : Nat) (code index : Nat) : State :=
  let fc := s.facet f
  match fc.run with
  | none => s
  | some r =>
    if r.stop.isSome then s
    else
      let st : Stop := { code := BitVec.ofNat 8 code, member := r.cl.gang, index := index, detail := 0 }
      s.setFacet f { fc with run := some { r with stop := some st, waiting := none } }

end Sys2Proof.Machine
end

