-- ==== Sys2Proof/Machine/Remote.lean ====
section
/-! DEFINITION. Remote memory operations (spec/01_architecture.md R28 to R30, spec/11_links_and_machine.md
R294 to R298): the checks at a target, what an operation does there, and how an issuer sends one. -/

namespace Sys2Proof.Machine

/-! The issuer's side: the operations that a facet's instruction, its signals and its sequencer have issued. -/

/-- The in-flight instruction on a unit of a run, and the run with it replaced. -/
def Run.flight (r : Run) : FUnit → Option InFlight
  | .control => r.control
  | .array => r.array
  | .vector => r.vector
  | .mover => r.mover
def Run.setFlight (r : Run) (u : FUnit) (i : Option InFlight) : Run :=
  match u with
  | .control => { r with control := i }
  | .array => { r with array := i }
  | .vector => { r with vector := i }
  | .mover => { r with mover := i }

/-- Changes the program that runs on facet f, and the in-flight instruction of its unit u. -/
def State.mapRun (s : State) (f : Nat) (g : Run → Run) : State :=
  match (s.facet f).run with
  | none => s
  | some r => s.setFacet f { s.facet f with run := some (g r) }
def State.mapFlight (s : State) (f : Nat) (u : FUnit) (g : InFlight → InFlight) : State :=
  s.mapRun f fun r => r.setFlight u ((r.flight u).map g)

/-- Changes a chord context. -/
def State.mapCtx (s : State) (e p : Nat) (g : Ctx → Ctx) : State :=
  match s.ctx e p with
  | none => s
  | some c => s.setCtx e p (some (g c))

/-- A fetch that was refused: one of several instructions is tried again singly, so that the refusal is that of the
instruction it strikes (notes/assumptions/65.md). -/
def Run.fetchRefused (k : FetchKind) (code : Nat) (r : Run) : Run :=
  match k with
  | .code => if 1 < r.asked then { r with asked := 0, narrow := true } else { r with asked := 0, fetchFail := code }
  | .table => { r with tableDue := false, fetchFail := code }
  | .dload => r.setFlight .control (r.control.map fun i => if i.fault = 0 then { i with fault := BitVec.ofNat 8 code } else i)

/-- Notes a refusal with the issuer: its instruction reports the first one when it completes (R109, R121); a signal's
instruction is complete already. -/
def State.refuse (s : State) (o : OpOwner) (code : Nat) : State :=
  match o with
  | .facet f u => s.mapFlight f u fun i => if i.fault = 0 then { i with fault := BitVec.ofNat 8 code } else i
  | .signal f index => s.stopMember f code index 0 (0, 0) (0, 0)
  | .fetch f k => s.mapRun f (Run.fetchRefused k code)
  | .chord e p => s.mapCtx e p fun c => if c.fail = 0 then { c with fail := BitVec.ofNat 8 code } else c
  | .nobody => s

/-- A target's refusal: REFUSED in the chord engine's log too (R346). -/
def State.refuseAt (s : State) (o : OpOwner) (code : Nat) : State :=
  match o with
  | .chord e _ => (s.refuse o code).flag (.chdLog e) 0 true
  | _ => s.refuse o code

/-- The source number behind an owner, and its partition's writes. -/
def ownerSrc : OpOwner → Nat
  | .facet f u => srcFacet f u
  | .signal f _ | .fetch f _ => srcFacet f .control
  | .chord e p => srcChord e p
  | .nobody => 0

/-- Whether an operation counts among the 64 of a facet (R115). -/
def OpOwner.counts (o : OpOwner) (f : Nat) : Bool :=
  match o with
  | .facet g _ | .signal g _ => g == f
  | _ => false

/-- Operations outstanding of a facet (R115): toward other vertices, and toward this one while their writes have not landed. -/
def State.outstanding (s : State) (f : Nat) : Nat :=
  (s.ops.filter fun x => match x.2 with | some o => !o.dead && o.owner.counts f | none => false).length +
    (s.txDue.filter fun d => match d.back with | .issuer o _ _ => o.counts f | _ => false).length

/-- Whether a fetch of a facet's sequencer is under way. -/
def State.fetching (s : State) (f : Nat) : Bool :=
  s.ops.any fun x => match x.2 with | some o => !o.dead && (match o.owner with | .fetch g _ => g == f | _ => false) | none => false

/-- Whether an owner has operations outstanding. -/
def State.opsOf (s : State) (o : OpOwner) : Bool :=
  (s.ops.any fun x => match x.2 with | some x => !x.dead && x.owner == o | none => false) ||
    s.txDue.any fun d => match d.back with | .issuer x _ _ => x == o | _ => false

/-! The target's side. -/

/-- Whether partition q's rank table names a vertex and partition (R297). -/
def State.accepts (s : State) (q coord part : Nat) : Bool :=
  (List.range (s.get (.lnkRanks q) 12 0)).any fun r =>
    s.get (.rankEntry q r) 31 31 == 1 && s.get (.rankEntry q r) 11 0 == coord && s.get (.rankEntry q r) 16 12 == part

/-- The spaces an operation may reach (R30, R108): 0, or the code of the refusal. -/
def kindCheck (kind : RemKind) (space code : Nat) : Nat :=
  match kind with
  | .put | .get => if space = 2 then eAddrSpace else 0
  | .atomic => if space = 3 then eAddrSpace else if space = 2 ∧ code ≠ 0 then eAddrSpace else 0
  | .signal => if space = 2 then 0 else eAddrSpace

/-- The checks of R109 and R297 at a target partition for an operation of `len` bytes. -/
def State.targetCheck (s : State) (coord part q : Nat) (kind : RemKind) (code space off len : Nat) : Nat :=
  let own := coord = s.coord ∧ part = q
  firstCode (firstCode (kindCheck kind space code)
    (if space = 2 ∧ kind = .atomic ∧ len > 4 then eAddrRange else s.spaceCheck q space off len))
    (if own then 0 else if s.accepts q coord part then 0 else eAddrOwner)

/-- The issuer's checks of a range at any rank (R109): all of them on the own vertex, else the rank and
the space. -/
def State.anyCheck (s : State) (p : Nat) (kind : RemKind) (code : Nat) (a : GAddr) (len : Nat) : Nat :=
  if len = 0 then 0 else
  match s.rankTarget p a.rank with
  | .error c => c
  | .ok (c, q) =>
    let k := firstCode (kindCheck kind a.space code) (when (decide (3 < a.space)) eAddrSpace)
    if c = s.coord ∧ q = p then firstCode k (s.spaceCheck p a.space a.off len) else k

/-- The contributions of an ATOMIC: each element's offset and value (R294). -/
def atomicElems (code off len : Nat) (data : List Byte) (scalar : Bool) (arg : BitVec 64) : List (Nat × Nat) :=
  let n := atomicBytes code
  (List.range (len / n)).map fun i =>
    (off + i * n, if scalar then arg.toNat % 2 ^ (8 * n) else leNat ((data.drop (i * n)).take n))

/-- Applies an atomic at its target; in the counter space it is an addition to the counter (R108). The
slot of exact-mode element i lies at `slot` + 16 i (notes/assumptions/19.md). -/
def State.applyAtomic (s : State) (src q code space off len slot : Nat) (data : List Byte) (scalar : Bool)
    (arg : BitVec 64) (tx : Option Nat) (bad : Bool := false) : State :=
  (atomicElems code off len data scalar arg).foldl (fun s x =>
    if space = 2 then s.signal (x.1 / 16) (BitVec.ofNat 32 x.2)
    else s.storeAtomic src q code x.1 (slot + 4 * (x.1 - off)) x.2 tx bad) s

/-- The slot array of an exact-mode operation is checked like its elements (R276). -/
def State.slotCheck (s : State) (q code space slot len : Nat) : Nat :=
  if code = 7 ∧ space < 2 then s.spaceCheck q space slot (4 * len) else 0

/-- Bits `skip` onward of some bytes, `n` of them, placed at bit `head` of as many bytes as they need. -/
def placeBits (data : List Byte) (skip head n : Nat) : List Byte :=
  natLe (cdiv (head + n) 8) (((leNat data >>> skip) % 2 ^ n) <<< head)

/-- Bytes in which `n` bits from bit `head` on come from `new` and the others stay. -/
def mergeBits (old new : List Byte) (head n : Nat) : List Byte :=
  let o := leNat old
  natLe old.length (o % 2 ^ head + ((leNat new >>> head) % 2 ^ n) <<< head + (o >>> (head + n)) <<< (head + n))

/-- Blocks of T5 as the device writes them (R71): digits d₂ to d₄ of byte 6 are 1. A byte 6 that is no packed byte has no
digits and stays (notes/assumptions/67.md). -/
def t5Tail (b : Byte) : Byte := if b.toNat < 243 then BitVec.ofNat 8 (b.toNat % 9 + 117) else b
def t5Blocks (data : List Byte) : List Byte :=
  (data.zip (List.range data.length)).map fun x => if x.2 % 8 = 6 then t5Tail x.1 else x.1

/-- Bytes in which only some bits are about to be written, with the writes before it. -/
def State.rdLatest (s : State) (p space off n : Nat) : List Byte :=
  if space = 3 then s.rdMem p 3 off n else rdBytes s.latest off n

/-- Where a response lands at the issuer (R294): refused where the partition no longer owns the granule, and waiting where the
granule takes new values (R253). -/
def State.landAt (s : State) (o : OpOwner) (p : Nat) (j : RemJob) (data : List Byte) (bad : Bool) : State :=
  let data := if j.t5 then t5Blocks data else data
  let data :=
    if j.nbits = 0 then data
    else
      let b := placeBits data j.skip j.head j.nbits
      mergeBits (s.rdLatest p (if j.destHost then 3 else 0) j.dest b.length) b j.head j.nbits
  if j.destHost then (if s.muted (ownerSrc o) then s else s.wrHost p j.dest data)
  else
    match s.spaceCheck p 0 j.dest data.length with
    | 0 =>
      if s.granBusy j.dest data.length then s.waitCells (ownerSrc o) p (cellsAt j.dest data) bad
      else s.storeCells (ownerSrc o) p (cellsAt j.dest data) bad
    | c => s.refuseAt o c

/-- Bytes cut into little-endian words of n bytes. -/
def wordsOf (n : Nat) (data : List Byte) : List Nat :=
  (List.range (data.length / n)).map fun i => leNat ((data.drop (n * i)).take n)

/-- Descriptors written into the table from an index on. -/
def putTable (t : SMap (BitVec 512)) (first : Nat) : List Nat → SMap (BitVec 512)
  | [] => t
  | w :: r => putTable (tset t 0 first (BitVec.ofNat 512 w)) (first + 1) r

/-- What a sequencer does with what it has fetched. -/
def Run.fetched (k : FetchKind) (j : RemJob) (data : List Byte) (r : Run) : Run :=
  match k with
  | .code => { r with asked := 0, buf := r.buf ++ (wordsOf 32 data).map (BitVec.ofNat 256) }
  | .table => { r with tableDue := false, table := putTable r.table j.arg.toNat (wordsOf 64 data) }
  | .dload => { r with table := putTable r.table j.arg.toNat (wordsOf 64 data) }

/-- A response reaches its issuer. -/
def State.land (s : State) (o : OpOwner) (p : Nat) (j : RemJob) (data : List Byte) (bad : Bool) : State :=
  match o with
  | .fetch f k => s.mapRun f (Run.fetched k j data)
  | _ => s.landAt o p j data bad

/-! Operations that are complete once their writes have landed (R28, R262, R264). -/

/-- The answer to a transaction: `code` is a NACK's. -/
def State.answer (s : State) (h : TxHeader) (k : TxKind) (code : Nat) (data : List Byte) : State :=
  let r : TxHeader :=
    { src := s.coord, dst := h.src, srcPart := h.dstPart, dstPart := h.srcPart, tag := h.tag, space := 0, offset := 0,
      len := data.length, code := code, ret := false, scalar := false, arg := 0 }
  { s with out := { s.out with tx := s.out.tx ++ [{ kind := k, header := r, data := data }] } }

/-- Whether writes of a transaction are held or wait. -/
def State.txLeft (s : State) (n : Nat) : Bool :=
  s.waitWrites.any (fun w => w.tx == some n) || s.entries.any fun x => x.2.held.any fun w => w.tx == some n

/-- What follows a transaction's landing. -/
def State.txBack (s : State) (d : TxDue) : State :=
  match d.back with
  | .ack h => s.answer h .ack 0 []
  | .prior h => s.answer h .atomicRet 0 (rdBytes d.old h.offset h.len)
  | .record q none => s.interrupt q
  | .record q (some c) => (s.interrupt q).signal c 1
  | .issuer o p j => if j.ret then s.land o p j (rdBytes d.old j.offset j.len) (decide (j.space < 2) && s.poisoned j.offset j.len) else s

/-- Ends the transactions all of whose writes have landed, in their order of arrival. -/
def State.settleTx (s : State) : State :=
  s.txDue.foldl (fun s d =>
    if s.txLeft d.seq then s
    else ({ s with txDue := s.txDue.filter fun x => x.seq != d.seq }).txBack
      ((s.txDue.find? fun (x : TxDue) => x.seq == d.seq).getD d)) s

/-- A transaction begins: its number is State.txSeq. -/
def State.openTx (s : State) (b : TxBack) : State :=
  { s with txDue := s.txDue ++ [{ seq := s.txSeq, back := b, old := [] }], txSeq := s.txSeq + 1 }

/-! Completion records (R391, R393). -/

/-- Writes one record: the 64 bytes and the tail. Once it has landed, the interrupt and DONE_CTR follow. -/
def State.writeRecord (s : State) (q : Nat) (r : Rec) : State :=
  let n := s.val (.qCqTail q)
  let a := s.ringAddr q true
  let off := a.off + n.toNat % s.cqDepth q * 64
  let s := s.useAddr (s.qPart q) a 64
  let tx := s.txSeq
  let s := (s.openTx (.record q r.doneCtr)).storeBytes srcQueue (s.qPart q) a.space off (recordBytes r n q s.time.toNat) false (some tx)
  (s.setVal (.qCqTail q) (n + 1)).settleTx

/-- Posts a record: written at once, or waiting for room (CQ_FULL) or for host accesses (R377, R391).
A record that a Function Level Reset has ended is dropped (R381). The answer
says whether the unit is free of it. -/
def State.postRecord (s : State) (q : Nat) (r : Rec) : State × Bool :=
  if r.mute then (s, true)
  else if (s.queue q).waiting.isEmpty && s.cqReachable q && !s.cqFull q then (s.writeRecord q r, true)
  else
    let s := s.setQueue q { s.queue q with waiting := (s.queue q).waiting ++ [r] }
    (s.flag (.qLog q) 2 (s.cqFull q), false)

/-- An atomic that is answered with `b` (R274): in the counter space the counter's value is what it finds (R108). -/
def State.doAtomic (s : State) (src q code space off len slot : Nat) (data : List Byte) (scalar : Bool) (arg : BitVec 64)
    (b : TxBack) (bad : Bool := false) : State :=
  let n := s.txSeq
  let s := s.openTx b
  let s := if space = 2 then
      { s with txDue := s.txDue.map fun d =>
          if d.seq = n then { d with old := wrCells d.old (cellsAt off (natLe len (s.counter (off / 16)).toNat)) } else d }
    else s
  (s.applyAtomic src q code space off len slot data scalar arg (some n) bad).settleTx

/-- The router's entry for a coordinate (R302): the dimension to leave by. -/
def State.routeTo (s : State) (c : Nat) : Option Nat := tget s.routes none c

/-- A tag that no operation holds, from the next one upward. -/
def State.freeTag (s : State) : Nat → Nat → Option Nat
  | 0, _ => none
  | n + 1, t => if (s.op t).isNone then some t else s.freeTag n ((t + 1) % 65536)

/-- The wire form of an operation. A put of some bits of its bytes first gets these bytes (notes/assumptions/24.md). -/
def wireOf (s : State) (p tag coord part : Nat) (j : RemJob) : Tx :=
  let k := match j.kind with
    | .put => if j.nbits = 0 then TxKind.put else .getReq
    | .get => .getReq
    | .atomic => .atomic
    | .signal => .signal
  { kind := k
    header := { src := s.coord, dst := coord, srcPart := p, dstPart := part, tag := tag, space := j.space,
                offset := j.offset, len := j.len, code := j.code, ret := j.ret, scalar := j.scalar,
                arg := match j.kind with
                  | .signal => BitVec.ofNat 64 ((j.offset / 16) <<< 32 + j.arg.toNat)
                  | .atomic => j.arg
                  | .put | .get => 0 }
    data := if (j.kind = .put ∧ j.nbits = 0) ∨ (j.kind = .atomic ∧ !j.scalar) then j.data else [] }

/-- What the check of an operation on a target partition uses. -/
def State.useTarget (s : State) (q space off len : Nat) : State :=
  let s := s.usePart q
  if space < 2 then s.useStacks off len else s

/-- What an access does to the tiles that it reaches, its exact-mode slots' among them (R108, R262, R267): in space 1 it brings
them near; a read in space 0 touches those that near memory serves. -/
def State.bringNear (s : State) (space off len : Nat) (slots : Option Nat) (read p3 : Bool) : State :=
  if space = 1 then
    let s := s.promoteRange off len p3
    match slots with
    | none => s
    | some a => s.promoteRange a (4 * len) p3
  else if space = 0 ∧ read then s.touchRange off len
  else s

/-- Where the slots of an exact-mode atomic lie (notes/assumptions/19.md). -/
def slotsOf (kind : RemKind) (code : Nat) (arg : BitVec 64) : Option Nat :=
  if kind = .atomic ∧ code = 7 then some arg.toNat else none

/-- The checks of an operation of partition p whose target is partition q of this vertex. -/
def State.localCode (s : State) (p q : Nat) (j : RemJob) : Nat :=
  firstCode (s.targetCheck s.coord p q j.kind j.code j.space j.offset (if j.kind = .signal then 1 else j.len))
    (if j.kind = .atomic then s.slotCheck q j.code j.space j.arg.toNat j.len else 0)

/-- An operation whose target is this vertex: checked, applied and answered in one step, but for writes that are held. In
space 1 it brings its tiles near (R108). -/
def State.localOp (s : State) (o : OpOwner) (p q : Nat) (j : RemJob) : State :=
  let len := if j.kind = .signal then 1 else j.len
  let s := s.useTarget q j.space j.offset len
  match s.localCode p q j with
  | 0 =>
    let src := ownerSrc o
    let s := s.bringNear j.space j.offset len (slotsOf j.kind j.code j.arg) (j.kind == .get) (trafficClass (srcTraffic src) == 3)
    match j.kind with
    | .put =>
      ((s.openTx (.issuer o p j)).storeBytes src q j.space j.offset
        (if j.nbits = 0 then j.data else mergeBits (s.rdLatest q j.space j.offset j.len) j.data j.head j.nbits) j.bad
        (some s.txSeq)).settleTx
    | .get =>
      if j.space ≠ 3 ∧ s.poisoned j.offset j.len then s.refuseAt o eDataError
      else s.land o p j (s.rdMem q j.space j.offset j.len) false
    | .atomic =>
      s.doAtomic src q j.code j.space j.offset j.len j.arg.toNat j.data j.scalar j.arg (.issuer o p j) j.bad
    | .signal => s.signal (j.offset / 16) (BitVec.ofNat 32 j.arg.toNat)
  | c => s.refuseAt o c

/-- Whether an operation must wait for granules of this vertex that take new values (R253): those of its target here, of its
slots and of its destination. One that the new values do not permit does not wait: it is refused. -/
def State.jobWaits (s : State) (p : Nat) (j : RemJob) : Bool :=
  !s.gran.isEmpty &&
    ((match s.rankTarget p j.rank with
      | .error _ => false
      | .ok (c, q) => c == s.coord && decide (j.space < 2) && s.localCode p q j == 0 &&
          (s.granBusy j.offset j.len || (j.kind == .atomic && j.code == 7 && s.granBusy j.arg.toNat (4 * j.len)))) ||
     ((j.kind == .get || j.ret) && !j.destHost && s.spaceCheck p 0 j.dest j.len == 0 && s.granBusy j.dest j.len))

/-- Issues one operation for partition p (R294, R302): on this vertex at once, on another with a tag. -/
def State.issueOp (s : State) (o : OpOwner) (p : Nat) (j : RemJob) : State :=
  let s := s.useRank p j.rank
  match s.rankTarget p j.rank with
  | .error c => s.refuse o c
  | .ok (coord, q) =>
    if coord = s.coord then s.localOp o p q j
    else if (s.routeTo coord).isNone then s.refuse o eUnreachable
    else
      match s.freeTag 65536 s.nextTag with
      | none => s.refuse o eUnreachable
      | some t =>
        let s1 := s.setOp t (some { job := j, owner := o, part := p, since := s.limClock, dead := false })
        { s1 with nextTag := (t + 1) % 65536, out := { s.out with tx := s.out.tx ++ [wireOf s p t coord q j] } }

/-- Issues a facet unit's waiting operations while fewer than 64 are in flight (R115). -/
def State.pumpOps : Nat → State → Nat → FUnit → Nat → State
  | 0, s, _, _, _ => s
  | n + 1, s, f, u, p =>
    match (s.facet f).run.bind fun r => r.flight u with
    | none => s
    | some i =>
      match i.todo with
      | [] => s
      | j :: t =>
        if 64 ≤ s.outstanding f ∨ s.jobWaits p j then s
        else State.pumpOps n ((s.mapFlight f u fun i => { i with todo := t }).issueOp (.facet f u) p j) f u p

/-- Issues what a unit's instruction still has to issue. -/
def State.pumpUnit (s : State) (f : Nat) (u : FUnit) : State :=
  match (s.facet f).run with
  | none => s
  | some r =>
    match r.flight u with
    | none => s
    | some i => s.pumpOps (i.todo.length + 1) f u r.cl.part

/-- After an operation of a facet has ended, or may go on: every unit of the facet, and of every facet. -/
def State.pumpFacet (s : State) (f : Nat) : State :=
  [FUnit.array, .vector, .mover, .control].foldl (fun s u => s.pumpUnit f u) s
def State.pumpAll (s : State) : State := (s.facets.map fun x => x.1).foldl State.pumpFacet s

/-- Writes have landed or can go on: what waited for them ends, and what waited for that is issued. -/
def State.settled (s : State) : State := if s.txDue.isEmpty then s else s.settleTx.pumpAll

/-- Bytes at most of one put, get or atomic (R28). -/
def opMax : Nat := 65536

/-- Cuts a copy of `len` bytes into put operations of at most 64 KiB (R104). -/
def cutPut (rank space off : Nat) (data : List Byte) : Nat → List RemJob
  | 0 => []
  | n + 1 =>
    if data.isEmpty then []
    else
      let d := data.take opMax
      { kind := .put, rank := rank, space := space, offset := off, len := d.length, data := d, destHost := false,
        dest := 0, code := 0, ret := false, scalar := false, arg := 0 } ::
        cutPut rank space (off + opMax) (data.drop opMax) n

/-- Cuts a fetch of `len` bytes into get operations of at most 64 KiB (R104). -/
def cutGet (rank space off : Nat) (host : Bool) (dest len : Nat) : Nat → List RemJob
  | 0 => []
  | n + 1 =>
    if len = 0 then []
    else
      let l := min len opMax
      { kind := .get, rank := rank, space := space, offset := off, len := l, data := [], destHost := host,
        dest := dest, code := 0, ret := false, scalar := false, arg := 0 } ::
        cutGet rank space (off + opMax) host (dest + opMax) (len - l) n

/-- A signal as an operation (R294). -/
def signalJob (rank ctr : Nat) (v : Word) : RemJob :=
  { kind := .signal, rank := rank, space := 2, offset := ctr * 16, len := 0, data := [], destHost := false,
    dest := 0, code := 0, ret := false, scalar := false, arg := BitVec.ofNat 64 v.toNat }

end Sys2Proof.Machine
end

