-- ==== Sys2Proof/Machine/Pages.lean ====
section
/-! DEFINITION. Sequences and pages (spec/08_attention_and_kv.md R192 to R206): the sequence table, page tables, page
layout, pools, FILL and SEALED. -/

namespace Sys2Proof.Machine

/-! The sequence table (R197). -/

abbrev SeqEntry := BitVec 512
def State.seqEntry (s : State) (n : Nat) : SeqEntry := BitVec.ofNat 512 (rdNat s.seqTab (64 * n) 64)
def sqPt (e : SeqEntry) : Nat := fld e 63 0
def sqPool (e : SeqEntry) : Nat := fld e 127 64
def sqLen (e : SeqEntry) : Nat := fld e 159 128
def sqPos (e : SeqEntry) : Nat := fld e 191 160
def sqFirst (e : SeqEntry) : Nat := fld e 223 192
def sqMax (e : SeqEntry) : Nat := fld e 255 224
def sqHkv (e : SeqEntry) : Nat := fld e 263 256 + 1
def sqD (e : SeqEntry) : Nat := fld e 275 272 * 32
def sqDv (e : SeqEntry) : Nat := fld e 283 280 * 32
def sqFmt (e : SeqEntry) : Nat := fld e 290 288
def sqPart (e : SeqEntry) : Nat := fld e 300 296
def sqValid (e : SeqEntry) : Bool := e.getLsbD 304
def sqVer (e : SeqEntry) : Nat := fld e 311 308
/-- The reserved bits of an entry are 0. -/
def sqRsvd (e : SeqEntry) : Bool :=
  fld e 271 264 == 0 && fld e 279 276 == 0 && fld e 287 284 == 0 && fld e 295 291 == 0 && fld e 303 301 == 0 &&
    fld e 307 305 == 0 && fld e 511 312 == 0

/-- Sets a sequence's LENGTH to the larger of itself and n (R210). -/
def State.raiseLength (s : State) (seq n : Nat) : State :=
  if sqLen (s.seqEntry seq) < n then
    { s with seqTab := wrCells s.seqTab (cellsAt (64 * seq + 16) (natLe 4 n)) }
  else s

/-! Page-table entries (R194). -/

/-- The space-0 offset of the entry for page j of head h. -/
def pteAt (e : SeqEntry) (j h : Nat) : Nat := (gaddr (sqPt e)).off + (j * sqHkv e + h) * 8
abbrev Pte := BitVec 64
def State.pte (s : State) (p off : Nat) : Pte := BitVec.ofNat 64 (leNat (s.rdMem p 0 off 8))
def pteValid (x : Pte) : Bool := x.getLsbD 63
def pteSealed (x : Pte) : Bool := x.getLsbD 62
def pteFmt (x : Pte) : Nat := fld x 61 59
def pteFill (x : Pte) : Nat := fld x 47 40
def pteOff (x : Pte) : Nat := fld x 39 0
/-- An allocated page's entry. -/
def mkPte (sealed : Bool) (fmt fill off : Nat) : Nat :=
  2 ^ 63 + b2n sealed * 2 ^ 62 + fmt % 8 * 2 ^ 59 + fill % 256 * 2 ^ 40 + off % 2 ^ 40

/-- The element of a page format (R194): BF16, FP8, MXFP4. -/
def pageElem : Nat → Elem
  | 0 => .bf16
  | 1 => .e4m3
  | 2 => .e5m2
  | _ => .e2m1
/-- The rank of a page format (R218), the codes of KEY_FLOOR. -/
def pageRank (f : Nat) : Nat := if f = 3 then 0 else if f = 0 then 2 else 1

/-- Offsets in a page's tile (R193): the value region, the value scales, the end. -/
def pageV (fmt d : Nat) : Nat := roundUp (16 * d * (pageElem fmt).width + (if fmt = 3 then 4 * d else 0)) 64
def pageVs (fmt d dv : Nat) : Nat := pageV fmt d + 16 * dv * (pageElem fmt).width
def pageBytes (fmt d dv : Nat) : Nat := pageVs fmt d dv + (if fmt = 3 then 4 * dv else 0)

/-- A page tile's offset checked under R109; outside the partition's granules is ADDR_OWNER (R202, R218). -/
def State.pageCheck (s : State) (p off len : Nat) : Nat :=
  match s.spaceCheck p 0 off len with
  | 0 => 0
  | c => if c = eAddrRange then eAddrOwner else c

/-! FILL and SEALED (R195). -/

/-- Writes a page-table entry for the sequence-table logic. -/
def State.putPte (s : State) (src p off : Nat) (x : Nat) : State := s.storeBytes src p 0 off (natLe 8 x) false

/-- A page-table entry with the writes to it that have still to land: the sequence-table logic counts and allocates one at a time
(R195, R202). -/
def State.pteLatest (s : State) (p off : Nat) : BitVec 64 := BitVec.ofNat 64 (leNat (s.rdLatest p 0 off 8))

/-- A page about to be written: SEALED and FILL clear and its tile becomes mutable. -/
def State.openPage (s : State) (src p off : Nat) : State :=
  let x := s.pteLatest p off
  if pteSealed x then (s.putPte src p off (mkPte false (pteFmt x) 0 (pteOff x))).unsealTile (s.tileOf (pteOff x)).1 else s

/-- One more slot counted: FILL, and whether the page is sealed. -/
def countSlot (x : Nat × Bool) : Nat × Bool :=
  let n := if x.2 then 1 else x.1 + 1
  (n, decide (n = 128))
/-- `n` slots counted. -/
def countSlots : Nat → Nat × Bool → Nat × Bool
  | 0, x => x
  | n + 1, x => countSlots n (countSlot x)

/-- The slots an instruction has written are counted once they have landed (R195); a page that another instruction sealed in
between becomes mutable again with the first of them. -/
def State.fillPage (s : State) (src p : Nat) (k : KvPost) : State :=
  let x := s.pteLatest p k.pte
  match countSlots k.slots (pteFill x, pteSealed x) with
  | (fill, sealed) =>
    let s := s.putPte src p k.pte (mkPte sealed (pteFmt x) fill (pteOff x))
    let t := (s.tileOf (pteOff x)).1
    if sealed then s.sealTile t else if pteSealed x && k.slots != 0 then s.unsealTile t else s

/-! Page pools (R201, R202). -/

/-- A pool's header. -/
def State.poolHeader (s : State) (p : Nat) (e : SeqEntry) : BitVec 512 := BitVec.ofNat 512 (s.rdVal p (gaddr (sqPool e)) 64)
/-- The same with the takes that have still to land (R202). -/
def State.poolLatest (s : State) (p : Nat) (e : SeqEntry) : BitVec 512 :=
  BitVec.ofNat 512 (leNat (s.rdLatest p (gaddr (sqPool e)).space (gaddr (sqPool e)).off 64))
def poTake (h : BitVec 512) : BitVec 64 := BitVec.ofNat 64 (fld h 63 0)
def poPosted (h : BitVec 512) : BitVec 64 := BitVec.ofNat 64 (fld h 127 64)
def poCap (h : BitVec 512) : Nat := fld h 159 128
def poTile (h : BitVec 512) : Nat := fld h 161 160
def poLow (h : BitVec 512) : Nat := fld h 223 192
def poLowCtr (h : BitVec 512) : Nat := fld h 237 224
def poLowEn (h : BitVec 512) : Bool := h.getLsbD 239

/-- The tile size of a code; 0 where it is reserved. -/
def tileCodeBytes : Nat → Nat
  | 0 => 8192
  | 1 => 32768
  | 2 => 131072
  | _ => 0

/-- The header checks of R209. -/
def poolCode (h : BitVec 512) (e : SeqEntry) : Nat :=
  if poTile h = 3 ∨ tileCodeBytes (poTile h) < pageBytes (sqFmt e) (sqD e) (sqDv e) ∨ poCap h = 0 ∨ 2 ^ 24 < poCap h then
    eShape
  else 0

/-- One allocation (R202) of page j of head h from a pool with an entry posted; or the refusal's code. A LOW_CTR that the partition
does not own is not signalled: the rule says that it is signalled and gives no check: DESIGN CHOICE (notes/assumptions/73.md). -/
def State.takePage (s : State) (src p : Nat) (e : SeqEntry) (j h : Nat) : Except Nat State :=
  let hd := s.poolLatest p e
  let a := gaddr (sqPool e)
  let off := fld (BitVec.ofNat 64 (s.rdVal p { a with off := a.off + 64 + 8 * ((poTake hd).toNat % max (poCap hd) 1) } 8)) 39 0
  match s.ownCheck p false { a with off := a.off + 64 } (8 * poCap hd) with
  | 0 =>
    match s.pageCheck p off (tileCodeBytes (poTile hd)) with
    | 0 =>
      let s1 := s.storeBytes src p a.space a.off (natLe 8 (poTake hd + 1).toNat) false
      let s2 := s1.unsealTile (s.tileOf off).1
      let s3 := s2.putPte src p (pteAt e j h) (mkPte false (sqFmt e) 0 off)
      .ok (if poLowEn hd ∧ (poPosted hd - poTake hd).toNat = poLow hd ∧ s.ownsCtr p (poLowCtr hd) then s3.signal (poLowCtr hd) 1
           else s3)
    | c => .error c
  | c => .error c

/-! Attention parameters (R212) and length tables (R205). -/

def aFloor (d : BitVec 512) : Nat := fld d 347 346
def aMask (d : BitVec 512) : Nat := fld d 345 344
def aDv (d : BitVec 512) : Nat := fld d 343 340 * 32
def aD (d : BitVec 512) : Nat := fld d 339 336 * 32
def aHkv (d : BitVec 512) : Nat := fld d 335 328 + 1
def aNseq (d : BitVec 512) : Nat := fld d 320 304
def aG (d : BitVec 512) : Nat := fld d 302 299 + 1
def aQtile (d : BitVec 512) : Nat := fld d 298 288
def aChunk (d : BitVec 512) : Nat := fld d 287 256
def aWindow (d : BitVec 512) : Nat := fld d 255 224
def aScale (d : BitVec 512) : Word := BitVec.ofNat 32 (fld d 223 192)
def aRope (d : BitVec 512) : Nat := fld d 191 128
def aLse (d : BitVec 512) : Nat := fld d 127 64
def aLen (d : BitVec 512) : Nat := fld d 63 0
/-- The reserved bits of a kind-2 descriptor are 0. -/
def aRsvd (d : BitVec 512) : Bool :=
  fld d 511 480 == 0 && fld d 475 465 == 0 && fld d 462 348 == 0 && fld d 327 321 == 0 && fld d 303 303 == 0

/-- A length-table entry. -/
abbrev LenEntry := BitVec 256
def leSeq (x : LenEntry) : Nat := fld x 15 0
def leFirst (x : LenEntry) : Nat := fld x 63 32
def leCount (x : LenEntry) : Nat := fld x 95 64
def leQpos (x : LenEntry) : Nat := fld x 127 96
def leKey (x : LenEntry) : Nat := fld x 159 128
def leRsvd (x : LenEntry) : Bool := fld x 31 16 == 0 && fld x 255 160 == 0
def State.lenEntries (s : State) (p : Nat) (d : BitVec 512) : List LenEntry :=
  let a := gaddr (aLen d)
  (List.range (aNseq d)).map fun k => BitVec.ofNat 256 (s.rdVal p { a with off := a.off + 32 * k } 32)
/-- KEY_INDEX; all ones stand for the sequence's LENGTH. -/
def State.keyIndex (s : State) (x : LenEntry) : Nat :=
  if leKey x = 0xFFFF_FFFF then sqLen (s.seqEntry (leSeq x)) else leKey x

/-- R198 over the entries an instruction names: each check over all of them, in its order. -/
def State.seqCode (s : State) (p : Nat) (d : BitVec 512) (seqs : List Nat) : Nat :=
  let es := seqs.map s.seqEntry
  if es.any fun e => !sqValid e || sqPart e != p then eAddrOwner
  else if es.any fun e => sqVer e != 1 || !sqRsvd e then eDescVer
  else if es.any fun e => sqHkv e != aHkv d || sqD e != aD d || sqDv e != aDv d then eShape
  else 0

/-- The page tables and pool headers of named sequences (R470): the code. Their alignment is no check of R198
or R470, and an address off it is used as it stands (DEDUCED, notes/assumptions/37.md). -/
def State.tablesCode (s : State) (p : Nat) (seqs : List Nat) : Nat :=
  (seqs.map s.seqEntry).foldl (fun c e =>
    let one := fun (a len : Nat) =>
      leastCode [when ((gaddr a).space != 0) eAddrSpace, s.ownCheck p false (gaddr a) len]
    firstCode c (firstCode (one (sqPt e) (sqMax e * sqHkv e * 8)) (one (sqPool e) 64))) 0

/-- What an instruction accesses of a page: its entry, and its tile where it is VALID. -/
def State.pageUse (s : State) (p pte : Nat) (wr : Bool) : List Range :=
  let x := s.pte p pte
  let t := s.tileOf (pteOff x)
  { host := false, lo := pte, hi := pte + 8, write := false, named := false } ::
    (if pteValid x then [{ host := false, lo := t.1, hi := t.1 + t.2, write := wr, named := false }] else [])

/-- The footprint of named sequences (R206): the tiles of their valid pages, page tables, pools. What of it an instruction
accesses, its plan adds. -/
def State.seqFoot (s : State) (p : Nat) (wr : Bool) (seqs : List Nat) : List Range :=
  (seqs.map s.seqEntry).foldr (fun e l =>
    let pt := (gaddr (sqPt e)).off
    let po := (gaddr (sqPool e)).off
    let pages := (List.range (sqMax e - sqFirst e)).foldr (fun j l =>
      ((List.range (sqHkv e)).filterMap fun h =>
        let x := s.pte p (pteAt e (sqFirst e + j) h)
        if pteValid x then
          let t := s.tileOf (pteOff x)
          some { host := false, lo := t.1, hi := t.1 + t.2, write := wr, used := false }
        else none) ++ l) []
    { host := false, lo := pt, hi := pt + sqMax e * sqHkv e * 8, write := wr, used := false } ::
      { host := false, lo := po, hi := po + 64 + 8 * poCap (s.poolHeader p e), write := wr, used := false } :: pages ++ l) []

/-- Space-1 ranges and the length table's footprint. -/
def lenFoot (d : BitVec 512) : List Range :=
  let a := gaddr (aLen d)
  [{ host := false, lo := a.off, hi := a.off + 32 * aNseq d, write := false }]

end Sys2Proof.Machine
end

