-- ==== Sys2Proof/Machine/Facet.lean ====
section
/-! DEFINITION. The facet's sequencer (spec/04_facet_programming.md R97 to R122, spec/01_architecture.md R22 to
R25, spec/14_host_and_partitions.md R388 to R391): claims, the issue of an instruction, its completion, waits,
stops, and the end of a program. -/

namespace Sys2Proof.Machine

/-! Work descriptors (R389). -/
abbrev Wd := BitVec 512
def wProg (w : Wd) : Nat := fld w 63 0
def wDtab (w : Wd) : Nat := fld w 127 64
def wThresh (w : Wd) : Word := BitVec.ofNat 32 (fld w 159 128)
def wLen (w : Wd) : Nat := fld w 176 160
def wCount (w : Wd) : Nat := fld w 185 177
def wGang (w : Wd) : Nat := fld w 190 186
def wDone (w : Wd) : Nat := fld w 205 192
def wTag (w : Wd) : Word := BitVec.ofNat 32 (fld w 255 224)
def wVer (w : Wd) : Nat := fld w 483 480
/-- Every reserved bit of a work descriptor is 0. -/
def wRsvd (w : Wd) : Bool :=
  fld w 191 191 == 0 && fld w 223 206 == 0 && fld w 479 256 == 0 && fld w 511 484 == 0

/-- The checks of R389 on a claimed descriptor, with those of its addresses, at any rank (R97, R109), and of its counter (R25).
A PROG_LEN above 65,536 is outside the range of R98 and no rule names its code: DESIGN CHOICE, it is SHAPE like a length of 0
(notes/assumptions/66.md). -/
def State.wdCheck (s : State) (p : Nat) (w : Wd) : Nat :=
  leastCode
    [when (!wRsvd w) eRsvdBits, when (wVer w != 1) eDescVer,
     when (wLen w == 0 || decide (65536 < wLen w) || decide (256 < wCount w)) eShape,
     when (wProg w % 32 != 0 || wDtab w % 64 != 0) eAlign,
     s.anyCheck p .get 0 (gaddr (wProg w)) (32 * wLen w), s.anyCheck p .get 0 (gaddr (wDtab w)) (64 * wCount w),
     when (!(s.ownsCtr p (wDone w))) eAddrOwner]

/-! The sequencer's fetches (R97, R98): gets of class P3, which count not among the 64 of R115 (notes/assumptions/65.md). -/

/-- A fetch of `len` bytes at a global address; a table's from entry `first` on. -/
def fetchJob (a : GAddr) (len first : Nat) : RemJob :=
  { kind := .get, rank := a.rank, space := a.space, offset := a.off, len := len, data := [], destHost := true, dest := 0, code := 0,
    ret := false, scalar := false, arg := BitVec.ofNat 64 first }

/-- Instructions of the buffer (R97). -/
def bufMax : Nat := 2048

/-- The next fetch of a program: its instructions in one operation, as many as the buffer takes, inside one granule. -/
def Run.nextFetch (r : Run) : GAddr × Nat :=
  let k := r.pc + r.buf.length
  let a := gaddr (wProg r.cl.wd)
  let off := a.off + 32 * k
  ({ a with off := off },
   min (min (if r.narrow then 1 else bufMax) (bufMax - r.buf.length)) (min (wLen r.cl.wd - k) ((2 ^ 30 - off % 2 ^ 30) / 32)))

/-- Fetches the initial table, and instructions ahead of issue. -/
def State.fetchTable (s : State) (f : Nat) : State :=
  match (s.facet f).run with
  | none => s
  | some r =>
    let j := fetchJob (gaddr (wDtab r.cl.wd)) (64 * wCount r.cl.wd) 0
    if !r.tableDue || r.stop.isSome || s.opsOf (.fetch f .table) || s.jobWaits r.cl.part j then s
    else s.issueOp (.fetch f .table) r.cl.part j
def State.fetchCode (s : State) (f : Nat) : State :=
  match (s.facet f).run with
  | none => s
  | some r =>
    let j := fetchJob r.nextFetch.1 (32 * r.nextFetch.2) 0
    if r.stop.isSome || r.posted || r.asked != 0 || r.fetchFail != 0 || r.nextFetch.2 == 0 || s.jobWaits r.cl.part j then s
    else (s.mapRun f fun r => { r with asked := r.nextFetch.2 }).issueOp (.fetch f .code) r.cl.part j

/-- The sequencer fetches ahead: what was refused as a whole is tried singly at once. -/
def State.fetchAhead (s : State) (f : Nat) : State := ((s.fetchTable f).fetchCode f).fetchCode f

/-- A program as it starts on a member (R98): table still to be loaded (entries beyond the count are zero and not listed),
seeds zero, pc 0. -/
def startRun (c : Claimed) : Run :=
  { cl := c, pc := 0, tableDue := wCount c.wd != 0, table := [], seeds := [],
    control := none, array := none, vector := none, mover := none, waiting := none, stop := none, posted := false }

/-- The program starts on facet f. -/
def State.beginRun (s : State) (f : Nat) (c : Claimed) : State :=
  (s.setFacet f { s.facet f with run := some (startRun c) }).fetchAhead f

/-- Whether the ring's slot of an entry can be read: its host memory (R377), its granule (R253). -/
def State.slotReadable (s : State) (q : Nat) (i : Word) : Bool :=
  let a := s.ringAddr q false
  if a.space = 3 then s.hostOn (s.qPart q) else !s.granBusy (a.off + i.toNat % s.qDepth q * 64) 64
/-- The same of the next descriptor. -/
def State.ringReadable (s : State) (q : Nat) : Bool := s.slotReadable q (s.val (.qHead q))

/-- Whether a queue offers a new descriptor to its units (R377, R386, R387). -/
def State.queueReady (s : State) (q : Nat) : Bool :=
  s.qEnabled q && !(s.queue q).overPosted && decide (0 < s.credit q) && decide (s.credit q ≤ s.qDepth q) && s.ringReadable q

/-- The open gang descriptor of a queue (R390). -/
def State.openGang (s : State) (q : Nat) : Option Gang :=
  s.gangs.find? fun g => g.queue == q && decide (g.claimed < g.size)

/-- Whether a queue offers something to facet f of partition p: a place of its open gang, to a facet that has claimed none
(R23), which stays offered while the queue is disabled or the partition drains (R386, R453); or new work of a partition
that is ON. -/
def State.offersTo (s : State) (f p q : Nat) : Bool :=
  match s.openGang q with
  | some g => !(g.facets.contains f)
  | none => s.partOn p && s.qKind q == 0 && s.queueReady q

/-- The queues that could offer work: the enabled ones and those with an open gang. -/
def State.candidates (s : State) : List Nat :=
  (s.gangs.map fun g => g.queue).foldl (fun l q => insNat q l) s.enabledQueues

/-- The next of a list of numbers above the one served last, wrapping round (R24). -/
def nextAbove (served : Option Nat) (l : List Nat) : Option Nat :=
  match served with
  | none => l.head?
  | some v =>
    match l.find? fun q => decide (v < q) with
    | some q => some q
    | none => l.head?

/-- The descriptor bytes of a ring's entry i (R388). -/
def State.ringEntry (s : State) (q : Nat) (i : Word) : BitVec 512 :=
  let a := s.ringAddr q false
  BitVec.ofNat 512 (s.rdVal (s.qPart q) { a with off := a.off + i.toNat % s.qDepth q * 64 } 64)

/-- A record of a member (R391). -/
def memberRec (o : RecOwner) (c : Claimed) (status : BitVec 8) (fm fi : Nat) (detail : Word) (done : Option Nat) : Rec :=
  { owner := o, wseq := c.wseq, status := status, gang := c.gang, faultMember := fm, faultIndex := fi,
    userTag := wTag c.wd, detail := detail, doneCtr := done, mute := c.mute }

/-- Whether a record of facet f still waits for its ring (R391): the facet claims nothing meanwhile. -/
def State.recordWaits (s : State) (f : Nat) : Bool :=
  s.queues.any fun x => x.2.waiting.any fun r => r.owner == .facet f || r.owner == .nextOf f

/-- One more member of a gang has ended; the gang is forgotten when all its members have. -/
def State.endMember (s : State) (q : Nat) (w : Word) : State :=
  let s := s.mapGang q w fun g => { g with ended := g.ended + 1 }
  { s with gangs := s.gangs.filter fun g => !(g.queue == q && g.wseq == w && decide (g.size ≤ g.ended)) }

/-- Facets of partition p whose mask holds queue q (R23). -/
def State.maskCount (s : State) (p q : Nat) : Nat :=
  ((List.range 24).filter fun f => bit (s.partFacets p) f && s.inMask p f q).length

/-- A facet that holds no run starts its prefetched descriptor (R98). -/
def State.startNext (s : State) (f : Nat) : State :=
  let fc := s.facet f
  match fc.run, fc.next with
  | none, some c => (s.setFacet f { fc with next := none }).beginRun f c
  | _, _ => s

/-- A claimed descriptor that cannot start writes its record at once (R23, R389). -/
def State.refuseClaim (s : State) (f : Nat) (c : Claimed) (code : Nat) : State :=
  let s := s.logFault f code c.queue 0 (0, 0) (0, 0)
  ((s.postRecord c.queue (memberRec (.nextOf f) c (BitVec.ofNat 8 code) c.gang 0 0 none)).1).endMember c.queue c.wseq

/-- A facet takes its gang place of a descriptor (R23, R24, R389, R390). -/
def State.takePlace (s : State) (f p q : Nat) (c : Claimed) : State :=
  let s := s.setFacet f { s.facet f with served := some q }
  let s := s.useAddr p (gaddr (wDtab c.wd)) (64 * wCount c.wd)
  match s.wdCheck p c.wd with
  | 0 =>
    let fc := s.facet f
    match fc.run with
    | none => s.beginRun f c
    | some _ => s.setFacet f { fc with next := some c }
  | code => s.refuseClaim f c code

/-- Claims from queue q for facet f of partition p. -/
def State.claimFrom (s : State) (f p q : Nat) : State :=
  match s.openGang q with
  | some g =>
    let c : Claimed := { queue := q, part := p, wseq := g.wseq, gang := g.claimed, wd := g.wd }
    (s.mapGang q g.wseq fun g => { g with claimed := g.claimed + 1, facets := g.facets ++ [f] }).takePlace f p q c
  | none =>
    let s := s.useAddr p (s.ringAddr q false) 64
    let head := s.val (.qHead q)
    let wd := s.ringEntry q head
    let c : Claimed := { queue := q, part := p, wseq := head, gang := 0, wd := wd }
    let s := s.setVal (.qHead q) (head + 1)
    let size := wGang wd
    if size = 0 ∨ s.maskCount p q < size then
      (s.setFacet f { s.facet f with served := some q }).refuseClaim f c eGangSize
    else
      let g : Gang := { queue := q, part := p, wseq := head, wd := wd, size := size, claimed := 1, facets := [f],
                        ended := 0, fault := none }
      ({ s with gangs := s.gangs ++ [g] }).takePlace f p q c

/-- Whether facet f may hold one more descriptor (R24): none is prefetched, its program has issued its
last instruction or stopped, and no record of it waits. -/
def State.canClaim (s : State) (f : Nat) : Bool :=
  let fc := s.facet f
  s.offers && s.unitOn (uFacet f) && fc.next.isNone && !s.recordWaits f &&
    (match fc.run with
     | none => true
     | some r => !r.posted && (r.stop.isSome || decide (wLen r.cl.wd ≤ r.pc)))

/-- WORK_CLAIM (R24): the facet takes from the next ready queue of its mask. -/
def execWorkClaim (f : FacetId) (s : State) : Host.Outcome State Fault Refusal :=
  if !s.canClaim f then .next s
  else
    match s.facetPart f with
    | none => .next s
    | some p =>
      let s := s.usePart p
      match nextAbove (s.facet f).served (s.candidates.filter fun q => s.inMask p f q && s.ownsQueue p q && s.offersTo f p q) with
      | none => .next s
      | some q => .next (s.claimFrom f p q)

/-! The issue of an instruction. -/

/-- An instruction about to issue: the facet and unit, the partition, the gang index and size, the words,
the program and the instruction's index. -/
structure Iss where
  f : Nat
  u : FUnit
  p : Nat
  g : Nat
  n : Nat
  ins : Ins
  run : Run
  index : Nat
  deriving DecidableEq, Repr

/-- The descriptor a slot names, as a view of this member. -/
def Iss.desc (i : Iss) (k : Nat) : Desc := tget i.run.table 0 k
def Iss.view (i : Iss) (k kp : Nat) : View := viewOf (i.desc k) i.g kp
/-- The seed the instruction names (R81). -/
def Iss.seed (i : Iss) : BitVec 64 := tget i.run.seeds 0 (iSeed i.ins)
/-- Whether the output is split, and the member's share of an output element (R105). -/
def Iss.share (i : Iss) (dims : List Nat) (x : Idx) : Bool := inShare (iSplit i.ins == 1) dims i.g i.n x
/-- The source number of the instruction's writes. -/
def Iss.src (i : Iss) : Nat := srcFacet i.f i.u

/-- What an instruction comes to: the first failing static check with its captures; whether its own wait is
over, whether it must be held, and the first failing check of what it reads after its waits; its footprint,
the ranges it brings near, the operations it issues, the moves it waits for, its chord context, what its
completion does to pages and lengths, whether it consumes poisoned bytes (R443), and its effect. `seq` is the code of the checks of sequence-table entries, one step at the place of DESC_VER (R120, R198). -/
structure Plan where
  code : Nat
  seq : Nat
  cap : Nat × Nat
  key : Nat × Nat
  ready : Bool
  hold : Bool
  late : Nat
  foot : List Range
  near : List (Nat × Nat)
  todo : List RemJob
  tiles : List Nat
  ctx : Option (Nat × Nat)
  post : List KvPost
  lens : List (Nat × Nat)
  bad : Bool
  eff : State → State

/-- A plan that faults; a plan without operands. -/
def planFault (code : Nat) : Plan :=
  { code := code, seq := 0, cap := (0, 0), key := (0, 0), ready := true, hold := false, late := 0, foot := [], near := [], todo := [], tiles := [],
    ctx := none, post := [], lens := [], bad := false, eff := id }
def planDo (eff : State → State) : Plan := { planFault 0 with eff := eff }

/-- The opcodes of the table (R101). -/
def opcodes : List Nat :=
  [0x00, 0x01, 0x02, 0x03, 0x10, 0x11, 0x12, 0x13, 0x14, 0x20, 0x21, 0x22, 0x23, 0x24, 0x25, 0x26, 0x27,
   0x40, 0x41, 0x42, 0x43, 0x50, 0x51, 0x52, 0x53, 0x54]

/-- RSVD_BITS of slots, MOD, IMM and STREAM bits an opcode does not use (R101): used slots OUT, A, B, C,
AUX, the MOD bits used, and whether IMM and STREAM are. -/
def useCode (i : Ins) (out a b c aux : Bool) (modMask : Nat) (imm stream : Bool) : Nat :=
  when ((!out && iOut i != 0) || (!a && iA i != 0) || (!b && iB i != 0) || (!c && iC i != 0) ||
    (!aux && iAux i != 0) || (iMod i &&& (65535 - modMask)) != 0 || (!imm && iImm i != 0) ||
    (!stream && iStream i != 0)) eRsvdBits

/-- ACC, XACC and SPLIT as an opcode takes them (R469): whether ACC and XACC are accepted, the code of
an XACC that is not, and whether SPLIT 0b01 and 0b10 are accepted. -/
def ctlCode (i : Ins) (acc xacc : Bool) (xcode : Nat) (s1 s2 : Bool) : Nat :=
  leastCode
    [when (iAcc i && !acc) eRsvdBits, when (iXacc i && !xacc) xcode,
     when (iSplit i == 3 || (iSplit i == 1 && !s1) || (iSplit i == 2 && !s2)) eSplitMode]

/-- CHK and REF on an opcode that has no reference mode (R163). -/
def chkCode (i : Ins) : Nat := when (iChk i || iRef i) eRsvdBits

/-- The checks every instruction has (R100, R101, R78, R109, R114). -/
def State.baseCode (s : State) (p : Nat) (i : Ins) : Nat :=
  leastCode
    [when (iVer i != 1) eIsaVer, when (!(opcodes.contains (iOpcode i))) eOpcode,
     when (fld i 113 110 != 0 || fld i 78 78 != 0 || iSigMode i == 3) eRsvdBits,
     when (decide (2 ≤ iRound i)) eRoundMode,
     when (iWaitEn i && !s.ownsCtr p (iWaitCtr i)) eAddrOwner,
     when (iSigMode i == 1 && !s.ownsCtr p (iSigCtr i)) eAddrOwner,
     (if iSigMode i = 2 then
        match s.rankTarget p (iSigRank i) with
        | .error c => c
        | .ok (c, q) => when (c == s.coord && !(s.ownsCtr q (iSigCtr i))) eAddrOwner
      else 0),
     when ((iSigMode i == 1 || iSigMode i == 2) && !sigOk (iSigValue i)) eSigValue]

/-- The first check that fails, where those of sequence-table entries stand at DESC_VER (R120). -/
def codeAt (code seq : Nat) : Nat := if seq = 0 ∨ (code ≠ 0 ∧ code ≤ eDescVer) then code else seq

/-- Whether two footprints overlap where one of them writes (R118). -/
def footClash (a b : List Range) : Bool :=
  a.any fun x => b.any fun y =>
    (x.write || y.write) && x.named && y.named && x.host == y.host && decide (x.lo < y.hi) && decide (y.lo < x.hi)

/-- A FENCE in flight (R29): it occupies the control unit; every later operation waits for it. -/
def Run.fenced (r : Run) : Bool :=
  match r.control with
  | none => false
  | some i => iOpcode i.ins == 0x01

/-- Whether the unit is free and no in-flight footprint conflicts (R98, R117, R118). -/
def Run.clear (r : Run) (u : FUnit) (foot : List Range) : Bool :=
  (r.flight u).isNone && !r.fenced && !(r.flights.any fun i => footClash i.foot foot)

/-- The unit of a facet works, and its program has neither stopped nor issued its last instruction. -/
def State.sequencing (s : State) (f : Nat) (r : Run) : Bool :=
  s.live && (s.unit (uFacet f)).st == .on && r.stop.isNone && !r.posted && decide (r.pc < wLen r.cl.wd)

/-- An instruction of a run as it would issue. -/
def issOf (f : Nat) (u : FUnit) (r : Run) (ins : Ins) : Iss :=
  { f := f, u := u, p := r.cl.part, g := r.cl.gang, n := wGang r.cl.wd, ins := ins, run := r, index := r.pc }

/-- The instruction at a facet's pc, once it and the initial table have been fetched. -/
def State.nextIns (s : State) (f : Nat) (u : FUnit) : Option Iss :=
  match (s.facet f).run with
  | none => none
  | some r =>
    match r.buf with
    | [] => none
    | ins :: _ => if s.sequencing f r && !r.tableDue then some (issOf f u r ins) else none

/-- Whether another member of the gang has faulted (R122). -/
def State.gangAborted (s : State) (r : Run) : Bool :=
  match s.gangOf r.cl.queue r.cl.wseq with
  | none => false
  | some g => g.fault.isSome

/-- The wait of an instruction is reached (R113). -/
def State.waitOk (s : State) (r : Run) (i : Ins) : Bool :=
  !iWaitEn i || reached (s.counter (iWaitCtr i)) (wThresh r.cl.wd + iWaitThresh i)

/-- Whether a sequence-table entry that an instruction names is poisoned (R443): its words stand in the poison list
above 2^40. -/
def seqPoison (word : Nat) : Nat := 2 ^ 40 + word
def State.seqBad (s : State) (i : Iss) : Bool :=
  !s.poison.isEmpty && (iOpcode i.ins == 0x12 || iOpcode i.ins == 0x14 || iOpcode i.ins == 0x42) &&
    ((s.lenEntries i.p (i.desc (iAux i.ins))).any fun x =>
      (List.range 16).any fun k => s.poison.contains (seqPoison (16 * leSeq x + k)))

/-- Issues: the instruction enters its unit, the pc advances, and the instruction takes effect. -/
def State.issue (s : State) (i : Iss) (pl : Plan) : State :=
  let fl : InFlight :=
    { index := i.index, ins := i.ins, foot := pl.foot, fault := BitVec.ofNat 8 (when (pl.bad || s.seqBad i) eDataError), todo := pl.todo, tiles := pl.tiles, ctx := pl.ctx,
      post := pl.post, lens := pl.lens, since := s.limClock, detail := 0 }
  let r := { i.run with pc := i.index + 1, buf := i.run.buf.tail, waiting := none, poolSeq := none }
  let s := s.setFacet i.f { s.facet i.f with run := some (r.setFlight i.u (some fl)) }
  let s := pl.near.foldl (fun s x => s.promoteRange x.1 x.2 true) s
  let s := pl.foot.foldl (fun s x => if x.host || !x.used then s else x.runs.foldl (fun s y => s.touchRange y.1 (y.2 - y.1)) s) s
  (pl.eff s).pumpUnit i.f i.u

/-- A member whose next instruction begins to wait (R116), for its counter or for the pool of a sequence (R202). -/
def State.beginWait (s : State) (f : Nat) (i : Iss) (pool : Option Nat) : State :=
  if i.run.waiting.isSome ∧ i.run.poolSeq = pool then s
  else s.setFacet f { s.facet f with run := some { i.run with waiting := some s.limClock, poolSeq := pool } }

/-- A held instruction whose counter has been reached waits no longer under R116. -/
def State.endWait (s : State) (i : Iss) : State :=
  if i.run.waiting.isNone ∨ i.run.poolSeq.isSome then s
  else s.setFacet i.f { s.facet i.f with run := some { i.run with waiting := none } }

/-- DETAIL after RING_STALL or COLL_ABORT: the stall register of the partition's context (R391). -/
def State.chdDetail (s : State) (ctx : Option (Nat × Nat)) (code : Nat) : Word :=
  match ctx with
  | some (e, p) => if code = eRingStall ∨ code = eCollAbort then s.val (.chdStall e p) else 0
  | none => 0

/-- The sub-operations of VEW (R174): whether they use B, C and IMM. -/
def vewUses (op : Nat) : Bool × Bool × Bool :=
  (op ∈ [1, 2, 3, 4, 5, 8, 9, 0x0D, 0x0E], op ∈ [8, 0x0D, 0x0E], op ∈ [6, 7, 9])

/-- The descriptor indices that an instruction names (R101, R103): those its opcode and its MOD bits use. -/
def namedSlots (i : Ins) : List Nat :=
  let c := if bit (iMod i) 0 then [iC i] else []
  (match iOpcode i with
   | 0x10 => [iOut i, iA i, iB i] ++ c
   | 0x11 => [iOut i, iA i, iB i, iAux i, bits (iMod i) 15 8] ++ c
   | 0x12 => [iA i, iB i, iAux i]
   | 0x13 | 0x41 => [iOut i, iA i, iB i, iAux i] ++ c
   | 0x40 => [iOut i, iA i, iB i, iAux i]
   | 0x14 | 0x26 | 0x43 => [iOut i, iA i, iAux i]
   | 0x20 => [iOut i, iA i] ++ (if (vewUses (iMod i)).1 then [iB i] else []) ++ (if (vewUses (iMod i)).2.1 then [iC i] else [])
   | 0x22 => [iOut i, iA i, iB i, iC i]
   | 0x21 | 0x23 | 0x24 | 0x25 | 0x27 | 0x50 | 0x51 => [iOut i, iA i]
   | 0x42 => [iOut i, iA i, iB i, iAux i]
   | 0x52 => [iOut i] ++ (if bit (iMod i) 4 then [] else [iA i]) ++ (if bit (iMod i) 5 then [iC i] else [])
   | 0x53 | 0x54 => [iA i]
   | _ => []) ++
    (if (iChk i || iRef i) && bit (iImm i) 8 then [iImm i % 256] else [])

/-- The descriptor indices that a DLOAD writes. -/
def dloadHits (first n : Nat) (i : Ins) : Bool := (namedSlots i).any fun k => decide (first ≤ k) && decide (k < first + n)

/-- Whether an instruction names an index that a DLOAD in flight has still to load: it waits, and is checked after
(notes/assumptions/65.md). -/
def State.loading (s : State) (i : Iss) : Bool :=
  match i.run.control with
  | none => false
  | some x => iOpcode x.ins == 0x03 && s.opsOf (.fetch i.f .dload) && dloadHits (iOut x.ins) (iMod x.ins % 512) i.ins

/-- What the issue of an instruction uses (R405): its partition's entry, and the ranks that its operands name. -/
def State.useIssue (s : State) (i : Iss) : State :=
  if !s.upset then s
  else (namedSlots i.ins).foldl (fun s k => s.useRank i.p (gaddr (dAddr (i.desc k))).rank) (s.usePart i.p)

/-- The static checks of an instruction: its code, and its plan (R98, R120). -/
def State.check (s : State) (plan : State → Iss → Plan) (i : Iss) : Nat × Plan :=
  let pl := if opcodes.contains (iOpcode i.ins) then plan s i else planFault 0
  (codeAt (firstCode (s.baseCode i.p i.ins) pl.code) pl.seq, pl)

/-- A fetch that was refused faults its member once the pc has come there (notes/assumptions/65.md). -/
def State.fetchStop (s : State) (f : Nat) : State :=
  match (s.facet f).run with
  | none => s
  | some r =>
    if r.fetchFail != 0 && r.buf.isEmpty && s.sequencing f r then s.stopMember f r.fetchFail r.pc 0 (0, 0) (0, 0) else s

/-- The fault of a static check (R120, R121). -/
def State.stopCheck (s : State) (i : Iss) (c : Nat) (pl : Plan) : State :=
  s.stopMember i.f c i.index 0 (if c = eIssueCapacity then pl.cap else (0, 0)) (if c = eKeyfmt then pl.key else (0, 0))

/-- One attempt to issue the instruction at facet f's pc (R98): a fault of its checks; a hold while its
unit, its footprint, a granule that takes new values (R253) or its wait is not ready; or its issue. `op` is the opcode the command names; a
reserved opcode faults under any of them (notes/assumptions/20.md). -/
def State.tryIssue (s : State) (f op : Nat) (u : FUnit) (plan : State → Iss → Plan) : State :=
  let s := if s.live then (s.fetchAhead f).fetchStop f else s
  match s.nextIns f u with
  | none => s
  | some i =>
    if (opcodes.contains (iOpcode i.ins) && iOpcode i.ins != op) || s.loading i then s
    else
      let s := s.useIssue i
      match s.check plan i with
      | (0, pl) =>
        if !i.run.clear u pl.foot || s.gangAborted i.run || s.footBusy pl.foot
        then s
        else if !s.waitOk i.run i.ins || !pl.ready then s.beginWait f i none
        else
          match pl.late with
          | 0 => if pl.hold then s.endWait i else s.issue i pl
          | c => s.stopMember f c i.index (s.chdDetail pl.ctx c) (0, 0) (if c = eKeyfmt then pl.key else (0, 0))
      | (c, pl) =>
        s.stopCheck i c pl

/-! Completion. -/

/-- Whether a context still holds an instruction (R316): until it closes. -/
def State.ctxOpen (s : State) (c : Option (Nat × Nat)) : Bool :=
  match c with
  | none => false
  | some (e, p) => (s.ctx e p).isSome

/-- Whether everything an instruction does has landed (R114, R272): its operations, its writes, the moves
it started, its context; a third sample holds the drain of its tile back (R168). -/
def State.landed (s : State) (f : Nat) (u : FUnit) (i : InFlight) : Bool :=
  i.todo.isEmpty && !s.opsOf (.facet f u) && !(iOpcode i.ins == 0x03 && s.opsOf (.fetch f .dload)) && !s.writesLeft (srcFacet f u) && !s.ctxOpen i.ctx &&
    (!iChk i.ins || decide ((s.facet f).samples.length ≤ 2)) &&
    (if iOpcode i.ins = 0x53 then
       i.tiles.all fun t =>
         match s.dirEntry t with
         | none => s.ceiling (s.tileOwner t) == 0
         | some e => e.st == .copy || e.st == .near
     else i.tiles.all fun t => match s.dirEntry t with | none => true | some e => e.st != .movingDown)

/-- Whether no earlier instruction of the member, nor an operation of it, is incomplete (R29, R103). -/
def State.earlierDone (s : State) (f : Nat) (r : Run) (index : Nat) : Bool :=
  r.flights.all (fun i => decide (index ≤ i.index)) && s.outstanding f == 0

/-- Whether an operation is a put or atomic toward the target of a rank. -/
def State.toward (s : State) (p rank : Nat) (j : RemJob) : Bool :=
  (j.kind == .put || j.kind == .atomic) &&
    (match s.rankTarget p j.rank, s.rankTarget p rank with
     | .ok a, .ok b => a == b
     | _, _ => j.rank == rank)

/-- Whether an earlier put or atomic of the member toward a rank is incomplete (R29, R295): of an instruction in flight before
index `index`, still to be issued, on its way, or with writes that have not landed. -/
def State.putsToward (s : State) (f : Nat) (r : Run) (index rank : Nat) : Bool :=
  let hit := s.toward r.cl.part rank
  [FUnit.control, .array, .vector, .mover].any fun u =>
    match r.flight u with
    | none => false
    | some i =>
      decide (i.index < index) &&
        (i.todo.any hit ||
         (s.ops.any fun x => match x.2 with | some o => !o.dead && o.owner == .facet f u && hit o.job | none => false) ||
         s.txDue.any fun d => match d.back with | .issuer o _ j => o == .facet f u && hit j | _ => false)

/-- Takes a program's end into account: the seeds are nothing to keep; a finished facet starts its
prefetched descriptor (R98). -/
def State.releaseRun (s : State) (f : Nat) : State :=
  (s.setFacet f { s.facet f with run := none }).startNext f

/-- The instruction leaves its unit: pages and lengths count what it wrote (R195, R210), then its signal is
sent, or the fault of a remote refusal is reported (R114, R121). -/
def State.complete (s : State) (f : Nat) (u : FUnit) (r : Run) (i : InFlight) : State :=
  let s := s.setFacet f { s.facet f with run := some (r.setFlight u none) }
  let s := i.post.foldl (fun s k => s.fillPage (srcFacet f u) r.cl.part k) s
  let s := i.lens.foldl (fun s x => s.raiseLength x.1 x.2) s
  if i.fault.toNat = ePreempted then s.stopQuiet f i.fault.toNat i.index
  else if i.fault.toNat ≠ 0 then s.stopMember f i.fault.toNat i.index i.detail (0, 0) i.key
  else
    match iSigMode i.ins with
    | 1 => s.signal (iSigCtr i.ins) (iSigValue i.ins)
    | 2 => s.issueOp (.signal f i.index) r.cl.part (signalJob (iSigRank i.ins) (iSigCtr i.ins) (iSigValue i.ins))
    | _ => s

/-- INSTRUCTION_COMPLETE (R114): once everything it does has landed; a FENCE also once every earlier
instruction and operation is complete; a signal not before earlier puts and atomics to its rank (R295), nor while 64 operations
of the facet are in flight, be its target the own vertex (R115). -/
def execInstructionComplete (f : FacetId) (u : FUnit) (s : State) : Host.Outcome State Fault Refusal :=
  match (s.facet f).run with
  | none => .next s
  | some r =>
    match r.flight u with
    | none => .next s
    | some i =>
      if !s.live || !s.landed f u i then .next s
      else if iOpcode i.ins = 0x01 ∧ !s.earlierDone f r i.index then .next s
      else if (iSigMode i.ins = 1 ∨ iSigMode i.ins = 2) ∧
          s.putsToward f r i.index (if iSigMode i.ins = 1 then 0xFFF else iSigRank i.ins) then .next s
      else if (iSigMode i.ins = 1 ∨ iSigMode i.ins = 2) ∧ 64 ≤ s.outstanding f then .next s
      else .next (s.complete f u r i)

/-- PROGRAM_DONE (R98): nothing of the member is in flight and it has issued its last instruction or
stopped; it writes its completion record and then signals DONE_CTR. -/
def execProgramDone (f : FacetId) (s : State) : Host.Outcome State Fault Refusal :=
  match (s.facet f).run with
  | none => .next s
  | some r =>
    if !s.live || r.posted || !r.flights.isEmpty || s.outstanding f ≠ 0 || s.fetching f || (r.stop.isNone && decide (r.pc < wLen r.cl.wd))
    then .next s
    else
      let s := s.usePart r.cl.part
      let ok := r.stop.isNone
      let first := (s.gangOf r.cl.queue r.cl.wseq).bind fun g => g.fault
      let st := match r.stop with | some x => x.code | none => 0
      let dt := match r.stop with | some x => x.detail | none => 0
      let fm := match r.stop, first with | some _, some x => x.member | _, _ => 0
      let fi := match r.stop, first with | some _, some x => x.index | _, _ => 0
      let rec0 := memberRec (.facet f) r.cl st fm fi dt (if ok then some (wDone r.cl.wd) else none)
      match s.postRecord r.cl.queue rec0 with
      | (s, true) => .next ((s.endMember r.cl.queue r.cl.wseq).releaseRun f)
      | (s, false) =>
        .next ((s.setFacet f { s.facet f with run := some { r with posted := true } }).endMember r.cl.queue r.cl.wseq)

/-- A PREFETCH in flight whose promotions wait, with the time since which the first of them waits (R271). -/
def State.prefetchWaits (s : State) (r : Run) : Option (InFlight × Nat) :=
  match r.mover with
  | none => none
  | some i =>
    if iOpcode i.ins = 0x53 then
      ((s.promos.filter fun w => i.tiles.contains w.tile).foldl (fun (b : Option Nat) w =>
        match b with | none => some w.since | some t => some (min t w.since)) none).map fun t => (i, t)
    else none

/-- Whether what a member waits for has still not come: its counter's threshold, or an entry of the pool. -/
def State.waitHolds (s : State) (r : Run) : Bool :=
  match r.poolSeq, r.buf with
  | none, i :: _ => !s.waitOk r i
  | none, [] => false
  | some q, _ => let h := s.poolLatest r.cl.part (s.seqEntry q); poPosted h == poTake h

/-- WAIT_TIMEOUT (R116): a wait that FCT_WAIT_LIMIT no longer covers faults the member. PREFETCH's wait for promotions is
such a wait too (R271), beside that of the next instruction: the instruction ends with the fault, its promotions go on. -/
def execWaitTimeout (f : FacetId) (s : State) : Host.Outcome State Fault Refusal :=
  match (s.facet f).run with
  | none => .next s
  | some r =>
    let limit := s.get (.fctWaitLimit f) 23 0 * 1000
    let late := fun (t : Nat) => decide (t + limit ≤ s.limClock)
    let fetched := match s.prefetchWaits r with | some (i, t) => if late t then some i else none | none => none
    let next := match r.waiting with | some t => late t && r.stop.isNone && s.waitHolds r | none => false
    if !s.live || limit = 0 then .next s
    else
      match fetched with
      | some i => .next ((s.setFacet f { s.facet f with run := some (r.setFlight .mover none) }).stopMember f eWaitTimeout i.index 0 (0, 0) (0, 0))
      | none => if next then .next (s.stopMember f eWaitTimeout r.pc 0 (0, 0) (0, 0)) else .next s

/-! Control instructions (R103). -/

/-- NOP: only its wait and its signal. -/
def planNop (_ : State) (i : Iss) : Plan :=
  { planDo id with
    code := leastCode [useCode i.ins false false false false false 0 false false, ctlCode i.ins false false eRsvdBits false false,
                       chkCode i.ins] }
def execNop (f : FacetId) (s : State) : Host.Outcome State Fault Refusal := .next (s.tryIssue f 0x00 .control planNop)

/-- FENCE: it occupies the control unit until everything earlier is complete. -/
def execFence (f : FacetId) (s : State) : Host.Outcome State Fault Refusal := .next (s.tryIssue f 0x01 .control planNop)

/-- SETSEED: STREAM:IMM goes into seed-table entry SEED_SEL. -/
def State.setSeed (s : State) (f k v : Nat) : State :=
  let fc := s.facet f
  match fc.run with
  | none => s
  | some r => s.setFacet f { fc with run := some { r with seeds := tset r.seeds 0 k (BitVec.ofNat 64 v) } }
def planSetseed (_ : State) (i : Iss) : Plan :=
  { planDo (fun s => s.setSeed i.f (iSeed i.ins) (iLong i.ins)) with
    code := leastCode [useCode i.ins false false false false false 0 true true, ctlCode i.ins false false eRsvdBits false false,
                       chkCode i.ins] }
def execSetseed (f : FacetId) (s : State) : Host.Outcome State Fault Refusal :=
  .next (s.tryIssue f 0x02 .control planSetseed)

/-- DLOAD: MOD[8:0] descriptors into consecutive indices from DESC_OUT, once no instruction in flight names
any of them. No rule aligns its address, which is that of a table: DESIGN CHOICE, one that is no multiple of 64 faults ALIGN
(notes/assumptions/66.md). -/
def planDload (s : State) (i : Iss) : Plan :=
  let n := iMod i.ins % 512
  let a := gaddr (iLong i.ins)
  let first := iOut i.ins
  let job := fetchJob a (64 * n) first
  { planDo (fun t => t.issueOp (.fetch i.f .dload) i.p job) with
    code := leastCode
      [useCode i.ins true false false false false 0x1FF true true, ctlCode i.ins false false eRsvdBits false false,
       chkCode i.ins, when (iLong i.ins % 64 != 0) eAlign, s.anyCheck i.p .get 0 a (64 * n),
       when (n == 0 || decide (256 < first + n)) eDtabRange]
    foot := if s.ownRank i.p a.rank then [{ host := a.space == 3, lo := a.off, hi := a.off + 64 * n, write := false }] else []
    bad := s.ownRank i.p a.rank && a.space != 3 && s.poisoned a.off (64 * n)
    hold := (i.run.flights.any fun x => dloadHits first n x.ins) || s.jobWaits i.p job }
def execDload (f : FacetId) (s : State) : Host.Outcome State Fault Refusal :=
  .next (s.tryIssue f 0x03 .control planDload)

end Sys2Proof.Machine
end

