-- ==== Sys2Proof/Machine/Checks.lean ====
section
/-! DEFINITION. The static checks of tensor operands (spec/04_facet_programming.md R104 to R111, R120, R469,
spec/06_narrow_formats.md R145, R153, R163) and the standard shape of a plan: footprint, tiles brought near,
poison, and the store of a formed output. -/

namespace Sys2Proof.Machine

/-- What a slot accepts: its layouts, Kp for ENGINE panels, the block axis it needs, whether an outlier
tensor may stand there (R157), and whether host memory is accepted. -/
structure SlotRule where
  layouts : List Nat
  kp : Nat
  axis : Option Nat
  outlier : Bool
  host : Bool

/-- A slot of PLAIN tensors; a vector slot of PLAIN, CB32 and CB16 tensors. -/
def plainSlot : SlotRule := { layouts := [0], kp := 0, axis := none, outlier := false, host := true }
def vecSlot (l : List Nat) : SlotRule := { layouts := l, kp := 0, axis := none, outlier := true, host := true }

/-- SCALE_MODE as a format takes it (R145). -/
def scaleModeOk (f mode : Nat) : Bool :=
  if f = 0x03 ∨ f = 0x04 then decide (mode ≤ 1)
  else if f = 0x20 ∨ f = 0x21 then decide (mode ≤ 2)
  else mode == 0

/-- Whether a tensor has bytes at SCALE_ADDR. -/
def usesScale (d : Desc) : Bool := (dFmt d).isMx || dScaleMode d != 0

/-- The GANG_STEP rule of outlier tensors (R153). -/
def outlierStepOk (d : Desc) : Bool :=
  if dNdim d = 1 then dGangStep d % 512 == 0
  else if dNdim d = 2 then dGangStep d % 8 == 0
  else true

/-- The checks of a kind-0 descriptor in a slot, addresses aside. -/
def tensorCode (r : SlotRule) (d : Desc) : Nat :=
  if dKind d ≠ 0 then leastCode [when (dVer d != 1) eDescVer, eDescKind]
  else
    let n := dNdim d
    let x := dBlockAxis d
    let blk := (dFmt d).blocked
    let cap := dCap d
    leastCode
      [when (dVer d != 1) eDescVer, when (fld d 511 489 != 0 || fld d 475 470 != 0) eRsvdBits,
       when ((fmtOf (dFormat d)).isNone || !(r.layouts.contains (dLayout d)) || n == 0 || decide (5 < n) ||
         !(scaleModeOk (dFormat d) (dScaleMode d))) eFormatCode,
       when (dLayout d != 0 && (fld d 415 288 != 0)) eRsvdBits,
       when ((List.range 5).any fun k => dDim d k == 0 || (decide (n ≤ k) && dDim d k != 1)) eShape,
       when (blk && decide (n ≤ x)) eShape,
       when (blk && x + 1 == n && dGangStep d % 32 != 0) eShape,
       when (blk && (match r.axis with | some a => x != a | none => false)) eShape,
       when (decide (256 < cap)) eShape,
       when (cap != 0 && !r.outlier) eFormatPair,
       when (cap != 0 && (dLayout d != 0 || !(dFmt d).isMx)) eFormatCode,
       when (cap != 0 && (x != 0 || dDim d 0 % 32 != 0 || !outlierStepOk d)) eShape,
       when (dAddr d % 64 != 0 || (usesScale d && dScaleAddr d % 64 != 0)) eAlign,
       when (usesScale d && dScaleAddr d / 2 ^ 48 != dAddr d / 2 ^ 48) eAddrSpace]

/-- A range of a view as R109 checks it: at the rank and space of ADDR, which those of SCALE_ADDR must
equal (R110). A different rank or space of SCALE_ADDR is ADDR_SPACE alone (DEDUCED,
notes/assumptions/37.md). -/
def View.checked (v : View) (a : GAddr) : GAddr := { a with rank := v.base.rank, space := v.base.space }

/-- R109 for every byte of a view on the own vertex. -/
def State.viewCheck (s : State) (p : Nat) (host : Bool) (v : View) : Nat :=
  v.pieces.foldl (fun c r => firstCode c (s.ownCheck p host (v.checked r.1) r.2)) 0

/-- The issuer's checks of a view at any rank (R109). -/
def State.viewAnyCheck (s : State) (p : Nat) (kind : RemKind) (code : Nat) (v : View) : Nat :=
  v.pieces.foldl (fun c r => firstCode c (s.anyCheck p kind code (v.checked r.1) r.2)) 0

/-- The checks of a tensor operand on the own vertex. -/
def State.slotCode (s : State) (i : Iss) (k : Nat) (r : SlotRule) : Nat :=
  firstCode (tensorCode r (i.desc k)) (s.viewCheck i.p r.host (i.view k r.kp))

/-- The boundaries of SPLIT = 0b01 on an outlier output, those of every member, lie at multiples of 8 along DIM1 (R153). R153 says nothing
of boundaries along DIM0: DESIGN CHOICE, they may lie anywhere (notes/assumptions/73.md). -/
def outlierSplit (i : Iss) (d : Desc) : Nat :=
  let dims := dDims d
  let k := outerDim dims
  let e := dims.getD k 1
  let off := fun (g : Nat) => let x := (splitRange e g i.n).1; x % (if k = 1 then 8 else 1) != 0 && x != e
  when (dCap d != 0 && iSplit i.ins == 1 && (List.range (i.n + 1)).any off) eShape

/-- An output that the quantiser writes: T5 is no conversion target (R76). -/
def State.outCode (s : State) (i : Iss) (k : Nat) (r : SlotRule) : Nat :=
  let d := i.desc k
  leastCode [s.slotCode i k { r with outlier := true }, when (fmtOf (dFormat d) == some .t5) eFormatPair, outlierSplit i d]

/-- The exact-mode target of R276: its shape, and its slot array; `layouts` are those of the slot that it stands in. -/
def exactShape (d : Desc) : Nat :=
  let dense := (List.range (dNdim d)).all fun k =>
    k == 0 || decide (dStride d k = 4 * volume ((dDims d).take k))
  when (!(dFmt d == .plain .fp32 && dLayout d == 0 && dense && dDim d 0 % 16 == 0 && dGangStep d == 0)) eShape
def exactSlot (d : Desc) (l : Nat) : Nat := (gaddr (dAddr d)).off + 4 * volume (dDims d) + 16 * l
def State.exactCode (s : State) (i : Iss) (k : Nat) (layouts : List Nat) : Nat :=
  let d := i.desc k
  let e := volume (dDims d)
  leastCode
    [tensorCode { plainSlot with layouts := layouts } d, exactShape d, s.anyCheck i.p .atomic 7 (gaddr (dAddr d)) (4 * e),
     s.anyCheck i.p .atomic 7 { gaddr (dAddr d) with off := exactSlot d 0 } (16 * e)]

/-- Whether a rank is the own vertex for footprints (R118). -/
def State.viewOwn (s : State) (p : Nat) (v : View) : Bool := s.ownRank p v.base.rank

/-- The footprint of an exact target on the own vertex: the elements and the slot array (R276). -/
def State.exactFoot (s : State) (i : Iss) (k : Nat) : List Range :=
  let d := i.desc k
  if s.ownRank i.p (gaddr (dAddr d)).rank then
    [{ host := false, lo := (gaddr (dAddr d)).off, hi := exactSlot d (volume (dDims d)), write := true }]
  else []

/-- Exact-mode adds of a share of the output, as operations of at most 64 KiB (R107, R115): contributions in
logical order from `first`. -/
def exactJobs (d : Desc) (first : Nat) (vals : List Word) : Nat → List RemJob
  | 0 => []
  | n + 1 =>
    if vals.isEmpty then []
    else
      let part := vals.take (opMax / 4)
      { kind := .atomic, rank := (gaddr (dAddr d)).rank, space := (gaddr (dAddr d)).space,
        offset := (gaddr (dAddr d)).off + 4 * first, len := 4 * part.length,
        data := part.foldr (fun w l => natLe 4 w.toNat ++ l) [], destHost := false, dest := 0, code := 7, ret := false,
        scalar := false, arg := BitVec.ofNat 64 (exactSlot d first) } ::
        exactJobs d (first + opMax / 4) (vals.drop (opMax / 4)) n

/-- XACC jobs of the elements a member writes: under SPLIT = 0b01 its range of the outermost dimension is
one run of logical indices. -/
def Iss.xaccJobs (i : Iss) (d : Desc) (val : Idx → Word) : List RemJob :=
  let els := (allIdx (dDims d)).filter (i.share (dDims d))
  match els with
  | [] => []
  | e :: _ => exactJobs d (ravel (dDims d) e) (els.map val) (els.length / (opMax / 4) + 1)

/-- Ranges of space-1 operands, which come near (R108). -/
def View.nearRanges (v : View) : List (Nat × Nat) :=
  if v.base.space = 1 then v.pieces.map fun r => (r.1.off, r.2) else []

/-- The bytes of a view's elements and scales that the stacks hold: granule numbers. -/
def View.granules (v : View) : List Nat :=
  (allIdx v.dims).foldl (fun l i =>
    let j := v.abs i
    let l := insNat ((v.base.off + elemBit v j / 8) / 256) l
    let l := insNat ((v.base.off + (elemBit v j + v.fmt.width - 1) / 8) / 256) l
    if v.fmt.isMx then insNat ((v.sbase.off + scaleByte v j) / 256) l else l) []

/-- Whether a view holds poisoned bytes (R443, notes/assumptions/22.md). -/
def State.viewPoisoned (s : State) (v : View) : Bool :=
  if s.poison.isEmpty || v.base.space == 3 then false
  else
    (v.granules.any fun g => s.poison.contains g) ||
      (v.sideBytes.any fun r => s.poisoned (v.sbase.off + r.1) (r.2 - r.1)) ||
      (dScaleMode v.d != 0 && s.poisoned (v.sbase.off + v.scaleBytes.1) (v.scaleBytes.2 - v.scaleBytes.1))

/-- The plan of an instruction that reads and writes tensors of the own vertex. -/
def State.planStd (s : State) (ins outs : List View) (code : Nat) (eff : State → State) : Plan :=
  { planDo eff with
    code := code
    foot := ins.foldr (fun v l => v.foot false ++ l) (outs.foldr (fun v l => v.foot true ++ l) [])
    near := (ins ++ outs).foldr (fun v l => v.nearRanges ++ l) []
    bad := ins.any s.viewPoisoned }

/-- Stores what an instruction formed; the bytes are unspecified and poisoned where it consumed poison
(R443). -/
def State.storeOut (s : State) (i : Iss) (space : Nat) (x : Scr) (bad : Bool) : State :=
  if bad then
    let y : Scr := { x with m := wrCells x.m (x.touched.zip (s.freeBytes x.touched.length)) }
    (s.bump).storeScr i.src i.p space y true
  else s.storeScr i.src i.p space x false

/-- Whether an element is read under a scale code of 0xFF (R87). -/
def State.codeNan (s : State) (p : Nat) (v : View) (x : Idx) : Bool :=
  if dCap v.d ≠ 0 ∧ (s.listed p v x).isSome then false
  else if dCap v.d ≠ 0 ∧ s.promoted p v x then (s.slotElem p v x).2 == 255
  else v.fmt.isMx && s.rdScale p v x == 255

/-- An index of an operand whose extents of 1 are broadcast (R175). -/
def bcast (d : Desc) (x : Idx) : Idx := (List.range 5).map fun k => if dDim d k = 1 then 0 else ix x k
def bcastOk (d out : Desc) : Bool := (List.range 5).all fun k => dDim d k == dDim out k || dDim d k == 1

/-- The output of an instruction through the quantiser: each element's FP32 value, rounded, scaled and
stored (R79, R145). -/
def Iss.outSpec (i : Iss) (s : State) (v : View) (val : Idx → Word) : OutSpec :=
  { v := v, fn := i.p, mine := i.share v.dims, mode := elemMode i.ins i.seed v.dims, val := val,
    factor := fun x => s.rdFactor i.p v x }
def State.writeOut (s : State) (i : Iss) (v : View) (val : Idx → Word) (bad : Bool) : State :=
  match putOut (i.outSpec s v val) (s.memOf v.base.space) with
  | (x, q) => (s.storeOut i v.base.space x bad).logQuant i.f q

/-- IMM under CHK or REF (R163). -/
def cThresh (i : Ins) : Nat := fld i 215 208
def cPeriod (i : Ins) : Nat := fld i 207 204
def cOcent (i : Ins) : Bool := iRef i && i.getLsbD 201
def cWideEn (i : Ins) : Bool := (iChk i || iRef i) && i.getLsbD 200
def cWide (i : Ins) : Nat := fld i 199 192

/-- The checks of CHK, REF and IMM on the opcodes that have a reference mode (R163); `quant` for QUANT. -/
def refCode (i : Ins) (quant : Bool) : Nat :=
  let any := iChk i || iRef i
  when ((iChk i && iRef i) ||
    (any && (fld i 223 216 != 0 || fld i 203 202 != 0 || (iRef i && (cThresh i != 0 || cPeriod i != 0)) ||
      (iChk i && i.getLsbD 201) || (!(i.getLsbD 200) && cWide i != 0) ||
      (quant && (i.getLsbD 200 || i.getLsbD 201))))) eRsvdBits

/-- XACC and SPLIT on the array instructions that accept them (R106, R107, R128). -/
def xaccCode (i : Ins) (out : Desc) : Nat :=
  leastCode
    [when (iXacc i && (iAcc i || dFmt out != .plain .fp32)) eSplitMode, when (iSplit i == 2 && !iXacc i) eSplitMode,
     when (iAcc i && bit (iMod i) 0) eRsvdBits]

end Sys2Proof.Machine
end

