-- ==== Sys2Proof/Machine/Array.lean ====
section
/-! DEFINITION. The matrix array (spec/03_numerics.md R83 to R87, spec/05_matrix_array.md, spec/06_narrow_formats.md
R150, R151, R157 to R168): passes and their fixed tree, corrections, reference mode, the shadow checker's samples,
MATMUL and MATMUL_LR. -/

namespace Sys2Proof.Machine

/-! The arithmetic of a pass. -/

/-- Events of FCT_NUM_LOG and QSCALE_BAD (R87, R95, R150). -/
structure Ev where
  nan : Bool
  inf : Bool
  scale : Bool
  qbad : Bool
  deriving DecidableEq, Repr

def ev0 : Ev := { nan := false, inf := false, scale := false, qbad := false }
def Ev.or (a b : Ev) : Ev :=
  { nan := a.nan || b.nan, inf := a.inf || b.inf, scale := a.scale || b.scale, qbad := a.qbad || b.qbad }

/-- An FP32 value with the events of its making. -/
abbrev Acc := Word × Ev

/-- A product of exact values in FP32 (R84): NaN operands and 0 × ∞ set NAN_IN. A BF16 product that rounds to infinity is none of
the values of which R87 says that they set INF_OUT: DESIGN CHOICE, neither it nor a sum that takes its infinity over sets it
(notes/assumptions/66.md). -/
def prodEv (a b : Val) : Acc :=
  let v := a.mul b
  (f32 v, { ev0 with nan := decide (v = .nan) })

/-- An addition that overflows sets INF_OUT (R87). -/
def overflowed (r x y : Word) : Bool :=
  fIsInf r && !fIsInf x && !fIsInf y && !fIsNaN x && !fIsNaN y
def addEv (x y : Acc) : Acc :=
  let r := fadd x.1 y.1
  (r, (x.2.or y.2).or { ev0 with inf := overflowed r x.1 y.1 })

/-- An FP32 product of two words, with its events. -/
def mulEv (x : Acc) (w : Word) : Acc :=
  let r := fmul x.1 w
  (r, x.2.or { ev0 with inf := overflowed r x.1 w, nan := fIsNaN r && (fIsNaN w || (fIsInf x.1 && fIsZero w) || (fIsZero x.1 && fIsInf w)) })

/-- One level of the pairwise tree. -/
def pairUp : List Acc → List Acc
  | a :: b :: t => addEv a b :: pairUp t
  | l => l

/-- `n` levels. -/
def treeUp : Nat → List Acc → List Acc
  | 0, l => l
  | n + 1, l => treeUp n (pairUp l)

/-- A 32-position block's sum times 2^(sa + sb − 254); NaN under the code 0xFF (R84), which sets SCALE_NAN. Whether the elements
of that block are NaN operands that set NAN_IN too the spec leaves open: DESIGN CHOICE, in a pass they do not (their products
are formed without the scale), in the reference, whose operands carry it, they do (notes/assumptions/66.md). -/
def scaleEv (x : Acc) (sa sb : Nat) : Acc :=
  if sa = 255 ∨ sb = 255 then (fNaN, x.2.or { ev0 with scale := true })
  else
    let r := f32 ((fval x.1).scale ((sa : Int) + sb - 254))
    (r, x.2.or { ev0 with inf := overflowed r x.1 fOne })

/-- The blocks of a tree after its fifth level, each under its scale codes. -/
def scaleBlocks : List Acc → List (Nat × Nat) → List Acc
  | [], _ => []
  | x :: t, [] => x :: scaleBlocks t []
  | x :: t, c :: r => scaleEv x c.1 c.2 :: scaleBlocks t r

/-- The tree sum of R84 over Kp positions: the positions beyond the K extent take the product +0 (R134). -/
def treeSum (kp : Nat) (terms : List (Val × Val)) (codes : List (Nat × Nat)) : Acc :=
  let ps := terms.map fun t => prodEv t.1 t.2
  let ps := ps ++ List.replicate (kp - ps.length) (fZero, ev0)
  match treeUp 4 (scaleBlocks (treeUp 5 ps) codes) with
  | x :: _ => x
  | [] => (fZero, ev0)

/-- The K positions of a pass, and the number of passes. -/
def passRange (k kp j : Nat) : List Nat := (List.range (min (j * kp + kp) k - j * kp)).map fun x => j * kp + x
def passCount (k kp : Nat) : Nat := cdiv k kp

/-- One output element's reduction: what the array and the reference see at each K position. `an` says whether the reference
reads A there under a scale code of 0xFF; `bw` is B as the Ocent-format reference scales it, over its whole column, with the
same for B; `yEv` are the events of MATMUL_LR's first passes (R87, R161, R165). -/
structure Red where
  k : Nat
  kp : Nat
  a : Nat → Val
  sa : Nat → Nat
  b : Nat → Val
  sb : Nat → Nat
  fa : Option Word
  fb : Option Word
  slot : Nat → Option (List Val × Nat)
  listed : Nat → Option Val
  ax : Nat → Word
  an : Nat → Bool
  bx : Nat → Word
  bw : Nat → Word × Bool
  start : Acc
  rank : Nat
  refRank : Nat
  low : Nat → Val × Val
  lowRef : Nat → Nat → Word
  rcRef : Nat → Word
  refB : Bool
  yEv : Ev

/-- The corrections of R158 after a pass: promoted blocks in ascending order, then listed entries. -/
def Red.correct (r : Red) (ks : List Nat) (acc : Acc) : Acc :=
  let acc := (ks.filter fun k => k % 32 == 0).foldl (fun acc k =>
    match r.slot k with
    | none => acc
    | some (vals, sa) =>
      let ps := vals.zip ((List.range 32).map fun j => r.b (k + j))
      match treeUp 5 (ps.map fun t => prodEv t.1 t.2) with
      | x :: _ => addEv acc (scaleEv x sa (r.sb k))
      | [] => acc) acc
  ks.foldl (fun acc k =>
    match r.listed k with
    | none => acc
    | some x => addEv acc (prodEv x (fval (f32 (scaled (r.b k) (r.sb k)))))) acc

/-- The factors of R151 on a pass's sum; a factor that is not positive normal sets QSCALE_BAD (R150). -/
def Red.factors (r : Red) (x : Acc) : Acc :=
  let one := fun (f : Option Word) (x : Acc) =>
    match f with
    | none => x
    | some w => let y := mulEv x w; (y.1, y.2.or { ev0 with qbad := !fPosNormal w })
  one r.fb (one r.fa x)

/-- Pass j added to the accumulator. -/
def Red.pass (r : Red) (j : Nat) (acc : Acc) : Acc :=
  let ks := passRange r.k r.kp j
  let codes := (ks.filter fun k => k % 32 == 0).map fun k => (r.sa k, r.sb k)
  let s := r.factors (treeSum r.kp (ks.map fun k => (r.a k, r.b k)) codes)
  r.correct ks (addEv acc s)

/-- The passes lo to hi − 1 in ascending order (R85), then the low-rank passes (R161). -/
def Red.run (r : Red) (lo hi : Nat) (start : Acc) : Acc :=
  let acc := (List.range (hi - lo)).foldl (fun acc x => r.pass (lo + x) acc) start
  (List.range (passCount r.rank 64)).foldl (fun acc j =>
    addEv acc (treeSum 64 ((passRange r.rank 64 j).map r.low) [])) (acc.1, acc.2.or r.yEv)

/-- K positions of the passes lo to hi − 1. -/
def Red.positions (r : Red) (lo hi : Nat) : List Nat :=
  (List.range (min (hi * r.kp) r.k - lo * r.kp)).map fun x => lo * r.kp + x

/-- An FP32 product of two words for the reference (R164): a NaN operand sets NAN_IN, one under a scale code of 0xFF too (see
scaleEv). -/
def mulW (x y : Word) : Acc := mulEv (x, { ev0 with nan := fIsNaN x }) y

/-- An exact integer times a word, in one rounding (R165). -/
def mulInt (n : Int) (w : Word) : Acc :=
  let r := f32 ((Val.num (decide (n < 0)) n.natAbs 0).mul (fval w))
  (r, { ev0 with inf := fIsInf r && !fIsInf w && !fIsNaN w, nan := fIsNaN r })

/-- Whether the reference reads a scale code of 0xFF at a position, of A or of B (R87). -/
def Red.codeNan (r : Red) (k : Nat) : Bool := r.an k || (r.refB && r.sb k == 255)

/-- What the reference finds of scales as it reads its operands: codes of 0xFF, and static scales that are not positive normal
(R87, R150). -/
def Red.readEv (r : Red) (ks : List Nat) (codes : Nat → Bool) : Ev :=
  let bad := fun (f : Option Word) => match f with | none => false | some w => !fPosNormal w
  { ev0 with scale := ks.any codes, qbad := !ks.isEmpty && (bad r.fa || (r.refB && bad r.fb)) }

/-- Reference arithmetic (R164) over K positions `ks`. -/
def Red.ref (r : Red) (ks : List Nat) (start : Acc) : Acc :=
  let acc := ks.foldl (fun c k => addEv c (mulW (r.ax k) (r.bx k))) (start.1, start.2.or (r.readEv ks r.codeNan))
  (List.range r.refRank).foldl (fun c j =>
    let y := ks.foldl (fun y k => addEv y (mulW (r.ax k) (r.lowRef k j))) (fZero, ev0)
    addEv c (mulEv y (r.rcRef j))) acc

/-- A row or column quantised to INT8 (R165): the scale, and each quotient. -/
def ocentScale (l : List Word) : Word :=
  let m := l.foldl (fun m w => fmax m (fabs w)) fZero
  if fIsZero m then fOne else fdiv m 0x42FE_0000
def ocentQ (w s : Word) : Int :=
  let c := signedOf 8 (Elem.int8.encode .rne (fval (fdiv w s))).1
  max (-127) (min 127 c)

/-- Ocent-format reference (R165): the scales over the whole K, the dot product over `ks`. -/
def Red.ocent (r : Red) (ks : List Nat) (start : Option Acc) : Acc :=
  let all := List.range r.k
  let sa := ocentScale (all.map r.ax)
  let sb := ocentScale (all.map fun k => (r.bw k).1)
  let dot := ks.foldl (fun (d : Int) k => d + ocentQ (r.ax k) sa * ocentQ (r.bx k) sb) 0
  let d := mulInt dot sa
  let x := mulEv (d.1, d.2.or (r.readEv all fun k => r.an k || (r.bw k).2)) sb
  match start with
  | none => x
  | some c => addEv c x

/-- What a member computes of an output element: its passes, and whether its accumulator takes the start
(R106, R165). -/
structure Share where
  lo : Nat
  hi : Nat
  first : Bool
  split2 : Bool

/-- The value of an output element under the instruction's mode. -/
def Red.value (r : Red) (i : Ins) (h : Share) : Acc :=
  let start := if h.first then r.start else (fZero, ev0)
  if iRef i then
    (if cOcent i then r.ocent (r.positions h.lo h.hi) (if h.split2 && !h.first then none else some r.start)
     else r.ref (r.positions h.lo h.hi) start)
  else r.run h.lo h.hi start

/-- The member's share of the passes (R106). -/
def Iss.passes (i : Iss) (k kp : Nat) : Share :=
  let n := passCount k kp
  if iSplit i.ins = 2 then
    { lo := i.g * n / i.n, hi := (i.g + 1) * n / i.n, first := i.g == 0, split2 := true }
  else { lo := 0, hi := n, first := true, split2 := false }

/-! T5 codes (R72, R96). -/

/-- The element bytes of the T5 block of an index, of which the invalid ones count. -/
def State.t5Bad (s : State) (p : Nat) (v : View) (i : Idx) : Nat :=
  ((s.rdMem p v.base.space (v.base.off + elemBit v (v.abs i) / 8) 7).filter fun b => decide (0xF3 ≤ b.toNat)).length

/-- Invalid bytes of the T5 blocks that an instruction reads, each block once (notes/assumptions/21.md). -/
def State.t5Count (s : State) (p : Nat) (v : View) (used : List Idx) : Nat :=
  let g := blockGrid v.d
  let nums := used.foldl (fun l i => insNat (ravel g (blockIdx v.d i)) l) []
  nums.foldl (fun n l =>
    let b := unravel g l
    n + s.t5Bad p v (ixSet b (dBlockAxis v.d) (ix b (dBlockAxis v.d) * 32))) 0

/-- Notes the events of an instruction with its facet (R87, R95, R96, R150). -/
def State.logEv (s : State) (f : Nat) (e : Ev) (t5 : Nat) : State :=
  let s := (s.count (.fctT5Bad f) t5).flag (.fctNumLog f) 0 (decide (0 < t5))
  (((s.flag (.fctNumLog f) 1 e.nan).flag (.fctNumLog f) 2 e.inf).flag (.fctNumLog f) 3 e.scale).flag (.fctQLog f) 3 e.qbad

/-! Output tiles, their walk and the shadow checker (R129, R143, R166, R167). -/

/-- The member's range along each dimension of the output. -/
def Iss.box (i : Iss) (dims : List Nat) : List (Nat × Nat) :=
  let k := outerDim dims
  let r := splitRange (dims.getD k 1) i.g i.n
  (List.range 5).map fun d => if iSplit i.ins = 1 ∧ d = k then r else (0, dims.getD d 1)

/-- Tile t of a box cut in tiles of the given sizes, in row-major order: its elements. -/
def tilesIn (box : List (Nat × Nat)) (size : List Nat) : Nat :=
  volume ((box.zip size).map fun x => cdiv (x.1.2 - x.1.1) x.2)
def tileElems (box : List (Nat × Nat)) (size : List Nat) (t : Nat) : List Idx :=
  let grid := (box.zip size).map fun x => cdiv (x.1.2 - x.1.1) x.2
  let c := unravel grid t
  let sub := (List.range 5).map fun d =>
    let b := box.getD d (0, 1)
    let n := size.getD d 1
    let a := b.1 + ix c d * n
    (a, min b.2 (a + n) - a)
  (allIdx (sub.map fun x => x.2)).map fun e => (e.zip sub).map fun x => x.1 + x.2.1

/-- The tiles of a member's share of a product's output, 512 by 512 within each batch index (R129). -/
def Iss.mmTiles (i : Iss) (dims : List Nat) : List (List Idx) :=
  (List.range (tilesIn (i.box dims) [512, 512, 1, 1, 1])).map (tileElems (i.box dims) [512, 512, 1, 1, 1])

/-- hilbert_axes (R143): the cell of step d of the curve over 2^b cells in each of n dimensions. -/
def hilbertAxes (d b n : Nat) : List Nat :=
  let dealt := (List.range (b * n)).foldl
    (fun x j => x.set (j % n) (x.getD (j % n) 0 ||| (d >>> (b * n - 1 - j) % 2) <<< (b - 1 - j / n))) (List.replicate n 0)
  let gray := (List.range n).map fun i =>
    if i = 0 then dealt.getD 0 0 ^^^ dealt.getD (n - 1) 0 / 2 else dealt.getD i 0 ^^^ dealt.getD (i - 1) 0
  (List.range (b - 1)).foldl (fun x k =>
    (List.range n).reverse.foldl (fun (x : List Nat) i =>
      if (x.getD i 0).testBit (k + 1) then x.set 0 (x.getD 0 0 ^^^ (2 ^ (k + 1) - 1))
      else
        let t := (x.getD 0 0 ^^^ x.getD i 0) &&& (2 ^ (k + 1) - 1)
        let y := x.set 0 (x.getD 0 0 ^^^ t)
        y.set i (y.getD i 0 ^^^ t)) x) gray

/-- The cells of a grid of the given extents in the order of the walk (R143). -/
def hilbertWalk (extents : List Nat) : List (List Nat) :=
  let most := extents.foldl max 1
  let b := ((List.range 64).find? fun b => decide (most ≤ 2 ^ b)).getD 64
  ((List.range (2 ^ (b * extents.length))).map fun d => hilbertAxes d b extents.length).filter fun x =>
    (x.zip extents).all fun c => decide (c.1 < c.2)

/-- The tiles of n grids of the given extents, the last fastest, in the order of the walk: tile by its row-major number. -/
def walkTiles (n : Nat) (extents : List Nat) : List Nat :=
  let cells := (hilbertWalk extents).map fun x => (x.zip extents).foldl (fun t c => t * c.2 + c.1) 0
  (List.range n).foldr (fun g l => (cells.map fun t => g * extents.foldl (· * ·) 1 + t) ++ l) []

/-- The order in which a member visits the tiles of its share of a product's output (R143). -/
def Iss.mmWalk (i : Iss) (dims : List Nat) : List Nat :=
  let len := (i.box dims).map fun x => x.2 - x.1
  walkTiles (volume (len.drop 2)) [cdiv (len.getD 1 1) 512, cdiv (len.getD 0 1) 512]

/-- The samples of an instruction under CHK, in the order in which its tiles drain: for each sampled tile, the reference
and the written values. -/
def Iss.samples (i : Iss) (walk : List Nat) (tiles : List (List Idx)) (ref written : Idx → Word) : List Sample :=
  if !iChk i.ins then []
  else
    (walk.filter fun t => t % 2 ^ cPeriod i.ins == 0).map fun t =>
      let els := tiles.getD t []
      { queue := i.run.cl.queue, index := i.index, tile := t, threshExp := cThresh i.ins, reference := els.map ref,
        written := els.map written }

/-- Queues samples in facet f's checker. -/
def State.addSamples (s : State) (f : Nat) (l : List Sample) : State :=
  if l.isEmpty then s else s.setFacet f { s.facet f with samples := (s.facet f).samples ++ l }

/-- CHECKER_SAMPLE (R167): e = max|d − w| / max|w| of the oldest sample, its counters and CHK_EXCEED. -/
def sampleE (x : Sample) : Word :=
  let diff := (x.written.zip x.reference).foldl (fun m dw => fmax m (fabs (fsub dw.1 dw.2))) fZero
  let mag := x.reference.foldl (fun m w => fmax m (fabs w)) fZero
  if fIsZero mag then (if x.written.all fIsZero then fZero else fInf) else fdiv diff mag
def execCheckerSample (f : FacetId) (s : State) : Host.Outcome State Fault Refusal :=
  match (s.facet f).samples with
  | [] => .next s
  | x :: t =>
    if !s.live then .next s
    else
      let e := sampleE x
      let limit := f32 (.num false 1 (-(x.threshExp : Int)))
      let exceeds := fIsNaN e || flt limit e
      let old := s.val (.fctChkMaxerr f)
      let s := (s.setFacet f { s.facet f with samples := t }).count (.fctChkSamples f) 1
      let s := if fIsNaN e then s.setVal (.fctChkMaxerr f) fNaN
               else if flt old e then s.setVal (.fctChkMaxerr f) e else s
      if exceeds then
        .next ((s.count (.fctChkExceeds f) 1).setWz (.fctQLog f) 4
          [(.fctChkTile f, 31, 0, x.tile), (.fctChkWhere f, 27, 16, x.queue), (.fctChkWhere f, 15, 0, x.index)])
      else .next s

/-! Operand pairs (R83). -/

/-- K per pass of a legal pair. -/
def pairKp : Fmt → Fmt → Option Nat
  | .plain .bf16, .plain .bf16 => some 64
  | .plain .fp16, .plain .fp16 => some 64
  | .plain .int8, .plain .int8 => some 128
  | .plain .int8, .plain .int4 => some 128
  | .plain .int4, .plain .int4 => some 256
  | .plain .int8, .t5 => some 512
  | .plain .e4m3, .t5 => some 512
  | .mx .e4m3, .t5 => some 512
  | .plain a, .plain b =>
    if (a = .e4m3 ∨ a = .e5m2) ∧ (b = .e4m3 ∨ b = .e5m2) then some 128 else none
  | .mx a, .mx b =>
    if a = .e4m3 ∨ a = .e5m2 then some 128
    else if a = .e2m1 then (if b = .e2m1 then some 256 else none)
    else if b = .e2m3 ∨ b = .e3m2 then some 128 else none
  | _, _ => none

/-- The pass mode of an instruction's operands; 64 where the pair is not legal (it never issues). -/
def Iss.kpOf (i : Iss) (a b : Nat) : Nat := (pairKp (dFmt (i.desc a)) (dFmt (i.desc b))).getD 64

/-- The check of a pair: R83, and SCALE_MODE 0b10 on A (R151). -/
def pairCode (a b : Desc) : Nat :=
  when ((pairKp (dFmt a) (dFmt b)).isNone || dScaleMode a == 2) eFormatPair

/-- An element as an accumulator starts with it, and what its reading logs: a scale code of 0xFF, a static scale that is not
positive normal (R87, R150). Two points the spec leaves open, DESIGN CHOICE (notes/assumptions/66.md): a static or per-channel
scale of C, or of OUT under ACC, multiplies the element in FP32; and a NaN so read is no operand that enters the array, and sets
no NAN_IN. -/
def State.startOf (s : State) (p : Nat) (v : View) (x : Idx) : Acc :=
  (s.rdVec p v x, { ev0 with scale := s.codeNan p v x, qbad := dScaleMode v.d != 0 && !fPosNormal (s.rdFactor p v x) })

/-- The accumulator start (R128): C, the existing output, or +0. -/
def State.startAt (s : State) (i : Iss) (out c : View) (x : Idx) : Acc :=
  if bit (iMod i.ins) 0 then s.startOf i.p c (if dDim c.d 1 = 1 then ixSet x 1 0 else x)
  else if iAcc i.ins then s.startOf i.p out x
  else (fZero, ev0)

/-- C of an array instruction (R128): FP32, BF16 or OUT's format, with OUT's shape or a DIM1 of 1. -/
def cCode (s : State) (i : Iss) (layouts : List Nat) (out : Desc) : Nat :=
  if !(bit (iMod i.ins) 0) then 0
  else
    let c := i.desc (iC i.ins)
    leastCode
      [s.slotCode i (iC i.ins) { plainSlot with layouts := layouts },
       when (!(dFmt c == .plain .fp32 || dFmt c == .plain .bf16 || dFmt c == dFmt out)) eFormatPair,
       when (!((List.range 5).all fun k => dDim c k == dDim out k || (k == 1 && dDim c 1 == 1))) eShape]

/-! MATMUL and MATMUL_LR. -/

/-- A batch index as an operand with broadcast dimensions takes it (R130). -/
def batchIdx (d : Desc) (x : Idx) (i0 i1 : Nat) : Idx :=
  i0 :: i1 :: (List.range 3).map fun k => if dDim d (k + 2) = 1 then 0 else ix x (k + 2)

/-- The static factor of an operand element, where its tensor has one (R151). -/
def State.factorAt (s : State) (p : Nat) (v : View) (i : Idx) : Option Word :=
  if dScaleMode v.d = 0 then none else some (s.rdFactor p v i)

/-- Whether an element of A stands as +0 in the main pass (R158). -/
def State.dropped (s : State) (p : Nat) (v : View) (i : Idx) : Bool :=
  dCap v.d != 0 && ((s.listed p v i).isSome || s.promoted p v i)

/-- The operands of MATMUL_LR's correction (R160): L and Rc. -/
structure LowRank where
  l : View
  rc : View

/-- The reduction of output element x = (n, m, batch). -/
def State.redOf (s : State) (i : Iss) (a b : View) (wide : Option View) (lr : Option LowRank) (h : Share)
    (start : Acc) (x : Idx) : Red :=
  let p := i.p
  let k := dDim a.d 0
  let ai := fun (k : Nat) => ixSet x 0 k
  let bi := fun (k : Nat) => batchIdx b.d x (ix x 0) k
  let xh := fun (k : Nat) => s.rdVec p a (ai k)
  let xb := fun (k : Nat) =>
    let v := s.rdExact p a (ai k)
    Elem.bf16.value (Elem.bf16.encode .rne (if dScaleMode a.d = 0 then v else v.mul (fval (s.rdFactor p a (ai k))))).1
  let ks := (List.range (min (h.hi * b.kp) k - h.lo * b.kp)).map fun t => h.lo * b.kp + t
  let bx := fun (k : Nat) =>
    match wide with
    | some w => s.rdVec p w (batchIdx w.d x (ix x 0) k)
    | none => s.rdVec p b (bi k)
  let yRun := fun (w : LowRank) (j : Nat) =>
    let r : Red :=
      { k := k, kp := 64, a := fun k => if ks.contains k then xb k else .num false 0 0, sa := fun _ => 127,
        b := fun k => s.rdElem p w.l (batchIdx w.l.d x j k), sb := fun _ => 127, fa := none, fb := none,
        slot := fun _ => none, listed := fun _ => none, ax := fun _ => 0, an := fun _ => false, bx := fun _ => 0,
        bw := fun _ => (0, false), start := (0, ev0), rank := 0, refRank := 0,
        low := fun _ => (.nan, .nan), lowRef := fun _ _ => 0, rcRef := fun _ => 0, refB := true, yEv := ev0 }
    let lo := h.lo * b.kp / 64
    r.run lo (cdiv (min (h.hi * b.kp) k) 64) (fZero, ev0)
  let y := fun (w : LowRank) (j : Nat) => fval (roundBf16 (yRun w j).1)
  { k := k
    kp := b.kp
    a := fun k => if s.dropped p a (ai k) then .num false 0 0 else s.rdElem p a (ai k)
    sa := fun k => s.rdScale p a (ai k)
    b := fun k => s.rdElem p b (bi k)
    sb := fun k => s.rdScale p b (bi k)
    fa := s.factorAt p a (ai 0)
    fb := s.factorAt p b (bi 0)
    slot := fun k =>
      if dCap a.d ≠ 0 ∧ s.promoted p a (ai k) then
        some ((List.range 32).map (fun j => (s.slotElem p a (ai (k + j))).1), (s.slotElem p a (ai k)).2)
      else none
    listed := fun k => if dCap a.d = 0 then none else s.listed p a (ai k)
    ax := xh
    an := fun k => s.codeNan p a (ai k)
    bx := bx
    bw := fun k => (bx k, wide.isNone && s.rdScale p b (bi k) == 255)
    start := start
    rank := match lr with | some w => dDim w.l.d 0 | none => 0
    refRank := match lr with | some w => (if wide.isSome then 0 else dDim w.l.d 0) | none => 0
    low := fun j =>
      match lr with
      | some w => (y w j, s.rdElem p w.rc (batchIdx w.rc.d x (ix x 0) j))
      | none => (.nan, .nan)
    lowRef := fun k j => match lr with | some w => s.rdVec p w.l (batchIdx w.l.d x j k) | none => fZero
    rcRef := fun j => match lr with | some w => s.rdVec p w.rc (batchIdx w.rc.d x (ix x 0) j) | none => fZero
    refB := wide.isNone
    yEv := match lr with
      | some w => (List.range (dDim w.l.d 0)).foldl (fun e j => e.or (yRun w j).2) ev0
      | none => ev0 }

/-- The passes over which a member reads B: its own, and for the Ocent-format reference, whose scales are formed over the whole
K, all of them (R165). -/
def Iss.readsB (i : Iss) (h : Share) (k kp : Nat) : Share :=
  if cOcent i.ins then { h with lo := 0, hi := passCount k kp } else h

/-- B's T5 blocks that a member reads: the columns of its output elements, the K positions of its passes. -/
def usedB (b : View) (els : List Idx) (r : Share) (k : Nat) : List Idx :=
  if b.fmt ≠ .t5 then []
  else
    let kb := (List.range (cdiv (min (r.hi * b.kp) k - r.lo * b.kp) 32)).map fun t => r.lo * b.kp + 32 * t
    els.foldr (fun x l => (kb.map fun k => batchIdx b.d x (ix x 0) k) ++ l) []

/-- The output elements of a member and their values. -/
structure ArrayOut where
  out : View
  els : List Idx
  red : Idx → Red
  share : Share
  t5 : Nat
  tiles : List (List Idx)
  walk : List Nat

/-- An unspecified word, by position (R443). -/
def State.freeWord (s : State) (l : Nat) : Word :=
  BitVec.ofNat 32 (leNat ((List.range 4).map fun k => Config.freeByte s.fresh (4 * l + k)))

/-- Whether OUT overlaps A or B, the operands given. The results of such an instruction lie outside R88 (R132): they are free
values (notes/assumptions/68.md). -/
def outClash (out : View) (ins : List View) : Bool :=
  footClash (out.foot true) (ins.foldr (fun v l => v.foot false ++ l) [])

/-- The effect of an array instruction: events, output through the quantiser (exact-mode adds are issued as
operations), checker samples. Where several members' contributions make up the output (XACC, SPLIT = 0b10), R167 does not say
what d and w are: DESIGN CHOICE, the member's own contribution and R164 over its own passes (notes/assumptions/73.md). -/
def State.arrayEff (s : State) (i : Iss) (o : ArrayOut) (bad clash : Bool) : State :=
  let ev := o.els.foldl (fun e x => e.or ((o.red x).value i.ins o.share).2) ev0
  let val := fun (x : Idx) => if clash then s.freeWord (ravel o.out.dims x) else ((o.red x).value i.ins o.share).1
  let ref := fun (x : Idx) =>
    ((o.red x).ref ((o.red x).positions o.share.lo o.share.hi) (if o.share.first then (o.red x).start else (fZero, ev0))).1
  let s1 := if iXacc i.ins then s else s.writeOut i o.out val bad
  let wr := fun (x : Idx) =>
    if iXacc i.ins then val x
    else
      let m := (putOut (i.outSpec s o.out val) (s.memOf o.out.base.space)).1.m
      (if o.out.base.space = 3 then { s with host := m } else { s with mem := m }).rdVec i.p o.out x
  let s1 := if (iXacc i.ins && bad) || clash then s1.bump else s1
  (s1.logEv i.f ev o.t5).addSamples i.f (i.samples o.walk o.tiles ref wr)

/-- The tensors of a MATMUL-shaped product. -/
def mmDims (a b out : Desc) : Nat :=
  when (!(dDim a 0 == dDim b 1 && dDim out 0 == dDim b 0 && dDim out 1 == dDim a 1 &&
    (List.range 3).all fun k =>
      dDim a (k + 2) == dDim out (k + 2) && (dDim b (k + 2) == dDim a (k + 2) || dDim b (k + 2) == 1))) eShape

/-- Operand slots of a product: A streamed along its DIM0, B stationary along its DIM1. -/
def aSlot (outlier : Bool) : SlotRule := { layouts := [0], kp := 0, axis := some 0, outlier := outlier, host := true }
def bSlot (kp : Nat) : SlotRule := { layouts := [0, 4], kp := kp, axis := some 1, outlier := false, host := true }

/-- The wide master's checks (R163): BF16 or FP32, PLAIN, with B's dimensions. -/
def State.wideCode (s : State) (i : Iss) (b : Desc) : Nat :=
  if !cWideEn i.ins then 0
  else
    let w := i.desc (cWide i.ins)
    leastCode
      [s.slotCode i (cWide i.ins) plainSlot, when (!(dFmt w == .plain .bf16 || dFmt w == .plain .fp32)) eFormatCode,
       when (dDims w != dDims b) eShape]

/-- L and Rc of MATMUL_LR (R160). -/
def State.lrCode (s : State) (i : Iss) (a b : Desc) : Nat :=
  let kl := iAux i.ins
  let kr := iMod i.ins / 256
  let l := i.desc kl
  let rc := i.desc kr
  let r := dDim l 0
  leastCode
    [when (!(dFmt b == .mx .e2m1 || dFmt b == .plain .int4 || dFmt b == .t5)) eFormatPair,
     s.slotCode i kl { plainSlot with layouts := [0, 4], kp := 64 }, s.slotCode i kr { plainSlot with layouts := [0, 4], kp := 64 },
     when (dFmt l != .plain .bf16 || dFmt rc != .plain .bf16) eFormatPair,
     when (!(r % 16 == 0 && decide (16 ≤ r) && decide (r ≤ 128) && dDim l 1 == dDim a 0 && dDim rc 0 == dDim b 0 &&
       dDim rc 1 == r && (List.range 3).all fun k =>
         (dDim l (k + 2) == dDim a (k + 2) || dDim l (k + 2) == 1) &&
           (dDim rc (k + 2) == dDim a (k + 2) || dDim rc (k + 2) == 1))) eShape]

/-- The output of a product: through the quantiser, or exact-mode adds. R276 judges an FP32 output alone;
XACC on another format is R107's SPLIT_MODE (DEDUCED, notes/assumptions/37.md). -/
def State.arrayOutCode (s : State) (i : Iss) (layouts : List Nat) : Nat :=
  if iXacc i.ins && dFmt (i.desc (iOut i.ins)) == .plain .fp32 then s.exactCode i (iOut i.ins) layouts
  else s.outCode i (iOut i.ins) { plainSlot with layouts := layouts }

/-- The plan of MATMUL (`lr` false) or MATMUL_LR. -/
def planMm (lr : Bool) (s : State) (i : Iss) : Plan :=
  let kp := i.kpOf (iA i.ins) (iB i.ins)
  let a := i.view (iA i.ins) 0
  let b := i.view (iB i.ins) kp
  let out := i.view (iOut i.ins) 0
  let c := i.view (iC i.ins) 0
  let low : Option LowRank := if lr then some { l := i.view (iAux i.ins) 64, rc := i.view (iMod i.ins / 256) 64 } else none
  let wide : Option View := if cWideEn i.ins then some (i.view (cWide i.ins) 0) else none
  let useC := bit (iMod i.ins) 0
  let code := leastCode
    [useCode i.ins true true true useC lr (if lr then 0xFF01 else 1) (iChk i.ins || iRef i.ins) true,
     ctlCode i.ins true true eSplitMode true true, refCode i.ins false, xaccCode i.ins out.d,
     s.slotCode i (iA i.ins) (aSlot true), s.slotCode i (iB i.ins) (bSlot kp), s.arrayOutCode i [0], cCode s i [0] out.d,
     s.wideCode i b.d, pairCode a.d b.d, mmDims a.d b.d out.d, when (dDim a.d 0 % 32 != 0) eKAlign,
     (if lr then s.lrCode i a.d b.d else 0)]
  let h := i.passes (dDim a.d 0) kp
  let els := (allIdx out.dims).filter (i.share out.dims)
  let o : ArrayOut :=
    { out := out, els := els, red := fun x => s.redOf i a b wide low h (s.startAt i out c x) x, share := h,
      t5 := if iRef i.ins && wide.isSome then 0 else s.t5Count i.p b (usedB b els (i.readsB h (dDim a.d 0) kp) (dDim a.d 0)), tiles := i.mmTiles out.dims,
      walk := i.mmWalk out.dims }
  let ins := [a] ++ (if iRef i.ins && wide.isSome then [] else [b]) ++ (if useC then [c] else []) ++ wide.toList ++
    (match low with | some w => [w.l, w.rc] | none => []) ++ (if iAcc i.ins then [out] else [])
  let pl := s.planStd ins (if iXacc i.ins then [] else [out]) code (fun t => t.arrayEff i o (ins.any s.viewPoisoned) (outClash out [a, b]))
  if iXacc i.ins then
    { pl with foot := pl.foot ++ s.exactFoot i (iOut i.ins),
              near := pl.near ++ (if s.viewOwn i.p out then out.nearRanges else []),
              todo := i.xaccJobs out.d fun x =>
                if pl.bad || outClash out [a, b] then s.freeWord (ravel out.dims x) else ((o.red x).value i.ins h).1 }
  else pl

/-- MATMUL (05, R123 to R137). -/
def execMatmul (f : FacetId) (s : State) : Host.Outcome State Fault Refusal :=
  .next (s.tryIssue f 0x10 .array (planMm false))

/-- MATMUL_LR (R160 to R162). -/
def execMatmulLr (f : FacetId) (s : State) : Host.Outcome State Fault Refusal :=
  .next (s.tryIssue f 0x11 .array (planMm true))

end Sys2Proof.Machine
end

