-- ==== Sys2Proof/Machine/Vector.lean ====
section
/-! DEFINITION. The vector unit (spec/07_vector_and_tangent.md): VEW, VROWSTAT, NORM, VFUNC, SOFTMAX, and QUANT
(spec/06_narrow_formats.md R145). -/

namespace Sys2Proof.Machine

/-- A vector operand: PLAIN, CB32 or CB16; T5 faults FORMAT_PAIR (R171). -/
def State.vecCode (s : State) (i : Iss) (k : Nat) : Nat :=
  leastCode [s.slotCode i k (vecSlot [0, 1, 2]), when (dFmt (i.desc k) == .t5) eFormatPair]
def State.vecOutCode (s : State) (i : Iss) : Nat := s.outCode i (iOut i.ins) (vecSlot [0, 1, 2])

/-- The checks every vector opcode shares (R469, R163). -/
def vecCtl (i : Ins) : Nat := leastCode [ctlCode i false false eRsvdBits true false, chkCode i]

/-- Whether an instruction reads an element of some views under a scale code of 0xFF: SCALE_NAN. -/
def State.codesNan (s : State) (p : Nat) (l : List (View × List Idx)) : Bool :=
  l.any fun x => x.1.fmt.isMx && x.2.any (s.codeNan p x.1)

/-- The member's elements of an output. -/
def Iss.mine (i : Iss) (v : View) : List Idx := (allIdx v.dims).filter (i.share v.dims)

/-- Whether two tensors coincide exactly (R172). -/
def coincides (d e : Desc) : Bool :=
  dAddr d == dAddr e && dFmt d == dFmt e && dLayout d == dLayout e && dDims d == dDims e &&
    (List.range (dNdim d)).all fun k => dStride d k == dStride e k

/-- Whether OUT overlaps an input otherwise than R172 allows, which places the results outside R88: they are free values
(notes/assumptions/68.md). VEW, NORM, VFUNC and SOFTMAX may have OUT in A's place; an input that is A counts as A. -/
def Iss.vecClash (i : Iss) (out : View) (ins : List View) : Bool :=
  let inPlace := ([0x20, 0x22, 0x23, 0x24].contains (iOpcode i.ins)) && coincides (i.desc (iA i.ins)) out.d
  ins.any fun v => viewsMeet out.rows v.rows && !(inPlace && coincides v.d out.d)

/-- The plan of a vector instruction: the inputs with the elements read, the output's value per element, and
what it logs. -/
def State.planVec (s : State) (i : Iss) (ins : List (View × List Idx)) (code : Nat) (val : Idx → Word)
    (log : State → State) : Plan :=
  let out := i.view (iOut i.ins) 0
  let vs := ins.map fun x => x.1
  let clash := i.vecClash out vs
  s.planStd vs [out] code fun t =>
    let val := if clash then fun x => t.freeWord (ravel out.dims x) else val
    log (((t.writeOut i out val (vs.any s.viewPoisoned)).bumpIf clash).flag (.fctNumLog i.f) 3 (s.codesNan i.p ins))

/-! VEW (R174, R175). -/

/-- A sub-operation on one element; for ROTATE, b and c are those of the pair's even index. -/
def vewOp (op : Nat) (even : Bool) (a other b c w : Word) : Word :=
  match op with
  | 0 => a
  | 1 => fadd a b
  | 2 => fsub a b
  | 3 => fmul a b
  | 4 => fmax a b
  | 5 => fmin a b
  | 6 => fadd a w
  | 7 => fmul a w
  | 8 => fadd (fmul a b) c
  | 9 => fadd (fmul a w) b
  | 0x0A => fabs a
  | 0x0B => fneg a
  | 0x0C => fmax a fZero
  | 0x0D => fadd (fmul a (fadd fOne b)) c
  | _ => if even then fsub (fmul a b) (fmul other c) else fadd (fmul other c) (fmul a b)

def planVew (s : State) (i : Iss) : Plan :=
  let op := iMod i.ins
  match vewUses op with
  | (ub, uc, uw) =>
    let a := i.view (iA i.ins) 0
    let b := i.view (iB i.ins) 0
    let c := i.view (iC i.ins) 0
    let out := i.view (iOut i.ins) 0
    let code := leastCode
      [useCode i.ins true true ub uc false 0xFF uw true, vecCtl i.ins, when (decide (0x0E < op)) eRsvdBits,
       s.vecCode i (iA i.ins), (if ub then s.vecCode i (iB i.ins) else 0), (if uc then s.vecCode i (iC i.ins) else 0),
       s.vecOutCode i,
       when (a.dims != out.dims || (ub && !(bcastOk b.d out.d)) || (uc && !(bcastOk c.d out.d)) ||
         (op == 0x0E && dDim a.d 0 % 2 != 0)) eShape]
    let w : Word := BitVec.ofNat 32 (iImm i.ins)
    let pair := fun (x : Idx) => if op = 0x0E then ixSet x 0 (ix x 0 / 2 * 2) else x
    let val := fun (x : Idx) =>
      let o := if ix x 0 % 2 = 0 then ixSet x 0 (ix x 0 + 1) else ixSet x 0 (ix x 0 - 1)
      vewOp op (ix x 0 % 2 == 0) (s.rdVec i.p a x) (if op = 0x0E then s.rdVec i.p a o else fZero)
        (if ub then s.rdVec i.p b (bcast b.d (pair x)) else fZero) (if uc then s.rdVec i.p c (bcast c.d (pair x)) else fZero) w
    let els := i.mine out
    s.planVec i ([(a, els)] ++ (if ub then [(b, els.map fun x => bcast b.d (pair x))] else []) ++
      (if uc then [(c, els.map fun x => bcast c.d (pair x))] else [])) code val id

/-- VEW. -/
def execVew (f : FacetId) (s : State) : Host.Outcome State Fault Refusal := .next (s.tryIssue f 0x20 .vector planVew)

/-! Row statistics (R177 to R179). -/

/-- One lane's sum, sum of squares and maximum. -/
structure Lane where
  s : Word
  q : Word
  m : Word

def lane0 : Lane := { s := fZero, q := fZero, m := fNegInf }

/-- The elements of lane `i` in order: i, i + 512, … -/
def laneElems (l : List Word) (i : Nat) : List Word :=
  (List.range (cdiv (l.length - i) 512)).map fun j => l.getD (i + 512 * j) 0

/-- Pairs of a list combined. -/
def pairList {α : Type} (f : α → α → α) : List α → List α
  | a :: b :: t => f a b :: pairList f t
  | l => l
/-- A list of 512 lanes combined in nine levels. -/
def laneTree {α : Type} (f : α → α → α) : Nat → List α → List α
  | 0, l => l
  | n + 1, l => laneTree f n (pairList f l)

def laneStep (a : Lane) (v : Word) : Lane := { s := fadd a.s v, q := fadd a.q (fmul v v), m := fmax a.m v }
def laneJoin (a b : Lane) : Lane := { s := fadd a.s b.s, q := fadd a.q b.q, m := fmax a.m b.m }

/-- The statistics of a list in the fixed lane order (R179). -/
def rowStat (l : List Word) : Lane :=
  (laneTree laneJoin 9 ((List.range 512).map fun i => (laneElems l i).foldl laneStep lane0)).headD lane0

/-- The chosen statistics, in the order of a stage set. -/
def chosen (mask : Nat) (a : Lane) : List Word :=
  (if bit mask 0 then [a.s] else []) ++ (if bit mask 1 then [a.q] else []) ++ (if bit mask 2 then [a.m] else [])

def planVrowstat (s : State) (i : Iss) : Plan :=
  let md := iMod i.ins
  let mask := md % 8
  let grp := bits md 4 3
  let gn := bits md 15 8 + 1
  let a := i.view (iA i.ins) 0
  let out := i.view (iOut i.ins) 0
  let c := dDim a.d 0
  let n := b2n (bit mask 0) + b2n (bit mask 1) + b2n (bit mask 2)
  let code := leastCode
    [useCode i.ins true true false false false 0xFFFF false false, vecCtl i.ins,
     when (mask == 0 || decide (1 < grp) || bits md 7 5 != 0 || (grp == 0 && bits md 15 8 != 0)) eRsvdBits,
     s.vecCode i (iA i.ins), s.vecOutCode i, when (dFmt out.d != .plain .fp32 || dLayout out.d != 0) eFormatPair,
     when (dDim out.d 0 != n ||
       (if grp = 0 then !((List.range 4).all fun k => dDim out.d (k + 1) == dDim a.d (k + 1))
        else dDim a.d 4 != 1 || c % gn != 0 || dDim out.d 1 != gn)) eShape]
  let inR := i.share a.dims
  let rowOf := fun (x : Idx) => if grp = 0 then ixSet x 0 0 else [0, ix x 0 / (c / gn), 0, 0, 0]
  let els := (allIdx a.dims).filter inR
  let write := fun (x : Idx) =>
    if grp = 0 then els.any fun e => rowOf e == ixSet x 0 0
    else ix x 2 == 0 && ix x 3 == 0 && ix x 4 == 0
  let stat := fun (x : Idx) =>
    let row := if grp = 0 then ixSet x 0 0 else [0, ix x 1, 0, 0, 0]
    rowStat ((els.filter fun e => rowOf e == row).map (s.rdVec i.p a))
  let val := fun (x : Idx) => (chosen mask (stat x)).getD (ix x 0) 0
  let bad := s.viewPoisoned a
  let o : OutSpec := { i.outSpec s out val with mine := write }
  s.planStd [a] [out] code fun t =>
    match putOut o (t.memOf out.base.space) with
    | (x, _) =>
      ((t.storeOut i out.base.space x bad).flag (.fctNumLog i.f) 3 (s.codesNan i.p [(a, els)])).flag (.fctVLog i.f) 0
        ((allIdx out.dims).any fun x => write x && fIsNaN (val x))

/-- VROWSTAT. -/
def execVrowstat (f : FacetId) (s : State) : Host.Outcome State Fault Refusal :=
  .next (s.tryIssue f 0x21 .vector planVrowstat)

/-! Normalisation (R180, R181). -/

/-- A word over a count, correctly rounded. -/
def fdivNat (a : Word) (n : Nat) : Word := f32 ((fval a).div (.num false n 0))

/-- What a row or group gives its elements: the mean, the reciprocal root, whether the variance was raised to +0, and whether the
root's argument was no NaN and its result is (R183). -/
structure NormRow where
  m : Word
  r : Word
  neg : Bool
  dom : Bool

def normRow (kind : Nat) (n : Nat) (eps sum sumsq : Word) : NormRow :=
  let m := fdivNat sum n
  let q := fdivNat sumsq n
  let v := fsub q (fmul m m)
  let neg := kind != 0 && flt v fZero
  let arg := fadd (if kind = 0 then q else if neg then fZero else v) eps
  let r := rsqrtn arg
  { m := m, r := r, neg := neg, dom := fIsNaN r && !fIsNaN arg }

/-- A normalised element. -/
def normOne (kind : Nat) (w : NormRow) (x gain shift : Word) : Word :=
  fadd (fmul (fmul (if kind = 0 then x else fsub x w.m) w.r) gain) shift

def planNorm (s : State) (i : Iss) : Plan :=
  let md := iMod i.ins
  let kind := md % 4
  let gn := bits md 15 8 + 1
  let a := i.view (iA i.ins) 0
  let b := i.view (iB i.ins) 0
  let c := i.view (iC i.ins) 0
  let out := i.view (iOut i.ins) 0
  let ch := dDim a.d 0
  let parts := dDim b.d 2
  let code := leastCode
    [useCode i.ins true true true true false 0xFFFF true true, vecCtl i.ins,
     when (kind == 3 || bits md 7 2 != 0 || (kind != 2 && bits md 15 8 != 0)) eRsvdBits,
     s.vecCode i (iA i.ins), s.vecCode i (iB i.ins), s.vecCode i (iC i.ins), s.vecOutCode i,
     when (dFmt b.d != .plain .fp32 || !(dFmt c.d == .plain .fp32 || dFmt c.d == .plain .bf16)) eFormatPair,
     when (out.dims != a.dims || dDim b.d 0 != 2 || dDim c.d 0 != ch || decide (dDim c.d 1 < 2) ||
       (if kind = 2 then dDim b.d 1 != gn || parts == 0 || decide (24 < parts) || ch % gn != 0
        else !((List.range 4).all fun k => dDim b.d (k + 1) == dDim a.d (k + 1)))) eShape]
  let n := if kind = 2 then ch / gn * (dDim a.d 1 * dDim a.d 2 * dDim a.d 3) else ch
  let rowOf := fun (x : Idx) => if kind = 2 then [0, ix x 0 / (ch / gn), 0, 0, 0] else ixSet x 0 0
  let statOf := fun (row : Idx) (w : Nat) =>
    if kind = 2 then
      (List.range (parts - 1)).foldl (fun t k => fadd t (s.rdVec i.p b [w, ix row 1, k + 1, 0, 0]))
        (s.rdVec i.p b [w, ix row 1, 0, 0, 0])
    else s.rdVec i.p b (ixSet row 0 w)
  let eps : Word := BitVec.ofNat 32 (iImm i.ins)
  let row := fun (x : Idx) => normRow kind n eps (statOf (rowOf x) 0) (statOf (rowOf x) 1)
  let val := fun (x : Idx) =>
    normOne kind (row x) (s.rdVec i.p a x) (s.rdVec i.p c [ix x 0, 0, 0, 0, 0]) (s.rdVec i.p c [ix x 0, 1, 0, 0, 0])
  let els := i.mine out
  let key := fun (x : Idx) => if kind = 2 then ix (rowOf x) 1 else ravel a.dims (rowOf x)
  let neg := ((els.filter fun x => (row x).neg).foldl (fun l x => insNat (key x) l) []).length
  s.planVec i [(a, els), (b, []), (c, [])] code val fun t =>
    ((t.flag (.fctVLog i.f) 0 (els.any fun x => fIsNaN (val x))).flag (.fctVLog i.f) 2 (els.any fun x => (row x).dom)).count
      (.fctNegvarCnt i.f) neg

/-- NORM. -/
def execNorm (f : FacetId) (s : State) : Host.Outcome State Fault Refusal := .next (s.tryIssue f 0x22 .vector planNorm)

/-! The tangent unit (R182 to R187). -/

def planVfunc (s : State) (i : Iss) : Plan :=
  let md := iMod i.ins
  let fn := md % 256
  let oc := bit md 8
  let a := i.view (iA i.ins) 0
  let out := i.view (iOut i.ins) 0
  let code := leastCode
    [useCode i.ins true true false false false 0x1FF false true, vecCtl i.ins,
     when (decide (0x0B < fn) || (oc && !(ocentOffered fn))) eRsvdBits, s.vecCode i (iA i.ins), s.vecOutCode i,
     when (a.dims != out.dims) eShape]
  let val := fun (x : Idx) => if oc then ocentFn fn (s.rdVec i.p a x) else nativeFn fn (s.rdVec i.p a x)
  let els := i.mine out
  s.planVec i [(a, els)] code val fun t =>
    t.flag (.fctVLog i.f) 2 (els.any fun x => fIsNaN (val x) && !(fIsNaN (s.rdVec i.p a x)))

/-- VFUNC. -/
def execVfunc (f : FacetId) (s : State) : Host.Outcome State Fault Refusal := .next (s.tryIssue f 0x23 .vector planVfunc)

/-! Softmax (R188). -/

/-- A sum over a row in lane order (R179). -/
def laneSum (l : List Word) : Word :=
  (laneTree fadd 9 ((List.range 512).map fun i => (laneElems l i).foldl fadd fZero)).headD fZero
/-- The maximum of a row in lane order. -/
def laneMax (l : List Word) : Word :=
  (laneTree fmax 9 ((List.range 512).map fun i => (laneElems l i).foldl fmax fNegInf)).headD fNegInf

/-- exp2 of a scaled difference. -/
def expTerm (x m kappa : Word) : Word := exp2n (fmul (fsub x m) kappa)

/-- The online form's lane step and join: pairs (m, l). -/
def onlineStep (kappa : Word) (a : Word × Word) (x : Word) : Word × Word :=
  if x = fNegInf then a
  else if flt a.1 x then
    (x, fadd (if a.1 = fNegInf then fZero else fmul a.2 (expTerm a.1 x kappa)) fOne)
  else (a.1, fadd a.2 (expTerm x a.1 kappa))
def onlineJoin (kappa : Word) (a b : Word × Word) : Word × Word :=
  let m := fmax a.1 b.1
  let t := fun (c : Word × Word) => if c.1 = fNegInf then fZero else fmul c.2 (expTerm c.1 m kappa)
  (m, fadd (t a) (t b))

/-- A softmax row: its elements, and whether it held NaN or +∞. -/
def softmaxRow (online : Bool) (kappa : Word) (l : List Word) : List Word × Bool :=
  if l.any fun x => fIsNaN x || x == fInf then (l.map fun _ => fNaN, true)
  else
    let ml : Word × Word :=
      if online then
        (laneTree (onlineJoin kappa) 9
          ((List.range 512).map fun i => (laneElems l i).foldl (onlineStep kappa) (fNegInf, fZero))).headD (fNegInf, fZero)
      else
        let mx := laneMax l
        (mx, laneSum (l.map fun x => expTerm x mx kappa))
    if ml.1 = fNegInf then (l.map fun _ => fZero, false)
    else
      let r := recipn ml.2
      (l.map fun x => if x = fNegInf then fZero else fmul (expTerm x ml.1 kappa) r, false)

def planSoftmax (s : State) (i : Iss) : Plan :=
  let a := i.view (iA i.ins) 0
  let out := i.view (iOut i.ins) 0
  let code := leastCode
    [useCode i.ins true true false false false 1 true true, vecCtl i.ins, s.vecCode i (iA i.ins), s.vecOutCode i,
     when (a.dims != out.dims) eShape]
  let sc : Word := if iImm i.ins = 0 then fOne else BitVec.ofNat 32 (iImm i.ins)
  let kappa := fmul sc 0x3FB8_AA3B
  let rowAt := fun (x : Idx) => softmaxRow (bit (iMod i.ins) 0) kappa
    ((List.range (dDim a.d 0)).map fun k => s.rdVec i.p a (ixSet x 0 k))
  let els := i.mine out
  let rowEls := els.foldr (fun x l => ((List.range (dDim a.d 0)).map fun k => ixSet x 0 k) ++ l) []
  s.planVec i [(a, rowEls)] code (fun x => (rowAt x).1.getD (ix x 0) 0) fun t =>
    t.flag (.fctVLog i.f) 1 (els.any fun x => (rowAt x).2)

/-- SOFTMAX. -/
def execSoftmax (f : FacetId) (s : State) : Host.Outcome State Fault Refusal :=
  .next (s.tryIssue f 0x24 .vector planSoftmax)

/-! QUANT (R145, R166, R167). -/

/-- The quantisation tiles of a tensor with the member's elements of each. -/
def Iss.quantTiles (i : Iss) (d : Desc) : List (List Idx) :=
  let dims := dDims d
  (allIdx (tileGrid d)).map fun t =>
    ((allIdx [512, 8, 1, 1, 1]).map fun e => [ix t 0 * 512 + ix e 0, ix t 1 * 8 + ix e 1, ix t 2, ix t 3, ix t 4]).filter
      fun x => decide (ix x 0 < dDim d 0) && decide (ix x 1 < dDim d 1) && i.share dims x

def planQuant (s : State) (i : Iss) : Plan :=
  let a := i.view (iA i.ins) 0
  let out := i.view (iOut i.ins) 0
  let f := dFmt a.d
  let code := leastCode
    [useCode i.ins true true false false false 0 (iChk i.ins || iRef i.ins) true,
     ctlCode i.ins false false eRsvdBits true false, refCode i.ins true, s.vecCode i (iA i.ins), s.vecOutCode i,
     when (!(f == .plain .fp32 || f == .plain .bf16 || f == .plain .fp16)) eFormatPair, when (a.dims != out.dims) eShape]
  let val := s.rdVec i.p a
  let m := (putOut (i.outSpec s out val) (s.memOf out.base.space)).1.m
  let after := if out.base.space = 3 then { s with host := m } else { s with mem := m }
  let tiles := i.quantTiles out.d
  let sam := (i.samples (List.range tiles.length) tiles val (after.rdVec i.p out)).filter fun x => !x.reference.isEmpty
  s.planVec i [(a, [])] code val fun t => t.addSamples i.f sam

/-- QUANT. -/
def execQuant (f : FacetId) (s : State) : Host.Outcome State Fault Refusal := .next (s.tryIssue f 0x25 .vector planQuant)

end Sys2Proof.Machine
end

