-- ==== Sys2Proof/Machine/Conv.lean ====
section
/-! DEFINITION. Convolution and pooling (spec/09_convolution.md R227 to R240): kind-1 geometry, the implicit
product of CONV with its padding and groups, POOL and UPSAMPLE. -/

namespace Sys2Proof.Machine

/-! Geometry (R227, R228). -/

/-- One axis: upsampling factor, stride, dilation, taps, padding before and after. -/
structure Axis where
  u : Nat
  s : Nat
  d : Nat
  k : Nat
  lo : Nat
  hi : Nat

/-- The axes of a kind-1 descriptor: 1 is W, 2 is H, 3 is T, as the dimensions of R112. -/
def geoAxis (g : Desc) (a : Nat) : Axis :=
  let j := 3 - a
  { u := 2 ^ fld g (277 + 2 * j) (276 + 2 * j)
    s := fld g (140 + 16 * j) (128 + 16 * j)
    d := fld g (188 + 16 * j) (176 + 16 * j)
    k := fld g (231 + 8 * j) (224 + 8 * j)
    lo := fld g (47 + 32 * j) (32 + 32 * j)
    hi := fld g (63 + 32 * j) (48 + 32 * j) }
def geoGroups (g : Desc) : Nat := fld g 275 256 + 1
def geoPad (g : Desc) : Nat := fld g 249 248
def geoPadValue (g : Desc) : Word := BitVec.ofNat 32 (fld g 31 0)
def geoTaps (g : Desc) : Nat := (geoAxis g 1).k * (geoAxis g 2).k * (geoAxis g 3).k

/-- The output extent of an axis (R228). -/
def Axis.out (a : Axis) (i : Nat) : Int :=
  ((i * a.u + a.lo + a.hi : Nat) - (a.d * (a.k - 1) : Nat) - 1 : Int) / (a.s : Int) + 1

/-- The checks of a kind-1 descriptor; POOL takes no groups and no upsampling. -/
def geoCode (pool : Bool) (g : Desc) : Nat :=
  let axes := [geoAxis g 1, geoAxis g 2, geoAxis g 3]
  if dKind g ≠ 1 then leastCode [when (dVer g != 1) eDescVer, eDescKind]
  else
    leastCode
      [when (dVer g != 1) eDescVer,
       when (fld g 511 480 != 0 || fld g 475 465 != 0 || fld g 462 282 != 0 || fld g 255 250 != 0 ||
         ((List.range 6).any fun k => fld g (143 + 16 * k) (141 + 16 * k) != 0) || geoPad g == 3 ||
         (geoPad g != 1 && geoPadValue g != 0) || (pool && fld g 281 256 != 0)) eRsvdBits,
       when (axes.any fun a => a.k == 0 || decide (64 < a.k) || a.s == 0 || decide (4096 < a.s) || a.d == 0 ||
         decide (4096 < a.d)) eShape,
       when (decide (2 ^ 20 < geoGroups g)) eShape]

/-- Whether OUT's extents follow R228. -/
def geoShape (g a out : Desc) : Bool :=
  dDim a 4 == dDim out 4 && [1, 2, 3].all fun x =>
    decide ((geoAxis g x).out (dDim a x) = (dDim out x : Int)) && decide (1 ≤ (geoAxis g x).out (dDim a x))

/-- Where a tap falls along one axis (R231, R232): in range, and the index read, clamped where it is not. -/
def Axis.pos (a : Axis) (i o j : Nat) : Bool × Nat :=
  let x : Int := (o * a.s : Nat) - (a.lo : Int) + (j * a.d : Nat)
  if x < 0 then (false, 0)
  else if x < (i * a.u : Nat) then (true, x.toNat / a.u)
  else (false, i - 1)

/-- The position a tap reads for an output position: whether all axes are in range, and the input index with
channel 0. -/
def tapAt (g a : Desc) (x : Idx) (tap : Nat) : Bool × Idx :=
  let kw := (geoAxis g 1).k
  let kh := (geoAxis g 2).k
  let w := (geoAxis g 1).pos (dDim a 1) (ix x 1) (tap % kw)
  let h := (geoAxis g 2).pos (dDim a 2) (ix x 2) (tap / kw % kh)
  let t := (geoAxis g 3).pos (dDim a 3) (ix x 3) (tap / kw / kh)
  (w.1 && h.1 && t.1, [0, w.2, h.2, t.2, ix x 4])

/-- The pad element of a channel (R232): its exact value and its scale code, as the quantiser would write PAD_VALUE in
A's format, scale mode and static scale, to nearest. -/
def State.padElem (s : State) (p : Nat) (a : View) (v : Word) (ch : Nat) : Val × Nat :=
  match a.fmt with
  | .mx e =>
    let q := quantBlock e (List.replicate 32 v) (List.replicate 32 .rne)
    (e.value (q.2.1.headD 0), q.1)
  | f =>
    let e := f.elem
    let w := s.rdFactor p a [ch, 0, 0, 0, 0]
    if dScaleMode a.d = 0 then (e.value (e.encode .rne (fval v)).1, 127)
    else if !fPosNormal w then (e.value e.nanCode, 127)
    else (e.value (e.encode .rne (fval (fdiv v w))).1, 127)

/-- A padded element as the vector unit and the reference read it. -/
def State.padWord (s : State) (p : Nat) (a : View) (v : Word) (ch : Nat) : Word :=
  let x := s.padElem p a v ch
  let w := f32 (scaled x.1 x.2)
  if dScaleMode a.d = 0 then w else fmul w (s.rdFactor p a [ch, 0, 0, 0, 0])

/-! Groups (R233, R236). -/

/-- How output channels lie in tiles: Cspan, and for a channel its tile, column, and first input channel. -/
structure Group where
  span : Nat
  tiles : Nat
  place : Nat → Nat × Nat × Nat

/-- gt of R236: the largest integer up to n for which gt × Cg is a multiple of b; 0 where there is none. -/
def groupsPerTile (cg b : Nat) : Nat → Nat
  | 0 => 0
  | n + 1 => if (n + 1) * cg % b = 0 then n + 1 else groupsPerTile cg b n

def convGroups (g : Nat) (cin cout b : Nat) : Group :=
  if g = 1 then
    { span := roundUp cin b, tiles := cdiv cout 512, place := fun co => (co / 512, co % 512, 0) }
  else
    let cg := cin / g
    let ng := cout / g
    if ng ≤ 512 then
      let gt := groupsPerTile cg b (512 / max ng 1)
      let live := gt * ng
      { span := gt * cg, tiles := cdiv g gt, place := fun co => (co / live, co % live, co / live * gt * cg) }
    else
      let ct := cdiv ng 512
      { span := cg, tiles := g * ct, place := fun co => (co / ng * ct + co % ng / 512, co % ng % 512, co / ng * cg) }

/-- B's column of an output channel. -/
def Group.col (r : Group) (g co : Nat) : Nat :=
  if g = 1 then co else (r.place co).1 * 512 + (r.place co).2.1

/-- K_ALIGN and SHAPE of a grouped convolution (R229, R236, R133). Where Cg divides b and no whole number of groups in
⌊512 / Ng⌋ fills a multiple of b, R236 names no code: DESIGN CHOICE, K_ALIGN (notes/assumptions/73.md). -/
def groupCode (g cin cout b : Nat) : Nat :=
  if cin % g ≠ 0 ∨ cout % g ≠ 0 then eShape
  else
    let cg := cin / g
    when (g != 1 && ((decide (b ≤ cg) && cg % b != 0) || (decide (cg < b) && b % max cg 1 != 0) ||
      (convGroups g cin cout b).span == 0 || (convGroups g cin cout b).span % b != 0)) eKAlign

/-! CONV (R229 to R237). -/

/-- The reduction of output element x = (channel, w, h, t, n). -/
def State.convRed (s : State) (i : Iss) (g : Desc) (a b : View) (wide : Option View) (r : Group) (start : Acc)
    (x : Idx) : Red :=
  let p := i.p
  let cin := roundUp (dDim a.d 0) (cbBlock (dLayout a.d))
  let first := (r.place (ix x 0)).2.2
  let col := r.col (geoGroups g) (ix x 0)
  let chan := fun (k : Nat) => first + k % r.span
  let src := fun (k : Nat) => tapAt g a.d x (k / r.span)
  let const := fun (k : Nat) => geoPad g == 1 && !(src k).1
  let zero := fun (k : Nat) => decide (cin ≤ chan k) || (geoPad g == 0 && !(src k).1)
  let ai := fun (k : Nat) => ixSet (src k).2 0 (chan k)
  let pad := s.padElem p a (geoPadValue g) 0
  let padW := s.padWord p a (geoPadValue g) 0
  let weight := fun (k : Nat) =>
    match wide with
    | some w => s.rdVec p w [col, k, 0, 0, 0]
    | none => s.rdVec p b [col, k, 0, 0, 0]
  { k := geoTaps g * r.span
    kp := b.kp
    a := fun k => if zero k then .num false 0 0 else if const k then pad.1 else s.rdElem p a (ai k)
    sa := fun k => if zero k then 127 else if const k then pad.2 else s.rdScale p a (ai k)
    b := fun k => if zero k then .num false 0 0 else s.rdElem p b [col, k, 0, 0, 0]
    sb := fun k => if zero k then 127 else s.rdScale p b [col, k, 0, 0, 0]
    fa := s.factorAt p a [0, 0, 0, 0, 0]
    fb := s.factorAt p b [col, 0, 0, 0, 0]
    slot := fun _ => none
    listed := fun _ => none
    ax := fun k => if zero k then fZero else if const k then padW else s.rdVec p a (ai k)
    an := fun k => if zero k then false else if const k then pad.2 == 255 else s.codeNan p a (ai k)
    bx := fun k => if zero k then fZero else weight k
    bw := fun k =>
      if cin ≤ chan k then (fZero, false) else (weight k, wide.isNone && s.rdScale p b [col, k, 0, 0, 0] == 255)
    start := start
    rank := 0
    refRank := 0
    low := fun _ => (.nan, .nan)
    lowRef := fun _ _ => fZero
    rcRef := fun _ => fZero
    refB := wide.isNone
    yEv := ev0 }

/-- The channel tiles of a member's range of channels: without groups they begin at its first index (R129); with groups they
are those of R236. -/
def Group.chTiles (r : Group) (groups : Nat) (b : Nat × Nat) : List (List Nat) :=
  let chans := (List.range (b.2 - b.1)).map fun c => b.1 + c
  ((List.range r.tiles).map fun t => chans.filter fun c => (if groups = 1 then (c - b.1) / 512 else (r.place c).1) == t).filter
    fun c => !c.isEmpty

/-- Output tiles of a member (R129, R166): per batch index, channel tile and brick. -/
def Iss.convTiles (i : Iss) (r : Group) (groups : Nat) (dims : List Nat) : List (List Idx) :=
  let box := i.box dims
  let chTiles := r.chTiles groups (box.getD 0 (0, 0))
  let brick := if 1 < dims.getD 3 1 then [8, 8, 8] else [32, 16, 1]
  let space := [box.getD 1 (0, 1), box.getD 2 (0, 1), box.getD 3 (0, 1), (0, 1), (0, 1)]
  let size := brick ++ [1, 1]
  let n := box.getD 4 (0, 1)
  ((List.range (n.2 - n.1)).map fun k => n.1 + k).foldr (fun nn l =>
    chTiles.foldr (fun cs l =>
      ((List.range (tilesIn space size)).map fun t =>
        (tileElems space size t).foldr (fun e l => (cs.map fun c => [c, ix e 0, ix e 1, ix e 2, nn]) ++ l) []) ++ l) l) []

/-- The order in which a member visits those tiles: its bricks in two or three dimensions within each channel tile (R143). -/
def Iss.convWalk (i : Iss) (r : Group) (groups : Nat) (dims : List Nat) : List Nat :=
  let box := i.box dims
  let len := box.map fun x => x.2 - x.1
  let used := (r.chTiles groups (box.getD 0 (0, 0))).length
  walkTiles (len.getD 4 1 * used)
    (if 1 < dims.getD 3 1 then [cdiv (len.getD 3 1) 8, cdiv (len.getD 2 1) 8, cdiv (len.getD 1 1) 8]
     else [cdiv (len.getD 2 1) 16, cdiv (len.getD 1 1) 32])

/-- C of CONV (R229): DIM0 = Cout, other extents OUT's or 1; OUT's layout, or PLAIN with extents of 1. -/
def State.convC (s : State) (i : Iss) (out : Desc) : Nat :=
  if !(bit (iMod i.ins) 0) then 0
  else
    let c := i.desc (iC i.ins)
    let ones := [1, 2, 3, 4].all fun k => dDim c k == 1
    leastCode
      [s.slotCode i (iC i.ins) { plainSlot with layouts := [0, 1, 2] },
       when (!(dLayout c == dLayout out || (dLayout c == 0 && ones))) eFormatCode,
       when (!(dFmt c == .plain .fp32 || dFmt c == .plain .bf16 || dFmt c == dFmt out)) eFormatPair,
       when (dDim c 0 != dDim out 0 || !(bcastOk c out)) eShape]

def planConv (s : State) (i : Iss) : Plan :=
  let kp := i.kpOf (iA i.ins) (iB i.ins)
  let g := i.desc (iAux i.ins)
  let a := i.view (iA i.ins) 0
  let b := i.view (iB i.ins) kp
  let out := i.view (iOut i.ins) 0
  let c := i.view (iC i.ins) 0
  let useC := bit (iMod i.ins) 0
  let wide : Option View := if cWideEn i.ins then some (i.view (cWide i.ins) 0) else none
  let blk := cbBlock (dLayout a.d)
  let gn := geoGroups g
  let r := convGroups gn (dDim a.d 0) (dDim out.d 0) blk
  let k := geoTaps g * r.span
  let fa := dFmt a.d
  let fb := dFmt b.d
  let cb16 := dLayout a.d == 2
  let code := leastCode
    [useCode i.ins true true true useC true 1 (iChk i.ins || iRef i.ins) true,
     ctlCode i.ins true true eSplitMode true true, refCode i.ins false, xaccCode i.ins out.d,
     geoCode false g,
     s.slotCode i (iA i.ins) { layouts := [1, 2], kp := 0, axis := some 0, outlier := false, host := true },
     s.slotCode i (iB i.ins) (bSlot kp), s.arrayOutCode i [0, 1, 2], s.convC i out.d, s.wideCode i b.d, pairCode a.d b.d,
     when (cb16 && (fa.isMx || fb == .t5 || fa == .plain .int4)) eFormatCode,
     groupCode gn (dDim a.d 0) (dDim out.d 0) blk,
     when (!(geoShape g a.d out.d) || (groupCode gn (dDim a.d 0) (dDim out.d 0) blk == 0 && (dDim b.d 1 != k ||
       dDim b.d 0 != (if gn = 1 then dDim out.d 0 else 512 * r.tiles))) ||
       dDim b.d 2 != 1 || dDim b.d 3 != 1 || dDim b.d 4 != 1) eShape]
  let h := i.passes k kp
  let hb := i.readsB h k kp
  let els := i.mine out
  let start := fun (x : Idx) =>
    if useC then s.startOf i.p c (bcast c.d x) else if iAcc i.ins then s.startOf i.p out x else (fZero, ev0)
  let red := fun (x : Idx) => s.convRed i g a b wide r (start x) x
  let usedCols : List Idx :=
    if fb ≠ .t5 ∨ (iRef i.ins && wide.isSome) = true then []
    else els.foldr (fun x l =>
      (((red x).positions hb.lo hb.hi).filter fun k => k % 32 == 0 &&
        decide ((r.place (ix x 0)).2.2 + k % r.span < roundUp (dDim a.d 0) blk) &&
        (geoPad g != 0 || cOcent i.ins || (tapAt g a.d x (k / r.span)).1)).map
        (fun k => [r.col gn (ix x 0), k, 0, 0, 0]) ++ l) []
  let o : ArrayOut :=
    { out := out, els := els, red := red, share := h, t5 := s.t5Count i.p b usedCols, tiles := i.convTiles r gn out.dims,
      walk := i.convWalk r gn out.dims }
  let ins := [a] ++ (if iRef i.ins && wide.isSome then [] else [b]) ++ (if useC then [c] else []) ++ wide.toList ++ (if iAcc i.ins then [out] else [])
  let pl := s.planStd ins (if iXacc i.ins then [] else [out]) code (fun t => t.arrayEff i o (ins.any s.viewPoisoned) (outClash out [a, b]))
  if iXacc i.ins then
    { pl with foot := pl.foot ++ s.exactFoot i (iOut i.ins),
              near := pl.near ++ (if s.viewOwn i.p out then out.nearRanges else []),
              todo := i.xaccJobs out.d fun x =>
                if pl.bad || outClash out [a, b] then s.freeWord (ravel out.dims x) else ((o.red x).value i.ins h).1 }
  else pl

/-- CONV. -/
def execConv (f : FacetId) (s : State) : Host.Outcome State Fault Refusal := .next (s.tryIssue f 0x13 .array planConv)

/-! POOL and UPSAMPLE (R238 to R240). -/

/-- A window's value: its taps in ascending order, and how many are not in padding. -/
def poolValue (avg exclude : Bool) (taps : List Word) (live : Nat) : Word :=
  if avg then
    let n := if exclude then live else taps.length
    if n = 0 then fZero else fdiv (taps.foldl fadd fZero) (f32OfNat n)
  else taps.foldl fmax fNegInf

/-- One tap of a window: its value, and whether it lies in padding. -/
def State.poolTap (s : State) (p : Nat) (g : Desc) (a : View) (x : Idx) (tap : Nat) : Word × Bool :=
  match tapAt g a.d x tap with
  | (inR, src) =>
    if inR ∨ geoPad g = 2 then (s.rdVec p a (ixSet src 0 (ix x 0)), !inR)
    else if geoPad g = 1 then (s.padWord p a (geoPadValue g) (ix x 0), true)
    else (fZero, true)

def planPool (s : State) (i : Iss) : Plan :=
  let md := iMod i.ins
  let g := i.desc (iAux i.ins)
  let a := i.view (iA i.ins) 0
  let out := i.view (iOut i.ins) 0
  let avg := md % 4 == 1
  let code := leastCode
    [useCode i.ins true true false false true 7 false true, vecCtl i.ins,
     when (decide (1 < md % 4) || (bit md 2 && !avg)) eRsvdBits, geoCode true g, s.vecCode i (iA i.ins), s.vecOutCode i,
     when (dLayout a.d != dLayout out.d) eFormatCode, when (dDim a.d 0 != dDim out.d 0 || !(geoShape g a.d out.d)) eShape]
  let val := fun (x : Idx) =>
    let ts := (List.range (geoTaps g)).map (s.poolTap i.p g a x)
    poolValue avg (bit md 2) (ts.map fun t => t.1) (ts.filter fun t => !t.2).length
  let read := (i.mine out).foldr (fun x l =>
    (((List.range (geoTaps g)).map (tapAt g a.d x)).filter fun t => t.1 || geoPad g == 2).map
      (fun t => ixSet t.2 0 (ix x 0)) ++ l) []
  s.planVec i [(a, read)] code val id

/-- POOL. -/
def execPool (f : FacetId) (s : State) : Host.Outcome State Fault Refusal := .next (s.tryIssue f 0x26 .vector planPool)

def planUpsample (s : State) (i : Iss) : Plan :=
  let md := iMod i.ins
  let fs := 2 ^ (md % 4)
  let ft := 2 ^ (bits md 3 2)
  let a := i.view (iA i.ins) 0
  let out := i.view (iOut i.ins) 0
  let code := leastCode
    [useCode i.ins true true false false false 15 false true, vecCtl i.ins, s.vecCode i (iA i.ins), s.vecOutCode i,
     when (dLayout a.d != dLayout out.d) eFormatCode,
     when (!(dDim a.d 0 == dDim out.d 0 && dDim a.d 4 == dDim out.d 4 && dDim out.d 1 == dDim a.d 1 * fs &&
       dDim out.d 2 == dDim a.d 2 * fs && dDim out.d 3 == dDim a.d 3 * ft)) eShape]
  let src := fun (x : Idx) => [ix x 0, ix x 1 / fs, ix x 2 / fs, ix x 3 / ft, ix x 4]
  s.planVec i [(a, (i.mine out).map src)] code (fun x => s.rdVec i.p a (src x)) id

/-- UPSAMPLE. -/
def execUpsample (f : FacetId) (s : State) : Host.Outcome State Fault Refusal :=
  .next (s.tryIssue f 0x27 .vector planUpsample)

end Sys2Proof.Machine
end

