-- ==== Sys2Proof/Machine/Attention.lean ====
section
/-! DEFINITION. Attention and the key-value store (spec/08_attention_and_kv.md): MATMUL_KV with its page allocations,
ATTN, and the online softmax that RING_ATTN shares. -/

namespace Sys2Proof.Machine

/-- A range that a space-1 address brings near (R108). -/
def nearAt (a len : Nat) : List (Nat × Nat) := if (gaddr a).space = 1 then [((gaddr a).off, len)] else []

/-! MATMUL_KV (R207 to R210). -/

/-- A written slot: the length entry's sequence, the row of A, the token index. -/
structure KvRow where
  seq : Nat
  row : Nat
  tok : Nat

/-- The rows of every length entry. -/
def State.kvRows (s : State) (p : Nat) (d : Desc) : List KvRow :=
  (s.lenEntries p d).foldr (fun x l =>
    ((List.range (leCount x)).map fun r => { seq := leSeq x, row := leFirst x + r, tok := s.keyIndex x + r }) ++ l) []

/-- The member's rows: its range of A's DIM1 (R207). -/
def Iss.kvMine (i : Iss) (a : Desc) (l : List KvRow) : List KvRow :=
  let r := if iSplit i.ins = 1 then splitRange (dDim a 1) i.g i.n else (0, dDim a 1)
  l.filter fun x => decide (r.1 ≤ x.row) && decide (x.row < r.2)

/-- A page of a sequence: its number and head, and its page-table entry. -/
structure KvPage where
  seq : Nat
  page : Nat
  head : Nat
  pte : Nat
  deriving DecidableEq, Repr

/-- Pages in ascending order of page, then head, each once, for the rows of one length entry. -/
def State.pagesOf (s : State) (rows : List KvRow) : List KvPage :=
  let pages := rows.foldl (fun l x => insNat (x.tok / 128) l) []
  match rows with
  | [] => []
  | x :: _ =>
    let e := s.seqEntry x.seq
    pages.foldr (fun j l =>
      ((List.range (sqHkv e)).map fun h => { seq := x.seq, page := j, head := h, pte := pteAt e j h }) ++ l) []

/-- The pages an instruction writes, in the order of R209: length entry, page, head. -/
def State.kvPages (s : State) (i : Iss) (a d : Desc) : List KvPage :=
  (s.lenEntries i.p d).foldr (fun x l =>
    let rows := (List.range (leCount x)).map fun r =>
      ({ seq := leSeq x, row := leFirst x + r, tok := s.keyIndex x + r } : KvRow)
    s.pagesOf (i.kvMine a rows) ++ l) []

/-- Checks of attention parameters common to MATMUL_KV and the attention instructions (R212). Of a LEN_ADDR that is not 64-byte
aligned R120 and R212 name no code: DESIGN CHOICE, ALIGN (notes/assumptions/73.md). -/
def attBase (d : Desc) : Nat :=
  leastCode
    [when (dVer d != 1) eDescVer,
     when (aNseq d == 0 || decide (65536 < aNseq d) || aD d == 0 || decide (256 < aD d) || aDv d == 0 ||
       decide (256 < aDv d)) eShape,
     when (!aRsvd d) eRsvdBits, when (aLen d % 64 != 0) eAlign]

/-- Whether the length table can be read: a kind-2 descriptor that names one inside the partition. -/
def State.lenReadable (s : State) (p : Nat) (d : Desc) : Bool :=
  dKind d == 2 && s.ownCheck p false (gaddr (aLen d)) (32 * aNseq d) == 0

/-- The checks of the sequence-table entries that an instruction names (R198), one step at the place of DESC_VER (R120). -/
def State.attSeq (s : State) (p : Nat) (d : Desc) : Nat :=
  if s.lenReadable p d then s.seqCode p d ((s.lenEntries p d).map leSeq) else 0

/-- The other checks of an attention instruction: its descriptor, its length table (whose ranges `rows` must hold), and, of
entries that R198 accepts, `extra` and what their addresses cover (R470). -/
def State.attCode (s : State) (p : Nat) (d : Desc) (rows : Nat) (other : Nat) (kv : Bool) (extra : Nat) : Nat :=
  if dKind d ≠ 2 then leastCode [other, when (dVer d != 1) eDescVer, eDescKind]
  else
    let ls := s.lenEntries p d
    leastCode
      [other, attBase d, s.ownCheck p false (gaddr (aLen d)) (32 * aNseq d),
       (if s.lenReadable p d then
          leastCode
            [when (ls.any fun x => !leRsvd x || (kv && leQpos x != 0)) eRsvdBits,
             when (ls.any fun x => decide (rows < leFirst x + leCount x)) eShape,
             (if s.attSeq p d = 0 then leastCode [extra, s.tablesCode p (ls.map leSeq)] else 0)]
        else 0)]

/-- The projection of a row and column, in FP32. -/
def State.kvValue (s : State) (i : Iss) (a b : View) (row n : Nat) : Acc :=
  let h : Share := { lo := 0, hi := passCount (dDim a.d 0) b.kp, first := true, split2 := false }
  (s.redOf i a b none none h (fZero, ev0) [n, row, 0, 0, 0]).run h.lo h.hi (fZero, ev0)

/-- A key's cosine (`sine` false) or sine of a pair at a position (R208). -/
def State.rope (s : State) (p : Nat) (d : Desc) (pos pair : Nat) (sine : Bool) : Word :=
  let a := gaddr (aRope d)
  BitVec.ofNat 32 (s.rdVal p { a with off := a.off + pos * 4 * aD d + (if sine then 2 * aD d else 0) + 4 * pair } 4)

/-- An element of the projection as it is stored: keys rotated where there is a table. -/
def State.kvElem (s : State) (i : Iss) (a b : View) (d : Desc) (e : SeqEntry) (x : KvRow) (n : Nat) : Word :=
  let v := fun (n : Nat) => (s.kvValue i a b x.row n).1
  if n < aHkv d * aD d ∧ aRope d ≠ 0 then
    let c := n % aD d
    let n0 := n - n % 2
    let pos := sqPos e + x.tok
    vewOp 0x0E (n % 2 == 0) (v n) (v (if n % 2 = 0 then n + 1 else n0)) (s.rope i.p d pos (c / 2) false)
      (s.rope i.p d pos (c / 2) true) 0
  else v n

/-- Where column n of a written slot lies: its head, and the element index from the page's first byte, in
elements of the format. -/
def kvPlace (d : Desc) (fmt slot n : Nat) : Nat × Nat :=
  if n < aHkv d * aD d then (n / aD d, n % aD d * 128 + slot)
  else
    let m := n - aHkv d * aD d
    (m / aDv d, pageV fmt (aD d) * 8 / (pageElem fmt).width + slot * aDv d + m % aDv d)

/-- Writes one slot's columns into its pages (R208): the scratch copy, and saturated elements (R149). -/
def State.kvSlot (s : State) (i : Iss) (a b : View) (d : Desc) (x : KvRow) (acc : Scr × QStat) : Scr × QStat :=
  let e := s.seqEntry x.seq
  let cols := aHkv d * (aD d + aDv d)
  (List.range cols).foldl (fun (acc : Scr × QStat) n =>
    let head := if n < aHkv d * aD d then n / aD d else (n - aHkv d * aD d) / aDv d
    let pe := s.pte i.p (pteAt e (x.tok / 128) head)
    let f := pageElem (pteFmt pe)
    let pl := kvPlace d (pteFmt pe) (x.tok % 128) n
    let mode := if iRound i.ins = 1 then RMode.sr (randomWord i.seed (BitVec.ofNat 32 (iStream i.ins)) (x.row * cols + n))
                else .rne
    let q := f.encode mode (fval (s.kvElem i a b d e x n))
    (acc.1.put (pteOff pe * 8 + pl.2 * f.width) f.width q.1,
      { acc.2 with sat := acc.2.sat + b2n (q.2 && f.width == 8) })) acc

/-- The rotation rows that MATMUL_KV reads (R208): their place and length. -/
def State.ropeRows (s : State) (d : Desc) (rows : List KvRow) : List (Nat × Nat) :=
  if aRope d = 0 then []
  else rows.map fun x => ((gaddr (aRope d)).off + (sqPos (s.seqEntry x.seq) + x.tok) * 4 * aD d, 4 * aD d)

/-- Whether MATMUL_KV's length table, page-table entries or rotation rows hold poison (R443). -/
def State.kvPoison (s : State) (d : Desc) (rows : List KvRow) (pages : List KvPage) : Bool :=
  !s.poison.isEmpty &&
    (s.poisoned (gaddr (aLen d)).off (32 * aNseq d) || (pages.any fun k => s.poisoned k.pte 8) ||
      (s.ropeRows d rows).any fun x => s.poisoned x.1 x.2)

/-- MATMUL_KV's effect: pages opened, slots written, events logged. -/
def State.kvWrite (s : State) (i : Iss) (a b : View) (d : Desc) (rows : List KvRow) (pages : List KvPage) (t5 : Nat)
    (bad : Bool) : State :=
  let s := pages.foldl (fun s k => s.openPage i.src i.p k.pte) s
  let w := rows.foldl (fun acc x => s.kvSlot i a b d x acc) (({ m := s.mem, touched := [] } : Scr), qstat0)
  let cols := aHkv d * (aD d + aDv d)
  let ev := rows.foldl (fun e x => (List.range cols).foldl (fun e n => e.or (s.kvValue i a b x.row n).2) e) ev0
  ((s.storeOut i 0 w.1 bad).logQuant i.f w.2).logEv i.f ev t5

/-- What MATMUL_KV finds after its waits (R209, R470): the refusals of its pages, pools and rotation rows. -/
def State.kvLate (s : State) (i : Iss) (d : Desc) (rows : List KvRow) (pages : List KvPage) : Nat :=
  let missing := pages.filter fun k => !(pteValid (s.pte i.p k.pte))
  leastCode
    [when (pages.any fun k => pteValid (s.pte i.p k.pte) && decide (3 ≤ pteFmt (s.pte i.p k.pte))) eFormatCode,
     missing.foldl (fun c k => firstCode c (poolCode (s.poolHeader i.p (s.seqEntry k.seq)) (s.seqEntry k.seq))) 0,
     (pages.filter fun k => pteValid (s.pte i.p k.pte)).foldl (fun c k =>
       let x := s.pte i.p k.pte
       firstCode c (s.pageCheck i.p (pteOff x) (pageBytes (pteFmt x) (aD d) (aDv d)))) 0,
     (if aRope d = 0 then 0
      else rows.foldl (fun c x =>
        let a := gaddr (aRope d)
        firstCode c (s.ownCheck i.p true { a with off := a.off + (sqPos (s.seqEntry x.seq) + x.tok) * 4 * aD d } (4 * aD d))) 0)]

def planMatmulKv (s : State) (i : Iss) : Plan :=
  let kp := i.kpOf (iA i.ins) (iB i.ins)
  let a := i.view (iA i.ins) 0
  let b := i.view (iB i.ins) kp
  let d := i.desc (iAux i.ins)
  let n := aHkv d * (aD d + aDv d)
  let unused := aFloor d != 0 || aMask d != 0 || aG d != 1 || aQtile d != 0 || aChunk d != 0 || aWindow d != 0 ||
    aScale d != 0 || aLse d != 0
  let ls := s.lenEntries i.p d
  let other := leastCode
    [useCode i.ins false true true false true 0 false true, ctlCode i.ins false false eRsvdBits true false, chkCode i.ins,
     when (dKind d == 2 && unused) eRsvdBits, s.slotCode i (iA i.ins) (aSlot false), s.slotCode i (iB i.ins) (bSlot kp),
     pairCode a.d b.d,
     when (dDim b.d 0 != n || dDim b.d 1 != dDim a.d 0 ||
       ([2, 3, 4].any fun k => dDim a.d k != 1 || dDim b.d k != 1)) eShape,
     when (dDim a.d 0 % 32 != 0) eKAlign]
  let extra := leastCode
    [when (ls.any fun x => decide (3 ≤ sqFmt (s.seqEntry (leSeq x)))) eFormatCode,
     when (ls.any fun x =>
       let e := s.seqEntry (leSeq x)
       leCount x != 0 && (decide (sqMax e * 128 < s.keyIndex x + leCount x) || decide (s.keyIndex x < sqFirst e * 128)))
       eAddrRange]
  let code := s.attCode i.p d (dDim a.d 1) other true extra
  let seqs := ls.map leSeq
  let rows := i.kvMine a.d (s.kvRows i.p d)
  let pages := s.kvPages i a.d d
  let used := usedB b (rows.foldr (fun x l => ((List.range n).map fun c => [c, x.row, 0, 0, 0]) ++ l) [])
    { lo := 0, hi := passCount (dDim a.d 0) kp, first := true, split2 := false } (dDim a.d 0)
  let bad := s.viewPoisoned a || s.viewPoisoned b || s.kvPoison d rows pages
  let pl := s.planStd [a, b] [] code fun t => t.kvWrite i a b d rows pages (s.t5Count i.p b used) bad
  { pl with
    seq := s.attSeq i.p d
    bad := bad
    foot := pl.foot ++ lenFoot d ++ s.seqFoot i.p true seqs ++ pages.foldr (fun k l => s.pageUse i.p k.pte true ++ l) [] ++
      (s.ropeRows d rows).map fun x => { host := false, lo := x.1, hi := x.1 + x.2, write := false, named := false }
    near := pl.near ++ nearAt (aLen d) (32 * aNseq d) ++ (if (gaddr (aRope d)).space = 1 then s.ropeRows d rows else [])
    late := s.kvLate i d rows pages
    hold := pages.any fun k => !(pteValid (s.pte i.p k.pte))
    post := pages.eraseDups.map fun k =>
      { pte := k.pte
        slots := (rows.filter fun x => x.seq == k.seq && x.tok / 128 == k.page).length }
    lens := seqs.eraseDups.map fun q => (q, (rows.filter fun x => x.seq == q).foldl (fun m x => max m (x.tok + 1)) 0) }

/-- MATMUL_KV. It issues once every page it writes is allocated (POOL_ALLOCATE). -/
def execMatmulKv (f : FacetId) (s : State) : Host.Outcome State Fault Refusal :=
  .next (s.tryIssue f 0x12 .array planMatmulKv)

/-- POOL_ALLOCATE (R202, R209): the next page that facet f's waiting MATMUL_KV needs; an empty pool starts its
wait. -/
def execPoolAllocate (f : FacetId) (s : State) : Host.Outcome State Fault Refusal :=
  match s.nextIns f .array with
  | none => .next s
  | some i =>
    let c := s.check planMatmulKv i
    let pl := c.2
    if iOpcode i.ins ≠ 0x12 ∨ c.1 ≠ 0 ∨ !i.run.clear .array pl.foot ∨
        s.gangAborted i.run ∨ s.loading i ∨ s.footBusy pl.foot ∨
        !s.waitOk i.run i.ins ∨ pl.late ≠ 0 then .next s
    else
      match (s.kvPages i (i.desc (iA i.ins)) (i.desc (iAux i.ins))).find? fun k => !(pteValid (s.pteLatest i.p k.pte)) with
      | none => .next s
      | some k =>
        let e := s.seqEntry k.seq
        let hd := s.poolLatest i.p e
        if poPosted hd = poTake hd then .next ((s.flag (.fctAttLog f) 2 true).beginWait f i (some k.seq))
        else
          match s.takePage i.src i.p e k.page k.head with
          | .error c => .next (s.stopMember f c i.index 0 (0, 0) (0, 0))
          | .ok s' => .next (s'.setFacet f { s'.facet f with run := some { i.run with waiting := none, poolSeq := none } })

/-! Visible keys (R215). -/

/-- The range of visible key indices of a query position, of keys lo to keys − 1 whose positions begin at pos:
from, up to (exclusive). -/
def visibleAt (d : Desc) (lo keys pos qp : Nat) : Nat × Nat :=
  let upTo := fun (x : Nat) => min keys (x - pos)
  match aMask d with
  | 0 => (lo, keys)
  | 1 => (lo, upTo (qp + 1))
  | 2 => (max lo (qp + 1 - aWindow d - pos), upTo (qp + 1))
  | _ => (lo, upTo ((qp / aChunk d + 1) * aChunk d))
def visible (d : Desc) (e : SeqEntry) (keys qp : Nat) : Nat × Nat := visibleAt d (sqFirst e * 128) keys (sqPos e) qp

/-! Key and value elements (R193, R217). -/

/-- Where a row's keys and values come from: elements and scale codes, by key index and dimension. -/
structure KvSrc where
  kE : Nat → Nat → Val
  kS : Nat → Nat → Nat
  vE : Nat → Nat → Val
  vS : Nat → Nat → Nat

/-- Keys and values of one head in pages: `pg` gives the format code and the offset of the page of a key index. -/
def State.kvSrcOf (s : State) (p d dv : Nat) (pg : Nat → Nat × Nat) : KvSrc :=
  let el := fun (x : Nat × Nat) (base idx : Nat) =>
    let f := pageElem x.1
    f.value (s.rdBits p 0 (x.2 + base) (idx * f.width) f.width)
  { kE := fun k c => el (pg k) 0 (c * 128 + k % 128)
    kS := fun k c =>
      if (pg k).1 = 3 then (s.rdByte p 0 ((pg k).2 + 64 * d + c / 32 * 128 + k % 128)).toNat else 127
    vE := fun k c => el (pg k) (pageV (pg k).1 d) (k % 128 * dv + c)
    vS := fun k c =>
      if (pg k).1 = 3 then (s.rdByte p 0 ((pg k).2 + pageVs 3 d dv + k % 128 / 32 * dv + c)).toNat else 127 }

/-- The page of a key index: its format code and its offset. -/
def State.pageAt (s : State) (p : Nat) (e : SeqEntry) (h : Nat) (k : Nat) : Nat × Nat :=
  let x := s.pte p (pteAt e (k / 128) h)
  (pteFmt x, pteOff x)

/-- Keys and values of one head in the pages of a sequence. -/
def State.kvSrc (s : State) (p : Nat) (e : SeqEntry) (h : Nat) : KvSrc :=
  s.kvSrcOf p (sqD e) (sqDv e) (s.pageAt p e h)

/-- The bytes that a key's row product and its value's read of a page (R193, R215): its elements and scales. -/
def kvReads (d dv fmt off k : Nat) : List (Nat × Nat) :=
  let w := (pageElem fmt).width
  let j := k % 128
  ((List.range d).map fun c => (off + (c * 128 + j) * w / 8, cdiv w 8)) ++ [(off + pageV fmt d + j * dv * w / 8, dv * w / 8)] ++
    (if fmt = 3 then
       ((List.range (d / 32)).map fun c => (off + 64 * d + c * 128 + j, 1)) ++ [(off + pageVs 3 d dv + j / 32 * dv, dv)]
     else [])

/-- Whether the keys and values of visible keys hold poison; `pg` gives the format code and the offset of a key's page. What
invisible keys, other pages and the rest of a page's tile hold is not consumed (R193, R216, R443; notes/assumptions/22.md). -/
def State.keysPoisoned (s : State) (d dv : Nat) (pg : Nat → Nat × Nat) (keys : List Nat) : Bool :=
  !s.poison.isEmpty && keys.any fun k => (kvReads d dv (pg k).1 (pg k).2 k).any fun r => s.poisoned r.1 r.2

/-! Online softmax (R219 to R221). -/

/-- Rounds a probability to the compute path's format (R217). -/
def roundPath (fp8 : Bool) (x : Word) : Word :=
  if fp8 then f32 (Elem.e4m3.value (Elem.e4m3.encode .rne (fval x)).1) else roundBf16 x

/-- A score before the scale: R84 trees over the head dimension in passes of Kp. -/
def qk (kp dq : Nat) (q : Nat → Val) (src : KvSrc) (key : Nat) : Acc :=
  (List.range (passCount dq kp)).foldl (fun acc j =>
    let cs := passRange dq kp j
    addEv acc (treeSum kp (cs.map fun c => (q c, src.kE key c))
      ((cs.filter fun c => c % 32 == 0).map fun c => (127, src.kS key c)))) (fZero, ev0)

/-- A row before any key. -/
def row0 (dv : Nat) : RowState := { m := fNegInf, l := fZero, o := List.replicate dv fZero, bad := false }

/-- The nine-level tree over 512 probabilities by position. -/
def tree512 (p : List Word) : Word := (laneTree fadd 9 p).headD fZero

/-- A value element of a visible key: an infinite one makes the output element NaN, as a NaN does (R221). -/
def visValue : Val → Val
  | .inf _ => .nan
  | v => v

/-- One key block of a row (R219): `vis` tells the visible keys. -/
def blockStep (fp8 : Bool) (dq dv : Nat) (q : Nat → Val) (c : Word) (vis : Nat → Bool) (src : KvSrc) (b : Nat)
    (st : RowState × Ev) : RowState × Ev :=
  let r := st.1
  if r.bad then st
  else
    let kp := if fp8 then 128 else 64
    let xs := (List.range 512).map fun j =>
      if vis (512 * b + j) then (let a := qk kp dq q src (512 * b + j); (fmul a.1 c, a.2)) else (fNegInf, ev0)
    let ev := xs.foldl (fun e x => e.or x.2) st.2
    let x := xs.map fun x => x.1
    if x.any fun w => fIsNaN w || w == fInf then ({ r with bad := true }, ev)
    else
      let mn := x.foldl fmax r.m
      if mn = fNegInf then (r, ev)
      else
        let raise := flt r.m mn
        let a := exp2n (fsub r.m mn)
        let l := if raise then fmul r.l a else r.l
        let o := if raise then r.o.map fun w => fmul w a else r.o
        let p := x.map fun w => if w = fNegInf then fZero else roundPath fp8 (exp2n (fsub w mn))
        let seen := fun (j : Nat) => x.getD j fNegInf != fNegInf
        let passes := (List.range (512 / kp)).filter fun t => (List.range kp).any fun j => seen (t * kp + j)
        let step := fun (oc : Acc) (t col : Nat) =>
          let ks := (List.range kp).map fun j => t * kp + j
          addEv oc (treeSum kp
            (ks.map fun j =>
              if seen j then (fval (p.getD j 0), visValue (src.vE (512 * b + j) col)) else (.num false 0 0, .num false 0 0))
            ((ks.filter fun j => j % 32 == 0).map fun j =>
              (127, if (List.range 32).any fun y => seen (j + y) then src.vS (512 * b + j) col else 127)))
        let outs := (List.range dv).map fun col => passes.foldl (fun oc t => step oc t col) (o.getD col fZero, ev0)
        ({ m := mn, l := fadd l (tree512 p), o := outs.map fun w => w.1, bad := false },
         outs.foldl (fun e w => e.or w.2) ev)

/-- A finished row: its outputs and its log-sum-exp. -/
def rowDone (r : RowState) : List Word × Word :=
  if r.bad then (r.o.map fun _ => fNaN, fNaN)
  else if r.m = fNegInf then (r.o.map fun _ => fZero, fNegInf)
  else (r.o.map fun w => fdiv w r.l, fadd r.m (log2n r.l))

/-- The score scale of the base-2 exponentials. -/
def scoreScale (d : Desc) : Word := fmul (aScale d) 0x3FB8_AA3B

/-- A whole row over the pages of its sequence. -/
def State.attRow (s : State) (p : Nat) (d : Desc) (fp8 : Bool) (q : Nat → Val) (e : SeqEntry) (h : Nat) (vr : Nat × Nat) :
    RowState × Ev :=
  let vis := fun (k : Nat) => decide (vr.1 ≤ k) && decide (k < vr.2)
  let b0 := vr.1 / 512
  (List.range (cdiv vr.2 512 - b0)).foldl
    (fun st b => blockStep fp8 (aD d) (aDv d) q (scoreScale d) vis (s.kvSrc p e h) (b0 + b) st) (row0 (aDv d), ev0)

/-! ATTN (R211 to R222). -/

/-- Slots and fields that the attention instructions require (R211, R212). Of an LSE_ADDR that is not 64-byte aligned R120 and R212
name no code: DESIGN CHOICE, ALIGN (notes/assumptions/73.md). -/
def attParams (d : Desc) : Nat :=
  if dKind d ≠ 2 then 0
  else leastCode
    [when (aRope d != 0 || (aWindow d != 0 && aMask d != 2) || (aChunk d != 0 && aMask d != 3)) eRsvdBits,
     when (aFloor d == 3 || (aMask d == 2 && aWindow d == 0) || (aMask d == 3 && aChunk d == 0) || aQtile d == 0 || decide (1024 < aQtile d))
       eShape,
     when (aLse d % 64 != 0) eAlign]

/-- Formats of the queries and of the output (R211). -/
def attFormats (a out : Desc) : Nat :=
  let fa := dFmt a
  let fo := dFmt out
  when (!(fa == .plain .bf16 || fa == .plain .e4m3 || fa == .plain .e5m2) || dScaleMode a != 0 || dCap a != 0 ||
    !(fo == .plain .fp32 || fo == .plain .bf16 || fo == .plain .e4m3 || fo == .mx .e4m3) || dCap out != 0) eFormatPair

/-- Extents of the queries and of the output (R211). DESIGN CHOICE (notes/assumptions/73.md): a DIM0 that is no multiple of 32 is
K_ALIGN alone, though it disagrees with D_DIV32 or DV_DIV32 too; DIM3 and DIM4, which the rule does not name, are not checked,
and State.writeRows writes their index 0 alone. -/
def attShape (a out d : Desc) : Nat :=
  leastCode
    [when ((dDim a 0 != aD d && dDim a 0 % 32 == 0) || (dDim out 0 != aDv d && dDim out 0 % 32 == 0) ||
       dDim a 1 != aG d * aHkv d || dDim out 1 != dDim a 1 || dDim out 2 != dDim a 2) eShape,
     when (dDim a 0 % 32 != 0 || dDim out 0 % 32 != 0) eKAlign]

/-- The capacity check of R139: the resource and the need in KiB of the first failing condition. -/
def attCapacity (a d : Desc) : Option (Nat × Nat) :=
  let mq := aQtile d * aG d
  let ec := if dFmt a = .plain .bf16 then 2 else 1
  let acc := mq * (4 * aDv d + 2056)
  let store := mq * aD d * ec + mq * 512 * ec + 1024 * (aD d + aDv d) * ec + 8192
  if 1024 < mq then some (3, 0)
  else if 2097152 < acc then some (1, cdiv acc 1024)
  else if 8306688 < store then some (2, cdiv store 1024)
  else none

/-- The query rows of a length entry that a member has: token numbers of DIM2. -/
def Iss.attTokens (i : Iss) (tokens : Nat) (x : LenEntry) : List Nat :=
  let r := if iSplit i.ins = 1 then splitRange tokens i.g i.n else (0, tokens)
  ((List.range (leCount x)).map fun t => leFirst x + t).filter fun t => decide (r.1 ≤ t) && decide (t < r.2)

/-- The position of a query token of an entry. -/
def queryPos (x : LenEntry) (t : Nat) : Nat := leQpos x + (t - leFirst x)

/-- The pages that the walk of R218 visits for an entry: first and one past the last. -/
def State.walkRange (s : State) (d : Desc) (x : LenEntry) (toks : List Nat) : Nat × Nat :=
  let vs := (toks.map fun t => visible d (s.seqEntry (leSeq x)) (s.keyIndex x) (queryPos x t)).filter fun v => decide (v.1 < v.2)
  match vs with
  | [] => (0, 0)
  | v :: t =>
    let r := t.foldl (fun (r : Nat × Nat) w => (min r.1 w.1, max r.2 w.2)) v
    (r.1 / 128, (r.2 - 1) / 128 + 1)

/-- What ATTN accesses of the pages that its walk visits (R218, R268). -/
def State.walkUse (s : State) (i : Iss) (d : Desc) (ls : List LenEntry) (tokens : Nat) : List Range :=
  ls.foldr (fun x l =>
    let w := s.walkRange d x (i.attTokens tokens x)
    (List.range (w.2 - w.1)).foldr (fun k l =>
      (List.range (aHkv d)).foldr (fun h l => s.pageUse i.p (pteAt (s.seqEntry (leSeq x)) (w.1 + k) h) false ++ l) l) l) []

/-- One entry of the walk (R218): 0, or the code and the cause of KEYFMT. Of a visible page at or above MAX_PAGES the rule says
nothing: DESIGN CHOICE, cause 0b10 (notes/assumptions/73.md). -/
def State.walkPage (s : State) (p : Nat) (d : Desc) (fp8 : Bool) (e : SeqEntry) (h j : Nat) : Nat × Nat :=
  let x := s.pte p (pteAt e j h)
  if sqMax e ≤ j ∨ !pteValid x ∨ 3 < pteFmt x then (eKeyfmt, 2)
  else if pageRank (pteFmt x) < aFloor d then (eKeyfmt, 0)
  else if fp8 && pteFmt x == 0 then (eKeyfmt, 1)
  else (s.pageCheck p (pteOff x) (pageBytes (pteFmt x) (aD d) (aDv d)), 0)

/-- The walk: the code of the first entry that fails, and the captures of R226. -/
def State.walk (s : State) (i : Iss) (d : Desc) (fp8 : Bool) (tokens : Nat) : Nat × (Nat × Nat) :=
  (s.lenEntries i.p d).foldl (fun (r : Nat × (Nat × Nat)) x =>
    let w := s.walkRange d x (i.attTokens tokens x)
    (List.range (aHkv d)).foldl (fun r h =>
      (List.range (w.2 - w.1)).foldl (fun r k =>
        if r.1 ≠ 0 then r
        else
          match s.walkPage i.p d fp8 (s.seqEntry (leSeq x)) h (w.1 + k) with
          | (0, _) => r
          | (c, cause) => (c, (h * 2 ^ 16 + leSeq x, cause * 2 ^ 30 + (w.1 + k)))) r) r) (0, (0, 0))

/-- The state of an entry's output row: token t, query head j. -/
def State.attRowOf (s : State) (i : Iss) (a : View) (d : Desc) (x : LenEntry) (t j : Nat) : RowState × Ev :=
  let e := s.seqEntry (leSeq x)
  s.attRow i.p d (dFmt a.d != .plain .bf16) (fun c => s.rdElem i.p a [c, j, t, 0, 0]) e (j / aG d)
    (visible d e (s.keyIndex x) (queryPos x t))

/-- Writes log-sum-exps (R222): each row's token and head, and its value. -/
def State.writeLse (s : State) (i : Iss) (d : Desc) (hq : Nat) (l : List ((Nat × Nat) × Word)) (bad : Bool) : State :=
  if aLse d = 0 then s
  else
    let a := gaddr (aLse d)
    let x : Scr := l.foldl (fun (x : Scr) r => x.put ((a.off + (r.1.1 * hq + r.1.2) * 4) * 8) 32 r.2.toNat)
      { m := s.mem, touched := [] }
    s.storeOut i a.space x bad

/-- The output of rows: mine are those of `rows`, each with its outputs, which are free values where OUT overlaps the queries
(R132, notes/assumptions/68.md). Rows lie at index 0 of DIM3 and DIM4 (notes/assumptions/73.md). -/
def State.writeRows (s : State) (i : Iss) (out : View) (rows : List ((Nat × Nat) × List Word)) (bad : Bool) : State :=
  let row := fun (x : Idx) => rows.find? fun r => r.1.1 == ix x 2 && r.1.2 == ix x 1
  let clash := outClash out [i.view (iA i.ins) 0]
  let o : OutSpec :=
    { i.outSpec s out (fun x => if clash then s.freeWord (ravel out.dims x) else ((row x).map fun r => r.2.getD (ix x 0) 0).getD 0) with
      mine := fun x => (row x).isSome && ix x 3 == 0 && ix x 4 == 0 }
  match putOut o (s.memOf out.base.space) with
  | (x, q) => ((s.storeOut i out.base.space x bad).logQuant i.f q).bumpIf clash

/-- The rows of a length entry that a member computes, each with its state: its tokens, every query head. -/
def State.attRows (s : State) (i : Iss) (a : View) (d : Desc) (x : LenEntry) : List ((Nat × Nat) × (RowState × Ev)) :=
  (i.attTokens (dDim a.d 2) x).foldr (fun t l => ((List.range (dDim a.d 1)).map fun j => ((t, j), s.attRowOf i a d x t j)) ++ l) []

/-- What finished rows of an entry write and log (R219, R222). -/
def State.writeAtt (s : State) (i : Iss) (out : View) (d : Desc) (hq : Nat) (rs : List ((Nat × Nat) × (RowState × Ev))) (bad : Bool) :
    State :=
  let s := s.writeRows i out (rs.map fun r => (r.1, (rowDone r.2.1).1)) bad
  let s := s.writeLse i d hq (rs.map fun r => (r.1, (rowDone r.2.1).2)) bad
  (s.logEv i.f (rs.foldl (fun e r => e.or r.2.2) ev0) 0).flag (.fctAttLog i.f) 0 (rs.any fun r => r.2.1.bad)

/-- Whether ATTN consumes poison beside its queries (R443): in the length table, the page-table entries of its walk, or the
visible keys and their values. -/
def State.attPoison (s : State) (i : Iss) (d : Desc) (tokens : Nat) (ls : List LenEntry) : Bool :=
  !s.poison.isEmpty &&
    (s.poisoned (gaddr (aLen d)).off (32 * aNseq d) ||
      ls.any fun x =>
        let e := s.seqEntry (leSeq x)
        let toks := i.attTokens tokens x
        let w := s.walkRange d x toks
        (List.range (aHkv d)).any fun h =>
          ((List.range (w.2 - w.1)).any fun k => s.poisoned (pteAt e (w.1 + k) h) 8) ||
            toks.any fun t =>
              let v := visible d e (s.keyIndex x) (queryPos x t)
              s.keysPoisoned (aD d) (aDv d) (s.pageAt i.p e h) ((List.range (v.2 - v.1)).map fun k => v.1 + k))

def planAttn (s : State) (i : Iss) : Plan :=
  let a := i.view (iA i.ins) 0
  let out := i.view (iOut i.ins) 0
  let d := i.desc (iAux i.ins)
  let fp8 := dFmt a.d != .plain .bf16
  let ls := s.lenEntries i.p d
  let cap := attCapacity a.d d
  let lseLen := dDim a.d 1 * dDim a.d 2 * 4
  let other := leastCode
    [useCode i.ins true true false false true 0 false true, ctlCode i.ins false false eRsvdBits true false, chkCode i.ins,
     s.slotCode i (iA i.ins) { plainSlot with outlier := true }, s.slotCode i (iOut i.ins) { plainSlot with outlier := true },
     attParams d, attFormats a.d out.d, (if dKind d = 2 then attShape a.d out.d d else 0),
     when (dKind d == 2 && cap.isSome) eIssueCapacity,
     (if dKind d = 2 ∧ aLse d ≠ 0 then s.ownCheck i.p false (gaddr (aLse d)) lseLen else 0)]
  let w := s.walk i d fp8 (dDim a.d 2)
  let bad := s.viewPoisoned a || s.attPoison i d (dDim a.d 2) ls
  let pl := s.planStd [a] [out] (s.attCode i.p d (dDim a.d 2) other false 0) fun t =>
    ls.foldl (fun t x => t.writeAtt i out d (dDim a.d 1) (s.attRows i a d x) bad) t
  let lse : List Range :=
    if aLse d = 0 then []
    else [{ host := false, lo := (gaddr (aLse d)).off, hi := (gaddr (aLse d)).off + lseLen, write := true }]
  { pl with
    seq := s.attSeq i.p d
    cap := cap.getD (0, 0)
    foot := pl.foot ++ lenFoot d ++ lse ++ s.seqFoot i.p false (ls.map leSeq) ++ s.walkUse i d ls (dDim a.d 2)
    near := pl.near ++ nearAt (aLen d) (32 * aNseq d) ++ nearAt (aLse d) lseLen
    bad := bad
    late := w.1
    key := w.2 }

/-- ATTN. -/
def execAttn (f : FacetId) (s : State) : Host.Outcome State Fault Refusal := .next (s.tryIssue f 0x14 .array planAttn)

end Sys2Proof.Machine
end

