-- ==== Sys2Proof/Machine/Mover.lean ====
section
/-! DEFINITION. The mover (spec/04_facet_programming.md R104, spec/10_memory.md R271 to R276): PUT, GET, ATOMIC, PREFETCH
and EVICT. -/

namespace Sys2Proof.Machine

/-- Kp of an ENGINE tensor that no product reads: that of its stored format's own pass mode (R136, R137;
DEDUCED, notes/assumptions/24.md). -/
def ownKp : Fmt → Nat
  | .plain .bf16 | .plain .fp16 => 64
  | .plain .int4 | .mx .e2m1 => 256
  | .t5 => 512
  | _ => 128

/-- The slots of the mover: every layout but PAGED. -/
def moverSlot (d : Desc) : SlotRule := { layouts := [0, 1, 2, 4], kp := ownKp (dFmt d), axis := none, outlier := true, host := true }
def Iss.moverView (i : Iss) (k : Nat) : View := i.view k (ownKp (dFmt (i.desc k)))

/-! Copies (R104, R157): which bits of A become which bits of OUT. -/

/-- Consecutive bits of OUT and the bits of A they come from: where each begins in its space, in bits, and how
many. -/
structure BitRun where
  d : Nat
  s : Nat
  n : Nat
  deriving DecidableEq, Repr

/-- Puts a run before others, as one with the next where both sides go on. -/
def joinRun (x : BitRun) : List BitRun → List BitRun
  | [] => [x]
  | y :: t => if y.d = x.d + x.n ∧ y.s = x.s + x.n then { x with n := x.n + y.n } :: t else x :: y :: t

/-- One element, or one T5 block, of OUT from the same element of A (R68, R71). -/
def elemRun (a out : View) (x : Idx) : BitRun :=
  { d := out.base.off * 8 + elemBit out (out.abs x), s := a.base.off * 8 + elemBit a (a.abs x)
    n := if out.fmt = .t5 then 64 else out.fmt.width }

/-- Bytes of OUT from bytes of A. -/
def byteRun (d s n : Nat) : BitRun := { d := d * 8, s := s * 8, n := n * 8 }

/-- Elements that begin a 32-element block of OUT. -/
def blockFirst (d : Desc) (x : Idx) : Bool := ix x (dBlockAxis d) % 32 == 0

/-- The copy of a share: elements, scale bytes of blocks that begin in it, records and slots of its tiles. -/
def copyParts (a out : View) (els : List Idx) : List BitRun :=
  (els.filter fun x => out.fmt != .t5 || blockFirst out.d x).map (elemRun a out) ++
  (if out.fmt.isMx then
    (els.filter (blockFirst out.d)).map fun x =>
      byteRun (out.sbase.off + scaleByte out (out.abs x)) (a.sbase.off + scaleByte a (a.abs x)) 1
   else []) ++
  (if dCap out.d = 0 then []
   else
    let tiles := els.filter fun x => ix x 0 % 512 == 0 && ix x 1 % 8 == 0
    tiles.map (fun x => byteRun (out.sbase.off + recOff out.d (tileNum out.d (out.abs x)))
      (a.sbase.off + recOff a.d (tileNum a.d (a.abs x))) (recBytes (dCap out.d))) ++
    tiles.map fun x => byteRun (out.sbase.off + slotOff out.d (tileNum out.d (out.abs x)))
      (a.sbase.off + slotOff a.d (tileNum a.d (a.abs x))) (slotBytes out.fmt))

/-- Runs of a copy. -/
def copyRuns (l : List BitRun) : List BitRun := l.foldr joinRun []

/-- A run that begins and ends at bytes on both sides. -/
def BitRun.whole (r : BitRun) : Bool := r.d % 8 == 0 && r.s % 8 == 0 && r.n % 8 == 0

/-- Cuts a run of bits into runs that an operation of 64 KiB can carry. -/
def BitRun.cut (r : BitRun) : List BitRun :=
  let step := 8 * (opMax - 2)
  (List.range (cdiv r.n step)).map fun k =>
    { d := r.d + k * step, s := r.s + k * step, n := min step (r.n - k * step) }

/-- The put of a run of bits: the bits of its bytes beside them stay as they stand at the target (notes/assumptions/24.md). -/
def BitRun.put (r : BitRun) (rank space : Nat) (src : List Byte) : RemJob :=
  let h := r.d % 8
  let b := placeBits src (r.s % 8) h r.n
  { kind := .put, rank := rank, space := space, offset := r.d / 8, len := b.length, data := b,
    destHost := false, dest := 0, code := 0, ret := false, scalar := false, arg := 0, head := h, nbits := r.n }

/-- The get of a run of bits. -/
def BitRun.get (r : BitRun) (rank space : Nat) (host : Bool) : RemJob :=
  { kind := .get, rank := rank, space := space, offset := r.s / 8, len := cdiv (r.s % 8 + r.n) 8, data := [],
    destHost := host, dest := r.d / 8, code := 0, ret := false, scalar := false, arg := 0, skip := r.s % 8,
    head := r.d % 8, nbits := r.n }

/-- The operations of one run of a PUT and of a GET (R104); `t5` where it is of T5 blocks, whose last digits the device writes
as 1 (R71, notes/assumptions/67.md). -/
def State.putRun (s : State) (p : Nat) (a out : GAddr) (t5 : Bool) (r : BitRun) : List RemJob :=
  if r.whole then
    let b := s.rdMem p a.space (r.s / 8) (r.n / 8)
    cutPut out.rank out.space (r.d / 8) (if t5 then t5Blocks b else b) (r.n / 8 / opMax + 1)
  else r.cut.map fun r => r.put out.rank out.space (s.rdMem p a.space (r.s / 8) (cdiv (r.s % 8 + r.n) 8))
def getRun (a out : GAddr) (t5 : Bool) (r : BitRun) : List RemJob :=
  if r.whole then
    (cutGet a.rank a.space (r.s / 8) (out.space == 3) (r.d / 8) (r.n / 8) (r.n / 8 / opMax + 1)).map fun j => { j with t5 := t5 }
  else r.cut.map fun r => r.get a.rank a.space (out.space == 3)

/-- Agreement of the two descriptors (R104). -/
def copyCode (a out : Desc) : Nat :=
  leastCode
    [when (dFormat a != dFormat out || dCap a != dCap out) eFormatPair,
     when (dNdim a != dNdim out || dDims a != dDims out) eShape]

/-- The checks of a mover operand at any rank. -/
def State.moverAny (s : State) (i : Iss) (k : Nat) (kind : RemKind) (code : Nat) : Nat :=
  firstCode (tensorCode (moverSlot (i.desc k)) (i.desc k)) (s.viewAnyCheck i.p kind code (i.moverView k))

/-- The mover's shared checks. -/
def moverCtl (i : Ins) : Nat := leastCode [ctlCode i false false eRsvdBits true false, chkCode i]

/-- The plan of PUT (`get` false) or GET. -/
def planCopy (get : Bool) (s : State) (i : Iss) : Plan :=
  let a := i.moverView (iA i.ins)
  let out := i.moverView (iOut i.ins)
  let own := fun (k : Nat) => s.slotCode i k (moverSlot (i.desc k))
  let code := leastCode
    [useCode i.ins true true false false false 0 false false, moverCtl i.ins, copyCode a.d out.d, outlierSplit i out.d,
     (if get then s.moverAny i (iA i.ins) .get 0 else own (iA i.ins)),
     (if get then own (iOut i.ins) else s.moverAny i (iOut i.ins) .put 0)]
  let els := i.mine out
  let runs := copyRuns (copyParts a out els)
  let aOwn := s.viewOwn i.p a
  let oOwn := s.viewOwn i.p out
  let bad := aOwn && s.viewPoisoned a
  let jobs := runs.flatMap fun r =>
    if get then getRun a.base out.base (out.fmt == .t5) r
    else (s.putRun i.p a.base out.base (out.fmt == .t5) r).map fun j => { j with bad := bad }
  { planDo id with
    code := code
    foot := (if aOwn then a.foot false else []) ++ (if oOwn then out.foot true else [])
    near := (if aOwn then a.nearRanges else []) ++ (if oOwn then out.nearRanges else [])
    todo := jobs
    bad := bad }

/-- PUT. -/
def execPut (f : FacetId) (s : State) : Host.Outcome State Fault Refusal := .next (s.tryIssue f 0x50 .mover (planCopy false))
/-- GET. -/
def execGet (f : FacetId) (s : State) : Host.Outcome State Fault Refusal := .next (s.tryIssue f 0x51 .mover (planCopy true))

/-! ATOMIC (R102, R274). -/

/-- Whether a code takes 64-bit integers; whether it is an integer code. -/
def atomic64 (op : Nat) : Bool := op == 1 || op == 4 || op == 5
def atomicIsInt (op : Nat) : Bool := decide (op ≤ 5)

/-- The first index of every target element that a share holds: integers begin at multiples of their size. -/
def atomicIdx (op : Nat) (els : List Idx) : List Idx :=
  if atomicIsInt op then els.filter fun x => ix x 0 % atomicBytes op == 0 else els

/-- The scalar of IMM and STREAM. -/
def atomicScalar (i : Ins) (op : Nat) : BitVec 64 :=
  if atomic64 op then BitVec.ofNat 64 (iLong i) else BitVec.ofNat 64 (iImm i)

/-- Elements that lie side by side in the target, in the contributions and in the returned values: target
offset, offset of A, offset of C, logical index, count. -/
structure AtomRun where
  t : Nat
  a : Nat
  c : Nat
  l : Nat
  n : Nat

/-- Groups elements of w bytes into runs of at most `cap` elements. -/
def atomRuns (w cap : Nat) : List AtomRun → List AtomRun
  | [] => []
  | x :: t =>
    match atomRuns w cap t with
    | y :: r =>
      if y.t = x.t + w ∧ y.a = x.a + w ∧ y.c = x.c + w ∧ y.l = x.l + 1 ∧ y.n < cap then { x with n := y.n + 1 } :: r
      else x :: y :: r
    | [] => [x]

/-- The plan of ATOMIC. The operations of MOD[3:0] end at 0x8, and no rule names the code of one above: DESIGN CHOICE, it is
RSVD_BITS (notes/assumptions/66.md). -/
def planAtomic (s : State) (i : Iss) : Plan :=
  let md := iMod i.ins
  let op := md % 16
  let scalar := bit md 4
  let ret := bit md 5
  let w := atomicBytes op
  let a := i.view (iA i.ins) 0
  let out := i.view (iOut i.ins) 0
  let c := i.view (iC i.ins) 0
  let fmt : Fmt := if op = 6 ∨ op = 7 then .plain .fp32 else if op = 8 then .plain .bf16 else .plain .int8
  let rule : SlotRule := { plainSlot with layouts := [0, 1, 2] }
  let plainInt := fun (d : Desc) => atomicIsInt op && dLayout d != 0
  let fmtBad := fun (d : Desc) => dFmt d != fmt || plainInt d || dScaleMode d != 0
  let ctrs := out.base.space == 2
  let els := atomicIdx op (allIdx out.dims)
  let place := fun (x : Idx) => out.base.off + elemBit out (out.abs x) / 8
  let targetCode :=
    if op = 7 then leastCode [exactShape out.d, s.anyCheck i.p .atomic 7 (gaddr (dAddr out.d)) (4 * volume (dDims out.d)),
      s.anyCheck i.p .atomic 7 { gaddr (dAddr out.d) with off := exactSlot out.d 0 } (16 * volume (dDims out.d))]
    else if ctrs then
      els.foldl (fun c x => firstCode c (firstCode (when (place x % 16 != 0) eAddrRange)
        (s.anyCheck i.p .atomic op { out.base with off := place x } 4))) 0
    else s.viewAnyCheck i.p .atomic op out
  let code := leastCode
    [useCode i.ins true (!scalar) false ret false 0x3F scalar (scalar && atomic64 op), moverCtl i.ins,
     when (decide (8 < op) || (scalar && op == 8 && decide (2 ^ 16 ≤ iImm i.ins))) eRsvdBits,
     tensorCode rule out.d, targetCode, when (fmtBad out.d || (!scalar && fmtBad a.d) || (ret && fmtBad c.d)) eFormatPair,
     (if scalar then 0 else s.slotCode i (iA i.ins) rule), (if ret then s.slotCode i (iC i.ins) rule else 0),
     when ((!scalar && a.dims != out.dims) || (ret && c.dims != out.dims) || (atomicIsInt op && dDim out.d 0 % w != 0)) eShape]
  let mine := (atomicIdx op (i.mine out)).map fun x =>
    ({ t := place x, a := a.base.off + elemBit a (a.abs x) / 8, c := c.base.off + elemBit c (c.abs x) / 8,
       l := ravel out.dims x / (if atomicIsInt op then w else 1), n := 1 } : AtomRun)
  let scalarRuns := mine.map fun x => { x with a := if scalar then x.t else x.a, c := if ret then x.c else x.t }
  let runs := atomRuns w (if ctrs then 1 else opMax / w) scalarRuns
  let bad := !scalar && s.viewPoisoned a
  let words := fun (r : AtomRun) =>
    if op = 7 ∧ scalar then (List.range r.n).foldr (fun _ l => natLe 4 (iImm i.ins) ++ l) []
    else if scalar then [] else s.rdMem i.p a.base.space r.a (r.n * w)
  let jobs := runs.map fun r =>
    ({ kind := .atomic, rank := out.base.rank, space := out.base.space, offset := r.t, len := r.n * w, data := words r,
       destHost := c.base.space == 3, dest := r.c, code := op, ret := ret, scalar := scalar && op != 7,
       arg := if op = 7 then BitVec.ofNat 64 (exactSlot out.d r.l) else atomicScalar i.ins op, bad := bad } : RemJob)
  let oOwn := s.viewOwn i.p out
  let foot := if op = 7 then s.exactFoot i (iOut i.ins) else if oOwn && !ctrs then out.foot true else []
  { planDo id with
    code := code
    foot := (if scalar then [] else a.foot false) ++ (if ret then c.foot true else []) ++ foot
    near := (if scalar then [] else a.nearRanges) ++ (if ret then c.nearRanges else []) ++ (if oOwn then out.nearRanges else [])
    todo := jobs
    bad := bad }

/-- ATOMIC. -/
def execAtomic (f : FacetId) (s : State) : Host.Outcome State Fault Refusal := .next (s.tryIssue f 0x52 .mover planAtomic)

/-! PREFETCH and EVICT (R271, R272). -/

/-- The tiles of a view, in ascending offset. -/
def State.viewTiles (s : State) (v : View) : List Nat :=
  v.pieces.foldl (fun l r => (s.tilesOf r.1.off r.2).foldl (fun l t => insNat t l) l) []

/-- The checks of both: A on the own vertex in space 0 or 1. An outlier tensor is taken, whose side area R271 names, though R157
lists the slots that take one without theirs (notes/assumptions/69.md). -/
def State.tileOpCode (s : State) (i : Iss) : Nat :=
  leastCode
    [useCode i.ins false true false false false 0 false false, ctlCode i.ins false false eRsvdBits false false, chkCode i.ins,
     s.slotCode i (iA i.ins) { moverSlot (i.desc (iA i.ins)) with host := false }]

def planPrefetch (s : State) (i : Iss) : Plan :=
  let a := i.moverView (iA i.ins)
  let tiles := s.viewTiles a
  { planDo (fun t => tiles.foldl (fun t x => t.promote x false) t) with
    code := s.tileOpCode i, foot := a.foot false, tiles := tiles }

/-- PREFETCH. -/
def execPrefetch (f : FacetId) (s : State) : Host.Outcome State Fault Refusal :=
  .next (s.tryIssue f 0x53 .mover planPrefetch)

/-- Whether EVICT takes a tile, and whether it then moves down. -/
def State.evicts (s : State) (t : Nat) : Bool :=
  match s.dirEntry t with
  | none => false
  | some e => s.evictable t e
def State.isNear (s : State) (t : Nat) : Bool :=
  match s.dirEntry t with
  | none => false
  | some e => e.st == .near

def planEvict (s : State) (i : Iss) : Plan :=
  let a := i.moverView (iA i.ins)
  let tiles := (s.viewTiles a).filter s.evicts
  { planDo (fun t => tiles.foldl (fun t x => t.evictTile x) t) with
    code := s.tileOpCode i, foot := a.foot false, tiles := tiles.filter s.isNear }

/-- EVICT. -/
def execEvict (f : FacetId) (s : State) : Host.Outcome State Fault Refusal := .next (s.tryIssue f 0x54 .mover planEvict)

end Sys2Proof.Machine
end

