-- ==== Sys2Proof/Machine/Tiles.lean ====
section
/-! DEFINITION. The home directories and the memory controllers as commands (spec/10_memory.md R250, R253 to R269,
spec/01_architecture.md R40 to R42). -/

namespace Sys2Proof.Machine

/-- Whether a request of partition p for a range may be served now: permitted (R109), and no granule of it
waits for new values (R253). -/
def State.admitted (s : State) (p off len : Nat) : Bool :=
  s.live && s.spaceCheck p 0 off len == 0 && !s.granBusy off len

/-- TILE_READ (R262, R41, R267): the bytes, from the copy or the home; copies and near tiles are touched. -/
def execTileRead (p : PartId) (off len : Nat) (s : State) : Host.Outcome State Fault Refusal :=
  let s := (s.usePart p).useStacks off len
  if !s.admitted p off len then .next s
  else
    let data := s.rdMem p 0 off len
    let s := s.touchRange off len
    .next { s with out := { s.out with data := data, poisoned := s.poisoned off len } }

/-- TILE_WRITE (R262, R40, R264): applied at the home, or held while the tile moves. -/
def execTileWrite (src : Nat) (p : PartId) (off : Nat) (data : List Byte) (s : State) :
    Host.Outcome State Fault Refusal :=
  let s := (s.usePart p).useStacks off data.length
  if !s.admitted p off data.length then .next s else .next (s.storeBytes src p 0 off data false)

/-- TILE_PROMOTE (R262, R269). -/
def execTilePromote (p : PartId) (off : Nat) (p3 : Bool) (s : State) : Host.Outcome State Fault Refusal :=
  let s := (s.usePart p).useStacks off 1
  if !s.admitted p off 1 then .next s else .next (s.promote (s.tileOf off).1 p3)

/-- TILE_SEAL and TILE_UNSEAL (R195, R262). -/
def execTileSeal (off : Nat) (s : State) : Host.Outcome State Fault Refusal :=
  let s := s.useStacks off 1
  if !s.live || (granuleOf off).isNone then .next s else .next (s.sealTile (s.tileOf off).1)
def execTileUnseal (off : Nat) (s : State) : Host.Outcome State Fault Refusal :=
  let s := s.useStacks off 1
  if !s.live || (granuleOf off).isNone then .next s else .next (s.unsealTile (s.tileOf off).1)

/-- TILE_LANDS (R260, R262). -/
def execTileLands (off : Nat) (s : State) : Host.Outcome State Fault Refusal :=
  let s := s.useStacks off 1
  if !s.live then .next s else .next (s.landTile (s.tileAt off)).settled

/-- PROMOTION_UNITS (R269): the waiting promotion of a tile tries again. -/
def execPromotionUnits (off : Nat) (s : State) : Host.Outcome State Fault Refusal :=
  let tile := (s.tileOf off).1
  match s.promos.find? fun w => w.tile == tile with
  | none => .next s
  | some w =>
    if !s.live || s.flushing tile then .next s
    else
      let s := s.use [.partCeil w.part]
      match s.retryPromo w with
      | (s', none) => .next { s' with promos := s'.promos.filter fun x => x.tile != tile }
      | (s', some w') => .next { s' with promos := s'.promos.map fun x => if x.tile = tile then w' else x }

/-- The instruction or engine behind a source of writes. -/
def srcOwner (src : Nat) : OpOwner :=
  if src < 100 then
    .facet (src / 4) (match src % 4 with | 0 => .control | 1 => .array | 2 => .vector | _ => .mover)
  else if src < 200 then .chord ((src - 100) / 32) ((src - 100) % 32)
  else .nobody

/-- A write that the new values of its granule do not permit (R253): it writes nothing, and its issuer is refused. The write of
an engine's job is dropped alone (R254, notes/assumptions/73.md). -/
def State.refuseWrite (s : State) (w : HeldWrite) : State :=
  let code := s.spaceCheck w.part 0 w.tile 1
  match w.tx with
  | none => s.refuseAt (srcOwner w.src) code
  | some n =>
    match s.txDue.find? fun d => d.seq == n with
    | none => s
    | some d =>
      let s := { s with txDue := s.txDue.filter fun x => x.seq != n }
      match d.back with
      | .ack h | .prior h => s.answer h .nack code []
      | .issuer o _ _ => s.refuseAt o code
      | .record _ _ => s

/-- HELD_WRITE_ACCEPT (R264): the first write of half h that can be taken, its partition checked as it arrives (R253). -/
def execHeldWriteAccept (h : HalfId) (s : State) : Host.Outcome State Fault Refusal :=
  if !s.live then .next s
  else
    match takeWaiting s h [] s.waitWrites with
    | none => .next s
    | some (w, rest) =>
      let s := { s with waitWrites := rest }
      .next (if s.mayWrite w then s.writeNow w else s.refuseWrite w).settled

/-! Where a controller keeps a byte (R250). No result depends on it (R89): it says at which of the pseudo-channels' arbiters
an access waits. -/

/-- The place of a byte in its stack. -/
structure StackPlace where
  pc : Nat
  col : Nat
  bank : Nat
  row : Nat
  byte : Nat
  deriving DecidableEq, Repr

/-- The place of offset o of a stack. -/
def stackPlace (o : Nat) : StackPlace :=
  let g := o / 256
  let l := g / 32
  { pc := (List.range 6).foldl (fun x k => x ^^^ g / 32 ^ k % 32) 0
    col := l % 4
    bank := l / 4 % 64 ^^^ l / 256 % 64
    row := l / 256
    byte := o % 256 }

/-- The arbiter of the pseudo-channel that keeps a space-0 offset. -/
def stackArbiter (off : Nat) : Nat := 32 * (off / 2 ^ 36) + (stackPlace (off % 2 ^ 36)).pc

/-- The near-memory bank that keeps a granule of a tile (R257), 32 per half: granule i of piece j lies in bank
32 h + ((i + u_j) mod 32). -/
def State.nearBank (s : State) (off : Nat) : Option Nat :=
  let tile := s.tileAt off
  match s.dirEntry tile with
  | none => none
  | some e => (e.units[(off - tile) / 8192]?).map fun u => 32 * halfOf tile + (off % 8192 / 256 + u) % 32

/-! Granules (R253). -/

/-- Base offset of a package granule. -/
def granBase (g : Nat) : Nat := g / 48 * 2 ^ 36 + g % 48 * 2 ^ 30

/-- Tiles of a granule that near memory holds or moves. -/
def State.granTiles (s : State) (g : Nat) : List (Nat × DirEntry) :=
  s.entries.filter fun x => decide (granBase g ≤ x.1) && decide (x.1 < granBase g + 2 ^ 30)

/-- FLUSH_DONE: no tile of the granule is left near; class bits clear where TILE or CLASS needs it; then the
scrub starts, or the new values apply. -/
def execFlushDone (g : GranId) (s : State) : Host.Outcome State Fault Refusal :=
  let p := s.granProc g
  if !s.live || !p.flush || !(s.granTiles g).isEmpty then .next s
  else
    let s := if p.clearClass then
        { s with classBits := s.classBits.filter fun x => !(decide (granBase g ≤ x) && decide (x < granBase g + 2 ^ 30)) }
      else s
    .next (s.setGranProc g (if p.needScrub then { p with flush := false, scrub := true } else gran0)).pumpAll

/-- SCRUB_DONE: the whole granule is zero, class bits and poison included. -/
def execScrubDone (g : GranId) (s : State) : Host.Outcome State Fault Refusal :=
  let p := s.granProc g
  if !s.live || !p.scrub then .next s
  else
    let keep := fun (x : Nat) => !(decide (granBase g ≤ x) && decide (x < granBase g + 2 ^ 30))
    let s := { s with
      mem := s.mem.filter fun c => keep c.1
      classBits := s.classBits.filter keep
      poison := s.poison.filter fun x => keep (x * 256) }
    .next (s.setGranProc g gran0).pumpAll

end Sys2Proof.Machine
end

