-- ==== Sys2Proof/Machine/Arbiter.lean ====
section
/-! DEFINITION. Shared arbiters and clock-domain crossings (spec/02_beats_and_blocking.md R56 to R66,
spec/01_architecture.md R36 to R38, spec/10_memory.md R256). -/

namespace Sys2Proof.Machine

/-! Crossings (R56 to R58). -/

/-- A clock domain: its period in picoseconds, and the depth and entry size of its crossing FIFO in each direction. -/
structure Domain where
  period : Nat
  depth : Nat
  bytes : Nat
  deriving DecidableEq, Repr

/-- The 25 domains (R56): the stacks, the optical engines, PCIe, management, meridian, video, test, telemetry, the bridge. -/
def domains : List Domain :=
  List.replicate 12 { period := 833, depth := 64, bytes := 256 } ++
  List.replicate 6 { period := 753, depth := 96, bytes := 256 } ++
  [{ period := 1000, depth := 64, bytes := 256 }, { period := 1000, depth := 8, bytes := 256 },
   { period := 1000, depth := 4, bytes := 8 }, { period := 37037, depth := 16, bytes := 8 },
   { period := 5000, depth := 4, bytes := 256 }, { period := 10000, depth := 8, bytes := 8 },
   { period := 512, depth := 128, bytes := 256 }]
/-- Domain d of the table's numbers; 26 is the other end of the bridge. -/
def domain (d : Nat) : Domain := domains.getD ((if d = 26 then 25 else d) - 1) { period := 1000, depth := 0, bytes := 0 }
def domStack (st : Nat) : Nat := 1 + st
def domOptical (e : Nat) : Nat := 13 + e
/-- The bridge's FIFOs at the end of half h (R56): away from that half, and toward it. -/
def bridgeEnd (h : Nat) : Nat := 25 + h

/-- Nanoseconds after which an entry is surely readable on the other side (R58): three cycles of the domain's clock and two beats
at the slowest guaranteed corner. -/
def Domain.bound (d : Domain) : Nat := cdiv (3 * d.period + 2500) 1000

/-- The older entries leave a FIFO, in order. A read command leaves only where `room` is left for its data (R57); the second
result is how many reads have left. -/
def leave (bound : Nat) : Nat → List XEntry → List XEntry × Nat
  | _, [] => ([], 0)
  | room, e :: t =>
    if e.age < bound then (e :: t, 0)
    else if e.read then
      match room with
      | 0 => (e :: t, 0)
      | n + 1 => ((leave bound n t).1, (leave bound n t).2 + 1)
    else leave bound room t

/-- One nanosecond of a crossing: entries age; those toward the fabric leave; the data of reads issued before come; commands leave
for the domain, a read with entries reserved for its data. -/
def Crossing.tick (d : Domain) (c : Crossing) : Crossing :=
  let older := fun (e : XEntry) => { e with age := min (e.age + 1) d.bound }
  let back := (leave d.bound 0 (c.back.map older)).1 ++ List.replicate c.reserved { age := 0, read := false }
  let x := leave d.bound (d.depth - back.length) (c.away.map older)
  { away := x.1, back := back, reserved := x.2 }

/-- How many of the oldest entries of a FIFO are readable on the other side, where it has room for `room` of them. -/
def ready (bound room : Nat) (l : List XEntry) : Nat := min room (l.takeWhile fun e => decide (bound ≤ e.age)).length

/-- One nanosecond of the bridge: at each end entries age, those toward its half leave, and those away from it come out of the
FIFO into the one at the other end, while that has room (R57). -/
def bridgeTick (d : Domain) (a b : Crossing) : Crossing × Crossing :=
  let older := fun (l : List XEntry) => l.map fun e => { e with age := min (e.age + 1) d.bound }
  let home := fun (l : List XEntry) => (leave d.bound d.depth (older l)).1
  let ba := home a.back
  let bb := home b.back
  let na := ready d.bound (d.depth - bb.length) (older a.away)
  let nb := ready d.bound (d.depth - ba.length) (older b.away)
  ({ a with away := (older a.away).drop na, back := ba ++ List.replicate nb { age := 0, read := false } },
   { b with away := (older b.away).drop nb, back := bb ++ List.replicate na { age := 0, read := false } })

/-- One nanosecond of every crossing. -/
def State.xingTick (s : State) : State :=
  if s.xings.isEmpty then s
  else
    let s := ((s.xings.map fun x => x.1).filter fun d => decide (d < bridgeEnd 0)).foldl
      (fun s d => s.setXing d ((s.xing d).tick (domain d))) s
    let b := bridgeTick (domain (bridgeEnd 0)) (s.xing (bridgeEnd 0)) (s.xing (bridgeEnd 1))
    (s.setXing (bridgeEnd 0) b.1).setXing (bridgeEnd 1) b.2

/-! Arbiters. Arbiters 0 to 383 are the pseudo-channels, 32 per stack; 384 to 447 the near-memory banks, 32 per half; 448 and 449
the bridge on each half; 450 to 461 the output ports of the router (notes/assumptions/26.md). -/

/-- The over-limit counter of an arbiter (R61): router outputs carry no P1 and have none. -/
def p1Counter (a : Nat) : Option Reg :=
  if a < 384 then some (.memP1OverCnt (a / 32))
  else if a < 448 then some (.nmhP1OverCnt ((a - 384) / 32))
  else if a < 450 then some (.nmhBridgeP1OverCnt (a - 448))
  else none

/-- The half that serves a link port: that of its lanes' optical engines. -/
def State.portHalf (s : State) (p : Nat) : Option Nat := (s.port p).lanes.head?.map fun l => l / 36

/-- The half an arbiter stands on. -/
def State.arbHalf (s : State) (n : Nat) : Option Nat :=
  if n < 384 then some (n / 192)
  else if n < 448 then some ((n - 384) / 32)
  else if n < 450 then some (n - 448)
  else s.portHalf (n - 450)

/-- The half of a source that is on one. -/
def State.srcHalf (s : State) : ArbSource → Option Nat
  | .facet f => some (f / 12)
  | .thin e => some e
  | .codec c => some (if c.val < 8 then c / 4 else (c - 8) / 2)
  | .chord e => some e
  | .port p => s.portHalf p
  | _ => none

/-- The kinds of traffic that a source has (R36); the bridge carries what comes from the other half. -/
def srcKinds : ArbSource → List Traffic
  | .refresh => [.refresh]
  | .meridian => [.meridian]
  | .warning => [.warning]
  | .bridge => [.codec, .link, .ringBlock, .chord, .facet, .thin, .fetch, .record, .host]
  | .directory => [.neededMove, .prefetchMove, .eviction, .scrub]
  | .host => [.host]
  | .facet _ => [.facet, .fetch, .record]
  | .thin _ => [.thin, .fetch, .record]
  | .codec _ => [.codec, .fetch, .record]
  | .chord _ => [.ringBlock, .chord]
  | .port _ => [.link, .ringBlock]

/-- A number of a source, for the rotation. -/
def srcNum : ArbSource → Nat
  | .refresh => 0
  | .meridian => 1
  | .warning => 2
  | .bridge => 3
  | .directory => 4
  | .host => 5
  | .facet f => 8 + f
  | .thin e => 32 + e
  | .codec c => 40 + c
  | .chord e => 60 + e
  | .port p => 64 + p

/-- Whether a source contends at an arbiter (R61, R62): refresh at a controller, meridian at the bridge and a router output,
power-warning actions at each of these; the codecs, facets, thin-channel engine, chord engine and ports of its half, and the
bridge; at a router output the ports, the chord engine and the bridge alone. -/
def State.contends (s : State) (n : Nat) (x : ArbSource) : Bool :=
  match x with
  | .refresh => decide (n < 384)
  | .meridian => decide (448 ≤ n)
  | .warning => decide (n < 384) || decide (448 ≤ n)
  | .bridge => decide (n < 448) || (decide (450 ≤ n) && (s.arbHalf n).isSome)
  | .directory => decide (n < 448)
  | .host => decide (n < 450)
  | .chord _ | .port _ => (s.srcHalf x).isSome && s.srcHalf x == s.arbHalf n
  | .facet _ | .thin _ | .codec _ => decide (n < 450) && s.srcHalf x == s.arbHalf n

/-- Whether a granule is kept where an arbiter stands: in its pseudo-channel (R250), in its bank (R257). -/
def State.keptAt (s : State) (n : Nat) (r : ArbRequest) : Bool :=
  if n < 384 then r.src == .refresh || r.src == .warning || ((granuleOf r.off).isSome && stackArbiter r.off == n)
  else if n < 448 then s.nearBank r.off == some (n - 384)
  else true

/-- Whether a request may stand at an arbiter: its source contends there, with traffic of that kind, of class P2 or P0 at a router
output (R36, R61), for a granule that is kept there. -/
def State.legal (s : State) (n : Nat) (r : ArbRequest) : Bool :=
  s.contends n r.src && (srcKinds r.src).contains r.kind &&
    (decide (n < 450) || trafficClass r.kind == 0 || trafficClass r.kind == 2) && s.keptAt n r

/-- A request comes to the front of its source's queue, one of a kind at a time; its class is fixed now (R66). A P0 source issues
none while one waits or one of the last 19 grants was P0 (R61). -/
def State.arrive (s : State) (n : Nat) (a : Arbiter) (r : ArbRequest) : Arbiter :=
  let c := trafficClass r.kind
  if !s.legal n r || (a.waiting.any fun w => w.req.src == r.src && w.req.kind == r.kind) ||
      (c == 0 && ((a.waiting.any fun w => w.cls == 0) || (a.hist.take 19).contains 0)) then a
  else { a with waiting := a.waiting ++ [{ req := r, cls := c, held := false }] }

/-- The class of a waiting request: a move on which a P3 request waits is raised to P3 (R40, R66). -/
def State.raisedWait (s : State) (w : ArbWait) : ArbWait :=
  if (w.req.kind = .prefetchMove ∨ w.req.kind = .eviction) ∧
      (match s.dirEntry (s.tileAt w.req.off) with | none => false | some e => e.p3) = true then { w with cls := 3 }
  else w

/-- The slots of the frame (R60). -/
inductive SlotKind where
  | openSlot | floor3 | floor4
  deriving DecidableEq, Repr
def slotKind (n : Nat) : SlotKind := if n = 19 then .floor4 else if n % 2 = 0 then .floor3 else .openSlot

/-- The highest waiting class. -/
def topClass (has : Nat → Bool) : Option Nat := (List.range 5).find? has

/-- The class a slot grants, from the classes that wait (R60): P0 and P1 prevail in every slot (R65, DEDUCED); an open slot then
repays a floor slot that they have taken. Where floors of P3 and P4 are both owed, which is repaid first is open: DESIGN CHOICE,
P3 is (notes/assumptions/26.md). -/
def slotClass (a : Arbiter) (has : Nat → Bool) : Option Nat :=
  let top := topClass has
  if has 0 || has 1 then top
  else
    match slotKind a.slot with
    | .floor3 => if has 3 then some 3 else top
    | .floor4 => if has 4 then some 4 else top
    | .openSlot => if decide (0 < a.owed3) && has 3 then some 3 else if decide (0 < a.owed4) && has 4 then some 4 else top

/-- What a floor is owed after a grant of class c: a floor slot taken by P0 or P1 more; at an open slot that they leave, one
repaid, or all lapsed where the floor's class does not wait. -/
def owedAfter (a : Arbiter) (floor : SlotKind) (own : Nat) (owed : Nat) (has : Nat → Bool) (c : Nat) : Nat :=
  if slotKind a.slot = floor ∧ c ≤ 1 then owed + 1
  else if slotKind a.slot = .openSlot ∧ 2 ≤ c then (if has own then owed - b2n (c == own) else 0)
  else owed

/-- An arbiter after a grant, at a time. -/
def Arbiter.after (a : Arbiter) (has : Nat → Bool) (w : ArbWait) (now : Nat) : Arbiter :=
  { a with
    slot := (a.slot + 1) % 20
    owed3 := owedAfter a .floor3 3 a.owed3 has w.cls
    owed4 := owedAfter a .floor4 4 a.owed4 has w.cls
    last := tset a.last 0 w.cls (srcNum w.req.src + 1)
    hist := (w.cls :: a.hist).take 39
    waiting := a.waiting.erase w
    grant := some w
    lastAt := some now }

/-- Whether an arbiter has granted as many P1 granules as its limit allows: 8 in 40 consecutive grants (R61). -/
def Arbiter.full (a : Arbiter) : Bool := decide (8 ≤ (a.hist.filter fun c => c == 1).length)

/-- The requests that the limit on P1 leaves. -/
def Arbiter.free (a : Arbiter) : List ArbWait := a.waiting.filter fun w => !(a.full && w.cls == 1)

/-- Class c's next request: its sources in rotation (R37). -/
def Arbiter.next (a : Arbiter) (c : Nat) : Option ArbWait :=
  let l := a.free.filter fun w => w.cls == c
  let v := tget a.last 0 c
  (nextAbove (if v = 0 then none else some (v - 1)) (l.foldl (fun l w => insNat (srcNum w.req.src) l) [])).bind fun x =>
    l.find? fun w => srcNum w.req.src == x

/-- The optical engine of a port: that of its lowest lane. -/
def State.portOptical (s : State) (p : Nat) : Option Nat := (s.port p).lanes.head?.map fun l => domOptical (l / 12)

/-- The crossing into whose FIFO away from the fabric an arbiter's grants go: the stack's, the bridge's at its half, an optical
engine's. -/
def State.crossingOf (s : State) (n : Nat) : Option Nat :=
  if n < 384 then some (domStack (n / 32))
  else if n < 448 then none
  else if n < 450 then some (bridgeEnd (n - 448))
  else s.portOptical (n - 450)

/-- Whether a granted granule finds room (R57): a full FIFO holds its producer. -/
def State.hasRoom (s : State) (n : Nat) : Bool :=
  match s.crossingOf n with
  | none => true
  | some d => decide ((s.xing d).away.length < (domain d).depth)

/-- A granted granule enters its crossing; at a router's output that is the flit that ROUTER_FORWARD sends. -/
def State.cross (s : State) (n : Nat) (w : ArbWait) : State :=
  match s.crossingOf n with
  | none => s
  | some d =>
    if 450 ≤ n then s
    else s.setXing d
      { s.xing d with away := (s.xing d).away ++ [{ age := 0, read := decide (n < 384) && !w.req.write && w.cls != 0 }] }

/-- A flit of a port enters the crossing of its optical engine, to go out or as it comes in (R56): the receive FIFO holds every
flit for which the link has granted credit, and so is never full (R57). It is readable on the other side at once, within R58's
bound. -/
def State.flitOut (s : State) (p : Nat) : State :=
  match s.portOptical p with
  | none => s
  | some d => s.setXing d { s.xing d with away := (s.xing d).away ++ [{ age := 0, read := false }] }
def State.flitIn (s : State) (p : Nat) : State :=
  match s.portOptical p with
  | none => s
  | some d => s.setXing d { s.xing d with back := (s.xing d).back ++ [{ age := 0, read := false }] }

/-- Whether a throttled controller has granted a granule of the pseudo-channel in the last 60 ns (R256). -/
def State.throttled (s : State) (n : Nat) (a : Arbiter) : Bool :=
  decide (n < 384) && (s.memCtl (n / 32)).throttle &&
    (match a.lastAt with | none => false | some t => decide (s.limClock < t + 60))

/-- What the arbiter grants in its slot, if anything. -/
def State.pick (s : State) (n : Nat) (a : Arbiter) : Option ArbWait :=
  if !s.hasRoom n || s.throttled n a then none
  else (slotClass a fun c => a.free.any fun w => w.cls == c).bind a.next

/-- The arbiter with the requests that have come, each in its class, and those marked that the limit on P1 holds. -/
def State.gather (s : State) (n : Nat) (arrivals : List ArbRequest) : Arbiter :=
  let a := arrivals.foldl (s.arrive n) (s.arb n)
  { a with waiting := a.waiting.map s.raisedWait }
def Arbiter.mark (a : Arbiter) : Arbiter :=
  { a with waiting := a.waiting.map fun w => if a.full && w.cls == 1 then { w with held := true } else w }

/-- ARBITER_GRANT (R59 to R61): requests come to the front of their sources' queues, and the arbiter grants one granule. A P1
request that the limit holds is counted once for its wait. A refresh granule ends the refresh that was due. -/
def execArbiterGrant (n : Nat) (arrivals : List ArbRequest) (s : State) : Host.Outcome State Fault Refusal :=
  if !s.live then .next s
  else
    let g := s.gather n arrivals
    let fresh := if g.full then (g.waiting.filter fun w => w.cls == 1 && !w.held).length else 0
    let s := match p1Counter n with | none => s | some r => s.count r fresh
    let a := g.mark
    match s.pick n a with
    | none => .next (s.setArb n a)
    | some w =>
      let s := (s.setArb n (a.after (fun c => a.free.any fun w => w.cls == c) w s.limClock)).cross n w
      if w.req.kind = .refresh then .next (s.setMemCtl (n / 32) { s.memCtl (n / 32) with refreshDue := false }) else .next s

end Sys2Proof.Machine
end

