-- ==== Sys2Proof/Machine/Chord.lean ====
section
/-! DEFINITION. Chord contexts (spec/12_collectives_and_rings.md R315 to R323, R340 to R346): the collective schedule,
credits and landings, the transfers of a context, its opening and close, stalls and aborts. The four instructions stand in
Sys2Proof/Machine/Fused.lean. -/

namespace Sys2Proof.Machine

/-! The collective schedule (R319). -/

abbrev Sch := BitVec 512
def schStopEp (d : Sch) : Word := BitVec.ofNat 32 (fld d 511 480)
def schCtr (d : Sch) : Nat := fld d 462 449
def schResume (d : Sch) : Bool := d.getLsbD 448
def schCredEp (d : Sch) : Word := BitVec.ofNat 32 (fld d 447 416)
def schLandEp (d : Sch) : Word := BitVec.ofNat 32 (fld d 415 384)
/-- Members of the group: P. -/
def schP (d : Sch) : Nat := fld d 383 372 + 1
def schBase (d : Sch) : Nat := fld d 371 360
def schStride (d : Sch) : Nat := fld d 359 348
def schRoot (d : Sch) : Nat := fld d 347 336
def schMode (d : Sch) : Nat := fld d 335 332
def schEngine (d : Sch) : Nat := fld d 331 331
def schExact (d : Sch) : Bool := d.getLsbD 330
def schPage (d : Sch) : Nat := fld d 329 328
def schRows (d : Sch) : Nat := fld d 319 304
/-- Virtual shards of a ring of one member: Q. -/
def schVirt (d : Sch) : Nat := fld d 303 292 + 1
def schOrigin (d : Sch) : Nat := fld d 291 280
/-- Tokens of a virtual shard. -/
def schShard (d : Sch) : Nat := fld d 279 256 * 128
def schState (d : Sch) : Nat := fld d 255 192
def schRecv (d : Sch) : Nat := fld d 191 128
/-- Bytes of the receive area. -/
def schSize (d : Sch) : Nat := fld d 127 96 * 65536
def schX (d : Sch) : Nat := fld d 63 0
/-- The rank of a group index (R317). -/
def schRank (d : Sch) (i : Nat) : Nat := schBase d + i * schStride d
/-- The reserved bits of a kind-3 descriptor are 0. -/
def schRsvd (d : Sch) : Bool := fld d 475 465 == 0 && fld d 327 320 == 0 && fld d 95 64 == 0

/-- The group indices whose rank-table entry names this vertex and this partition (R317). -/
def State.ownIndices (s : State) (p : Nat) (d : Sch) : List Nat :=
  (List.range (schP d)).filter fun i =>
    let e := s.val (.rankEntry p (schRank d i))
    decide (schRank d i < s.get (.lnkRanks p) 12 0) && e.getLsbD 31 && fld e 11 0 == s.coord && fld e 16 12 == p

/-- The own group index (an instruction without one does not issue). -/
def State.ownIndex (s : State) (p : Nat) (d : Sch) : Nat := (s.ownIndices p d).headD 0

/-- Neighbours in the group (R317). -/
def nextIx (d : Sch) (i : Nat) : Nat := (i + 1) % schP d
def prevIx (d : Sch) (i : Nat) : Nat := (i + schP d - 1) % schP d

/-- The checks of an address of the schedule (R319, R109): it names the own vertex, be its area empty. -/
def State.schAddr (s : State) (p a len : Nat) : Nat :=
  leastCode
    [when (a % 64 != 0) eAlign, when (decide (1 < (gaddr a).space)) eAddrSpace,
     (match s.rankTarget p (gaddr a).rank with
      | .error c => c
      | .ok t => when (t != (s.coord, p)) eAddrSpace), s.ownCheck p false (gaddr a) len]

/-- Whether an opcode has the mode (R319). -/
def schModeOk (op mode : Nat) : Bool := mode == 0 || (decide (op ≤ 0x41) && mode == 1)

/-- The checks of a collective schedule (R317, R319, R320, R323): `need` is the receive area the instruction
requires, `state` and `table` the bytes of its state area and of its send-count table. The schedule gives the state area no
length: one that the partition's memory holds from its record on, but not with every row, is SHAPE (R339, DEDUCED,
notes/assumptions/29.md). -/
def State.schCode (s : State) (p op : Nat) (d : Sch) (need state table : Nat) : Nat :=
  if dKind d ≠ 3 then leastCode [when (dVer d != 1) eDescVer, eDescKind]
  else
    leastCode
      [when (dVer d != 1) eDescVer,
       when (!schRsvd d || !schModeOk op (schMode d) || schPage d == 3 || (op != 0x42 && schState d != 0) ||
         (op != 0x43 && schX d != 0)) eRsvdBits,
       when (schStride d == 0 || schRows d == 0 || (op == 0x40 && schMode d == 1 && decide (schP d ≤ schRoot d)) ||
         (op == 0x42 && schP d == 1 && decide (schVirt d ≤ schOrigin d))) eShape,
       when ((List.range (schP d)).any fun i => decide (s.get (.lnkRanks p) 12 0 ≤ schRank d i)) eRankRange,
       when ((s.ownIndices p d).length != 1) eRankRange,
       when (!(s.ownsCtr p (schCtr d) && s.ownsCtr p (schCtr d + 1) && s.ownsCtr p (schCtr d + 2))) eAddrOwner,
       s.schAddr p (schRecv d) (schSize d), when (decide (schSize d < need)) eShape,
       (if op = 0x42 then
          let c := s.schAddr p (schState d) 64
          if c = 0 ∧ s.schAddr p (schState d) state ≠ 0 then eShape else c
        else 0), (if op = 0x43 then s.schAddr p (schX d) table else 0),
       when (!s.unitOn (uChord (schEngine d))) eUnitOff]

/-- The footprint of the areas a schedule names (R323), and what they bring near. -/
def areaFoot (a len : Nat) (wr : Bool) : List Range :=
  if len = 0 then [] else [{ host := false, lo := (gaddr a).off, hi := (gaddr a).off + len, write := wr }]
def areaNear (a len : Nat) : List (Nat × Nat) := if (gaddr a).space = 1 ∧ 0 < len then [((gaddr a).off, len)] else []

/-! Counts (R320). -/

/-- How far a counter stands above an effective epoch (R113, R320): 0 where it has not reached it. -/
def riseOf (v θ : Word) : Nat := if (v - θ).toNat < 2 ^ 31 then (v - θ).toNat else 0
def State.credits (s : State) (c : Ctx) : Nat := riseOf (s.counter (schCtr c.sch)) (c.base + schCredEp c.sch)
def State.landings (s : State) (c : Ctx) : Nat := riseOf (s.counter (schCtr c.sch + 1)) (c.base + schLandEp c.sch)
def State.stops (s : State) (c : Ctx) : Nat := riseOf (s.counter (schCtr c.sch + 2)) (c.base + schStopEp c.sch)

/-! Joining (R316). -/

/-- Whether an instruction may join its partition's context on the engine: there is none, or it belongs to the
same instruction of the same gang and has not opened; a fault that a member brought with it keeps no other from joining. -/
def State.mayJoin (s : State) (i : Iss) (d : Sch) : Bool :=
  match s.ctx (schEngine d) i.p with
  | none => true
  | some c =>
    c.queue == i.run.cl.queue && c.wseq == i.run.cl.wseq && !c.opened && c.op == iOpcode i.ins &&
      !(c.members.any fun m => m.facet == i.f) && (c.members.all fun m => m.index == i.index)

/-- A gang member joins the context; poisoned operands are a fault of the member (R443, R344). -/
def State.join (s : State) (i : Iss) (d par : BitVec 512) (keys : Nat) (bad : Bool) : State :=
  let e := schEngine d
  let m : CtxMember := { facet := i.f, unit := i.u, ins := i.ins, index := i.index, run := i.run }
  let c : Ctx := (s.ctx e i.p).getD
    { op := iOpcode i.ins, sch := d, par := par, keys := keys, base := wThresh i.run.cl.wd, wseq := i.run.cl.wseq,
      queue := i.run.cl.queue, size := i.n, members := [], opened := false, own := s.ownIndex i.p d, step := 0,
      sends := [], sent := 0, pieces := 0, phase := 0, rows := [], since := s.limClock, fail := 0, aborting := false }
  s.setCtx e i.p (some { c with members := c.members ++ [m],
                                fail := if bad && c.fail == 0 then BitVec.ofNat 8 eDataError else c.fail })

/-- The plan of a fused instruction: it joins the context; a member without a share completes at once (R105). -/
def State.planFused (s : State) (i : Iss) (ins outs : List View) (d par : BitVec 512) (keys : Nat) (some1 : Bool)
    (bad : Bool) (code : Nat) : Plan :=
  let pl := s.planStd ins outs code fun t => t.join i d par keys (bad || ins.any s.viewPoisoned)
  { pl with
    bad := false
    hold := !s.mayJoin i d
    ctx := if some1 then some (schEngine d, i.p) else none }

/-- A member as its instruction issued it. -/
def CtxMember.iss (m : CtxMember) : Iss :=
  { f := m.facet, u := m.unit, p := m.run.cl.part, g := m.run.cl.gang, n := wGang m.run.cl.wd, ins := m.ins, run := m.run,
    index := m.index }
def Ctx.issues (c : Ctx) : List Iss := c.members.map CtxMember.iss
/-- Gang member 0, whose operands are the rank's. -/
def Ctx.lead (c : Ctx) : Option Iss := c.issues.find? fun i => i.g == 0

/-! Transfers (R321, R327, R332, R336). -/

/-- An offset of member q's memory that this member keeps at a global address of its own
(notes/assumptions/27.md). -/
def Ctx.peerOff (c : Ctx) (q a : Nat) : Nat := Config.peerAddr (schRank c.sch q) (gaddr a).off

/-- The rank that an operation to member q names: a table index, be it the last (R304). -/
def Ctx.rankOf (c : Ctx) (q : Nat) : Nat := let r := schRank c.sch q; if r = 0xFFF then topRank else r

/-- A put of bytes to member q, `off` past the place that it keeps for address a. -/
def Ctx.putTo (c : Ctx) (q a off : Nat) (data : List Byte) (bad : Bool) : List RemJob :=
  (cutPut (c.rankOf q) (gaddr a).space (c.peerOff q a + off) data (data.length / opMax + 1)).map fun j =>
    { j with bad := bad }

/-- A signal to one of member q's three counters (R320). -/
def Ctx.signalTo (c : Ctx) (q k : Nat) : RemJob := signalJob (c.rankOf q) (schCtr c.sch + k) 1

/-- Whether operations of a context are under way. -/
def State.chdBusy (s : State) (e p : Nat) : Bool :=
  s.opsOf (.chord e p) || s.writesLeft (srcChord e p)

/-- The engine's next act on a context's first transfer: its puts once the credits are there, then, each after
the one before has been acknowledged, its signal, and its end (R321). -/
def State.pumpOnce (s : State) (e p : Nat) : State :=
  match s.ctx e p with
  | none => s
  | some c =>
    if !c.opened || c.fail != 0 || s.chdBusy e p then s
    else
      match c.sends with
      | [] => s
      | x :: t =>
        if s.credits c < x.cred then
          (if c.credAt.isSome then s else s.setCtx e p (some { c with credAt := some s.limClock }))
        else if !x.jobs.isEmpty then
          if x.jobs.any (s.jobWaits p) then s
          else
            x.jobs.foldl (fun s j => s.issueOp (.chord e p) p j)
              (s.setCtx e p (some { c with sends := { x with jobs := [] } :: t, credAt := none }))
        else
          match x.sig with
          | some k =>
            (s.setCtx e p (some { c with sends := { x with sig := none } :: t })).issueOp (.chord e p) p (c.signalTo x.dest k)
          | none => s.setCtx e p (some { c with sends := t, sent := c.sent + 1, credAt := none })
def State.pump : Nat → State → Nat → Nat → State
  | 0, s, _, _ => s
  | n + 1, s, e, p => State.pump n (s.pumpOnce e p) e p

/-! Close (R316, R344). -/

/-- The members' instructions leave the context; `code` is the fault they end with. -/
def State.releaseMembers (s : State) (e p : Nat) (c : Ctx) (code : BitVec 8) (detail : Word) : State :=
  c.members.foldl (fun s m =>
    s.mapFlight m.facet m.unit fun i =>
      if i.ctx = some (e, p) then
        { i with ctx := none, fault := if i.fault = 0 then code else i.fault, detail := if i.fault = 0 then detail else i.detail
                 key := c.key }
      else i) s
def State.closeCtx (s : State) (e p : Nat) (c : Ctx) (code : BitVec 8) (detail : Word) : State :=
  (s.releaseMembers e p c code detail).setCtx e p none

/-- The state record of a ring (R339). -/
def stateRecord (next sent : Nat) (valid : Bool) : List Byte :=
  natLe 4 next ++ natLe 4 sent ++ natLe 1 (b2n valid) ++ natLe 55 0

/-- Bytes of a row record (R339). -/
def rowLen (dv : Nat) : Nat := 8 + 4 * dv

/-- The ranges whose bytes an aborted instruction leaves unspecified (R344): the outputs, the receive area and,
but for its record, the state area. One that a walk of its pages has faulted writes no output and no log-sum-exp (R218,
R470). -/
def Ctx.openRanges (c : Ctx) : List (GAddr × Nat) :=
  let outs := if c.walkFail then [] else c.issues.foldr (fun i l => (i.view (iOut i.ins) 0).rows ++ l) []
  let recv := gaddr (schRecv c.sch)
  let ring := match c.lead with
    | none => []
    | some i =>
      if c.op = 0x42 then
        let a := i.desc (iA i.ins)
        let st := gaddr (schState c.sch)
        (if aLse c.par = 0 ∨ c.walkFail then [] else [(gaddr (aLse c.par), dDim a 1 * dDim a 2 * 4)]) ++
          [({ st with off := st.off + 64 }, dDim a 1 * dDim a 2 * rowLen (aDv c.par))]
      else []
  outs ++ [(recv, schSize c.sch)] ++ ring

/-- The close of an aborted context (R344): the state record's VALID is 0 whether or not it had opened; one that had not has
written nothing else. -/
def State.closeAborted (s : State) (e p : Nat) (c : Ctx) : State :=
  let bad := c.fail.toNat == eDataError
  let s := if !c.opened then s else c.openRanges.foldl (fun s r =>
    (s.storeBytes (srcChord e p) p r.1.space r.1.off (s.freeBytes r.2) bad).bump) s
  let st := gaddr (schState c.sch)
  let s := if c.op = 0x42 then s.storeBytes (srcChord e p) p st.space st.off (stateRecord 0 0 false) false else s
  s.closeCtx e p c c.fail (s.chdDetail (some (e, p)) c.fail.toNat)

/-- Whether a context has landings to wait for (R325, R327, R332, R335). -/
def Ctx.waitsLand (s : State) (c : Ctx) : Bool :=
  let n := s.landings c
  let p := schP c.sch
  match c.op with
  | 0x40 => true
  | 0x41 => if c.phase = 0 then decide (n < p - 1) else schMode c.sch == 1 && decide (n < 2 * (p - 1))
  | 0x42 => decide (c.step + 2 ≤ p) && decide (n ≤ c.step)
  | _ => if c.phase = 0 then decide (n < p - 1) else decide (c.phase = 2) && decide (n < 2 * (p - 1))
def Ctx.gatherTotal (c : Ctx) (ml : Nat) : Nat :=
  let np := cdiv ml (schRows c.sch)
  if schMode c.sch = 0 then (schP c.sch - 1) * np else if c.own = schRoot c.sch then 0 else np
def Ctx.landLeft (s : State) (c : Ctx) : Bool :=
  if c.op = 0x40 then
    (match c.lead with | none => false | some i => decide (s.landings c < c.gatherTotal (dDim (i.desc (iA i.ins)) 1)))
  else c.waitsLand s
/-- Whether an exchange waits, its counts sent, for the credits that return the offsets (R332 phase 3). -/
def State.countCredits (s : State) (c : Ctx) : Bool :=
  c.op == 0x43 && c.phase == 1 && decide (s.credits c < 2 * (schP c.sch - 1))
/-- The cause of a stall (R343), with the rank it reports; whether the gang's compute is left is not in the
model (notes/assumptions/29.md). -/
def State.stallCause (s : State) (e p : Nat) (c : Ctx) : Nat × Nat :=
  let near := c.op == 0x40 || c.op == 0x42
  let land := c.landLeft s
  let out := !c.sends.isEmpty || s.chdBusy e p || s.countCredits c
  if (!land && !out) || Config.computeLeft s.fresh then (0, schRank c.sch c.own)
  else if land then (1, if near then schRank c.sch (prevIx c.sch c.own) else 0xFFF)
  else (2, if near then schRank c.sch (nextIx c.sch c.own) else 0xFFF)

/-- CHD_STALL_p at the end of a context by RING_STALL or COLL_ABORT (R346). -/
def State.writeStall (s : State) (e p : Nat) (c : Ctx) : State :=
  let x := s.stallCause e p c
  s.bump.setVal (.chdStall e p)
    (BitVec.ofNat 32 (x.1 * 2 ^ 24 + (if c.op = 0x42 then c.step % 4096 else 0) * 2 ^ 12 + x.2 % 4096))

/-- Whether the gang of a context has aborted (R122). -/
def State.gangFault (s : State) (c : Ctx) : Bool :=
  match s.gangOf c.queue c.wseq with
  | none => false
  | some g => g.fault.isSome

/-- An abort by this member (R344): STOP to every other member, once; then, or when STOP had come from another,
the close as soon as its operations are complete. -/
def State.abortPass (s : State) (e p : Nat) : State :=
  match s.ctx e p with
  | none => s
  | some c =>
    let s1 := if c.aborting then s else
      ((List.range (schP c.sch)).filter fun q => q != c.own).foldl
        (fun s q => s.issueOp (.chord e p) p (c.signalTo q 2)) (s.setCtx e p (some { c with sends := [], aborting := true }))
    if s1.chdBusy e p then s1
    else
      match s1.ctx e p with
      | none => s1
      | some c => s1.closeAborted e p c

/-- Whether a context has done everything (R316). -/
def State.ctxDone (s : State) (e p : Nat) (c : Ctx) : Bool :=
  c.opened && c.sends.isEmpty && !s.chdBusy e p &&
    match c.op with
    | 0x40 => (match c.lead with | none => false | some i => decide (c.gatherTotal (dDim (i.desc (iA i.ins)) 1) ≤ c.pieces))
    | 0x41 => c.phase == 1 && !c.waitsLand s
    | 0x42 => c.phase != 0
    | _ => c.phase == 2 && !c.waitsLand s

/-- A turn of the engine on a context: transfers, then the close or the abort. One that has not opened sends nothing (R316): it
closes with its gang, or else waits for its opening. -/
def State.chordTurn (s : State) (e p : Nat) : State :=
  match s.ctx e p with
  | none => s
  | some c =>
    let s := if c.fail = 0 then State.pump (3 * c.sends.length + 1) s e p else s
    match s.ctx e p with
    | none => s
    | some c =>
      if c.fail ≠ 0 then
        (if c.opened then s.abortPass e p else if s.gangFault c then s.closeAborted e p c else s)
      else if s.ctxDone e p c then
        s.closeCtx e p c (if c.op = 0x42 ∧ c.phase = 2 then BitVec.ofNat 8 ePreempted else 0) 0
      else s

/-- A turn on every context. -/
def State.chordTurns (s : State) : State := s.ctxs.foldl (fun s x => s.chordTurn (x.1 / 32) (x.1 % 32)) s
/-- A turn on the context an operation belongs to. -/
def State.chordOf (s : State) (o : OpOwner) : State :=
  match o with
  | .chord e p => s.chordTurn e p
  | _ => s

/-- A context ends with a fault of its own; the first stands. -/
def State.failCtx (s : State) (e p code : Nat) : State :=
  s.mapCtx e p fun c => if c.fail = 0 then { c with fail := BitVec.ofNat 8 code } else c

/-- Whether a context other than a ring's waits for a landing, or in the phase of the counts for their credits (R343). -/
def State.landWait (s : State) (c : Ctx) : Bool :=
  match c.op with
  | 0x40 => c.landLeft s && decide (s.landings c ≤ c.pieces)
  | 0x41 => c.waitsLand s
  | _ => c.waitsLand s || s.countCredits c

/-- Whether a step of a ring, or a single wait of another collective on CRED or LAND, has outlasted a limit (R343). -/
def State.outlasts (s : State) (c : Ctx) (limit : Nat) : Bool :=
  let due := fun (t : Nat) => decide (t + limit ≤ s.limClock)
  if c.op = 0x42 then due c.since
  else (s.landWait c && due c.since) ||
    (match c.credAt, c.sends with
     | some t, x :: _ => decide (s.credits c < x.cred) && due t
     | _, _ => false)

/-- RING_STALL (R343): a step of a ring, or a wait of another collective, has outlasted CHD_WATCHDOG_p. -/
def execRingStall (e : ChordId) (p : PartId) (s : State) : Host.Outcome State Fault Refusal :=
  match s.ctx e p with
  | none => .next s
  | some c =>
    let limit := s.get (.chdWatchdog e p) 23 0 * 1000
    if !s.live || !c.opened || c.fail != 0 || limit = 0 || !s.outlasts c limit then .next s
    else
      let s := ((s.writeStall e p c).flag (.chdLog e) 1 true).failCtx e p eRingStall
      .next (s.chordTurn e p)

/-- COLL_ABORT (R344): STOP has risen above its epoch, or the gang has aborted; an aborting context closes when its
operations are complete. -/
def execCollAbort (e : ChordId) (p : PartId) (s : State) : Host.Outcome State Fault Refusal :=
  match s.ctx e p with
  | none => .next s
  | some c =>
    if !s.live then .next s
    else if c.fail ≠ 0 then .next (s.chordTurn e p)
    else if s.gangFault c then
      .next ((s.failCtx e p eAborted).chordTurn e p)
    else if c.opened ∧ s.stops c ≠ 0 then
      let s := (s.writeStall e p c).flag (.chdLog e) 2 true
      let s := s.mapCtx e p fun c => { c with fail := BitVec.ofNat 8 eCollAbort, aborting := true, sends := [] }
      .next (s.chordTurn e p)
    else .next s

end Sys2Proof.Machine
end

