-- ==== Sys2Proof/Machine/Motion.lean ====
section
/-! DEFINITION. The encode engine's motion search (R363, R365, R366). The reference picture's samples, the vector cost and the
stream's reach are free values (notes/assumptions/11.md); the readings stand in notes/assumptions/71.md. -/

namespace Sys2Proof.Machine

/-- A motion vector: X and Y in quarter luma samples. -/
abbrev Vec := Int × Int

/-- What the search of a frame looks at: the stream and its reference, the picture's size and its luma samples, the columns of
the clean region and of the refreshed band (R363), the supplied vector and hints, the previous frame's vectors. -/
structure Search where
  cfg : BitVec 512
  ref : Nat
  width : Nat
  height : Nat
  luma : List Nat
  clean : Nat
  band : Nat
  gmv : Option Vec
  hints : List (List Vec)
  before : List (Option Vec)

def Search.cols (S : Search) : Nat := cdiv S.width 64
def Search.rows (S : Search) : Nat := cdiv S.height 64

/-- A component that marks no vector (R354, R366). -/
def noVec : Nat := 0x8000
/-- One entry of the hint table: X then Y, clamped to 1,024 samples, or none (R366). -/
def hintVec (b : List Byte) : List Vec :=
  let x := leNat (b.take 2)
  let c := fun (n : Nat) => max (-4096 : Int) (min (signedOf 16 n) 4096)
  if x = noVec then [] else [(c x, c (leNat ((b.drop 2).take 2)))]
/-- The valid hints of each superblock, in entry order. -/
def hintRows (table : List Byte) (n : Nat) : List (List Vec) :=
  (List.range n).map fun k => (List.range 4).flatMap fun e => hintVec ((table.drop (16 * k + 4 * e)).take 4)

/-- A component rounded to whole luma samples: the nearest, a half upward. -/
def wholeSample (x : Int) : Int := (x + 2) / 4 * 4
def Vec.whole (v : Vec) : Vec := (wholeSample v.1, wholeSample v.2)

/-- The last reference column that an `n` by `n` block at column `x` fetches: a fraction reads 4 samples further (R348). -/
def lastFetched (x n : Nat) (v : Vec) : Int := x + n - 1 + v.1 / 4 + (if v.1 % 4 = 0 then 0 else 4)

/-- Whether a block may use a vector: within the stream's reach, and, in the clean region, fetching only from the clean region at
least 8 samples from its edge (R363, R365). -/
def Search.allows (S : Search) (x n : Nat) (v : Vec) : Bool :=
  Config.vecReach S.cfg v.1 v.2 && (decide (S.clean * 64 ≤ x) || decide (lastFetched x n v + 8 < S.clean * 64))

/-- The luma SAD of an `n` by `n` block at (x, y) under a vector, over the samples that lie in the picture. -/
def Search.sad (S : Search) (x y n : Nat) (v : Vec) : Nat :=
  (allIdx [n, n]).foldl (fun t i =>
    let u := x + ix i 0
    let w := y + ix i 1
    if u < S.width ∧ w < S.height then
      t + (((S.luma.getD (w * S.width + u) 0 : Nat) : Int) - (Config.refSample S.cfg S.ref (4 * u + v.1) (4 * w + v.2) : Int)).natAbs
    else t) 0
/-- SAD plus λ times the vector-cost estimate (R365). -/
def Search.cost (S : Search) (x y n : Nat) (v : Vec) : Nat := S.sad x y n v + Config.vecCost S.cfg S.ref v.1 v.2

/-- The vector of least cost; a tie goes to the earlier. -/
def leastVec (cost : Vec → Nat) : List Vec → Option Vec
  | [] => none
  | v :: l => some (l.foldl (fun b u => if cost u < cost b then u else b) v)
/-- The best vector of a list for a block, the ones that it may not use skipped. -/
def Search.best (S : Search) (x y n : Nat) (l : List Vec) : Option Vec := leastVec (S.cost x y n) (l.filter (S.allows x n))

/-- The vectors at most `r` steps of `step` from a centre: the centre first, then row by row. -/
def around (r step : Nat) (v : Vec) : List Vec :=
  v :: (allIdx [2 * r + 1, 2 * r + 1]).map fun i =>
    (v.1 + step * ((ix i 0 : Nat) - (r : Int)), v.2 + step * ((ix i 1 : Nat) - (r : Int)))
/-- The half-sample, then the quarter-sample refinement of the 8 neighbours. -/
def Search.refine (S : Search) (x y n : Nat) (v : Vec) : Option Vec :=
  (S.best x y n (around 1 2 v)).bind fun h => S.best x y n (around 1 1 h)

/-- The integer-rounded candidates of superblock k, in the order of R365, given the vectors of the superblocks before it. -/
def Search.candidates (S : Search) (k : Nat) (done : List (Option Vec)) : List Vec :=
  let col := k % S.cols
  let near := fun (ok : Bool) (i : Nat) => if ok then (done.getD i none).toList else []
  ([(0, 0)] ++ S.gmv.toList ++ S.hints.getD k [] ++ near (col != 0) (k - 1) ++ near (decide (S.cols ≤ k)) (k - S.cols) ++
    near (decide (S.cols ≤ k) && decide (col + 1 < S.cols)) (k + 1 - S.cols) ++ (S.before.getD k none).toList).map Vec.whole

/-- What the search finds for superblock k: its vector, then those of its sixteen 16 × 16 sub-blocks in raster order; nothing
where the refresh band intra-codes it (R363) or no candidate is allowed. -/
def Search.superblock (S : Search) (k : Nat) (done : List (Option Vec)) : List (Option Vec) :=
  let col := k % S.cols
  let x := 64 * col
  let y := 64 * (k / S.cols)
  let start := if S.clean ≤ col ∧ col < S.band then none else S.best x y 64 (S.candidates k done)
  match start.bind fun v => S.best x y 64 (around 8 4 v) with
  | none => List.replicate 17 none
  | some v =>
    S.refine x y 64 v :: (List.range 16).map fun b =>
      let bx := x + 16 * (b % 4)
      let byy := y + 16 * (b / 4)
      (S.best bx byy 16 (around 2 4 v)).bind fun u => S.refine bx byy 16 u

/-- The whole frame, superblock by superblock in raster order. -/
def Search.frame (S : Search) : List (List (Option Vec)) :=
  (List.range (S.cols * S.rows)).foldl (fun l k => l ++ [S.superblock k (l.map fun m => m.getD 0 none)]) []

end Sys2Proof.Machine
end

