-- ==== Sys2Proof/Machine/Decoder.lean ====
section
/-! DEFINITION. What a decode engine does with the items of a chunk (spec/13_video_codec.md R347, R349, R350, R367 to R370): which
streams it supports, concealment, and the marks of a frame's map. What the codec's standard makes of the bytes is the free value
Config.decode (notes/assumptions/11.md); the readings stand in notes/assumptions/76.md. -/

namespace Sys2Proof.Machine

open Sys2Proof.Config (SeqHeader Block Picture Decoded DecItem DecResult)

/-! The stream configuration record (R356). -/
abbrev Cfg := BitVec 512
def cRef (c : Cfg) : Nat := fld c 63 0
def cRefSize (c : Cfg) : Nat := fld c 95 64 * 65536
def cW (c : Cfg) : Nat := fld c 111 96
def cH (c : Cfg) : Nat := fld c 127 112
def cCodec (c : Cfg) : Nat := fld c 129 128
def cTen (c : Cfg) : Bool := c.getLsbD 130
def cMode (c : Cfg) : Nat := fld c 137 136
def cRows (c : Cfg) : Nat := fld c 151 144
def cGir (c : Cfg) : Nat := fld c 159 152
def cRate (c : Cfg) : Nat := fld c 191 160
def cBuf (c : Cfg) : Nat := fld c 223 192
def cFpsN (c : Cfg) : Nat := fld c 239 224
def cFpsD (c : Cfg) : Nat := fld c 255 240
def cQp (c : Cfg) : Nat := fld c 263 256
def cQpMin (c : Cfg) : Nat := fld c 271 264
def cQpMax (c : Cfg) : Nat := fld c 279 272
def cNref (c : Cfg) : Nat := fld c 287 280
def cDeadline (c : Cfg) : Nat := fld c 319 288
def cPitch (c : Cfg) : Nat := fld c 335 320 * 64
def cOut (c : Cfg) : Nat := fld c 340 336
def cRing (c : Cfg) : Nat := fld c 415 352
def cVer (c : Cfg) : Nat := fld c 483 480

/-- Superblocks of a frame (R350). -/
def cWsb (c : Cfg) : Nat := cdiv (cW c) 64
def cHsb (c : Cfg) : Nat := cdiv (cH c) 64

/-- Sizes of a stream (R350). -/
def sizeLegal (w h : Nat) : Bool :=
  w % 2 == 0 && decide (64 ≤ w) && decide (w ≤ 4096) && h % 2 == 0 && decide (64 ≤ h) && decide (h ≤ 2304) && decide (w * h ≤ 8912896)
/-- A size that a configuration takes. -/
def sizeFits (c : Cfg) (w h : Nat) : Bool := sizeLegal w h && decide (w ≤ cW c) && decide (h ≤ cH c)

/-- Whether a sequence header or SPS requires no more than R347, R350 and the configuration allow (R368). -/
def headerFits (c : Cfg) (h : SeqHeader) : Bool :=
  sizeFits c h.width h.height && decide (h.level ≤ 51) && (!h.ten || cTen c) &&
    (if cCodec c = 0 then h.profile == 0 && (h.mono || h.yuv420)
     else
       decide (1 ≤ h.profile) && decide (h.profile ≤ 3) && h.yuv420 && !h.mono && (!h.ten || h.profile == 2) &&
         decide (h.buffers ≤ cNref c))

/-! Frames. -/

/-- Superblock columns of a width, and the superblocks of a picture. -/
def sbCols (w : Nat) : Nat := cdiv w 64
def sbCount (w h : Nat) : Nat := sbCols w * cdiv h 64
/-- The mid-range code (R349). -/
def midCode (ten : Bool) : Nat := if ten then 512 else 128

/-- Plane k of a frame (0 luma, 1 Cb, 2 Cr), its width and its height. -/
def planeOfFrame (f : Decoded) (k : Nat) : List Nat := match k with | 0 => f.luma | 1 => f.cb | _ => f.cr
def planeSize (k n : Nat) : Nat := if k = 0 then n else n / 2
/-- A code of a frame, the position clamped to the picture. -/
def sampleAt (f : Decoded) (k : Nat) (x y : Int) : Nat :=
  let w := planeSize k f.width
  let h := planeSize k f.height
  let c := fun (v : Int) (n : Nat) => (max 0 (min v ((n : Int) - 1))).toNat
  (planeOfFrame f k).getD (c y h * w + c x w) 0

/-- The luma displacement of the superblock at column and row (cx, cy): the integer part of the co-located vector of the frame decoded
last, zero where that has none (R369). -/
def displace (f : Decoded) (cx cy : Nat) : Int × Int :=
  match f.vecs.getD (cy * sbCols f.width + cx) none with
  | none => (0, 0)
  | some v => (v.1 / 4, v.2 / 4)
/-- A concealed code: copied from the frame decoded last, or mid-range where there is none. -/
def concealed (last : Option Decoded) (ten : Bool) (k x y : Nat) : Nat :=
  match last with
  | none => midCode ten
  | some f =>
    let n := planeSize k 64
    let d := displace f (x / n) (y / n)
    let z := planeSize k 2
    sampleAt f k (x + d.1 * z / 2) (y + d.2 * z / 2)

/-- A plane of a picture of which some superblocks are concealed. -/
def rebuild (last : Option Decoded) (ten : Bool) (w h : Nat) (bad : List Bool) (k : Nat) (codes : List Nat) : List Nat :=
  let pw := planeSize k w
  let n := planeSize k 64
  (allIdx [pw, planeSize k h]).map fun i =>
    let x := ix i 0
    let y := ix i 1
    if bad.getD (y / n * sbCols w + x / n) false then concealed last ten k x y else codes.getD (y * pw + x) 0

/-! Marks (R370). -/

/-- The mark that a superblock inherits: 2 where a superblock it is predicted from is marked. -/
def inherit (kept : List Decoded) (marks : Decoded → List Nat) (refs : List (Nat × Nat)) : Nat :=
  if refs.any fun r => kept.any fun f => f.number == r.1 && (marks f).getD r.2 0 != 0 then 2 else 0
/-- Whether a superblock is predicted from a frame that is missing. -/
def missing (kept : List Decoded) (refs : List (Nat × Nat)) : Bool := refs.any fun r => !(kept.any fun f => f.number == r.1)
/-- A superblock's byte in the map: concealed, or predicted from a marked area. -/
def mapByte (err miss : Nat) : Nat := if err = 1 ∨ miss = 1 then 1 else if err = 0 ∧ miss = 0 then 0 else 2

/-! Items. -/

/-- A chunk as it is decoded: what the stream holds, the frames that fall due, the errors, the superblocks concealed, and whether
the job ends with UNSUPPORTED. -/
structure DecRun where
  dec : DecStream
  out : List Decoded
  errors : Nat
  conceals : Nat
  stop : Bool
  deriving DecidableEq, Repr

/-- UNSUPPORTED: the next valid sequence header restarts decoding. -/
def DecRun.halt (r : DecRun) : DecRun :=
  { r with stop := true, dec := { r.dec with header := none, begun := false, recover := none } }
/-- Frames that fall due, of those kept. -/
def dueFrames (kept : List Decoded) (due : List Nat) : List Decoded := due.filterMap fun n => kept.find? fun f => f.number == n

/-- The recovery point once a picture is decoded: that of the SEI at which decoding of an HEVC stream began, until an IRAP picture. -/
def recoverAfter (c : Cfg) (d : DecStream) (p : Picture) : Option Int :=
  if p.irap || cCodec c != 1 then none else if d.begun then d.recover else p.sei.map fun k => p.poc + k

/-- A picture that is decoded: its frame. A header in error, or a size beyond what R350 and the configuration allow, conceals the whole
frame, in the size of the frame decoded last; a superblock in an abandoned unit, or one that lacks a reference, is concealed,
but where decoding began at an SEI picture a missing reference is none of the errors. -/
def decodePicture (c : Cfg) (h : SeqHeader) (d : DecStream) (p : Picture) : Decoded :=
  let last := d.kept.getLast?
  let whole := p.bad || !sizeFits c p.width p.height
  let size := if whole then (match last with | some f => (f.width, f.height) | none => (h.width, h.height)) else (p.width, p.height)
  let n := sbCount size.1 size.2
  let blk := fun (k : Nat) => p.blocks.getD k { bad := false, vec := none, refs := [] }
  let recover := recoverAfter c d p
  let lacks := fun (k : Nat) => missing d.kept (blk k).refs
  let bad := (List.range n).map fun k => whole || (blk k).bad || (recover.isNone && lacks k)
  let past := match recover with | none => true | some r => decide (r ≤ p.poc)
  { number := d.count, width := size.1, height := size.2, ten := h.ten, mono := h.mono
    luma := rebuild last h.ten size.1 size.2 bad 0 p.luma
    cb := rebuild last h.ten size.1 size.2 bad 1 p.cb
    cr := rebuild last h.ten size.1 size.2 bad 2 p.cr
    vecs := (List.range n).map fun k => if bad.getD k false then none else (blk k).vec
    err := (List.range n).map fun k => if bad.getD k false then 1 else inherit d.kept Decoded.err (blk k).refs
    miss := (List.range n).map fun k =>
      if past || bad.getD k false then 0 else if lacks k then 1 else inherit d.kept Decoded.miss (blk k).refs
    grain := p.grain }

/-- The superblocks of a frame that are concealed. -/
def concealCount (f : Decoded) : Nat := (f.err.filter fun m => m == 1).length

/-- One item. A decoder of HEVC that has not begun skips a picture that is no IRAP picture and carries no recovery-point SEI. -/
def DecRun.item (c : Cfg) (r : DecRun) (it : DecItem) : DecRun :=
  if r.stop then r
  else
    match it with
    | .error => { r with errors := r.errors + 1 }
    | .header h => if headerFits c h then { r with dec := { r.dec with header := some h } } else r.halt
    | .show due => { r with out := r.out ++ dueFrames r.dec.kept due }
    | .picture p due =>
      match r.dec.header with
      | none => r.halt
      | some h =>
        if cCodec c = 1 ∧ r.dec.begun = false ∧ p.irap = false ∧ p.sei = none then r
        else if cCodec c = 0 ∧ cNref c < p.held then r.halt
        else
          let f := decodePicture c h r.dec p
          let kept := r.dec.kept ++ [f]
          { r with
            dec := { r.dec with
              begun := true, count := r.dec.count + 1
              recover := recoverAfter c r.dec p
              kept := kept.filter fun x => x.number == f.number || p.keep.contains x.number }
            out := r.out ++ dueFrames kept due
            errors := r.errors + p.errors + b2n (p.bad || !sizeFits c p.width p.height)
            conceals := r.conceals + concealCount f }

/-- A whole chunk; a job that ends with UNSUPPORTED has no output. -/
def decodeChunk (c : Cfg) (d : DecStream) (x : DecResult) : DecRun :=
  let r := x.items.foldl (DecRun.item c) { dec := d, out := [], errors := 0, conceals := 0, stop := false }
  if r.stop then { r with out := [] } else r

/-! Output (R367). -/

/-- A sample's bytes: 10-bit codes in P010, 8-bit codes in NV12 or shifted left by 2 in P010. -/
def sampleBytes (cfg : Cfg) (ten : Bool) (code : Nat) : List Byte :=
  if cTen cfg then natLe 2 ((if ten then code % 1024 else code % 256 * 4) * 64) else natLe 1 (code % 256)

/-- A plane as it is put out, its film grain applied. -/
def outPlane (f : Decoded) (k : Nat) : List Nat :=
  match f.grain with
  | none => planeOfFrame f k
  | some g => Config.filmGrain g k (planeOfFrame f k)

/-- The bytes of an output frame, from the start of its slot: its own width and height in the stream's pitch. -/
def frameCells (cfg : Cfg) (f : Decoded) : List (Nat × List Byte) :=
  let w := f.width
  let h := f.height
  let z := if cTen cfg then 2 else 1
  let y := outPlane f 0
  let cb := outPlane f 1
  let cr := outPlane f 2
  let luma := (allIdx [w, h]).map fun i =>
    (ix i 1 * cPitch cfg + z * ix i 0, sampleBytes cfg f.ten (y.getD (ix i 1 * w + ix i 0) 0))
  let chroma := (allIdx [2, w / 2, h / 2]).map fun i =>
    let k := ix i 2 * (w / 2) + ix i 1
    let code := if f.mono then midCode f.ten else (if ix i 0 = 0 then cb else cr).getD k 0
    (h * cPitch cfg + ix i 2 * cPitch cfg + z * (2 * ix i 1 + ix i 0), sampleBytes cfg f.ten code)
  luma ++ chroma

/-- The bytes of frame n's map (R370). -/
def mapBytes (n : Nat) (f : Decoded) : List Byte :=
  let m := (f.err.zip f.miss).map fun x => mapByte x.1 x.2
  natLe 4 n ++ natLe 4 (m.filter fun x => x ≠ 0).length ++ natLe 2 f.width ++ natLe 2 f.height ++ natLe 4 0 ++
    m.map fun x => BitVec.ofNat 8 x

end Sys2Proof.Machine
end

