-- ==== Sys2Proof/Machine/Bitstream.lean ====
section
/-! DEFINITION. The stream that an encode engine emits, unit by unit (spec/13_video_codec.md R348, R359, R361, R363), and its rate
control (R362). The payloads are free values (notes/assumptions/11.md); how AV1 and HEVC frame them is the standards'
(PRESUMED, notes/assumptions/77.md). -/

namespace Sys2Proof.Machine

/-! The declared level (R348). -/

/-- Ten times the levels up to 5.1, in ascending order. -/
def levels (codec : Nat) : List Nat :=
  if codec = 0 then [20, 21, 30, 31, 40, 41, 50, 51] else [10, 20, 21, 30, 31, 40, 41, 50, 51]
/-- The lowest level that admits the stream, and whether in the High tier, which AV1 alone declares, where the Main tier does not. -/
def declared (c : Cfg) : Option (Nat × Bool) :=
  ((levels (cCodec c)).find? fun l => Config.levelAdmits c l false || (cCodec c == 0 && Config.levelAdmits c l true)).map fun l =>
    (l, !Config.levelAdmits c l false)
/-- A parameter set of the stream. -/
def paramSet (c : Cfg) (k : Nat) : List Byte :=
  match declared c with
  | none => []
  | some (l, high) => Config.paramSet c l high k

/-! AV1: OBUs, each with obu_size (R359). -/

/-- leb128. -/
def leb128 : Nat → Nat → List Byte
  | 0, _ => []
  | n + 1, v => if v < 128 then natLe 1 v else natLe 1 (128 + v % 128) ++ leb128 n (v / 128)
/-- An OBU of a type: 1 sequence header, 2 temporal delimiter, 3 frame header, 4 tile group. -/
def obu (type : Nat) (payload : List Byte) : List Byte := natLe 1 (8 * type + 2) ++ leb128 8 payload.length ++ payload
/-- A frame header's payload begins with show_existing_frame 0, frame_type (0 KEY_FRAME, 1 INTER_FRAME) and show_frame 1. -/
def av1Header (key : Bool) (payload : List Byte) : List Byte :=
  natLe 1 ((if key then 0 else 32) + 16 + (payload.getD 0 0).toNat % 16) ++ payload.drop 1
def av1Unit (c : Cfg) (key first : Bool) (frame tiles : List Byte) : List Byte :=
  (if first then obu 2 [] ++ (if key then obu 1 (paramSet c 0) else []) ++ obu 3 (av1Header key frame) else []) ++ obu 4 tiles

/-! HEVC: an Annex B byte stream (R359). -/

/-- A NAL unit of a type behind its start code: 1 a slice of a picture that is no IRAP, 19 one of an IDR picture, 32 VPS, 33 SPS, 34 PPS,
35 the access unit delimiter, 39 an SEI. -/
def nal (type : Nat) (payload : List Byte) : List Byte := natLe 4 0x01000000 ++ natLe 1 (2 * type) ++ natLe 1 1 ++ payload
/-- Bits, the first the highest of the first byte. -/
def bitBytes (l : List Bool) : List Byte :=
  (List.range (cdiv l.length 8)).map fun i => BitVec.ofNat 8 ((List.range 8).foldl (fun v k => 2 * v + b2n (l.getD (8 * i + k) false)) 0)
/-- A positive number as se(v). -/
def seBits (p : Nat) : List Bool :=
  let k := Nat.log2 (2 * p)
  List.replicate k false ++ (List.range (k + 1)).map fun i => (2 * p).testBit (k - i)
/-- The recovery-point SEI (R363): recovery_poc_cnt = P, exact_match_flag 1, broken_link_flag 0, the payload closed by a 1 where it is
not a whole number of bytes. -/
def recoverySei (p : Nat) : List Byte :=
  let b := seBits p ++ [true, false]
  let l := bitBytes (if b.length % 8 = 0 then b else b ++ [true])
  natLe 1 6 ++ natLe 1 l.length ++ l ++ natLe 1 0x80
def hevcUnit (c : Cfg) (key first sei : Bool) (slice : List Byte) : List Byte :=
  (if first then
     nal 35 (paramSet c 3) ++ (if key then nal 32 (paramSet c 0) ++ nal 33 (paramSet c 1) ++ nal 34 (paramSet c 2) else []) ++
       (if sei then nal 39 (recoverySei (cGir c)) else [])
   else []) ++ nal (if key then 19 else 1) slice

/-! A frame. -/

/-- Units of a frame (R359). -/
def unitCount (cfg : Cfg) : Nat := cdiv (cHsb cfg) (cRows cfg)
/-- The bytes of a frame's units; a refresh cycle begins with it where `sei` says so. -/
def frameUnits (c : Cfg) (key sei : Bool) (x : Config.EncResult) : List (List Byte) :=
  (List.range (unitCount c)).map fun k =>
    let p := x.units.getD k []
    if cCodec c = 0 then av1Unit c key (k == 0) x.frame p else hevcUnit c key (k == 0) sei p

/-! Rate control (R362). -/

/-- The rate-control QP of a superblock row: QP_INIT, or the stepping's choice within its bounds. -/
def qpClamp (cfg : Cfg) (q : Nat) : Nat :=
  let lo := if cMode cfg = 2 then cQp cfg else cQpMin cfg
  max lo (min q (cQpMax cfg))
def rowQps (cfg : Cfg) (start : Nat) (free : List Nat) : Nat → List Nat
  | 0 => []
  | n + 1 =>
    let l := rowQps cfg start free n
    let q := if cMode cfg = 0 then cQp cfg
      else
        match l.getLast? with
        | none => qpClamp cfg start
        | some x => qpClamp cfg (max (x - 2) (min (free.getD n x) (x + 2)))
    l ++ [q]

/-- The buffer's fullness, times FPS_NUM, after a complete frame of `bits` bits. -/
def fullAfter (cfg : Cfg) (full bits : Nat) : Nat :=
  if cMode cfg = 0 then 0 else full + bits * cFpsN cfg - cRate cfg * 1000 * cFpsD cfg
/-- Whether a fullness, times FPS_NUM, lies above the buffer. -/
def overFull (cfg : Cfg) (full : Nat) : Bool := cMode cfg != 0 && decide (cBuf cfg * 1000 * cFpsN cfg < full)
/-- The QPs of a frame's rows. The buffer is exceeded only by a frame that reaches QP_MAX. -/
def frameQps (cfg : Cfg) (full prev bits : Nat) (free : List Nat) : List Nat :=
  let l := rowQps cfg (Config.startQp cfg full prev) free (cHsb cfg)
  if overFull cfg (fullAfter cfg full bits) && !overFull cfg full && !l.contains (cQpMax cfg) then l.map fun _ => cQpMax cfg else l

end Sys2Proof.Machine
end

