-- ==== Sys2Proof/Machine/Fused.lean ====
section
/-! DEFINITION. The fused instructions (spec/12_collectives_and_rings.md R324 to R339): GATHER_MATMUL, MATMUL_SCATTER,
EXCHANGE_V and RING_ATTN, the opening of their context and the events that carry each of them on. -/

namespace Sys2Proof.Machine

/-- Writes an output that is formed element by element, under the facet's quantiser. -/
def State.putSpec (s : State) (i : Iss) (o : OutSpec) : State :=
  match putOut o (s.memOf o.v.base.space) with
  | (x, q) => (s.storeOut i o.v.base.space x false).logQuant i.f q

/-- The bytes of a row of a PLAIN tensor: elements, and scales of an MX tensor, from their base addresses. A row whose blocks lie
along DIM1 shares the scales of its block of rows, one for each of DIM0. -/
def rowElems (v : View) (x : Idx) : Nat × Nat := (elemBit v (v.abs x) / 8, cdiv (dDim v.d 0 * v.fmt.width) 8)
def rowScales (v : View) (x : Idx) : Nat × Nat :=
  if v.fmt.isMx then (scaleByte v (v.abs x), if dBlockAxis v.d = 0 then cdiv (dDim v.d 0) 32 else dDim v.d 0) else (0, 0)

/-- Whether bytes at a base hold poison. -/
def State.partPoisoned (s : State) (a : GAddr) (r : Nat × Nat) : Bool := a.space != 3 && s.poisoned (a.off + r.1) r.2

/-- Where a tensor of member q begins: an address of this member whose like it keeps, and what is added, for the elements and
for the scales. -/
structure PeerAt where
  elems : Nat × Nat
  scales : Nat × Nat

/-- The puts that carry row x of view v, of bytes that `rd` gives, to row y of a view like w that member q keeps. -/
def Ctx.rowPuts (c : Ctx) (q : Nat) (to1 : PeerAt) (rd : GAddr → Nat × Nat → List Byte) (bad : GAddr → Nat × Nat → Bool)
    (v w : View) (x y : Idx) : List RemJob :=
  let one := fun (a : GAddr) (k : Nat × Nat) (r t : Nat × Nat) =>
    if r.2 = 0 then [] else c.putTo q k.1 (k.2 + t.1) (rd a r) (bad a r && (gaddr k.1).space != 3)
  one v.base to1.elems (rowElems v x) (rowElems w y) ++ one v.sbase to1.scales (rowScales v x) (rowScales w y)

/-- Bytes of a part of a tensor as they stand, and with the writes before them. -/
def State.partBytes (s : State) (p : Nat) (a : GAddr) (r : Nat × Nat) : List Byte := s.rdMem p a.space (a.off + r.1) r.2
def State.partLatest (s : State) (p : Nat) (a : GAddr) (r : Nat × Nat) : List Byte := s.rdLatest p a.space (a.off + r.1) r.2

/-- Where member q keeps its tensor like w: at the like of its addresses; or, in a receive area, its scales at the next 64-byte
boundary after the elements (R325). -/
def peerTensor (w : View) : PeerAt := { elems := (dAddr w.d, 0), scales := (dScaleAddr w.d, 0) }
def peerArea (w : View) (d : Sch) : PeerAt := { elems := (schRecv d, 0), scales := (schRecv d, w.sbase.off - w.base.off) }

/-- The rows of a tensor at indices of DIM1, in every batch index. -/
def rowsAt (d : Desc) (rows : List Nat) : List Idx :=
  (allIdx [1, 1, dDim d 2, dDim d 3, dDim d 4]).foldr (fun b l => (rows.map fun r => ixSet b 1 r) ++ l) []

/-- Rows lo to hi − 1 in pieces of Rp rows, in ascending order. -/
def pieces (lo hi rp : Nat) : List (List Nat) :=
  (List.range (cdiv (hi - lo) rp)).map fun j => (List.range (min (lo + j * rp + rp) hi - (lo + j * rp))).map fun k => lo + j * rp + k

/-! GATHER_MATMUL (R324, R325). -/

/-- The gathered tensor in the receive area: A's format, dense rows of 64-byte multiples, P × Ml of them
(notes/assumptions/28.md). -/
def recvView (a : View) (d : Sch) : View :=
  let k := dDim a.d 0
  let rows := schP d * dDim a.d 1
  let s1 := cdiv (k * a.fmt.width) 512
  let s2 := rows * s1
  let s3 := dDim a.d 2 * s2
  let s4 := dDim a.d 3 * s3
  let x := putFld (putFld (putFld (putFld a.d 319 288 s1) 351 320 s2) 383 352 s3) 415 384 s4
  let x := putFld (putFld (putFld x 191 160 rows) 462 460 (max 2 (dNdim a.d))) 447 416 0
  let x := putFld x 63 0 (schRecv d)
  { d := if a.fmt.isMx then putFld x 127 64 (schRecv d + 64 * (dDim a.d 4 * s4)) else x, start := 0, kp := a.kp }
/-- Bytes of the gathered tensor. -/
def recvNeed (a : View) (d : Sch) : Nat :=
  let s1 := cdiv (dDim a.d 0 * a.fmt.width) 512
  64 * (s1 * schP d * volume ((dDims a.d).drop 1)) +
    (if a.fmt.isMx then cdiv (dDim a.d 0) 32 * schP d * volume ((dDims a.d).drop 1) else 0)

/-- The capacity check of R140: resource and KiB. -/
def gatherCapacity (a b : View) (d : Sch) : Option (Nat × Nat) :=
  let ea := a.fmt.width * 32 + (if a.fmt.isMx then 8 else 0)
  let panel := panelBytes b.fmt b.kp + (if b.fmt.isMx then b.kp / 32 * 512 else 0)
  let need := cdiv (2 * schRows d * dDim a.d 0 * ea) 256 + 2 * panel
  if 8306688 < need then some (2, cdiv need 1024) else none

/-- The product's shape with P × Ml (or Ml) rows. -/
def gatherShape (a b out : Desc) (d : Sch) : Nat :=
  mmDims (if schMode d = 0 then putFld a 191 160 (schP d * dDim a 1) else a) b out

def planGather (s : State) (i : Iss) : Plan :=
  let kp := i.kpOf (iA i.ins) (iB i.ins)
  let a := i.view (iA i.ins) kp
  let b := i.view (iB i.ins) kp
  let out := i.view (iOut i.ins) 0
  let d := i.desc (iAux i.ins)
  let cap := if dKind d = 3 then gatherCapacity a b d else none
  let code := leastCode
    [useCode i.ins true true true false true 0 false true, ctlCode i.ins true false eSplitMode true false, chkCode i.ins,
     s.slotCode i (iA i.ins) { aSlot true with outlier := true },
     when (dCap a.d != 0) eFormatPair, s.slotCode i (iB i.ins) (bSlot kp), s.outCode i (iOut i.ins) plainSlot,
     pairCode a.d b.d, (if dKind d = 3 then gatherShape a.d b.d out.d d else 0),
     when (dDim a.d 0 % 32 != 0) eKAlign, when cap.isSome eIssueCapacity,
     s.schCode i.p 0x40 d (recvNeed a d) 0 0]
  let els := (allIdx out.dims).filter (i.share out.dims)
  let pl := s.planFused i ([a, b] ++ (if iAcc i.ins then [out] else [])) [out] d 0 0
    (!els.isEmpty) false code
  { pl with
    cap := cap.getD (0, 0)
    foot := pl.foot ++ areaFoot (schRecv d) (schSize d) true
    near := pl.near ++ areaNear (schRecv d) (schSize d) }

/-- GATHER_MATMUL. -/
def execGatherMatmul (f : FacetId) (s : State) : Host.Outcome State Fault Refusal :=
  .next (s.tryIssue f 0x40 .array planGather)

/-- The source of an output row: the member whose row it is, and the row of its piece. -/
def gatherFrom (d : Sch) (ml r : Nat) : Nat × Nat := if schMode d = 0 then (r / max ml 1, r % max ml 1) else (schRoot d, r)
/-- Whether a source's row has landed when k pieces have. -/
def Ctx.rowLanded (c : Ctx) (ml k r : Nat) : Bool :=
  let g := gatherFrom c.sch ml r
  let np := cdiv ml (schRows c.sch)
  if g.1 = c.own then true
  else if schMode c.sch = 0 then
    decide ((c.own + schP c.sch - 1 - g.1) % schP c.sch * np + g.2 / schRows c.sch < k)
  else decide (g.2 / schRows c.sch < k)

/-- Rows of an output that are written together: those of a block along DIM1, or of a quantisation tile. -/
def rowGroup (d : Desc) : Nat := if dCap d ≠ 0 then 8 else if (dFmt d).blocked ∧ dBlockAxis d = 1 then 32 else 1
def Ctx.rowReady (c : Ctx) (out : Desc) (ml k r : Nat) : Bool :=
  let n := rowGroup out
  (List.range n).all fun j => let x := r / n * n + j; decide (dDim out 1 ≤ x) || c.rowLanded ml k x

/-- The reduction of an output element: from the own rows in place, from the others in the receive area. -/
def State.gatherRed (s : State) (c : Ctx) (i : Iss) (x : Idx) : Red :=
  let kp := i.kpOf (iA i.ins) (iB i.ins)
  let a := i.view (iA i.ins) kp
  let b := i.view (iB i.ins) kp
  let ml := dDim a.d 1
  let g := gatherFrom c.sch ml (ix x 1)
  let h : Share := { lo := 0, hi := passCount (dDim a.d 0) kp, first := true, split2 := false }
  let start := s.startAt i (i.view (iOut i.ins) 0) (i.view (iC i.ins) 0) x
  if g.1 = c.own then s.redOf i a b none none h start (ixSet x 1 g.2)
  else s.redOf i (recvView a c.sch) b none none h start (ixSet x 1 (g.1 * ml + g.2))

/-- A member's output rows that have become ready: from `before` to `k` landed pieces. Where OUT overlaps A or B their values are
free (R132, notes/assumptions/68.md). -/
def State.gatherWrite (s : State) (c : Ctx) (i : Iss) (before : Option Nat) (k : Nat) : State :=
  let out := i.view (iOut i.ins) 0
  let ml := dDim (i.desc (iA i.ins)) 1
  let mine := fun (x : Idx) =>
    c.rowReady out.d ml k (ix x 1) && (match before with | none => true | some n => !c.rowReady out.d ml n (ix x 1))
  let els := ((allIdx out.dims).filter (i.share out.dims)).filter mine
  let kp := i.kpOf (iA i.ins) (iB i.ins)
  let val := fun (x : Idx) => let r := s.gatherRed c i x; r.run 0 (passCount r.k kp) r.start
  let clash := outClash out [i.view (iA i.ins) 0, i.view (iB i.ins) kp]
  let o := i.outSpec s out fun x => if clash then s.freeWord (ravel out.dims x) else (val x).1
  let t5 := if before.isSome then 0 else
    s.t5Count i.p (i.view (iB i.ins) kp) (usedB (i.view (iB i.ins) kp) ((allIdx out.dims).filter (i.share out.dims))
      { lo := 0, hi := passCount (dDim (i.desc (iA i.ins)) 0) kp, first := true, split2 := false } (dDim (i.desc (iA i.ins)) 0))
  ((s.putSpec i { o with mine := fun x => o.mine x && mine x }).bumpIf clash).logEv i.f (els.foldl (fun e x => e.or (val x).2) ev0) t5

/-- A piece to the next member (R325). -/
def State.gatherSend (s : State) (c : Ctx) (i : Iss) (src : View) (g : Nat) (rows : List (Nat × Nat)) : ChdSend :=
  let a := i.view (iA i.ins) 0
  let w := recvView a c.sch
  let q := nextIx c.sch c.own
  { dest := q, cred := 1
    jobs := rows.foldr (fun r l =>
      (rowsAt a.d [0]).foldr (fun b l =>
        c.rowPuts q (peerArea w c.sch) (s.partBytes i.p) s.partPoisoned src w (ixSet b 1 r.1) (ixSet b 1 (g * dDim a.d 1 + r.2)) ++ l) l) []
    sig := some 1 }

/-- The opening of a gather: the credit to the previous member, the own pieces, the own rows. -/
def State.gatherOpen (s : State) (e p : Nat) (c : Ctx) (i : Iss) : State :=
  let d := c.sch
  let a := i.view (iA i.ins) 0
  let root := schMode d == 1
  let s := if root && c.own == schRoot d then s else s.issueOp (.chord e p) p (c.signalTo (prevIx d c.own) 0)
  let own : List ChdSend :=
    if schP d = 1 ∨ (root && c.own != schRoot d) then []
    else (pieces 0 (dDim a.d 1) (schRows d)).map fun l => s.gatherSend c i a c.own (l.map fun r => (r, r))
  c.issues.foldl (fun s m => s.gatherWrite c m none 0) (s.mapCtx e p fun c => { c with sends := own })

/-- Whether a piece in the receive area holds poison. -/
def State.recvPoisoned (s : State) (w : View) (rows : List Nat) : Bool :=
  (rowsAt w.d rows).any fun x => s.partPoisoned w.base (rowElems w x) || s.partPoisoned w.sbase (rowScales w x)

/-- GATHER_PIECE_LANDED (R325): the next piece that LAND shows is passed on, unless its source is the next member,
and the gang computes the rows it makes ready. -/
def execGatherPieceLanded (e : ChordId) (p : PartId) (s : State) : Host.Outcome State Fault Refusal :=
  match s.ctx e p with
  | none => .next s
  | some c =>
    match c.lead with
    | none => .next s
    | some i =>
      let a := i.view (iA i.ins) 0
      let ml := dDim a.d 1
      if !s.live || c.op != 0x40 || !c.opened || c.fail != 0 || decide (c.gatherTotal ml ≤ c.pieces) ||
          decide (s.landings c ≤ c.pieces) then .next s
      else
        let d := c.sch
        let np := cdiv ml (schRows d)
        let g := if schMode d = 0 then (c.own + 2 * schP d - 1 - c.pieces / np) % schP d else schRoot d
        let rows := (pieces 0 ml (schRows d)).getD (c.pieces % np) []
        let w := recvView a d
        if s.recvPoisoned w (rows.map fun r => g * ml + r) then .next ((s.failCtx e p eDataError).chordTurn e p)
        else
          let fwd : List ChdSend :=
            if g = nextIx d c.own then [] else [s.gatherSend c i w g (rows.map fun r => (g * ml + r, r))]
          let s1 := s.setCtx e p (some { c with pieces := c.pieces + 1, sends := c.sends ++ fwd, since := s.limClock })
          .next ((c.issues.foldl (fun s m => s.gatherWrite c m (some c.pieces) (c.pieces + 1)) s1).chordTurn e p)

/-! MATMUL_SCATTER (R326 to R330). -/

/-- The rows that member q owns of M. -/
def ownedRows (d : Sch) (m q : Nat) : Nat × Nat := (q * m / schP d, (q + 1) * m / schP d)
/-- Bytes of a slot of an owner of that many rows. -/
def slotZ (rows n : Nat) : Nat := 64 * cdiv (rows * n * 4) 64

def planScatter (s : State) (i : Iss) : Plan :=
  let kp := i.kpOf (iA i.ins) (iB i.ins)
  let a := i.view (iA i.ins) 0
  let b := i.view (iB i.ins) kp
  let out := i.view (iOut i.ins) 0
  let c := i.view (iC i.ins) 0
  let d := i.desc (iAux i.ins)
  let useC := bit (iMod i.ins) 0
  let r := ownedRows d (dDim a.d 1) (s.ownIndex i.p d)
  let one := fun (d : Desc) => [2, 3, 4].all fun k => dDim d k == 1
  let code := leastCode
    [useCode i.ins true true true useC true 1 false true, ctlCode i.ins true false eSplitMode true false, chkCode i.ins,
     when (iAcc i.ins && useC) eRsvdBits, s.slotCode i (iA i.ins) (aSlot false), s.slotCode i (iB i.ins) (bSlot kp),
     s.outCode i (iOut i.ins) plainSlot, when (dCap out.d != 0) eFormatPair, cCode s i [0] out.d, pairCode a.d b.d,
     when (dDim b.d 1 != dDim a.d 0 || dDim out.d 0 != dDim b.d 0 || !one a.d || !one b.d || !one out.d) eShape,
     when (dKind d == 3 && dDim out.d 1 != (if schMode d = 0 then r.2 - r.1 else dDim a.d 1)) eShape,
     when (dDim a.d 0 % 32 != 0) eKAlign, when (dKind d == 3 && decide (512 < schRows d)) eIssueCapacity,
     s.schCode i.p 0x41 d (schP d * slotZ (r.2 - r.1) (dDim b.d 0)) 0 0]
  let m := splitRange (dDim a.d 1) i.g i.n
  let pl := s.planFused i ([a, b] ++ (if useC then [c] else []) ++ (if iAcc i.ins then [out] else [])) [out] d 0 0
    (iSplit i.ins != 1 || decide (m.1 < m.2)) false code
  { pl with
    cap := (1, 4 * schRows d)
    foot := pl.foot ++ areaFoot (schRecv d) (schSize d) true
    near := pl.near ++ areaNear (schRecv d) (schSize d) }

/-- MATMUL_SCATTER. -/
def execMatmulScatter (f : FacetId) (s : State) : Host.Outcome State Fault Refusal :=
  .next (s.tryIssue f 0x41 .array planScatter)

/-- The gang member that computes row m: the one whose range of M holds it. -/
def Ctx.rowMember (c : Ctx) (mAll m : Nat) : Option Iss :=
  c.issues.find? fun i =>
    iSplit i.ins != 1 || (let r := splitRange mAll i.g i.n; decide (r.1 ≤ m) && decide (m < r.2))

/-- A partial product in FP32. -/
def State.partialAt (s : State) (c : Ctx) (mAll m n : Nat) : Acc :=
  match c.rowMember mAll m with
  | none => (fZero, ev0)
  | some i =>
    let kp := i.kpOf (iA i.ins) (iB i.ins)
    let a := i.view (iA i.ins) 0
    let h : Share := { lo := 0, hi := passCount (dDim a.d 0) kp, first := true, split2 := false }
    (s.redOf i a (i.view (iB i.ins) kp) none none h (fZero, ev0) [n, m, 0, 0, 0]).run h.lo h.hi (fZero, ev0)
def State.partialRow (s : State) (c : Ctx) (mAll n m : Nat) : List Byte :=
  (List.range n).foldr (fun k l => natLe 4 (s.partialAt c mAll m k).1.toNat ++ l) []

/-- The opening of a scatter: credits, the partial products, the own slot, the transfers to the owners. -/
def State.scatterOpen (s : State) (e p : Nat) (c : Ctx) (i : Iss) : State :=
  let d := c.sch
  let mAll := dDim (i.desc (iA i.ins)) 1
  let n := dDim (i.desc (iB i.ins)) 0
  let others := (List.range (schP d)).filter fun q => q != c.own
  let sends := others.map fun q =>
    let r := ownedRows d mAll q
    let z := slotZ (r.2 - r.1) n
    { dest := q, cred := schP d - 1
      jobs := (pieces r.1 r.2 (schRows d)).foldr (fun l j =>
        c.putTo q (schRecv d) (c.own * z + (l.headD 0 - r.1) * n * 4) (l.foldr (fun m b => s.partialRow c mAll n m ++ b) []) false ++ j) []
      sig := some 1 : ChdSend }
  let r := ownedRows d mAll c.own
  let recv := gaddr (schRecv d)
  let mine := ((List.range (r.2 - r.1)).foldr (fun k b => s.partialRow c mAll n (r.1 + k) ++ b) [])
  let s1 := others.foldl (fun s q => s.issueOp (.chord e p) p (c.signalTo q 0)) s
  let s1 := s1.storeBytes (srcChord e p) p recv.space (recv.off + c.own * slotZ (r.2 - r.1) n) mine false
  let s1 := c.issues.foldl (fun t m =>
    let rows := (List.range mAll).filter fun x => match c.rowMember mAll x with | some y => y.f == m.f | none => false
    let kp := m.kpOf (iA m.ins) (iB m.ins)
    let h : Share := { lo := 0, hi := passCount (dDim (m.desc (iA m.ins)) 0) kp, first := true, split2 := false }
    let els := rows.foldr (fun x l => ((List.range n).map fun k => [k, x, 0, 0, 0]) ++ l) []
    t.logEv m.f (rows.foldl (fun ev x => (List.range n).foldl (fun ev k => ev.or (s.partialAt c mAll x k).2) ev) ev0)
      (s.t5Count m.p (m.view (iB m.ins) kp) (usedB (m.view (iB m.ins) kp) els h (dDim (m.desc (iA m.ins)) 0)))) s1
  s1.mapCtx e p fun c => { c with sends := sends }

/-- The fixed-order tree of R328 over a power of two of places. -/
def pairOpt : List (Option Word) → List (Option Word)
  | a :: b :: t =>
    (match a, b with
     | some x, some y => some (fadd x y)
     | some x, none => some x
     | none, y => y) :: pairOpt t
  | l => l
def treeOpt : Nat → List (Option Word) → List (Option Word)
  | 0, l => l
  | n + 1, l => treeOpt n (pairOpt l)
def reduceTree (start : Word) (c : List Word) : Word :=
  match treeOpt 12 ((c.map some) ++ List.replicate (4096 - c.length) none) with
  | some x :: _ => fadd start x
  | _ => start
/-- The exact sum of R329, and whether XOVER is set. -/
def reduceExact (start : Word) (c : List Word) : Word × Bool :=
  let r := (start :: c).foldl (fun (r : BitVec 128 × Word × Bool) x =>
    let y := exactAdd r.1 r.2.1 x
    (y.1, y.2.1, r.2.2 || y.2.2)) (0, fZero, false)
  (r.2.1, r.2.2)

/-- The start of an owned element (R128). -/
def State.reduceStart (s : State) (c : Ctx) (i : Iss) (lo m n : Nat) : Acc :=
  s.startAt i (i.view (iOut i.ins) 0) (i.view (iC i.ins) 0) [n, if schMode c.sch = 0 then m - lo else m, 0, 0, 0]

/-- The reduced value of an owned element: output column n, row m of the whole product. -/
def State.reduced (s : State) (c : Ctx) (i : Iss) (lo rows m n : Nat) : Word × Bool :=
  let nn := dDim (i.desc (iB i.ins)) 0
  let recv := gaddr (schRecv c.sch)
  let z := slotZ rows nn
  let vals := (List.range (schP c.sch)).map fun g =>
    BitVec.ofNat 32 (leNat (s.rdMem i.p recv.space (recv.off + g * z + ((m - lo) * nn + n) * 4) 4))
  let start := (s.reduceStart c i lo m n).1
  if schExact c.sch then reduceExact start vals else (reduceTree start vals, false)

/-- SCATTER_REDUCE (R327 to R330): all partials of the owned rows are there, the own one too; they are reduced, written, and in
all-reduce the bytes written are put to every other member. Where a member's OUT overlaps its A or B the values are free (R132,
notes/assumptions/68.md). -/
def execScatterReduce (e : ChordId) (p : PartId) (s : State) : Host.Outcome State Fault Refusal :=
  match s.ctx e p with
  | none => .next s
  | some c =>
    match c.lead with
    | none => .next s
    | some i =>
      if !s.live || c.op != 0x41 || !c.opened || c.fail != 0 || c.phase != 0 || decide (s.landings c < schP c.sch - 1) ||
          s.writesLeft (srcChord e p) then .next s
      else
        let d := c.sch
        let mAll := dDim (i.desc (iA i.ins)) 1
        let nn := dDim (i.desc (iB i.ins)) 0
        let r := ownedRows d mAll c.own
        let recv := gaddr (schRecv d)
        let all := schMode d == 1
        if s.partPoisoned recv (0, schP d * slotZ (r.2 - r.1) nn) then .next ((s.failCtx e p eDataError).chordTurn e p)
        else
          let row := fun (x : Idx) => if all then ix x 1 else r.1 + ix x 1
          let s1 := c.issues.foldl (fun t m =>
            let out := m.view (iOut m.ins) 0
            let mine := fun (x : Idx) => decide (r.1 ≤ row x) && decide (row x < r.2) &&
              (match c.rowMember mAll (row x) with | some y => y.f == m.f | none => false)
            let clash := outClash out [m.view (iA m.ins) 0, m.view (iB m.ins) (m.kpOf (iA m.ins) (iB m.ins))]
            let o := m.outSpec s out fun x =>
              if clash then t.freeWord (ravel out.dims x)
              else if r.1 ≤ row x ∧ row x < r.2 then (s.reduced c m r.1 (r.2 - r.1) (row x) (ix x 0)).1 else fZero
            let ev := ((allIdx out.dims).filter mine).foldl (fun ev x => ev.or (s.reduceStart c m r.1 (row x) (ix x 0)).2) ev0
            ((t.putSpec m { o with mine := mine, mode := fun x => elemMode m.ins m.seed [nn, mAll] [ix x 0, row x] }).bumpIf clash).logEv m.f ev 0) s
          let overflow := schExact d && (List.range (r.2 - r.1)).any fun k => (List.range nn).any fun n =>
            (s.reduced c i r.1 (r.2 - r.1) (r.1 + k) n).2
          let s2 := s1.flag (.chdLog e) 4 overflow
          let out := i.view (iOut i.ins) 0
          let sends : List ChdSend :=
            if !all then []
            else ((List.range (schP d)).filter fun q => q != c.own).map fun q =>
              { dest := q, cred := schP d - 1
                jobs := (List.range (r.2 - r.1)).foldr (fun k l =>
                  c.rowPuts q (peerTensor out) (s2.partLatest p) s2.partPoisoned out out [0, r.1 + k, 0, 0, 0]
                    [0, r.1 + k, 0, 0, 0] ++ l) []
                sig := some 1 : ChdSend }
          .next ((s2.mapCtx e p fun c => { c with phase := 1, sends := c.sends ++ sends, since := s.limClock }).chordTurn e p)

/-! EXCHANGE_V (R331 to R333). -/

/-- Rows sent to member q. -/
def State.sendCount (s : State) (p : Nat) (d : Sch) (q : Nat) : Nat :=
  let a := gaddr (schX d)
  s.rdVal p { a with off := a.off + 8 * q } 4
def State.sendCounts (s : State) (p : Nat) (d : Sch) : List Nat := (List.range (schP d)).map (s.sendCount p d)
def sumTo (l : List Nat) (q : Nat) : Nat := (l.take q).foldl (· + ·) 0

def planExchange (s : State) (i : Iss) : Plan :=
  let a := i.view (iA i.ins) 0
  let out := i.view (iOut i.ins) 0
  let d := i.desc (iAux i.ins)
  let x := gaddr (schX d)
  let slot : SlotRule := { plainSlot with axis := some 0, outlier := true }
  let fmts := when (dFmt a.d == .t5 || dFmt a.d == .plain .int4 || dCap a.d != 0 || dFmt out.d == .t5 ||
    dFmt out.d == .plain .int4 || dCap out.d != 0) eFormatPair
  let code := leastCode
    [useCode i.ins true true false false true 0 false false, ctlCode i.ins false false eRsvdBits false false, chkCode i.ins,
     s.slotCode i (iA i.ins) slot, s.slotCode i (iOut i.ins) slot, fmts, when (dFormat a.d != dFormat out.d) eFormatPair,
     when (dNdim a.d != 2 || dNdim out.d != 2 || dDim a.d 0 != dDim out.d 0) eShape,
     (if dKind d = 3 then
        leastCode [when ((List.range (schP d)).any fun q => s.rdVal i.p { x with off := x.off + 8 * q + 4 } 4 != 0) eRsvdBits,
                   when (sumTo (s.sendCounts i.p d) (schP d) != dDim a.d 1) eShape]
      else 0),
     s.schCode i.p 0x43 d (16 * schP d) 0 (8 * schP d)]
  let pl := s.planFused i [a] [out] d 0 0 true (s.partPoisoned x (0, 8 * schP d)) code
  { pl with
    foot := pl.foot ++ areaFoot (schRecv d) (schSize d) true ++ areaFoot (schX d) (8 * schP d) false
    near := pl.near ++ areaNear (schRecv d) (schSize d) ++ areaNear (schX d) (8 * schP d) }

/-- EXCHANGE_V. -/
def execExchangeV (f : FacetId) (s : State) : Host.Outcome State Fault Refusal :=
  .next (s.tryIssue f 0x43 .mover planExchange)

/-- The opening of an exchange: credits, then the counts (phases 1 and 2). -/
def State.exchangeOpen (s : State) (e p : Nat) (c : Ctx) : State :=
  let d := c.sch
  let others := (List.range (schP d)).filter fun q => q != c.own
  let sends := others.map fun q =>
    { dest := q, cred := schP d - 1, jobs := c.putTo q (schRecv d) (8 * c.own) (natLe 8 (s.sendCount p d q)) false, sig := some 1 : ChdSend }
  let s1 := others.foldl (fun s q => s.issueOp (.chord e p) p (c.signalTo q 0)) s
  s1.mapCtx e p fun c => { c with sends := sends }

/-- Rows that member g sends to this member. -/
def State.recvCounts (s : State) (p : Nat) (c : Ctx) : List Nat :=
  let a := gaddr (schRecv c.sch)
  (List.range (schP c.sch)).map fun g =>
    if g = c.own then s.sendCount p c.sch g else s.rdVal p { a with off := a.off + 8 * g } 4

/-- EXCHANGE_COUNTS (R332 phase 3, R333): every source's segment is placed and its row offset returned with a
credit; a total beyond OUT's rows is COUNT_OVERFLOW. -/
def execExchangeCounts (e : ChordId) (p : PartId) (s : State) : Host.Outcome State Fault Refusal :=
  match s.ctx e p with
  | none => .next s
  | some c =>
    match c.lead with
    | none => .next s
    | some i =>
      if !s.live || c.op != 0x43 || !c.opened || c.fail != 0 || c.phase != 0 || decide (s.landings c < schP c.sch - 1) then .next s
      else
        let d := c.sch
        let counts := s.recvCounts p c
        if s.partPoisoned (gaddr (schRecv d)) (0, 8 * schP d) then .next ((s.failCtx e p eDataError).chordTurn e p)
        else if dDim (i.desc (iOut i.ins)) 1 < sumTo counts (schP d) then
          .next (((s.flag (.chdLog e) 3 true).failCtx e p eCountOverflow).chordTurn e p)
        else
          let sends := ((List.range (schP d)).filter fun g => g != c.own).map fun g =>
            { dest := g, cred := schP d - 1
              jobs := c.putTo g (schRecv d) (8 * schP d + 8 * c.own) (natLe 8 (sumTo counts g)) false, sig := some 0 : ChdSend }
          .next ((s.setCtx e p (some { c with phase := 1, sends := c.sends ++ sends, since := s.limClock })).chordTurn e p)

/-- EXCHANGE_DATA (R332 phases 4 and 5): every offset is known; the own segment is copied, the others are put. -/
def execExchangeData (e : ChordId) (p : PartId) (s : State) : Host.Outcome State Fault Refusal :=
  match s.ctx e p with
  | none => .next s
  | some c =>
    match c.lead with
    | none => .next s
    | some i =>
      if !s.live || c.op != 0x43 || !c.opened || c.fail != 0 || c.phase != 1 || decide (s.credits c < 2 * (schP c.sch - 1)) then .next s
      else
        let d := c.sch
        let a := i.view (iA i.ins) 0
        let out := i.view (iOut i.ins) 0
        let counts := s.sendCounts p d
        let recv := gaddr (schRecv d)
        let rows := fun (q : Nat) => List.range (counts.getD q 0)
        let from1 := fun (q k : Nat) => ([0, sumTo counts q + k, 0, 0, 0] : Idx)
        if s.partPoisoned recv (8 * schP d, 8 * schP d) then .next ((s.failCtx e p eDataError).chordTurn e p)
        else
          let at0 := sumTo (s.recvCounts p c) c.own
          let copy := fun (t : State) (x y : GAddr) (r w : Nat × Nat) =>
            if r.2 = 0 then t else t.storeBytes (srcChord e p) p y.space (y.off + w.1) (s.rdMem p x.space (x.off + r.1) r.2) false
          let s1 := (rows c.own).foldl (fun t k =>
            let x := from1 c.own k
            let y : Idx := [0, at0 + k, 0, 0, 0]
            copy (copy t a.base out.base (rowElems a x) (rowElems out y)) a.sbase out.sbase (rowScales a x) (rowScales out y)) s
          let sends := ((List.range (schP d)).filter fun q => q != c.own).map fun q =>
            let off := s.rdVal p { recv with off := recv.off + 8 * schP d + 8 * q } 4
            { dest := q, cred := 2 * (schP d - 1)
              jobs := (rows q).foldr (fun k l =>
                c.rowPuts q (peerTensor out) (s.partBytes p) s.partPoisoned a out (from1 q k) [0, off + k, 0, 0, 0] ++ l) []
              sig := some 1 : ChdSend }
          .next ((s1.mapCtx e p fun c => { c with phase := 2, sends := c.sends ++ sends, since := s.limClock }).chordTurn e p)

/-! RING_ATTN (R334 to R341). -/

/-- The slot of a page in a block (R319). -/
def pageSlot (d : Sch) : Nat := tileCodeBytes (schPage d)
/-- Bytes of one buffer, and where buffer b begins. -/
def bufLen (d : Sch) : Nat := schSize d / 2
def bufAt (d : Sch) (b : Nat) : Nat := (gaddr (schRecv d)).off + b * bufLen d
/-- Where the pages of a block of np pages per head begin (R335). -/
def pageOff (np hkv : Nat) : Nat := 64 * cdiv (64 + np * hkv) 64
def blockLen (d : Sch) (np hkv : Nat) : Nat := pageOff np hkv + np * hkv * pageSlot d

/-- A member's length-table entry, its sequence, and the end of its keys. -/
def State.ringEntry1 (s : State) (p : Nat) (par : BitVec 512) : LenEntry := (s.lenEntries p par).headD 0
def State.ringSeq (s : State) (p : Nat) (par : BitVec 512) : SeqEntry := s.seqEntry (leSeq (s.ringEntry1 p par))
/-- Pages per head of the own shard. -/
def ownPages (e : SeqEntry) (keys : Nat) : Nat := cdiv keys 128 - sqFirst e

/-- What a ring finds after its waits: a block or a page too large, a state record without VALID, STOP (R335,
R341). -/
def State.ringLate (s : State) (i : Iss) (d : Sch) (par : BitVec 512) (keys : Nat) : Nat :=
  let e := s.ringSeq i.p par
  let np := ownPages e keys
  let st := gaddr (schState d)
  let big := (List.range np).any fun j => (List.range (aHkv par)).any fun h =>
    let x := s.pte i.p (pteAt e (sqFirst e + j) h)
    pteValid x && decide (pageSlot d < pageBytes (pteFmt x) (aD par) (aDv par))
  leastCode
    [when (decide (bufLen d < blockLen d np (aHkv par)) || big) eShape,
     when (schResume d && !(s.rdByte i.p st.space (st.off + 8)).getLsbD 0) eShape,
     when (schResume d && riseOf (s.counter (schCtr d + 2)) (wThresh i.run.cl.wd + schStopEp d) != 0) eCollAbort]

def planRing (s : State) (i : Iss) : Plan :=
  let a := i.view (iA i.ins) 0
  let out := i.view (iOut i.ins) 0
  let par := i.desc (iB i.ins)
  let d := i.desc (iAux i.ins)
  let cap := attCapacity a.d par
  let lseLen := dDim a.d 1 * dDim a.d 2 * 4
  let stLen := 64 + dDim a.d 1 * dDim a.d 2 * rowLen (aDv par)
  let other := leastCode
    [useCode i.ins true true true false true 0 false true, ctlCode i.ins false false eRsvdBits true false, chkCode i.ins,
     s.slotCode i (iA i.ins) { plainSlot with outlier := true }, s.slotCode i (iOut i.ins) { plainSlot with outlier := true },
     attParams par, attFormats a.d out.d, (if dKind par = 2 then attShape a.d out.d par else 0),
     when (dKind par == 2 && aNseq par != 1) eShape, when (dKind par == 2 && cap.isSome) eIssueCapacity,
     (if dKind par = 2 ∧ aLse par ≠ 0 then s.ownCheck i.p false (gaddr (aLse par)) lseLen else 0),
     s.schCode i.p 0x42 d 0 stLen 0]
  let code := s.attCode i.p par (dDim a.d 2) other false 0
  let x := s.ringEntry1 i.p par
  let keys := s.keyIndex x
  let e := s.seqEntry (leSeq x)
  let pages := s.seqFoot i.p false [leSeq x] ++
    (List.range (ownPages e keys)).foldr (fun j l =>
      (List.range (aHkv par)).foldr (fun h l => s.pageUse i.p (pteAt e (sqFirst e + j) h) false ++ l) l) []
  let mine := i.attTokens (dDim a.d 2) x
  let pl := s.planFused i [a] [out] d par keys (!mine.isEmpty) (s.poisoned (gaddr (aLen par)).off (32 * aNseq par)) code
  { pl with
    seq := s.attSeq i.p par
    cap := cap.getD (0, 0)
    foot := pl.foot ++ lenFoot par ++ areaFoot (aLse par) (if aLse par = 0 then 0 else lseLen) true ++
      areaFoot (schRecv d) (schSize d) true ++ areaFoot (schState d) stLen true ++ pages
    near := pl.near ++ nearAt (aLen par) (32 * aNseq par) ++ areaNear (aLse par) (if aLse par = 0 then 0 else lseLen) ++
      areaNear (schRecv d) (schSize d) ++ areaNear (schState d) stLen
    late := s.ringLate i d par keys }

/-- RING_ATTN. -/
def execRingAttn (f : FacetId) (s : State) : Host.Outcome State Fault Refusal :=
  .next (s.tryIssue f 0x42 .array planRing)

/-- A shard as a step computes on it: positions, the range of its keys, the format and offset of the page of a
head's key, all by token index from the shard's own start (R337, R338). -/
structure Shard where
  pos : Nat
  first : Nat
  stop : Nat
  page : Nat → Nat → Nat × Nat

/-- The own shard in place; under R338 the virtual shard j of it. -/
def State.ownShard (s : State) (p : Nat) (c : Ctx) (j : Nat) : Shard :=
  let e := s.ringSeq p c.par
  let d := c.sch
  let virt := schP d == 1 && schVirt d != 1
  let base := if virt then j * schShard d else 0
  let stop := if virt && j + 1 != schVirt d then min c.keys ((j + 1) * schShard d) else c.keys
  { pos := sqPos e + base
    first := sqFirst e * 128 - base
    stop := stop - base
    page := fun h k => let x := s.pte p (pteAt e ((k + base) / 128) h); (pteFmt x, pteOff x) }

/-- A word of the block header in buffer b (R335). -/
def State.blockWord (s : State) (p : Nat) (d : Sch) (b k : Nat) : Nat := leNat (s.rdMem p 0 (bufAt d b + k) 4)
/-- The shard of the block in buffer b. -/
def State.bufShard (s : State) (p : Nat) (c : Ctx) (b : Nat) : Shard :=
  let d := c.sch
  let first := s.blockWord p d b 12
  let np := s.blockWord p d b 20
  let hkv := aHkv c.par
  { pos := s.blockWord p d b 8
    first := first
    stop := s.blockWord p d b 16
    page := fun h k =>
      let n := (k / 128 - first / 128) * hkv + h
      ((s.rdByte p 0 (bufAt d b + 64 + n)).toNat % 4, bufAt d b + pageOff np hkv + n * pageSlot d) }

/-- Steps of a ring, and the shard of a step (R336, R338). -/
def ringSteps (d : Sch) : Nat := if schP d = 1 then schVirt d else schP d
def State.stepShard (s : State) (p : Nat) (c : Ctx) (i : Nat) : Shard :=
  if schP c.sch = 1 then s.ownShard p c ((schOrigin c.sch + schVirt c.sch - i % schVirt c.sch) % schVirt c.sch)
  else if i = 0 then s.ownShard p c 0
  else s.bufShard p c ((i - 1) % 2)

/-- A query row after a shard (R337). -/
def State.ringRow (s : State) (i : Iss) (a : View) (par : BitVec 512) (x : LenEntry) (sh : Shard) (t j : Nat) (r : RowState) :
    RowState × Ev :=
  let vr := visibleAt par sh.first sh.stop sh.pos (queryPos x t)
  let vis := fun (k : Nat) => decide (vr.1 ≤ k) && decide (k < vr.2)
  let b0 := vr.1 / 512
  let src := s.kvSrcOf i.p (aD par) (aDv par) (sh.page (j / aG par))
  (List.range (cdiv vr.2 512 - b0)).foldl
    (fun st b => blockStep (dFmt a.d != .plain .bf16) (aD par) (aDv par) (fun c => s.rdElem i.p a [c, j, t, 0, 0])
      (scoreScale par) vis src (b0 + b) st) (r, ev0)

/-- The rows of a member: its covered query tokens, every query head. -/
def State.ringMine (s : State) (c : Ctx) (i : Iss) : List (Nat × Nat) :=
  let a := i.desc (iA i.ins)
  (i.attTokens (dDim a 2) (s.ringEntry1 i.p c.par)).foldr (fun t l => ((List.range (dDim a 1)).map fun j => (t, j)) ++ l) []
def Ctx.rowOf (c : Ctx) (n : Nat) : RowState := tget c.rows (row0 (aDv c.par)) n

/-- A row record (R339). -/
def rowBytes (r : RowState) : List Byte :=
  if r.bad then (List.range (2 + r.o.length)).foldr (fun _ l => natLe 4 fNaN.toNat ++ l) []
  else natLe 4 r.m.toNat ++ natLe 4 r.l.toNat ++ r.o.foldr (fun w l => natLe 4 w.toNat ++ l) []
/-- A row as its record gives it back; NaN in m marks a row that R221 has made NaN. -/
def State.loadRow (s : State) (p : Nat) (c : Ctx) (n : Nat) : RowState :=
  let st := gaddr (schState c.sch)
  let w := fun (k : Nat) => BitVec.ofNat 32 (leNat (s.rdMem p st.space (st.off + 64 + n * rowLen (aDv c.par) + 4 * k) 4))
  { m := w 0, l := w 1, o := (List.range (aDv c.par)).map fun k => w (k + 2), bad := fIsNaN (w 0) }

/-- Rows of A. -/
def rowCount (a : Desc) : Nat := dDim a 1 * dDim a 2

/-- The row records stored between steps (R339). -/
def State.storeRows (s : State) (e p : Nat) (c : Ctx) (a : Desc) : State :=
  let st := gaddr (schState c.sch)
  (List.range (rowCount a)).foldl (fun s n =>
    s.storeBytes (srcChord e p) p st.space (st.off + 64 + n * rowLen (aDv c.par)) (rowBytes (c.rowOf n)) false) s

/-- The block of a step's shard, sent to the next member (R335, R336): header, directory and pages, into that member's buffer of
the step. -/
def State.ringSend (s : State) (p : Nat) (c : Ctx) (step : Nat) : ChdSend :=
  let d := c.sch
  let hkv := aHkv c.par
  let e := s.ringSeq p c.par
  let q := nextIx d c.own
  let at1 := step % 2 * (32768 * Config.peerSize (schRank d q))
  let b := (step - 1) % 2
  let np := if step = 0 then ownPages e c.keys else s.blockWord p d b 20
  let head :=
    if step = 0 then
      natLe 4 c.own ++ natLe 4 step ++ natLe 4 (sqPos e) ++ natLe 4 (sqFirst e * 128) ++ natLe 4 c.keys ++ natLe 4 np ++ natLe 40 0
    else s.rdMem p 0 (bufAt d b) 4 ++ natLe 4 step ++ s.rdMem p 0 (bufAt d b + 8) 56
  let pg := fun (n : Nat) =>
    if step = 0 then (let x := s.pte p (pteAt e (sqFirst e + n / hkv) (n % hkv)); (pteFmt x, pteOff x))
    else ((s.rdByte p 0 (bufAt d b + 64 + n)).toNat % 4, bufAt d b + pageOff np hkv + n * pageSlot d)
  let dir := (List.range (np * hkv)).map fun n => BitVec.ofNat 8 (pg n).1
  let bad := step != 0 && s.poisoned (bufAt d b) (64 + np * hkv)
  { dest := q, cred := step + 1
    jobs := c.putTo q (schRecv d) at1 (head ++ dir) bad ++
      (List.range (np * hkv)).foldr (fun n l =>
        let len := pageBytes (pg n).1 (aD c.par) (aDv c.par)
        c.putTo q (schRecv d) (at1 + pageOff np hkv + n * pageSlot d) (s.rdMem p 0 (pg n).2 len) (s.poisoned (pg n).2 len) ++ l) []
    sig := some 1 }

/-- The walk of the own shard (R334, R218): the code, and the captures of R226. -/
def State.ringWalk (s : State) (i : Iss) (c : Ctx) : Nat × (Nat × Nat) :=
  let x := s.ringEntry1 i.p c.par
  let e := s.ringSeq i.p c.par
  let fp8 := dFmt (i.desc (iA i.ins)) != .plain .bf16
  (List.range (aHkv c.par)).foldl (fun r h =>
    (List.range (ownPages e c.keys)).foldl (fun (r : Nat × (Nat × Nat)) k =>
      if r.1 ≠ 0 then r
      else
        match s.walkPage i.p c.par fp8 e h (sqFirst e + k) with
        | (0, _) => r
        | (code, cause) => (code, (h * 2 ^ 16 + leSeq x, cause * 2 ^ 30 + (sqFirst e + k)))) r) (0, (0, 0))

/-- The opening of a ring: the walk; then the credits, or on RESUME the state area (R336, R341). -/
def State.ringOpen (s : State) (e p : Nat) (c : Ctx) (i : Iss) : State :=
  match s.ringWalk i c with
  | (0, _) =>
    let d := c.sch
    let st := gaddr (schState d)
    let step := if schResume d then leNat (s.rdMem p st.space st.off 4) else 0
    let sent := if schResume d then leNat (s.rdMem p st.space (st.off + 4) 4) else 0
    let rows := if schResume d then
        (List.range (rowCount (i.desc (iA i.ins)))).foldl (fun t n => tset t (row0 (aDv c.par)) n (s.loadRow p c n)) []
      else []
    let c := { c with step := step, rows := rows, sent := sent }
    let s := if schResume d then s else
      (List.range (min 2 (schP d - 1))).foldl (fun s _ => s.issueOp (.chord e p) p (c.signalTo (prevIx d c.own) 0)) s
    s.mapCtx e p fun x => { x with step := step, rows := rows, sent := sent,
                                   sends := if step + 2 ≤ schP d ∧ sent ≤ step then [s.ringSend p c step] else [] }
  | (code, key) =>
    (s.mapCtx e p fun c => { c with walkFail := true, key := if code = eKeyfmt then key else (0, 0) }).failCtx e p code

/-- Whether pre-emption of a context is asked for (R340). -/
def State.preemptAsked (s : State) (e p : Nat) (c : Ctx) : Bool :=
  bit (s.val (.chdPreemptReq e)).toNat p || c.members.any fun m => (s.unit (uFacet m.facet)).st == .draining

/-- The last boundary: normalisation, output and log-sum-exp, once (R337, R222). -/
def State.ringFinish (s : State) (c : Ctx) : State :=
  c.issues.foldl (fun t i =>
    let a := i.desc (iA i.ins)
    let rs := (s.ringMine c i).map fun r => (r, c.rowOf (r.1 * dDim a 1 + r.2))
    let t := t.writeRows i (i.view (iOut i.ins) 0) (rs.map fun r => (r.1, (rowDone r.2).1)) false
    let t := t.writeLse i c.par (dDim a 1) (rs.map fun r => (r.1, (rowDone r.2).2)) false
    t.flag (.fctAttLog i.f) 0 (rs.any fun r => r.2.bad)) s

/-- Whether what a step reads of its shard holds poison (R443): the header and directory of a block, and the visible keys of the
rows and their values. -/
def State.stepPoisoned (s : State) (p : Nat) (c : Ctx) : Bool :=
  let d := c.sch
  let b := (c.step - 1) % 2
  let sh := s.stepShard p c c.step
  let x := s.ringEntry1 p c.par
  !s.poison.isEmpty &&
    ((schP d != 1 && c.step != 0 && s.poisoned (bufAt d b) (64 + s.blockWord p d b 20 * aHkv c.par)) ||
      c.issues.any fun m => (s.ringMine c m).any fun r =>
        let v := visibleAt c.par sh.first sh.stop sh.pos (queryPos x r.1)
        s.keysPoisoned (aD c.par) (aDv c.par) (sh.page (r.2 / aG c.par)) ((List.range (v.2 - v.1)).map fun k => v.1 + k))

/-- RING_STEP_BOUNDARY (R336): the step's shard is computed, sent and the next one has landed; the boundary grants a
credit, honours a pre-emption request (R340), or, after the last step, writes the outputs. -/
def execRingStepBoundary (e : ChordId) (p : PartId) (s : State) : Host.Outcome State Fault Refusal :=
  match s.ctx e p with
  | none => .next s
  | some c =>
    match c.lead with
    | none => .next s
    | some i =>
      let d := c.sch
      if !s.live || c.op != 0x42 || !c.opened || c.fail != 0 || c.phase != 0 || !c.sends.isEmpty || s.chdBusy e p ||
          c.landLeft s then .next s
      else if s.stepPoisoned p c then .next ((s.failCtx e p eDataError).chordTurn e p)
      else
        let sh := s.stepShard p c c.step
        let x := s.ringEntry1 p c.par
        let work := c.issues.map fun m =>
          (m, (s.ringMine c m).map fun r =>
            let n := r.1 * dDim (m.desc (iA m.ins)) 1 + r.2
            (n, s.ringRow m (m.view (iA m.ins) 0) c.par x sh r.1 r.2 (c.rowOf n)))
        let rows := work.foldl (fun t w => w.2.foldl (fun t r => tset t (row0 (aDv c.par)) r.1 r.2.1) t) c.rows
        let s1 := work.foldl (fun s w => s.logEv w.1.f (w.2.foldl (fun ev r => ev.or r.2.2) ev0) 0) s
        let c1 := { c with rows := rows, step := c.step + 1, since := s.limClock }
        let s2 := s1.setCtx e p (some c1)
        let s3 := if 1 ≤ c.step ∧ c.step + 3 ≤ schP d then s2.issueOp (.chord e p) p (c.signalTo (prevIx d c.own) 0) else s2
        if ringSteps d ≤ c1.step then
          .next (((s3.ringFinish c1).mapCtx e p fun x => { x with phase := 1 }).chordTurn e p)
        else
          let s4 := s3.storeRows e p c1 (i.desc (iA i.ins))
          if s.preemptAsked e p c then
            let st := gaddr (schState d)
            let s5 := s4.storeBytes (srcChord e p) p st.space st.off (stateRecord c1.step (min c1.step (schP d - 1)) true) false
            .next ((s5.mapCtx e p fun x => { x with phase := 2 }).chordTurn e p)
          else
            let next := if c1.step + 2 ≤ schP d then [s4.ringSend p c1 c1.step] else []
            .next ((s4.mapCtx e p fun x => { x with sends := next }).chordTurn e p)

/-! The opening (R316). -/

/-- CONTEXT_OPEN: every member of the rank's gang has issued the fused instruction; the context opens, grants its
credits and begins. -/
def execContextOpen (e : ChordId) (p : PartId) (s : State) : Host.Outcome State Fault Refusal :=
  match s.ctx e p with
  | none => .next s
  | some c =>
    match c.lead with
    | none => .next s
    | some i =>
      if !s.live || c.opened || c.members.length != c.size then .next s
      else
        let c1 := { c with opened := true, since := s.limClock }
        let s1 := s.setCtx e p (some c1)
        if c.fail ≠ 0 then .next (s1.chordTurn e p)
        else
          let s2 := match c.op with
            | 0x40 => s1.gatherOpen e p c1 i
            | 0x41 => s1.scatterOpen e p c1 i
            | 0x42 => s1.ringOpen e p c1 i
            | _ => s1.exchangeOpen e p c1
          .next (s2.chordTurn e p)

end Sys2Proof.Machine
end

