-- ==== Sys2Proof/Machine/Boundary.lean ====
section
/-! DEFINITION. The issue boundary at which a member stops (spec/04_facet_programming.md R98, R99, R122, spec/17_power_and_faults.md
R452). -/

namespace Sys2Proof.Machine

/-- The unit of an opcode, and the plan of its instruction (R101). -/
def unitOf (op : Nat) : FUnit :=
  if op < 0x10 then .control
  else if op < 0x20 ∨ op = 0x40 ∨ op = 0x41 ∨ op = 0x42 then .array
  else if op < 0x30 then .vector
  else .mover
def planOf (op : Nat) : State → Iss → Plan :=
  match op with
  | 0x02 => planSetseed
  | 0x03 => planDload
  | 0x10 => planMm false
  | 0x11 => planMm true
  | 0x12 => planMatmulKv
  | 0x13 => planConv
  | 0x14 => planAttn
  | 0x20 => planVew
  | 0x21 => planVrowstat
  | 0x22 => planNorm
  | 0x23 => planVfunc
  | 0x24 => planSoftmax
  | 0x25 => planQuant
  | 0x26 => planPool
  | 0x27 => planUpsample
  | 0x40 => planGather
  | 0x41 => planScatter
  | 0x42 => planRing
  | 0x43 => planExchange
  | 0x50 => planCopy false
  | 0x51 => planCopy true
  | 0x52 => planAtomic
  | 0x53 => planPrefetch
  | 0x54 => planEvict
  | _ => planNop

/-- What stops a member at its next issue boundary: DRAINING of its facet, which a ring in flight meets at its step
boundary (R340), or the gang's abort (R99, R122, R452). -/
def State.boundaryStop (s : State) (f : Nat) (r : Run) : Option Nat :=
  if r.stop.isSome || decide (wLen r.cl.wd ≤ r.pc) then none
  else if (s.unit (uFacet f)).st = .draining then
    if (s.unit (uFacet f)).failed then some eUnitOff
    else if r.flights.any fun i => iOpcode i.ins == 0x42 then none
    else some eDrained
  else if s.gangAborted r then some eAborted
  else none

/-- The stop of an aborted gang's member: the static checks of its next instruction come first (R98), once it and the table have
been fetched; one that passes them reports ABORTED. -/
def State.abortStop (s : State) (f : Nat) (r : Run) : State :=
  match r.buf with
  | [] => (s.fetchAhead f).fetchStop f
  | ins :: _ =>
    let i := issOf f (unitOf (iOpcode ins)) r ins
    if r.tableDue || s.loading i then s
    else
      let s := s.useIssue i
      match s.check (planOf (iOpcode ins)) i with
      | (0, _) => s.stopMember f eAborted r.pc 0 (0, 0) (0, 0)
      | (c, pl) => s.stopCheck i c pl

/-- GANG_ABORT_STOP (R122): a member stops at its next issue boundary, a wait included, after another
member of its gang has faulted; the same boundary stops a member whose facet drains (R99, R452). -/
def execGangAbortStop (f : FacetId) (s : State) : Host.Outcome State Fault Refusal :=
  match (s.facet f).run with
  | none => .next s
  | some r =>
    if !s.live then .next s
    else
      match s.boundaryStop f r with
      | none => .next s
      | some c => .next (if c = eAborted then s.abortStop f r else s.stopMember f c r.pc 0 (0, 0) (0, 0))

end Sys2Proof.Machine
end

