-- ==== Sys2Proof/Machine/Thin.lean ====
section
/-! DEFINITION. Jobs of the codec and thin-channel engines as queues give them (spec/14_host_and_partitions.md R388,
spec/13_video_codec.md R352), and the thin-channel engine (spec/09_convolution.md R241 to R248). -/

namespace Sys2Proof.Machine

/-! Job records: what the two kinds share (R243, R354). -/

abbrev Job := BitVec 512
def jWaitCtr (j : Job) : Nat := fld j 397 384
def jWaitEn (j : Job) : Bool := j.getLsbD 399
def jThresh (j : Job) : Word := BitVec.ofNat 32 (fld j 447 416)
def jSig (j : Job) : Nat := fld j 461 448
def jVer (j : Job) : Nat := fld j 483 480
/-- The reserved bits of bytes 48 to 63 are 0. -/
def jRsvd (j : Job) : Bool := fld j 398 398 == 0 && fld j 415 400 == 0 && fld j 479 462 == 0 && fld j 511 484 == 0

/-- Whether a job's wait is reached (R113); a wait on a counter of another partition ends in a fault. -/
def State.jobReady (s : State) (p : Nat) (j : Job) : Bool :=
  !jWaitEn j || !s.ownsCtr p (jWaitCtr j) || reached (s.counter (jWaitCtr j)) (jThresh j)

/-- Counters a job names (R109). -/
def State.ctrCode (s : State) (p : Nat) (l : List Nat) : Nat := when (l.any fun n => !s.ownsCtr p n) eAddrOwner

/-! JOB_CLAIM (R388, R352, R35). -/

/-- The queues with work for an engine: kind 1 or 2, and its number. -/
def State.jobQueues (s : State) (kind target : Nat) : List Nat :=
  s.enabledQueues.filter fun q =>
    s.qKind q == kind && s.get (.qCfg q) 9 6 == target && s.queueReady q &&
      (match s.queuePart q with | none => false | some p => s.partOn p && (kind != 1 || s.codecPart target == some p))

/-- The next entry of a queue. -/
def State.headJob (s : State) (q : Nat) : Job := s.ringEntry q (s.val (.qHead q))

/-- An entry that no engine has claimed: its queue, its ring index, and the place of the signal that posted it. -/
structure JobEntry where
  queue : Nat
  index : Word
  order : Nat
  deriving DecidableEq, Repr
/-- Whether index i lies before an index. -/
def indexBefore (i x : Word) : Bool := decide (0 < (x - i).toNat) && decide ((x - i).toNat < 2 ^ 31)
def State.entryAt (s : State) (q : Nat) (i : Word) : JobEntry :=
  { queue := q, index := i, order := match (s.queue q).posts.find? fun x => indexBefore i x.2 with | some x => x.1 | none => 0 }

/-- Entries in posting order: those of one signal by ring index (R388). -/
def insEntry (x : JobEntry) : List JobEntry → List JobEntry
  | [] => [x]
  | y :: t => if x.order < y.order ∨ (x.order = y.order ∧ (x.queue = y.queue ∨ x.index.toNat ≤ y.index.toNat)) then x :: y :: t else y :: insEntry x t
def inOrder (l : List JobEntry) : List JobEntry := l.foldr insEntry []

/-- The entries of a queue that can be read and that no engine has claimed. -/
def State.openEntries (s : State) (q : Nat) : List JobEntry :=
  ((((List.range (s.credit q)).map fun k => s.val (.qHead q) + BitVec.ofNat 32 k).filter fun i => !(s.queue q).taken.contains i).takeWhile
    (s.slotReadable q)).map (s.entryAt q)
/-- The entries for codec engine c, and the first of each queue for thin-channel engine e, in posting order. -/
def State.codecEntries (s : State) (c : Nat) : List JobEntry := inOrder ((s.jobQueues 1 c).flatMap s.openEntries)
def State.thinEntries (s : State) (e : Nat) : List JobEntry := inOrder ((s.jobQueues 2 e).map fun q => s.entryAt q (s.val (.qHead q)))

/-- The first index that has not been claimed, at most `n` further on. -/
def skipTaken (l : List Word) : Nat → Word → Word
  | 0, i => i
  | n + 1, i => if l.contains i then skipTaken l n (i + 1) else i
/-- Takes an entry: HEAD passes it, and those behind it that were claimed before it; an entry beyond HEAD is noted (DESIGN CHOICE,
notes/assumptions/30.md). -/
def State.takeEntry (s : State) (q : Nat) (i : Word) : State :=
  let u := { s.queue q with ready := (s.queue q).ready.filter fun x => x.1 != i }
  if i = s.val (.qHead q) then
    let h := skipTaken u.taken u.taken.length (i + 1)
    (s.setVal (.qHead q) h).setQueue q
      { u with taken := u.taken.filter fun x => indexBefore h x, posts := u.posts.filter fun x => indexBefore h x.2 }
  else s.setQueue q { u with taken := u.taken ++ [i] }
/-- Takes the entry at HEAD. -/
def State.takeHead (s : State) (q : Nat) : State := s.takeEntry q (s.val (.qHead q))

/-- The entry a codec engine takes: in posting order, passing over a job whose wait is unreached and later
jobs of its stream (R352). -/
def State.codecPick (s : State) : List Nat → List JobEntry → Option JobEntry
  | _, [] => none
  | passed, x :: t =>
    let j := s.ringEntry x.queue x.index
    let stream := fld j 325 324
    if passed.contains stream then s.codecPick passed t
    else if s.jobReady (s.qPart x.queue) j then some x
    else s.codecPick (stream :: passed) t

/-- Notes when the waits of jobs in the codec queues are reached (R372). -/
def State.noteReady (s : State) : State :=
  (s.enabledQueues.filter fun q => s.qKind q == 1).foldl (fun s q =>
    let l := (s.openEntries q).filterMap fun x =>
      match (s.queue q).ready.find? fun y => y.1 == x.index with
      | some y => some y
      | none => if s.jobReady (s.qPart q) (s.ringEntry q x.index) then some (x.index, s.limClock) else none
    if l = (s.queue q).ready then s else s.setQueue q { s.queue q with ready := l }) s

/-- A thin-channel job as it is taken from queue q. -/
def State.thinOf (s : State) (q : Nat) : ThinJob :=
  { queue := q, part := s.qPart q, wseq := s.val (.qHead q), record := s.headJob q, started := false, frame := 0, tile := 0,
    written := false, bad := false, posted := false }

/-- Partitions whose first posted job an engine could take, with its queue: no job of theirs is in the engine, and the wait is
reached (R35, R241). -/
def State.thinHeads (s : State) (e : Nat) : List (Nat × Nat) :=
  if !s.offers || !s.unitOn (uThin e) then []
  else
    let qs := s.thinEntries e
    (parts32.filterMap fun p => (qs.find? fun x => s.qPart x.queue == p).map fun x => (p, x.queue)).filter fun x =>
      (s.thinJob e x.1).isNone && s.jobReady x.1 (s.headJob x.2)

/-- A job's completion record (R391). -/
def jobRec (o : RecOwner) (wseq : Word) (code : Nat) : Rec :=
  { owner := o, wseq := wseq, status := BitVec.ofNat 8 code, gang := 0, faultMember := 0, faultIndex := 0, userTag := 0,
    detail := 0, doneCtr := none }

/-- A thin-channel job ends: its record is written, or waits, and with it the partition's next job alone (R45). -/
def State.endThin (s : State) (e : Nat) (j : ThinJob) (code : Nat) : State :=
  let s := s.flag (.tceLog e) 2 (code != 0)
  match s.postRecord j.queue { jobRec (.thin e j.part) j.wseq code with mute := j.mute } with
  | (s, true) => s.dropThin e j.part
  | (s, false) => s.putThin e { j with posted := true }

/-! The thin-channel job record (R242, R243). -/

def tIn (j : Job) : Nat := fld j 63 0
def tOut (j : Job) : Nat := fld j 127 64
def tW (j : Job) : Nat := fld j 191 128
def tCc (j : Job) : Nat := fld j 255 192
def tWidth (j : Job) : Nat := fld j 271 256
def tHeight (j : Job) : Nat := fld j 287 272
def tFrames (j : Job) : Nat := fld j 303 288
def tPitch (j : Job) : Nat := fld j 319 304 * 64
def tCin (j : Job) : Nat := fld j 329 320 + 1
def tCout (j : Job) : Nat := fld j 339 330 + 1
def tKt (j : Job) : Nat := fld j 342 340
def tKh (j : Job) : Nat := fld j 345 343
def tKw (j : Job) : Nat := fld j 348 346
def tPad (j : Job) : Nat := fld j 350 349
def tOp (j : Job) : Nat := fld j 355 352
def tInFmt (j : Job) : Nat := fld j 359 356
def tOutFmt (j : Job) : Nat := fld j 363 360
def tAct (j : Job) : Nat := fld j 365 364
def tTaps (j : Job) : Nat := tKt j * tKh j * tKw j

/-- Frames in memory (R245): bytes of a frame, and the distance between frames. -/
def pixBytes (pitch h : Nat) : Nat := pitch * (h + h / 2)
def pixStep (pitch h : Nat) : Nat := roundUp (pixBytes pitch h) 131072

/-- A tensor side as a view: BF16 in CB32 or CB16 with DIM0 = C, DIM1 = W, DIM2 = H, DIM3 = T (R112). -/
def tensorView (addr fmt c w h t : Nat) : View :=
  { d := BitVec.ofNat 512 (addr + c <<< 128 + w <<< 160 + h <<< 192 + t <<< 224 + 1 <<< 256 + 1 <<< 448 + (fmt + 1) <<< 456 +
           4 <<< 460 + 1 <<< 476)
    start := 0, kp := 0 }
def tensorLen (fmt c w h t : Nat) : Nat := roundUp c (if fmt = 0 then 32 else 16) * w * h * t * 2

/-- The bytes of positions xr by yr at frames tr of one side, as places from its address and lengths: of a tensor the rows of each
channel block; of a pixel format the luma rows and the chroma rows that cover them. -/
def sideParts (j : Job) (fmt c : Nat) (xr yr tr : Nat × Nat) : List (Nat × Nat) :=
  let w := tWidth j
  let h := tHeight j
  let ts := (List.range (tr.2 - tr.1)).map fun k => tr.1 + k
  let ys := (List.range (yr.2 - yr.1)).map fun k => yr.1 + k
  if fmt < 2 then
    let b := if fmt = 0 then 32 else 16
    (List.range (cdiv c b)).flatMap fun cb => ts.flatMap fun t => ys.map fun y =>
      ((((cb * tFrames j + t) * h + y) * w + xr.1) * b * 2, (xr.2 - xr.1) * b * 2)
  else
    let n := if fmt = 2 then 2 else 1
    let pitch := tPitch j
    ts.flatMap fun t =>
      let base := t * pixStep pitch h
      (ys.map fun y => (base + y * pitch + n * xr.1, n * (xr.2 - xr.1))) ++
        (ys.filter fun y => y % 2 == 0 || y == yr.1).map fun y =>
          (base + (h + y / 2) * pitch + xr.1 / 2 * 2 * n, (cdiv xr.2 2 - xr.1 / 2) * 2 * n)

/-- Every byte that a job touches of its input and of its output (R243), and its weights with their biases. -/
def sideAll (j : Job) (fmt c : Nat) : List (Nat × Nat) :=
  if fmt < 2 then [(0, tensorLen fmt c (tWidth j) (tHeight j) (tFrames j))]
  else sideParts j fmt c (0, tWidth j) (0, tHeight j) (0, tFrames j)
def tInAll (j : Job) : List (Nat × Nat) := sideAll j (tInFmt j) (tCin j)
def tOutAll (j : Job) : List (Nat × Nat) := sideAll j (tOutFmt j) (tCout j)
def biasOff (j : Job) : Nat := roundUp (tCout j * tTaps j * tCin j * 2) 64
def tWLen (j : Job) : Nat := biasOff j + 4 * tCout j

/-- The checks of a job's addresses (R243, R109, R377). Each of the four is to be 64-byte aligned; of W_ADDR and CC_ADDR the record
does not say so: DESIGN CHOICE (notes/assumptions/73.md). -/
def State.thinAddrs (s : State) (p : Nat) (j : Job) : Nat :=
  let own := fun (a : Nat) (l : List (Nat × Nat)) =>
    l.foldl (fun c x => firstCode c (s.ownCheck p true { gaddr a with off := (gaddr a).off + x.1 } x.2)) (when (a % 64 != 0) eAlign)
  leastCode [own (tIn j) (tInAll j), own (tOut j) (tOutAll j), own (tW j) [(0, tWLen j)],
    if tOp j != 2 then own (tCc j) [(0, 48)] else 0]

/-- The checks of a thin-channel job (R243, R245, R109). -/
def State.thinCode (s : State) (p : Nat) (j : Job) : Nat :=
  let pix := tOp j != 2
  let px := if tOp j = 0 then tInFmt j else tOutFmt j
  let ten := fun (f : Nat) => decide (f < 2)
  let odd := fun (k : Nat) => k == 1 || k == 3 || k == 5 || k == 7
  let shape := leastCode
    [when (!jRsvd j || fld j 351 351 != 0 || fld j 383 366 != 0 || decide (2 ≤ tPad j) || decide (2 < tOp j) || decide (3 < tInFmt j) ||
       decide (3 < tOutFmt j) || tAct j == 3) eRsvdBits,
     when (jVer j != 1) eDescVer,
     when (if tOp j = 0 then ten (tInFmt j) || !ten (tOutFmt j) else if tOp j = 1 then !ten (tInFmt j) || ten (tOutFmt j)
           else !ten (tInFmt j) || !ten (tOutFmt j)) eFormatCode,
     when (tWidth j == 0 || decide (8192 < tWidth j) || tHeight j == 0 || decide (8192 < tHeight j) || tFrames j == 0 ||
       (pix && (tWidth j % 2 != 0 || tHeight j % 2 != 0)) || !(odd (tKt j) && odd (tKh j) && odd (tKw j)) ||
       (tOp j == 0 && tCin j != 3) || (tOp j == 1 && tCout j != 3) || (tOp j == 2 && decide (8 < tCin j) && decide (8 < tCout j)) ||
       (tOp j == 2 && (tCc j != 0 || tPitch j != 0)) || (tOp j != 1 && tAct j != 0) ||
       (pix && decide (tPitch j < tWidth j * (if px = 2 then 2 else 1)))) eShape,
     s.ctrCode p ([jSig j] ++ (if jWaitEn j then [jWaitCtr j] else []))]
  if shape ≠ 0 ∧ shape ≤ eShape then shape
  else leastCode [shape, s.thinAddrs p j]

/-! Pixels (R245, R246). -/

/-- The code of a sample: luma, Cb or Cr. -/
def State.pixLuma (s : State) (p fmt : Nat) (a : GAddr) (pitch x y : Nat) : Nat :=
  if fmt = 2 then leNat (s.rdMem p a.space (a.off + y * pitch + 2 * x) 2) / 64
  else (s.rdByte p a.space (a.off + y * pitch + x)).toNat
def State.pixChroma (s : State) (p fmt : Nat) (a : GAddr) (pitch h x y k : Nat) : Nat :=
  let o := a.off + h * pitch + y / 2 * pitch
  if fmt = 2 then leNat (s.rdMem p a.space (o + 4 * (x / 2) + 2 * k) 2) / 64
  else (s.rdByte p a.space (o + 2 * (x / 2) + k)).toNat

/-- The colour record: row i's coefficients and offset. -/
def State.ccWord (s : State) (p : Nat) (a : GAddr) (k : Nat) : Word := BitVec.ofNat 32 (leNat (s.rdMem p a.space (a.off + 4 * k) 4))
def State.colour (s : State) (p : Nat) (a : GAddr) (i : Nat) (x : List Word) : Word :=
  let m := fun (k : Nat) => fmul (s.ccWord p a (3 * i + k)) (x.getD k 0)
  fadd (fadd (fadd (m 0) (m 1)) (m 2)) (s.ccWord p a (9 + i))

/-- RNE to an integer, clamped to b bits: the code, whether it was clamped, whether it was NaN. -/
def pixCode (b : Nat) (v : Word) : Nat × Bool × Bool :=
  match fval v with
  | .nan => (0, true, true)
  | .inf neg => (if neg then 0 else 2 ^ b - 1, true, false)
  | .num neg m e =>
    let n := if 0 ≤ e then m <<< e.toNat else shiftRound .rne m (-e).toNat
    if neg then (0, decide (0 < n), false)
    else if 2 ^ b ≤ n then (2 ^ b - 1, true, false)
    else (n, false, false)

/-! The convolution (R242, R244). -/

/-- Cspan (R244). -/
def thinSpan (cin fmt : Nat) : Nat :=
  if cin ≤ 1 then 1 else if cin ≤ 2 then 2 else if cin ≤ 4 then 4 else if cin ≤ 8 then 8
  else roundUp cin (if fmt = 1 then 16 else 32)

/-- The input position of a tap along an axis: in range, and the index, clamped. -/
def thinPos (n o k j : Nat) : Bool × Nat :=
  let x : Int := (o + j : Nat) - (k / 2 : Nat)
  if x < 0 then (false, 0) else if x < (n : Nat) then (true, x.toNat) else (false, n - 1)

/-- The activation of channel c at a position: the tensor's element, or the component of a converted pixel. -/
def State.thinIn (s : State) (p : Nat) (j : Job) (c x y t : Nat) : Val :=
  if tInFmt j < 2 then
    s.rdElem p (tensorView (tIn j) (tInFmt j) (tCin j) (tWidth j) (tHeight j) (tFrames j)) [c, x, y, t, 0]
  else if 3 ≤ c then .num false 0 0
  else
    let a := gaddr (tIn j)
    let f := { a with off := a.off + t * pixStep (tPitch j) (tHeight j) }
    let code := fun (k : Nat) =>
      f32OfNat (if k = 0 then s.pixLuma p (tInFmt j) f (tPitch j) x y else s.pixChroma p (tInFmt j) f (tPitch j) (tHeight j) x y (k - 1))
    fval (roundBf16 (s.colour p (gaddr (tCc j)) c [code 0, code 1, code 2]))

/-- The product's factors at reduction position k of output channel co. -/
def State.thinTerm (s : State) (p : Nat) (j : Job) (co x y t k : Nat) : Val × Val :=
  let span := thinSpan (tCin j) (tInFmt j)
  let tap := k / span
  let c := k % span
  let ax := thinPos (tWidth j) x (tKw j) (tap % tKw j)
  let ay := thinPos (tHeight j) y (tKh j) (tap / tKw j % tKh j)
  let az := thinPos (tFrames j) t (tKt j) (tap / tKw j / tKh j)
  if tPad j = 0 ∧ !(ax.1 && ay.1 && az.1) then (.num false 0 0, .num false 0 0)
  else
    let w := gaddr (tW j)
    (s.thinIn p j c ax.2 ay.2 az.2,
     if c < tCin j then Elem.bf16.value (leNat (s.rdMem p w.space (w.off + ((co * tTaps j + tap) * tCin j + c) * 2) 2))
     else .num false 0 0)

/-- An output of the convolution in FP32. -/
def State.thinConv (s : State) (p : Nat) (j : Job) (co x y t : Nat) : Word :=
  let w := gaddr (tW j)
  let bias : Word := BitVec.ofNat 32 (leNat (s.rdMem p w.space (w.off + biasOff j + 4 * co) 4))
  let k := tTaps j * thinSpan (tCin j) (tInFmt j)
  ((List.range (passCount k 64)).foldl
    (fun acc c => addEv acc (treeSum 64 ((passRange k 64 c).map (s.thinTerm p j co x y t)) [])) (bias, ev0)).1

/-- ACT (R243). -/
def thinAct (act : Nat) (v : Word) : Word :=
  match act with
  | 0 => v
  | 1 => fmin (fmax v fZero) fOne
  | _ => fmin (fmax (fmul (fadd v fOne) 0x3F00_0000) fZero) fOne

/-! Output tiles (R244): 32 × 32 positions of one frame, in raster order. -/

/-- Tiles of a frame; the columns and the rows of tile k. -/
def tileCount (j : Job) : Nat := cdiv (tWidth j) 32 * cdiv (tHeight j) 32
def tileX (j : Job) (k : Nat) : Nat × Nat := let x := 32 * (k % cdiv (tWidth j) 32); (x, min (x + 32) (tWidth j))
def tileY (j : Job) (k : Nat) : Nat × Nat := let y := 32 * (k / cdiv (tWidth j) 32); (y, min (y + 32) (tHeight j))

/-- The indices of an axis of n that a kernel of k taps reads for outputs r. -/
def tapRange (n k : Nat) (r : Nat × Nat) : Nat × Nat := (r.1 - k / 2, min n (r.2 + k / 2))

/-- The bytes of tile k of output frame t, each with its place from OUT_ADDR. -/
def State.thinTensorTile (s : State) (p : Nat) (j : Job) (t k : Nat) : List (Nat × List Byte) :=
  let v := tensorView (tOut j) (tOutFmt j) (tCout j) (tWidth j) (tHeight j) (tFrames j)
  let xr := tileX j k
  let yr := tileY j k
  (allIdx [tCout j, xr.2 - xr.1, yr.2 - yr.1]).map fun i =>
    let x := xr.1 + ix i 1
    let y := yr.1 + ix i 2
    (elemBit v [ix i 0, x, y, t, 0] / 8, natLe 2 (toBf16 .rne (s.thinConv p j (ix i 0) x y t)))

/-- The same of a pixel format, with the number of clamped codes, and whether one was clamped and one was NaN. -/
def State.thinPixTile (s : State) (p : Nat) (j : Job) (t k : Nat) : List (Nat × List Byte) × Nat × Bool × Bool :=
  let b := if tOutFmt j = 2 then 10 else 8
  let pitch := tPitch j
  let base := t * pixStep pitch (tHeight j)
  let xr := tileX j k
  let yr := tileY j k
  let comp := fun (i x y : Nat) =>
    s.colour p (gaddr (tCc j)) i ((List.range 3).map fun c => thinAct (tAct j) (s.thinConv p j c x y t))
  let put := fun (c : Nat) => if tOutFmt j = 2 then natLe 2 (c * 64) else natLe 1 c
  let luma := (allIdx [xr.2 - xr.1, yr.2 - yr.1]).map fun i =>
    let x := xr.1 + ix i 0
    let y := yr.1 + ix i 1
    let q := pixCode b (comp 0 x y)
    ((base + y * pitch + (if tOutFmt j = 2 then 2 else 1) * x, put q.1), q.2)
  let chroma := (allIdx [2, (xr.2 - xr.1) / 2, (yr.2 - yr.1) / 2]).map fun i =>
    let x := xr.1 / 2 + ix i 1
    let y := yr.1 / 2 + ix i 2
    let v := fun (dx dy : Nat) => comp (1 + ix i 0) (2 * x + dx) (2 * y + dy)
    let q := pixCode b (fmul (fadd (fadd (v 0 0) (v 1 0)) (fadd (v 0 1) (v 1 1))) 0x3E80_0000)
    ((base + (tHeight j + y) * pitch + (if tOutFmt j = 2 then 4 * x + 2 * ix i 0 else 2 * x + ix i 0), put q.1), q.2)
  let all := luma ++ chroma
  (all.map fun x => x.1, (all.filter fun x => x.2.1).length, all.any fun x => x.2.1 && !x.2.2, all.any fun x => x.2.2)

/-- Whether a range of a global address is poisoned; whether it waits for new granule values (R253). -/
def State.addrPoison (s : State) (a : Nat) (x : Nat × Nat) : Bool := (gaddr a).space != 3 && s.poisoned ((gaddr a).off + x.1) x.2
def State.addrBusy (s : State) (a : Nat) (x : Nat × Nat) : Bool :=
  !s.gran.isEmpty && (gaddr a).space != 3 && s.granBusy ((gaddr a).off + x.1) x.2

/-- What tile k of frame t reads, each with the address it counts from: the positions of its taps, the weights, the colour
record. -/
def tileReads (j : Job) (t k : Nat) : List (Nat × (Nat × Nat)) :=
  ((sideParts j (tInFmt j) (tCin j) (tapRange (tWidth j) (tKw j) (tileX j k)) (tapRange (tHeight j) (tKh j) (tileY j k))
      (tapRange (tFrames j) (tKt j) (t, t + 1))).map fun x => (tIn j, x)) ++
    [(tW j, (0, tWLen j))] ++ (if tOp j = 2 then [] else [(tCc j, (0, 48))])

/-- Whether tile k of frame t consumes poisoned bytes (R443). -/
def State.thinPoisoned (s : State) (j : Job) (t k : Nat) : Bool :=
  !s.poison.isEmpty && (tileReads j t k).any fun x => s.addrPoison x.1 x.2

/-- Reading touches the tiles that near memory serves (R267). -/
def State.touchReads (s : State) (l : List (Nat × (Nat × Nat))) : State :=
  if s.dir.isEmpty then s
  else l.foldl (fun s x => if (gaddr x.1).space = 3 then s else s.touchRange ((gaddr x.1).off + x.2.1) x.2.2) s

/-- Whether a job that has passed its checks waits for granules that take new values (R253). -/
def State.thinBusy (s : State) (j : Job) : Bool :=
  !s.gran.isEmpty &&
    ((tInAll j).any (s.addrBusy (tIn j)) || (tOutAll j).any (s.addrBusy (tOut j)) || s.addrBusy (tW j) (0, tWLen j) ||
      (tOp j != 2 && s.addrBusy (tCc j) (0, 48)))

/-- Brings near what a job names in space 1 (R108). -/
def State.nearOf (s : State) (a len : Nat) : State :=
  if (gaddr a).space = 1 then s.promoteRange (gaddr a).off len true else s
def State.nearParts (s : State) (a : Nat) (l : List (Nat × Nat)) : State :=
  if (gaddr a).space = 1 then l.foldl (fun s x => s.promoteRange ((gaddr a).off + x.1) x.2 true) s else s

/-- A job after a tile: the frame's next, or the frame is computed. -/
def ThinJob.after (j : ThinJob) (bad : Bool) : ThinJob :=
  let last := decide (tileCount j.record ≤ j.tile + 1)
  { j with started := true, tile := if last then 0 else j.tile + 1, written := last, bad := j.bad || bad }

/-- Computes a job's next tile: its bytes, or unspecified ones where it consumes poison. The engine has served its partition. -/
def State.thinTile (s : State) (e : Nat) (j : ThinJob) : State :=
  let r := j.record
  let out := gaddr (tOut r)
  let bad := s.thinPoisoned r j.frame j.tile
  let store := fun (t : State) (l : List (Nat × List Byte)) =>
    if bad then (l.foldl (fun (t : State) x =>
      (t.storeBytes (srcThin e j.part) j.part out.space (out.off + x.1) (t.freeBytes x.2.length) true).bump) t)
    else l.foldl (fun t x => t.storeBytes (srcThin e j.part) j.part out.space (out.off + x.1) x.2 false) t
  let s1 :=
    if tOutFmt r < 2 then store s (s.thinTensorTile j.part r j.frame j.tile)
    else
      let f := s.thinPixTile j.part r j.frame j.tile
      (((store s f.1).count (.tceClampCnt e) f.2.1).flag (.tceLog e) 0 f.2.2.1).flag (.tceLog e) 1 f.2.2.2
  let s2 := (s1.touchReads (tileReads r j.frame j.tile)).putThin e (j.after bad)
  s2.setTce e { s2.tce e with served := some j.part }

/-! Turns (R35): pending work is a job in the engine with a tile to compute, or one that the engine could take. -/

/-- Whether a partition's job in the engine has a tile to compute now. -/
def State.thinWork (s : State) (e p : Nat) : Bool :=
  match s.thinJob e p with
  | none => false
  | some j => !j.posted && !j.written && !s.thinBusy j.record

/-- The partition whose turn it is: the next with pending work after the one served last. -/
def State.thinTurn (s : State) (e : Nat) : Option Nat :=
  let heads := s.thinHeads e
  nextAbove (s.tce e).served (parts32.filter fun p => s.thinWork e p || heads.any fun x => x.1 == p)

/-- JOB_CLAIM: an idle codec engine takes its next job; a thin-channel engine takes the job of the partition whose turn it is. -/
def execJobClaim (e : EngineId) (s : State) : Host.Outcome State Fault Refusal :=
  if !s.offers then .next s
  else
    match e with
    | .codec c =>
      if (s.codec c).job.isSome || !s.unitOn (uCodec c) then .next s
      else
        match s.codecPick [] (s.codecEntries c) with
        | none => .next s
        | some x =>
          let q := x.queue
          let s := s.usePart (s.qPart q)
          let since := match (s.queue q).ready.find? fun y => y.1 == x.index with | some y => y.2 | none => s.limClock
          let j : CodecJob :=
            { queue := q, part := s.qPart q, wseq := x.index, record := s.ringEntry q x.index, waitAt := since, late := false,
              started := false, units := [], done := 0, released := false, pins := [], nextRef := 0, qps := [], bad := false,
              posted := false }
          let s := s.takeEntry q x.index
          .next (s.setCodec c { s.codec c with job := some j })
    | .thin e =>
      match (s.thinTurn e).bind fun p => (s.thinHeads e).find? fun x => x.1 == p with
      | none => .next s
      | some (p, q) =>
        let s := s.usePart p
        .next ((s.takeHead q).putThin e (s.thinOf q))

/-- One turn of a thin-channel engine whose job is of operation `op`: the job's checks when it starts, then a tile. A reserved OP
faults under any of the three commands. A tile whose accesses are no longer permitted (R253, R377) ends the job, once what
it has written has landed. -/
def State.thinRun (s : State) (e op : Nat) : State :=
  match (s.thinTurn e).bind (s.thinJob e) with
  | none => s
  | some j =>
    if !s.live || (tOp j.record != op && decide (tOp j.record ≤ 2)) then s
    else if j.started then
      match s.thinAddrs j.part j.record with
      | 0 => s.thinTile e j
      | c => if s.writesLeft (srcThin e j.part) then s else s.endThin e j c
    else
      let s := s.usePart j.part
      match s.thinCode j.part j.record with
      | 0 =>
        let r := j.record
        ((((s.nearParts (tIn r) (tInAll r)).nearParts (tOut r) (tOutAll r)).nearParts (tW r) [(0, tWLen r)]).nearParts (tCc r)
          (if tOp r = 2 then [] else [(0, 48)])).thinTile e j
      | c => s.endThin e j c

/-- INPUT, OUTPUT and THIN (R243). -/
def execInput (e : TceId) (s : State) : Host.Outcome State Fault Refusal := .next (s.thinRun e 0)
def execOutput (e : TceId) (s : State) : Host.Outcome State Fault Refusal := .next (s.thinRun e 1)
def execThin (e : TceId) (s : State) : Host.Outcome State Fault Refusal := .next (s.thinRun e 2)

/-- Sets hand-over pins on the tiles of a range that are present in near memory (R247): COPY, NEAR and CLEANING (R261). -/
def State.handPins (s : State) (off len : Nat) : State :=
  (s.tilesOf off len).foldl (fun s t =>
    match s.dirEntry t with
    | some d => if d.st = .copy ∨ d.st = .near ∨ d.st = .cleaning then s.setDir t (some { d with handPin := true }) else s
    | none => s) s

/-- TCE_FRAME_DONE (R247): the bytes of a job's frame have landed; an OUTPUT job pins its tiles; SIG_CTR is signalled; after
the last frame the job completes. -/
def execTceFrameDone (e : TceId) (s : State) : Host.Outcome State Fault Refusal :=
  match (s.tce e).jobs.find? fun j => j.written && !j.posted && !s.writesLeft (srcThin e j.part) with
  | none => .next s
  | some j =>
    let r := j.record
    if !s.live then .next s
    else
      let out := gaddr (tOut r)
      let s1 := if tOp r = 1 ∧ out.space ≠ 3 then
          s.handPins (out.off + j.frame * pixStep (tPitch r) (tHeight r)) (pixBytes (tPitch r) (tHeight r)) else s
      let s2 := if j.bad then s1 else s1.signal (jSig r) 1
      if tFrames r ≤ j.frame + 1 then .next (s2.endThin e j (if j.bad then eDataError else 0))
      else .next (s2.putThin e { j with frame := j.frame + 1, written := false })

end Sys2Proof.Machine
end

