-- ==== Sys2Proof/Machine/Codec.lean ====
section
/-! DEFINITION. Codec engines (spec/13_video_codec.md): streams, encode and decode jobs. What a stepping's encoder and the
codec standards decide are free values of Sys2Proof/Config.lean (notes/assumptions/11.md, 13.md). -/

namespace Sys2Proof.Machine

/-! The job record (R354). -/
def jA (j : Job) : Nat := fld j 63 0
def jB (j : Job) : Nat := fld j 127 64
def jC (j : Job) : Nat := fld j 191 128
def jD (j : Job) : Nat := fld j 255 192
def jLen (j : Job) : Nat := fld j 287 256
def jOp (j : Job) : Nat := fld j 323 320
def jStream (j : Job) : Nat := fld j 325 324
def jKey (j : Job) : Bool := j.getLsbD 326
def jRoi (j : Job) : Nat := fld j 334 328
def jRel (j : Job) : Nat := fld j 365 352
def jUnit (j : Job) : Nat := fld j 381 368

/-- Bytes of a frame, the distance between frames, and bytes of a map slot (R350, R245, R370). -/
def cFrame (c : Cfg) : Nat := pixBytes (cPitch c) (cH c)
def cStep (c : Cfg) : Nat := pixStep (cPitch c) (cH c)
def cMap (c : Cfg) : Nat := 64 * cdiv (16 + cWsb c * cHsb c) 64

/-- Whether a codec block is a decode engine (R18). -/
def isDecoder (c : Nat) : Bool := decide (8 ≤ c)

/-- The slot of a stream. -/
def State.slot (s : State) (c k : Nat) : Option Slot := tget (s.codec c).slots none k
def State.setSlot (s : State) (c k : Nat) (v : Option Slot) : State :=
  s.setCodec c { s.codec c with slots := tset (s.codec c).slots none k v }

/-- A 64-byte-aligned address for `len` bytes of the own vertex. -/
def State.jobAddr (s : State) (p : Nat) (host : Bool) (a len : Nat) : Nat :=
  firstCode (when (a % 64 != 0) eAlign) (s.ownCheck p host (gaddr a) len)

/-- Reference area bytes (R357). -/
def refNeed (dec : Bool) (c : Cfg) : Nat :=
  let z := if cTen c then 24576 else 12288
  if dec then (cNref c + 1) * cWsb c * cHsb c * (z + 1024) else cWsb c * cHsb c * (2 * z + 1024)

/-- The checks of a configuration record (R348, R350, R356, R357). -/
def State.cfgCode (s : State) (p : Nat) (dec : Bool) (c : Cfg) : Nat :=
  let qTop := if cCodec c = 0 then 255 else 51
  let rsvd := decide (2 ≤ cCodec c) || fld c 135 131 != 0 || fld c 143 138 != 0 || fld c 351 341 != 0 || fld c 479 416 != 0 ||
    fld c 511 484 != 0 ||
    (if dec then fld c 159 136 != 0 || fld c 279 160 != 0 else cMode c == 3 || cNref c != 0 || cOut c != 0 || cRing c != 0)
  let size := !sizeLegal (cW c) (cH c) || decide (cPitch c < cW c * (if cTen c then 2 else 1)) || decide (cRefSize c < refNeed dec c)
  let kind :=
    if dec then cNref c == 0 || decide (16 < cNref c) || cOut c == 0 || decide (16 < cOut c)
    else
      cRows c == 0 || decide (cHsb c < cRows c) || (cGir c != 0 && (decide (cGir c < 8) || decide (120 < cGir c))) ||
        cRate c == 0 || decide (800000 < cRate c) || decide (cBuf c * 60 < cRate c) || cFpsN c == 0 || cFpsD c == 0 ||
        decide (qTop < cQp c) || decide (qTop < cQpMax c) || decide (cQp c < cQpMin c) || decide (cQpMax c < cQp c) ||
        (declared c).isNone
  leastCode
    [when rsvd eRsvdBits, when (cVer c != 1) eDescVer, when (size || kind) eShape,
     when (decide (1 < (gaddr (cRef c)).space)) eAddrSpace, s.jobAddr p false (cRef c) (cRefSize c),
     (if dec then s.jobAddr p true (cRing c) ((cOut c - 1) * cStep c + cFrame c) else 0)]

/-- A region of interest (R364). -/
def State.roi (s : State) (p : Nat) (a k : Nat) : Nat := let g := gaddr a; s.rdVal p { g with off := g.off + 8 * k } 8
def roiOff (r : Nat) : Int := signedOf 8 (bits r 39 32)
def roiCode (hevc : Bool) (r : Nat) : Nat :=
  leastCode
    [when (bits r 63 40 != 0) eRsvdBits,
     when (decide (bits r 23 16 < bits r 7 0) || decide (bits r 31 24 < bits r 15 8) ||
       (if hevc then decide (roiOff r < -26) || decide (25 < roiOff r) else decide (roiOff r < -63) || decide (63 < roiOff r))) eShape]

/-- The reference area of an open stream, whose owner may have changed since OPEN (R109, R253). -/
def State.refCheck (s : State) (p : Nat) (dec : Bool) (cfg : Cfg) : Nat := s.jobAddr p false (cRef cfg) (refNeed dec cfg)
/-- Bytes of a stream's output ring. -/
def ringLen (cfg : Cfg) : Nat := (cOut cfg - 1) * cStep cfg + cFrame cfg
/-- The output ring and the map ring of a decode stream. -/
def State.ringCheck (s : State) (p : Nat) (cfg : Cfg) (map : Nat) : Nat :=
  leastCode [s.jobAddr p true (cRing cfg) (ringLen cfg), s.jobAddr p true map (cOut cfg * cMap cfg)]
/-- What an encode reads, and what it writes. -/
def State.encodeReads (s : State) (p : Nat) (j : Job) (cfg : Cfg) : List Nat :=
  [s.jobAddr p true (jA j) (cFrame cfg), (if jC j = 0 then 0 else s.jobAddr p true (jC j) (16 * cWsb cfg * cHsb cfg)),
   (if jD j = 0 then 0 else s.jobAddr p true (jD j) (8 * jRoi j))]
def State.encodeWrites (s : State) (p : Nat) (j : Job) (cfg : Cfg) : List Nat :=
  [s.jobAddr p true (jB j) (jLen j), s.refCheck p false cfg]

/-- The checks of a codec job before it has any effect (R354 to R356, R364). -/
def State.codecCode (s : State) (c p : Nat) (j : Job) : Nat :=
  let dec := isDecoder c
  let frame := jOp j == 1
  let sl := s.slot c (jStream j)
  let cfg := match sl with | some x => x.cfg | none => 0
  let rsvd := !jRsvd j || decide (2 < jOp j) || fld j 327 327 != 0 || fld j 351 335 != 0 || fld j 367 366 != 0 || fld j 383 382 != 0 ||
    (jOp j == 2 && jA j != 0) || (!(frame && !dec) && (jB j != 0 || jD j != 0)) || (!frame && (jC j != 0 || jLen j != 0)) ||
    (dec && (fld j 319 288 != 0 || jKey j || jRoi j != 0 || jRel j != 0))
  let early := leastCode
    [when rsvd eRsvdBits, when (jVer j != 1) eDescVer,
     when (!dec && decide (64 < jRoi j)) eShape, when (frame && !dec && decide (jLen j < 256)) eShape,
     s.ctrCode p ([jSig j] ++ (if jWaitEn j then [jWaitCtr j] else []) ++ (if frame || (dec && jOp j == 2) then [jUnit j] else []) ++
       (if frame && !dec then [jRel j] else []))]
  let state := when (if jOp j = 0 then sl.isSome else sl.isNone) eStreamState
  if early ≠ 0 ∧ early ≤ eShape then early
  else
    match jOp j with
    | 0 =>
      let a := s.jobAddr p true (jA j) 64
      leastCode [early, state, a, if a = 0 then s.cfgCode p dec (BitVec.ofNat 512 (s.rdVal p (gaddr (jA j)) 64)) else 0]
    | 1 =>
      if sl.isNone then leastCode [early, state]
      else if dec then
        leastCode [early, s.jobAddr p true (jA j) (jLen j), s.ringCheck p cfg (jC j), s.refCheck p true cfg]
      else
        let readable := jD j != 0 && s.jobAddr p true (jD j) (8 * jRoi j) == 0
        leastCode (early :: s.encodeReads p j cfg ++ s.encodeWrites p j cfg ++
          if readable then (List.range (jRoi j)).map fun k => roiCode (cCodec cfg == 1) (s.roi p (jD j) k) else [])
    | _ => leastCode [early, state]

/-! The end of a job. -/

/-- A codec job ends: JOB_FAULT where it faulted, then its record (R355, R391). -/
def State.endCodec (s : State) (c : Nat) (j : CodecJob) (code : Nat) (fault : Bool) : State :=
  let s := s.flag (.codLog c) 0 fault
  match s.postRecord j.queue { jobRec (.codec c) j.wseq code with mute := j.mute } with
  | (s, true) => s.setCodec c { s.codec c with job := none }
  | (s, false) => s.setCodec c { s.codec c with job := some { j with posted := true } }

/-- A job that has done its work: SIG_CTR and the record; poisoned input is DATA_ERROR (R443). -/
def State.doneCodec (s : State) (c : Nat) (j : CodecJob) (bad : Bool) : State :=
  if bad then s.endCodec c j eDataError true else (s.signal (jSig j.record) 1).endCodec c j 0 false

/-- Whether bytes a job reads are poisoned; whether a range still waits for new granule values (R253). -/
def State.jobPoison (s : State) (a len : Nat) : Bool := (gaddr a).space != 3 && s.poisoned (gaddr a).off len
def State.jobBusy (s : State) (a len : Nat) : Bool := (gaddr a).space != 3 && s.granBusy (gaddr a).off len

/-- Whether a range has a tile that is moving, so that a write to it would be held. -/
def State.rangeMoving (s : State) (space off len : Nat) : Bool :=
  (space == 0 || space == 1) && (s.tilesOf off len).any fun t => s.moving t
/-- Whether what a job writes to a range could not land now: a tile of it is moving. Signals follow the landing (R359, R367). -/
def State.jobHeld (s : State) (a len : Nat) : Bool := s.jobBusy a len || s.rangeMoving (gaddr a).space (gaddr a).off len

/-- The job an engine is about to run under the command of operation `op`, with its check; a reserved OP faults
under any of the commands. -/
def State.startCodec (s : State) (c op : Nat) (run : State → CodecJob → State) : State :=
  match (s.codec c).job with
  | none => s
  | some j =>
    if !s.live || j.posted || j.started || (jOp j.record != op && decide (jOp j.record ≤ 2)) then s
    else
      let s := s.usePart j.part
      match s.codecCode c j.part j.record with
      | 0 => run s j
      | code => s.endCodec c j code true

/-- OPEN (R356, R357): the slot opens with its state cleared. -/
def execOpenStream (c : CodecId) (s : State) : Host.Outcome State Fault Refusal :=
  .next (s.startCodec c 0 fun s j =>
    if s.jobBusy (jA j.record) 64 then s
    else
      let cfg : Cfg := BitVec.ofNat 512 (s.rdVal j.part (gaddr (jA j.record)) 64)
      let sl : Slot := { cfg := cfg, frames := 0, full := 0, ref := 0, outN := 0, cycle := none, mapBase := 0 }
      let s := s.nearOf (jA j.record) 64
      if s.jobPoison (jA j.record) 64 then s.doneCodec c j true
      else (s.setSlot c (jStream j.record) (some sl)).doneCodec c j false)

/-! Encoding (R358 to R366). -/

/-- The engine writes its reference area, whose layout is not specified (R357): what it holds follows from the stream (R88). What is
written from poisoned data is poisoned (R443). -/
def State.refBytes (s : State) (c p : Nat) (cfg : Cfg) (state : Nat) (bad : Bool) : State :=
  let a := gaddr (cRef cfg)
  let n := refNeed (isDecoder c) cfg
  (s.nearOf (cRef cfg) n).storeBytes (srcCodec c) p a.space a.off ((List.range n).map (Config.refByte cfg state)) bad

/-- A superblock's QP: the row's, with the OFFSET of the lowest-numbered region that holds it (R364). -/
def State.sbQp (s : State) (p : Nat) (cfg : Cfg) (j : Job) (rows : List Nat) (x y : Nat) : Nat :=
  let q := rows.getD y (cQp cfg)
  if jD j = 0 then q
  else
    match ((List.range (jRoi j)).map (s.roi p (jD j))).find? fun r =>
        decide (bits r 7 0 ≤ x) && decide (x ≤ bits r 23 16) && decide (bits r 15 8 ≤ y) && decide (y ≤ bits r 31 24) with
    | none => q
    | some r => (max (cQpMin cfg : Int) (min ((q : Int) + roiOff r) (cQpMax cfg))).toNat
def State.sbQps (s : State) (p : Nat) (cfg : Cfg) (j : Job) (rows : List Nat) : List Nat :=
  (allIdx [cWsb cfg, cHsb cfg]).map fun i => s.sbQp p cfg j rows (ix i 0) (ix i 1)

/-- Sets an engine's pin on tiles, or drops it, at its release with the hand-over pin (R371). -/
def State.jobPin (s : State) (c : Nat) (tiles : List Nat) : State :=
  tiles.foldl (fun s t =>
    match s.dirEntry t with
    | some d => s.setDir t (some { d with jobPins := insNat c d.jobPins })
    | none => s) s
def State.jobUnpin (s : State) (c : Nat) (tiles : List Nat) (release : Bool) : State :=
  tiles.foldl (fun s t =>
    match s.dirEntry t with
    | some d => s.setDir t (some { d with jobPins := d.jobPins.filter fun x => x ≠ c, handPin := d.handPin && !release })
    | none => s) s

/-- The tiles of a range of the vertex's memory, and those of them that near memory holds. -/
def State.frameTiles (s : State) (a len : Nat) : List Nat := if (gaddr a).space = 3 then [] else s.tilesOf (gaddr a).off len
def State.presentTiles (s : State) (a len : Nat) : List Nat :=
  (s.frameTiles a len).filter fun t =>
    match s.dirEntry t with
    | some d => d.st == .copy || d.st == .near
    | none => false

/-- The frame's type (R358, R361, R363). -/
def frameType (sl : Slot) (j : Job) : Nat :=
  if sl.outN = 0 ∨ jKey j then 0
  else
    match sl.cycle with
    | none => 1
    | some k => if k + 1 = cGir sl.cfg then 2 else 1

/-- A luma code of a frame's bytes: P010 holds it in bits [15:6] (R245). -/
def lumaCode (cfg : Cfg) (b : List Byte) (x y : Nat) : Nat :=
  if cTen cfg then leNat ((b.drop (y * cPitch cfg + 2 * x)).take 2) / 64 else leNat ((b.drop (y * cPitch cfg + x)).take 1)

/-- The motion search of a frame (R365): nothing for a key picture. -/
def searchOf (sl : Slot) (r : Job) (frame hints : List Byte) : List (List (Option Vec)) :=
  let cfg := sl.cfg
  let n := cWsb cfg * cHsb cfg
  let k := sl.cycle.getD 0
  let edge := fun (i : Nat) => if sl.cycle.isSome then i * cWsb cfg / cGir cfg else 0
  if frameType sl r = 0 then List.replicate n (List.replicate 17 none)
  else
    Search.frame
      { cfg := cfg, ref := sl.ref, width := cW cfg, height := cH cfg,
        luma := (allIdx [cW cfg, cH cfg]).map fun i => lumaCode cfg frame (ix i 0) (ix i 1),
        clean := edge k, band := edge (k + 1),
        gmv := if fld r 303 288 = noVec ∨ fld r 319 304 = noVec then none
               else some (signedOf 16 (fld r 303 288), signedOf 16 (fld r 319 304)),
        hints := hintRows hints n, before := sl.vecs }

/-- Bytes of units. -/
def totalOf (l : List (List Byte)) : Nat := l.foldl (fun n x => n + x.length) 0

/-- The start of an encode: the input's present tiles are pinned, the vectors are searched and the frame is encoded. -/
def State.encodeStart (s : State) (c : Nat) (j : CodecJob) (sl : Slot) : State :=
  let r := j.record
  let cfg := sl.cfg
  let a := gaddr (jA r)
  let bad := s.jobPoison (jA r) (cFrame cfg) || (jC r != 0 && s.jobPoison (jC r) (16 * cWsb cfg * cHsb cfg)) ||
    (jD r != 0 && s.jobPoison (jD r) (8 * jRoi r))
  let hints := if jC r = 0 then [] else s.rdMem j.part (gaddr (jC r)).space (gaddr (jC r)).off (16 * cWsb cfg * cHsb cfg)
  let roi := if jD r = 0 then [] else s.rdMem j.part (gaddr (jD r)).space (gaddr (jD r)).off (8 * jRoi r)
  let frame := s.rdMem j.part a.space a.off (cFrame cfg)
  let vecs := searchOf sl r frame hints
  let x := Config.encode cfg sl.ref r (frame ++ roi) vecs
  let key := frameType sl r == 0
  let bad := bad || (!key && s.jobPoison (cRef cfg) (refNeed false cfg))
  let units := frameUnits cfg key (cCodec cfg == 1 && !key && sl.cycle == some 0) x
  let job := { j with started := true, pins := s.frameTiles (jA r) (cFrame cfg), nextRef := x.state, bad := bad,
                      nextVecs := vecs.map fun m => m.getD 0 none,
                      qps := frameQps cfg sl.full sl.qp (8 * totalOf units) x.qps, units := units }
  let s := (s.jobPin c (s.presentTiles (jA r) (cFrame cfg))).setCodec c { s.codec c with job := some job }
  let s := (s.nearOf (jA r) (cFrame cfg)).nearOf (jB r) (jLen r)
  ((s.nearOf (jC r) (if jC r = 0 then 0 else 16 * cWsb cfg * cHsb cfg)).nearOf (jD r) (if jD r = 0 then 0 else 8 * jRoi r)).refBytes
    c j.part cfg x.state bad

/-- Where unit u begins in the output buffer, from ADDR_B, and whether it fits (R358, R360). -/
def CodecJob.unitAt (j : CodecJob) (u : Nat) : Nat := 256 + totalOf (j.units.take u)
def CodecJob.fits (j : CodecJob) (u : Nat) : Bool := decide (j.unitAt u + (j.units.getD u []).length ≤ jLen j.record)
/-- The frame has all its units, or its next one does not fit. -/
def CodecJob.full (j : CodecJob) : Bool := decide (j.done < j.units.length) && !j.fits j.done

/-- A job whose accesses are no longer permitted (R253, R377) ends, once what it wrote has landed; a hand-over pin stays (R371). -/
def State.dropCodec (s : State) (c : Nat) (j : CodecJob) (code : Nat) : State :=
  if s.writesLeft (srcCodec c) then s else (s.jobUnpin c j.pins false).endCodec c { j with pins := [] } code true
/-- What a running encode may still access. -/
def State.encodeCode (s : State) (j : CodecJob) (cfg : Cfg) : Nat :=
  leastCode ((if j.released then [] else s.encodeReads j.part j.record cfg) ++ s.encodeWrites j.part j.record cfg)
/-- The same of the job in engine c: 0 where its accesses are permitted. -/
def State.runCode (s : State) (c : Nat) (j : CodecJob) : Nat :=
  match s.slot c (jStream j.record) with
  | none => 0
  | some sl => s.encodeCode j sl.cfg

/-- ENCODE_UNIT_DONE (R359): the next unit's bytes have landed; LEN_u is written and UNIT_CTR signalled. -/
def execEncodeUnitDone (c : CodecId) (s : State) : Host.Outcome State Fault Refusal :=
  match (s.codec c).job with
  | none => .next s
  | some j =>
    if !s.live || !j.started || j.posted || isDecoder c || decide (j.units.length ≤ j.done) || j.full ||
        s.jobHeld (jB j.record) (jLen j.record) then .next s
    else if s.runCode c j ≠ 0 then .next (s.dropCodec c j (s.runCode c j))
    else
      let b := gaddr (jB j.record)
      let u := j.units.getD j.done []
      let put := fun (t : State) (o : Nat) (l : List Byte) =>
        if j.bad then (t.storeBytes (srcCodec c) j.part b.space (b.off + o) (t.freeBytes l.length) true).bump
        else t.storeBytes (srcCodec c) j.part b.space (b.off + o) l false
      let s1 := put s (j.unitAt j.done) u
      let s2 := if 48 ≤ j.done then s1 else put s1 (64 + 4 * j.done) (natLe 4 u.length)
      let s3 := s2.setCodec c { s2.codec c with job := some { j with done := j.done + 1 } }
      .next (if j.bad then s3 else s3.signal (jUnit j.record) 1)

/-- INPUT_RELEASE (R371): the last read of the input is done; the engine's pin and the hand-over pin of its tiles are
dropped, and REL_CTR is signalled. -/
def execInputRelease (c : CodecId) (s : State) : Host.Outcome State Fault Refusal :=
  match (s.codec c).job with
  | none => .next s
  | some j =>
    if !s.live || !j.started || j.released || j.posted || isDecoder c then .next s
    else
      let s1 := s.jobUnpin c j.pins true
      let s2 := s1.setCodec c { s1.codec c with job := some { j with released := true, pins := [] } }
      .next (s2.signal (jRel j.record) 1)

/-- The stream after a complete frame of `bits` bits (R361 to R363). -/
def Slot.after (sl : Slot) (j : Job) (nextRef bits qp : Nat) (vecs : List (Option Vec)) : Slot :=
  let cfg := sl.cfg
  let cycle :=
    if cGir cfg = 0 then none
    else if frameType sl j = 0 then some 0
    else sl.cycle.map fun k => (k + 1) % cGir cfg
  { sl with frames := sl.frames + 1, outN := sl.outN + 1, ref := nextRef, vecs := vecs, cycle := cycle, qp := qp,
            full := fullAfter cfg sl.full bits }

/-- The output buffer's header (R358). -/
def encodeHeader (total num type : Nat) (inc : Bool) (units qp full : Nat) : List Byte :=
  natLe 4 total ++ natLe 4 num ++ natLe 1 (type + 4 * b2n inc) ++ natLe 1 units ++ natLe 2 qp ++ natLe 4 full ++ natLe 48 0

/-- The end of an encode: the header, the stream's next state, SIG_CTR; or STREAM_FULL (R358, R360). -/
def State.encodeEnd (s : State) (c : Nat) (j : CodecJob) (sl : Slot) : State :=
  let r := j.record
  let cfg := sl.cfg
  let total := totalOf (j.units.take j.done)
  let inc := j.full
  let sb := s.sbQps j.part cfg r j.qps
  let avg := sb.foldl (· + ·) 0 / max sb.length 1
  let next := if inc then { sl with frames := sl.frames + 1 } else sl.after r j.nextRef (8 * total) (j.qps.getLast?.getD 0) j.nextVecs
  let head := encodeHeader total sl.frames (frameType sl r) inc j.done avg (next.full / max (cFpsN cfg) 1)
  let b := gaddr (jB r)
  let s := s.storeBytes (srcCodec c) j.part b.space b.off (if j.bad then s.freeBytes 64 else head) j.bad
  let s := s.setSlot c (jStream r) (some next)
  let limit := !inc && (j.qps.getLast?.getD 0 == cQpMax cfg) && overFull cfg next.full
  let s := s.flag (.codLog c) 5 limit
  if inc then (s.flag (.codLog c) 1 true).endCodec c j eStreamFull false
  else (if j.bad then s.bump else s).doneCodec c j j.bad

/-- ENCODE_FRAME: the start of a FRAME job on an encode engine, or, once its units and its release are done, its
end. -/
def execEncodeFrame (c : CodecId) (s : State) : Host.Outcome State Fault Refusal :=
  match (s.codec c).job with
  | none => .next s
  | some j =>
    if isDecoder c then .next s
    else
      match s.slot c (jStream j.record) with
      | none => .next (s.startCodec c 1 fun s _ => s)
      | some sl =>
        if j.started then
          (if !s.live || j.posted || !j.released || (decide (j.done < j.units.length) && !j.full) || s.writesLeft (srcCodec c) ||
               s.jobHeld (jB j.record) (jLen j.record)
           then .next s
           else if s.encodeCode j sl.cfg ≠ 0 then .next (s.dropCodec c j (s.encodeCode j sl.cfg))
           else .next (s.encodeEnd c j sl))
        else
          .next (s.startCodec c 1 fun s j =>
            let r := j.record
            if s.jobBusy (jA r) (cFrame sl.cfg) || s.jobBusy (jB r) (jLen r) || s.jobBusy (cRef sl.cfg) (refNeed false sl.cfg) ||
                (jC r != 0 && s.jobBusy (jC r) (16 * cWsb sl.cfg * cHsb sl.cfg)) || (jD r != 0 && s.jobBusy (jD r) (8 * jRoi r)) then s
            else s.encodeStart c j sl)

/-! Decoding (R367 to R370). -/

/-- Writes one frame: its ring slot and its map slot (R367). -/
def State.emitFrame (s : State) (c : Nat) (j : CodecJob) (map : Nat) (bad : Bool) (f : Config.Decoded) : State :=
  match s.slot c (jStream j.record) with
  | none => s
  | some sl =>
    let cfg := sl.cfg
    let n := sl.outN
    let k := n % max (cOut cfg) 1
    let ring := gaddr (cRing cfg)
    let mp := gaddr map
    let put := fun (t : State) (sp o : Nat) (l : List Byte) =>
      if bad then (t.storeBytes (srcCodec c) j.part sp o (t.freeBytes l.length) true).bump
      else t.storeBytes (srcCodec c) j.part sp o l false
    let s := (frameCells cfg f).foldl (fun t x => put t ring.space (ring.off + k * cStep cfg + x.1) x.2) s
    let s := put s mp.space (mp.off + k * cMap cfg) (mapBytes n f)
    s.setSlot c (jStream j.record) (some { sl with outN := n + 1 })

/-- Whether frames and maps cannot be written now (R253); the rings near, as space 1 asks (R108). -/
def State.ringsBusy (s : State) (cfg : Cfg) (map : Nat) : Bool :=
  s.jobBusy (cRing cfg) (ringLen cfg) || s.jobBusy map (cOut cfg * cMap cfg)
def State.ringsNear (s : State) (cfg : Cfg) (map : Nat) : State :=
  (s.nearOf (cRing cfg) (ringLen cfg)).nearOf map (cOut cfg * cMap cfg)

/-- The end of a job of a decode engine, once all that it wrote has landed: UNIT_CTR for each frame, and a CLOSE closes its slot. -/
def State.decodeEnd (s : State) (c : Nat) (j : CodecJob) : State :=
  if s.writesLeft (srcCodec c) then s
  else
    let s := if j.bad || j.done == 0 then s else s.signal (jUnit j.record) (BitVec.ofNat 32 j.done)
    let s := if jOp j.record = 2 then s.setSlot c (jStream j.record) none else s
    s.doneCodec c j j.bad
/-- Frames that fall due are written; the job ends when they have landed. -/
def State.emitAll (s : State) (c : Nat) (j : CodecJob) (cfg : Cfg) (map : Nat) (bad : Bool) (l : List Config.Decoded) : State :=
  let j := { j with started := true, done := l.length, bad := bad }
  let s := s.setCodec c { s.codec c with job := some j }
  let s := if l.isEmpty then s else l.foldl (fun t f => t.emitFrame c j map bad f) (s.ringsNear cfg map)
  s.decodeEnd c j
/-- The job of operation `op` that has written its frames. -/
def State.emitted (s : State) (c op : Nat) : Option CodecJob :=
  match (s.codec c).job with
  | none => none
  | some j => if s.live && isDecoder c && j.started && !j.posted && jOp j.record == op then some j else none

/-- A FRAME job's chunk is decoded (R367, R368): UNSUPPORTED ends it without output. -/
def State.decodeStart (s : State) (c : Nat) (j : CodecJob) (sl : Slot) : State :=
  let r := j.record
  let a := gaddr (jA r)
  let x := Config.decode sl.cfg sl.ref sl.dec.kept (s.rdMem j.part a.space a.off (jLen r))
  let run := decodeChunk sl.cfg sl.dec x
  let bad := s.jobPoison (jA r) (jLen r) || (x.reads && s.jobPoison (cRef sl.cfg) (refNeed true sl.cfg))
  let s := (s.nearOf (jA r) (jLen r)).setSlot c (jStream r)
    (some { sl with frames := sl.frames + 1, ref := x.state, mapBase := jC r, dec := run.dec })
  let s := if run.stop then s else s.refBytes c j.part sl.cfg x.state bad
  let s := (s.count (.codSyntaxCnt c) run.errors).flag (.codLog c) 3 (decide (0 < run.errors))
  let s := (s.count (.codConcealCnt c) run.conceals).flag (.codLog c) 4 (decide (0 < run.conceals))
  if run.stop then s.endCodec c j eUnsupported false else s.emitAll c j sl.cfg (jC r) bad run.out

/-- DECODE_FRAME (R367): the chunk is decoded, and every frame that falls due is emitted; or, once all that was written has landed, the
end of the job. -/
def execDecodeFrame (c : CodecId) (s : State) : Host.Outcome State Fault Refusal :=
  if !isDecoder c then .next s
  else
    match s.emitted c 1 with
    | some j => .next (s.decodeEnd c j)
    | none =>
      .next (s.startCodec c 1 fun s j =>
        match s.slot c (jStream j.record) with
        | none => s
        | some sl =>
          let r := j.record
          if s.jobBusy (jA r) (jLen r) || s.jobBusy (cRef sl.cfg) (refNeed true sl.cfg) || s.ringsBusy sl.cfg (jC r) then s
          else s.decodeStart c j sl)

/-- CLOSE (R357): frames still due are emitted, and the slot closes, once they have landed. -/
def execCloseStream (c : CodecId) (s : State) : Host.Outcome State Fault Refusal :=
  match s.emitted c 2 with
  | some j => .next (s.decodeEnd c j)
  | none =>
    .next (s.startCodec c 2 fun s j =>
      match s.slot c (jStream j.record) with
      | none => s
      | some sl =>
        let due := if isDecoder c then dueFrames sl.dec.kept (Config.decodeFlush sl.cfg sl.ref) else []
        if due.isEmpty then (s.setSlot c (jStream j.record) none).doneCodec c j false
        else
          match s.ringCheck j.part sl.cfg sl.mapBase with
          | 0 => if s.ringsBusy sl.cfg sl.mapBase then s else s.emitAll c j sl.cfg sl.mapBase false due
          | code => s.endCodec c j code true)

/-- LATE (R372): a FRAME job still runs when DEADLINE_TICKS of 27 MHz have passed since its wait was reached. -/
def execLate (c : CodecId) (s : State) : Host.Outcome State Fault Refusal :=
  match (s.codec c).job with
  | none => .next s
  | some j =>
    match s.slot c (jStream j.record) with
    | none => .next s
    | some sl =>
      let ticks := cDeadline sl.cfg
      if !s.live || !s.clocks.vid || jOp j.record != 1 || j.late || j.posted || ticks = 0 || decide ((s.limClock - j.waitAt) * 27 < ticks * 1000) then .next s
      else
        let s1 := s.setCodec c { s.codec c with job := some { j with late := true } }
        .next ((s1.count (.codLateCnt c) 1).flag (.codLog c) 2 true)

end Sys2Proof.Machine
end

