-- ==== Sys2Proof/Machine/Lifecycle.lean ====
section
/-! DEFINITION. The function lifecycle of units and partitions (spec/17_power_and_faults.md R451 to R453,
spec/01_architecture.md R46), the partition table (spec/14_host_and_partitions.md R382, R383), stack granules
(spec/10_memory.md R253), Function Level Resets (R381) and failures in service (R21, R444). -/

namespace Sys2Proof.Machine

/-- ENABLE of a unit and of a partition. -/
def State.unitEn (s : State) (u : Nat) : Bool := bit (s.val (.pwrLc u)).toNat 8
def State.partEn (s : State) (p : Nat) : Bool := bit (s.val (.partCtrl p)).toNat 8

/-- A partition's STATE; a change raises vector 0 of its VF (R393). -/
def State.setPartSt (s : State) (p : Nat) (st : LcSt) : State :=
  if (s.part p).st = st then s
  else
    let s := s.setPart p { s.part p with st := st }
    if p = 0 then s else s.msix p 0

/-- A prefetched descriptor ends unstarted, and its gang with it (R452, R122). -/
def State.dropNext (s : State) (f code : Nat) : State :=
  match (s.facet f).next with
  | none => s
  | some c =>
    let st : Stop := { code := BitVec.ofNat 8 code, member := c.gang, index := 0, detail := 0 }
    let s := s.setFacet f { s.facet f with next := none }
    let s := s.mapGang c.queue c.wseq fun g => if g.fault.isNone then { g with fault := some st } else g
    s.refuseClaim f c code

/-- Tiles of a stack that near memory holds or moves; near tiles move down and copies are dropped at P4. -/
def State.stackTiles (s : State) (t : Nat) : List (Nat × DirEntry) := s.entries.filter fun x => stackOf x.1 == t
def State.evacuate (s : State) (l : List (Nat × DirEntry)) : State := l.foldl (fun s x => s.evictTile x.1) s

/-- A unit enters DRAINING (R452): a facet gives up its prefetched descriptor, a stack its tiles. -/
def State.drainUnit (s : State) (u : Nat) : State :=
  let s := s.setUnit u { s.unit u with st := .draining }
  if u < 24 then s.dropNext u (if (s.unit u).failed then eUnitOff else eDrained)
  else if 40 ≤ u ∧ u < 52 then s.evacuate (s.stackTiles (u - 40))
  else s

/-- Whether units may leave OFF: stacks once HBM training has ended, others from Ready (notes/assumptions/32.md). -/
def State.mayRamp (s : State) (u : Nat) : Bool :=
  s.live && !s.boot.recovery && (s.boot.ready || (decide (40 ≤ u) && decide (6 ≤ s.boot.phase)))

/-- What ENABLE and FAILED now ask of a unit (R452); during a freeze the transition waits (R448). -/
def State.settleUnit (s : State) (u : Nat) : State :=
  if !s.live then s
  else
    let l := s.unit u
    match l.st with
    | .off => if s.unitEn u && !l.failed && s.mayRamp u then s.setUnit u { l with st := .ramping } else s
    | .on => if s.unitEn u && !l.failed then s else s.drainUnit u
    | _ => s

/-- What ENABLE now asks of a partition (R382, R452). -/
def State.settlePart (s : State) (p : Nat) : State :=
  if !s.live then s
  else
    match (s.part p).st with
    | .off => if s.partEn p && s.boot.ready && !s.boot.recovery then s.setPartSt p .ramping else s
    | .on => if s.partEn p then s else s.setPartSt p .draining
    | _ => s

/-- A facet's working state is cleared when it ramps (R46, R452); it forgets the queue it served last only where it joins a
partition (R24). -/
def State.clearFacet (s : State) (f : Nat) (joins : Bool) : State :=
  s.setFacet f { s.facet f with samples := [], served := if joins then none else (s.facet f).served }

/-- Keeps the addresses outside a range of the stacks. -/
def outside (lo hi x : Nat) : Bool := !(decide (lo ≤ x) && decide (x < hi))

/-- The zero-fill of a range of the stacks: bytes, class bits and poison. -/
def State.zeroRange (s : State) (lo hi : Nat) : State :=
  { s with mem := s.mem.filter fun c => outside lo hi c.1
           classBits := s.classBits.filter (outside lo hi)
           poison := s.poison.filter fun x => outside lo hi (x * 256) }

/-- RAMPING ends: a facet is cleared, a stack is filled with zeros. -/
def State.rampClear (s : State) (u : Nat) : State :=
  if u < 24 then s.clearFacet u false
  else if 40 ≤ u ∧ u < 52 then s.zeroRange ((u - 40) * 2 ^ 36) ((u - 39) * 2 ^ 36)
  else s

/-- Counters that a move to another partition clears (R96, R170, R191, R373). -/
def movedRegs (u : Nat) : List Reg :=
  if u < 24 then
    [.fctT5Bad u, .fctQsatCnt u, .fctQzeroCnt u, .fctQpromoCnt u, .fctQoutCnt u, .fctChkSamples u, .fctChkExceeds u,
     .fctChkMaxerr u, .fctNegvarCnt u]
  else [.codLateCnt (u - 24), .codSyntaxCnt (u - 24), .codConcealCnt (u - 24)]

/-- A facet or codec block that moves is cleared (R46): store and accumulator, or reference frames and rate control. -/
def State.clearMoved (s : State) (u : Nat) : State :=
  let s := (movedRegs u).foldl (fun s r => s.setVal r 0) s
  let s := if u < 24 then s.clearFacet u true else s.setCodec (u - 24) { s.codec (u - 24) with slots := [] }
  s.setUnit u { s.unit u with moved := false }

/-- A facet or codec block changes its partition (R383): it drains, or, where it takes no work, is cleared at once. -/
def State.moveUnit (s : State) (u : Nat) : State :=
  match (s.unit u).st with
  | .on => (s.setUnit u { s.unit u with moved := true }).drainUnit u
  | .draining => s.setUnit u { s.unit u with moved := true }
  | _ => s.clearMoved u

/-- RAMP_DONE (R452). A port's RAMPING ends by discovery. -/
def execRampDone (u : LcId) (s : State) : Host.Outcome State Fault Refusal :=
  match u with
  | .unit u =>
    if !s.live || decide (52 ≤ u.val) || (s.unit u).st != .ramping then .next s
    else
      let s := s.rampClear u
      if s.unitEn u then .next (s.setUnit u { s.unit u with st := .on }) else .next (s.drainUnit u)
  | .part p =>
    let s := s.use [.partCtrl p]
    if !s.live || (s.part p).st != .ramping then .next s
    else .next (s.setPartSt p (if s.partEn p then .on else .draining))

/-- Whether a unit holds work (R452, R444). -/
def State.holdsWork (s : State) (u : Nat) : Bool :=
  if u < 24 then (s.facet u).run.isSome || (s.facet u).next.isSome || s.recordWaits u
  else if u < 36 then (s.codec (u - 24)).job.isSome
  else if u < 38 then !(s.tce (u - 36)).jobs.isEmpty
  else if u < 40 then s.ctxs.any fun x => x.1 / 32 == u - 38 && x.2.isSome
  else if u < 52 then !(s.stackTiles (u - 40)).isEmpty
  else false

/-- The work a unit has in progress, as far as it has come; nothing where it holds none, where a program waits for a counter, and
where only a record still has to go out (R444). -/
def State.workOf (s : State) (u : Nat) : List Nat :=
  if u < 24 then
    match (s.facet u).run with
    | none => []
    | some r =>
      if r.posted || (r.waiting.isSome && r.flights.isEmpty) then []
      else [r.cl.queue, r.cl.wseq.toNat, r.pc, r.asked, r.buf.length] ++ r.flights.flatMap fun i => [i.index, i.todo.length, i.tiles.length]
  else if u < 36 then
    match (s.codec (u - 24)).job with
    | none => []
    | some j => if j.posted || !j.started then [] else [j.queue, j.wseq.toNat, j.done, b2n j.released]
  else if u < 38 then ((s.tce (u - 36)).jobs.filter fun j => j.started && !j.posted).flatMap fun j => [j.part, j.wseq.toNat, j.frame, j.tile, b2n j.written]
  else if u < 40 then
    s.ctxs.flatMap fun x =>
      match x.2 with
      | some c => if x.1 / 32 = u - 38 then [x.1, c.members.length, c.step, c.phase, c.sends.length, c.sent, c.pieces] else []
      | none => []
  else if u < 52 then ((s.stackTiles (u - 40)).filter fun x => s.moving x.1).flatMap fun x => [x.1, x.2.held.length]
  else
    let q := s.port (u - 52)
    if q.inbuf.isEmpty && q.replay.isEmpty then [] else [q.rxSeq, q.txSeq, q.inbuf.length, q.replay.length]

/-- Notes which units' work stands where it stood. -/
def watch0 : Watch := { work := [], since := 0 }
def State.watchUnits (s : State) : State :=
  { s with watch := (List.range 64).filterMap fun u =>
      match s.workOf u with
      | [] => none
      | l =>
        let w := tget s.watch watch0 u
        some (u, if w.work = l then w else { work := l, since := s.limClock }) }
/-- A unit holds work that has come no further for 10 ms of meridian time (R444). -/
def State.stalledUnit (s : State) (u : Nat) : Bool :=
  let w := tget s.watch watch0 u
  !w.work.isEmpty && w.work == s.workOf u && decide (w.since + 10000000 ≤ s.limClock)

/-- Whether anything of a partition is claimed, or a context of it open (R453). -/
def State.partHolds (s : State) (p : Nat) : Bool :=
  (s.facets.any fun x =>
    (match x.2.run with | some r => r.cl.part == p | none => false) || (match x.2.next with | some c => c.part == p | none => false)) ||
  (s.gangs.any fun g => g.part == p) ||
  (s.codecs.any fun x => match x.2.job with | some j => j.part == p | none => false) ||
  (s.tces.any fun x => x.2.jobs.any fun j => j.part == p) ||
  (s.ctxs.any fun x => x.1 % 32 == p && x.2.isSome) ||
  (s.queues.any fun x => !x.2.waiting.isEmpty && s.ownsQueue p x.1)

/-- Hand-over pins of a partition's tiles are dropped when it goes to OFF (R247). -/
def State.dropPins (s : State) (p : Nat) : State :=
  s.entries.foldl (fun s x => if x.2.owner = p ∧ x.2.handPin then s.setDir x.1 (some { x.2 with handPin := false }) else s) s

/-- DRAIN_DONE (R452, R453, R46). A port's drain ends in `State.portDrained`, which FLIT_RECEIVE and this command
call (Sys2Proof/Machine/Links.lean). -/
def State.drainEnd (s : State) (u : Nat) : State :=
  if (s.unit u).st != .draining || s.holdsWork u then s
  else
    let s := if (s.unit u).moved then s.clearMoved u else s
    s.setUnit u { s.unit u with st := if s.unitEn u && !(s.unit u).failed then .ramping else .off }
def State.drainPart (s : State) (p : Nat) : State :=
  let s := s.use [.partCtrl p]
  if (s.part p).st != .draining || s.partHolds p then s
  else if s.partEn p then s.setPartSt p .ramping
  else (s.setPartSt p .off).dropPins p

/-! Stack granules (R253). -/

/-- A write of MEM_GRAN that changes it: the flush starts. -/
def State.granApply (s : State) (g : Nat) (w : Word) : State :=
  let old := s.val (.memGran g)
  let s := s.setVal (.memGran g) w
  if old = w then s
  else
    let p := s.granProc g
    let own := fld old 9 9 != fld w 9 9 || fld old 4 0 != fld w 4 0
    let cls := fld old 11 10 != fld w 11 10 || (fld old 13 12 != fld w 13 12 && fld w 13 12 == 2)
    let s := s.setGranProc g { flush := true, scrub := false, needScrub := p.needScrub || own, clearClass := p.clearClass || cls }
    s.evacuate (s.granTiles g)

/-- A reserved CLASS or TILE. -/
def granReject (w : Word) : Bool := fld w 13 12 == 3 || fld w 11 10 == 3

/-! The partition table (R383). -/

/-- Whether two ranges of numbers meet. -/
def rangesMeet (a n b m : Nat) : Bool := decide (0 < n) && decide (0 < m) && decide (a < b + m) && decide (b < a + n)

/-- Whether partition p's entry conflicts, as it stands. -/
def State.partBad (s : State) (p : Nat) : Bool :=
  let qf := s.get (.partQueues p) 11 0
  let qn := s.get (.partQueues p) 24 12
  let cf := s.get (.partCtrs p) 13 0
  let cn := s.get (.partCtrs p) 28 14
  (parts32.any fun q => q != p &&
    ((s.partFacets p &&& s.partFacets q) != 0 || (s.partCodecs p &&& s.partCodecs q) != 0 ||
      rangesMeet qf qn (s.get (.partQueues q) 11 0) (s.get (.partQueues q) 24 12) ||
      rangesMeet cf cn (s.get (.partCtrs q) 13 0) (s.get (.partCtrs q) 28 14))) ||
  decide (4096 < qf + qn) || decide (16384 < cf + cn) || decide (768 < s.get (.partCeil p) 9 0) ||
  ((List.range 24).any fun f =>
    let mf := s.get (.partQmask p f) 11 0
    let mn := s.get (.partQmask p f) 24 12
    bit (s.partFacets p) f && decide (0 < mn) && !(decide (qf ≤ mf) && decide (mf + mn ≤ qf + qn)))

/-- Whether a write of a partition-table register is rejected with PART_CONFLICT. -/
def State.partReject (s : State) (p : Nat) (r : Reg) (w : Word) : Bool :=
  (s.setVal r w).partBad p || ((r == .partQueues p || r == .partCtrs p) && (s.part p).st != .off)

/-- Units whose bit changes, numbered from `base`. -/
def changedUnits (base n : Nat) (old new : Word) : List Nat :=
  ((List.range n).filter fun i => old.getLsbD i != new.getLsbD i).map fun i => base + i

/-- An accepted write of a partition-table register and what follows from it. -/
def State.partApply (s : State) (r : Reg) (w : Word) : State :=
  let old := s.val r
  let s1 := s.setVal r w
  match r with
  | .partUnits _ => (changedUnits 0 24 old w).foldl State.moveUnit s1
  | .partCodecs _ => (changedUnits 24 12 old w).foldl State.moveUnit s1
  | .partCeil p => s1.setVal (.nmhEvwaitCnt p) 0
  | .partCtrs p => { s1 with ctr := s1.ctr.filter fun x => s.ownsCtr p x.1 || !s1.ownsCtr p x.1 }
  | .partQmask p f => if bit (s1.partFacets p) f then s1.setFacet f { s1.facet f with served := none } else s1
  | _ => s1

/-! Function Level Reset (R381). -/

/-- Queues a partition owns, among those with a configuration or records. -/
def State.flrQueue (s : State) (q : Nat) : State := (s.put (.qCfg q) 10 10 0).setQueue q queue0

/-- Facet f after the reset of partition p: its program writes no record, its prefetched descriptor is dropped. -/
def State.flrFacet (s : State) (p f : Nat) : State :=
  let s := match (s.facet f).next with
    | some c => if c.part = p then (s.setFacet f { s.facet f with next := none }).endMember c.queue c.wseq else s
    | none => s
  match (s.facet f).run with
  | some r =>
    if r.cl.part = p then
      (if r.posted then s.releaseRun f
       else s.setFacet f { s.facet f with run := some { r with cl := { r.cl with mute := true } } })
    else s
  | none => s

/-- The engines after the reset: running jobs finish and write no record; finished ones leave. -/
def State.flrCodec (s : State) (p c : Nat) : State :=
  match (s.codec c).job with
  | some j =>
    if j.part = p then s.setCodec c { s.codec c with job := if j.posted then none else some { j with mute := true } } else s
  | none => s
def State.flrThin (s : State) (p e : Nat) : State :=
  match s.thinJob e p with
  | some j => if j.posted then s.dropThin e p else s.putThin e { j with mute := true }
  | none => s

/-- A context whose members are silenced. -/
def Ctx.silence (c : Ctx) : Ctx :=
  { c with members := c.members.map fun (m : CtxMember) => { m with run := { m.run with cl := { m.run.cl with mute := true } } } }

def State.flrCtx (s : State) (p e : Nat) : State :=
  match s.ctx e p with
  | some c => s.setCtx e p (some c.silence)
  | none => s

/-- The reset of partition p: queues disabled, open gang places withdrawn, programs stopped with ABORTED. -/
def State.flrPart (s : State) (p : Nat) : State :=
  let qs := ((s.queues.map fun x => x.1) ++ s.enabledQueues).filter fun q => s.ownsQueue p q
  let s := qs.foldl State.flrQueue s
  let st : Stop := { code := BitVec.ofNat 8 eAborted, member := 0, index := 0, detail := 0 }
  let s := { s with gangs := s.gangs.map fun (g : Gang) => if g.part = p then { g with size := g.claimed, fault := some (g.fault.getD st) } else g }
  let s := { s with gangs := s.gangs.filter fun g => decide (g.ended < g.size) }
  let s := (List.range 24).foldl (fun s f => s.flrFacet p f) s
  let s := (List.range 2).foldl (fun s e => s.flrCtx p e) s
  let s := (List.range 12).foldl (fun s c => s.flrCodec p c) s
  (List.range 2).foldl (fun s e => s.flrThin p e) s

/-- A function's own configuration after the reset: bus mastering off, held messages and waiting accesses gone
(notes/assumptions/6.md). -/
def State.flr (s : State) (fn : Nat) : State :=
  if fn = 0 then { parts32.foldl State.flrPart s with fns := [] }
  else (s.flrPart fn).setFn fn { s.fn fn with bme := false, held := [], waiting := [], barLog := 30 }

end Sys2Proof.Machine
end

