-- ==== Sys2Proof/Machine/Links.lean ====
section
/-! DEFINITION. Sprinop (spec/11_links_and_machine.md R281 to R314): transactions at their target and at their issuer,
flits, credits and routers, routes and discovery, and meridian time. -/

namespace Sys2Proof.Machine

/-! Transactions (R294 to R298). -/

/-- R109 and R297 for an arriving transaction of `len` bytes at an offset of a space. -/
def State.arrival (s : State) (h : TxHeader) (k : RemKind) (space off len : Nat) : Nat :=
  s.targetCheck h.src h.srcPart h.dstPart k h.code space off len

/-- Whether an arriving transaction is taken now: its granules hold no new values back (R253). -/
def State.takesTx (s : State) (h : TxHeader) : Bool := s.live && !(decide (h.space < 2) && s.granBusy h.offset h.len)

/-- What an arriving operation does to the tiles that it reaches: it brings them near at P4, since link traffic is of P2
(notes/assumptions/64.md). -/
def State.arriveNear (s : State) (h : TxHeader) (k : RemKind) : State :=
  s.bringNear h.space h.offset h.len (slotsOf k h.code h.arg) (k == .get) false

/-- The lane map (R404). -/
def portMaps : List Reg := (List.range 12).map Reg.lnkPortMap

/-- What an arriving operation's checks use (R405). -/
def State.useArrival (s : State) (h : TxHeader) : State := (s.useRanks h.dstPart).useTarget h.dstPart h.space h.offset h.len

/-- PUT_TRANSACTION: acknowledged once the last byte has landed (R28). -/
def execPutTransaction (h : TxHeader) (data : List Byte) (s : State) : Host.Outcome State Fault Refusal :=
  if data.length ≠ h.len then .next s
  else
    let s := s.useArrival h
    match s.arrival h .put h.space h.offset h.len with
    | 0 =>
      if !s.takesTx h then .next s
      else
        let n := s.txSeq
        .next (((((s.arriveNear h .put).openTx (.ack h)).storeBytes (srcLink h.dstPart) h.dstPart h.space h.offset data false
          (some n))).settleTx)
    | c => if s.live then .next (s.answer h .nack c []) else .next s

/-- GET_REQ: a poisoned granule is answered with DATA_ERROR (R443). -/
def execGetReq (h : TxHeader) (s : State) : Host.Outcome State Fault Refusal :=
  let s := s.useArrival h
  match s.arrival h .get h.space h.offset h.len with
  | 0 =>
    if !s.takesTx h then .next s
    else if h.space ≠ 3 ∧ s.poisoned h.offset h.len then .next (s.answer h .nack eDataError [])
    else
      let data := s.rdMem h.dstPart h.space h.offset h.len
      .next ((s.arriveNear h .get).answer h .getData 0 data)
  | c => if s.live then .next (s.answer h .nack c []) else .next s

/-- ATOMIC_TRANSACTION: answered once the adders have applied it (R28). The slots of exact mode lie at ARG (notes/assumptions/19.md). -/
def execAtomicTransaction (h : TxHeader) (data : List Byte) (s : State) : Host.Outcome State Fault Refusal :=
  if !h.scalar ∧ data.length ≠ h.len then .next s
  else
    let s := s.useArrival h
    let s := if h.code = 7 then s.useTarget h.dstPart h.space h.arg.toNat (4 * h.len) else s
    match firstCode (s.arrival h .atomic h.space h.offset h.len) (s.slotCheck h.dstPart h.code h.space h.arg.toNat h.len) with
    | 0 =>
      if !s.takesTx h || (h.code == 7 && s.granBusy h.arg.toNat (4 * h.len)) then .next s
      else .next ((s.arriveNear h .atomic).doAtomic (srcLink h.dstPart) h.dstPart h.code h.space h.offset h.len h.arg.toNat data
        h.scalar h.arg (if h.ret then .prior h else .ack h))
    | c => if s.live then .next (s.answer h .nack c []) else .next s

/-- SIGNAL_TRANSACTION: the counter is updated, then acknowledged; the chord engines see their counters. -/
def execSignalTransaction (h : TxHeader) (s : State) : Host.Outcome State Fault Refusal :=
  if !s.live then .next s
  else
    let ctr := fld h.arg 45 32
    let s := s.useArrival h
    match s.arrival h .signal 2 (ctr * 16) 1 with
    | 0 => .next (((s.signal ctr (BitVec.ofNat 32 (fld h.arg 31 0))).answer h .ack 0 []).chordTurns)
    | c => .next (s.answer h .nack c [])

/-- The issuer goes on after an operation has ended: waiting operations issue, a chord engine takes a turn. -/
def State.afterOp (s : State) (o : OpOwner) : State :=
  match o with
  | .facet f _ | .signal f _ | .fetch f _ => s.pumpFacet f
  | o => s.chordOf o

/-- A response to an operation in flight: `effect` on the issuer's side; a late one only frees the tag (R298). -/
def State.respond (s : State) (tag : Nat) (fits : RemOp → Bool) (effect : State → RemOp → State) : State :=
  if !s.live then s
  else
    match s.op tag with
    | none => s
    | some o =>
      if o.dead then s.setOp tag none
      else if fits o then (effect (s.setOp tag none) o).afterOp o.owner
      else s

/-- ACK: a put, an atomic without RETURN or a signal is complete. -/
def execAck (tag : BitVec 16) (s : State) : Host.Outcome State Fault Refusal :=
  .next (s.respond tag.toNat (fun o => (o.job.kind == .put && o.job.nbits == 0) || o.job.kind == .signal || (o.job.kind == .atomic && !o.job.ret))
    fun s _ => s)

/-- A put of some bits has its bytes: they go back with these bits in them (notes/assumptions/24.md). -/
def RemJob.merged (j : RemJob) (data : List Byte) : RemJob := { j with nbits := 0, data := mergeBits data j.data j.head j.nbits }

/-- GET_DATA and ATOMIC_RET: the bytes land where the issuer reserved space. -/
def execGetData (tag : BitVec 16) (data : List Byte) (s : State) : Host.Outcome State Fault Refusal :=
  .next (s.respond tag.toNat
    (fun o => (o.job.kind == .get || (o.job.kind == .put && o.job.nbits != 0)) && data.length == o.job.len)
    fun s o => if o.job.kind = .put then s.issueOp o.owner o.part (o.job.merged data) else s.land o.owner o.part o.job data false)
def execAtomicRet (tag : BitVec 16) (data : List Byte) (s : State) : Host.Outcome State Fault Refusal :=
  .next (s.respond tag.toNat (fun o => o.job.kind == .atomic && o.job.ret && data.length == o.job.len)
    fun s o => s.land o.owner o.part o.job data false)

/-- NACK: the issuing instruction faults with the carried code when it completes. -/
def execNack (tag : BitVec 16) (code : BitVec 8) (s : State) : Host.Outcome State Fault Refusal :=
  .next (s.respond tag.toNat (fun _ => true) fun s o => s.refuseAt o.owner code.toNat)

/-- LINK_TIMEOUT: no response within LNK_OP_TIMEOUT; the tag is held. -/
def execLinkTimeout (tag : BitVec 16) (s : State) : Host.Outcome State Fault Refusal :=
  let limit := s.get .lnkOpTimeout 23 0 * 1000
  match s.op tag.toNat with
  | none => .next s
  | some o =>
    if !s.live || o.dead || limit = 0 || decide (s.limClock < o.since + limit) then .next s
    else
      let s := s.setOp tag.toNat (some { o with dead := true, since := s.limClock })
      .next ((s.refuse o.owner eLinkTimeout).afterOp o.owner)

/-- TAG_RELEASE: 1 s after its timeout. -/
def execTagRelease (tag : BitVec 16) (s : State) : Host.Outcome State Fault Refusal :=
  match s.op tag.toNat with
  | none => .next s
  | some o => if !s.live || !o.dead || decide (s.limClock < o.since + 1000000000) then .next s else .next (s.setOp tag.toNat none)

/-! Flits (R285 to R287). -/

/-- Codes of TTYPE, and whether a type carries LEN data bytes. -/
def ttype : TxKind → Nat
  | .put => 1 | .getReq => 2 | .atomic => 3 | .signal => 4 | .ack => 8 | .getData => 9 | .atomicRet => 10 | .nack => 11
  | .control => 12
def carriesData (t : Nat) (scalar : Bool) : Bool := t == 1 || (t == 3 && !scalar) || t == 9 || t == 10 || t == 12

/-- Data flits after the header flit of a transaction with L data bytes. -/
def dataFlits (l : Nat) : Nat := cdiv (l - 208) 240

/-- The link word. -/
def linkWord (kind seq ack cr0 : Nat) (nak : Bool) : Nat :=
  kind * 2 ^ 62 + seq % 16384 * 2 ^ 48 + ack % 16384 * 2 ^ 34 + 2 ^ 33 + b2n nak * 2 ^ 32 + cr0 % 4096 * 2 ^ 20

/-- A flit from its link word and its 240 body bytes, with its CRC (R286). -/
def mkFlit (link : Nat) (body : List Byte) : BitVec 2048 :=
  let b := natLe 8 link ++ (body ++ List.replicate (240 - body.length) 0).take 240
  BitVec.ofNat 2048 (leNat (b ++ natLe 8 (crc64 b)))
def flitGood (f : BitVec 2048) : Bool := crc64 (natLe 248 f.toNat) == fld f 2047 1984
def flitBody (f : BitVec 2048) : List Byte := natLe 240 (f.toNat / 2 ^ 64)
def flitKind (f : BitVec 2048) : Nat := fld f 63 62
def flitSeq (f : BitVec 2048) : Nat := fld f 61 48

/-- Fields of a header flit: TTYPE, VC, hop class, source, destination, and the flits that follow. -/
def fType (f : BitVec 2048) : Nat := fld f 127 124
def fVc (f : BitVec 2048) : Nat := fld f 123 122
def fHop (f : BitVec 2048) : Nat := fld f 121 118
def fSrc (f : BitVec 2048) : Nat := fld f 117 106
def fDst (f : BitVec 2048) : Nat := fld f 105 94
def fLeft (f : BitVec 2048) : Nat :=
  if carriesData (fType f) (f.getLsbD 230) then dataFlits (fld f 255 240 + 1) else 0

/-- The 32 header bytes of a transaction (11, transaction header). -/
def headerBytes (t : Tx) (vc : Nat) : List Byte :=
  let h := t.header
  natLe 8 (ttype t.kind * 2 ^ 60 + vc * 2 ^ 58 + h.src % 4096 * 2 ^ 42 + h.dst % 4096 * 2 ^ 30 + h.srcPart % 32 * 2 ^ 25 +
      h.dstPart % 32 * 2 ^ 20 + h.tag % 65536 * 2 ^ 4) ++
    natLe 8 (h.space % 16 * 2 ^ 48 + h.offset % 2 ^ 48) ++
    natLe 8 ((h.len - 1) % 65536 * 2 ^ 48 + h.code % 256 * 2 ^ 40 + b2n h.ret * 2 ^ 39 + b2n h.scalar * 2 ^ 38) ++
    natLe 8 h.arg.toNat

/-- The data flits of a train, cut from its bytes. -/
def dataTrain (vc dst : Nat) (port : Option Nat) : Nat → List Byte → List BufFlit
  | 0, _ => []
  | n + 1, d =>
    { vc := vc, hop := 0, dst := dst, left := n, shared := false, port := port,
      flit := mkFlit (2 * 2 ^ 62) (d.take 240) } :: dataTrain vc dst port n (d.drop 240)

/-- The flits of a transaction (R285). -/
def formFlits (t : Tx) (vc : Nat) : List BufFlit :=
  let n := if carriesData (ttype t.kind) t.header.scalar then dataFlits t.header.len else 0
  { vc := vc, hop := 0, dst := t.header.dst, left := n, shared := false, port := t.port,
    flit := mkFlit (2 ^ 62) (headerBytes t vc ++ t.data.take 208) } :: dataTrain vc t.header.dst t.port n (t.data.drop 208)

/-- The virtual channel of a transaction (R288). -/
def State.txVc (s : State) (t : Tx) : Nat :=
  match t.kind with
  | .put | .getReq | .atomic | .signal =>
    (match s.op t.header.tag with
     | some o => (match o.owner with | .chord _ _ => 2 | _ => 0)
     | none => 0)
  | .control => 3
  | _ => 1

/-- The router's local input takes the transactions handed to it. -/
def State.loadInject (s : State) : State :=
  { s with inject := s.inject ++ (s.out.tx.drop s.injected).flatMap fun t => formFlits t (s.txVc t)
           injected := s.out.tx.length }

/-! Credits (R290). -/

/-- The shared area of a channel. -/
def sharedSize (vc : Nat) : Nat := if vc = 2 then 608 else if vc = 3 then 32 else 256
/-- The credit a flit takes: a dedicated slot of its channel and class first, then the shared area. -/
def creditKey (vc hop : Nat) (shared : Bool) : Nat := if shared then 64 + vc else vc * 16 + hop
def Port.credit (q : Port) (vc hop : Nat) : Option Bool :=
  if tget q.used 0 (creditKey vc hop false) < 2 then some false
  else if tget q.used 0 (creditKey vc hop true) < sharedSize vc then some true
  else none
/-- A credit-return field for one slot. -/
def crField (b : BufFlit) : Nat := b.vc * 1024 + b2n b.shared * 512 + (if b.shared then 0 else b.hop * 32) + 1
/-- Credits taken back from a CR field. -/
def Port.takeCr (q : Port) (cr : Nat) : Port :=
  let n := bits cr 4 0
  let k := creditKey (bits cr 11 10) (bits cr 8 5) (bit cr 9)
  { q with used := tset q.used 0 k (tget q.used 0 k - n) }

/-- Sends an idle flit: a credit return, an acknowledgement, a NAK. -/
def State.idle (s : State) (p cr0 : Nat) (nak : Bool) : State :=
  let q := s.port p
  s.setPort p { q with sent := q.sent ++ [mkFlit (linkWord 0 0 q.rxSeq cr0 nak) []] }

/-- Whether an acknowledgement covers a sequence number. -/
def acked (ack seq : Nat) : Bool := decide ((ack + 16384 - seq) % 16384 < 8192)
def Port.dropAcked (q : Port) (ack : Nat) : Port :=
  { q with replay := q.replay.filter fun x => !acked ack (flitSeq x.1), again := q.again.filter fun x => !acked ack (flitSeq x.1) }

/-- The port retrains (R284, R287). -/
def Port.retrain (q : Port) (now : Nat) : Port :=
  { q with retraining := true, retrainAt := if q.retraining then q.retrainAt else now }

/-- The credits of a key. -/
def creditLimit (key : Nat) : Nat := if key < 64 then 2 else sharedSize (key - 64)

/-- A port sends the flits that are to go once more, in order, while it holds a credit for the next: the receiver returned the one
of each flit that it discarded (R287, R290). -/
def Port.sendAgain : Nat → Port → Port
  | 0, q => q
  | n + 1, q =>
    match q.again with
    | [] => q
    | x :: t =>
      if tget q.used 0 x.2 < creditLimit x.2 then
        Port.sendAgain n { q with again := t, sent := q.sent ++ [x.1], used := tset q.used 0 x.2 (tget q.used 0 x.2 + 1) }
      else q

/-- The port's replays go on; those that leave are counted. -/
def State.goAgain (s : State) (p : Nat) : State :=
  let q := s.port p
  let r := q.sendAgain q.again.length
  (s.setPort p r).count (.lnkReplayCnt p) (q.again.length - r.again.length)

/-- A NAK (R287): every unacknowledged flit is to be sent again, in order; at its eighth replay the port retrains. -/
def State.nakPort (s : State) (p ack : Nat) : State :=
  let q := (s.port p).dropAcked ack
  let l := q.replay.map fun x => (x.1, x.2.1 + 1, x.2.2)
  let q := { q with replay := l, again := l.map fun x => (x.1, x.2.2) }
  (s.setPort p (if l.any fun x => decide (8 ≤ x.2.1) then q.retrain s.limClock else q)).goAgain p

/-- What the link word of a good flit says of the other direction. -/
def State.takeLink (s : State) (p : Nat) (f : BitVec 2048) (credits : Bool) : State :=
  let q := s.port p
  let q := if f.getLsbD 33 then q.dropAcked (fld f 47 34) else q
  let q := if credits then (q.takeCr (fld f 31 20)).takeCr (fld f 19 8) else q
  let s := s.setPort p q
  if f.getLsbD 33 && f.getLsbD 32 then s.nakPort p (fld f 47 34) else s

/-- Whether a port can carry flits of a channel, perhaps after a retrain: all when UP or draining, CONTROL while DISABLED or in
the handshake (R305, R308, R310); whether it does so now. -/
def Port.alive (q : Port) (vc : Nat) : Bool :=
  q.st == .up || q.st == .draining || (vc == 3 && (q.st == .disabled || (q.st == .training && q.trained)))
def Port.carries (q : Port) (vc : Nat) : Bool := !q.retraining && q.alive vc

/-- Where an arriving flit belongs: its own header, or the train open on the channel whose credit its sender spent. -/
def Port.place (q : Port) (a : Arrival) : Option BufFlit :=
  let f := a.flit
  if flitKind f = 1 then
    some { vc := fVc f, hop := fHop f, dst := fDst f, left := fLeft f, shared := a.shared, port := none, flit := f }
  else (q.trains.find? fun t => t.vc == a.vc).map fun t => { t with left := t.left - 1, shared := a.shared, flit := f }

/-- The trains still open after a flit, one on a channel: a new one ends one that was cut short. -/
def Port.openAfter (q : Port) (b : BufFlit) : List BufFlit :=
  let rest := q.trains.filter fun t => t.vc != b.vc
  if b.left = 0 then rest else b :: rest

/-- The credit-return field of an arriving flit. -/
def arrivalCredit (a : Arrival) : Nat :=
  crField { vc := a.vc, hop := a.hop, dst := 0, left := 0, shared := a.shared, port := none, flit := 0 }

/-- A child's timestamp, a CONTROL message of 8 bytes, waits for its answer with the time it came (R311; its layout in
notes/assumptions/34.md). -/
def stampFlit (f : BitVec 2048) : Bool := fType f == 12 && fld f 239 232 == 5 && fld f 255 240 == 7
def State.takeStamp (s : State) (p : Nat) (f : BitVec 2048) : State :=
  { s with meridian := { s.meridian with
      asks := (s.meridian.asks.filter fun a => a.1 != p) ++ [(p, BitVec.ofNat 64 (fld f 383 320), s.time)] } }

/-- An accepted flit, which has come through its optical engine's crossing: delivered here, or of no open train, with its credit
returned at once, or buffered for the router on the credit that its sender spent. -/
def State.acceptFlit (s : State) (p : Nat) (a : Arrival) : State :=
  let f := a.flit
  let s := s.flitIn p
  let q := s.port p
  match q.place a with
  | none => (s.setPort p { q with rxSeq := flitSeq f }).idle p (arrivalCredit a) false
  | some b =>
    let q := { q with rxSeq := flitSeq f, trains := q.openAfter b }
    let s := s.setPort p q
    if !q.carries b.vc then s.idle p (arrivalCredit a) false
    else if b.dst = s.coord ∨ (b.vc = 3) then
      let s := if b.vc = 3 ∧ flitKind f = 1 ∧ stampFlit f = true then s.takeStamp p f else s
      ({ s with out := { s.out with delivered := s.out.delivered ++ [f] } }).idle p (arrivalCredit a) false
    else s.setPort p { q with inbuf := q.inbuf ++ [b] }

/-- Codewords that have arrived on a port's lanes are counted, and the uncorrectable ones of the last ms are kept by lane
(R282, R284). -/
def State.codewords (s : State) (p : Nat) (l : List LaneCount) : State :=
  let q := s.port p
  let l := l.filter fun w => q.lanes.contains w.lane
  let s := (s.count (.lnkFecCorr p) (l.foldl (fun n w => n + w.corrected) 0)).count (.lnkFecUncorr p)
    (l.foldl (fun n w => n + w.bad) 0)
  match l.filter fun w => w.bad != 0 with
  | [] => s
  | new =>
    let kept := q.bads.filter fun b => decide (s.limClock < b.2.1 + 1000000)
    s.setPort p { q with bads := kept ++ new.map fun w => (w.lane, s.limClock, w.bad) }

/-- Uncorrectable codewords of a lane within the last ms. -/
def State.badWords (s : State) (p lane : Nat) : Nat :=
  ((s.port p).bads.filter fun b => b.1 == lane && decide (s.limClock < b.2.1 + 1000000)).foldl (fun n b => n + b.2.2) 0

/-- FLIT_RECEIVE (R282, R287, R290): its codewords are counted, whatever it is; a flit with a byte in an uncorrectable codeword is
discarded like one whose CRC is bad; a discarded flit returns its credit at once. A good flit of the reserved kind says
nothing. -/
def execFlitReceive (p : PortId) (a : Arrival) (s : State) : Host.Outcome State Fault Refusal :=
  let f := a.flit
  if !s.live || !((s.port p).carries 3) then .next s
  else
    let good := flitGood f && !a.lost
    let s := s.codewords p a.words
    if flitKind f = 3 ∧ good then .next s
    else if flitKind f = 0 then .next (if good then s.takeLink p f true else s)
    else if good ∧ flitSeq f = ((s.port p).rxSeq + 1) % 16384 then .next ((s.takeLink p f true).acceptFlit p a)
    else .next ((if good then s.takeLink p f false else s).idle p (arrivalCredit a) true)

/-- FLIT_NAK (R287). -/
def execFlitNak (p : PortId) (ackSeq : BitVec 14) (s : State) : Host.Outcome State Fault Refusal :=
  if !s.live || !((s.port p).carries 3) then .next s else .next (s.nakPort p ackSeq.toNat)

/-! The router (R289 to R291). -/

/-- The port that carries a dimension. -/
def State.dimPort (s : State) (d : Nat) : Option Nat :=
  (List.range 12).find? fun p => s.get (.lnkPortMap p) 9 5 != 0 && s.get (.lnkPortMap p) 3 0 == d

/-- Whether a flit goes by port p: a CONTROL message by the port it names, others by the route table. -/
def State.goesBy (s : State) (p : Nat) (b : BufFlit) : Bool :=
  match b.port with
  | some k => k == p
  | none => (s.routeTo b.dst).bind s.dimPort == some p

/-- The buffer of a source: input ports 0 to 11, or 12, the vertex itself. -/
def State.sourceBuf (s : State) (src : Nat) : List BufFlit := if src = 12 then s.inject else (s.port src).inbuf

/-- A timestamp of meridian time, class P0 (R288, R311; its kind in notes/assumptions/34.md). -/
def timeFlit (b : BufFlit) : Bool := b.vc == 3 && flitKind b.flit == 1 && fld b.flit 239 232 == 5

/-- The flit of channel vc that source src offers to port p: in an input buffer its first, at the vertex itself the
first that may go by p, timestamps before others. `held` is the source whose train holds the output. -/
def State.offer (s : State) (p vc : Nat) (held : Option Nat) (src : Nat) : Option BufFlit :=
  let isHead := fun (b : BufFlit) => flitKind b.flit == 1
  let b := if src = 12 then
      let l := s.inject.filter fun b =>
        b.vc == vc && (if held = some 12 then !isHead b && b.port == some p else isHead b && s.goesBy p b)
      (l.find? timeFlit).or l.head?
    else (s.port src).inbuf.find? fun b => b.vc == vc
  b.bind fun b =>
    if held = some src ∧ isHead b = false then (if b.port = some p then some b else none)
    else if held.isSome ∧ held ≠ some src then none
    else if isHead b && s.goesBy p b then some b
    else none

/-- The data flits behind a header flit, up to the next header of the channel, go where it went: by port k, or by none. -/
def tieTrain (k vc : Nat) : Nat → List BufFlit → List BufFlit
  | 0, l => l
  | _, [] => []
  | n + 1, x :: t =>
    if x.vc = vc then (if flitKind x.flit = 1 then x :: t else { x with port := some k } :: tieTrain k vc n t)
    else x :: tieTrain k vc (n + 1) t

/-- Takes the first flit equal to b, which goes by port k, out of a buffer. -/
def takeFlit (k : Nat) (b : BufFlit) : List BufFlit → List BufFlit
  | [] => []
  | x :: t => if x = b then (if flitKind b.flit = 1 then tieTrain k b.vc b.left t else t) else x :: takeFlit k b t

/-- The train of a header that went by port k, if flits of it are still to arrive, goes there too. -/
def tieOpen (k : Nat) (b : BufFlit) (buffered : List BufFlit) (trains : List BufFlit) : List BufFlit :=
  let here := (buffered.filter fun x => x.vc == b.vc && x.port == some k).length
  if flitKind b.flit = 1 ∧ here < b.left then
    trains.map fun t => if t.vc = b.vc then { t with port := some k } else t
  else trains

/-- No port: a train of which nothing is forwarded goes by it. -/
def noPort : Nat := 12

/-- A flit leaves its buffer by port k; its credit goes back on the link it came by. -/
def State.unbuffer (s : State) (k src : Nat) (b : BufFlit) : State :=
  if src = 12 then { s with inject := takeFlit k b s.inject }
  else
    let q := s.port src
    let l := takeFlit k b q.inbuf
    (s.setPort src { q with inbuf := l, trains := tieOpen k b l q.trains }).idle src (crField b) false

/-- What a port's route notes under a key: 0 to 3 the source whose train holds a channel, 4 to 7 the source last served on
it, 8 the channel last served. -/
def Port.noted (q : Port) (k : Nat) : Option Nat := if tget q.route 0 k = 0 then none else some (tget q.route 0 k - 1)

/-- Whether no port will take a flit (R289, R292): it is of class 15, it has no route, its port is down, or its header has left by
a port whose hold for its train has been cut since. -/
def State.stuck (s : State) (src : Nat) (b : BufFlit) : Bool :=
  (src != 12 && b.hop == 15) ||
    (match b.port with
     | some k =>
       !(s.port k).alive b.vc ||
         (flitKind b.flit != 1 && (src != 12 || b.vc != 3) && (s.port k).noted b.vc != some src)
     | none => flitKind b.flit == 1 && ((s.routeTo b.dst).bind s.dimPort).isNone)

/-- The first flit that no port will take, among those that stand first on their channel, and its source. -/
def State.firstStuck (s : State) : Option (Nat × BufFlit) :=
  ((List.range 12).findSome? fun src =>
    (((List.range 4).filterMap fun vc => (s.port src).inbuf.find? fun b => b.vc == vc).find? (s.stuck src)).map fun b => (src, b)).or
    ((s.inject.find? (s.stuck 12)).map fun b => (12, b))

/-- A flit that needs another hop and can take none is discarded, and its train with it; its source gets NACK UNREACHABLE (R289).
A request of this vertex is refused here (notes/assumptions/72.md). -/
def State.discardFlit (s : State) (src : Nat) (b : BufFlit) : State :=
  let s := s.unbuffer noPort src b
  if flitKind b.flit ≠ 1 then s
  else if src = 12 then
    (if 1 ≤ fType b.flit ∧ fType b.flit ≤ 4 then
       s.respond (fld b.flit 83 68) (fun _ => true) fun s o => s.refuseAt o.owner eUnreachable
     else s)
  else
    let h : TxHeader :=
      { src := fSrc b.flit, dst := b.dst, srcPart := fld b.flit 93 89, dstPart := fld b.flit 88 84, tag := fld b.flit 83 68,
        space := 0, offset := 0, len := 0, code := 0, ret := false, scalar := false, arg := 0 }
    s.answer h .nack eUnreachable []

/-- A flit leaves by port p in the next hop class, through the crossing of its optical engine. -/
def State.sendFlit (s : State) (p src : Nat) (b : BufFlit) (shared : Bool) : State :=
  let s := (s.unbuffer p src b).flitOut p
  let q := s.port p
  let hop := if src = 12 then 0 else b.hop + 1
  let body := if flitKind b.flit = 1 then putFld b.flit 121 118 hop else b.flit
  let f := mkFlit (linkWord (flitKind b.flit) q.txSeq q.rxSeq 0 false) (flitBody body)
  let k := creditKey b.vc hop shared
  s.setPort p
    { q with
      txSeq := (q.txSeq + 1) % 16384, replay := q.replay ++ [(f, 0, k)], sent := q.sent ++ [f]
      used := tset q.used 0 k (tget q.used 0 k + 1)
      route := tset (tset (tset q.route 0 b.vc (if b.left = 0 then 0 else src + 1)) 0 (4 + b.vc) (src + 1)) 0 8
        (if timeFlit b then tget q.route 0 8 else b.vc + 1) }

/-- The flit of channel vc that may leave source src by port p now, and the credit it takes. A draining port takes no new
train (R310); none leaves before the flits that are to be sent again (R287), or while the crossing is full (R57). -/
def State.flitFrom (s : State) (p vc src : Nat) : Option (BufFlit × Bool) :=
  let q := s.port p
  (s.offer p vc (q.noted vc) src).bind fun b =>
    if !q.carries vc || (q.st == .draining && flitKind b.flit == 1) || decide (2048 ≤ q.replay.length) || !q.again.isEmpty ||
        !s.hasRoom (450 + p) then none
    else (q.credit vc (if src = 12 then 0 else b.hop + 1)).map fun sh => (b, sh)

/-- The source that channel vc serves at port p: the one whose train holds it, or the next in rotation (R291). -/
def State.nextSrc (s : State) (p vc : Nat) : Option Nat :=
  nextAbove ((s.port p).noted (4 + vc)) ((List.range 13).filter fun x => (s.flitFrom p vc x).isSome)

/-- The channel that port p serves: meridian flits first, then the channels that can send, in rotation (R291). -/
def State.nextVc (s : State) (p : Nat) : Option Nat :=
  let time := ((s.nextSrc p 3).bind (s.flitFrom p 3)).any fun x => timeFlit x.1
  if time then some 3
  else nextAbove ((s.port p).noted 8) ((List.range 4).filter fun vc => (s.nextSrc p vc).isSome)

/-- ROUTER_FORWARD: flits that are to be sent again go as far as credits allow; else a flit that no port will take is discarded;
else output port p sends one flit. -/
def execRouterForward (p : PortId) (s : State) : Host.Outcome State Fault Refusal :=
  let s := s.use portMaps
  if !s.live then .next s
  else if !(s.port p).again.isEmpty then .next (if (s.port p).carries 3 then s.goAgain p else s)
  else
    let s1 := s.loadInject
    match s1.firstStuck with
    | some (src, b) => .next (s1.discardFlit src b)
    | none =>
      match s1.nextVc p with
      | none => .next s
      | some vc =>
        match s1.nextSrc p vc with
        | none => .next s
        | some src =>
          match s1.flitFrom p vc src with
          | none => .next s
          | some (b, sh) => .next (s1.sendFlit p src b sh)

/-! Lanes (R283). -/

/-- The 32-bit words of a flit stream that the k-th of n lanes carries: word w goes on lane w mod n, in ascending lane order. -/
def laneWords (n k : Nat) (flits : List (BitVec 2048)) : List Word :=
  let l := flits.flatMap fun f => (List.range 64).map fun i => BitVec.ofNat 32 (fld f (32 * i + 31) (32 * i))
  ((List.range l.length).filter fun w => w % n == k).filterMap fun w => l[w]?
/-- The streams of the lanes as they arrive, each with the index of its alignment markers, in the order of these indices. -/
def laneOrder : List (Nat × List Word) → List (Nat × List Word)
  | [] => []
  | x :: t =>
    let l := laneOrder t
    (l.takeWhile fun y => decide (y.1 < x.1)) ++ x :: (l.dropWhile fun y => decide (y.1 < x.1))
/-- The stream that a receiver puts together from its lanes, whichever fibre each came by. -/
def joinLanes (lanes : List (Nat × List Word)) : List Word :=
  let l := laneOrder lanes
  (List.range ((l.map fun x => x.2.length).foldl (· + ·) 0)).filterMap fun w => ((l[w % l.length]?).bind fun x => x.2[w / l.length]?)
/-- What port p has sent on one of its lanes. -/
def Port.onLane (q : Port) (lane : Nat) : List Word := laneWords q.lanes.length (q.lanes.idxOf lane) q.sent

/-! Topology, the link map and routes (R299 to R303). -/

/-- N_d(x). -/
def nbr (twisted : Bool) (d x : Nat) : Nat :=
  let y := x ^^^ 2 ^ d
  if twisted then (List.range (d / 2)).foldl (fun y i => if bit x (2 * i) then y ^^^ 2 ^ (2 * i + 1) else y) y else y

/-- Dimensions of the polytope; whether it is twisted; N_d of a vertex of it. -/
def State.ndim (s : State) : Nat := s.get .lnkVertexStatus 15 12 + 1
def State.nbrOf (s : State) (d x : Nat) : Nat := nbr (s.get .lnkVertexStatus 16 16 == 1) d x

/-- A link is usable when both its ports are UP in the link map. -/
def State.linkUp (s : State) (x d : Nat) : Bool := s.linkMap.contains (x, d) && s.linkMap.contains (s.nbrOf d x, d)

/-- Distances by breadth-first search: each vertex reached, with its distance. -/
def State.bfs (s : State) : Nat → List Nat → List Nat → Nat → List (Nat × Nat)
  | 0, _, _, _ => []
  | n + 1, seen, front, k =>
    if front.isEmpty then []
    else
      let seen := front ++ seen
      let next := front.foldl (fun l x =>
        (List.range s.ndim).foldl (fun l d =>
          let y := s.nbrOf d x
          if s.linkUp x d && !seen.contains y then insNat y l else l) l) []
      (front.map fun x => (x, k)) ++ State.bfs s n seen next (k + 1)
def State.distances (s : State) (x : Nat) : List (Nat × Nat) := s.bfs (s.linkMap.length + 1) [] [x] 0
def distTo (l : List (Nat × Nat)) (y : Nat) : Option Nat := (l.find? fun x => x.1 == y).map fun x => x.2

/-- The route table (R302). -/
def State.reroute (s : State) : State :=
  let x := s.coord
  let mine := s.distances x
  let dims := (List.range s.ndim).filter fun d => s.linkUp x d
  let near := dims.map fun d => (d, s.distances (s.nbrOf d x))
  { s with routes := mine.foldl (fun t y =>
      if y.2 = 0 then t
      else tset t none y.1 ((near.find? fun n => distTo n.2 y.1 == some (y.2 - 1)).map fun n => n.1)) [] }

/-- The time root and the parent after a change (R311, R312); `first` at the end of link discovery. -/
def State.relink (s : State) (first : Bool) : State :=
  let m := s.meridian
  let reach := s.distances s.coord
  let root := reach.foldl (fun r x => min r x.1) s.coord
  let isRoot := root == s.coord
  let parent := if isRoot then 0 else (s.routeTo root).getD 0
  let known := first || s.boot.ready || s.boot.phase == 8
  if !known then s
  else
    let lost := !first && !m.root && (isRoot || parent != m.parentDim)
    let s := { s with meridian := { m with root := isRoot, rootCoord := root, parentDim := parent,
                                           depth := (distTo reach root).getD 0, locked := m.locked || isRoot } }
    s.flag .merLog 2 lost

/-- Routes and the time root follow the link map. -/
def State.linksChanged (s : State) : State := s.reroute.relink false

/-! CONTROL messages (R305). Their kinds are the model's numbers (notes/assumptions/34.md). -/

/-- A message by a port. -/
def State.control (s : State) (p kind : Nat) (data : List Byte) : State :=
  let h : TxHeader :=
    { src := s.coord, dst := s.nbrOf (s.get (.lnkPortMap p) 3 0) s.coord, srcPart := 0, dstPart := 0, tag := 0, space := 0,
      offset := 0, len := data.length, code := kind, ret := false, scalar := false, arg := 0 }
  { s with out := { s.out with tx := s.out.tx ++ [{ kind := .control, header := h, data := data, port := some p }] } }

/-- Link state goes to every UP neighbour (R303). -/
def State.tellLink (s : State) (p v d : Nat) (up : Bool) : State := s.control p 4 (natLe 2 v ++ natLe 1 d ++ natLe 1 (b2n up))
def State.announce (s : State) (v d : Nat) (up : Bool) : State :=
  (List.range 12).foldl (fun s p => if (s.port p).st = .up then s.tellLink p v d up else s) s

/-- A link of the map goes up or down. -/
def State.mapLink (s : State) (v d : Nat) (up : Bool) : State :=
  { s with linkMap := if up then (if s.linkMap.contains (v, d) then s.linkMap else s.linkMap ++ [(v, d)])
                      else s.linkMap.filter fun x => x != (v, d) }

/-- Dimension of a port; whether the lane map uses it; its expected neighbour, and whether that is populated. -/
def State.portDim (s : State) (p : Nat) : Nat := s.get (.lnkPortMap p) 3 0
def State.mapped (s : State) (p : Nat) : Bool := s.get (.lnkPortMap p) 9 5 != 0
def State.expected (s : State) (p : Nat) : Nat := s.nbrOf (s.portDim p) s.coord
def State.populated (s : State) (x : Nat) : Bool :=
  match s.boot.image with
  | some i => i.populated.getLsbD x
  | none => false
/-- Lanes of a port in the lane map (R417), and those of them that have not been removed (R284). -/
def State.mapLanes (s : State) (p : Nat) : List Nat :=
  match s.boot.image with
  | some i => (List.range 72).filter fun l => (i.lanes.getD p 0).getLsbD l
  | none => []

def State.portLanes (s : State) (p : Nat) : List Nat := (s.mapLanes p).filter fun l => !(s.port p).lost.contains l

/-- The CONTROL flits at the vertex itself whose header has left by port p. -/
def dropTail (p : Nat) : List BufFlit → List BufFlit
  | [] => []
  | x :: t =>
    if x.vc = 3 ∧ x.port = some p then (if flitKind x.flit = 1 then x :: t else dropTail p t) else x :: dropTail p t

/-- Port p carries flits of some channels no more: no train of these from it holds an output, and none holds it; what is left of
such trains finds no port (State.stuck), or is dropped at the vertex itself (R292). -/
def State.cutHolds (s : State) (p : Nat) : State :=
  let dead := (List.range 4).filter fun vc => !(s.port p).alive vc
  let s := if dead.contains 3 then { s with inject := dropTail p s.inject } else s
  (List.range 12).foldl (fun s k =>
    let q := s.port k
    let cut := dead.filter fun vc => (q.noted vc).isSome && (k == p || q.noted vc == some p)
    if cut.isEmpty then s else s.setPort k { q with route := cut.foldl (fun t vc => tset t 0 vc 0) q.route }) s

/-- A port leaves UP: its flits' buffers are the caller's concern; the map, the routes and the news follow. -/
def State.leaveUp (s : State) (p : Nat) (st : PortSt) : State :=
  let was := (s.port p).st == .up
  let s := s.setPort p { s.port p with st := st }
  let s := if st = .draining then s else s.cutHolds p
  if was then ((s.mapLink s.coord (s.portDim p) false).announce s.coord (s.portDim p) false).linksChanged else s

/-- A port without a lane is ABSENT: its buffered flits are discarded (R284, R287). -/
def State.portAbsent (s : State) (p : Nat) : State :=
  let s := s.leaveUp p .absent
  s.setPort p { s.port p with retraining := false, trained := false, inbuf := [], trains := [], replay := [], again := [], used := [],
                              route := [], version := 0, mine := none, finding := none, verdict := none, peer := none }

/-! The lifecycle of a port (R310). -/

/-- Training from the start. -/
def State.trainPort (s : State) (p : Nat) (lanes : List Nat) : State :=
  (s.setPort p { (s.port p).blank with st := .training, lanes := lanes, since := s.limClock }).cutHolds p

/-- What ENABLE and FAILED ask of a port: link training runs from link discovery on. -/
def State.settlePort (s : State) (p : Nat) : State :=
  if !s.live then s
  else
    let want := s.unitEn (uPort p) && !(s.unit (uPort p)).failed
    match (s.port p).st with
    | .off => if want && s.mapped p && decide (7 ≤ s.boot.phase) && !s.boot.recovery then s.trainPort p (s.portLanes p) else s
    | .up => if want then s else s.leaveUp p .draining
    | _ => s

/-- A port's drain ends when its buffers and its replay buffer are empty. -/
def State.portDrained (s : State) (p : Nat) : State :=
  let q := s.port p
  if q.st != .draining || !q.inbuf.isEmpty || !q.replay.isEmpty || (List.range 4).any (fun k => tget q.route 0 k != 0) then s
  else (s.setPort p q.blank).settlePort p

/-- DRAIN_DONE (R452, R453, R46, R310). -/
def execDrainDone (u : LcId) (s : State) : Host.Outcome State Fault Refusal :=
  if !s.live then .next s
  else
    match u with
    | .unit u => .next (if 52 ≤ u.val then s.portDrained (u - 52) else s.drainEnd u)
    | .part p => .next (s.drainPart p)

/-- Link discovery begins: every port of the lane map trains. -/
def State.startLinks (s : State) : State := (List.range 12).foldl State.settlePort s

/-- Every port has left training and handshake. -/
def State.discDone (s : State) : Bool :=
  decide (7 ≤ s.boot.phase) && !s.boot.recovery && (List.range 12).all fun p => (s.port p).st != .training

/-- R309. -/
def State.degraded (s : State) : Bool :=
  (List.range 12).any fun p =>
    s.mapped p &&
      (match (s.port p).st with
       | .absent => s.populated (s.expected p)
       | .disabled | .quarantined => true
       | _ => false)

/-- LANE_REMOVE (R284): a lane that has lost lock, or has recorded more than 1,000 uncorrectable codewords within 1 ms, leaves its
port, which retrains on the others, or is ABSENT without any. -/
def execLaneRemove (p : PortId) (lane : Nat) (cause : LaneFault) (s : State) : Host.Outcome State Fault Refusal :=
  let q := s.port p
  if !s.live || !q.lanes.contains lane || !(q.st == .up || q.st == .draining || q.st == .disabled || (q.st == .training && q.trained)) ||
      (cause == .uncorrectable && decide (s.badWords p lane ≤ 1000))
  then .next s
  else
    let l := q.lanes.filter fun x => x ≠ lane
    let s := s.use portMaps
    let s := (s.setPort p ({ q with lanes := l, lost := lane :: q.lost }.retrain s.limClock)).flag (.lnkPortLog p) 1 true
    .next (if l.isEmpty then s.portAbsent p else s)

/-- RETRAIN_DONE: the port continues, at the width it has left. -/
def execRetrainDone (p : PortId) (s : State) : Host.Outcome State Fault Refusal :=
  let q := s.port p
  if !s.live || !q.retraining then .next s
  else
    let s := s.setPort p { q with retraining := false, replay := q.replay.map fun x => (x.1, 0, x.2.2) }
    .next (s.flag (.lnkPortLog p) 0 true)

/-- RETRAIN_TIMEOUT (R287): no lane has trained within 10 ms, and the port is ABSENT. -/
def execRetrainTimeout (p : PortId) (s : State) : Host.Outcome State Fault Refusal :=
  if !s.live || !(s.port p).retraining || decide (s.limClock < (s.port p).retrainAt + 10000000) then .next s
  else .next ((s.use portMaps).portAbsent p)

/-! Discovery (R305 to R309). -/

/-- The apex cores conduct discovery. -/
def State.discovers (s : State) : Bool := s.live && s.boot.apexRun

/-- A port sends its nonce. -/
def State.shake (s : State) (p : Nat) : State :=
  let n := Config.nonce s.fresh p
  let q := s.port p
  let s := s.bump.setPort p
    { q with mine := some n, peerNonce := none, peer := none, finding := none, verdict := none,
             since := if q.st = .training then q.since else s.limClock }
  s.control p 1 (natLe 32 n.toNat)

/-- TRAIN_DONE: lanes are locked and in order; an ABSENT port that hears its neighbour runs discovery too. -/
def execTrainDone (p : PortId) (s : State) : Host.Outcome State Fault Refusal :=
  let q := s.port p
  if !s.discovers || !s.clocks.opt || q.lanes.isEmpty || q.trained || !(q.st == .training || q.st == .absent) then .next s
  else
    let since := if q.st = .training then q.since else s.limClock
    let s := s.use [.lnkPortMap p]
    .next ((s.setPort p { q.blank with st := .training, lanes := q.lanes, trained := true, since := since }).shake p)

/-- TRAIN_TIMEOUT: no lock by 1 s. -/
def execTrainTimeout (p : PortId) (s : State) : Host.Outcome State Fault Refusal :=
  let s := s.use [.lnkPortMap p]
  let q := s.port p
  if !s.discovers || q.st != .training || q.trained || decide (s.limClock < q.since + 1000000000) then .next s
  else .next ((s.setPort p { q with st := .absent }).flag (.lnkPortLog p) 2 (s.populated (s.expected p)))

/-- The padded Falcon-1024 signature of a message under the identity key: 1,280 bytes (R416, R421). -/
def falconSig (secret m : List Byte) : List Byte := (List.range 1280).map (Config.falconSign secret m)

/-- The bytes a HELLO's signature covers with the peer's nonce (notes/assumptions/34.md). -/
def helloBytes (h : Hello) (nonce : BitVec 256) : List Byte :=
  natLe 2 h.coord ++ natLe 1 h.dim ++ h.planHash ++ natLe 2 h.versions.toNat ++ natLe 4 h.fwVer.toNat ++ h.cert ++ natLe 32 nonce.toNat

/-- This vertex's HELLO on a port. -/
def State.myHello (s : State) (p : Nat) (i : ImageInfo) (nonce : BitVec 256) : Hello :=
  let h : Hello := { coord := s.coord, dim := s.portDim p, planHash := i.planHash, versions := 1, fwVer := i.fwVer,
                     cert := s.nv.cert, signature := [] }
  { h with signature := falconSig s.nv.secret (helloBytes h nonce) }

/-- A port that takes part in a handshake. -/
def Port.listens (q : Port) : Bool :=
  !q.retraining && (q.st == .up || q.st == .disabled || (q.st == .training && q.trained))

/-- NONCE: the peer's nonce, answered by a HELLO, which a device with a bad identity does not send (R422). -/
def execNonce (p : PortId) (n : BitVec 256) (s : State) : Host.Outcome State Fault Refusal :=
  let s := s.use [.lnkPortMap p]
  let q := s.port p
  if !s.discovers || !q.listens then .next s
  else
    let s := if q.mine.isNone || q.finding.isSome then s.shake p else s
    let s := s.setPort p { s.port p with peerNonce := some n }
    match s.boot.image with
    | none => .next s
    | some i =>
      if s.boot.idBad || !s.boot.idDone then .next s
      else
        let h := s.myHello p i n
        .next (s.control p 2 (helloBytes h n ++ h.signature))

/-- The public key of a certificate, and whether Calaisa's key certifies it (R422). -/
def certKey (c : List Byte) : List Byte := (c.drop 32).take 1793
def certOk (c : List Byte) : Bool := Config.falconVerify Config.calaisaCertKey (c.take 1856) ((c.drop 1856).take 1280)

/-- The first finding of R306 on a HELLO. -/
def State.finding (s : State) (p : Nat) (i : ImageInfo) (mine : BitVec 256) (h : Hello) : Nat :=
  if !(certOk h.cert && Config.falconVerify (certKey h.cert) (helloBytes h mine) h.signature) then 1
  else if h.planHash ≠ i.planHash then 2
  else if !h.versions.getLsbD 0 then 3
  else if (List.range 12).any fun r => r != p && s.mapped r && s.expected r == h.coord then 4
  else if h.coord ≠ s.expected p ∨ !s.populated h.coord then 5
  else 6

/-- The flags of a finding. -/
def State.flagFinding (s : State) (p k : Nat) : State :=
  match k with
  | 1 => s.flag (.lnkPortLog p) 3 true
  | 2 => s.flag (.lnkPortLog p) 4 true
  | 3 => s.flag (.lnkPortLog p) 5 true
  | 4 => s.flag (.lnkPortLog p) 7 true
  | 5 => s.flag (.lnkPortLog p) 6 true
  | _ => s

/-- HELLO. A DISABLED port that has decided repeats Nonce, Hello and Verdict when its peer sends a new one (R308). -/
def execHello (p : PortId) (h : Hello) (s : State) : Host.Outcome State Fault Refusal :=
  let s := s.use portMaps
  let q := s.port p
  match s.boot.image, q.mine with
  | some i, some mine =>
    if !s.discovers || !q.listens || q.finding.isSome then .next s
    else
      let k := s.finding p i mine h
      .next ((s.setPort p { q with peer := some h, finding := some k }).flagFinding p k)
  | some _, none => if s.discovers && q.listens && q.st == .disabled then .next (s.shake p) else .next s
  | none, _ => .next s

/-- The port of this vertex whose dimension a peer's coordinate belongs to. -/
def State.portOfPeer (s : State) (p : Nat) : Option Nat :=
  match (s.port p).peer with
  | none => none
  | some h => (List.range 12).find? fun r => s.mapped r && s.expected r == h.coord

/-- Ports of a set that form a permutation with equal lane counts (R307): what stays when those that do not are
taken away. -/
def State.permutation (s : State) : Nat → List Nat → List Nat
  | 0, l => l
  | n + 1, l =>
    s.permutation n (l.filter fun p =>
      (match s.portOfPeer p with
       | some r => l.contains r && s.get (.lnkPortMap p) 9 5 == s.get (.lnkPortMap r) 9 5
       | none => false) &&
      ((l.filter fun r => s.portOfPeer r == some p).length == 1))

/-- The remap: each port takes the dimension of its peer. -/
def State.remap (s : State) (l : List Nat) : State :=
  let dims := l.map fun p => (p, s.portDim ((s.portOfPeer p).getD p))
  dims.foldl (fun s x =>
    let s := (s.put (.lnkPortMap x.1) 3 0 x.2).put (.lnkPortMap x.1) 4 4 1
    (s.setPort x.1 { s.port x.1 with finding := some 6 }).flag (.lnkPortLog x.1) 8 true) s

/-- A port becomes UP (R303, R305), or drains where ENABLE has become 0 (R452). The new neighbour is told the links that
are known, since it holds the link map of its component (R302; notes/assumptions/62.md). -/
def State.joinPort (s : State) (p : Nat) : State :=
  let q := s.port p
  if q.st = .up then s
  else
    let s := s.linkMap.foldl (fun s x => s.tellLink p x.1 x.2 true) (s.setPort p { q with st := .up })
    let s := (s.mapLink s.coord (s.portDim p) true).mapLink (s.expected p) (s.portDim p) true
    ((s.announce s.coord (s.portDim p) true).linksChanged).settlePort p

/-- The peer's verdict meets the own verdict UP. -/
def State.concludePort (s : State) (p : Nat) (up : Bool) : State :=
  let s := s.setPort p { s.port p with finding := none, verdict := none }
  if up then s.joinPort p
  else
    let s := s.leaveUp p .disabled
    (s.setPort p { s.port p with version := 0 }).flag (.lnkPortLog p) 10 true

/-- A port that will drive no signal any more sends the message that was given to it last, if it holds a credit for it (R290,
R305, R308). -/
def State.lastWord (s : State) (p : Nat) : State :=
  let s := s.loadInject
  match s.inject.getLast? with
  | some b =>
    (match (s.port p).credit b.vc 0 with
     | some shared => s.sendFlit p 12 b shared
     | none => s)
  | none => s

/-- The own verdict on a port whose HELLO was checked (R306): the peer is told of it, whatever it is (R305). -/
def State.decidePort (s : State) (p : Nat) : State :=
  let q := s.port p
  match q.finding with
  | none => s
  | some k =>
    if k = 6 then
      let i := s.boot.image
      let diff := match q.peer, i with | some h, some i => h.fwVer != i.fwVer | _, _ => false
      let s := (s.setPort p { q with mine := none, version := 1 }).flag (.lnkPortLog p) 9 diff
      let s := s.control p 3 (natLe 1 1)
      match q.verdict with
      | some up => s.concludePort p up
      | none => s
    else
      let s := s.setPort p { q with mine := none, finding := none, version := 0 }
      let s := s.control p 3 (natLe 1 0)
      if k = 5 then s.leaveUp p .disabled else s.lastWord p |>.leaveUp p .quarantined

/-- Whether a port in the handshake keeps the verdict phase waiting: neither checked nor 1 s old. -/
def State.undecided (s : State) (p : Nat) : Bool :=
  let q := s.port p
  (q.st == .training || q.mine.isSome) && !(q.trained && q.finding.isSome) && !(q.mine.isSome && q.finding.isSome) &&
    decide (s.limClock < q.since + 1000000000)

/-- VERDICT_PHASE (R307): a trained port without a HELLO after 1 s has shown no identity (R422). -/
def execVerdictPhase (s : State) : Host.Outcome State Fault Refusal :=
  let s := s.use portMaps
  if !s.discovers || (List.range 12).any s.undecided then .next s
  else
    match s.boot.image with
    | none => .next s
    | some i =>
      let s := (List.range 12).foldl (fun s p =>
        let q := s.port p
        if q.st = .training ∧ q.trained ∧ q.mine.isSome ∧ q.finding.isNone then
          (s.setPort p { q with finding := some 1 }).flagFinding p 1
        else s) s
      let swapped := (List.range 12).filter fun p => (s.port p).finding == some 4 && (s.port p).mine.isSome
      let s := if i.autoRemap then s.remap (s.permutation 12 swapped) else s
      .next ((List.range 12).foldl (fun s p => if (s.port p).mine.isSome then s.decidePort p else s) s)

/-- VERDICT (R306): kept until the own verdict is made. -/
def execVerdict (p : PortId) (up : Bool) (s : State) : Host.Outcome State Fault Refusal :=
  let s := s.use [.lnkPortMap p]
  let q := s.port p
  if !s.discovers || !q.listens then .next s
  else if q.finding = some 6 ∧ q.mine.isNone then .next (s.concludePort p up)
  else if q.mine.isSome then .next (s.setPort p { q with verdict := some up })
  else .next s

/-- LINK_STATE_ANNOUNCE (R303): news is sent on once to all UP neighbours, and the routes follow. -/
def execLinkStateAnnounce (p : PortId) (n : LinkNews) (s : State) : Host.Outcome State Fault Refusal :=
  let s := s.use portMaps
  if !s.discovers || (s.port p).st != .up || n.vertex = s.coord || s.linkMap.contains (n.vertex, n.dim) == n.up then .next s
  else .next (((s.mapLink n.vertex n.dim n.up).announce n.vertex n.dim n.up).linksChanged)

/-- The lanes removed from a port return, and it retrains on all (R284). -/
def State.regainLanes (s : State) (p : Nat) : State :=
  let q := s.port p
  if q.lost.isEmpty then s else s.setPort p ({ q with lanes := s.mapLanes p, lost := [] }.retrain s.limClock)

/-- Rediscovery (R308): DISABLED and UP ports repeat the handshake, ABSENT ports retrain; each has all its lanes again. -/
def State.rediscover (s : State) : State :=
  (List.range 12).foldl (fun s p =>
    match (s.port p).st with
    | .disabled | .up => s.regainLanes p |>.shake p
    | .absent => (s.setPort p { s.port p with lost := [] }).trainPort p (s.mapLanes p)
    | _ => s) s

/-- Release of QUARANTINED ports (R308): they train afresh. -/
def State.releasePorts (s : State) (mask : Nat) : State :=
  (List.range 12).foldl (fun s p =>
    if bit mask p ∧ (s.port p).st = .quarantined then s.trainPort p (s.port p).lanes else s) s

/-! Meridian time (R311 to R313). -/

/-- The port toward the parent, if there is one that is UP. -/
def State.parentPort (s : State) : Option Nat :=
  if s.meridian.root || s.meridian.rootCoord == s.coord then none
  else (s.dimPort s.meridian.parentDim).bind fun p => if (s.port p).st = .up then some p else none

/-- Every child's timestamp that waits is answered with itself, the time it came and the time the answer leaves (R311). -/
def State.answerStamps (s : State) : State :=
  s.meridian.asks.foldl (fun s a =>
      if (s.port a.1).st = .up then
        s.control a.1 5 (natLe 8 a.2.1.toNat ++ natLe 8 a.2.2.toNat ++ natLe 8 s.time.toNat)
      else s)
    { s with meridian := { s.meridian with asks := [] } }

/-- MERIDIAN_SYNC (R311): the children's timestamps are answered, and every 10 µs a timestamp goes to the parent. -/
def execMeridianSync (s : State) : Host.Outcome State Fault Refusal :=
  if !s.live then .next s
  else
    let s := (s.use portMaps).answerStamps
    match s.parentPort with
    | none => .next s
    | some p =>
      let due := match s.meridian.askedAt with | none => true | some t => decide (t + 10000 ≤ s.limClock)
      if !due then .next s
      else
        .next (({ s with meridian := { s.meridian with asked := some s.time, askedAt := some s.limClock } }).control p 5
          (natLe 8 s.time.toNat))

/-- The round trip of an exchange from its four timestamps, without the time the parent took; the link delay of a list of
round trips: half their average (R311). -/
def roundTrip (t1 t2 t3 t4 : BitVec 64) : Int := ((t4.toNat : Int) - t1.toNat) - ((t3.toNat : Int) - t2.toNat)
def linkDelay (trips : List Int) : Int := trips.foldl (· + ·) 0 / (2 * max (trips.length : Int) 1)

/-- MERIDIAN_EXCHANGE (R311, R312): the parent received this vertex's timestamp at `received` and sent its answer at `sent`, which
has now arrived. The offset to the parent follows from the delay averaged over the last 64 exchanges; the first lock steps the
counter, later offsets are slewed, large ones with RESYNC. -/
def execMeridianExchange (received sent : BitVec 64) (s : State) : Host.Outcome State Fault Refusal :=
  let m := s.meridian
  match m.asked with
  | none => .next s
  | some t1 =>
    let s := if s.live then s.use portMaps else s
    if !s.live || s.parentPort.isNone then .next s
    else
      let l := m.trips ++ [roundTrip t1 received sent s.time]
      let l := l.drop (l.length - 64)
      let offset : Int := (sent.toNat : Int) + linkDelay l - s.time.toNat
      let m := { m with trips := l, asked := none }
      if !m.locked then
        let t := BitVec.ofInt 64 ((s.time.toNat : Int) + offset)
        .next (({ s with time := t, meridian := { m with locked := true, slew := 0 } }).flag .merLog 0 true)
      else
        let big := decide (10000 < offset.natAbs)
        let s := { s with meridian := { m with slew := offset, resync := m.resync || big } }
        .next (s.flag .merLog 1 big)

/-- SYNCED: locked, and no resynchronisation whose remaining offset exceeds R313's bound (1.65 ns a hop). -/
def State.synced (s : State) : Bool :=
  let m := s.meridian
  m.locked && !(m.resync && decide (165 * m.depth < 100 * m.slew.natAbs))

/-- One ns of meridian time: the count, one step of the slew in 4,000 (250 ppm), never backwards. -/
def State.tickMeridian (s : State) : State :=
  let m := s.meridian
  let turn := m.phase = 3999
  let d : Nat := if turn then (if 0 < m.slew then 2 else if m.slew < 0 then 0 else 1) else 1
  let slew := if turn then (if 0 < m.slew then m.slew - 1 else if m.slew < 0 then m.slew + 1 else 0) else m.slew
  { s with time := s.time + BitVec.ofNat 64 d
           meridian := { m with phase := (m.phase + 1) % 4000, slew := slew, resync := m.resync && decide (165 * m.depth < 100 * slew.natAbs) } }

end Sys2Proof.Machine
end

