-- ==== Sys2Proof/Machine/Trust.lean ====
section
/-! DEFINITION. The Nyvovis image and its verification (spec/16_boot_and_trust.md R413 to R418), and SHAKE256 as FIPS
202 specifies it. -/

namespace Sys2Proof.Machine

/-! SHAKE256. The state is five planes of 320 bits, plane y holding lane x in its bits 64 x to 64 x + 63. -/

/-- A plane; its lane x; the plane whose lanes a function gives. -/
abbrev Plane := BitVec 320
def planeLane (p : Plane) (x : Nat) : BitVec 64 := (p >>> (64 * (x % 5))).setWidth 64
def planeOf (g : Nat → BitVec 64) : Plane := (List.range 5).foldr (fun x p => p <<< 64 ||| (g x).setWidth 320) 0

/-- θ: every plane takes the parities of the columns beside it. -/
def theta (a : List Plane) : List Plane :=
  let c := a.foldl (· ^^^ ·) 0
  let d := c.rotateLeft 64 ^^^ planeOf fun x => (planeLane c (x + 1)).rotateLeft 1
  a.map (· ^^^ d)

/-- ρ: how far lane (x, y) turns. From (1, 0) the walk (x, y) to (y, 2x + 3y) meets it at its step t, after (t + 1)(t + 2) / 2. -/
def rhoTurn (x y : Nat) : Nat → Nat → Nat → Nat
  | 0, _, _ => 0
  | n + 1, u, v => if u = x ∧ v = y then (25 - (n + 1)) * (26 - (n + 1)) / 2 else rhoTurn x y n v ((2 * u + 3 * v) % 5)
/-- ρ and π: lane (x, y) comes from lane (x + 3y, x), turned. -/
def rhoPi (a : List Plane) : List Plane :=
  (List.range 5).map fun y => planeOf fun x =>
    (planeLane (a.getD x 0) (x + 3 * y)).rotateLeft (rhoTurn ((x + 3 * y) % 5) x 24 1 0)

/-- χ on a plane. -/
def chi (p : Plane) : Plane := p ^^^ (~~~(p.rotateRight 64) &&& p.rotateRight 128)

/-- The shift register of the round constants after one step, and ι's constant for a round, from seven bits of it: bit j goes to
position 2 ^ j - 1. -/
def lfsrStep (r : Nat) : Nat := if 128 ≤ r then (2 * r) ^^^ 0x171 else 2 * r
def iotaWord (r : Nat) : Nat × Nat :=
  (List.range 7).foldl (fun x j => (lfsrStep x.1, x.2 + (x.1 % 2) * 2 ^ (2 ^ j - 1))) (r, 0)

/-- Rounds of Keccak-f[1600] from a state of the register on. -/
def keccakRounds : Nat → Nat → List Plane → List Plane
  | 0, _, a => a
  | n + 1, r, a =>
    let k := iotaWord r
    match (rhoPi (theta a)).map chi with
    | [] => []
    | p :: t => keccakRounds n k.1 ((p ^^^ BitVec.ofNat 320 k.2) :: t)
def keccak (a : List Plane) : List Plane := keccakRounds 24 1 a

/-- The message padded to blocks of 136 bytes. -/
def shakePad (m : List Byte) : List Byte :=
  let z := 136 - m.length % 136
  m ++ (List.range z).map fun i => (if i = 0 then 0x1F else 0) ||| (if i + 1 = z then 0x80 else 0)

/-- Absorbs blocks. -/
def absorb : Nat → List Plane → List Byte → List Plane
  | 0, a, _ => a
  | n + 1, a, m =>
    let blk := leNat (m.take 136)
    absorb n (keccak ((List.range 5).map fun y => a.getD y 0 ^^^ BitVec.ofNat 320 (blk >>> (320 * y)))) (m.drop 136)

/-- SHAKE256 with at most 136 bytes of output. -/
def shake256 (m : List Byte) (n : Nat) : List Byte :=
  let p := shakePad m
  ((absorb (p.length / 136) (List.replicate 5 0) p).flatMap fun x => natLe 40 x.toNat).take n
/-- The hash of the image format: 512 bits. -/
def hash512 (m : List Byte) : List Byte := shake256 m 64

/-! The NVM (R413, R414). -/

/-- A byte of the NVM; an erased one reads 0xFF. -/
def nvRd (m : Mem) (a : Nat) : Byte := tget m 0xFF a
/-- Bytes of the device, and the start of the reserved area. -/
def NonVol.size (n : NonVol) : Nat := n.mbit * 131072
def NonVol.reserved (n : NonVol) : Nat := n.size - 131072

/-! The image as a string of bytes (R416). -/

/-- `n` bytes from offset a. -/
def imgBytes (r : Nat → Byte) (a n : Nat) : List Byte := (List.range n).map fun i => r (a + i)
def imgNat (r : Nat → Byte) (a n : Nat) : Nat := leNat (imgBytes r a n)
def imgZero (r : Nat → Byte) (a n : Nat) : Bool := (List.range n).all fun i => r (a + i) == 0

/-- Header fields. -/
def imSections (r : Nat → Byte) : Nat := imgNat r 10 2
def imLen (r : Nat → Byte) : Nat := imgNat r 12 4
def imSvn (r : Nat → Byte) : Nat := imgNat r 16 4
def imSig (r : Nat → Byte) : Nat := imgNat r 20 4
def imSigner (r : Nat → Byte) : Nat := imgNat r 24 4
def imTable (r : Nat → Byte) : Nat := 64 + 80 * imSections r

/-- A section-table entry. -/
structure Section where
  type : Nat
  offset : Nat
  length : Nat
  hash : List Byte
  deriving DecidableEq, Repr
def imSection (r : Nat → Byte) (i : Nat) : Section :=
  let b := 64 + 80 * i
  { type := imgNat r b 2, offset := imgNat r (b + 4) 4, length := imgNat r (b + 8) 4, hash := imgBytes r (b + 16) 64 }
def imTableOf (r : Nat → Byte) : List Section := (List.range (imSections r)).map (imSection r)

/-- Sections in ascending order without overlap, from `lo` to `hi`. -/
def laidOut (hi : Nat) : Nat → List Section → Bool
  | lo, [] => decide (lo ≤ hi)
  | lo, x :: t => decide (lo ≤ x.offset) && x.offset % 64 == 0 && decide (1 ≤ x.length) && laidOut hi (x.offset + x.length) t

/-- Check 0x04; `room` is what the image must fit. -/
def imLayout (r : Nat → Byte) (room : Nat) : Bool :=
  decide (6 ≤ imSections r) && decide (imSections r ≤ 16) && imLen r == imSig r + 3136 && decide (imLen r ≤ 2 ^ 24) &&
    decide (imLen r ≤ room) && imSig r % 64 == 0 && imgZero r 28 36 &&
    ((List.range (imSections r)).all fun i => imgZero r (64 + 80 * i + 2) 2 && imgZero r (64 + 80 * i + 12) 4) &&
    laidOut (imSig r) (imTable r) (imTableOf r)

/-- The owner hash as the fuses hold it. -/
def hashNat (l : List Byte) : BitVec 512 := BitVec.ofNat 512 (leNat l)

/-- Check 0x05. -/
def imSignerOk (n : NonVol) (r : Nat → Byte) : Bool :=
  let h := hash512 (imgBytes r (imSig r) 1793)
  (imSigner r == 0 && !n.owned && h == Config.calaisaHash) || (imSigner r == 1 && n.owned && hashNat h == n.ownerHash)

/-- The section of a type; its reader. -/
def imOf (r : Nat → Byte) (type : Nat) : Section :=
  ((imTableOf r).find? fun x => x.type == type).getD { type := 0, offset := 0, length := 0, hash := [] }
def secRd (r : Nat → Byte) (type : Nat) : Nat → Byte := fun i => r ((imOf r type).offset + i)

/-- Check 0x08. -/
def imTypesOk (r : Nat → Byte) : Bool :=
  ((List.range 6).all fun k => ((imTableOf r).filter fun x => x.type == k + 1).length == 1) &&
    (imTableOf r).all fun x => (decide (1 ≤ x.type) && decide (x.type ≤ 6)) || decide (0x8000 ≤ x.type)

/-! Section contents (R417). -/

/-- Firmware. -/
def fwOk (r : Nat → Byte) (n : Nat) : Bool :=
  decide (65 ≤ n) && decide (n ≤ 64 + 6 * 2 ^ 20) && imgNat r 4 4 == n - 64 && decide (imgNat r 8 8 < n - 64) && imgZero r 16 48
/-- Installation plan. -/
def planNdim (r : Nat → Byte) : Nat := imgNat r 4 1
def planPop (r : Nat → Byte) : BitVec 4096 := BitVec.ofNat 4096 (imgNat r 64 512)
def planOk (r : Nat → Byte) (n : Nat) : Bool :=
  n == 576 && imgNat r 0 4 == 1 && decide (1 ≤ planNdim r) && decide (planNdim r ≤ 12) && decide (imgNat r 5 1 < 4) &&
    imgZero r 6 2 && imgZero r 24 40 && decide ((planPop r).toNat < 2 ^ 2 ^ planNdim r)
/-- Port records of a lane map: lanes, dimension, use. -/
def laneRec (r : Nat → Byte) (p : Nat) : Nat := imgNat r (64 + 16 * p) 16
def recMask (x : Nat) : Nat := bits x 71 0
def recDim (x : Nat) : Nat := bits x 75 72
def recUsed (x : Nat) : Bool := bit x 76
def laneList (x : Nat) : List Nat := (List.range 72).filter fun l => bit x l
/-- R301 and the plan. -/
def laneOk (r plan : Nat → Byte) (n : Nat) : Bool :=
  let used := (List.range 12).filter fun p => recUsed (laneRec r p)
  n == 256 && imgNat r 0 4 == 1 && decide (imgNat r 4 2 < 4096) && imgZero r 6 58 &&
    ((List.range 12).all fun p => bits (laneRec r p) 127 77 == 0) &&
    (planPop plan).getLsbD (imgNat r 4 2) &&
    used.all fun p =>
      let x := laneRec r p
      let k := (laneList x).length
      decide (1 ≤ k) && decide (k ≤ 16) && (bits x 35 0 == 0 || bits x 71 36 == 0) && decide (recDim x < planNdim plan) &&
        used.all fun q => q == p || (recDim (laneRec r q) != recDim x && (recMask (laneRec r q) &&& recMask x) == 0)
/-- Power limits. -/
def powerOk (r : Nat → Byte) (n : Nat) : Bool :=
  let cap := imgNat r 4 2
  n == 64 && imgNat r 0 4 == 1 && decide (600 ≤ cap) && decide (cap ≤ 1100) && decide (600 ≤ imgNat r 6 2) &&
    decide (imgNat r 6 2 ≤ cap) && decide (1 ≤ imgNat r 8 2) && decide (imgNat r 8 2 ≤ 100) && decide (cap ≤ imgNat r 10 2) &&
    decide (imgNat r 10 2 ≤ 1100) && imgZero r 12 52
/-- Security policy. -/
def policyOk (r : Nat → Byte) (n : Nat) : Bool :=
  n == 64 && imgNat r 0 4 == 1 && decide (imgNat r 4 1 ≤ 2) && decide (imgNat r 5 1 ≤ 1) && decide (imgNat r 6 1 ≤ 1) && imgZero r 7 57

/-! Partition defaults (R417, R418). -/

/-- A default word as a PF write of a register (R400, R403): none where it is rejected. -/
def defaultWrite (r : Reg) (w : Word) (bad : Bool) (apply : State) : Option State :=
  if (w &&& r.mask .rk) != 0 || bad then none else some apply

/-- The stored bits of a written word. -/
def Reg.stored (r : Reg) (w : Word) : Word := w &&& (r.mask .rw ||| r.mask .rw3)

/-- A granule's default. -/
def State.defaultGran (s : State) (g : Nat) (w : Word) : Option State :=
  defaultWrite (.memGran g) w (granReject w || fld w 15 14 != 0) (s.setVal (.memGran g) (Reg.stored (.memGran g) w))

/-- The registers of a partition's record, in order. -/
def partRegs (p : Nat) : List Reg :=
  [.partCtrl p, .partUnits p, .partCodecs p, .partCeil p, .partQueues p, .partCtrs p] ++ (List.range 24).map fun f => .partQmask p f

/-- Word k of partition p's record. -/
def defWord (d : Nat → Byte) (p k : Nat) : Word := BitVec.ofNat 32 (imgNat d (128 * p + 4 * k) 4)
def State.defaultPart (s : State) (d : Nat → Byte) (p : Nat) : Option State :=
  if !imgZero d (128 * p + 120) 8 then none
  else
    (List.range 30).foldl (fun o k =>
      o.bind fun s =>
        let r := (partRegs p).getD k (.partCtrl p)
        let w := defWord d p k
        defaultWrite r w (s.partReject p r (r.stored w)) (s.partApply r (r.stored w))) (some s)

/-- The defaults applied in order: granules 0 to 575, then partitions 0 to 31. -/
def State.applyDefaults (s : State) (d : Nat → Byte) : Option State :=
  let o := (List.range 576).foldl (fun o g =>
    o.bind fun s => s.defaultGran g (BitVec.ofNat 32 (imgNat d (4096 + 2 * g) 2))) (some s)
  (List.range 32).foldl (fun o p => o.bind fun s => s.defaultPart d p) o

/-! Verification (R418). -/

/-- What the image says, once it is verified. -/
def imInfo (r : Nat → Byte) : ImageInfo :=
  let fw := secRd r 1
  let plan := secRd r 2
  let map := secRd r 3
  let pw := secRd r 5
  let pol := secRd r 6
  { fwVer := BitVec.ofNat 32 (imgNat fw 0 4), svn := imSvn r, sections := imSections r
    digest := hash512 (imgBytes r 0 (imTable r)), signer := hash512 (imgBytes r (imSig r) 1793), planHash := (imOf r 2).hash
    ndim := planNdim plan, twisted := bit (imgNat plan 5 1) 0, autoRemap := bit (imgNat plan 5 1) 1, populated := planPop plan
    coord := imgNat map 4 2
    lanes := (List.range 12).map fun p => if recUsed (laneRec map p) then BitVec.ofNat 128 (laneRec map p) else 0
    defaults := imgBytes (secRd r 4) 0 5248
    capW := imgNat pw 4 2, pwrcapW := imgNat pw 6 2, slew := imgNat pw 8 2, capMaxW := imgNat pw 10 2
    testPort := imgNat pol 4 1, svnCommit := imgNat pol 5 1 == 1, recoveryEnter := imgNat pol 6 1 == 1 }

/-- The code of the first check that fails, 0 if none: `dev` is check 0x01, `room` what the image must fit. -/
def imVerify (n : NonVol) (dev : Bool) (room : Nat) (r : Nat → Byte) : Nat :=
  let ts := imTableOf r
  let len := fun (k : Nat) => (imOf r k).length
  if !dev then 0x01
  else if imgBytes r 0 8 ≠ [0x4E, 0x59, 0x56, 0x4F, 0x56, 0x49, 0x53, 0x31] then 0x02
  else if imgNat r 8 2 ≠ 1 then 0x03
  else if !imLayout r room then 0x04
  else if !imSignerOk n r then 0x05
  else if !Config.falconVerify (imgBytes r (imSig r) 1793) (imgBytes r 0 (imTable r)) (imgBytes r (imSig r + 1856) 1280) then 0x06
  else if !(ts.all fun x => hash512 (imgBytes r x.offset x.length) == x.hash) then 0x07
  else if !imTypesOk r then 0x08
  else if imSvn r < n.svn ∨ 63 < imSvn r then 0x09
  else if !(fwOk (secRd r 1) (len 1) && planOk (secRd r 2) (len 2) && laneOk (secRd r 3) (secRd r 2) (len 3) && len 4 == 5248 &&
      (State.reset.applyDefaults (secRd r 4)).isSome && powerOk (secRd r 5) (len 5) && policyOk (secRd r 6) (len 6)) then 0x0A
  else 0

/-- The firmware's code as it stands in apex-core memory. -/
def imCode (r : Nat → Byte) : Mem := wrCells [] (cellsAt 0 (imgBytes (secRd r 1) 64 ((imOf r 1).length - 64)))

end Sys2Proof.Machine
end

