-- ==== Sys2Proof/Machine/Boot.lean ====
section
/-! DEFINITION. Reset, boot, identity, attestation, recovery, the NVM port and the fuses (spec/16_boot_and_trust.md R415,
R419 to R431; spec/18_package.md R462, R463; spec/17_power_and_faults.md R437, R439). -/

namespace Sys2Proof.Machine

/-! Reset. -/

/-! What was in progress. -/

/-- What a fuse command has burned at its end (R427, R428); an owned part's hash is never burned again. -/
def State.burned (s : State) : State :=
  if !s.boot.fuseOk || (s.boot.fuse != 1 && s.nv.owned) then s
  else if s.boot.fuse = 1 then ({ s with nv := { s.nv with svn := max s.nv.svn s.boot.fuseSvn } }).put .bootStatus 19 14 (max s.nv.svn s.boot.fuseSvn)
  else ({ s with nv := { s.nv with ownerHash := s.nv.ownerHash ||| s.boot.fuseHash, owned := true } }).put .bootStatus 25 24 1

/-- What a fuse command that was cut off has burned (R427, R428): bits of the SVN in ascending order, or bits of the hash, and the
lifecycle once the hash is whole. How many is free (notes/assumptions/50.md). -/
def State.partBurned (s : State) : State :=
  if !s.boot.fuseOk || s.boot.fuse == 0 || (s.boot.fuse != 1 && s.nv.owned) then s
  else if s.boot.fuse = 1 then
    let v := s.nv.svn + Config.cutAt s.fresh 0 % (s.boot.fuseSvn - s.nv.svn + 1)
    (({ s with nv := { s.nv with svn := v } }).put .bootStatus 19 14 v).bump
  else
    let h := s.nv.ownerHash ||| (s.boot.fuseHash &&& BitVec.ofNat 512 (Config.cutAt s.fresh 1))
    let o := s.nv.owned || (h == s.nv.ownerHash ||| s.boot.fuseHash) && Config.cutAt s.fresh 2 % 2 == 1
    (({ s with nv := { s.nv with ownerHash := h, owned := o } }).put .bootStatus 25 24 (b2n o)).bump

/-- Programs bytes of the NVM; a byte that is all ones is an erased one. -/
def nvProgram (m : Mem) (l : List (Nat × Byte)) : Mem := l.foldl (fun m x => tset m 0xFF x.1 x.2) m

/-- What a last-gasp Program that was cut off leaves of its slot (R462): some of its pages of 256 bytes, in order, and of the next
one whatever the cut leaves. -/
def State.partProgrammed (s : State) : State :=
  match s.gasp.program with
  | none => s
  | some g =>
    let b := (g.bytes.take (256 * (Config.cutAt s.fresh 3 % 17)) ++ s.freeBytes 256).take g.bytes.length
    { s with nv := { s.nv with nvm := nvProgram s.nv.nvm (cellsAt g.addr b) }, gasp := { s.gasp with program := none } }.bump

/-- The sequences that a reset or a loss of power cuts off. -/
def State.cutOff (s : State) : State := s.partProgrammed.partBurned

/-- A state from which everything but what a reset keeps is gone: the NVM, the fuses and the manufacture data, the
host's memory, what the outside has been told, the model's own counters and queue, and the board's lands. -/
def State.cold (s : State) : State :=
  { State.reset with
    pending := s.pending, fresh := s.fresh, limClock := s.limClock, out := s.out, nv := s.nv, host := s.host
    clocks := s.clocks, pins := { s.pins with reset := true, trip := false, apexHb := false, nvmRel := false } }

/-- RESET_ASSERT (R420, R462): every sequence ends; apex-core memory keeps the note of a record that was not written
(R439). -/
def execResetAssert (s : State) : Host.Outcome State Fault Refusal :=
  .next { s.cutOff.cold with gasp := { State.reset.gasp with skipped := s.gasp.skipped } }

/-- The security state as the fuses hold it (R431). -/
def State.loadFuses (s : State) : State :=
  (s.put .bootStatus 25 24 (b2n s.nv.owned)).put .bootStatus 19 14 s.nv.svn

/-- The PCIe link trains to a width and a rate of R374. -/
def State.trainPcie (s : State) : State :=
  ({ s with link := { width := [1, 2, 4, 8, 16].getD (Config.trained s.fresh 0 % 5) 16, rate := 1 + Config.trained s.fresh 1 % 6 } }).bump

/-- RESET_RELEASE (R419): the boot ROM starts on apex core 0. The board releases RESET_N with every reference clock
stable (R458). -/
def execResetRelease (s : State) : Host.Outcome State Fault Refusal :=
  if !s.pins.reset then .next s
  else
    .next ({ s with pins := { s.pins with reset := false }, boot := { s.boot with phase := 2 }
                    clocks := { pcie := true, sys := true, opt := true, vid := true } }.loadFuses.trainPcie)

/-- POWER_LOSS (R437): nothing is left but the NVM and the fuses. -/
def execPowerLoss (s : State) : Host.Outcome State Fault Refusal := .next s.cutOff.cold

/-- The management domain runs: out of reset, its clock present, not in a full freeze. -/
def State.awake (s : State) : Bool := !s.pins.reset && s.clocks.sys && !(s.freeze.frozen && s.freeze.full)

/-- Boot goes on: the management domain runs, and the apex cores have not stopped (R429). -/
def State.booting (s : State) : Bool := s.awake && !s.boot.apexDead

/-! The phases of boot (R419). -/

/-- A device that R413 accepts. -/
def nvmFits (d : NvmDevice) : Bool :=
  d.present && d.profile && d.addr4 && d.sector64 && (d.mbit == 512 || d.mbit == 1024 || d.mbit == 2048)
/-- DENSITY. -/
def densityCode (mbit : Nat) : Nat := if mbit = 512 then 1 else if mbit = 1024 then 2 else 3

/-- What the port reads of the SFDP tables. -/
def State.readSfdp (s : State) (d : NvmDevice) : State :=
  let ok := nvmFits d
  let s := { s with nv := { s.nv with mbit := if ok then d.mbit else s.nv.mbit }, boot := { s.boot with nvmOk := ok } }
  s.put .nvmCtrl 7 4 (if ok then densityCode d.mbit else 0)

/-- NVM_DISCOVERY. -/
def execNvmDiscovery (d : NvmDevice) (s : State) : Host.Outcome State Fault Refusal :=
  if !s.booting || s.boot.phase ≠ 2 then .next s
  else
    let s := s.readSfdp d
    .next { s with boot := { s.boot with phase := 3 } }

/-- Firmware start follows Verify and Identity. -/
def State.afterVerify (s : State) : State :=
  if s.boot.verified && s.boot.idDone && s.boot.phase == 3 then { s with boot := { s.boot with phase := 4 } } else s

/-- VERIFY (R418): success copies the firmware; failure captures the code and enters recovery. -/
def execVerify (s : State) : Host.Outcome State Fault Refusal :=
  if !s.booting || s.boot.phase ≠ 3 || s.boot.verified then .next s
  else
    let r := nvRd s.nv.nvm
    match imVerify s.nv s.boot.nvmOk s.nv.reserved r with
    | 0 =>
      let s := { s with boot := { s.boot with verified := true, image := some (imInfo r), apexMem := imCode r, source := 0 } }
      .next s.afterVerify
    | c =>
      let s := s.setWz .imageLog 0 [(.imageLog, 15, 8, c)]
      .next { s with boot := { s.boot with phase := 15, recovery := true } }

/-- The seed and the identity public key (R421). -/
def idSeed (secret : List Byte) : List Byte := shake256 (secret ++ [0x49, 0x44, 0x45, 0x4E, 0x54, 0x49, 0x54, 0x59]) 48

/-- IDENTITY (R421, R422). -/
def execIdentity (s : State) : Host.Outcome State Fault Refusal :=
  if !s.booting || s.boot.phase ≤ 1 || s.boot.idDone then .next s
  else
    let bad := Config.falconPublic (idSeed s.nv.secret) != certKey s.nv.cert
    let s := ({ s with boot := { s.boot with idDone := true, idBad := bad } }).flag .imageLog 3 bad
    .next s.afterVerify

/-! The last-gasp ring at boot (R439, R440). -/

/-- The address of a slot; its bytes; whether it is erased, or valid. -/
def NonVol.slotAt (n : NonVol) (k : Nat) : Nat := n.reserved + 4096 * k
def NonVol.slotBytes (n : NonVol) (k len : Nat) : List Byte := (List.range len).map fun i => nvRd n.nvm (n.slotAt k + i)
def NonVol.slotErased (n : NonVol) (k : Nat) : Bool :=
  n.nvm.all fun x => !(decide (n.slotAt k ≤ x.1) && decide (x.1 < n.slotAt k + 4096))
def NonVol.slotValid (n : NonVol) (k : Nat) : Bool :=
  let b := n.slotBytes k 4096
  leNat (b.take 4) == 0x5047414C && crc32c (b.take 4092) == leNat (b.drop 4092)
def NonVol.slotSeq (n : NonVol) (k : Nat) : Nat := leNat ((n.slotBytes k 8).drop 4)

/-- The valid slot with the highest SEQ. -/
def NonVol.newest (n : NonVol) : Option Nat :=
  ((List.range 32).filter n.slotValid).foldl (fun b k =>
    match b with
    | none => some k
    | some j => if n.slotSeq j < n.slotSeq k then some k else some j) none

/-- The ring is read at firmware start: the newest record, torn slots, the note of a record that was not written. -/
def State.readRing (s : State) : State :=
  let n := s.nv
  let torn := (List.range 32).any fun k => !n.slotErased k && !n.slotValid k
  let new := n.newest
  let seq := match new with | some k => n.slotSeq k | none => 0
  let s := { s with gasp := { s.gasp with newest := new, seq := seq } }
  let s := ((s.setVal .pwrLgSeq (BitVec.ofNat 32 seq)).flag .pwrLog 4 torn).flag .pwrLog 3 s.nv.note
  { s with nv := { s.nv with note := false } }

/-- A port's lanes and dimension (R417); a dimension that a remap gave lasts until device reset (R307). -/
def State.imagePort (s : State) (i : ImageInfo) (p : Nat) : State :=
  let x := (i.lanes.getD p 0).toNat
  let l := laneList x
  if l.isEmpty then s
  else
    let s := (s.put (.lnkPortMap p) 10 10 (b2n (bits x 71 36 != 0))).put (.lnkPortMap p) 9 5 l.length
    if s.get (.lnkPortMap p) 4 4 = 1 then s else s.put (.lnkPortMap p) 3 0 (recDim x)

/-- The sections go to their registers (R417, R419). -/
def State.applyImage (s : State) (i : ImageInfo) : State :=
  let s := ((s.put .lnkVertexStatus 11 0 i.coord).put .lnkVertexStatus 15 12 (i.ndim - 1)).put .lnkVertexStatus 16 16 (b2n i.twisted)
  let s := (List.range 12).foldl (fun s p => s.imagePort i p) s
  let s := ((s.put .pwrCap 10 0 i.capW).put .pwrCap 26 16 i.pwrcapW)
  let s := ((s.put .pwrSlew 6 0 i.slew).put .pwrSlew 26 16 i.capMaxW)
  let s := ((s.put .bootStatus 23 22 i.testPort).put .bootStatus 21 21 (b2n i.svnCommit)).put .bootStatus 20 20 (b2n i.recoveryEnter)
  let s := (s.put .bootStatus 13 8 i.svn).put .bootStatus 7 7 s.boot.source
  (s.applyDefaults fun k => i.defaults.getD k 0).getD s

/-- FIRMWARE_START. After recovery the NVM is neither read nor written (R425). -/
def execFirmwareStart (s : State) : Host.Outcome State Fault Refusal :=
  match s.boot.image with
  | none => .next s
  | some i =>
    if !s.booting || s.boot.phase ≠ 4 then .next s
    else
      let s := s.applyImage i
      let s := if s.boot.source = 0 && !s.pins.nvmRel then s.readRing else s
      let s := s.flag .pwrLog 3 s.gasp.skipped
      .next { s with gasp := { s.gasp with skipped := false }, pins := { s.pins with apexHb := true }
                     boot := { s.boot with phase := 5, apexRun := true } }

/-- Captures of the error log (R446), while every bit of ERR_HW_LOG is clear. -/
def State.hwWhere (s : State) (src off : Nat) : List (Reg × Nat × Nat × Nat) :=
  if (s.val .errHwLog &&& 0x7F) = 0 then
    [(.errHwWhere false, 31, 0, off % 2 ^ 32), (.errHwWhere true, 15, 0, off / 2 ^ 32 % 2 ^ 16), (.errHwWhere true, 31, 24, src)]
  else []

/-- Sets a bit of ERR_HW_LOG; the collection of errors stops with the apex cores (R430). -/
def State.hwLog (s : State) (b src off : Nat) : State :=
  if s.boot.apexRun then s.setWz .errHwLog b (s.hwWhere src off) else s

/-- FAILED and UNIT_FAIL (R444). -/
def State.markFailed (s : State) (u : Nat) : State := (s.setUnit u { s.unit u with failed := true }).hwLog 6 u 0

/-- HBM_TRAINING (R420): every stack is trained and filled with zeros, or fails. -/
def execHbmTraining (failed : List StackId) (s : State) : Host.Outcome State Fault Refusal :=
  if !s.booting || s.boot.phase ≠ 5 then .next s
  else
    let s := (List.range 12).foldl (fun (s : State) t =>
      let u := uStack t
      if (failed.map fun x => x.val).contains t then s.markFailed u
      else if (s.unit u).failed || !s.unitEn u then s
      else (s.rampClear u).setUnit u { s.unit u with st := .on }) s
    .next { s with boot := { s.boot with phase := 6 } }

/-- PCIE_READINESS: Request Retry Status ends, and link training starts. -/
def execPcieReadiness (s : State) : Host.Outcome State Fault Refusal :=
  if !s.booting || s.boot.phase ≠ 6 then .next s
  else .next ({ s with boot := { s.boot with phase := 7, pcieReady := true } }.startLinks)

/-- LINK_DISCOVERY: every port has left training and handshake; the time root is known (R312). -/
def execLinkDiscovery (s : State) : Host.Outcome State Fault Refusal :=
  if !s.booting || s.boot.phase ≠ 7 || !s.discDone then .next s
  else .next ({ s with boot := { s.boot with phase := 8 } }.reroute.relink true)

/-- READY: units and partitions whose ENABLE is 1 ramp. -/
def execReady (s : State) : Host.Outcome State Fault Refusal :=
  if !s.booting || s.boot.phase ≠ 8 || s.boot.ready then .next s
  else
    let s := { s with boot := { s.boot with ready := true } }
    let s := (List.range 52).foldl State.settleUnit s
    .next (parts32.foldl State.settlePart s)

/-- Erases a sector of the ring. -/
def NonVol.eraseSector (n : NonVol) (k : Nat) : NonVol :=
  { n with nvm := n.nvm.filter fun x => outside (n.reserved + 65536 * k) (n.reserved + 65536 * k + 65536) x.1 }

/-- LAST_GASP_ARM (R439): the slot after the newest valid record; if it is not erased, the first slot of the sector
that does not hold that record, which is erased where it has to be. The ring takes the note of a record that was not written. -/
def execLastGaspArm (s : State) : Host.Outcome State Fault Refusal :=
  if !s.awake || !s.boot.ready || s.gasp.armed.isSome || s.gasp.program.isSome || s.pins.nvmRel || s.boot.source ≠ 0 || !s.boot.nvmOk || !s.boot.apexRun
  then .next s
  else
    let n := { s.nv with note := s.nv.note || s.gasp.skipped }
    let new := n.newest
    let next := match new with | some k => (k + 1) % 32 | none => 0
    let other := match new with | some k => if k < 16 then 1 else 0 | none => 1
    let slot := if n.slotErased next then next else 16 * other
    .next { s with nv := if n.slotErased slot then n else n.eraseSector other
                   gasp := { s.gasp with armed := some slot, skipped := false } }

/-! PCI Express (R374, R420). -/

/-- The link is up; it answers requests beyond configuration. -/
def State.pcieUp (s : State) : Bool := s.awake && !s.pins.perst && s.clocks.pcie
def State.answers (s : State) : Bool := s.pcieUp && (s.boot.pcieReady || s.boot.recovery)

/-- PERST_ASSERT: the interface is reset; after Ready it is a Function Level Reset of the PF. -/
def execPerstAssert (s : State) : Host.Outcome State Fault Refusal :=
  let s := { s with pins := { s.pins with perst := true } }
  if !s.awake then .next s
  else if s.boot.ready then .next (s.flr 0) else .next { s with fns := [] }

/-- PERST_RELEASE: the link trains (R374, R420). -/
def execPerstRelease (s : State) : Host.Outcome State Fault Refusal :=
  .next (({ s with pins := { s.pins with perst := false } }).trainPcie)

/-- PCIE_CONFIG_REQUEST: Request Retry Status until readiness; in recovery only the PF answers (R424). One that completes sets the
size of BAR4 (R375). -/
def execPcieConfigRequest (r : CfgRequest) (s : State) : Host.Outcome State Fault Refusal :=
  if !s.pcieUp || (s.boot.recovery && r.fn.val != 0) then .next s
  else
    let s := { s with out := { s.out with retry := !s.answers } }
    match r.barSize with
    | some k => .next (if s.answers then s.setFn r.fn { s.fn r.fn with barLog := 30 + k.val } else s)
    | none => .next s

/-! Recovery (R424, R425). -/

/-- A register of logs, captures and counters alone: a log bit stays until software writes 0 to it (R95, R314), a counter is
cleared by device reset or an event that its own rule names (R402), and entry to recovery is neither. -/
def Reg.record (r : Reg) : Bool := r.fields.all fun x => x.2.2 == .wz || x.2.2 == .ro || x.2.2 == .rk

/-- Registers of the PF that entry to recovery keeps, by offset: those of the PCIe interface and its messages, the identity, the error
log, the boot and trust block, every log and counter, and a port's map that a remap has changed (R307). -/
def keptReg (off : Nat) (c : RegCell) : Bool :=
  match regAt 0 off with
  | none => false
  | some (.lnkPortMap _) => (vote c.a c.b c.c).getLsbD 4
  | some r =>
    r.record || decide (off < 0x2000) || (decide (0x00A0_0000 ≤ off) && decide (off < 0x00A1_0000)) ||
      (decide (0x00A8_0000 ≤ off) && decide (off < 0x00C0_0000))

/-- Entry to recovery by request is allowed. -/
def State.mayRecover (s : State) : Bool :=
  s.get .bootStatus 20 20 == 1 && parts32.all fun p => (s.part p).st == .off

/-- Of the ports their removed lanes (R284), and of the units that they have failed. -/
def lostPorts (l : SMap Port) : SMap Port :=
  l.filterMap fun x => (if x.2.lost.isEmpty then none else some { port0 with lost := x.2.lost }).map fun y => (x.1, y)
def failedUnits (l : SMap Lc) : SMap Lc :=
  l.filterMap fun x => (if x.2.failed then some { lc0 with failed := true } else none).map fun y => (x.1, y)

/-- Entry to recovery: every unit is reset, every link goes down, and the test port is as under TEST_PORT 0 (R420). What lasts until
device reset lasts here too: logs and counters (R402), the beat counters (R53), FAILED (R451), lanes removed and maps changed
(R284, R307). The board's lands stand as they stood: a freeze that FREEZE_N asks for goes on, and a power warning
(DEDUCED, notes/assumptions/40.md). -/
def State.enterRecovery (s : State) : State :=
  let t : State := { s.cold with
    beats := s.beats, active := s.active
    regs := s.regs.filter fun x => keptReg x.1 x.2
    fns := s.fns.filter fun x => x.1 == 0
    ports := lostPorts s.ports
    gasp := { State.reset.gasp with skipped := s.gasp.skipped, program := s.gasp.program }
    power := { State.reset.power with warnStop := s.power.warnStop }
    pins := { s.pins with apexHb := false }
    freeze := if s.pins.freeze then s.freeze else State.reset.freeze
    units := failedUnits s.units
    boot := { s.boot with phase := 15, recovery := true, going := false, ready := false, apexRun := false, verified := false,
                          recBuf := [] } }
  t.put .bootStatus 23 22 0

/-- RECOVERY_GO: verification of the buffer starts. -/
def State.recoveryGo (s : State) : State :=
  if s.boot.recovery then { s with boot := { s.boot with going := true } } else s

/-- RECOVERY_VERIFY_DONE: boot goes on at firmware start with SOURCE 1, or RECOV_FAIL is set. -/
def execRecoveryVerifyDone (s : State) : Host.Outcome State Fault Refusal :=
  if !s.booting || !s.boot.recovery || !s.boot.going || !s.boot.idDone then .next s
  else
    let r := rd s.boot.recBuf
    match imVerify s.nv true (s.get .recovCtrl 27 12 * 4096) r with
    | 0 =>
      .next { s with boot := { s.boot with going := false, recovery := false, verified := true, source := 1, phase := 4
                                           image := some (imInfo r), apexMem := imCode r } }
    | c =>
      let s := s.setWz .imageLog 1 [(.imageLog, 15, 8, c)]
      .next { s with boot := { s.boot with going := false } }

/-! The NVM port (R415, R463). -/

/-- NVM_RECLAIM: RELEASE is 0 and NVM_BOARD_N has been high for 10 µs; the SFDP tables are read again. -/
def execNvmReclaim (boardHigh : NvmReturn) (s : State) : Host.Outcome State Fault Refusal :=
  if !s.awake || !s.pins.nvmRel || s.get .nvmCtrl 0 0 ≠ 0 || !boardHigh.high then
    .next { s with pins := { s.pins with nvmBoard := !boardHigh.high } }
  else .next ({ s with pins := { s.pins with nvmRel := false, nvmBoard := false } }.readSfdp boardHigh.device)

/-! Fuses (R426 to R428). -/

/-- The owner hash written by the host. -/
def State.ownerHashValue (s : State) : BitVec 512 :=
  BitVec.ofNat 512 (leNat ((List.range 16).flatMap fun i => natLe 4 (s.val (.ownerHash i)).toNat))

/-- A fuse command as it starts: whether it is allowed, and what it is to burn. -/
def State.fuseCommit (s : State) (value : Nat) : State :=
  let ok := s.get .bootStatus 21 21 == 1 && decide (s.nv.svn ≤ value) && decide (value ≤ s.get .bootStatus 13 8)
  { s with boot := { s.boot with fuse := 1, fuseOk := ok, fuseSvn := value } }
def State.fuseOwner (s : State) : State :=
  let h := s.ownerHashValue
  let ok := !s.nv.owned && (s.nv.ownerHash &&& ~~~h) == 0
  { s with boot := { s.boot with fuse := 2, fuseOk := ok, fuseHash := h } }

/-- FUSE_DONE: BUSY, OP and KEY clear; a command that failed sets BURN_FAIL, and has burned a part or nothing. -/
def execFuseDone (failed : Bool) (s : State) : Host.Outcome State Fault Refusal :=
  if !s.awake || s.boot.fuse = 0 then .next s
  else
    let bad := failed || !s.boot.fuseOk
    let s := if failed then s.partBurned else s.burned
    let s := { s with boot := { s.boot with fuse := 0, fuseOk := false } }
    .next (((s.put .fuseCtrl 19 18 0).put .fuseCtrl 31 24 0).flag .imageLog 2 bad)

/-! Attestation (R423). -/

/-- Whether the mailbox answers; it refuses attestation where the identity is bad (R422). -/
def State.attests (s : State) : Bool := s.answers && !s.boot.idBad
def State.answerDoe (s : State) (b : List Byte) : State := { s with out := { s.out with doe := b } }

/-- DOE_DISCOVERY: vendor, type and next index of an entry, as PCI Express lays them out. -/
def execDoeDiscovery (index : Nat) (s : State) : Host.Outcome State Fault Refusal :=
  if !s.answers then .next s
  else
    let v := Config.calaisaVendor.toNat
    .next (s.answerDoe (match index with
      | 0 => natLe 2 1 ++ natLe 1 0 ++ natLe 1 1
      | 1 => natLe 2 v ++ natLe 1 1 ++ natLe 1 2
      | 2 => natLe 2 v ++ natLe 1 2 ++ natLe 1 0
      | _ => natLe 2 0xFFFF ++ natLe 1 0 ++ natLe 1 0))

/-- GET_CERT. -/
def execGetCert (s : State) : Host.Outcome State Fault Refusal :=
  if !s.answers then .next s else .next (s.answerDoe (if s.attests then s.nv.cert else []))

/-- Bytes 0 to 271 of the report. -/
def State.reportBytes (s : State) (nonce : BitVec 256) : List Byte :=
  let i := s.boot.image
  let f := fun (g : ImageInfo → List Byte) (n : Nat) => match i with | some x => g x | none => List.replicate n 0
  natLe 4 1 ++ natLe 4 (s.val .bttId).toNat ++ natLe 8 s.nv.serial.toNat ++ natLe 32 nonce.toNat ++
    f (fun x => natLe 4 x.fwVer.toNat) 4 ++ f (fun x => natLe 4 x.svn) 4 ++ natLe 4 s.nv.svn ++ natLe 1 (b2n s.nv.owned) ++
    natLe 1 (if i.isNone then 0xFF else s.boot.source) ++ f (fun x => natLe 2 x.sections) 2 ++ f (fun x => x.digest) 64 ++
    f (fun x => x.signer) 64 ++ f (fun x => x.planHash) 64 ++ natLe 4 Config.romVersion.toNat ++ natLe 4 0 ++ natLe 8 s.time.toNat

/-- GET_REPORT. -/
def execGetReport (nonce : BitVec 256) (s : State) : Host.Outcome State Fault Refusal :=
  if !s.answers then .next s
  else
    let b := s.reportBytes nonce
    .next (s.answerDoe (if s.attests then b ++ falconSig s.nv.secret b else []))

end Sys2Proof.Machine
end

