-- ==== Sys2Proof/Machine/Live.lean ====
section
/-! DEFINITION. What a host read of a register shows: the stored fields and the live ones, which show the present
state of their cause (R398; spec/17_power_and_faults.md R446, R451, and the register tables of every chapter). -/

namespace Sys2Proof.Machine

/-- The code of a lifecycle state (R451, R382). -/
def lcCode : LcSt → Nat
  | .off => 0
  | .ramping => 1
  | .on => 2
  | .draining => 3

/-- STATE of a unit; a port's state maps as R310 says. -/
def State.unitSt (s : State) (u : Nat) : LcSt :=
  if u < 52 then (s.unit u).st
  else
    match (s.port (u - 52)).st with
    | .off => .off
    | .up => .on
    | .draining => .draining
    | _ => .ramping

/-- STATE, REARM and FAILED of PWR_LC_u, and STATE and REARM of HST_PART_CTRL. -/
def State.lcLive (s : State) (u : Nat) : Nat :=
  let l := s.unitSt u
  let f := (s.unit u).failed
  lcCode l + 4 * b2n (l == .draining && s.unitEn u && !f) + 8 * b2n f
def State.partLive (s : State) (p : Nat) : Nat :=
  let l := (s.part p).st
  lcCode l + 4 * b2n (l == .draining && s.partEn p)

/-- The code of a port's state. -/
def portCode : PortSt → Nat
  | .off => 0
  | .training => 1
  | .up => 2
  | .absent => 3
  | .disabled => 4
  | .quarantined => 5
  | .draining => 6

/-- LNK_PORT_STATUS. Only a port that drives its lanes has any in service (R308). -/
def State.portLive (s : State) (p : Nat) : Nat :=
  let q := s.port p
  let inUse := q.st == .up || q.st == .disabled || q.st == .draining || (q.st == .training && q.trained)
  portCode q.st + 8 * (if inUse then q.lanes.length else 0) + 256 * (if q.st = .up then q.version else 0) +
    4096 * (match q.peer with | some h => h.coord | none => 0)

/-! The error log (R446). -/

/-- Whether a WZ bit of a register is set. -/
def State.wzSet (s : State) (r : Reg) : Bool := (s.val r &&& r.mask .wz) != 0

/-- Whether any queue's log holds a bit: the logs that are listed. -/
def State.queueLogs (s : State) : Bool :=
  s.regs.any fun x =>
    decide (0x00A1_0000 ≤ x.1) && decide (x.1 < 0x00A5_0000) && (x.1 - 0x00A1_0000) % 64 == 0x24 &&
      s.wzSet (.qLog ((x.1 - 0x00A1_0000) / 64))

/-- The registers of a group of the catalogue; queue logs stand apart. -/
def errGroup : Nat → List Reg
  | 0 => (List.range 24).flatMap fun f => [.fctFaultLog f, .fctNumLog f, .fctQLog f, .fctVLog f, .fctAttLog f]
  | 1 => (List.range 12).map .memLog
  | 2 => [.nmhLog 0, .nmhLog 1]
  | 3 => (List.range 12).map .lnkPortLog
  | 4 => [.merLog]
  | 5 => [.chdLog 0, .chdLog 1]
  | 6 => (List.range 12).map .codLog
  | 7 => [.tceLog 0, .tceLog 1]
  | 8 => [.hstLog]
  | 9 => [.imageLog]
  | 10 => [.pwrLog]
  | 11 => [.secLog]
  | 12 => [.errRegLog]
  | 13 => [.errHwLog]
  | _ => []

/-- ERR_SUMMARY. -/
def State.groupSet (s : State) (n : Nat) : Bool := ((errGroup n).any fun r => s.wzSet r) || (n == 8 && s.queueLogs)
def State.summary (s : State) : Nat := (List.range 14).foldl (fun w n => w + 2 ^ n * b2n (s.groupSet n)) 0

/-- The register mirrored at an offset of the block; none between them and at the queue words. -/
def mirrored (o : Nat) : Option Reg :=
  if 0x100 ≤ o ∧ o < 0x2E0 then
    let f := (o - 0x100) / 0x14
    match (o - 0x100) % 0x14 / 4 with
    | 0 => some (.fctFaultLog f)
    | 1 => some (.fctNumLog f)
    | 2 => some (.fctQLog f)
    | 3 => some (.fctVLog f)
    | _ => some (.fctAttLog f)
  else if 0x300 ≤ o ∧ o < 0x330 then some (.memLog ((o - 0x300) / 4))
  else if 0x330 ≤ o ∧ o < 0x338 then some (.nmhLog ((o - 0x330) / 4))
  else if 0x340 ≤ o ∧ o < 0x370 then some (.lnkPortLog ((o - 0x340) / 4))
  else if o = 0x370 then some .merLog
  else if 0x374 ≤ o ∧ o < 0x37C then some (.chdLog ((o - 0x374) / 4))
  else if 0x380 ≤ o ∧ o < 0x3B0 then some (.codLog ((o - 0x380) / 4))
  else if 0x3B0 ≤ o ∧ o < 0x3B8 then some (.tceLog ((o - 0x3B0) / 4))
  else
    match o with
    | 0x3C0 => some .hstLog
    | 0x3C4 => some .imageLog
    | 0x3C8 => some .pwrLog
    | 0x3CC => some .secLog
    | 0x3D0 => some .errRegLog
    | 0x3D4 => some .errHwLog
    | _ => none

/-- A word of the mirror. -/
def State.mirror (s : State) (o : Nat) : Word :=
  if 0x400 ≤ o ∧ o < 0x600 then
    let k := (o - 0x400) / 4
    BitVec.ofNat 32 ((List.range 32).foldl (fun w i => w + 2 ^ i * b2n (s.val (.qLog (32 * k + i)) != 0)) 0)
  else
    match mirrored o with
    | some r => s.val r
    | none => 0

/-! The last-gasp window (R440). -/

/-- A word of the newest record found at boot. -/
def State.gaspWord (s : State) (o : Nat) : Nat :=
  match s.gasp.newest with
  | none => 0
  | some k => leNat ((List.range 4).map fun i => nvRd s.nv.nvm (s.nv.slotAt k + s.get .pwrLgSel 0 0 * 2048 + o + i))

/-! The sequence-table window (R199). -/

/-- Byte offset in the table of a word of the window. -/
def State.seqAt (s : State) (fn o : Nat) : Nat := s.get (.seqWindow fn) 5 0 * 65536 + o

/-- Whether a function sees an entry: through a VF, those of its own partition. -/
def State.seqSees (s : State) (fn o : Nat) : Bool :=
  fn == 0 || (rd s.seqTab (s.seqAt fn o / 64 * 64 + 37)).toNat % 32 == fn

/-! The live fields. -/

/-- Open contexts of a chord engine, and whether partition p has one. -/
def State.ctxOpened (s : State) (e p : Nat) : Bool :=
  match s.ctx e p with
  | some c => c.opened
  | none => false

/-- CHD_PREEMPT_DONE (R340). -/
def State.preempted (s : State) (e : Nat) : Nat :=
  parts32.foldl (fun w p => w + 2 ^ p * b2n ((s.val (.chdPreemptReq e)).getLsbD p && !s.ctxOpened e p)) 0

/-- COD_STATUS and TCE_STATUS: of the jobs in a thin-channel engine, the running one is that of the partition it served last, or
else the first (DEDUCED from R35, notes/assumptions/64.md). -/
def State.codLive (s : State) (c : Nat) : Nat :=
  let k := s.codec c
  let slots := (List.range 4).foldl (fun w i => w + 2 ^ i * b2n (tget k.slots none i).isSome) 0
  b2n (isDecoder c) + (match k.job with | some j => 2 + 4 * fld j.record 325 324 | none => 0) + 16 * slots +
    256 * (s.codecPart c).getD 0
def State.tceLive (s : State) (e : Nat) : Nat :=
  match ((s.tce e).served.bind (s.thinJob e)).or (s.tce e).jobs.head? with
  | some j => 32 + j.part
  | none => 0

/-- FCT_STATUS. -/
def State.fctLive (s : State) (f : Nat) : Nat :=
  match (s.facet f).run with
  | none => 0
  | some r =>
    r.pc % 65536 + 2 ^ 16 + 2 ^ 17 * b2n r.waiting.isSome + 2 ^ 18 * b2n r.control.isSome + 2 ^ 19 * b2n r.array.isSome +
      2 ^ 20 * b2n r.vector.isSome + 2 ^ 21 * b2n r.mover.isSome

/-- One word of a 64-bit value. -/
def wordOf (v : Nat) (hi : Bool) : Nat := if hi then v / 2 ^ 32 else v

/-- BTT_GSTATUS. -/
def State.gstatus (s : State) : Nat :=
  b2n s.boot.ready + 2 * b2n s.boot.recovery + 4 * b2n (s.freeze.frozen && !s.freeze.full) + 8 * b2n s.degraded +
    16 * b2n (s.summary != 0) + 32 * b2n (s.units.any fun x => x.2.failed && s.unitSt x.1 == .off)

/-- What a register's live and derived fields show to function fn; 0 in every other bit. -/
def State.liveOf (s : State) (fn : Nat) (r : Reg) : Nat :=
  match r with
  | .bttSerial hi => wordOf s.nv.serial.toNat hi
  | .bttFwVer => if s.boot.verified then (match s.boot.image with | some i => i.fwVer.toNat | none => 0) else 0
  | .bttGstatus => s.gstatus
  | .errSummary => s.summary
  | .errMirror o => (s.mirror o).toNat
  | .pwrStatus =>
    16 * b2n s.power.therm + 32 * b2n s.power.slewing + 64 * b2n s.power.gating + 128 * b2n s.pins.pwrcap +
      256 * b2n s.pins.pwrwarn + 512 * b2n s.gasp.armed.isSome
  | .pwrPower => s.power.powerW + 2 ^ 16 * s.power.tjMax
  | .pwrVcore => leNat (s.power.vcore.map fun v => BitVec.ofNat 8 (v / 2))
  | .pwrBeat h hi => wordOf (tget s.beats 0 (24 + h)) hi
  | .pwrLgWindow o => s.gaspWord o
  | .pwrLc u => s.lcLive u
  | .merTime hi => wordOf s.time.toNat hi
  | .merStatus =>
    b2n s.synced + 2 * b2n s.meridian.root + 4 * s.meridian.parentDim + 64 * s.meridian.depth + 2 ^ 16 * s.meridian.rootCoord
  | .secStatus => b2n s.freeze.readout + 2 * b2n s.freeze.full + (if s.freeze.frozen then 8 else 0)
  | .partCtrl p => s.partLive p
  | .seqWord o => if s.seqSees fn o then rdNat s.seqTab (s.seqAt fn o) 4 else 0
  | .ctrValue n => (s.counter n).toNat
  | .fctStatus f => s.fctLive f
  | .fctBeat f hi => wordOf (tget s.beats 0 f) hi
  | .fctActive f hi => wordOf (tget s.active 0 f) hi
  | .memStatus t =>
    let m := s.memCtl t
    2 ^ 12 * b2n m.selfRefresh + 2 ^ 13 * b2n m.throttle + 2 ^ 14 * m.refresh + 2 ^ 16 * m.temp
  | .memGran g => 2 ^ 14 * b2n (s.granProc g).flush + 2 ^ 15 * b2n (s.granProc g).scrub
  | .nmhStatus h => s.freeUnits h + 2 ^ 16 * b2n (parts32.any fun p => decide (64 ≤ s.heldOf p h))
  | .nmhOcc p => s.occupancy p
  | .lnkPortStatus p => s.portLive p
  | .lnkVertexStatus => 2 ^ 17 * b2n s.degraded + 2 ^ 18 * b2n s.discDone
  | .chdStatus e => (parts32.filter fun p => s.ctxOpened e p).length
  | .chdPreemptDone e => s.preempted e
  | .codStatus c => s.codLive c
  | .tceStatus e => s.tceLive e
  | .hstLink => if s.pcieUp then s.link.rate + 8 * s.link.width else 0
  | .msixPending f o => (List.range 32).foldl (fun w i => w + 2 ^ i * b2n ((s.fn f).held.contains (8 * o + i))) 0
  | .bootStatus => s.boot.phase
  | .nvmCtrl => 2 * b2n s.pins.nvmRel
  | .fuseCtrl => b2n (s.boot.fuse != 0)
  | _ => 0

/-- What the test port has put into a register's reserved bits (R400): nothing before its first use (DESIGN CHOICE,
notes/assumptions/46.md). -/
def State.testBits (s : State) (r : Reg) : Word := if s.tests = 0 then 0 else Config.testControl s.tests r.key &&& r.mask .rk

/-- The value a read through function fn returns, before reach and readiness. -/
def State.readVal (s : State) (fn : Nat) (r : Reg) : Word := s.val r ||| BitVec.ofNat 32 (s.liveOf fn r) ||| s.testBits r

end Sys2Proof.Machine
end

