-- ==== Sys2Proof/Machine/Power.lean ====
section
/-! DEFINITION. The power governor, power failure, trips, stack temperatures, reference clocks, section capture, the TAP and the
passing of time (spec/17_power_and_faults.md R432 to R442, R447 to R450; spec/10_memory.md R255, R256; spec/18_package.md R460 to
R464; spec/02_beats_and_blocking.md R49 to R54). -/

namespace Sys2Proof.Machine

/-! The governor (R432 to R435). -/

/-- A rail's step toward its target within 1 µs: at most 12.5 mV, in units of 2.5 mV. -/
def railStep (v target : Nat) : Nat := if v < target then min (v + 5) target else max (v - 5) target
/-- The rails after a step; one whose target write receives no valid response stays as it was (R457). -/
def railsAfter (silent : List Nat) (target : Nat) (vcore : List Nat) : List Nat :=
  (vcore.zipIdx).map fun x => if silent.contains x.2 then x.1 else railStep x.1 target

/-- The code the limits allow (R433), from the readings' highest codes. -/
def State.railLimit (s : State) (r : GovernorReading) : Nat :=
  let cap := if s.pins.pwrcap || s.pins.pwrwarn then r.pwrcapCode else 255
  min (min (s.get .pwrVtarget 7 0) r.capCode) (min cap r.thermCode)

/-- Whether one limit alone lowers a rail: it is the lowest, below PWR_VTARGET, and a rail stands above it. -/
def State.lowers (s : State) (r : GovernorReading) (code : Nat) : Bool :=
  code == s.railLimit r && decide (code < s.get .pwrVtarget 7 0) &&
    s.power.vcore.zipIdx.any fun x => !r.silent.contains x.2 && decide (2 * max code 110 < x.1)

/-- GOVERNOR_STEP. Telemetry stops with the apex cores (R430). -/
def execGovernorStep (r : GovernorReading) (s : State) : Host.Outcome State Fault Refusal :=
  if !s.awake || s.halted || s.boot.phase < 5 || s.boot.recovery then .next s
  else
    let s := s.useNow [.pwrVtarget, .pwrCap, .pwrSlew]
    let limit := s.railLimit r
    let hit := s.lowers r r.capCode || (r.unmet && r.capCode == limit)
    let therm := s.lowers r r.thermCode
    let p := s.power
    let tele := s.boot.apexRun
    let s := { s with power := { p with
      vcore := railsAfter r.silent (2 * max limit 110) p.vcore
      gating := r.unmet
      slewing := r.slewing
      therm := r.thermCode == limit && decide (r.thermCode < s.get .pwrVtarget 7 0)
      powerW := if tele then r.powerW.toNat else p.powerW
      tjMax := if tele then r.tjMax.toNat else p.tjMax } }
    .next ((s.flag .pwrLog 0 hit).flag .pwrLog 2 therm)

/-- PWRCAP_ASSERT and PWRCAP_RELEASE (R434): the level is the governor's. -/
def execPwrcapAssert (s : State) : Host.Outcome State Fault Refusal :=
  let s := { s with pins := { s.pins with pwrcap := true } }
  .next (s.flag .pwrLog 1 s.awake)
def execPwrcapRelease (s : State) : Host.Outcome State Fault Refusal :=
  .next { s with pins := { s.pins with pwrcap := false } }

/-! The last-gasp record (R436, R439, R440). -/

/-- The first 2 KiB of the error-log block. -/
def State.logBytes (s : State) : List Byte :=
  (List.range 512).flatMap fun k =>
    natLe 4 (match regAt 0 (0x1000 + 4 * k) with | some r => (s.readVal 0 r).toNat | none => 0)

/-- A claimed item: its queue, WSEQ, gang index and whether it runs. -/
structure Claim where
  queue : Nat
  wseq : Nat
  gang : Nat
  running : Bool
  deriving DecidableEq, Repr

/-- What is claimed. -/
def State.claims (s : State) : List Claim :=
  (s.facets.flatMap fun x =>
    (match x.2.run with
     | some r => [{ queue := r.cl.queue, wseq := r.cl.wseq.toNat, gang := r.cl.gang, running := true }]
     | none => []) ++
    (match x.2.next with
     | some c => [{ queue := c.queue, wseq := c.wseq.toNat, gang := c.gang, running := false }]
     | none => [])) ++
  (s.codecs.flatMap fun x =>
    match x.2.job with
    | some j => [{ queue := j.queue, wseq := j.wseq.toNat, gang := 0, running := j.started }]
    | none => []) ++
  (s.tces.flatMap fun x => x.2.jobs.map fun j => { queue := j.queue, wseq := j.wseq.toNat, gang := 0, running := j.started })

/-- In ascending queue order, then ascending WSEQ. -/
def insClaim (x : Claim) : List Claim → List Claim
  | [] => [x]
  | y :: t => if x.queue < y.queue ∨ (x.queue = y.queue ∧ x.wseq ≤ y.wseq) then x :: y :: t else y :: insClaim x t
def State.inFlight (s : State) : List Claim := s.claims.foldr insClaim []

/-- A list of bytes cut or filled with zeros to a length. -/
def padTo (n : Nat) (l : List Byte) : List Byte := (l ++ List.replicate (n - l.length) 0).take n

/-- The record: `cause` is its CAUSE field. -/
def State.gaspRecord (s : State) (cause : Nat) : List Byte :=
  let l := s.inFlight
  let seq := match s.nv.newest with | some k => s.nv.slotSeq k | none => 0
  let fw := match s.boot.image with | some i => i.fwVer.toNat | none => 0
  let head := natLe 4 0x5047414C ++ natLe 4 (seq + 1) ++ natLe 8 s.time.toNat ++ natLe 4 cause ++ natLe 4 fw ++
    natLe 4 l.length ++ natLe 36 0
  let items := l.flatMap fun x => natLe 4 x.wseq ++ natLe 2 x.queue ++ natLe 1 x.gang ++ natLe 1 (b2n x.running)
  let b := head ++ s.logBytes ++ padTo 1968 items ++ natLe 12 0
  b ++ natLe 4 (crc32c b)

/-- Snapshot, and the start of Program: into the armed slot, or skipped. -/
def State.lastGasp (s : State) (cause : Nat) : State :=
  match s.gasp.armed with
  | none => { s with gasp := { s.gasp with skipped := true } }
  | some k =>
    if s.pins.nvmRel then { s with gasp := { s.gasp with skipped := true } }
    else { s with gasp := { s.gasp with armed := none, program := some { addr := s.nv.slotAt k, bytes := s.gaspRecord cause, since := s.time } } }

/-- Every stack enters, or leaves, self-refresh. -/
def State.selfRefresh (s : State) (b : Bool) : State :=
  (List.range 12).foldl (fun (s : State) t => s.setMemCtl t { s.memCtl t with selfRefresh := b }) s

/-- A request for a freeze in the scope of SEC_CTRL.SCOPE; while a record is programmed it waits until Check ends (R447). -/
def State.requestFreeze (s : State) : State :=
  if !s.awake then s
  else if s.gasp.program.isSome then { s with freeze := { s.freeze with due := true } }
  else
    let full := s.get .secCtrl 1 1 == 1
    let s := { s with freeze := { s.freeze with due := false } }
    if s.freeze.frozen then
      (if full then { s with freeze := { s.freeze with full := true } } else s)
    else
      let s := (s.flag .secLog 0 true).selfRefresh true
      { s with freeze := { frozen := true, full := full, readout := false, stamp := s.time } }

/-- Program and Check end: the record stands in its slot. -/
def State.endProgram (s : State) : State :=
  match s.gasp.program with
  | none => s
  | some g =>
    let s := { s with nv := { s.nv with nvm := nvProgram s.nv.nvm (cellsAt g.addr g.bytes) }, gasp := { s.gasp with program := none } }
    if s.freeze.due then s.requestFreeze else s

/-- They have ended once their bounds have passed: 1.2 ms and 20 µs after Snapshot (R436; DESIGN CHOICE, notes/assumptions/54.md). -/
def State.programTick (s : State) : State :=
  match s.gasp.program with
  | none => s
  | some g => if 1220000 ≤ (s.time - g.since).toNat then s.endProgram else s

/-- RELEASE = 1 (R415): the port completes its access and stops driving the lands. -/
def State.nvmRelease (s : State) : State := let s := s.endProgram; { s with pins := { s.pins with nvmRel := true } }

/-- PWRWARN_ASSERT (R436). -/
def execPwrwarnAssert (s : State) : Host.Outcome State Fault Refusal :=
  if s.pins.pwrwarn then .next s
  else
    let s := { s with pins := { s.pins with pwrwarn := true } }
    if !s.awake || s.halted then .next s
    else .next ({ s with power := { s.power with warnStop := true } }.lastGasp 0)

/-- PWRWARN_WITHDRAW (R438): Program and Check are completed first. -/
def execPwrwarnWithdraw (s : State) : Host.Outcome State Fault Refusal :=
  let s := { s with pins := { s.pins with pwrwarn := false } }
  if !s.awake || !s.power.warnStop then .next s
  else .next ({ s with power := { s.power with warnStop := false } }.flag .pwrLog 5 true).endProgram

/-- Whether a cause of R441 can name a source, and holds as far as the state says: a stack's temperature is what was read last. -/
def State.tripHolds (s : State) (cause source : Nat) : Bool :=
  match cause with
  | 1 => decide (source < 6)
  | 2 => decide (source < 12) && decide (110 < (s.memCtl source).temp)
  | 3 | 4 => decide (source < 4)
  | 5 => decide (source ≤ 12)
  | _ => false

/-- A trip (R442). The record is written if the management rail (index 11) and the NVM rail (12) are in range. -/
def State.trip (s : State) (cause source : Nat) : State :=
  if !s.awake || s.halted || !s.tripHolds cause source then s
  else
    let s := { s with halted := true, pins := { s.pins with trip := true } }
    let s := (s.put .pwrTrip 11 8 cause).put .pwrTrip 7 0 source
    if cause = 5 ∧ (source = 11 ∨ source = 12) then s else s.lastGasp (cause + 256 * source)
/-- TRIP. -/
def execTrip (cause : Fin 16) (source : BitVec 8) (s : State) : Host.Outcome State Fault Refusal := .next (s.trip cause source.toNat)

/-- APEX_STOP (R429, R430): an error in apex-core memory stops the cores, in boot too. -/
def State.stopApex (s : State) : State :=
  { s with boot := { s.boot with apexRun := false, apexDead := true }, pins := { s.pins with apexHb := false } }
def execApexStop (s : State) : Host.Outcome State Fault Refusal := .next (if s.pins.reset then s else s.stopApex)

/-! Refresh and temperature (spec/10_memory.md R255, R256). -/

/-- The refresh code after a reading. -/
def refreshAfter (old temp : Nat) : Nat :=
  if 96 ≤ temp then 2
  else if 86 ≤ temp then (if old = 2 ∧ 93 < temp then 2 else 1)
  else if temp ≤ 83 then 0
  else if old = 0 then 0 else 1

/-- STACK_TEMP_READ: a stack that drains or ramps is in service too (R452). A reading above 110 °C is a trip (R441). -/
def execStackTempRead (t : StackId) (temp : BitVec 8) (s : State) : Host.Outcome State Fault Refusal :=
  if !s.awake || s.halted || (s.unit (uStack t)).st == .off then .next s
  else
    let m := s.memCtl t
    let r := refreshAfter m.refresh temp.toNat
    let th := if 105 < temp.toNat then true else if temp.toNat ≤ 103 then false else m.throttle
    let s := s.setMemCtl t { m with temp := temp.toNat, refresh := r, throttle := th }
    .next (((s.flag (.memLog t) 0 (decide (m.refresh < r))).flag (.memLog t) 1 (th && !m.throttle)).trip 2 t)

/-- HBM_REFRESH: the interval has expired, and refresh waits at the controller's arbiters as class P0. -/
def execHbmRefresh (t : StackId) (s : State) : Host.Outcome State Fault Refusal :=
  let m := s.memCtl t
  if !s.awake || s.halted || m.selfRefresh || (s.unit (uStack t)).st == .off then .next s
  else .next (s.setMemCtl t { m with refreshDue := true })

/-! Reference clocks (R460). -/

/-- A port loses every lane (R284). -/
def State.loseLanes (s : State) (p : Nat) : State :=
  let q := s.port p
  if q.lanes.isEmpty || !(q.st == .up || q.st == .draining || q.st == .disabled || (q.st == .training && q.trained)) then s
  else ((s.setPort p { q with lanes := [], lost := q.lanes ++ q.lost }).flag (.lnkPortLog p) 1 true).portAbsent p

/-- REFCLK_LOSS. Without REFCLK_SYS the fabric holds as in a full section capture. -/
def execRefclkLoss (c : RefClock) (s : State) : Host.Outcome State Fault Refusal :=
  if s.pins.reset then .next s
  else
    match c with
    | .pcie => .next { s with clocks := { s.clocks with pcie := false } }
    | .vid => .next { s with clocks := { s.clocks with vid := false } }
    | .sys =>
      .next { s with clocks := { s.clocks with sys := false }, pins := { s.pins with apexHb := false }
                     freeze := { s.freeze with frozen := true, full := true } }
    | .opt =>
      let s := { s with clocks := { s.clocks with opt := false } }
      .next ((List.range 12).foldl State.loseLanes s)

/-! Section capture (R447 to R450). -/

/-- FREEZE_N_ASSERT. -/
def execFreezeNAssert (s : State) : Host.Outcome State Fault Refusal :=
  .next ({ s with pins := { s.pins with freeze := true } }.requestFreeze)

/-- A port after a thaw (R450): its neighbours have lost lock on it, and it trains afresh; a QUARANTINED one waits for its
release (R308). One that ENABLE or FAILED turns off, draining already or not, is OFF, since nothing is left to drain (R310,
R452); where they ask for it again it trains from there. -/
def State.thawPort (s : State) (p : Nat) : State :=
  match (s.port p).st with
  | .off | .quarantined => s.settlePort p
  | st =>
    if st != .draining && s.unitEn (uPort p) && !(s.unit (uPort p)).failed then
      (s.leaveUp p .training).trainPort p (s.portLanes p)
    else
      let s := s.leaveUp p .off
      (s.setPort p (s.port p).blank).settlePort p

/-- THAW (R450): FREEZE_N is deasserted; a core freeze ends when REQ is 0 and no read-out is in progress, and the
transitions that waited begin (R448). -/
def execThaw (s : State) : Host.Outcome State Fault Refusal :=
  let s := { s with pins := { s.pins with freeze := false } }
  if !s.awake || !s.freeze.frozen || s.freeze.readout || s.get .secCtrl 0 0 ≠ 0 then .next s
  else
    let s := ({ s with freeze := { s.freeze with frozen := false, full := false, readout := false } }).selfRefresh false
    let s := (List.range 52).foldl State.settleUnit s
    let s := parts32.foldl State.settlePart (s.use (parts32.map .partCtrl))
    .next ((List.range 12).foldl State.thawPort s)

/-! The TAP (R449, R464). Selecting another instruction ends a read-out (notes/assumptions/36.md). -/

/-- IDCODE. -/
def execIdcode (s : State) : Host.Outcome State Fault Refusal :=
  .next { s with out := { s.out with tap := [0x1E10_1987] }, freeze := { s.freeze with readout := false } }

/-- BYPASS: the one-bit register, which captures 0. -/
def execBypass (s : State) : Host.Outcome State Fault Refusal :=
  .next { s with out := { s.out with tap := [0] }, freeze := { s.freeze with readout := false } }

/-- A byte of near-memory bank b (R257): its granule of each unit in turn, for the units of tiles that near memory holds; the
others hold what is not specified. -/
def State.bankByte (s : State) (b a : Nat) : Byte :=
  let u := a / 256
  let piece := s.entries.findSome? fun x =>
    if halfOf x.1 = b / 32 ∧ (x.2.st == .near || x.2.st == .copy || x.2.st == .movingDown || x.2.st == .cleaning) then
      (x.2.units.findIdx? fun v => v == u).map fun j => x.1 + j * 8192
    else none
  match piece with
  | some o => rd s.mem (o + (b % 32 + 32 - u % 32) % 32 * 256 + a % 256)
  | none => Config.scanByte s.fresh (48 + b) a

/-- A region of the stream: its number of bytes and its bytes. -/
structure Region where
  size : Nat
  bytes : Nat → Byte

/-- The regions in table order (R449): the facet stores, the accumulator memories, the near-memory banks, the directories, the
sequence table, then the logic regions. The state holds the banks and the table; the others are free. -/
def State.regions (s : State) : List Region :=
  let free := fun (k n : Nat) => ({ size := n, bytes := Config.scanByte s.fresh k } : Region)
  ((List.range 24).map fun f => free f (8 * 2 ^ 20)) ++ ((List.range 24).map fun f => free (24 + f) (2 * 2 ^ 20)) ++
    ((List.range 64).map fun b => ({ size := 12 * 2 ^ 20, bytes := s.bankByte b } : Region)) ++
    ((List.range 2).map fun h => free (112 + h) (Config.scanLayout s.fresh (112 + h) 1)) ++
    [{ size := 4 * 2 ^ 20, bytes := rd s.seqTab }] ++
    (List.range (Config.scanLayout s.fresh 0 2)).map fun k => free (115 + k) (Config.scanLayout s.fresh (115 + k) 1)

/-- Bytes of the stream as its words of SEC_D, the lower byte first. -/
def secWords (b : List Byte) : List (BitVec 32) :=
  (List.range (cdiv b.length 2)).map fun i => BitVec.ofNat 32 (leNat ((b.drop (2 * i)).take 2))

/-- The header of the stream (notes/assumptions/17.md). -/
def State.sectionHeader (s : State) (regions : Nat) : List (BitVec 32) :=
  secWords (natLe 4 0x53454354 ++ natLe 8 s.freeze.stamp.toNat ++ natLe 4 (b2n s.freeze.full) ++ natLe 4 regions ++ natLe 44 0)

/-- What follows the header in a freeze: 16 bytes for each region, its identifier, which is free, and its length, then the
regions. -/
def State.sectionBody (s : State) : List (BitVec 32) :=
  let r := s.regions
  secWords ((List.range r.length).flatMap (fun k => natLe 8 (Config.scanLayout s.fresh k 0) ++ natLe 8 ((r.map Region.size).getD k 0)) ++
    r.flatMap fun x => (List.range x.size).map x.bytes)

/-- SECTION_READ (R449): answered under TEST_PORT 1 or 2. -/
def execSectionRead (s : State) : Host.Outcome State Fault Refusal :=
  let s := s.useNow [.bootStatus]
  if s.pins.reset || s.get .bootStatus 23 22 = 0 then .next s
  else if s.freeze.frozen then
    let tap := s.sectionHeader s.regions.length ++ s.sectionBody
    .next ({ s with out := { s.out with tap := tap }, freeze := { s.freeze with readout := true }, tests := s.fresh + 1 }.bump)
  else .next ({ s with out := { s.out with tap := s.sectionHeader 0 }, tests := s.fresh + 1 }.bump)

/-! Upsets and scrubs (R404 to R406). -/

/-- The stored bits of triplicated fields. -/
def Reg.triple (r : Reg) : Word := r.mask .rw3 ||| r.mask .ro3

/-- SINGLE_UPSET: one copy of a triplicated field's bit flips. -/
def execSingleUpset (offset : Nat) (copy : Fin 3) (b : Fin 32) (s : State) : Host.Outcome State Fault Refusal :=
  match regAt 0 offset with
  | none => .next s
  | some r =>
    let m : Word := BitVec.ofNat 32 (2 ^ b.val)
    if s.pins.reset || (r.triple &&& m) = 0 then .next s
    else
      let c := s.cell r
      .next (s.setCell r (match copy with
        | 0 => { c with a := c.a ^^^ m }
        | 1 => { c with b := c.b ^^^ m }
        | _ => { c with c := c.c ^^^ m }))

/-- TRIPLICATED_SCRUB: every triplicated register is read; only those that are listed can disagree. -/
def execTriplicatedScrub (s : State) : Host.Outcome State Fault Refusal :=
  if !s.awake || !s.boot.ready then .next s
  else .next (s.useNow (s.regs.filterMap fun x => (regAt 0 x.1).bind fun r => if r.triplicated then some r else none))

/-! Time. -/

/-- The core rail of a loop (R15, R49, R432): a facet's loop runs on VDD_P of its own prism; the halves' loops run on VDD_BASE,
which is fixed. -/
def State.loopRails (s : State) (k : Nat) : List Nat :=
  if k < 24 then [s.power.vcore.getD (prismOf k) 0] else []

/-- Beats of loop k in one ns (R47 to R49), at a rate that follows its supply and the junction's temperature: a facet's array
loop is halted while the facet is OFF, a half's loop runs from the end of boot. -/
def State.beat (s : State) (k : Nat) : State :=
  if (k < 24 ∧ (s.unit k).st = .off) ∨ (24 ≤ k ∧ s.boot.ready = false) then s
  else
    let now := s.limClock * 4000 + s.meridian.phase
    let n := Config.beats k (s.loopRails k) s.power.tjMax now
    let s1 := { s with beats := tset s.beats 0 k ((tget s.beats 0 k + n) % 2 ^ 64) }
    let busy : Bool := match (s.facet k).run with | some r => r.array.isSome | none => false
    if k < 24 ∧ busy then
      { s1 with active := tset s1.active 0 k ((tget s1.active 0 k + min n (Config.activeBeats k (s.loopRails k) s.power.tjMax now)) % 2 ^ 64) }
    else s1

/-- One ns passes (notes/assumptions/9.md): meridian time goes on in a core freeze, all else holds there. Limits count
meridian time (R10). -/
def State.pass (s : State) : State :=
  if !s.awake then s
  else
    let t := s.tickMeridian.programTick
    if !t.live then t
    else
      let n := (s.tickMeridian.time - s.time).toNat
      ((List.range 26).foldl State.beat { t with limClock := t.limClock + n }).xingTick.chordTurns.watchUnits.noteReady

end Sys2Proof.Machine
end

