-- ==== Sys2Proof/Machine/Faults.lean ====
section
/-! DEFINITION. ECC errors and failures in service (spec/17_power_and_faults.md R443, R444, R446, R453;
spec/01_architecture.md R21). -/

namespace Sys2Proof.Machine

/-- The source that ERR_HW_WHERE names: a lifecycle index, or 0xFF for the apex cores. -/
def eccIndex (src : EccSource) (u : Nat) : Nat := if src = .apex then 0xFF else u

/-- An error is counted and logged while the apex cores collect errors (R430). -/
def State.eccLog (s : State) (counter : Reg) (b : Nat) (src : EccSource) (u off : Nat) : State :=
  if s.boot.apexRun then (s.count counter 1).hwLog b (eccIndex src u) off else s

/-- The granule at an offset is poisoned. -/
def State.poisonAt (s : State) (off : Nat) : State := { s with poison := insNat (off / 256) s.poison }

/-- An uncorrectable error of stack t is dated: only those of the last second count (R444). -/
def State.dateError (s : State) (t : Nat) : State :=
  let l := (tget s.ues [] t ++ [s.limClock]).filter fun x => decide (s.limClock < x + 1000000000)
  { s with ues := tset s.ues [] t l }

/-- What an instruction in flight has written is unspecified and poisoned (R443). -/
def State.spoil (s : State) (f : Nat) (p : Nat) (u : FUnit) (l : List Range) : State :=
  l.foldl (fun s r =>
    if !r.write || !r.used then s
    else r.runs.foldl (fun s x =>
      (s.storeBytes (srcFacet f u) p (if r.host then 3 else 0) (if r.host then x.1 % 2 ^ 48 else x.1) (s.freeBytes (x.2 - x.1)) true).bump) s) s

/-- An uncorrectable error in a facet's store or accumulator strikes what its array or vector unit has in flight. -/
def State.strikeUnit (s : State) (f : Nat) (u : FUnit) : State :=
  match (s.facet f).run with
  | none => s
  | some r =>
    match r.flight u with
    | none => s
    | some i =>
      let s := s.mapFlight f u fun i => { i with fault := if i.fault = 0 then BitVec.ofNat 8 eDataError else i.fault }
      s.spoil f r.cl.part u i.foot
def State.strikeFacet (s : State) (f : Nat) : State := (s.strikeUnit f .array).strikeUnit f .vector

/-- DATA_ERROR (R443). -/
def execDataError (src : EccSource) (u : UnitId) (off : Nat) (s : State) : Host.Outcome State Fault Refusal :=
  if !s.awake then .next s
  else
    match src with
    | .stack => .next (((s.poisonAt off).dateError (stackOf off)).eccLog .errUeCnt 1 src (uStack (stackOf off)) off)
    | .near => .next ((s.poisonAt off).eccLog .errUeCnt 2 src u off)
    | .facetStore => .next ((s.strikeFacet u).eccLog .errUeCnt 4 src u off)
    | .directory => .next (s.eccLog .errUeCnt 2 src u off)
    | .seqTable => .next (({ s with poison := insNat (seqPoison (off / 4)) s.poison }).eccLog .errUeCnt 2 src u off)
    | .apex => .next s.stopApex

/-- CORRECTED_ERROR (R443): the data are unchanged. -/
def execCorrectedError (src : EccSource) (u : UnitId) (off : Nat) (s : State) : Host.Outcome State Fault Refusal :=
  if !s.awake then .next s
  else
    let b := match src with
      | .stack | .near => 0
      | .apex => 5
      | _ => 3
    .next (s.eccLog .errCeCnt b src (if src = .stack then uStack (stackOf off) else u) off)

/-! UNIT_FAIL (R444, R453). -/

/-- Whether a unit can fail by this cause now. -/
def State.mayFail (s : State) (u : Nat) (cause : FailCause) : Bool :=
  s.live && !(s.unit u).failed &&
    (match cause with
     | .stalled => s.stalledUnit u
     | .training => decide (40 ≤ u) && decide (u < 52) && (s.unit u).st == .ramping
     | .controlState => decide (u < 38)
     | .stackErrors =>
       decide (40 ≤ u) && decide (u < 52) &&
         decide (64 ≤ ((tget s.ues [] (u - 40)).filter fun x => decide (s.limClock < x + 1000000000)).length))

/-- The instructions that a stalled facet will not finish leave it; those of a chord context leave with it. -/
def State.dropFlights (s : State) (f : Nat) : State :=
  match (s.facet f).run with
  | none => s
  | some r =>
    let keep := fun (o : Option InFlight) => match o with | some i => if i.ctx.isSome then some i else none | none => none
    s.setFacet f { s.facet f with run := some { r with
      control := keep r.control, array := keep r.array, vector := keep r.vector, mover := keep r.mover } }

/-- Claimed work of a failed unit completes with UNIT_OFF. -/
def State.failWork (s : State) (u : Nat) (cause : FailCause) : State :=
  if u < 24 then
    let index := match (s.facet u).run with | some r => r.pc | none => 0
    let s := s.stopMember u eUnitOff index 0 (0, 0) (0, 0)
    if cause = .stalled then s.dropFlights u else s
  else if u < 36 then
    match (s.codec (u - 24)).job with
    | some j => if j.posted then s else (s.jobUnpin (u - 24) j.pins false).endCodec (u - 24) j eUnitOff true
    | none => s
  else if u < 38 then
    (s.tce (u - 36)).jobs.foldl (fun s j => if j.posted then s else s.endThin (u - 36) j eUnitOff) s
  else if u < 40 then
    parts32.foldl (fun s p => if (s.ctx (u - 38) p).isSome then (s.failCtx (u - 38) p eUnitOff).chordTurn (u - 38) p else s) s
  else s

/-- A failed port drains from UP, and leaves training and its other states for OFF. -/
def State.failPort (s : State) (p : Nat) : State :=
  match (s.port p).st with
  | .up | .off | .draining => s.settlePort p
  | _ => (s.setPort p (s.port p).blank).cutHolds p

/-- UNIT_FAIL. -/
def execUnitFail (u : UnitId) (cause : FailCause) (s : State) : Host.Outcome State Fault Refusal :=
  if !s.mayFail u cause then .next s
  else
    let s := s.markFailed u
    if 52 ≤ u.val then .next (s.failPort (u - 52))
    else
      match (s.unit u).st with
      | .on | .ramping => .next ((s.drainUnit u).failWork u cause)
      | .draining => .next (s.failWork u cause)
      | .off => .next s

end Sys2Proof.Machine
end

