-- ==== Sys2Proof/Machine/Host.lean ====
section
/-! DEFINITION. The host's accesses: BAR0 registers (spec/15_registers.md R394 to R412), doorbells and BAR4
(spec/14_host_and_partitions.md R376 to R387), and the queues' records and interrupts (R391 to R393). -/

namespace Sys2Proof.Machine

/-! Which accesses are answered. -/

/-- A function answers: the link is up, a VF is enabled, and in recovery only the PF (R424). -/
def State.answersTo (s : State) (fn : Nat) : Bool := s.answers && (fn == 0 || ((s.fn fn).vf && !s.boot.recovery))

/-- Blocks that answer in a core freeze (R448), and in recovery (R424). -/
def freezeBlock (o : Nat) : Bool := decide (o < 0x6000) || (decide (0x00B0_0000 ≤ o) && decide (o < 0x00C0_0000))
def recoveryBlock (o : Nat) : Bool := decide (o < 0x2000) || (decide (0x00B0_0000 ≤ o) && decide (o < 0x00C0_0000))

/-- o lies in [a, b). -/
def within (a b o : Nat) : Bool := decide (a ≤ o) && decide (o < b)

/-- The functions that reach an offset (R379, R410); `wr` for a write. -/
def State.reaches (s : State) (fn : Nat) (wr : Bool) (o : Nat) : Bool :=
  fn == 0 || decide (o < 0x1000) || within 0x4000 0x5000 o || within 0x0002_0000 0x0003_0004 o ||
    within 0x00A0_0010 0x00A0_0018 o || within 0x00A8_0000 0x00AA_0000 o ||
    (within 0x0001_0000 0x0001_8000 o && !wr && (o - 0x0001_0000) / 0x400 == fn) ||
    (within 0x0004_0000 0x0008_0000 o && s.ownsCtr fn ((o - 0x0004_0000) / 16) && !(wr && o % 16 == 0)) ||
    (within 0x0010_0000 0x0028_0000 o && bit (s.partFacets fn) ((o - 0x0010_0000) / 0x0001_0000)) ||
    (within 0x00A1_0000 0x00A5_0000 o && s.ownsQueue fn ((o - 0x00A1_0000) / 0x40))

/-- The register an access reaches; none where it reads as 0 and ignores writes (R397). -/
def State.target (s : State) (fn : Nat) (wr : Bool) (o : Nat) : Option Reg :=
  if s.boot.recovery && !recoveryBlock o then none else if s.reaches fn wr o then regAt fn o else none

/-- What the check of reach uses (R405). -/
def State.useReach (s : State) (fn : Nat) : State := if fn = 0 then s else s.useNow (partEntry fn)

/-! Rejected writes (R400, R403, R412). -/

/-- Sets bits of ERR_REG_LOG for a refused access; WHERE captures while the three bits are clear. -/
def State.refused (s : State) (fn : Nat) (r : Reg) (l : List Nat) : State :=
  let caps := if (s.val .errRegLog &&& 0xE) = 0 then [(Reg.errRejectWhere, 31, 27, fn), (Reg.errRejectWhere, 25, 0, r.offset)] else []
  match l with
  | [] => s
  | b :: t => t.foldl (fun s b => s.setWz .errRegLog b []) (s.setWz .errRegLog b caps)

/-- A reserved depth code (R385). -/
def badDepth (c : Nat) : Bool := decide (1 ≤ c) && decide (c ≤ 3)

/-- The configuration checks of an enable (R386), on the configuration word to be written. -/
def State.ringBad (s : State) (p : Nat) (a : GAddr) (len : Nat) : Bool :=
  a.rank != 0xFFF || !(a.space == 0 || a.space == 3) || a.off % 64 != 0 ||
    (a.space == 0 && (List.range ((a.off + len - 1) / 2 ^ 30 - a.off / 2 ^ 30 + 1)).any fun i =>
      match granuleOf (a.off + i * 2 ^ 30) with
      | none => true
      | some g => !s.ownsGranule p g) ||
    (a.space == 3 && decide (2 ^ 48 < a.off + len))
def State.enableBad (s : State) (q : Nat) (w : Word) : Bool :=
  let target := fld w 9 6
  match s.queuePart q with
  | none => true
  | some p =>
    !s.ownsCtr p (fld w 24 11) || badDepth (fld w 3 0) || fld w 5 4 == 3 || badDepth (s.get (.qCqCfg q) 3 0) ||
      s.ringBad p (s.ringAddr q false) (depthOf (fld w 3 0) * 64) || s.ringBad p (s.ringAddr q true) (s.cqDepth q * 64) ||
      (match fld w 5 4 with
       | 0 => target != 0
       | 1 => decide (11 < target) || !bit (s.partCodecs p) target
       | _ => decide (1 < target)) ||
      decide (msixVectors p ≤ s.get (.qCqCfg q) 12 5)

/-- Whether a write enables a queue. -/
def State.enables (s : State) (q : Nat) (w : Word) : Bool := !s.qEnabled q && w.getLsbD 10

/-- Why a rule rejects a write of w (R403): none, or the flags it names beside REJECT. -/
def State.rejects (s : State) (r : Reg) (w : Word) : Option (List (Reg × Nat)) :=
  let bad := fun (c : Bool) (l : List (Reg × Nat)) => if c then some l else none
  match r with
  | .partCtrl p | .partUnits p | .partCodecs p | .partCeil p | .partQueues p | .partCtrs p | .partQmask p _ =>
    bad (s.partReject p r (r.stored w)) [(.hstLog, 1)]
  | .memGran _ => bad (granReject w) []
  | .lnkRanks _ => bad (decide (4096 < fld w 12 0)) []
  | .pwrCap =>
    bad (!(decide (600 ≤ fld w 10 0) && decide (fld w 10 0 ≤ s.get .pwrSlew 26 16) && decide (600 ≤ fld w 26 16) &&
      decide (fld w 26 16 ≤ fld w 10 0))) []
  | .pwrSlew => bad (!(decide (1 ≤ fld w 6 0) && decide (fld w 6 0 ≤ 100))) []
  | .pwrVtarget => bad (!(decide (110 ≤ fld w 7 0) && decide (fld w 7 0 ≤ 160))) []
  | .qCfg q =>
    if s.qEnabled q then bad (((w ^^^ s.val (.qCfg q)) &&& 0x01FF_FBFF) != 0) []
    else if w.getLsbD 10 then bad (s.enableBad q w) [(.qLog q, 3)]
    else bad (fld w 5 4 == 3 || badDepth (fld w 3 0)) []
  | .qCqCfg _ => bad (badDepth (fld w 3 0)) []
  | .recovCtrl =>
    bad ((w.getLsbD 29 && !(s.val .recovCtrl).getLsbD 29 && !s.mayRecover) || decide (4096 < fld w 27 12)) []
  | .fuseCtrl =>
    bad (fld w 19 18 != 0 && !(fld w 31 24 == 0xC5 && decide (fld w 19 18 ≤ 2) && s.boot.fuse == 0)) []
  | _ => none

/-! Accepted writes and what follows from them. -/

/-- The stored value after a write (R398, R399): RW and RW3 fields replaced, WZ bits cleared by 0 where unmarked. -/
def State.merged (s : State) (r : Reg) (w : Word) : Word :=
  let old := s.val r
  let m := r.mask .rw ||| r.mask .rw3
  let clear := r.mask .wz &&& ~~~w &&& ~~~(s.cell r).mark
  ((old &&& ~~~m) ||| (w &&& m)) &&& ~~~clear

/-- A write of the sequence-table window: through a VF, PARTITION and VALID stay (R199); the word's poison clears. -/
def State.writeSeq (s : State) (fn o : Nat) (w : Word) : State :=
  let a := s.seqAt fn o
  if !s.seqSees fn o then s
  else
    let old : Word := BitVec.ofNat 32 (rdNat s.seqTab a 4)
    let keep : Word := if fn ≠ 0 ∧ o % 64 = 36 then 0x0001_1F00 else 0
    let v := (w &&& ~~~keep) ||| (old &&& keep)
    { s with seqTab := wrCells s.seqTab (cellsAt a (natLe 4 v.toNat)), poison := s.poison.filter fun x => x != seqPoison (a / 4) }

/-- The queues whose written configuration names counter n as DB_CTR, enabled or not. -/
def State.queuesOn (s : State) (n : Nat) : List Nat :=
  (s.regs.filterMap fun x =>
    if 0x00A1_0000 ≤ x.1 ∧ x.1 < 0x00A5_0000 then some ((x.1 - 0x00A1_0000) / 64) else none).eraseDups.filter fun q =>
      s.get (.qCfg q) 24 11 == n && s.val (.qCfg q) != 0
/-- A signal by the host (R384): a value out of range sets DB_BAD of the queues that post through the counter (which queues, the rule
does not say: DESIGN CHOICE, notes/assumptions/48.md). -/
def State.hostSignal (s : State) (n : Nat) (v : Word) : State :=
  if sigOk v then s.signal n v
  else (s.queuesOn n).foldl (fun s q => s.setWz (.qLog q) 0 []) s

/-- A counter set by the PF (R384). -/
def State.hostSet (s : State) (n : Nat) (v : Word) : State := ((s.setCounter n v).notePost n).overPost n

/-- HST_Q_CFG (R386): an enable starts from DB_CTR's value and from record 0; a disable stops the offers. -/
def State.writeQueue (s : State) (q : Nat) (w : Word) : State :=
  let was := s.qEnabled q
  let s := s.setVal (.qCfg q) w
  if !was && w.getLsbD 10 then
    let s := (s.setVal (.qHead q) (s.counter (fld w 24 11))).setVal (.qCqTail q) 0
    s.setQueue q { s.queue q with overPosted := false, posts := [], taken := [], ready := [] }
  else if was && !w.getLsbD 10 then s.setQueue q { s.queue q with overPosted := false, posts := [], taken := [], ready := [] }
  else s

/-- LNK_CTRL (R308). -/
def State.writeLinkCtrl (s : State) (w : Word) : State :=
  let rise := w &&& ~~~(s.val .lnkCtrl)
  let s := s.setVal .lnkCtrl w
  let s := if s.live && rise.getLsbD 12 then s.rediscover else s
  if s.live then s.releasePorts (fld rise 11 0) else s

/-- BTT_RECOV_CTRL (R424, R425). -/
def State.writeRecov (s : State) (w : Word) : State :=
  let rise := w &&& ~~~(s.val .recovCtrl)
  let s := s.setVal .recovCtrl w
  let s := if rise.getLsbD 29 then s.enterRecovery else s
  if rise.getLsbD 28 then s.recoveryGo else s

/-- BTT_FUSE_CTRL (R426 to R428). -/
def State.writeFuse (s : State) (w : Word) : State :=
  let s := (s.setVal .fuseCtrl w).useNow [.bootStatus]
  match fld w 19 18 with
  | 1 => s.fuseCommit (fld w 17 12)
  | 2 => s.fuseOwner
  | _ => s

/-- SEC_CTRL (R447). -/
def State.writeSection (s : State) (w : Word) : State :=
  let rise := w &&& ~~~(s.val .secCtrl)
  let s := s.setVal .secCtrl w
  if rise.getLsbD 0 then s.requestFreeze else s

/-- An accepted write of w by function fn. -/
def State.applyWrite (s : State) (fn : Nat) (r : Reg) (w : Word) : State :=
  let v := s.merged r w
  match r with
  | .partUnits _ | .partCodecs _ | .partCeil _ | .partQueues _ | .partCtrs _ | .partQmask _ _ => s.partApply r v
  | .partCtrl p => (s.partApply r v).settlePart p
  | .memGran g => s.granApply g v
  | .pwrLc u => if u < 52 then (s.setVal r v).settleUnit u else (s.setVal r v).settlePort (u - 52)
  | .seqWord o => s.writeSeq fn o w
  | .ctrValue n => s.hostSet n w
  | .ctrSignal n => s.hostSignal n w
  | .qCfg q => s.writeQueue q v
  | .lnkCtrl => s.writeLinkCtrl v
  | .recovCtrl => s.writeRecov v
  | .nvmCtrl => if v.getLsbD 0 then (s.setVal r v).nvmRelease else s.setVal r v
  | .fuseCtrl => s.writeFuse v
  | .secCtrl => s.writeSection v
  | .msixWord f _ => (s.setVal r v).sendHeld f
  | _ => s.setVal r v

/-- Registers whose writes wait for the function's earlier BAR4 writes (R376). -/
def Reg.ordered : Reg → Bool
  | .ctrValue _ | .ctrSignal _ | .qRing _ _ | .qCfg _ | .qCq _ _ | .qCqCfg _ | .qCqHead _ | .qLog _ => true
  | _ => false

/-- All entries of the partition table, which a write of it is checked against (R383). -/
def State.useTable (s : State) (r : Reg) : State :=
  match r with
  | .partCtrl _ | .partUnits _ | .partCodecs _ | .partCeil _ | .partQueues _ | .partCtrs _ | .partQmask _ _ =>
    if s.upset then s.useNow (parts32.flatMap partEntry) else s
  | .pwrCap => s.useNow [.pwrSlew]
  | .recovCtrl => s.useNow [.bootStatus]
  | _ => s

/-- What waits: a write or doorbell, and of these one of a register or a doorbell. -/
def HostPost.writes : HostPost → Bool
  | .register _ _ _ | .doorbell _ _ | .bar4 _ _ (some _) => true
  | .read _ _ _ | .bar4 _ _ none => false
def HostPost.inOrder : HostPost → Bool
  | .register _ _ _ | .doorbell _ _ => true
  | .read _ _ _ | .bar4 _ _ _ => false
/-- A write of the function to a register or a doorbell waits, so that later BAR0 accesses wait behind it (R396). -/
def State.hostLine (s : State) (fn : Nat) : Bool := (s.fn fn).waiting.any HostPost.inOrder
/-- The function's doorbells and ordered writes wait (R376, R396): an earlier write has not landed or waits. -/
def State.hostHeld (s : State) (fn : Nat) : Bool := s.writesLeft (srcHost fn) || (s.fn fn).waiting.any HostPost.writes
def State.hostWait (s : State) (fn : Nat) (x : HostPost) : State :=
  s.setFn fn { s.fn fn with waiting := (s.fn fn).waiting ++ [x] }

/-- A whole or partial write that reaches register r (R394, R400, R403, R405). -/
def State.writeReg (s : State) (fn : Nat) (r : Reg) (be : BitVec 4) (w : Word) : State :=
  if be ≠ 0xF then s.refused fn r [3]
  else
    let s := (s.repair r).useTable r
    if ((w ^^^ s.readVal fn r) &&& r.mask .rk) ≠ 0 then s.refused fn r [1, 2]
    else
      match s.rejects r w with
      | some l => l.foldl (fun s x => s.setWz x.1 x.2 []) (s.refused fn r [2])
      | none => s.applyWrite fn r w

/-- A BAR0 write of one 32-bit word; `late` where it has waited. -/
def State.hostTake (s : State) (late : Bool) (fn o : Nat) (be : BitVec 4) (w : Word) : State :=
  if !s.answersTo fn then s
  else if s.freeze.frozen && !freezeBlock o then s.flag .secLog 1 true
  else
    let s := s.useReach fn
    match s.target fn true o with
    | none => s
    | some r => if !late && !s.freeze.frozen && (s.hostLine fn || r.ordered && s.hostHeld fn) then s.hostWait fn (.register o be w) else s.writeReg fn r be w
def State.hostWrite (s : State) (fn o : Nat) (be : BitVec 4) (w : Word) : State := s.hostTake false fn o be w

/-- The data of a completed read; `join` where they follow those of the word before. -/
def State.showData (s : State) (l : List Byte) (bad : Bool) (join : Bool := false) : State :=
  { s with out := { s.out with data := if join then s.out.data ++ l else l, poisoned := bad } }
/-- The bytes of a word that a read enables (R394). -/
def enabledBytes (be : BitVec 4) (w : Word) : List Byte :=
  ((natLe 4 w.toNat).zip (List.range 4)).filterMap fun x => if be.getLsbD x.2 then some x.1 else none

/-- A BAR0 read of one 32-bit word (R394, R395, R399, R405): copies that disagree are repaired, marks of WZ bits clear;
`late` where it has waited for writes of the function (R396). -/
def State.hostShow (s : State) (late : Bool) (fn o : Nat) (be : BitVec 4) (join : Bool) : State :=
  if !s.answersTo fn then s
  else if s.freeze.frozen && !freezeBlock o then (s.flag .secLog 1 true).showData (enabledBytes be 0) false join
  else if !late && !s.freeze.frozen && s.hostLine fn then s.hostWait fn (.read o be join)
  else
    let s := s.useReach fn
    match s.target fn false o with
    | none => s.showData (enabledBytes be 0) false join
    | some r =>
      let s := s.repair r
      let s := s.showData (enabledBytes be (s.readVal fn r)) false join
      if r.mask .wz = 0 then s else s.setCell r { s.cell r with mark := 0 }

/-- An access of several words: word by word, the lower address first (R394). -/
def State.hostWrites (s : State) (fn o : Nat) : List (BitVec 4 × Word) → State
  | [] => s
  | x :: t => (s.hostWrite fn o x.1 x.2).hostWrites fn (o + 4) t
def State.hostReads (s : State) (fn o : Nat) (join : Bool) : List (BitVec 4) → State
  | [] => s
  | be :: t => (s.hostShow false fn o be join).hostReads fn (o + 4) true t

/-! Rows of the register file. -/

/-- A write that the row of its own event names: `c` says that it is that event. -/
def State.rowWrite (s : State) (c : Bool) (fn : Nat) (r : Reg) (w : Word) : State := if c then s.hostWrite fn r.offset 0xF w else s

/-- REGISTER_WRITE. -/
def execRegisterWrite (fn : FnId) (a : WriteAccess) (be : BitVec 4) (w : Word) (s : State) : Host.Outcome State Fault Refusal :=
  .next (s.hostWrites fn a.offset ((be, w) :: a.more))
/-- WZ_REGISTER_READ. -/
def execWzRegisterRead (fn : FnId) (a : ReadAccess) (s : State) : Host.Outcome State Fault Refusal :=
  .next (s.hostReads fn a.offset false (a.enables :: a.more))
/-- TRIPLICATED_READ. -/
def execTriplicatedRead (fn : FnId) (a : ReadAccess) (s : State) : Host.Outcome State Fault Refusal :=
  .next (s.hostReads fn a.offset false (a.enables :: a.more))
/-- HOST_SIGNAL. -/
def execHostSignal (fn : FnId) (n : CtrId) (w : Word) (s : State) : Host.Outcome State Fault Refusal :=
  .next (s.rowWrite true fn (.ctrSignal n) w)
/-- COUNTER_SET. -/
def execCounterSet (n : CtrId) (w : Word) (s : State) : Host.Outcome State Fault Refusal :=
  .next (s.rowWrite true 0 (.ctrValue n) w)
/-- QUEUE_ENABLE: ENABLE from 0 to 1. -/
def execQueueEnable (fn : FnId) (q : QueueId) (w : Word) (s : State) : Host.Outcome State Fault Refusal :=
  .next (s.rowWrite (s.enables q w) fn (.qCfg q) w)
/-- QUEUE_DISABLE: ENABLE from 1 to 0. -/
def execQueueDisable (fn : FnId) (q : QueueId) (w : Word) (s : State) : Host.Outcome State Fault Refusal :=
  .next (s.rowWrite (s.qEnabled q && !w.getLsbD 10) fn (.qCfg q) w)
/-- CQ_HEAD_WRITE. -/
def execCqHeadWrite (fn : FnId) (q : QueueId) (w : Word) (s : State) : Host.Outcome State Fault Refusal :=
  .next (s.rowWrite true fn (.qCqHead q) w)
/-- PARTITION_TABLE_WRITE. -/
def execPartitionTableWrite (fn : FnId) (p : PartId) (off : Nat) (w : Word) (s : State) : Host.Outcome State Fault Refusal :=
  match partReg p off with
  | none => .next s
  | some r => .next (s.rowWrite true fn r w)
/-- PART_ENABLE and PART_DISABLE. -/
def execPartEnable (fn : FnId) (p : PartId) (w : Word) (s : State) : Host.Outcome State Fault Refusal :=
  .next (s.rowWrite (w.getLsbD 8) fn (.partCtrl p) w)
def execPartDisable (fn : FnId) (p : PartId) (w : Word) (s : State) : Host.Outcome State Fault Refusal :=
  .next (s.rowWrite (!w.getLsbD 8) fn (.partCtrl p) w)
/-- LC_ENABLE and LC_DISABLE. -/
def execLcEnable (fn : FnId) (u : UnitId) (w : Word) (s : State) : Host.Outcome State Fault Refusal :=
  .next (s.rowWrite (w.getLsbD 8) fn (.pwrLc u) w)
def execLcDisable (fn : FnId) (u : UnitId) (w : Word) (s : State) : Host.Outcome State Fault Refusal :=
  .next (s.rowWrite (!w.getLsbD 8) fn (.pwrLc u) w)
/-- GRANULE_WRITE. -/
def execGranuleWrite (fn : FnId) (g : GranId) (w : Word) (s : State) : Host.Outcome State Fault Refusal :=
  .next (s.rowWrite true fn (.memGran g) w)
/-- PREEMPT_REQUEST. -/
def execPreemptRequest (e : ChordId) (w : Word) (s : State) : Host.Outcome State Fault Refusal :=
  .next (s.rowWrite true 0 (.chdPreemptReq e) w)
/-- REDISCOVER and PORT_RELEASE: a bit of LNK_CTRL changes from 0 to 1. -/
def execRediscover (w : Word) (s : State) : Host.Outcome State Fault Refusal :=
  .next (s.rowWrite (w.getLsbD 12 && !(s.val .lnkCtrl).getLsbD 12) 0 .lnkCtrl w)
def execPortRelease (w : Word) (s : State) : Host.Outcome State Fault Refusal :=
  .next (s.rowWrite (fld (w &&& ~~~(s.val .lnkCtrl)) 11 0 != 0) 0 .lnkCtrl w)
/-- RECOVERY_ENTER and RECOVERY_GO. -/
def execRecoveryEnter (w : Word) (s : State) : Host.Outcome State Fault Refusal :=
  .next (s.rowWrite (w.getLsbD 29 && !(s.val .recovCtrl).getLsbD 29) 0 .recovCtrl w)
def execRecoveryGo (w : Word) (s : State) : Host.Outcome State Fault Refusal :=
  .next (s.rowWrite (w.getLsbD 28 && !(s.val .recovCtrl).getLsbD 28) 0 .recovCtrl w)
/-- NVM_RELEASE. -/
def execNvmRelease (w : Word) (s : State) : Host.Outcome State Fault Refusal :=
  .next (s.rowWrite (w.getLsbD 0) 0 .nvmCtrl w)
/-- FUSE_COMMIT_SVN and FUSE_BURN_OWNER. -/
def execFuseCommitSvn (w : Word) (s : State) : Host.Outcome State Fault Refusal :=
  .next (s.rowWrite (fld w 19 18 == 1) 0 .fuseCtrl w)
def execFuseBurnOwner (w : Word) (s : State) : Host.Outcome State Fault Refusal :=
  .next (s.rowWrite (fld w 19 18 == 2) 0 .fuseCtrl w)
/-- SECTION_REQUEST. -/
def execSectionRequest (w : Word) (s : State) : Host.Outcome State Fault Refusal :=
  .next (s.rowWrite (w.getLsbD 0 && !(s.val .secCtrl).getLsbD 0) 0 .secCtrl w)

/-! Doorbells (R387). -/

/-- A doorbell of queue q, `late` where it has waited: a queue signals only a counter of its own partition (R25; DEDUCED,
notes/assumptions/38.md). -/
def State.ring (s : State) (late : Bool) (fn q : Nat) (w : Word) : State :=
  if !s.answersTo fn || s.boot.recovery then s
  else if s.freeze.frozen then s.flag .secLog 1 true
  else
    let s := s.useReach fn
    let ctr := s.get (.qCfg q) 24 11
    if !(fn == 0 || s.ownsQueue fn q) then s
    else if !late && s.hostHeld fn then s.hostWait fn (.doorbell q w)
    else if sigOk w then (if s.ownsQueue (s.qPart q) q && s.ownsCtr (s.qPart q) ctr then s.signal ctr w else s)
    else s.setWz (.qLog q) 0 []
/-- An access to a queue's page that rings nothing: a read returns 0, and a write beyond offset 0 is ignored. In a freeze it is
dropped (R448). -/
def State.pageAccess (s : State) (fn : Nat) (rd : Bool) : State :=
  if !s.answersTo fn then s
  else
    let s := s.flag .secLog 1 s.freeze.frozen
    if rd then s.showData [0, 0, 0, 0] false else s
/-- DOORBELL: a write of the page, or, without a value, a read of it. -/
def execDoorbell (fn : FnId) (q : DoorbellPage) (v : Option Word) (s : State) : Host.Outcome State Fault Refusal :=
  match v with
  | none => .next (s.pageAccess fn true)
  | some w => .next (if q.offset = 0 then s.ring false fn q.queue w else s.pageAccess fn false)

/-! BAR4 (R380, R425, R448). -/

/-- Whether every byte is reachable: in a stack that is ON, and, through a VF, in its partition's granules. -/
def State.bar4Ok (s : State) (fn off len : Nat) : Bool :=
  (List.range ((off + len - 1) / 2 ^ 30 - off / 2 ^ 30 + 1)).all fun i =>
    match granuleOf (off + i * 2 ^ 30) with
    | none => false
    | some g => (fn == 0 || s.ownsGranule fn g) && s.unitOn (uStack (g / 48))

/-- The partition as which a BAR4 write reaches the directories: the owner of its granule, through the PF too. -/
def State.bar4Part (s : State) (off : Nat) : Nat := s.tileOwner off

/-- A denied access: a read returns zeros. -/
def State.bar4Deny (s : State) (len : Nat) (rd : Bool) : State :=
  let s := s.flag .hstLog 0 true
  if rd then s.showData (List.replicate len 0) false else s

/-- An access to n bytes of space 0, `late` where it has waited: it waits for a granule's flush or scrub (R253) and for
the function's accesses that wait already. -/
def State.bar4At (s : State) (late : Bool) (fn a n : Nat) (data : Option (List Byte)) : State :=
  let s := (s.useReach fn).useStacks a n
  if !s.bar4Ok fn a n then s.bar4Deny n data.isNone
  else if !late && (s.granBusy a n || !(s.fn fn).waiting.isEmpty) then s.hostWait fn (.bar4 a n data)
  else
    match data with
    | none =>
      let l := s.rdMem 0 0 a n
      (s.touchRange a n).showData l (s.poisoned a n)
    | some d => s.storeBytes (srcHost fn) (s.bar4Part a) 0 a d false

/-- BAR4_ACCESS: a read of `len` bytes, or a write of data. Beyond the BAR's size the function does not claim it (R375, R378). -/
def execBar4Access (fn : FnId) (off len : Nat) (data : Option (List Byte)) (s : State) : Host.Outcome State Fault Refusal :=
  let n := match data with | some d => d.length | none => len
  if !s.answersTo fn || n = 0 || decide (2 ^ (s.fn fn).barLog < off + n) then .next s
  else if s.freeze.frozen then
    let s := s.flag .secLog 1 true
    .next (if data.isNone then s.showData (List.replicate n 0) false else s)
  else if s.boot.recovery && decide (off + n ≤ 2 ^ 24) then
    match data with
    | none => .next (s.showData (rdBytes s.boot.recBuf off n) false)
    | some d =>
      if s.boot.going then .next (s.bar4Deny n false)
      else .next { s with boot := { s.boot with recBuf := wrCells s.boot.recBuf (cellsAt off d) } }
  else
    .next (s.bar4At false fn
      (((s.val (.bar4Base fn true)).toNat * 2 ^ 32 + (s.val (.bar4Base fn false)).toNat + off) % 2 ^ 64) n data)

/-! Accesses that wait (R253, R376, R396; notes/assumptions/63.md). -/

/-- A waiting access of a register that answers in a core freeze (R448). -/
def HostPost.answering : HostPost → Bool
  | .register o _ _ | .read o _ _ => freezeBlock o
  | .doorbell _ _ | .bar4 _ _ _ => false

/-- In a freeze the oldest of them is answered, whatever waits before it. -/
def State.frozenAccess (s : State) (fn : Nat) : State :=
  let w := (s.fn fn).waiting
  match w.findIdx? HostPost.answering with
  | none => s
  | some k =>
    let u := s.setFn fn { s.fn fn with waiting := w.eraseIdx k }
    match w[k]? with
    | some (.register o be v) => u.hostTake true fn o be v
    | some (.read o be join) => u.hostShow true fn o be join
    | _ => s

/-- The oldest access of a function that waits is applied once it may be. -/
def State.lateAccess (s : State) (fn : Nat) : State :=
  match (s.fn fn).waiting with
  | [] => s
  | x :: t =>
    if !s.answersTo fn || s.freeze.frozen then s
    else
      let u := s.setFn fn { s.fn fn with waiting := t }
      match x with
      | .register o be w =>
        let ordered := match s.target fn true o with | some r => r.ordered | none => false
        if ordered && s.writesLeft (srcHost fn) then s else u.hostTake true fn o be w
      | .read o be join => u.hostShow true fn o be join
      | .doorbell q w => if s.writesLeft (srcHost fn) then s else u.ring true fn q w
      | .bar4 a n d => if s.bar4Ok fn a n && s.granBusy a n then s else u.bar4At true fn a n d

/-- What an empty command queue stands for: one ns passes, and accesses that waited are applied, one of each function. -/
def State.tick (s : State) : State :=
  let s := s.pass
  if s.freeze.frozen then parts32.foldl State.frozenAccess s
  else if s.live then parts32.foldl State.lateAccess s else s

/-! Records and interrupts (R391, R393). -/

/-- The unit behind a record is free. -/
def State.freeOwner (s : State) (o : RecOwner) : State :=
  match o with
  | .facet f => s.releaseRun f
  | .codec c => s.setCodec c { s.codec c with job := none }
  | .thin e p => s.dropThin e p
  | _ => s

/-- COMPLETION_RECORD: the first waiting record of a queue, once its ring has room and can be reached; while the ring is full it sets
CQ_FULL (R391). -/
def execCompletionRecord (q : QueueId) (s : State) : Host.Outcome State Fault Refusal :=
  match (s.queue q).waiting with
  | [] => .next s
  | r :: t =>
    if !s.live then .next s
    else if s.cqFull q then .next (s.flag (.qLog q) 2 true)
    else if !s.cqReachable q then .next s
    else
      let s := s.usePart (s.qPart q)
      .next (((s.setQueue q { s.queue q with waiting := t }).writeRecord q r).freeOwner r.owner)

/-- IMOD_TIMEOUT: the oldest pending record has waited IMOD_US. -/
def execImodTimeout (q : QueueId) (s : State) : Host.Outcome State Fault Refusal :=
  let c := s.val (.qCqCfg q)
  match (s.queue q).irq with
  | [] => .next s
  | t :: _ =>
    if !s.live || !c.getLsbD 4 || decide (s.limClock < t + fld c 31 21 * 1000) then .next s
    else
      let s := s.use (parts32.map .partQueues)
      .next ((s.setQueue q { s.queue q with irq := [] }).msix (s.qPart q) (fld c 12 5))

/-! PCI Express functions (R377, R381). -/

/-- BUS_MASTER_ENABLE: messages that waited are sent when both are 1 again. -/
def execBusMasterEnable (fn : FnId) (bme vf : Bool) (s : State) : Host.Outcome State Fault Refusal :=
  if !s.answers || (s.boot.recovery && fn.val != 0) then .next s
  else
    .next ((s.setFn fn { s.fn fn with bme := bme, vf := vf }).sendHeld fn)

/-- FUNCTION_LEVEL_RESET. -/
def execFunctionLevelReset (fn : FnId) (s : State) : Host.Outcome State Fault Refusal :=
  if !s.answers || (s.boot.recovery && fn.val != 0) then .next s else .next (s.flr fn)

end Sys2Proof.Machine
end

