-- ==== Sys2Proof/Machine/Dispatch.lean ====
section
/-! DEFINITION. The dispatch: one arm per command. -/

namespace Sys2Proof.Machine

/-- What a command does to the state, its queue apart. -/
def exec (i : Instr) (s : State) : Host.Outcome State Fault Refusal :=
  match i with
  | .workClaim f => Sys2Proof.Machine.execWorkClaim f s
  | .programDone f => Sys2Proof.Machine.execProgramDone f s
  | .instructionComplete f u => Sys2Proof.Machine.execInstructionComplete f u s
  | .waitTimeout f => Sys2Proof.Machine.execWaitTimeout f s
  | .gangAbortStop f => Sys2Proof.Machine.execGangAbortStop f s
  | .nop f => Sys2Proof.Machine.execNop f s
  | .fence f => Sys2Proof.Machine.execFence f s
  | .setseed f => Sys2Proof.Machine.execSetseed f s
  | .dload f => Sys2Proof.Machine.execDload f s
  | .matmul f => Sys2Proof.Machine.execMatmul f s
  | .matmulLr f => Sys2Proof.Machine.execMatmulLr f s
  | .matmulKv f => Sys2Proof.Machine.execMatmulKv f s
  | .conv f => Sys2Proof.Machine.execConv f s
  | .attn f => Sys2Proof.Machine.execAttn f s
  | .vew f => Sys2Proof.Machine.execVew f s
  | .vrowstat f => Sys2Proof.Machine.execVrowstat f s
  | .norm f => Sys2Proof.Machine.execNorm f s
  | .vfunc f => Sys2Proof.Machine.execVfunc f s
  | .softmax f => Sys2Proof.Machine.execSoftmax f s
  | .quant f => Sys2Proof.Machine.execQuant f s
  | .pool f => Sys2Proof.Machine.execPool f s
  | .upsample f => Sys2Proof.Machine.execUpsample f s
  | .gatherMatmul f => Sys2Proof.Machine.execGatherMatmul f s
  | .matmulScatter f => Sys2Proof.Machine.execMatmulScatter f s
  | .ringAttn f => Sys2Proof.Machine.execRingAttn f s
  | .exchangeV f => Sys2Proof.Machine.execExchangeV f s
  | .put f => Sys2Proof.Machine.execPut f s
  | .get f => Sys2Proof.Machine.execGet f s
  | .atomic f => Sys2Proof.Machine.execAtomic f s
  | .prefetch f => Sys2Proof.Machine.execPrefetch f s
  | .evict f => Sys2Proof.Machine.execEvict f s
  | .poolAllocate f => Sys2Proof.Machine.execPoolAllocate f s
  | .checkerSample f => Sys2Proof.Machine.execCheckerSample f s
  | .contextOpen e p => Sys2Proof.Machine.execContextOpen e p s
  | .gatherPieceLanded e p => Sys2Proof.Machine.execGatherPieceLanded e p s
  | .scatterReduce e p => Sys2Proof.Machine.execScatterReduce e p s
  | .exchangeCounts e p => Sys2Proof.Machine.execExchangeCounts e p s
  | .exchangeData e p => Sys2Proof.Machine.execExchangeData e p s
  | .ringStepBoundary e p => Sys2Proof.Machine.execRingStepBoundary e p s
  | .ringStall e p => Sys2Proof.Machine.execRingStall e p s
  | .collAbort e p => Sys2Proof.Machine.execCollAbort e p s
  | .preemptRequest e value => Sys2Proof.Machine.execPreemptRequest e value s
  | .tileRead p offset len => Sys2Proof.Machine.execTileRead p offset len s
  | .tileWrite src p offset data => Sys2Proof.Machine.execTileWrite src p offset data s
  | .tilePromote p offset p3 => Sys2Proof.Machine.execTilePromote p offset p3 s
  | .tileSeal offset => Sys2Proof.Machine.execTileSeal offset s
  | .tileUnseal offset => Sys2Proof.Machine.execTileUnseal offset s
  | .tileLands offset => Sys2Proof.Machine.execTileLands offset s
  | .promotionUnits offset => Sys2Proof.Machine.execPromotionUnits offset s
  | .heldWriteAccept h => Sys2Proof.Machine.execHeldWriteAccept h s
  | .arbiterGrant arbiter waiting => Sys2Proof.Machine.execArbiterGrant arbiter waiting s
  | .stackTempRead x temp => Sys2Proof.Machine.execStackTempRead x temp s
  | .hbmRefresh x => Sys2Proof.Machine.execHbmRefresh x s
  | .input e => Sys2Proof.Machine.execInput e s
  | .output e => Sys2Proof.Machine.execOutput e s
  | .thin e => Sys2Proof.Machine.execThin e s
  | .tceFrameDone e => Sys2Proof.Machine.execTceFrameDone e s
  | .openStream c => Sys2Proof.Machine.execOpenStream c s
  | .encodeFrame c => Sys2Proof.Machine.execEncodeFrame c s
  | .encodeUnitDone c => Sys2Proof.Machine.execEncodeUnitDone c s
  | .inputRelease c => Sys2Proof.Machine.execInputRelease c s
  | .decodeFrame c => Sys2Proof.Machine.execDecodeFrame c s
  | .closeStream c => Sys2Proof.Machine.execCloseStream c s
  | .late c => Sys2Proof.Machine.execLate c s
  | .jobClaim e => Sys2Proof.Machine.execJobClaim e s
  | .doorbell fn q value => Sys2Proof.Machine.execDoorbell fn q value s
  | .hostSignal fn n value => Sys2Proof.Machine.execHostSignal fn n value s
  | .counterSet n value => Sys2Proof.Machine.execCounterSet n value s
  | .queueEnable fn q value => Sys2Proof.Machine.execQueueEnable fn q value s
  | .queueDisable fn q value => Sys2Proof.Machine.execQueueDisable fn q value s
  | .cqHeadWrite fn q value => Sys2Proof.Machine.execCqHeadWrite fn q value s
  | .completionRecord q => Sys2Proof.Machine.execCompletionRecord q s
  | .imodTimeout q => Sys2Proof.Machine.execImodTimeout q s
  | .partitionTableWrite fn p offset value => Sys2Proof.Machine.execPartitionTableWrite fn p offset value s
  | .partEnable fn p value => Sys2Proof.Machine.execPartEnable fn p value s
  | .partDisable fn p value => Sys2Proof.Machine.execPartDisable fn p value s
  | .lcEnable fn u value => Sys2Proof.Machine.execLcEnable fn u value s
  | .lcDisable fn u value => Sys2Proof.Machine.execLcDisable fn u value s
  | .rampDone u => Sys2Proof.Machine.execRampDone u s
  | .drainDone u => Sys2Proof.Machine.execDrainDone u s
  | .unitFail u cause => Sys2Proof.Machine.execUnitFail u cause s
  | .dataError src u offset => Sys2Proof.Machine.execDataError src u offset s
  | .functionLevelReset fn => Sys2Proof.Machine.execFunctionLevelReset fn s
  | .busMasterEnable fn bme vf => Sys2Proof.Machine.execBusMasterEnable fn bme vf s
  | .pcieConfigRequest fn => Sys2Proof.Machine.execPcieConfigRequest fn s
  | .bar4Access fn offset len data => Sys2Proof.Machine.execBar4Access fn offset len data s
  | .registerWrite fn offset enables value => Sys2Proof.Machine.execRegisterWrite fn offset enables value s
  | .wzRegisterRead fn offset => Sys2Proof.Machine.execWzRegisterRead fn offset s
  | .triplicatedScrub => Sys2Proof.Machine.execTriplicatedScrub s
  | .granuleWrite fn g value => Sys2Proof.Machine.execGranuleWrite fn g value s
  | .flushDone g => Sys2Proof.Machine.execFlushDone g s
  | .scrubDone g => Sys2Proof.Machine.execScrubDone g s
  | .putTransaction h data => Sys2Proof.Machine.execPutTransaction h data s
  | .getReq h => Sys2Proof.Machine.execGetReq h s
  | .atomicTransaction h data => Sys2Proof.Machine.execAtomicTransaction h data s
  | .signalTransaction h => Sys2Proof.Machine.execSignalTransaction h s
  | .ack tag => Sys2Proof.Machine.execAck tag s
  | .getData tag data => Sys2Proof.Machine.execGetData tag data s
  | .atomicRet tag data => Sys2Proof.Machine.execAtomicRet tag data s
  | .nack tag code => Sys2Proof.Machine.execNack tag code s
  | .linkTimeout tag => Sys2Proof.Machine.execLinkTimeout tag s
  | .tagRelease tag => Sys2Proof.Machine.execTagRelease tag s
  | .flitReceive p flit => Sys2Proof.Machine.execFlitReceive p flit s
  | .flitNak p ackSeq => Sys2Proof.Machine.execFlitNak p ackSeq s
  | .routerForward p => Sys2Proof.Machine.execRouterForward p s
  | .laneRemove p lane cause => Sys2Proof.Machine.execLaneRemove p lane cause s
  | .retrainDone p => Sys2Proof.Machine.execRetrainDone p s
  | .retrainTimeout p => Sys2Proof.Machine.execRetrainTimeout p s
  | .trainDone p => Sys2Proof.Machine.execTrainDone p s
  | .trainTimeout p => Sys2Proof.Machine.execTrainTimeout p s
  | .nonce p n => Sys2Proof.Machine.execNonce p n s
  | .hello p h => Sys2Proof.Machine.execHello p h s
  | .verdictPhase => Sys2Proof.Machine.execVerdictPhase s
  | .verdict p up => Sys2Proof.Machine.execVerdict p up s
  | .linkStateAnnounce p news => Sys2Proof.Machine.execLinkStateAnnounce p news s
  | .rediscover value => Sys2Proof.Machine.execRediscover value s
  | .portRelease value => Sys2Proof.Machine.execPortRelease value s
  | .meridianSync => Sys2Proof.Machine.execMeridianSync s
  | .meridianExchange received sent => Sys2Proof.Machine.execMeridianExchange received sent s
  | .resetAssert => Sys2Proof.Machine.execResetAssert s
  | .resetRelease => Sys2Proof.Machine.execResetRelease s
  | .nvmDiscovery d => Sys2Proof.Machine.execNvmDiscovery d s
  | .verify => Sys2Proof.Machine.execVerify s
  | .identity => Sys2Proof.Machine.execIdentity s
  | .firmwareStart => Sys2Proof.Machine.execFirmwareStart s
  | .hbmTraining failed => Sys2Proof.Machine.execHbmTraining failed s
  | .pcieReadiness => Sys2Proof.Machine.execPcieReadiness s
  | .linkDiscovery => Sys2Proof.Machine.execLinkDiscovery s
  | .ready => Sys2Proof.Machine.execReady s
  | .lastGaspArm => Sys2Proof.Machine.execLastGaspArm s
  | .perstAssert => Sys2Proof.Machine.execPerstAssert s
  | .recoveryEnter value => Sys2Proof.Machine.execRecoveryEnter value s
  | .recoveryGo value => Sys2Proof.Machine.execRecoveryGo value s
  | .recoveryVerifyDone => Sys2Proof.Machine.execRecoveryVerifyDone s
  | .nvmRelease value => Sys2Proof.Machine.execNvmRelease value s
  | .nvmReclaim boardHigh => Sys2Proof.Machine.execNvmReclaim boardHigh s
  | .fuseCommitSvn value => Sys2Proof.Machine.execFuseCommitSvn value s
  | .fuseBurnOwner value => Sys2Proof.Machine.execFuseBurnOwner value s
  | .fuseDone failed => Sys2Proof.Machine.execFuseDone failed s
  | .doeDiscovery index => Sys2Proof.Machine.execDoeDiscovery index s
  | .getCert => Sys2Proof.Machine.execGetCert s
  | .getReport hostNonce => Sys2Proof.Machine.execGetReport hostNonce s
  | .governorStep r => Sys2Proof.Machine.execGovernorStep r s
  | .pwrcapAssert => Sys2Proof.Machine.execPwrcapAssert s
  | .pwrcapRelease => Sys2Proof.Machine.execPwrcapRelease s
  | .pwrwarnAssert => Sys2Proof.Machine.execPwrwarnAssert s
  | .pwrwarnWithdraw => Sys2Proof.Machine.execPwrwarnWithdraw s
  | .trip cause source => Sys2Proof.Machine.execTrip cause source s
  | .apexStop => Sys2Proof.Machine.execApexStop s
  | .refclkLoss c => Sys2Proof.Machine.execRefclkLoss c s
  | .freezeNAssert => Sys2Proof.Machine.execFreezeNAssert s
  | .sectionRequest value => Sys2Proof.Machine.execSectionRequest value s
  | .thaw => Sys2Proof.Machine.execThaw s
  | .sectionRead => Sys2Proof.Machine.execSectionRead s
  | .idcode => Sys2Proof.Machine.execIdcode s
  | .bypass => Sys2Proof.Machine.execBypass s
  | .perstRelease => Sys2Proof.Machine.execPerstRelease s
  | .powerLoss => Sys2Proof.Machine.execPowerLoss s
  | .correctedError src u offset => Sys2Proof.Machine.execCorrectedError src u offset s
  | .singleUpset offset copy bit => Sys2Proof.Machine.execSingleUpset offset copy bit s
  | .triplicatedRead fn offset => Sys2Proof.Machine.execTriplicatedRead fn offset s

end Sys2Proof.Machine
end

