-- ==== Sys2Proof/Safety.lean ====
section
/-! DEFINITION. What claims are stated in: the canonical form of a state's tables and memories, what no command
takes back (burned fuses), and what a run is. -/

namespace Sys2Proof.Machine

/-- The keys of a table rise strictly from `lo` on. -/
def risingFrom {α : Type} : Nat → SMap α → Bool
  | _, [] => true
  | lo, (k, _) :: t => decide (lo ≤ k) && risingFrom (k + 1) t

/-- A table in order: each key at most once, in ascending order. -/
def rising {α : Type} (m : SMap α) : Bool := risingFrom 0 m

/-- Memories in canonical form: equal contents are equal data. -/
def State.memsWf (s : State) : Bool := memWf s.mem && memWf s.host && memWf s.seqTab

/-- The register file and the numbered units in order. -/
def State.tablesWf (s : State) : Bool :=
  rising s.regs && rising s.ctr && rising s.gran && rising s.dir && rising s.memctl && rising s.arbs && rising s.xings && rising s.beats &&
    rising s.active && rising s.facets && rising s.queues && rising s.fns && rising s.tces && rising s.codecs &&
    rising s.ctxs && rising s.ops && rising s.ports && rising s.routes && rising s.units && rising s.parts && rising s.ues

/-- A state in canonical form. -/
def State.Wf (s : State) : Prop := s.memsWf = true ∧ s.tablesWf = true

/-- Fuses burn one way (R426 to R428): ownership and the owner hash stay once burned, the SVN never falls, and what
manufacture fixed never changes. -/
structure FusesKept (a b : NonVol) : Prop where
  owned : a.owned = true → b.owned = true ∧ b.ownerHash = a.ownerHash
  svn : a.svn ≤ b.svn
  serial : b.serial = a.serial
  secret : b.secret = a.secret
  cert : b.cert = a.cert

/-- What every command keeps: the commands that wait, what fuses hold, and the canonical form. -/
structure Kept (s t : State) : Prop where
  pending : t.pending = s.pending
  fuses : FusesKept s.nv t.nv
  wf : s.Wf → t.Wf

/-- States that commands and idle ticks lead to. -/
inductive Reaches : State → State → Prop where
  | refl (s : State) : Reaches s s
  | step {s t u : State} : Reaches s t → step t = .next u → Reaches s u
  | send {s t : State} (c : Instr) : Reaches s t → Reaches s { t with pending := t.pending ++ [c] }

/-! Accesses of the host. -/

/-- The copies of a register agree (R404). -/
def State.agrees (s : State) (r : Reg) : Bool := (s.cell r).a == (s.cell r).b && (s.cell r).b == (s.cell r).c

/-- A 32-bit access by function fn reaches register r (R379, R396, R397, R424, R448), `wr` for a write; no earlier write
of the function waits, but in a freeze, where none holds it back. -/
structure Reached (s : State) (fn : Nat) (wr : Bool) (r : Reg) : Prop where
  answers : s.answersTo fn = true
  runs : s.freeze.frozen = true → freezeBlock r.offset = true
  target : s.target fn wr r.offset = some r
  next : s.freeze.frozen = false → s.hostLine fn = false

/-- A whole write of w by function fn is accepted: every register's copies agree, the access waits for no earlier write,
its RK bits match what a read returns (R400), and no rule rejects it (R403). -/
structure Taken (s : State) (fn : Nat) (r : Reg) (w : Word) : Prop where
  reached : Reached s fn true r
  calm : s.upset = false
  first : r.ordered = true → s.hostHeld fn = false
  kept : (w ^^^ s.readVal fn r) &&& r.mask .rk = 0
  legal : s.rejects r w = none

/-- Registers whose write changes their own bits and starts nothing (R398). -/
def Reg.plain : Reg → Bool
  | .partCtrl _ | .partUnits _ | .partCodecs _ | .partCeil _ | .partQueues _ | .partCtrs _ | .partQmask _ _ | .memGran _
  | .pwrLc _ | .seqWord _ | .ctrValue _ | .ctrSignal _ | .qCfg _ | .lnkCtrl | .recovCtrl | .nvmCtrl | .fuseCtrl
  | .secCtrl | .msixWord _ _ => false
  | _ => true

/-- `t` is `s` with registers changed at the listed keys alone. -/
def State.sameRegs (s t : State) (keys : List Nat) : Prop := ∀ x : Reg, x.key ∉ keys → t.cell x = s.cell x

/-- What a state may still show after WZ bits were set: registers, messages sent and messages held. -/
def State.flagged (s t : State) : Prop := t = { s with regs := t.regs, out := { s.out with msix := t.out.msix }, fns := t.fns }

/-- The keys of every queue's log. -/
def queueLogKeys : List Nat := (List.range 4096).map fun q => (Reg.qLog q).key

/-- No byte of a write of `len` bytes at `off` is held or waits (R264): no tile moves, and no earlier write of the source to
one waits. -/
def State.writesNow (s : State) (src off len : Nat) : Prop :=
  ∀ k < len, s.moving (s.tileOf (off + k)).1 = false ∧ ∀ w ∈ s.waitWrites, w.src = src → w.tile ≠ (s.tileOf (off + k)).1

/-- The registers that a promotion which waits for units may change (R269). -/
def promoKeys : List Nat := (parts32.map fun p => (Reg.nmhEvwaitCnt p).key) ++ [(Reg.nmhLog 0).key, (Reg.nmhLog 1).key]

/-! Facets. -/

/-- The rows that issue an instruction: the facet, the opcode they name (R101), the unit (R117) and the plan. -/
def issueRow : Instr → Option (FacetId × Nat × FUnit × (State → Iss → Plan))
  | .nop f => some (f, 0x00, .control, planNop)
  | .fence f => some (f, 0x01, .control, planNop)
  | .setseed f => some (f, 0x02, .control, planSetseed)
  | .dload f => some (f, 0x03, .control, planDload)
  | .matmul f => some (f, 0x10, .array, planMm false)
  | .matmulLr f => some (f, 0x11, .array, planMm true)
  | .matmulKv f => some (f, 0x12, .array, planMatmulKv)
  | .conv f => some (f, 0x13, .array, planConv)
  | .attn f => some (f, 0x14, .array, planAttn)
  | .vew f => some (f, 0x20, .vector, planVew)
  | .vrowstat f => some (f, 0x21, .vector, planVrowstat)
  | .norm f => some (f, 0x22, .vector, planNorm)
  | .vfunc f => some (f, 0x23, .vector, planVfunc)
  | .softmax f => some (f, 0x24, .vector, planSoftmax)
  | .quant f => some (f, 0x25, .vector, planQuant)
  | .pool f => some (f, 0x26, .vector, planPool)
  | .upsample f => some (f, 0x27, .vector, planUpsample)
  | .gatherMatmul f => some (f, 0x40, .array, planGather)
  | .matmulScatter f => some (f, 0x41, .array, planScatter)
  | .ringAttn f => some (f, 0x42, .array, planRing)
  | .exchangeV f => some (f, 0x43, .mover, planExchange)
  | .put f => some (f, 0x50, .mover, planCopy false)
  | .get f => some (f, 0x51, .mover, planCopy true)
  | .atomic f => some (f, 0x52, .mover, planAtomic)
  | .prefetch f => some (f, 0x53, .mover, planPrefetch)
  | .evict f => some (f, 0x54, .mover, planEvict)
  | _ => none

/-- What a row that issues first does in a live vertex (R97, R98): the sequencer fetches ahead, and a fetch that was refused
stops the member once its instruction is next. -/
def State.ahead (s : State) (f : Nat) : State := if s.live then (s.fetchAhead f).fetchStop f else s

/-- The instruction `i` at facet f's pc is the one a row of opcode `op` and plan `pl` names, no check of it fails, its
unit is free, nothing in flight clashes with its footprint and no granule it touches waits for new values (R98, R118,
R120, R253). -/
structure Issuable (s : State) (f op : Nat) (u : FUnit) (pl : Plan) (i : Iss) : Prop where
  next : s.nextIns f u = some i
  opcode : iOpcode i.ins = op
  calm : s.upset = false
  base : s.baseCode i.p i.ins = 0
  code : pl.code = 0
  seq : pl.seq = 0
  loaded : s.loading i = false
  clear : i.run.clear u pl.foot = true
  alone : s.gangAborted i.run = false
  granules : s.footBusy pl.foot = false

/-- Nothing holds an issuable instruction back: its waits are over and what it reads after them is good (R113, R116). -/
structure Ready (s : State) (pl : Plan) (i : Iss) : Prop where
  wait : s.waitOk i.run i.ins = true
  own : pl.ready = true
  late : pl.late = 0
  free : pl.hold = false

/-- No operation is held back by writes that have not landed (R28), and none held bears the number of the next one. -/
def State.txClear (s : State) : Prop := s.txDue = [] ∧ s.txLeft s.txSeq = false

/-- A queue can write a record now (R377, R391): none waits, its ring has room and its memory can be reached. -/
structure Room (s : State) (q : Nat) : Prop where
  range : q < 4096
  none : (s.queue q).waiting = []
  reach : s.cqReachable q = true
  free : s.cqFull q = false
  clear : s.txClear

/-- A codec job of operation `op` that is about to run passes its checks (R354, R355). -/
structure CodecStarts (s : State) (c op : Nat) (j : CodecJob) : Prop where
  job : (s.codec c).job = some j
  live : s.live = true
  calm : s.upset = false
  fresh : j.posted = false ∧ j.started = false
  opcode : jOp j.record = op
  code : s.codecCode c j.part j.record = 0

/-- An arriving transaction passes the target's checks and is taken now (R253, R297). -/
structure Arrives (s : State) (h : TxHeader) (k : RemKind) : Prop where
  calm : s.upset = false
  legal : s.arrival h k h.space h.offset h.len = 0
  taken : s.takesTx h = true

/-- The answer of this vertex to a transaction: it is appended to what the router has been handed. -/
def State.answered (s t : State) (h : TxHeader) (k : TxKind) (code : Nat) (data : List Byte) : Prop :=
  ∃ x : Tx, t.out.tx = s.out.tx ++ [x] ∧ x.kind = k ∧ x.data = data ∧ x.header.dst = h.src ∧ x.header.dstPart = h.srcPart ∧
    x.header.src = s.coord ∧ x.header.srcPart = h.dstPart ∧ x.header.tag = h.tag ∧ x.header.code = code

/-! Facet arithmetic. -/

/-- Values 0 to 2^n − 1 combined pairwise, level by level: the halves' results combined last (R84, R179). -/
def treeOf {α : Type} (op : α → α → α) : Nat → (Nat → α) → α
  | 0, v => v 0
  | n + 1, v => op (treeOf op n v) (treeOf op n fun k => v (k + 2 ^ n))

/-- The sum of one pass of 2^n positions from `first` on (R84, R134): products in FP32, +0 beyond the K extent; after five
levels each 32-position block under its scale codes. -/
def passSum (n k first : Nat) (a b : Nat → Val) (sa sb : Nat → Nat) : Word :=
  treeOf fadd (n - 5) fun blk =>
    let p := first + 32 * blk
    let x := treeOf fadd 5 fun j => if p + j < k then f32 ((a (p + j)).mul (b (p + j))) else fZero
    if k ≤ p then x
    else if sa p = 255 ∨ sb p = 255 then fNaN
    else f32 ((fval x).scale ((sa p : Int) + sb p - 254))

/-- A sum times a static factor, where there is one (R151). -/
def times (f : Option Word) (x : Word) : Word := match f with | none => x | some w => fmul x w

/-- The elements of a row that lane `i` takes: i, i + 512, … (R179). -/
def lane (l : List Word) (i : Nat) : List Word := ((List.range l.length).filter fun j => j % 512 == i).map fun j => l.getD j 0

/-- The sum, the sum of squares and the maximum of a row in lane order (R179). -/
def rowSum (l : List Word) : Word := treeOf fadd 9 fun i => (lane l i).foldl fadd fZero
def rowSquares (l : List Word) : Word := treeOf fadd 9 fun i => (lane l i).foldl (fun q v => fadd q (fmul v v)) fZero
def rowMax (l : List Word) : Word := treeOf fmax 9 fun i => (lane l i).foldl fmax fNegInf

/-- An instruction issues in a state in which nothing keeps its writes from landing at once: no tile is near or moves, no write
waits, nothing is poisoned and no operand lies in space 1. -/
structure Issues (f op : Nat) (un : FUnit) (s u : State) (i : Iss) (pl : Plan) : Prop where
  wf : s.Wf
  fetched : u = s.ahead f
  issuable : Issuable u f op un pl i
  ready : Ready u pl i
  still : u.dir = [] ∧ u.waitWrites = [] ∧ u.poison = []
  far : pl.near = []

/-- Elements of a view none of whose bits are another's. -/
def View.apart (v : View) (els : List Idx) : Prop :=
  ∀ x ∈ els, ∀ y ∈ els, x ≠ y → elemBit v (v.abs x) + v.fmt.width ≤ elemBit v (v.abs y) ∨
    elemBit v (v.abs y) + v.fmt.width ≤ elemBit v (v.abs x)

/-- An offset that holds no bit of some elements of a view. -/
def View.beside (v : View) (els : List Idx) (a : Nat) : Prop :=
  ∀ x ∈ els, a < v.base.off + elemBit v (v.abs x) / 8 ∨ v.base.off + cdiv (elemBit v (v.abs x) + v.fmt.width) 8 ≤ a

/-- What an instruction leaves unchanged as it writes: counters, directories, other facets, fuses and NVM. -/
def State.othersKept (u t : State) (f : Nat) : Prop :=
  t.ctr = u.ctr ∧ t.dir = u.dir ∧ t.waitWrites = u.waitWrites ∧ t.nv = u.nv ∧ t.boot = u.boot ∧ ∀ k, k ≠ f → t.facet k = u.facet k

/-- From `u` to `t`, elements of a tensor of an unblocked format take values: rounded as the instruction says, divided by the
tensor's static scale where it has one (R76, R78, R149, R150). No other byte changes. -/
structure Holds (u t : State) (i : Iss) (v : View) (els : List Idx) (val : Idx → Word) : Prop where
  read : ∀ e, v.fmt = .plain e → v.apart els → ∀ x ∈ els,
    BitVec.ofNat e.width (t.rdRaw i.p v x) = BitVec.ofNat e.width
      (if dScaleMode v.d = 0 then (e.encode (elemMode i.ins i.seed v.dims x) (fval (val x))).1
       else if fPosNormal (u.rdFactor i.p v x) then
         (e.encode (elemMode i.ins i.seed v.dims x) (fval (fdiv (val x) (u.rdFactor i.p v x)))).1
       else e.nanCode)
  ownMem : ∀ e, v.fmt = .plain e → v.base.space ≠ 3 → t.host = u.host ∧ ∀ a, v.beside els a → rd t.mem a = rd u.mem a
  host : ∀ e, v.fmt = .plain e → v.base.space = 3 →
    t.mem = u.mem ∧ ∀ a, v.beside els a → rd t.host (hostKey i.p a) = rd u.host (hostKey i.p a)
  others : u.othersKept t i.f

/-- Blocks of a view have their own scale bytes, which hold no bit of an element. -/
def View.scalesApart (v : View) (els : List Idx) : Prop :=
  (∀ x ∈ els, ∀ y ∈ els, blockIdx v.d x ≠ blockIdx v.d y → scaleByte v (v.abs x) ≠ scaleByte v (v.abs y)) ∧
    v.sbase.space = v.base.space ∧ ∀ x ∈ els, v.beside els (v.sbase.off + scaleByte v (v.abs x))

/-- From `u` to `t`, the 32-element blocks of an MX tensor that the member writes whole take values through the quantiser
(R146 to R148). -/
def HoldsBlocks (t : State) (i : Iss) (v : View) (val : Idx → Word) : Prop :=
  ∀ e, v.fmt = .mx e → dCap v.d = 0 → v.apart (allIdx v.dims) → v.scalesApart (allIdx v.dims) →
    ∀ b ∈ allIdx (blockGrid v.d), (∀ x ∈ blockElems v.d b, i.share v.dims x = true) →
      ∀ k x, (blockElems v.d b)[k]? = some x →
        t.rdScale i.p v x =
          (quantBlock e ((blockElems v.d b).map val) ((blockElems v.d b).map (elemMode i.ins i.seed v.dims))).1 ∧
        t.rdRaw i.p v x =
          (quantBlock e ((blockElems v.d b).map val) ((blockElems v.d b).map (elemMode i.ins i.seed v.dims))).2.1.getD k 0 % 2 ^ e.width

/-- Elements that the members of a gang write, each through its own view of OUT, share no bit. -/
def membersApart (issues : List Iss) (mine : Iss → Idx → Bool) : Prop :=
  ∀ m ∈ issues, ∀ n ∈ issues, ∀ v w : View, v = m.view (iOut m.ins) 0 → w = n.view (iOut n.ins) 0 →
    ∀ x ∈ allIdx v.dims, ∀ y ∈ allIdx w.dims, mine m x = true → mine n y = true →
      (m = n ∧ x = y) ∨ v.base.off * 8 + elemBit v (v.abs x) + v.fmt.width ≤ w.base.off * 8 + elemBit w (w.abs y) ∨
        w.base.off * 8 + elemBit w (w.abs y) + w.fmt.width ≤ v.base.off * 8 + elemBit v (v.abs x)

/-- Two contributions of which either may be absent (R328). -/
def joinSome (a b : Option Word) : Option Word :=
  match a, b with
  | some x, some y => some (fadd x y)
  | some x, none => some x
  | none, y => y

/-- The record that a queue's ring takes next holds `r` (R391), where the ring's tile does not move. -/
def State.recordStands (s t : State) (q : Nat) (r : Rec) : Prop :=
  ∀ off, off = (s.ringAddr q true).off + (s.val (.qCqTail q)).toNat % s.cqDepth q * 64 →
    ((s.ringAddr q true).space = 3 →
      rdBytes t.host (hostKey (s.qPart q) off) 64 = recordBytes r (s.val (.qCqTail q)) q s.time.toNat) ∧
    ((s.ringAddr q true).space = 0 → s.writesNow srcQueue off 64 →
      rdBytes t.mem off 64 = recordBytes r (s.val (.qCqTail q)) q s.time.toNat)

/-- Nothing keeps writes from landing at once. -/
def State.landsNow (s : State) : Prop := s.dir = [] ∧ s.waitWrites = [] ∧ s.poison = []

/-- What a decode stream writes for frames that fall due, the first being its output frame `first`: each frame's bytes in its slot of
the ring, and its map (R367, R370). -/
def framePieces (cfg : Cfg) (map first : Nat) (l : List Config.Decoded) : List (Nat × List Byte) :=
  l.zipIdx.flatMap fun x =>
    (frameCells cfg x.1).map (fun y => ((gaddr (cRing cfg)).off + (first + x.2) % max (cOut cfg) 1 * cStep cfg + y.1, y.2)) ++
      [((gaddr map).off + (first + x.2) % max (cOut cfg) 1 * cMap cfg, mapBytes (first + x.2) x.1)]

/-- Pieces of bytes none of which meets another. -/
def piecesApart (l : List (Nat × List Byte)) : Prop :=
  l.Pairwise fun x y => x.1 + x.2.length ≤ y.1 ∨ y.1 + y.2.length ≤ x.1

end Sys2Proof.Machine
end

