-- ==== Sys2Proof/Certificates/Slice0/Obligations.lean ====
section
/-! DEFINITION. The statements about the block: what each command does and what every step keeps. Frames are written as an
equation: the next state is the old one but for the fields named. -/

open Sys2Proof Sys2Proof.Machine

/-- A step runs the command at the front of the queue on the state with the queue's rest; with no command waiting, time
passes (the model's idle step, notes/assumptions/9.md). -/
def Obligations.StepRunsFrontCommand : Prop :=
  (∀ (c : Instr) (rest : List Instr) (s : State), s.pending = c :: rest → step s = exec c { s with pending := rest }) ∧
  (∀ s : State, s.pending = [] → step s = .next s.tick)

/-- Every command answers a next state in every state, and no command touches those that wait. A command whose event the state
does not allow leaves the state as it is: the model's choice (notes/assumptions/1.md). -/
def Obligations.EveryCommandAnswers : Prop :=
  ∀ (c : Instr) (s : State), ∃ t, exec c s = .next t ∧ t.pending = s.pending

/-- After reset: RESET_N is asserted, PHASE reads 0x1, no command waits, and the state is in canonical form; every
register holds its reset value, the spec's where it gives one and else the model's (notes/assumptions/5.md). -/
def Obligations.ResetIsCanonical : Prop :=
  State.reset.Wf ∧ State.reset.pending = [] ∧ State.reset.pins.reset = true ∧ State.reset.boot.phase = 1 ∧
    State.reset.time = 0 ∧ (∀ r : Reg, State.reset.val r = r.resetValue) ∧
    (∀ r : Reg, State.reset.agrees r = true)

/-- Every step keeps the canonical form: memories and tables stay in ascending order, each key listed once, and no entry
that reads as an unlisted one does. -/
def Obligations.CanonicalFormKept : Prop :=
  ∀ s t : State, s.Wf → step s = .next t → t.Wf

/-- CONTEXT_OPEN completes: it opens a context once every member of the gang has joined it, then the engine takes a turn: a scatter and
an exchange queue one transfer for each other member of the group, behind P - 1 credits. With members missing nothing
happens. -/
def Obligations.ContextOpensWithWholeGang : Prop :=
  ∀ (e : ChordId) (p : PartId) (c : Ctx) (i : Iss) (s : State), s.Wf → s.live = true → s.ctx e p = some c → c.lead = some i →
    c.opened = false →
    (c.members.length ≠ c.size → exec (.contextOpen e p) s = .next s) ∧
    (c.members.length = c.size → c.fail = 0 →
      ∃ (u : State) (c' : Ctx), exec (.contextOpen e p) s = .next (u.chordTurn e p) ∧ u.ctx e p = some c' ∧ c'.opened = true ∧
        c'.members = c.members ∧ c'.since = s.limClock ∧
        (c.op = 0x41 ∨ c.op = 0x43 →
          c'.sends.map (fun x => x.dest) = (List.range (schP c.sch)).filter (fun q => q != c.own) ∧
          ∀ x ∈ c'.sends, x.cred = schP c.sch - 1 ∧ x.sig = some 1) ∧
        u.boot = s.boot ∧ u.nv = s.nv ∧ u.units = s.units ∧ u.parts = s.parts ∧ u.pins = s.pins) ∧
    (c.members.length = c.size → c.fail ≠ 0 →
      exec (.contextOpen e p) s =
        .next ((s.setCtx e p (some { c with opened := true, since := s.limClock })).chordTurn e p))

/-- Fuses burn one way: along every run, whatever commands are sent, a burned lifecycle and owner hash stay, the fused SVN
never falls, and what manufacture fixed never changes. -/
def Obligations.FusesBurnOneWay : Prop :=
  ∀ s t : State, Reaches s t → FusesKept s.nv t.nv

/-- Numbers: a finite encoding of every element format converts to itself in every rounding mode; rounding to nearest leaves
an error of at most half a quantum, and of two nearest results the even one; five trits packed in a byte read back, and an
invalid byte reads as five trits of 0. -/
def Obligations.NumbersRoundToNearest : Prop :=
  (∀ (f : Elem) (mode : RMode) (v : Nat) (neg : Bool) (m : Nat) (e : Int), v < 2 ^ f.width → f.value v = .num neg m e →
    f.encode mode (f.value v) = (v, false)) ∧
  (∀ m k t : Nat, t = shiftRound .rne m k →
    2 * (t * 2 ^ k) ≤ 2 * m + 2 ^ k ∧ 2 * m ≤ 2 * (t * 2 ^ k) + 2 ^ k ∧
      (2 * (t * 2 ^ k) = 2 * m + 2 ^ k ∨ 2 * m = 2 * (t * 2 ^ k) + 2 ^ k → t % 2 = 0)) ∧
  (∀ d : Fin 5 → Fin 3, ∀ i : Fin 5,
    tritOf ((d 0).val + 3 * (d 1).val + 9 * (d 2).val + 27 * (d 3).val + 81 * (d 4).val) i = ((d i).val : Int) - 1) ∧
  (∀ byte i : Nat, 0xF3 ≤ byte → tritOf byte i = 0)

/-- TILE_READ of a permitted range returns the bytes of the tiles' homes and touches every tile of the range that near memory
serves, in COPY, NEAR, MOVING_DOWN and CLEANING; it changes nothing else. -/
def Obligations.TileReadReturnsHomeBytes : Prop :=
  ∀ (p : PartId) (off len : Nat) (s : State), s.Wf → s.upset = false → s.admitted p off len = true →
    ∃ t, exec (.tileRead p off len) s = .next t ∧ t.out.data = rdBytes s.mem off len ∧ t.out.poisoned = s.poisoned off len ∧
      t = { s with out := { s.out with data := t.out.data, poisoned := t.out.poisoned }, dir := t.dir } ∧
      (∀ k e, k < len → s.dirEntry (s.tileOf (off + k)).1 = some e → e.st ≠ .filling → e.st ≠ .movingUp →
        t.dirEntry (s.tileOf (off + k)).1 = some { e with touch := s.touchTime }) ∧
      ∀ a, t.dirEntry a = s.dirEntry a ∨
        ∃ k e, k < len ∧ a = (s.tileOf (off + k)).1 ∧ s.dirEntry a = some e ∧ e.st ≠ .filling ∧ e.st ≠ .movingUp

/-- TILE_WRITE of a permitted range none of whose tiles moves or has an earlier write of the source waiting: the bytes stand at their addresses, every other byte is as
before, copies of the tiles are dropped, and nothing else changes.
A write inside one 256-byte granule whose tile moves is held behind the writes held before it; where its share of the
half has no room, or an earlier write of the source to the tile waits, it waits outside the buffer. Either way a P3 write
raises the move to P3, and no byte of memory changes.
HELD_WRITE_ACCEPT takes the write that has waited longest of its half once its tile moves no more and its granule takes no
new values: it is applied at the tile's home, and a copy is dropped; operations all of whose writes have landed are answered
then. One whose partition does not own the granule any more writes nothing, and its instruction is refused with the code of
the check (R253). -/
def Obligations.TileWriteStoresOrIsHeld : Prop :=
  (∀ (src : Nat) (p : PartId) (off : Nat) (data : List Byte) (s : State), s.Wf → s.upset = false →
     s.admitted p off data.length = true → s.writesNow src off data.length →
     ∃ t, exec (.tileWrite src p off data) s = .next t ∧ rdBytes t.mem off data.length = data ∧
       (∀ a, a < off ∨ off + data.length ≤ a → rd t.mem a = rd s.mem a) ∧
       (∀ i e, i < data.length → t.dirEntry (s.tileOf (off + i)).1 = some e → e.st = .near) ∧
       t = { s with mem := t.mem, dir := t.dir, poison := t.poison }) ∧
  (∀ (src : Nat) (p : PartId) (off : Nat) (data : List Byte) (e : DirEntry) (s : State), s.Wf → s.upset = false → data ≠ [] →
     off / 256 = (off + data.length - 1) / 256 → s.admitted p off data.length = true →
     s.dirEntry (s.tileOf off).1 = some e → e.st ≠ .copy → e.st ≠ .near →
     ∃ w t, w = ({ src := src, part := p, tile := (s.tileOf off).1, op := .store (cellsAt off data), bad := false } : HeldWrite) ∧
       exec (.tileWrite src p off data) s = .next t ∧
       t.dirEntry (s.tileOf off).1 =
         some { e with held := if (s.holdFull w || s.waitWrites.any w.after) = true then e.held else e.held ++ [w]
                       p3 := e.p3 || trafficClass (srcTraffic src) == 3 } ∧
       t.waitWrites = (if (s.holdFull w || s.waitWrites.any w.after) = true then s.waitWrites ++ [w] else s.waitWrites) ∧
       (∀ a, a ≠ (s.tileOf off).1 → t.dirEntry a = s.dirEntry a) ∧ t = { s with dir := t.dir, waitWrites := t.waitWrites }) ∧
  (∀ (h : HalfId) (w : HeldWrite) (rest : List HeldWrite) (s : State), s.live = true → s.waitWrites = w :: rest →
     halfOf w.tile = h.val →
     (s.mayWrite w = true → s.granBusy w.tile 1 = false → s.moving w.tile = false →
       (s.dirEntry w.tile = none → exec (.heldWriteAccept h) s = .next (applyOp false w { s with waitWrites := rest }).settled) ∧
       (∀ e, s.dirEntry w.tile = some e → e.st = .copy →
         exec (.heldWriteAccept h) s = .next (applyOp false w ({ s with waitWrites := rest }.setDir w.tile none)).settled) ∧
       (∀ e, s.dirEntry w.tile = some e → e.st = .near →
         exec (.heldWriteAccept h) s =
           .next (applyOp true w ({ s with waitWrites := rest }.setDir w.tile (some { e with touch := s.touchTime }))).settled)) ∧
     (∀ (f : FacetId) (u : FUnit) (r : Run) (i : InFlight), s.mayWrite w = false → w.tx = none → w.src = srcFacet f u →
       (s.facet f).run = some r → r.flight u = some i → i.fault = 0 →
       exec (.heldWriteAccept h) s = .next ({ s with waitWrites := rest }.setFacet f { s.facet f with
         run := some (r.setFlight u (some { i with fault := BitVec.ofNat 8 (s.spaceCheck w.part 0 w.tile 1) })) }).settled))

/-- GATHER_PIECE_LANDED completes: it takes one landed piece, and the engine takes a turn. The piece is passed on to the next member,
bytes and scales as they stand in the receive area, unless that member is its source. Poison in it fails the context with
DATA_ERROR, and it is not taken.
SCATTER_REDUCE, once P - 1 others and the own partial have landed, completes: each owned element of OUT becomes its start plus the
tree sum, in group order, of its contributions, or their exact sum, rounded as the instruction says; an all-reduce then queues a
transfer to every other member, a reduce-scatter none. Poison in the slots fails the context with DATA_ERROR. -/
def Obligations.GatherAndScatterAdvance : Prop :=
  (∀ (e : ChordId) (p : PartId) (c : Ctx) (i : Iss) (a : View) (src : Nat) (rows : List Nat) (s : State), s.Wf → s.live = true →
     s.ctx e p = some c → c.lead = some i → c.op = 0x40 → c.opened = true → c.fail = 0 → a = i.view (iA i.ins) 0 →
     c.pieces < c.gatherTotal (dDim a.d 1) → c.pieces < s.landings c →
     src = (if schMode c.sch = 0 then
         (c.own + 2 * schP c.sch - 1 - c.pieces / cdiv (dDim a.d 1) (schRows c.sch)) % schP c.sch else schRoot c.sch) →
     rows = (pieces 0 (dDim a.d 1) (schRows c.sch)).getD (c.pieces % cdiv (dDim a.d 1) (schRows c.sch)) [] →
     (s.recvPoisoned (recvView a c.sch) (rows.map fun r => src * dDim a.d 1 + r) = true →
       ∃ u : State, exec (.gatherPieceLanded e p) s = .next (u.chordTurn e p) ∧
         u.ctx e p = some { c with fail := BitVec.ofNat 8 eDataError } ∧ u = { s with ctxs := u.ctxs }) ∧
     (s.recvPoisoned (recvView a c.sch) (rows.map fun r => src * dDim a.d 1 + r) = false →
       ∃ (u : State) (c' : Ctx), exec (.gatherPieceLanded e p) s = .next (u.chordTurn e p) ∧ u.ctx e p = some c' ∧
         c'.pieces = c.pieces + 1 ∧ c'.since = s.limClock ∧ c'.members = c.members ∧
         (src = nextIx c.sch c.own → c'.sends = c.sends) ∧
         (src ≠ nextIx c.sch c.own → ∃ x, c'.sends = c.sends ++ [x] ∧ x.dest = nextIx c.sch c.own ∧ x.cred = 1 ∧ x.sig = some 1 ∧
           ∀ r ∈ rows, ∀ b ∈ rowsAt a.d [0], ∀ j ∈ c.rowPuts (nextIx c.sch c.own) (peerArea (recvView a c.sch) c.sch)
             (s.partBytes i.p) s.partPoisoned (recvView a c.sch) (recvView a c.sch) (ixSet b 1 (src * dDim a.d 1 + r))
             (ixSet b 1 (src * dDim a.d 1 + r)), j ∈ x.jobs) ∧
         u.ctr = s.ctr ∧ u.boot = s.boot ∧ u.nv = s.nv ∧ u.units = s.units)) ∧
  (∀ (e : ChordId) (p : PartId) (c : Ctx) (i : Iss) (mAll nn lo hi z : Nat) (recv : GAddr) (row : Idx → Nat) (own : Iss → Idx → Bool)
     (s : State), s.Wf → s.live = true → s.ctx e p = some c →
     c.lead = some i → c.op = 0x41 → c.opened = true → c.fail = 0 → c.phase = 0 → schP c.sch - 1 ≤ s.landings c →
     s.writesLeft (srcChord e p) = false → mAll = dDim (i.desc (iA i.ins)) 1 → nn = dDim (i.desc (iB i.ins)) 0 →
     lo = c.own * mAll / schP c.sch → hi = (c.own + 1) * mAll / schP c.sch → z = 64 * cdiv ((hi - lo) * nn * 4) 64 →
     recv = gaddr (schRecv c.sch) → row = (fun x => if schMode c.sch = 1 then ix x 1 else lo + ix x 1) →
     own = (fun m x => decide (lo ≤ row x) && decide (row x < hi) && ((c.rowMember mAll (row x)).map fun y => y.f) == some m.f) →
     (s.partPoisoned recv (0, schP c.sch * z) = true →
       ∃ u : State, exec (.scatterReduce e p) s = .next (u.chordTurn e p) ∧
         u.ctx e p = some { c with fail := BitVec.ofNat 8 eDataError } ∧ u = { s with ctxs := u.ctxs }) ∧
     (s.partPoisoned recv (0, schP c.sch * z) = false →
       ∃ (u : State) (c' : Ctx), exec (.scatterReduce e p) s = .next (u.chordTurn e p) ∧ u.ctx e p = some c' ∧ c'.phase = 1 ∧
         c'.since = s.limClock ∧ c'.members = c.members ∧
         (schMode c.sch = 0 → c'.sends = c.sends) ∧
         (schMode c.sch = 1 → c'.sends.map (fun x => x.dest) =
           c.sends.map (fun x => x.dest) ++ (List.range (schP c.sch)).filter (fun q => q != c.own)) ∧
         (s.dir = [] → s.waitWrites = [] → membersApart c.issues own → ∀ m ∈ c.issues, ∀ (out : View) (f : Elem),
           out = m.view (iOut m.ins) 0 → out.fmt = .plain f → dScaleMode out.d = 0 → out.base.space ≠ 3 →
           outClash out [m.view (iA m.ins) 0, m.view (iB m.ins) (m.kpOf (iA m.ins) (iB m.ins))] = false →
           ∀ x ∈ allIdx out.dims, own m x = true → ∀ (vals : Nat → Word) (start v : Word) (n : Nat),
             vals = (fun g => BitVec.ofNat 32 (leNat (s.rdMem m.p recv.space (recv.off + g * z + ((row x - lo) * dDim (m.desc (iB m.ins)) 0 + ix x 0) * 4) 4))) →
             start = (s.reduceStart c m lo (row x) (ix x 0)).1 → schP c.sch ≤ 2 ^ n → n ≤ 12 → dDim (m.desc (iB m.ins)) 0 = nn →
             (schExact c.sch = false → treeOf joinSome n (fun g => if g < schP c.sch then some (vals g) else none) = some v →
               BitVec.ofNat f.width (u.rdRaw m.p out x) =
                 BitVec.ofNat f.width (f.encode (elemMode m.ins m.seed [nn, mAll] [ix x 0, row x]) (fval (fadd start v))).1) ∧
             (schExact c.sch = true → v = (reduceExact start ((List.range (schP c.sch)).map vals)).1 →
               BitVec.ofNat f.width (u.rdRaw m.p out x) =
                 BitVec.ofNat f.width (f.encode (elemMode m.ins m.seed [nn, mAll] [ix x 0, row x]) (fval v)).1)) ∧
         u.ctr = s.ctr ∧ u.boot = s.boot ∧ u.nv = s.nv ∧ u.units = s.units))

/-- TILE_PROMOTE of an absent tile that finds its units free under its partition's ceiling: it starts to be copied (a
read-only tile) or moved (a mutable one); a partition with a ceiling of 0 promotes nothing.
PROMOTION_UNITS: a waiting promotion whose units are free and whose partition stays under its ceiling starts, and
waits no more. -/
def Obligations.PromoteStartsCopyOrMove : Prop :=
  (∀ (p : PartId) (off : Nat) (p3 : Bool) (s : State), s.Wf → s.upset = false → s.admitted p off 1 = true →
     s.dirEntry (s.tileOf off).1 = none →
     (s.ceiling (s.tileOwner (s.tileOf off).1) = 0 → exec (.tilePromote p off p3) s = .next s) ∧
     (s.ceiling (s.tileOwner (s.tileOf off).1) ≠ 0 →
       (s.promos.any fun w => w.tile == (s.tileOf off).1) = false →
       s.occupancy (s.tileOwner (s.tileOf off).1) + (s.tileOf (s.tileOf off).1).2 / 8192 ≤ s.ceiling (s.tileOwner (s.tileOf off).1) →
       (s.tileOf (s.tileOf off).1).2 / 8192 ≤ s.freeUnits (halfOf (s.tileOf off).1) →
       ∃ t e, exec (.tilePromote p off p3) s = .next t ∧ t.dirEntry (s.tileOf off).1 = some e ∧
         e.st = (if s.tileRo (s.tileOf off).1 then .filling else .movingUp) ∧ e.owner = s.tileOwner (s.tileOf off).1 ∧
         e.touch = s.touchTime ∧ e.p3 = p3 ∧ e.held = [] ∧
         (∀ a, a ≠ (s.tileOf off).1 → t.dirEntry a = s.dirEntry a) ∧ t = { s with dir := t.dir })) ∧
  (∀ (off : Nat) (w : PromoWait) (s : State), s.live = true → s.upset = false →
     s.promos.find? (fun x => x.tile == (s.tileOf off).1) = some w → s.flushing (s.tileOf off).1 = false → w.victim = none →
     s.occupancy w.part + (s.tileOf w.tile).2 / 8192 ≤ s.ceiling w.part →
     (s.tileOf w.tile).2 / 8192 ≤ s.freeUnits (halfOf w.tile) →
     exec (.promotionUnits off) s =
       .next { s.startPromote w.tile (s.tileOf w.tile).2 w.p3 with
               promos := s.promos.filter fun x => x.tile != (s.tileOf off).1 })

/-- TILE_LANDS, by the state of a tile on which no seal, unseal or promotion is recorded and whose granule is not being
flushed: a copy or a write-back ends as COPY, or is dropped for the writes held on it, which go to the stack; a move ends
at its destination, where the held writes are applied in their order. Operations all of whose writes have landed are answered
then (R28, R262).
TILE_SEAL and TILE_UNSEAL in a paged granule, by the state of the tile: an absent tile takes its class bit; a near
tile that is sealed is cleaned, a copy that is unsealed becomes the near tile; a moving tile records the request, and a
seal in other states changes nothing. -/
def Obligations.TilesLandAndAreSealed : Prop :=
  (∀ (off : Nat) (e : DirEntry) (s : State), s.live = true → s.upset = false → s.dirEntry (s.tileAt off) = some e →
     e.sealReq = false → e.unsealReq = false → e.promo = none → s.flushing (s.tileAt off) = false →
     (e.st = .filling → e.held = [] → exec (.tileLands off) s =
       .next (s.setDir (s.tileAt off) (some { e with st := .copy, touch := s.touchTime, p3 := false })).settled) ∧
     (e.st = .cleaning → e.held = [] → exec (.tileLands off) s =
       .next (s.setDir (s.tileAt off) (some { e with st := .copy, p3 := false })).settled) ∧
     (e.st = .filling ∨ e.st = .cleaning → e.held ≠ [] → exec (.tileLands off) s =
       .next (e.held.foldl (fun u w => applyOp false w u) (s.setDir (s.tileAt off) none)).settled) ∧
     (e.st = .movingUp → exec (.tileLands off) s =
       .next (e.held.foldl (fun u w => applyOp true w u)
         (s.setDir (s.tileAt off) (some { e with st := .near, touch := s.touchTime, held := [], p3 := false }))).settled) ∧
     (e.st = .movingDown → exec (.tileLands off) s =
       .next (e.held.foldl (fun u w => applyOp false w u) (s.setDir (s.tileAt off) none)).settled)) ∧
  (∀ (off g : Nat) (s : State), s.live = true → s.upset = false → granuleOf off = some g →
     s.granClass g = 2 →
     (s.dirEntry (s.tileOf off).1 = none →
       exec (.tileSeal off) s = .next { s with classBits := insNat (s.tileOf off).1 s.classBits } ∧
       exec (.tileUnseal off) s = .next { s with classBits := s.classBits.filter fun x => x ≠ (s.tileOf off).1 }) ∧
     (∀ e, s.dirEntry (s.tileOf off).1 = some e →
       (e.st = .near → exec (.tileSeal off) s =
         .next ({ s with classBits := insNat (s.tileOf off).1 s.classBits }.setDir (s.tileOf off).1 (some { e with st := .cleaning }))) ∧
       (e.st = .movingUp → exec (.tileSeal off) s = .next (s.setDir (s.tileOf off).1 (some { e with sealReq := true }))) ∧
       (e.st = .movingDown →
         exec (.tileSeal off) s = .next (s.setDir (s.tileOf off).1 (some { e with sealReq := true, unsealReq := false })) ∧
         exec (.tileUnseal off) s = .next (s.setDir (s.tileOf off).1 (some { e with unsealReq := true, sealReq := false }))) ∧
       (e.st = .filling ∨ e.st = .copy ∨ e.st = .cleaning → exec (.tileSeal off) s = .next s) ∧
       (e.st = .filling ∨ e.st = .cleaning →
         exec (.tileUnseal off) s = .next (s.setDir (s.tileOf off).1 (some { e with unsealReq := true }))) ∧
       (e.st = .copy → exec (.tileUnseal off) s =
         .next ({ s with classBits := s.classBits.filter fun x => x ≠ (s.tileOf off).1 }.setDir (s.tileOf off).1
           (some { e with st := .near })))))

/-- ARBITER_GRANT: the requests that arrive join those that wait, each in its class (R36, R66). Where the crossing has room
(R57) and the stack is not throttled, one request that P1's limit does not hold is granted, and the frame of 20 slots goes on.
P0 and P1 prevail over all others; without them P3 has the even slots and P4 slot 19. P1 is not granted while 8 of the last 39
grants were P1, and each of its requests that this holds is counted once. Without room, or while throttled, nothing is
granted and the slot stays.
STACK_TEMP_READ: TEMP shows the reading, refresh runs at 1×, 2× or 4× by the thresholds with their hysteresis, and
throttling begins above 105 °C and ends at 103 °C or below. A reading of at most 110 °C changes nothing else; one above it trips
the device with cause 2 and the stack as its source (R441).
HBM_REFRESH: the interval's expiry is noted at the controller of a stack that is not OFF and not in self-refresh. -/
def Obligations.ControllersServeTheirStacks : Prop :=
  (∀ (n : Nat) (arrivals : List ArbRequest) (s : State), s.Wf → s.live = true →
     (s.hasRoom n = true → s.throttled n (s.gather n arrivals) = false → (∃ w ∈ (s.gather n arrivals).free, w.cls < 5) →
       ∃ t w, exec (.arbiterGrant n arrivals) s = .next t ∧ (t.arb n).grant = some w ∧
         w ∈ (s.gather n arrivals).mark.free ∧ (t.arb n).waiting = (s.gather n arrivals).mark.waiting.erase w ∧
         (t.arb n).slot = ((s.arb n).slot + 1) % 20 ∧ (t.arb n).hist = (w.cls :: (s.arb n).hist).take 39 ∧
         (w.cls = 1 → ((s.arb n).hist.filter fun c => c == 1).length < 8) ∧
         ((∃ x ∈ (s.gather n arrivals).free, x.cls ≤ 1) → w.cls ≤ 1) ∧
         ((s.arb n).slot % 2 = 0 → (∀ x ∈ (s.gather n arrivals).free, 1 < x.cls) →
           (∃ x ∈ (s.gather n arrivals).free, x.cls = 3) → w.cls = 3) ∧
         ((s.arb n).slot = 19 → (∀ x ∈ (s.gather n arrivals).free, 1 < x.cls) →
           (∃ x ∈ (s.gather n arrivals).free, x.cls = 4) → w.cls = 4) ∧
         (∀ r, p1Counter n = some r →
           (t.val r).toNat = min 0xFFFFFFFF ((s.val r).toNat + (if (s.gather n arrivals).full then
             ((s.gather n arrivals).waiting.filter fun x => x.cls == 1 && !x.held).length else 0))) ∧
         (∀ m, m ≠ n → t.arb m = s.arb m) ∧
         t = { s with arbs := t.arbs, regs := t.regs, memctl := t.memctl, xings := t.xings }) ∧
     (s.hasRoom n = false ∨ s.throttled n (s.gather n arrivals) = true →
       ∃ t, exec (.arbiterGrant n arrivals) s = .next t ∧ t.arb n = (s.gather n arrivals).mark ∧
         (∀ m, m ≠ n → t.arb m = s.arb m) ∧ t = { s with arbs := t.arbs, regs := t.regs })) ∧
  (∀ (x : StackId) (temp : BitVec 8) (s : State), s.Wf → s.awake = true → s.halted = false → (s.unit (uStack x)).st ≠ .off →
     ∃ t m, exec (.stackTempRead x temp) s = .next t ∧ t.memCtl x = m ∧ m.temp = temp.toNat ∧
       (96 ≤ temp.toNat → m.refresh = 2) ∧
       (86 ≤ temp.toNat → temp.toNat ≤ 93 → m.refresh = 1) ∧
       (temp.toNat ≤ 83 → m.refresh = 0) ∧
       (105 < temp.toNat → m.throttle = true) ∧ (temp.toNat ≤ 103 → m.throttle = false) ∧
       (103 < temp.toNat → temp.toNat ≤ 105 → m.throttle = (s.memCtl x).throttle) ∧
       m.selfRefresh = (s.memCtl x).selfRefresh ∧ m.refreshDue = (s.memCtl x).refreshDue ∧
       ((s.memCtl x).refresh < m.refresh → (t.val (.memLog x)).getLsbD 0 = true) ∧
       ((s.memCtl x).throttle = false → m.throttle = true → (t.val (.memLog x)).getLsbD 1 = true) ∧
       (∀ y, y ≠ x.val → t.memCtl y = s.memCtl y) ∧
       (temp.toNat ≤ 110 → t = { s with memctl := t.memctl, regs := t.regs, out := t.out, fns := t.fns }) ∧
       (110 < temp.toNat → t.halted = true ∧ t.pins.trip = true ∧ t.get .pwrTrip 11 8 = 2 ∧ t.get .pwrTrip 7 0 = x.val ∧
         t.mem = s.mem ∧ t.dir = s.dir)) ∧
  (∀ (x : StackId) (s : State), s.awake = true → s.halted = false → (s.unit (uStack x)).st ≠ .off →
     (s.memCtl x).selfRefresh = false →
     exec (.hbmRefresh x) s = .next (s.setMemCtl x { s.memCtl x with refreshDue := true }))

/-- GRANULE_WRITE: the register takes the value; a write that changes it starts the flush, with a scrub to follow where
OWNED or OWNER changed, and a write of the same value starts nothing.
FLUSH_DONE and SCRUB_DONE: once no tile of the granule is near, the flush gives way to the scrub or to the new
values; the scrub leaves every byte of the granule zero and every byte outside it as before; then what waited for the granule
goes on. -/
def Obligations.GranuleIsFlushedThenScrubbed : Prop :=
  (∀ (fn : FnId) (g : GranId) (w : Word) (s : State), s.Wf → Taken s fn (.memGran g) w →
     ∃ t, exec (.granuleWrite fn g w) s = .next t ∧ t.val (.memGran g) = s.merged (.memGran g) w ∧
       s.sameRegs t [(Reg.memGran g).key] ∧
       (s.merged (.memGran g) w = s.val (.memGran g) → t.granProc g = s.granProc g ∧ t.dir = s.dir) ∧
       (s.merged (.memGran g) w ≠ s.val (.memGran g) → (t.granProc g).flush = true ∧ (t.granProc g).scrub = false ∧
         (t.granProc g).needScrub = ((s.granProc g).needScrub || t.get (.memGran g) 9 9 != s.get (.memGran g) 9 9 ||
           t.get (.memGran g) 4 0 != s.get (.memGran g) 4 0)) ∧
       (∀ k, k ≠ g.val → t.granProc k = s.granProc k) ∧ t.mem = s.mem ∧
       t = { s with regs := t.regs, gran := t.gran, dir := t.dir }) ∧
  (∀ (g : GranId) (s : State), s.Wf → s.live = true →
     ((s.granProc g).flush = true → s.granTiles g = [] → (s.granProc g).clearClass = false →
       exec (.flushDone g) s =
         .next (s.setGranProc g
           (if (s.granProc g).needScrub then { s.granProc g with flush := false, scrub := true } else gran0)).pumpAll) ∧
     ((s.granProc g).scrub = true →
       ∃ t : State, exec (.scrubDone g) s = .next t.pumpAll ∧ t.granProc g = gran0 ∧
         (∀ a, granBase g ≤ a → a < granBase g + 2 ^ 30 →
           rd t.mem a = 0 ∧ t.classBits.contains a = false ∧ t.poison.contains (a / 256) = false) ∧
         (∀ a, a < granBase g ∨ granBase g + 2 ^ 30 ≤ a →
           rd t.mem a = rd s.mem a ∧ t.classBits.contains a = s.classBits.contains a) ∧
         (∀ k, k ≠ g.val → t.granProc k = s.granProc k) ∧
         t = { s with mem := t.mem, classBits := t.classBits, poison := t.poison, gran := t.gran }))

/-- EXCHANGE_COUNTS, once every count has landed, completes: it places the sources' segments one after another and returns each source
its row offset with a credit; counts beyond OUT's rows end the context with COUNT_OVERFLOW. EXCHANGE_DATA, once every offset is known,
completes: it copies the own segment and sends each other one to the offset returned. Poison in what they read is DATA_ERROR.
RING_STEP_BOUNDARY completes: it ends a step whose shard is sent and whose successor has landed: every row takes the shard's visible
keys, and the step count moves by one. The last step writes the outputs of the rows. Before it the rows are stored, and a pre-emption
request ends the context with a valid state record; else the next shard is sent where the ring goes on. Poison is DATA_ERROR. -/
def Obligations.ExchangeAndRingAdvance : Prop :=
  (∀ (e : ChordId) (p : PartId) (c : Ctx) (i : Iss) (n : Nat) (recv : GAddr) (s : State), s.Wf → s.live = true → s.ctx e p = some c →
     c.lead = some i → c.op = 0x43 → c.opened = true → c.fail = 0 → n = schP c.sch → recv = gaddr (schRecv c.sch) →
     (c.phase = 0 → n - 1 ≤ s.landings c → s.partPoisoned recv (0, 8 * n) = true →
       ∃ u : State, exec (.exchangeCounts e p) s = .next (u.chordTurn e p) ∧
         u.ctx e p = some { c with fail := BitVec.ofNat 8 eDataError } ∧ u = { s with ctxs := u.ctxs }) ∧
     (c.phase = 0 → n - 1 ≤ s.landings c → s.partPoisoned recv (0, 8 * n) = false →
       sumTo (s.recvCounts p c) n ≤ dDim (i.desc (iOut i.ins)) 1 →
       ∃ (u : State) (c' : Ctx), exec (.exchangeCounts e p) s = .next (u.chordTurn e p) ∧ u.ctx e p = some c' ∧ c'.phase = 1 ∧
         c'.sends.map (fun x => x.dest) = c.sends.map (fun x => x.dest) ++ (List.range n).filter (fun q => q != c.own) ∧
         (∀ k x, c'.sends[c.sends.length + k]? = some x → x.sig = some 0 ∧ x.cred = n - 1 ∧
           x.jobs = c.putTo x.dest (schRecv c.sch) (8 * n + 8 * c.own)
             (natLe 8 (((List.range x.dest).map fun g => (s.recvCounts p c).getD g 0).foldl (· + ·) 0)) false) ∧
         u = s.setCtx e p (some c')) ∧
     (c.phase = 0 → n - 1 ≤ s.landings c → s.partPoisoned recv (0, 8 * n) = false →
       dDim (i.desc (iOut i.ins)) 1 < sumTo (s.recvCounts p c) n →
       ∃ u : State, exec (.exchangeCounts e p) s = .next (u.chordTurn e p) ∧ u.ctx e p = some { c with fail := 0x28 } ∧
         (u.val (.chdLog e)).getLsbD 3 = true ∧ u.mem = s.mem) ∧
     (c.phase = 1 → 2 * (n - 1) ≤ s.credits c → s.partPoisoned recv (8 * n, 8 * n) = true →
       ∃ u : State, exec (.exchangeData e p) s = .next (u.chordTurn e p) ∧
         u.ctx e p = some { c with fail := BitVec.ofNat 8 eDataError } ∧ u = { s with ctxs := u.ctxs }) ∧
     (c.phase = 1 → 2 * (n - 1) ≤ s.credits c → s.partPoisoned recv (8 * n, 8 * n) = false →
       ∃ (u : State) (c' : Ctx), exec (.exchangeData e p) s = .next (u.chordTurn e p) ∧ u.ctx e p = some c' ∧ c'.phase = 2 ∧
         c'.sends.map (fun x => x.dest) = c.sends.map (fun x => x.dest) ++ (List.range n).filter (fun q => q != c.own) ∧
         u.ctr = s.ctr ∧ u.boot = s.boot ∧ u.nv = s.nv ∧ u.units = s.units ∧
         ∀ (a out : View) (first : Nat → Nat), a = i.view (iA i.ins) 0 → out = i.view (iOut i.ins) 0 →
           first = (fun q => ((List.range q).map fun g => s.sendCount p c.sch g).foldl (· + ·) 0) →
           (∀ k x, c'.sends[c.sends.length + k]? = some x → x.sig = some 1 ∧ x.cred = 2 * (n - 1) ∧
             x.jobs = (List.range (s.sendCount p c.sch x.dest)).flatMap fun r =>
               c.rowPuts x.dest (peerTensor out) (s.partBytes p) s.partPoisoned a out [0, first x.dest + r, 0, 0, 0]
                 [0, s.rdVal p { recv with off := recv.off + 8 * n + 8 * x.dest } 4 + r, 0, 0, 0]) ∧
           (s.dir = [] → s.waitWrites = [] → a.fmt.isMx = false → out.fmt.isMx = false → a.base.space ≠ 3 → out.base.space ≠ 3 → c.own < n →
             (∀ r r', r < r' → (rowElems out [0, r, 0, 0, 0]).1 + (rowElems a [0, 0, 0, 0, 0]).2 ≤ (rowElems out [0, r', 0, 0, 0]).1) →
             ∀ r < s.sendCount p c.sch c.own,
               rdBytes u.mem (out.base.off +
                   (rowElems out [0, sumTo (s.recvCounts p c) c.own + r, 0, 0, 0]).1) (rowElems a [0, 0, 0, 0, 0]).2 =
                 rdBytes s.mem (a.base.off + (rowElems a [0, first c.own + r, 0, 0, 0]).1) (rowElems a [0, 0, 0, 0, 0]).2))) ∧
  (∀ (e : ChordId) (p : PartId) (c : Ctx) (i : Iss) (st : GAddr) (x : LenEntry) (sh : Shard) (s : State), s.Wf → s.live = true →
     s.ctx e p = some c →
     c.lead = some i → c.op = 0x42 → c.opened = true → c.fail = 0 → c.phase = 0 → c.sends = [] → s.chdBusy e p = false →
     c.landLeft s = false → st = gaddr (schState c.sch) → x = s.ringEntry1 p c.par → sh = s.stepShard p c c.step →
     (s.stepPoisoned p c = true →
       ∃ u : State, exec (.ringStepBoundary e p) s = .next (u.chordTurn e p) ∧
         u.ctx e p = some { c with fail := BitVec.ofNat 8 eDataError } ∧ u = { s with ctxs := u.ctxs }) ∧
     (s.stepPoisoned p c = false →
       ∃ (u : State) (c' : Ctx), exec (.ringStepBoundary e p) s = .next (u.chordTurn e p) ∧ u.ctx e p = some c' ∧
         c'.step = c.step + 1 ∧ c'.since = s.limClock ∧ c'.members = c.members ∧
         c'.phase = (if ringSteps c.sch ≤ c.step + 1 then 1 else if s.preemptAsked e p c then 2 else 0) ∧
         (c'.phase ≠ 0 ∨ schP c.sch < c.step + 3 → c'.sends = []) ∧
         (c'.phase = 0 → c.step + 3 ≤ schP c.sch →
           ∃ y, c'.sends = [y] ∧ y.dest = nextIx c.sch c.own ∧ y.cred = c.step + 2 ∧ y.sig = some 1) ∧
         (∀ m ∈ c.issues, ∀ r ∈ s.ringMine c m,
           (∀ m' ∈ c.issues, ∀ r' ∈ s.ringMine c m', r'.1 * dDim (m'.desc (iA m'.ins)) 1 + r'.2 = r.1 * dDim (m.desc (iA m.ins)) 1 + r.2 →
             m' = m ∧ r' = r) →
           c'.rowOf (r.1 * dDim (m.desc (iA m.ins)) 1 + r.2) =
             (s.ringRow m (m.view (iA m.ins) 0) c.par x sh r.1 r.2 (c.rowOf (r.1 * dDim (m.desc (iA m.ins)) 1 + r.2))).1) ∧
         (s.dir = [] → s.waitWrites = [] → c'.phase = 1 → aLse c.par = 0 →
           membersApart c.issues (fun m y => (s.ringMine c m).contains (ix y 2, ix y 1) && ix y 3 == 0 && ix y 4 == 0) →
           ∀ m ∈ c.issues, ∀ (out : View) (f : Elem), out = m.view (iOut m.ins) 0 → out.fmt = .plain f → dScaleMode out.d = 0 →
             out.base.space ≠ 3 → outClash out [m.view (iA m.ins) 0] = false →
             ∀ y ∈ allIdx out.dims, (ix y 2, ix y 1) ∈ s.ringMine c m → ix y 3 = 0 → ix y 4 = 0 →
               BitVec.ofNat f.width (u.rdRaw m.p out y) = BitVec.ofNat f.width (f.encode (elemMode m.ins m.seed out.dims y)
                 (fval ((rowDone (c'.rowOf (ix y 2 * dDim (m.desc (iA m.ins)) 1 + ix y 1))).1.getD (ix y 0) 0))).1) ∧
         (s.dir = [] → s.waitWrites = [] → st.space ≠ 3 → c'.phase ≠ 1 → (∀ n, (c'.rowOf n).o.length = aDv c.par) →
           (∀ n < rowCount (i.desc (iA i.ins)),
             rdBytes u.mem (st.off + 64 + n * rowLen (aDv c.par)) (rowLen (aDv c.par)) = rowBytes (c'.rowOf n)) ∧
           (c'.phase = 2 → rdBytes u.mem st.off 64 = stateRecord (c.step + 1) (min (c.step + 1) (schP c.sch - 1)) true)) ∧
         u.boot = s.boot ∧ u.nv = s.nv ∧ u.units = s.units))

/-- REGISTER_WRITE of a register that starts nothing: RW and RW3 bits take the value written, a WZ bit without its
new-set mark is cleared by a 0, every other bit and every other register stays.
The sequence-table window (R199): a write of a word replaces the four bytes that the window shows there, through a VF all
but PARTITION and VALID of an entry, and a read returns them; an entry of another partition reads as zero through a VF and
ignores the write. -/
def Obligations.PlainWriteReplacesFields : Prop :=
  (∀ (fn : FnId) (r : Reg) (w : Word) (s : State), s.Wf → Taken s fn r w → r.plain = true →
     ∃ t, exec (.registerWrite fn ⟨r.offset, []⟩ 0xF w) s = .next t ∧
       (∀ i, i < 32 → (t.val r).getLsbD i =
         if (r.mask .rw ||| r.mask .rw3).getLsbD i then w.getLsbD i
         else if (r.mask .wz).getLsbD i && !w.getLsbD i && !(s.cell r).mark.getLsbD i then false
         else (s.val r).getLsbD i) ∧
       (t.cell r).mark = (s.cell r).mark ∧ s.sameRegs t [r.key] ∧ t = { s with regs := t.regs }) ∧
  (∀ (fn : FnId) (o : Nat) (w : Word) (s : State), s.Wf → s.upset = false → s.val (.seqWord o) = 0 →
     (Taken s fn (.seqWord o) w →
       ∃ t, exec (.registerWrite fn ⟨(Reg.seqWord o).offset, []⟩ 0xF w) s = .next t ∧
         (fn = 0 ∨ o % 64 ≠ 36 ∧ (rd s.seqTab (s.seqAt fn o / 64 * 64 + 37)).toNat % 32 = fn.val →
           rdBytes t.seqTab (s.seqAt fn o) 4 = natLe 4 w.toNat) ∧
         (fn ≠ 0 → o % 64 = 36 → (rd s.seqTab (s.seqAt fn o / 64 * 64 + 37)).toNat % 32 = fn.val →
           rdBytes t.seqTab (s.seqAt fn o) 4 =
             natLe 4 ((w &&& 0xFFFEE0FF) ||| (BitVec.ofNat 32 (rdNat s.seqTab (s.seqAt fn o) 4) &&& 0x00011F00)).toNat) ∧
         (∀ a, a < s.seqAt fn o ∨ s.seqAt fn o + 4 ≤ a → rd t.seqTab a = rd s.seqTab a) ∧
         (fn ≠ 0 → (rd s.seqTab (s.seqAt fn o / 64 * 64 + 37)).toNat % 32 ≠ fn.val → t = s) ∧
         t = { s with seqTab := t.seqTab, poison := t.poison }) ∧
     (Reached s fn false (.seqWord o) →
       ∃ t, exec (.wzRegisterRead fn ⟨(Reg.seqWord o).offset, 0xF, []⟩) s = .next t ∧
         t.out.data = if fn = 0 ∨ (rd s.seqTab (s.seqAt fn o / 64 * 64 + 37)).toNat % 32 = fn.val
           then rdBytes s.seqTab (s.seqAt fn o) 4 else [0, 0, 0, 0]))

/-- A write that is refused changes no register but the logs: fewer than four byte enables set ACCESS_BAD; an RK bit that
differs sets RK_REJECT and REJECT; a rule's rejection sets REJECT and the flags the rule names. -/
def Obligations.RefusedWriteOnlyLogs : Prop :=
  ∀ (fn : FnId) (r : Reg) (w : Word) (s : State), s.Wf → Reached s fn true r → s.upset = false →
    (r.ordered = true → s.hostHeld fn = false) →
    (∀ be : BitVec 4, be ≠ 0xF → ∃ t, exec (.registerWrite fn ⟨r.offset, []⟩ be w) s = .next t ∧
      (t.val .errRegLog).getLsbD 3 = true ∧ s.sameRegs t [Reg.errRegLog.key, Reg.errRejectWhere.key] ∧ s.flagged t) ∧
    ((w ^^^ s.readVal fn r) &&& r.mask .rk ≠ 0 → ∃ t, exec (.registerWrite fn ⟨r.offset, []⟩ 0xF w) s = .next t ∧
      (t.val .errRegLog).getLsbD 1 = true ∧ (t.val .errRegLog).getLsbD 2 = true ∧
      s.sameRegs t [Reg.errRegLog.key, Reg.errRejectWhere.key] ∧ s.flagged t) ∧
    (∀ l, (w ^^^ s.readVal fn r) &&& r.mask .rk = 0 → s.rejects r w = some l →
      ∃ t, exec (.registerWrite fn ⟨r.offset, []⟩ 0xF w) s = .next t ∧
        (t.val .errRegLog).getLsbD 2 = true ∧ (∀ x ∈ l, (t.val x.1).getLsbD x.2 = true) ∧
        s.sameRegs t (Reg.errRegLog.key :: Reg.errRejectWhere.key :: l.map fun x => x.1.key) ∧ s.flagged t)

/-- A read returns the enabled bytes of what the register shows and clears the new-set marks of its WZ bits; it changes no
value. A 64-bit access reads word by word, the lower first. An event that sets a WZ bit from 0 sets its mark, one that finds the
bit at 1 changes nothing, and a write of 0 clears the bit only while the mark is clear. Where no register lies a read returns 0; a
block that holds in a freeze returns 0 and sets SEC_LOG bit 1. A read waits while a write or a doorbell of its function
waits (notes/assumptions/63.md). -/
def Obligations.ReadShowsAndClearsMarks : Prop :=
  ∀ (fn : FnId) (be : BitVec 4) (s : State), s.Wf → s.upset = false →
    (∀ r, Reached s fn false r → ∃ t, exec (.wzRegisterRead fn ⟨r.offset, be, []⟩) s = .next t ∧
      exec (.triplicatedRead fn ⟨r.offset, be, []⟩) s = .next t ∧ t.out.data = enabledBytes be (s.readVal fn r) ∧
      (be = 0xF → t.out.data = natLe 4 (s.readVal fn r).toNat) ∧
      t.out.poisoned = false ∧ t.val r = s.val r ∧ (t.cell r).mark &&& r.mask .wz = 0 ∧ s.sameRegs t [r.key] ∧
      t = { s with regs := t.regs, out := { s.out with data := t.out.data, poisoned := t.out.poisoned } }) ∧
    (∀ r q c, Reached s fn false r → Reached s fn false q → q.offset = r.offset + 4 →
      ∃ t, exec (.wzRegisterRead fn ⟨r.offset, be, [c]⟩) s = .next t ∧
        t.out.data = enabledBytes be (s.readVal fn r) ++ enabledBytes c (s.readVal fn q)) ∧
    (∀ o, s.answersTo fn = true → (s.freeze.frozen = true → freezeBlock o = true) → s.target fn false o = none →
      (s.freeze.frozen = false → s.hostLine fn = false) →
      exec (.wzRegisterRead fn ⟨o, be, []⟩) s =
        .next { s with out := { s.out with data := enabledBytes be 0, poisoned := false } }) ∧
    (∀ o, s.answersTo fn = true → s.freeze.frozen = false → s.hostLine fn = true →
      ∃ t, exec (.wzRegisterRead fn ⟨o, be, []⟩) s = .next t ∧ (t.fn fn).waiting = (s.fn fn).waiting ++ [.read o be false] ∧
        t = { s with fns := t.fns }) ∧
    (∀ o, s.answersTo fn = true → s.freeze.frozen = true → freezeBlock o = false →
      ∃ t, exec (.wzRegisterRead fn ⟨o, be, []⟩) s = .next t ∧ t.out.data = enabledBytes be 0 ∧
        (t.val .secLog).getLsbD 1 = true ∧ s.sameRegs t [Reg.secLog.key]) ∧
    (∀ (r : Reg) (b : Nat), b < 32 →
      ((s.val r).getLsbD b = false →
        ((s.setWz r b []).val r).getLsbD b = true ∧ ((s.setWz r b []).cell r).mark.getLsbD b = true) ∧
      ((s.val r).getLsbD b = true → s.setWz r b [] = s)) ∧
    (∀ (r : Reg) (w : Word), Taken s fn r w → r.plain = true →
      ∃ t, exec (.registerWrite fn ⟨r.offset, []⟩ 0xF w) s = .next t ∧ ∀ i, (r.mask .wz).getLsbD i = true → w.getLsbD i = false →
        (t.val r).getLsbD i = ((s.val r).getLsbD i && (s.cell r).mark.getLsbD i))

/-- One copy of a triplicated bit that flips changes no value that a use sees; a read repairs the copies, counts the repair
and logs it; TRIPLICATED_SCRUB repairs every triplicated register. -/
def Obligations.UpsetIsOutvotedAndRepaired : Prop :=
  (∀ (off : Nat) (copy : Fin 3) (b : Fin 32) (r : Reg) (s : State), s.Wf → s.pins.reset = false → regAt 0 off = some r →
    r.triple.getLsbD b = true → s.agrees r = true →
    ∃ t, exec (.singleUpset off copy b) s = .next t ∧ t.val r = s.val r ∧ t.agrees r = false ∧
      s.sameRegs t [r.key] ∧ t = { s with regs := t.regs }) ∧
  (∀ (fn : FnId) (r : Reg) (s : State), s.Wf → Reached s fn false r → r.triplicated = true → s.agrees r = false →
    (∀ x ∈ partEntry fn, x.key = r.key ∨ s.agrees x = true) →
    ∃ t, exec (.triplicatedRead fn ⟨r.offset, 0xF, []⟩) s = .next t ∧ t.agrees r = true ∧ t.val r = s.val r ∧
      t.out.data = natLe 4 (s.readVal fn r).toNat ∧ t.val .errVoteCnt = satAdd32 (s.val .errVoteCnt) 1 ∧
      (t.val .errRegLog).getLsbD 0 = true ∧
      s.sameRegs t [r.key, Reg.errVoteCnt.key, Reg.errRegLog.key, Reg.errVoteWhere.key]) ∧
  (∀ s : State, s.Wf → s.awake = true → s.boot.ready = true →
    ∃ t, exec .triplicatedScrub s = .next t ∧ s.flagged t ∧
      ∀ r, r.triplicated = true → regAt 0 r.key = some r → t.agrees r = true ∧ t.val r = s.val r)

/-- RING_STALL, COLL_ABORT and PREEMPT_REQUEST complete. RING_STALL fails an open ring whose step has lasted CHD_WATCHDOG, and another open context a single wait of which for
landings or for its first transfer's credits has, and records where it stood; COLL_ABORT fails one at which a STOP has
arrived, or whose gang has faulted; PREEMPT_REQUEST sets the engine's request register. -/
def Obligations.StalledContextsFail : Prop :=
  ∀ (e : ChordId) (p : PartId) (s : State), s.Wf →
    (∀ c, s.live = true → s.ctx e p = some c → c.opened = true → c.fail = 0 → s.get (.chdWatchdog e p) 23 0 ≠ 0 →
      (c.op = 0x42 ∧ c.since + s.get (.chdWatchdog e p) 23 0 * 1000 ≤ s.limClock ∨
        c.op ≠ 0x42 ∧ s.landWait c = true ∧ c.since + s.get (.chdWatchdog e p) 23 0 * 1000 ≤ s.limClock ∨
        c.op ≠ 0x42 ∧ ∃ a x l, c.credAt = some a ∧ c.sends = x :: l ∧ s.credits c < x.cred ∧
          a + s.get (.chdWatchdog e p) 23 0 * 1000 ≤ s.limClock) →
      ∃ u : State, exec (.ringStall e p) s = .next (u.chordTurn e p) ∧ u.ctx e p = some { c with fail := 0x22 } ∧
        (u.val (.chdLog e)).getLsbD 1 = true ∧
        u.get (.chdStall e p) 23 12 = (if c.op = 0x42 then c.step % 4096 else 0) ∧ u.get (.chdStall e p) 25 24 ≤ 2 ∧
        s.sameRegs u [(Reg.chdLog e).key, (Reg.chdStall e p).key] ∧ u.mem = s.mem ∧ u.ctr = s.ctr) ∧
    (∀ c, s.live = true → s.ctx e p = some c → c.opened = true → c.fail = 0 → s.gangOf c.queue c.wseq = none → s.stops c ≠ 0 →
      ∃ u : State, exec (.collAbort e p) s = .next (u.chordTurn e p) ∧
        u.ctx e p = some { c with fail := 0x27, aborting := true, sends := [] } ∧ (u.val (.chdLog e)).getLsbD 2 = true ∧
        s.sameRegs u [(Reg.chdLog e).key, (Reg.chdStall e p).key] ∧ u.mem = s.mem ∧ u.ctr = s.ctr) ∧
    (∀ c g, s.live = true → s.ctx e p = some c → c.fail = 0 → s.gangOf c.queue c.wseq = some g → g.fault ≠ none →
      exec (.collAbort e p) s = .next ((s.setCtx e p (some { c with fail := 0x23 })).chordTurn e p)) ∧
    (∀ w, Taken s 0 (.chdPreemptReq e) w →
      ∃ t, exec (.preemptRequest e w) s = .next t ∧ t.val (.chdPreemptReq e) = w ∧ s.sameRegs t [(Reg.chdPreemptReq e).key] ∧
        t = { s with regs := t.regs })

/-- HOST_SIGNAL and DOORBELL add a value from 1 to 2^31 - 1 to the counter, COUNTER_SET sets it; every other counter
stays, and no register changes but queues' logs. A value out of range adds nothing and sets DB_BAD of the queue rung, or
of every queue whose DB_CTR is the counter (which queues is the model's choice, notes/assumptions/48.md). Elsewhere in a queue's
page a write does nothing, and a read of it returns 0. A doorbell, or a write of a counter or queue register, while a BAR4 write of the function has not landed changes nothing yet:
it waits, and it is applied once they have landed (that it is applied when the command queue is empty is the model's
choice, notes/assumptions/63.md). -/
def Obligations.SignalsAddToCounters : Prop :=
  ∀ (fn : FnId) (n : CtrId) (v : Word) (s : State), s.Wf →
    (Taken s fn (.ctrSignal n) v →
      ∃ t, exec (.hostSignal fn n v) s = .next t ∧
        t.counter n = (if sigOk v then s.counter n + v else s.counter n) ∧ (∀ k, k ≠ n.val → t.counter k = s.counter k) ∧
        (sigOk v = false → ∀ q, q < 4096 → s.val (.qCfg q) ≠ 0 → s.get (.qCfg q) 24 11 = n → (t.val (.qLog q)).getLsbD 0 = true) ∧
        s.sameRegs t queueLogKeys ∧
        t = { s with ctr := t.ctr, queues := t.queues, posts := t.posts, regs := t.regs,
                     out := { s.out with msix := t.out.msix }, fns := t.fns }) ∧
    (∀ q : QueueId, s.answersTo fn = true → s.boot.recovery = false → s.freeze.frozen = false → s.upset = false →
      fn = 0 ∨ s.ownsQueue fn q = true → s.get (.qCfg q) 24 11 = n →
      s.ownsQueue (s.qPart q) q = true → s.ownsCtr (s.qPart q) n = true →
      (s.hostHeld fn = false → ∃ t, exec (.doorbell fn ⟨q, 0⟩ (some v)) s = .next t ∧
        t.counter n = (if sigOk v then s.counter n + v else s.counter n) ∧ (∀ k, k ≠ n.val → t.counter k = s.counter k) ∧
        (sigOk v = false → (t.val (.qLog q)).getLsbD 0 = true) ∧ s.sameRegs t queueLogKeys ∧
        t = { s with ctr := t.ctr, queues := t.queues, posts := t.posts, regs := t.regs,
                     out := { s.out with msix := t.out.msix }, fns := t.fns }) ∧
      (s.hostHeld fn = true → ∃ t, exec (.doorbell fn ⟨q, 0⟩ (some v)) s = .next t ∧
        (t.fn fn).waiting = (s.fn fn).waiting ++ [.doorbell q v] ∧ (∀ k, k ≠ fn.val → t.fn k = s.fn k) ∧
        t = { s with fns := t.fns }) ∧
      (∀ rest, (s.fn fn).waiting = .doorbell q v :: rest →
        (s.writesLeft (srcHost fn) = true → s.lateAccess fn = s) ∧
        (s.writesLeft (srcHost fn) = false →
          (s.lateAccess fn).counter n = (if sigOk v then s.counter n + v else s.counter n) ∧
          (∀ k, k ≠ n.val → (s.lateAccess fn).counter k = s.counter k) ∧ ((s.lateAccess fn).fn fn).waiting = rest))) ∧
    (∀ (q : QueueId) (o : Nat), s.answersTo fn = true → s.freeze.frozen = false →
      exec (.doorbell fn ⟨q, o⟩ none) s = .next { s with out := { s.out with data := [0, 0, 0, 0], poisoned := false } } ∧
      (o ≠ 0 → exec (.doorbell fn ⟨q, o⟩ (some v)) s = .next s)) ∧
    (∀ r : Reg, Reached s fn true r → s.upset = false → s.freeze.frozen = false → r.ordered = true → s.hostHeld fn = true →
      ∃ t, exec (.registerWrite fn ⟨r.offset, []⟩ 0xF v) s = .next t ∧
        (t.fn fn).waiting = (s.fn fn).waiting ++ [.register r.offset 0xF v] ∧ (∀ k, k ≠ fn.val → t.fn k = s.fn k) ∧
        t = { s with fns := t.fns }) ∧
    (Taken s 0 (.ctrValue n) v →
      ∃ t, exec (.counterSet n v) s = .next t ∧ t.counter n = v ∧ (∀ k, k ≠ n.val → t.counter k = s.counter k) ∧
        s.sameRegs t queueLogKeys ∧
        t = { s with ctr := t.ctr, queues := t.queues, posts := t.posts, regs := t.regs,
                     out := { s.out with msix := t.out.msix }, fns := t.fns })

/-- QUEUE_ENABLE starts a queue from its counter: HEAD takes the value of DB_CTR and the completion tail is 0.
QUEUE_DISABLE and CQ_HEAD_WRITE change their own register alone. -/
def Obligations.QueueStartsFromItsCounter : Prop :=
  ∀ (fn : FnId) (q : QueueId) (w : Word) (s : State), s.Wf →
    (Taken s fn (.qCfg q) w → s.qEnabled q = false → w.getLsbD 10 = true →
      ∃ t, exec (.queueEnable fn q w) s = .next t ∧ t.qEnabled q = true ∧ t.val (.qHead q) = s.counter (fld w 24 11) ∧
        t.val (.qCqTail q) = 0 ∧ (t.queue q).overPosted = false ∧ (∀ k, k ≠ q.val → t.queue k = s.queue k) ∧
        s.sameRegs t [(Reg.qCfg q).key, (Reg.qHead q).key, (Reg.qCqTail q).key] ∧
        t = { s with regs := t.regs, queues := t.queues }) ∧
    (Taken s fn (.qCfg q) w → s.qEnabled q = true → w.getLsbD 10 = false →
      ∃ t, exec (.queueDisable fn q w) s = .next t ∧ t.qEnabled q = false ∧ s.sameRegs t [(Reg.qCfg q).key] ∧
        (t.queue q).waiting = (s.queue q).waiting ∧ (∀ k, k ≠ q.val → t.queue k = s.queue k) ∧
        t = { s with regs := t.regs, queues := t.queues }) ∧
    (Taken s fn (.qCqHead q) w →
      ∃ t, exec (.cqHeadWrite fn q w) s = .next t ∧ t.val (.qCqHead q) = w ∧ s.sameRegs t [(Reg.qCqHead q).key] ∧
        t = { s with regs := t.regs })

/-- COMPLETION_RECORD writes the first waiting record into the ring's next slot and moves the tail by one, once the ring has
room and its memory can be reached; while it is full it sets CQ_FULL. Once the record has landed, at once or, where its tile
moves, when its held write is applied, DONE_CTR is signalled by 1 and the interrupt counts it; until then neither happens. Then
the unit behind it is free: a facet starts its prefetched program and begins to fetch it.
Interrupts: IMOD_TIMEOUT sends the queue's message, or holds it while the function's accesses are stopped or its table entry
is masked; BUS_MASTER_ENABLE sends the held messages that may now be sent, and so does a write of the table (its layout is the
model's, notes/assumptions/75.md). -/
def Obligations.RecordsAndInterruptsGoOut : Prop :=
  ((∀ (q : QueueId) (r : Rec) (rest : List Rec) (off : Nat) (s : State), s.Wf → s.live = true → s.upset = false →
     (s.queue q).waiting = r :: rest → s.cqReachable q = true → s.cqFull q = false → s.txClear →
     off = (s.ringAddr q true).off + (s.val (.qCqTail q)).toNat % s.cqDepth q * 64 →
     ∃ u : State, exec (.completionRecord q) s = .next (u.freeOwner r.owner) ∧
       (u.queue q).waiting = rest ∧ u.val (.qCqTail q) = s.val (.qCqTail q) + 1 ∧
       ((s.ringAddr q true).space = 3 →
         rdBytes u.host (hostKey (s.qPart q) off) 64 = recordBytes r (s.val (.qCqTail q)) q s.time.toNat ∧ u.mem = s.mem) ∧
       ((s.ringAddr q true).space = 0 → s.writesNow srcQueue off 64 →
         rdBytes u.mem off 64 = recordBytes r (s.val (.qCqTail q)) q s.time.toNat ∧
         (∀ a, a < off ∨ off + 64 ≤ a → rd u.mem a = rd s.mem a) ∧ u.host = s.host) ∧
       ((s.ringAddr q true).space = 3 ∨ (s.ringAddr q true).space = 0 ∧ s.writesNow srcQueue off 64 →
         u.txDue = [] ∧ (∀ c, r.doneCtr = some c → u.counter c = s.counter c + 1) ∧
         (∀ k, r.doneCtr ≠ some k → u.counter k = s.counter k) ∧
         ((s.val (.qCqCfg q)).getLsbD 4 = true →
           (u.queue q).irq = (if imodCount (s.get (.qCqCfg q) 20 13) ≤ (s.queue q).irq.length + 1 then []
             else (s.queue q).irq ++ [s.limClock]) ∧
           (imodCount (s.get (.qCqCfg q) 20 13) ≤ (s.queue q).irq.length + 1 →
             s.msixOpen (s.qPart q) (s.get (.qCqCfg q) 12 5) = true →
             s.msixMessage (s.qPart q) (s.get (.qCqCfg q) 12 5) ∈ u.out.msix))) ∧
       ((s.ringAddr q true).space = 0 → off / 256 = (off + 63) / 256 → s.moving (s.tileOf off).1 = true →
         u.txDue = [{ seq := s.txSeq, back := .record q r.doneCtr, old := [] }] ∧ u.mem = s.mem ∧ u.ctr = s.ctr ∧
         u.out = s.out ∧ (u.queue q).irq = (s.queue q).irq) ∧
       u.facets = s.facets ∧ u.codecs = s.codecs ∧ u.tces = s.tces ∧ s.sameRegs u ((Reg.qCqTail q).key :: queueLogKeys) ∧
       u.boot = s.boot ∧ u.nv = s.nv ∧ u.units = s.units ∧ u.parts = s.parts) ∧
   (∀ (q : QueueId) (r : Rec) (rest : List Rec) (s : State), s.Wf → s.live = true → (s.queue q).waiting = r :: rest →
     s.cqFull q = true →
     ∃ t, exec (.completionRecord q) s = .next t ∧ (t.val (.qLog q)).getLsbD 2 = true ∧ s.sameRegs t [(Reg.qLog q).key] ∧
       s.flagged t) ∧
   (∀ (q c : Nat) (d : TxDue) (s : State), s.Wf → s.txDue = [d] → d.back = .record q (some c) →
     (s.txLeft d.seq = true → s.settleTx = s) ∧
     (s.txLeft d.seq = false → s.settleTx.txDue = [] ∧ s.settleTx.counter c = s.counter c + 1 ∧
       (∀ k, k ≠ c → s.settleTx.counter k = s.counter k) ∧ s.settleTx.mem = s.mem)) ∧
   (∀ (f : FacetId) (u : State), u.Wf →
     ((u.facet f).next = none → u.freeOwner (.facet f) = u.setFacet f { u.facet f with run := none }) ∧
     (∀ c, (u.facet f).next = some c → ∃ v : State, u.freeOwner (.facet f) = v.fetchAhead f ∧ (v.facet f).run = some (startRun c) ∧
       (v.facet f).next = none ∧ (∀ k, k ≠ f.val → v.facet k = u.facet k) ∧ v = { u with facets := v.facets }))) ∧
  ((∀ (q : QueueId) (a : Nat) (l : List Nat) (s : State), s.Wf → s.live = true → s.upset = false → (s.queue q).irq = a :: l →
     (s.val (.qCqCfg q)).getLsbD 4 = true → a + s.get (.qCqCfg q) 31 21 * 1000 ≤ s.limClock →
     ∃ t, exec (.imodTimeout q) s = .next t ∧ (t.queue q).irq = [] ∧ (t.queue q).waiting = (s.queue q).waiting ∧
       (s.msixOpen (s.qPart q) (s.get (.qCqCfg q) 12 5) = true →
         t.out.msix = s.out.msix ++ [s.msixMessage (s.qPart q) (s.get (.qCqCfg q) 12 5)]) ∧
       (s.msixOpen (s.qPart q) (s.get (.qCqCfg q) 12 5) = false →
         t.out = s.out ∧ (t.fn (s.qPart q)).held.contains (s.get (.qCqCfg q) 12 5) = true) ∧
       t = { s with queues := t.queues, out := t.out, fns := t.fns }) ∧
   (∀ (fn : FnId) (bme vf : Bool) (s : State), s.Wf → s.answers = true → (s.boot.recovery = true → fn = 0) →
     ∃ t, exec (.busMasterEnable fn bme vf) s = .next t ∧ (t.fn fn).bme = bme ∧ (t.fn fn).vf = vf ∧
       (bme = true → (fn = 0 ∨ vf = true) →
         (t.fn fn).held = (s.fn fn).held.filter (fun v => (s.val (.msixWord fn (16 * v + 12))).getLsbD 0) ∧
         t.out.msix = s.out.msix ++ ((s.fn fn).held.filter fun v => !(s.val (.msixWord fn (16 * v + 12))).getLsbD 0).map
           (s.msixMessage fn)) ∧
       (bme = false ∨ (fn ≠ 0 ∧ vf = false) → (t.fn fn).held = (s.fn fn).held ∧ t.out = s.out) ∧
       (∀ k, k ≠ fn.val → t.fn k = s.fn k) ∧ t = { s with fns := t.fns, out := { s.out with msix := t.out.msix } }) ∧
   (∀ (fn : FnId) (o : Nat) (w : Word) (s : State), s.Wf → Taken s fn (.msixWord fn o) w →
     ∃ t, exec (.registerWrite fn ⟨(Reg.msixWord fn o).offset, []⟩ 0xF w) s = .next t ∧
       t.val (.msixWord fn o) = s.merged (.msixWord fn o) w ∧ s.sameRegs t [(Reg.msixWord fn o).key] ∧
       (t.fn fn).held = (s.fn fn).held.filter (fun v => !t.msixOpen fn v) ∧
       t.out.msix = s.out.msix ++ ((s.fn fn).held.filter (t.msixOpen fn)).map (t.msixMessage fn) ∧
       t = { s with regs := t.regs, fns := t.fns, out := { s.out with msix := t.out.msix } }))

/-- PARTITION_TABLE_WRITE: an accepted write takes its register; a counter that the partition gains reads 0 and every
other counter stays; a new ceiling clears the partition's count of eviction waits.
PART_ENABLE and PART_DISABLE: a partition leaves OFF for RAMPING, and ON for DRAINING; in its other states the write
changes ENABLE alone. -/
def Obligations.PartitionWriteTakesEffect : Prop :=
  (∀ (fn : FnId) (p : PartId) (off : Nat) (r : Reg) (w : Word) (s : State), s.Wf → partReg p off = some r → Taken s fn r w →
     ∃ t, exec (.partitionTableWrite fn p off w) s = .next t ∧ t.val r = s.merged r w ∧
       (∀ x ∈ parts32.flatMap partRegs, x.key ≠ r.key → t.cell x = s.cell x) ∧
       (∀ n, r = .partCtrs p → t.counter n = if t.ownsCtr p n && !s.ownsCtr p n then 0 else s.counter n) ∧
       (r = .partCeil p → t.val (.nmhEvwaitCnt p) = 0) ∧
       (∀ f : FacetId, r = .partUnits p → (s.partFacets p).testBit f ≠ (t.partFacets p).testBit f →
         (s.unit (uFacet f)).st = .on → (t.unit (uFacet f)).st = .draining ∧ (t.unit (uFacet f)).moved = true) ∧
       t.boot = s.boot ∧ t.nv = s.nv ∧ t.gran = s.gran) ∧
  (∀ (fn : FnId) (p : PartId) (w : Word) (s : State), s.Wf → s.live = true → s.boot.ready = true → s.boot.recovery = false →
     Taken s fn (.partCtrl p) w →
     (w.getLsbD 8 = true → ∃ t, exec (.partEnable fn p w) s = .next t ∧ t.partEn p = true ∧
       (t.part p).st = (if (s.part p).st = .off then .ramping else (s.part p).st) ∧ (∀ k, k ≠ p.val → t.part k = s.part k) ∧
       s.sameRegs t [(Reg.partCtrl p).key] ∧
       t = { s with regs := t.regs, parts := t.parts, out := { s.out with msix := t.out.msix }, fns := t.fns }) ∧
     (w.getLsbD 8 = false → ∃ t, exec (.partDisable fn p w) s = .next t ∧ t.partEn p = false ∧
       (t.part p).st = (if (s.part p).st = .on then .draining else (s.part p).st) ∧ (∀ k, k ≠ p.val → t.part k = s.part k) ∧
       s.sameRegs t [(Reg.partCtrl p).key] ∧
       t = { s with regs := t.regs, parts := t.parts, out := { s.out with msix := t.out.msix }, fns := t.fns }))

/-- JOB_CLAIM completes. An idle codec engine takes, of the entries posted to it, the first in posting order whose wait is reached and
before which no job of its stream stands; HEAD moves past the entry at it, and an entry beyond HEAD is noted as taken
(notes/assumptions/30.md). A thin-channel engine takes the first posted job of the partition whose turn it is, beside the jobs of
other partitions, and HEAD moves by one. -/
def Obligations.EngineTakesHeadOfQueue : Prop :=
  ∀ (s : State) (q : Nat), s.Wf → s.upset = false → s.offers = true → q < 4096 →
    (∀ (c : CodecId) (x : JobEntry), (s.codec c).job = none → s.unitOn (uCodec c) = true → x.queue = q →
      s.codecPick [] (s.codecEntries c) = some x →
      (∃ l r, s.codecEntries c = l ++ x :: r ∧ s.jobReady (s.qPart q) (s.ringEntry q x.index) = true ∧
        ∀ y ∈ l, jStream (s.ringEntry y.queue y.index) ≠ jStream (s.ringEntry q x.index)) ∧
      ∃ t j, exec (.jobClaim (.codec c)) s = .next t ∧ (t.codec c).job = some j ∧ j.record = s.ringEntry q x.index ∧ j.queue = q ∧
        j.part = s.qPart q ∧ j.wseq = x.index ∧ j.started = false ∧
        j.waitAt = (match (s.queue q).ready.find? (fun y => y.1 == x.index) with | some y => y.2 | none => s.limClock) ∧
        (t.codec c).slots = (s.codec c).slots ∧
        (x.index = s.val (.qHead q) → (s.queue q).taken = [] → t.val (.qHead q) = s.val (.qHead q) + 1) ∧
        (x.index ≠ s.val (.qHead q) → t.val (.qHead q) = s.val (.qHead q) ∧ (t.queue q).taken = (s.queue q).taken ++ [x.index]) ∧
        s.sameRegs t [(Reg.qHead q).key] ∧
        (∀ k, k ≠ c.val → t.codec k = s.codec k) ∧ t = { s with codecs := t.codecs, regs := t.regs, queues := t.queues }) ∧
    (∀ (e : TceId) (p : Nat), s.thinTurn e = some p → (s.thinHeads e).find? (fun x => x.1 == p) = some (p, q) → s.qPart q = p →
      ∃ t, exec (.jobClaim (.thin e)) s = .next t ∧ t.thinJob e p = some (s.thinOf q) ∧
        (s.thinOf q).record = s.headJob q ∧ (∀ k, k ≠ p → t.thinJob e k = s.thinJob e k) ∧ (t.tce e).served = (s.tce e).served ∧
        ((s.queue q).taken = [] → t.val (.qHead q) = s.val (.qHead q) + 1) ∧ s.sameRegs t [(Reg.qHead q).key] ∧
        (∀ k, k ≠ e.val → t.tce k = s.tce k) ∧ t = { s with tces := t.tces, regs := t.regs, queues := t.queues })

/-- LC_ENABLE and LC_DISABLE of a unit that is no port: it leaves OFF for RAMPING once units may ramp, and ON for
DRAINING; in its other states the write changes ENABLE alone.
RAMP_DONE and DRAIN_DONE: a ramped unit is ON, or drains where ENABLE fell; a stack that ramps is filled with zeros.
A unit that drains and holds no work goes to OFF, or ramps again where ENABLE is 1 and it has not failed; a partition
likewise. -/
def Obligations.UnitLifecycleRuns : Prop :=
  (∀ (fn : FnId) (u : UnitId) (w : Word) (s : State), s.Wf → s.live = true → u.val < 52 → Taken s fn (.pwrLc u) w →
     (w.getLsbD 8 = true → (s.unit u).failed = false → s.mayRamp u = true →
       ∃ t, exec (.lcEnable fn u w) s = .next t ∧ t.unitEn u = true ∧
         (t.unit u).st = (if (s.unit u).st = .off then .ramping else (s.unit u).st) ∧ (∀ k, k ≠ u.val → t.unit k = s.unit k) ∧
         s.sameRegs t [(Reg.pwrLc u).key] ∧ t = { s with regs := t.regs, units := t.units }) ∧
     (w.getLsbD 8 = false → ∃ t, exec (.lcDisable fn u w) s = .next t ∧ t.unitEn u = false ∧
       (t.unit u).st = (if (s.unit u).st = .on then .draining else (s.unit u).st) ∧ (∀ k, k ≠ u.val → t.unit k = s.unit k) ∧
       (∀ f, u.val = uFacet f → f < 24 → (s.unit u).st = .on → s.txDue = [] →
         (t.facet f).next = none ∧ (t.facet f).run = (s.facet f).run) ∧
       t.boot = s.boot ∧ t.nv = s.nv ∧ t.parts = s.parts)) ∧
  ((∀ (u : UnitId) (s : State), s.Wf → s.live = true → u.val < 52 → (s.unit u).st = .ramping → s.unitEn u = true →
     ∃ t, exec (.rampDone (.unit u)) s = .next t ∧ (t.unit u).st = .on ∧ (∀ k, k ≠ u.val → t.unit k = s.unit k) ∧
       (∀ a, rd t.mem a = if 40 ≤ u.val ∧ a / 2 ^ 36 = u.val - 40 then 0 else rd s.mem a) ∧ t.regs = s.regs) ∧
   (∀ (u : UnitId) (s : State), s.Wf → s.live = true → u.val < 52 → (s.unit u).st = .ramping → s.unitEn u = false →
     ∃ t, exec (.rampDone (.unit u)) s = .next t ∧ (t.unit u).st = .draining) ∧
   (∀ (u : UnitId) (s : State), s.Wf → s.live = true → u.val < 52 → (s.unit u).st = .draining → s.holdsWork u = false →
     (s.unit u).moved = false →
     ∃ t, exec (.drainDone (.unit u)) s = .next t ∧
       (t.unit u).st = (if s.unitEn u = true ∧ (s.unit u).failed = false then .ramping else .off) ∧
       (∀ k, k ≠ u.val → t.unit k = s.unit k) ∧ t = { s with units := t.units }) ∧
   (∀ (p : PartId) (s : State), s.Wf → s.live = true → s.upset = false →
     ((s.part p).st = .ramping → ∃ t, exec (.rampDone (.part p)) s = .next t ∧
       (t.part p).st = (if s.partEn p then .on else .draining) ∧ (∀ k, k ≠ p.val → t.part k = s.part k) ∧
       t = { s with parts := t.parts, out := { s.out with msix := t.out.msix }, fns := t.fns }) ∧
     ((s.part p).st = .draining → s.partHolds p = false → ∃ t, exec (.drainDone (.part p)) s = .next t ∧
       (t.part p).st = (if s.partEn p then .ramping else .off) ∧ (∀ k, k ≠ p.val → t.part k = s.part k) ∧
       t = { s with parts := t.parts, dir := t.dir, out := { s.out with msix := t.out.msix }, fns := t.fns })))

/-- BAR4_ACCESS: a read returns the bytes at BASE plus the offset, a write stores them there; an access outside the
function's granules, or to a stack that is not ON (the latter is deduced, notes/assumptions/44.md), reads as zeros, stores nothing
and sets BAR4_DENY; in recovery the first 16 MiB reach the image buffer, and beyond the BAR's size nothing happens. An access to a
granule that is being flushed or scrubbed, or behind any access of the function that waits (the model's choice,
notes/assumptions/63.md), waits itself and changes nothing yet. -/
def Obligations.Bar4ReachesStacks : Prop :=
  ∀ (fn : FnId) (off a : Nat) (d : List Byte) (s : State), s.Wf → s.upset = false → s.answersTo fn = true → d ≠ [] →
    s.freeze.frozen = false → (2 ^ (s.fn fn).barLog < off + d.length → exec (.bar4Access fn off d.length (some d)) s = .next s) ∧
    (off + d.length ≤ 2 ^ (s.fn fn).barLog →
    a = ((s.val (.bar4Base fn true)).toNat * 2 ^ 32 + (s.val (.bar4Base fn false)).toNat + off) % 2 ^ 64 →
    (s.boot.recovery = false → s.bar4Ok fn a d.length = true → s.granBusy a d.length = false → (s.fn fn).waiting = [] →
      (∃ t, exec (.bar4Access fn off d.length none) s = .next t ∧ t.out.data = rdBytes s.mem a d.length ∧
        t.out.poisoned = s.poisoned a d.length ∧
        t = { s with dir := t.dir, out := { s.out with data := t.out.data, poisoned := t.out.poisoned } }) ∧
      (s.writesNow (srcHost fn) a d.length →
        ∃ t, exec (.bar4Access fn off d.length (some d)) s = .next t ∧ rdBytes t.mem a d.length = d ∧
          (∀ x, x < a ∨ a + d.length ≤ x → rd t.mem x = rd s.mem x) ∧
          t = { s with mem := t.mem, dir := t.dir, poison := t.poison })) ∧
    (s.boot.recovery = false → s.bar4Ok fn a d.length = true → s.granBusy a d.length = true ∨ (s.fn fn).waiting ≠ [] →
      ∀ x, x = none ∨ x = some d → ∃ t, exec (.bar4Access fn off d.length x) s = .next t ∧
        (t.fn fn).waiting = (s.fn fn).waiting ++ [.bar4 a d.length x] ∧ (∀ k, k ≠ fn.val → t.fn k = s.fn k) ∧
        t = { s with fns := t.fns }) ∧
    (s.boot.recovery = false → s.bar4Ok fn a d.length = false →
      ∃ t u, exec (.bar4Access fn off d.length none) s = .next t ∧ exec (.bar4Access fn off d.length (some d)) s = .next u ∧
        t.out.data = List.replicate d.length 0 ∧ (t.val .hstLog).getLsbD 0 = true ∧ (u.val .hstLog).getLsbD 0 = true ∧
        t.mem = s.mem ∧ s.flagged u ∧ s.sameRegs u [Reg.hstLog.key]) ∧
    (s.boot.recovery = true → off + d.length ≤ 2 ^ 24 →
      exec (.bar4Access fn off d.length none) s =
        .next { s with out := { s.out with data := rdBytes s.boot.recBuf off d.length, poisoned := false } } ∧
      (s.boot.going = false → exec (.bar4Access fn off d.length (some d)) s =
        .next { s with boot := { s.boot with recBuf := wrCells s.boot.recBuf (cellsAt off d) } })))

/-- FUNCTION_LEVEL_RESET of a VF disables its partition's queues, clears bus mastering and the messages held, withdraws the gang
places not yet claimed, faults its gangs with ABORTED, so that each of their members stops at its next issue boundary, and mutes
its running programs; memory, counters and every other partition's queues stay. PERST_ASSERT after Ready does the same for every
function (that a reset takes one step, and what of the function's own state it clears, is the model's, notes/assumptions/6.md).
PERST_RELEASE trains the link (notes/assumptions/17.md). PCIE_CONFIG_REQUEST tells whether requests are still to be retried
(notes/assumptions/45.md) and, once they complete, sets the size of BAR4. -/
def Obligations.FunctionResetStopsPartition : Prop :=
  (∀ (fn : FnId) (s : State), s.Wf → s.answers = true → s.boot.recovery = false → fn ≠ 0 →
    ∃ t, exec (.functionLevelReset fn) s = .next t ∧ (∀ q, s.ownsQueue fn q = true → q < 4096 → t.qEnabled q = false) ∧
      (∀ q, s.ownsQueue fn q = false → q < 4096 → t.val (.qCfg q) = s.val (.qCfg q)) ∧ (t.fn fn).bme = false ∧ (t.fn fn).held = [] ∧
      (∀ f, f < 24 → ∀ r, (t.facet f).run = some r → r.cl.part = fn.val → r.cl.mute = true) ∧
      (∀ g ∈ t.gangs, g.part = fn.val → g.size = g.claimed ∧ g.fault ≠ none) ∧
      (∀ f r g, f < 24 → (∀ k, k < 24 → ∀ c, (s.facet k).next = some c → c.part ≠ fn.val) → (s.facet f).run = some r →
        r.cl.part = fn.val → r.posted = false → r.stop = none → r.pc < wLen r.cl.wd → (s.unit (uFacet f)).st ≠ .draining →
        s.gangOf r.cl.queue r.cl.wseq = some g → g.part = fn.val → g.ended < g.claimed → g.fault = none →
        ∃ r' h st, (t.facet f).run = some r' ∧ t.gangOf r.cl.queue r.cl.wseq = some h ∧ h.fault = some st ∧ st.code = 0x23 ∧
          t.boundaryStop f r' = some 0x23) ∧
      t.mem = s.mem ∧ t.host = s.host ∧ t.ctr = s.ctr ∧ t.units = s.units ∧ t.parts = s.parts ∧ t.boot = s.boot ∧ t.nv = s.nv) ∧
  (∀ s : State, s.awake = true → s.boot.ready = true →
    ∃ t, exec .perstAssert s = .next t ∧ t.pins.perst = true ∧ t.fns = [] ∧ t.mem = s.mem ∧ t.ctr = s.ctr ∧
      t.units = s.units ∧ t.boot = s.boot ∧ t.nv = s.nv) ∧
  (∀ s : State, ∃ t, exec .perstRelease s = .next t ∧ t.link.width ∈ [1, 2, 4, 8, 16] ∧ 1 ≤ t.link.rate ∧ t.link.rate ≤ 6 ∧
    t = { s with pins := { s.pins with perst := false }, link := t.link, fresh := s.fresh + 1 }) ∧
  (∀ (fn : FnId) (k : Fin 11) (s : State), s.Wf → s.pcieUp = true → (s.boot.recovery = true → fn = 0) →
    exec (.pcieConfigRequest ⟨fn, none⟩) s = .next { s with out := { s.out with retry := !s.answers } } ∧
    (s.answers = false → exec (.pcieConfigRequest ⟨fn, some k⟩) s = .next { s with out := { s.out with retry := true } }) ∧
    (s.answers = true → exec (.pcieConfigRequest ⟨fn, some k⟩) s = .next
      ({ s with out := { s.out with retry := false } }.setFn fn { s.fn fn with barLog := 30 + k.val })))

/-- DATA_ERROR and CORRECTED_ERROR are counted and logged while the apex cores run; an uncorrectable error of the stacks
or of near memory poisons its 256-byte granule, and a corrected one changes no data.
UNIT_FAIL: FAILED is set and logged, a unit that was ON or RAMPING drains, and a facet's program stops with
UNIT_OFF.
What errors of a directory, the sequence table and a facet store do beside being counted is the model's reading (notes/assumptions/39.md). -/
def Obligations.ErrorsAndFailuresAreHandled : Prop :=
  ((∀ (u : UnitId) (off : Nat) (s : State), s.Wf → s.awake = true → s.boot.apexRun = true →
     ∃ t v, exec (.dataError .stack u off) s = .next t ∧ exec (.dataError .near u off) s = .next v ∧
       t.poison.contains (off / 256) = true ∧ v.poison.contains (off / 256) = true ∧
       t.val .errUeCnt = satAdd32 (s.val .errUeCnt) 1 ∧ v.val .errUeCnt = satAdd32 (s.val .errUeCnt) 1 ∧
       (t.val .errHwLog).getLsbD 1 = true ∧ (v.val .errHwLog).getLsbD 2 = true ∧ t.mem = s.mem ∧ v.mem = s.mem ∧
       t.units = s.units ∧ v.units = s.units ∧ t.facets = s.facets ∧ v.facets = s.facets) ∧
   (∀ (src : EccSource) (u : UnitId) (off : Nat) (s : State), s.Wf → s.awake = true → s.boot.apexRun = true →
     ∃ t, exec (.correctedError src u off) s = .next t ∧ t.val .errCeCnt = satAdd32 (s.val .errCeCnt) 1 ∧
       (t.val .errHwLog).getLsbD (match src with | .stack => 0 | .near => 0 | .apex => 5 | _ => 3) = true ∧
       s.sameRegs t [Reg.errCeCnt.key, Reg.errHwLog.key, (Reg.errHwWhere false).key, (Reg.errHwWhere true).key] ∧ s.flagged t)) ∧
  (∀ (u : UnitId) (cause : FailCause) (s : State), s.Wf → s.mayFail u cause = true → s.boot.apexRun = true → u.val < 52 →
     ∃ t, exec (.unitFail u cause) s = .next t ∧ (t.unit u).failed = true ∧ (t.val .errHwLog).getLsbD 6 = true ∧
       (t.unit u).st = (if (s.unit u).st = .off then .off else .draining) ∧ (∀ k, k ≠ u.val → t.unit k = s.unit k) ∧
       (∀ r, u.val < 24 → (s.unit u).st ≠ .off → s.txDue = [] → (s.facet u).run = some r → r.stop = none →
         ∃ r' st, (t.facet u).run = some r' ∧ r'.stop = some st ∧ st.code = 0x2E ∧ st.index = r.pc ∧ r'.cl = r.cl) ∧
       t.boot = s.boot ∧ t.nv = s.nv ∧ t.parts = s.parts)

/-- INPUT, OUTPUT and THIN complete: they give one turn to the partition whose turn it is, whose job has that operation: a job that passes its
checks, or has begun, computes its next output tile, in raster order, the last one ending the frame, and writes each element, luma
code and pair of chroma codes of it and no byte beside the output; one that fails a check ends with a record of its code, and
JOB_FAULT is set. No counter changes before TCE_FRAME_DONE, and no other partition's job.
TCE_FRAME_DONE completes: once a job's frame has landed SIG_CTR is signalled by 1; before the last frame the job goes on to the next,
after it the job's record is written and the job leaves the engine. -/
def Obligations.ThinFramesAreWrittenAndSignalled : Prop :=
  (∀ (e : TceId) (op : Nat) (c : Instr) (j : ThinJob) (r : Job) (s : State), s.Wf → s.live = true → s.upset = false →
     (c = .input e ∧ op = 0 ∨ c = .output e ∧ op = 1 ∨ c = .thin e ∧ op = 2) → s.thinTurn e = some j.part →
     s.thinJob e j.part = some j → r = j.record → tOp r = op →
     (j.started = true ∧ s.thinAddrs j.part r = 0 ∨ j.started = false ∧ s.thinCode j.part r = 0 →
       ∃ t b, exec c s = .next t ∧ (s.poison = [] → b = false) ∧
         t.thinJob e j.part = some { j with started := true, bad := j.bad || b
                                            tile := if tileCount r ≤ j.tile + 1 then 0 else j.tile + 1
                                            written := decide (tileCount r ≤ j.tile + 1) } ∧
         (t.tce e).served = some j.part ∧ (∀ k, k ≠ j.part → t.thinJob e k = s.thinJob e k) ∧
         (∀ k, k ≠ e.val → t.tce k = s.tce k) ∧ t.ctr = s.ctr ∧ t.queues = s.queues ∧ t.units = s.units ∧ t.boot = s.boot ∧ t.nv = s.nv ∧
         (s.landsNow → s.thinCode j.part r = 0 → (gaddr (tOut r)).space = 0 → (gaddr (tIn r)).space ≠ 1 → (gaddr (tW r)).space ≠ 1 →
           (gaddr (tCc r)).space ≠ 1 →
           ∀ (out n : Nat) (comp : Nat → Nat → Nat → Word), out = (gaddr (tOut r)).off →
             n = (if tOutFmt r < 2 then tensorLen (tOutFmt r) (tCout r) (tWidth r) (tHeight r) (tFrames r)
               else tFrames r * pixStep (tPitch r) (tHeight r)) →
             comp = (fun i x y => s.colour j.part (gaddr (tCc r)) i
               ((List.range 3).map fun k => thinAct (tAct r) (s.thinConv j.part r k x y j.frame))) →
             t.host = s.host ∧
             (j.frame < tFrames r → ∀ a, a < out ∨ out + n ≤ a → rd t.mem a = rd s.mem a) ∧
             ∀ x y, (tileX r j.tile).1 ≤ x → x < (tileX r j.tile).2 → (tileY r j.tile).1 ≤ y → y < (tileY r j.tile).2 →
               (tOutFmt r < 2 → ∀ k < tCout r,
                 rdBytes t.mem (out + elemBit (tensorView (tOut r) (tOutFmt r) (tCout r) (tWidth r) (tHeight r) (tFrames r))
                   [k, x, y, j.frame, 0] / 8) 2 = natLe 2 (toBf16 .rne (s.thinConv j.part r k x y j.frame))) ∧
               (tOutFmt r = 2 →
                 rdBytes t.mem (out + j.frame * pixStep (tPitch r) (tHeight r) + y * tPitch r + 2 * x) 2 =
                   natLe 2 ((pixCode 10 (comp 0 x y)).1 * 64) ∧
                 (x % 2 = 0 → y % 2 = 0 → ∀ k < 2,
                   rdBytes t.mem (out + j.frame * pixStep (tPitch r) (tHeight r) + (tHeight r + y / 2) * tPitch r + 2 * x + 2 * k) 2 =
                     natLe 2 ((pixCode 10 (fmul (fadd (fadd (comp (1 + k) x y) (comp (1 + k) (x + 1) y))
                       (fadd (comp (1 + k) x (y + 1)) (comp (1 + k) (x + 1) (y + 1)))) 0x3E80_0000)).1 * 64))) ∧
               (tOutFmt r = 3 →
                 rdBytes t.mem (out + j.frame * pixStep (tPitch r) (tHeight r) + y * tPitch r + x) 1 =
                   natLe 1 (pixCode 8 (comp 0 x y)).1 ∧
                 (x % 2 = 0 → y % 2 = 0 → ∀ k < 2,
                   rdBytes t.mem (out + j.frame * pixStep (tPitch r) (tHeight r) + (tHeight r + y / 2) * tPitch r + x + k) 1 =
                     natLe 1 (pixCode 8 (fmul (fadd (fadd (comp (1 + k) x y) (comp (1 + k) (x + 1) y))
                       (fadd (comp (1 + k) x (y + 1)) (comp (1 + k) (x + 1) (y + 1)))) 0x3E80_0000)).1)))) ∧
     (j.started = false → s.thinCode j.part r ≠ 0 → j.mute = false → Room s j.queue →
       ∃ t, exec c s = .next t ∧ t.thinJob e j.part = none ∧ (∀ k, k ≠ j.part → t.thinJob e k = s.thinJob e k) ∧
         (t.val (.tceLog e)).getLsbD 2 = true ∧ s.recordStands t j.queue (jobRec (.thin e j.part) j.wseq (s.thinCode j.part r)) ∧
         t.val (.qCqTail j.queue) = s.val (.qCqTail j.queue) + 1 ∧ t.ctr = s.ctr)) ∧
  (∀ (e : TceId) (j : ThinJob) (s : State), s.Wf → s.live = true →
     (s.tce e).jobs.find? (fun j => j.written && !j.posted && !s.writesLeft (srcThin e j.part)) = some j →
     s.thinJob e j.part = some j → j.bad = false →
     (j.frame + 1 < tFrames j.record →
       ∃ t, exec (.tceFrameDone e) s = .next t ∧ t.thinJob e j.part = some { j with frame := j.frame + 1, written := false } ∧
         (∀ n, t.counter n = if n = jSig j.record then s.counter n + 1 else s.counter n) ∧ t.mem = s.mem) ∧
     (tFrames j.record ≤ j.frame + 1 → j.mute = false → Room s j.queue →
       ∃ t, exec (.tceFrameDone e) s = .next t ∧ t.thinJob e j.part = none ∧
         (∀ n, t.counter n = if n = jSig j.record then s.counter n + 1 else s.counter n) ∧
         s.recordStands t j.queue (jobRec (.thin e j.part) j.wseq 0) ∧
         t.val (.qCqTail j.queue) = s.val (.qCqTail j.queue) + 1))

/-- The control instructions complete their issue: each advances the pc and occupies the control unit; NOP and FENCE do nothing
else, SETSEED writes one seed, DLOAD from the own vertex writes the descriptors it names. Memory stays.
PREFETCH and EVICT change no byte of memory and issue in one step; EVICT drops each copy and moves each near tile down
that it may evict. -/
def Obligations.ControlAndTileInstructionsKeepBytes : Prop :=
  (∀ (f : FacetId) (s u : State) (i : Iss), s.Wf → rising i.run.seeds = true → rising i.run.table = true → u = s.ahead f →
     (∀ c, (c = .nop f ∧ Issuable u f 0x00 .control (planNop u i) i ∨ c = .fence f ∧ Issuable u f 0x01 .control (planNop u i) i) →
       u.waitOk i.run i.ins = true →
       ∃ t r fl, exec c s = .next t ∧ (t.facet f).run = some r ∧ r.control = some fl ∧ fl.index = i.index ∧ fl.ins = i.ins ∧
         r = { i.run with pc := i.index + 1, buf := i.run.buf.tail, waiting := none, poolSeq := none, control := some fl } ∧
         (∀ k, k ≠ f.val → t.facet k = u.facet k) ∧ t = { u with facets := t.facets }) ∧
     (Issuable u f 0x02 .control (planSetseed u i) i → u.waitOk i.run i.ins = true →
       ∃ t r, exec (.setseed f) s = .next t ∧ (t.facet f).run = some r ∧ r.pc = i.index + 1 ∧ r.table = i.run.table ∧
         (∀ k, tget r.seeds 0 k = if k = iSeed i.ins then BitVec.ofNat 64 (iLong i.ins) else tget i.run.seeds 0 k) ∧
         (∀ k, k ≠ f.val → t.facet k = u.facet k) ∧ t = { u with facets := t.facets }) ∧
     (Issuable u f 0x03 .control (planDload u i) i → Ready u (planDload u i) i → (gaddr (iLong i.ins)).rank = 0xFFF →
       (gaddr (iLong i.ins)).space = 3 ∨ u.poisoned (gaddr (iLong i.ins)).off (64 * (iMod i.ins % 512)) = false →
       ∃ t r, exec (.dload f) s = .next t ∧ (t.facet f).run = some r ∧ r.pc = i.index + 1 ∧ r.seeds = i.run.seeds ∧
         (∀ k, tget r.table 0 k =
           if iOut i.ins ≤ k ∧ k < iOut i.ins + iMod i.ins % 512 then
             BitVec.ofNat 512 (u.rdVal i.p { gaddr (iLong i.ins) with off := (gaddr (iLong i.ins)).off + 64 * (k - iOut i.ins) } 64)
           else tget i.run.table 0 k) ∧
         (∀ k, k ≠ f.val → t.facet k = u.facet k) ∧ t.mem = u.mem ∧ t.ctr = u.ctr ∧
         ((gaddr (iLong i.ins)).space ≠ 1 → t = { u with facets := t.facets, dir := t.dir }))) ∧
  (∀ (f : FacetId) (s u : State) (i : Iss), s.Wf → u = s.ahead f →
     (Issuable u f 0x53 .mover (planPrefetch u i) i → u.waitOk i.run i.ins = true →
       ∃ t, exec (.prefetch f) s = .next t ∧ t.mem = u.mem ∧ t.ctr = u.ctr ∧ t.poison = u.poison ∧ t.classBits = u.classBits ∧
         (∀ r, (t.facet f).run = some r → r.pc = i.index + 1) ∧ (∀ k, k ≠ f.val → t.facet k = u.facet k)) ∧
     (Issuable u f 0x54 .mover (planEvict u i) i → u.waitOk i.run i.ins = true →
       ∃ t, exec (.evict f) s = .next t ∧ t.mem = u.mem ∧
         (∀ a e, a ∈ u.viewTiles (i.moverView (iA i.ins)) → u.dirEntry a = some e → u.evictable a e = true →
           (e.st = .copy → t.dirEntry a = none) ∧
           (e.st = .near → ∃ d, t.dirEntry a = some d ∧ d.st = .movingDown ∧ d.units = e.units ∧ d.owner = e.owner)) ∧
         (∀ r, (t.facet f).run = some r → r.pc = i.index + 1) ∧ (∀ k, k ≠ f.val → t.facet k = u.facet k) ∧
         t = { u with facets := t.facets, dir := t.dir }))

/-- The first check of R120 that fails stops the member with its code: nothing issues, the pc stays, memory and counters
stay, and FAULT is set in the facet's log with the code when it was clear. A reserved opcode fails the check OPCODE under
any row.
WAIT_TIMEOUT stops a member whose wait has lasted FCT_WAIT_LIMIT µs, and ends a PREFETCH whose promotions have waited so
long; GANG_ABORT_STOP stops a member at its next issue boundary once another member of its gang has faulted, with the first
static check of its next instruction that fails or else ABORTED, and one whose facet drains.
That a reserved opcode stops its member under any command that issues is the model's choice (notes/assumptions/20.md). -/
def Obligations.MemberStopsAtABoundary : Prop :=
  (∀ (c : Instr) (f : FacetId) (op k : Nat) (un : FUnit) (plan : State → Iss → Plan) (s u : State) (i : Iss), s.Wf → u = s.ahead f →
     u.upset = false → u.loading i = false →
     issueRow c = some (f, op, un, plan) → u.nextIns f un = some i →
     (iOpcode i.ins = op ∧ k = codeAt (firstCode (u.baseCode i.p i.ins) (plan u i).code) (plan u i).seq ∨
       opcodes.contains (iOpcode i.ins) = false ∧ k = u.baseCode i.p i.ins) → k ≠ 0 →
     ∃ t r st, exec c s = .next t ∧ (t.facet f).run = some r ∧ r.stop = some st ∧ st.code = BitVec.ofNat 8 k ∧ st.index = i.index ∧
       r = { i.run with stop := some st, waiting := none } ∧
       (t.val (.fctFaultLog f)).getLsbD 8 = true ∧
       ((u.val (.fctFaultLog f)).getLsbD 8 = false →
         t.get (.fctFaultLog f) 7 0 = k % 256 ∧ t.get (.fctFaultIndex f) 15 0 = i.index % 65536 ∧
         t.get (.fctFaultIndex f) 27 16 = i.run.cl.queue % 4096) ∧
       (∀ g, u.gangOf i.run.cl.queue i.run.cl.wseq = some g → g.fault = none →
         ∃ h, t.gangOf i.run.cl.queue i.run.cl.wseq = some h ∧ h.fault = some st) ∧
       (∀ k, k ≠ f.val → t.facet k = u.facet k) ∧
       t = { u with regs := t.regs, facets := t.facets, gangs := t.gangs, out := { u.out with msix := t.out.msix }, fns := t.fns }) ∧
  (∀ (f : FacetId) (r : Run) (s : State), s.Wf → s.live = true → (s.facet f).run = some r → r.stop = none →
     (∀ a, r.waiting = some a → s.waitHolds r = true → s.prefetchWaits r = none → s.get (.fctWaitLimit f) 23 0 ≠ 0 →
       a + s.get (.fctWaitLimit f) 23 0 * 1000 ≤ s.limClock →
       ∃ t st, exec (.waitTimeout f) s = .next t ∧ (t.facet f).run = some { r with stop := some st, waiting := none } ∧
         st.code = 0x20 ∧ st.index = r.pc ∧ (t.val (.fctFaultLog f)).getLsbD 8 = true ∧ (∀ k, k ≠ f.val → t.facet k = s.facet k) ∧
         t = { s with regs := t.regs, facets := t.facets, gangs := t.gangs, out := { s.out with msix := t.out.msix }, fns := t.fns }) ∧
     (∀ i a, s.prefetchWaits r = some (i, a) → s.get (.fctWaitLimit f) 23 0 ≠ 0 →
       a + s.get (.fctWaitLimit f) 23 0 * 1000 ≤ s.limClock →
       ∃ t st, exec (.waitTimeout f) s = .next t ∧
         (t.facet f).run = some { r with stop := some st, waiting := none, mover := none } ∧
         st.code = 0x20 ∧ st.index = i.index ∧ (t.val (.fctFaultLog f)).getLsbD 8 = true ∧ (∀ k, k ≠ f.val → t.facet k = s.facet k) ∧
         t = { s with regs := t.regs, facets := t.facets, gangs := t.gangs, out := { s.out with msix := t.out.msix }, fns := t.fns }) ∧
     (∀ c, s.boundaryStop f r = some c → c ≠ eAborted →
       ∃ t st, exec (.gangAbortStop f) s = .next t ∧ (t.facet f).run = some { r with stop := some st, waiting := none } ∧
         st.code = BitVec.ofNat 8 c ∧ st.index = r.pc ∧ (c = eDrained ∨ c = eUnitOff) ∧
         (∀ k, k ≠ f.val → t.facet k = s.facet k) ∧
         t = { s with regs := t.regs, facets := t.facets, gangs := t.gangs, out := { s.out with msix := t.out.msix }, fns := t.fns }) ∧
     (∀ ins rest i k, s.boundaryStop f r = some eAborted → r.buf = ins :: rest → r.tableDue = false →
       i = issOf f (unitOf (iOpcode ins)) r ins → s.loading i = false → s.upset = false →
       k = (s.check (planOf (iOpcode ins)) i).1 →
       ∃ t st, exec (.gangAbortStop f) s = .next t ∧ (t.facet f).run = some { r with stop := some st, waiting := none } ∧
         st.code = BitVec.ofNat 8 (if k = 0 then eAborted else k) ∧ st.index = r.pc ∧ (∀ k, k ≠ f.val → t.facet k = s.facet k) ∧
         t = { s with regs := t.regs, facets := t.facets, gangs := t.gangs, out := { s.out with msix := t.out.msix }, fns := t.fns }) ∧
     (r.pc < wLen r.cl.wd → (s.unit (uFacet f)).st ≠ .draining → s.gangAborted r = true → s.boundaryStop f r = some eAborted) ∧
     (r.pc < wLen r.cl.wd → (s.unit (uFacet f)).st = .draining → (s.unit (uFacet f)).failed = true →
       s.boundaryStop f r = some eUnitOff))

/-- WORK_CLAIM: an idle facet takes the next descriptor of the queue that is next in rotation: HEAD moves by one, a gang
opens with one member claimed, and the program starts at pc 0; a gang size of 0, or above the facets of the queue's mask,
takes the descriptor, starts nothing and sets FAULT. An open gang gives its next place instead, to a facet that has none of
it, and HEAD stays. A program that starts begins to be fetched.
PROGRAM_DONE writes the member's completion record once it has issued its last instruction and nothing of it is in
flight: the tail moves by one. Once the record has landed, at once or, where its tile moves, later (WaitingRecordIsWritten), DONE_CTR
is signalled by 1. The facet is free, or begins its prefetched descriptor's program at pc 0.
What a claim fetches at once is the model's choice (notes/assumptions/65.md). -/
def Obligations.ProgramsBeginAndEnd : Prop :=
  (∀ (f : FacetId) (p q : Nat) (s : State), s.Wf → s.upset = false → s.canClaim f = true → s.facetPart f = some p → q < 4096 →
     nextAbove (s.facet f).served (s.candidates.filter fun q => s.inMask p f q && s.ownsQueue p q && s.offersTo f p q) = some q →
     (s.openGang q = none → 1 ≤ wGang (s.ringEntry q (s.val (.qHead q))) →
       wGang (s.ringEntry q (s.val (.qHead q))) ≤ s.maskCount p q → s.wdCheck p (s.ringEntry q (s.val (.qHead q))) = 0 →
       (s.facet f).run = none →
       ∃ (t : State) (r : Run) (g : Gang), exec (.workClaim f) s = .next (t.fetchAhead f) ∧ t.val (.qHead q) = s.val (.qHead q) + 1 ∧ (t.facet f).run = some r ∧ r = startRun r.cl ∧
         r.cl.wd = s.ringEntry q (s.val (.qHead q)) ∧ r.cl.wseq = s.val (.qHead q) ∧ r.cl.gang = 0 ∧
         r.cl.queue = q ∧ r.cl.part = p ∧ (t.facet f).served = some q ∧
         t.gangs = s.gangs ++ [g] ∧ g.size = wGang r.cl.wd ∧ g.claimed = 1 ∧ g.ended = 0 ∧ g.fault = none ∧ g.facets = [f.val] ∧
         (∀ k, k ≠ f.val → t.facet k = s.facet k) ∧ s.sameRegs t [(Reg.qHead q).key] ∧
         t = { s with regs := t.regs, facets := t.facets, gangs := t.gangs }) ∧
     (s.openGang q = none → (wGang (s.ringEntry q (s.val (.qHead q))) = 0 ∨
         s.maskCount p q < wGang (s.ringEntry q (s.val (.qHead q)))) → s.txDue = [] →
       ∃ t, exec (.workClaim f) s = .next t ∧ t.val (.qHead q) = s.val (.qHead q) + 1 ∧ (t.facet f).run = (s.facet f).run ∧
         (t.facet f).next = none ∧ (t.val (.fctFaultLog f)).getLsbD 8 = true ∧ (∀ k, k ≠ f.val → t.facet k = s.facet k)) ∧
     (∀ g, s.openGang q = some g → s.wdCheck p g.wd = 0 → (s.facet f).run = none →
       ∃ (t : State) (r : Run), exec (.workClaim f) s = .next (t.fetchAhead f) ∧ (t.facet f).run = some r ∧ r = startRun r.cl ∧ r.cl.gang = g.claimed ∧ r.cl.wd = g.wd ∧
         r.cl.wseq = g.wseq ∧ r.cl.queue = q ∧
         t.gangs = s.gangs.map (fun h => if h.queue = q ∧ h.wseq = g.wseq then { h with claimed := h.claimed + 1, facets := h.facets ++ [f.val] } else h) ∧
         t = { s with facets := t.facets, gangs := t.gangs })) ∧
  (∀ (f : FacetId) (r : Run) (off : Nat) (s : State), s.Wf → s.live = true → s.upset = false → (s.facet f).run = some r →
     r.posted = false → r.flights = [] → s.outstanding f = 0 → s.fetching f = false → r.stop = none → wLen r.cl.wd ≤ r.pc →
     r.cl.mute = false → r.cl.queue < 4096 →
     (s.queue r.cl.queue).waiting = [] → s.cqReachable r.cl.queue = true → s.cqFull r.cl.queue = false → s.txClear →
     off = (s.ringAddr r.cl.queue true).off + (s.val (.qCqTail r.cl.queue)).toNat % s.cqDepth r.cl.queue * 64 →
     ∃ u : State,
       ((s.facet f).next = none → ∃ t, exec (.programDone f) s = .next t ∧ (t.facet f).run = none ∧
         (∀ k, k ≠ f.val → t.facet k = s.facet k) ∧ t = { u with facets := t.facets }) ∧
       (∀ c, (s.facet f).next = some c → ∃ v : State, exec (.programDone f) s = .next (v.fetchAhead f) ∧
         (v.facet f).run = some (startRun c) ∧ (v.facet f).next = none ∧ (∀ k, k ≠ f.val → v.facet k = s.facet k) ∧
         v = { u with facets := v.facets }) ∧
       u.val (.qCqTail r.cl.queue) = s.val (.qCqTail r.cl.queue) + 1 ∧ (u.queue r.cl.queue).waiting = [] ∧
       ((s.ringAddr r.cl.queue true).space = 3 → u.mem = s.mem ∧
         rdBytes u.host (hostKey (s.qPart r.cl.queue) off) 64 =
           recordBytes (memberRec (.facet f) r.cl 0 0 0 0 (some (wDone r.cl.wd))) (s.val (.qCqTail r.cl.queue)) r.cl.queue s.time.toNat) ∧
       ((s.ringAddr r.cl.queue true).space = 0 → s.writesNow srcQueue off 64 → u.host = s.host ∧
         rdBytes u.mem off 64 =
           recordBytes (memberRec (.facet f) r.cl 0 0 0 0 (some (wDone r.cl.wd))) (s.val (.qCqTail r.cl.queue)) r.cl.queue s.time.toNat ∧
         (∀ a, a < off ∨ off + 64 ≤ a → rd u.mem a = rd s.mem a)) ∧
       ((s.ringAddr r.cl.queue true).space = 3 ∨ (s.ringAddr r.cl.queue true).space = 0 ∧ s.writesNow srcQueue off 64 →
         u.txDue = [] ∧ u.counter (wDone r.cl.wd) = s.counter (wDone r.cl.wd) + 1 ∧
         (∀ n, n ≠ wDone r.cl.wd → u.counter n = s.counter n)) ∧
       ((s.ringAddr r.cl.queue true).space = 0 → off / 256 = (off + 63) / 256 → s.moving (s.tileOf off).1 = true →
         u.txDue = [{ seq := s.txSeq, back := .record r.cl.queue (some (wDone r.cl.wd)), old := [] }] ∧ u.mem = s.mem ∧
         u.ctr = s.ctr ∧ u.out = s.out) ∧
       u.facets = s.facets ∧ s.sameRegs u ((Reg.qCqTail r.cl.queue).key :: queueLogKeys) ∧
       u.units = s.units ∧ u.boot = s.boot ∧ u.nv = s.nv ∧ u.pins = s.pins)

/-- INSTRUCTION_COMPLETE: once everything an instruction does has landed it leaves its unit; without a fault its local
signal is added to the counter, or none without SIG_MODE; with a fault the member stops with the code.
A FENCE completes only when every earlier instruction of the member, and every operation of it, is complete. -/
def Obligations.InstructionsCompleteInOrder : Prop :=
  (∀ (f : FacetId) (u : FUnit) (r : Run) (i : InFlight) (s : State), s.Wf → s.live = true → (s.facet f).run = some r →
     r.flight u = some i → s.landed f u i = true → iOpcode i.ins ≠ 0x01 → i.post = [] → i.lens = [] →
     (iSigMode i.ins = 1 → s.putsToward f r i.index 0xFFF = false ∧ s.outstanding f < 64) → iSigMode i.ins ≤ 1 →
     ∃ t r', exec (.instructionComplete f u) s = .next t ∧ (t.facet f).run = some r' ∧ r'.flight u = none ∧ r'.pc = r.pc ∧
       (i.fault = 0 → r' = r.setFlight u none ∧
         (∀ n, t.counter n = if iSigMode i.ins = 1 ∧ n = iSigCtr i.ins then s.counter n + iSigValue i.ins else s.counter n)) ∧
       (i.fault ≠ 0 → r.stop = none → t.ctr = s.ctr ∧ ∃ st, r'.stop = some st ∧ st.code = i.fault ∧ st.index = i.index) ∧
       (∀ k, k ≠ f.val → t.facet k = s.facet k) ∧ t.mem = s.mem ∧ t.boot = s.boot ∧ t.units = s.units) ∧
  (∀ (f : FacetId) (r : Run) (i : InFlight) (s t : State), (s.facet f).run = some r → r.flight .control = some i →
     iOpcode i.ins = 0x01 → exec (.instructionComplete f .control) s = .next t → t ≠ s →
     (∀ x ∈ r.flights, i.index ≤ x.index) ∧ s.outstanding f = 0)

/-- OPEN and CLOSE complete: OPEN fills the stream's slot with its configuration and cleared state, CLOSE empties it; each signals SIG_CTR and
writes its record. A decoder's CLOSE first writes the frames still due with their maps, each counted in UNIT_CTR; it ends once they have
landed. -/
def Obligations.StreamOpensAndCloses : Prop :=
  ∀ (c : CodecId) (j : CodecJob) (s : State), s.Wf → rising (s.codec c).slots = true → j.mute = false → Room s j.queue →
    (CodecStarts s c 0 j → s.jobBusy (jA j.record) 64 = false → s.jobPoison (jA j.record) 64 = false →
      ∃ t, exec (.openStream c) s = .next t ∧ (t.codec c).job = none ∧
        t.slot c (jStream j.record) = some { cfg := BitVec.ofNat 512 (s.rdVal j.part (gaddr (jA j.record)) 64), frames := 0,
                                             full := 0, ref := 0, outN := 0, cycle := none, mapBase := 0, vecs := [], qp := 0, dec := dec0 } ∧
        (∀ k, k ≠ jStream j.record → t.slot c k = s.slot c k) ∧
        (∀ n, t.counter n = if n = jSig j.record then s.counter n + 1 else s.counter n) ∧
        t.val (.qCqTail j.queue) = s.val (.qCqTail j.queue) + 1) ∧
    (∀ (sl : Slot) (due : List Config.Decoded), CodecStarts s c 2 j → s.slot c (jStream j.record) = some sl →
      due = (if isDecoder c then dueFrames sl.dec.kept (Config.decodeFlush sl.cfg sl.ref) else []) →
      (due = [] → ∃ t, exec (.closeStream c) s = .next t ∧ (t.codec c).job = none ∧ t.slot c (jStream j.record) = none ∧
        (∀ k, k ≠ jStream j.record → t.slot c k = s.slot c k) ∧
        (∀ n, t.counter n = if n = jSig j.record then s.counter n + 1 else s.counter n) ∧
        s.recordStands t j.queue (jobRec (.codec c) j.wseq 0) ∧
        t.val (.qCqTail j.queue) = s.val (.qCqTail j.queue) + 1) ∧
      (due ≠ [] → s.ringCheck j.part sl.cfg sl.mapBase = 0 → s.ringsBusy sl.cfg sl.mapBase = false → s.landsNow →
        (gaddr (cRing sl.cfg)).space = 0 → (gaddr sl.mapBase).space = 0 →
        ∃ t, exec (.closeStream c) s = .next t ∧ (t.codec c).job = none ∧ t.slot c (jStream j.record) = none ∧
          (∀ k, k ≠ jStream j.record → t.slot c k = s.slot c k) ∧
          (∀ n, t.counter n = s.counter n + (if n = jUnit j.record then BitVec.ofNat 32 due.length else 0) +
            (if n = jSig j.record then 1 else 0)) ∧
          ((s.ringAddr j.queue true).space = 3 → piecesApart (framePieces sl.cfg sl.mapBase sl.outN due) →
            ∀ x ∈ framePieces sl.cfg sl.mapBase sl.outN due, rdBytes t.mem x.1 x.2.length = x.2) ∧
          t.val (.qCqTail j.queue) = s.val (.qCqTail j.queue) + 1) ∧
      (due ≠ [] → s.ringCheck j.part sl.cfg sl.mapBase ≠ 0 →
        ∃ t, exec (.closeStream c) s = .next t ∧ (t.codec c).job = none ∧ (∀ k, t.slot c k = s.slot c k) ∧ t.ctr = s.ctr ∧
          (t.val (.codLog c)).getLsbD 0 = true ∧
          s.recordStands t j.queue (jobRec (.codec c) j.wseq (s.ringCheck j.part sl.cfg sl.mapBase)))) ∧
    (isDecoder c = true → s.live = true → (s.codec c).job = some j → j.started = true → j.posted = false → jOp j.record = 2 →
      j.bad = false →
      (s.writesLeft (srcCodec c) = true → exec (.closeStream c) s = .next s) ∧
      (s.writesLeft (srcCodec c) = false →
        ∃ t, exec (.closeStream c) s = .next t ∧ (t.codec c).job = none ∧ t.slot c (jStream j.record) = none ∧
          (∀ n, t.counter n = s.counter n + (if n = jUnit j.record then BitVec.ofNat 32 j.done else 0) +
            (if n = jSig j.record then 1 else 0))))

/-- POOL_ALLOCATE gives the next page that a waiting MATMUL_KV lacks: the pool's TAKE moves by one and the page-table entry
becomes valid, unsealed, with nothing filled; an empty pool sets POOL_WAIT and the wait begins.
CHECKER_SAMPLE takes the oldest sample: the samples are counted, MAXERR keeps the largest error, and an error above
the threshold is counted and logged. Memory and counters stay. -/
def Obligations.PagesAndSamplesAreTaken : Prop :=
  (∀ (f : FacetId) (i : Iss) (k : KvPage) (s : State), s.Wf → s.nextIns f .array = some i → iOpcode i.ins = 0x12 →
     (s.check planMatmulKv i).1 = 0 → s.loading i = false →
     s.footBusy (planMatmulKv s i).foot = false → i.run.clear .array (planMatmulKv s i).foot = true →
     s.gangAborted i.run = false → s.waitOk i.run i.ins = true → (planMatmulKv s i).late = 0 →
     (s.kvPages i (i.desc (iA i.ins)) (i.desc (iAux i.ins))).find? (fun k => !(pteValid (s.pteLatest i.p k.pte))) = some k →
     (poPosted (s.poolLatest i.p (s.seqEntry k.seq)) = poTake (s.poolLatest i.p (s.seqEntry k.seq)) →
       ∃ t, exec (.poolAllocate f) s = .next t ∧ (t.val (.fctAttLog f)).getLsbD 2 = true ∧ t.mem = s.mem ∧
         (i.run.waiting = none ∨ i.run.poolSeq ≠ some k.seq →
           (t.facet f).run = some { i.run with waiting := some s.limClock, poolSeq := some k.seq }) ∧
         t = { s with regs := t.regs, facets := t.facets, out := { s.out with msix := t.out.msix }, fns := t.fns }) ∧
     (∀ s', poPosted (s.poolLatest i.p (s.seqEntry k.seq)) ≠ poTake (s.poolLatest i.p (s.seqEntry k.seq)) →
       s.takePage i.src i.p (s.seqEntry k.seq) k.page k.head = .ok s' →
       ∃ t, exec (.poolAllocate f) s = .next t ∧ (t.facet f).run = some { i.run with waiting := none, poolSeq := none } ∧
         t = { s' with facets := t.facets } ∧
         (s.dir = [] → s.waitWrites = [] → s.upset = false → (gaddr (sqPool (s.seqEntry k.seq))).space = 0 →
           (gaddr (sqPool (s.seqEntry k.seq))).off + 8 ≤ pteAt (s.seqEntry k.seq) k.page k.head ∨
             pteAt (s.seqEntry k.seq) k.page k.head + 8 ≤ (gaddr (sqPool (s.seqEntry k.seq))).off →
           rdBytes t.mem (gaddr (sqPool (s.seqEntry k.seq))).off 8 =
             natLe 8 (poTake (s.poolLatest i.p (s.seqEntry k.seq)) + 1).toNat ∧
           pteValid (t.pte i.p (pteAt (s.seqEntry k.seq) k.page k.head)) = true ∧
           pteSealed (t.pte i.p (pteAt (s.seqEntry k.seq) k.page k.head)) = false ∧
           pteFill (t.pte i.p (pteAt (s.seqEntry k.seq) k.page k.head)) = 0))) ∧
  (∀ (f : FacetId) (x : Sample) (rest : List Sample) (s : State), s.Wf → s.live = true → (s.facet f).samples = x :: rest →
     ∃ t, exec (.checkerSample f) s = .next t ∧ (t.facet f).samples = rest ∧ (t.facet f).run = (s.facet f).run ∧
       t.val (.fctChkSamples f) = satAdd32 (s.val (.fctChkSamples f)) 1 ∧
       (fIsNaN (sampleE x) = false → flt (s.val (.fctChkMaxerr f)) (sampleE x) = true → t.val (.fctChkMaxerr f) = sampleE x) ∧
       (fIsNaN (sampleE x) = false → flt (s.val (.fctChkMaxerr f)) (sampleE x) = false →
         t.val (.fctChkMaxerr f) = s.val (.fctChkMaxerr f)) ∧
       (fIsNaN (sampleE x) = true ∨ flt (f32 (.num false 1 (-(x.threshExp : Int)))) (sampleE x) = true →
         t.val (.fctChkExceeds f) = satAdd32 (s.val (.fctChkExceeds f)) 1 ∧ (t.val (.fctQLog f)).getLsbD 4 = true) ∧
       (fIsNaN (sampleE x) = false → flt (f32 (.num false 1 (-(x.threshExp : Int)))) (sampleE x) = false →
         t.val (.fctChkExceeds f) = s.val (.fctChkExceeds f) ∧ t.out = s.out) ∧
       t = { s with facets := t.facets, regs := t.regs, out := { s.out with msix := t.out.msix }, fns := t.fns })

/-- A reduction without corrections adds, to its accumulator in ascending order, one tree sum per pass, under the static factors of
A and B; then the low-rank passes. MATMUL so computes each element of OUT from its start: the element of C, of OUT under ACC, or
+0. -/
def Obligations.ProductsAreTreeSums : Prop :=
  (∀ (n lo hi : Nat) (r : Red) (start : Acc), 5 ≤ n → n ≤ 9 → r.kp = 2 ^ n → (∀ k, r.slot k = none) → (∀ k, r.listed k = none) →
    (r.run lo hi start).1 =
      (List.range (passCount r.rank 64)).foldl
        (fun acc j => fadd acc (treeOf fadd 6 fun t =>
          if 64 * j + t < r.rank then f32 ((r.low (64 * j + t)).1.mul (r.low (64 * j + t)).2) else fZero))
        ((List.range (hi - lo)).foldl
          (fun acc j => fadd acc (times r.fb (times r.fa (passSum n r.k ((lo + j) * 2 ^ n) r.a r.b r.sa r.sb)))) start.1)) ∧
  (∀ (f : FacetId) (n : Nat) (s u : State) (i : Iss) (a b c out : View) (h : Share),
    Issues f 0x10 .array s u i (planMm false u i) → iRef i.ins = false → iXacc i.ins = false →
    i.kpOf (iA i.ins) (iB i.ins) = 2 ^ n → a = i.view (iA i.ins) 0 → b = i.view (iB i.ins) (2 ^ n) → c = i.view (iC i.ins) 0 →
    out = i.view (iOut i.ins) 0 → h = i.passes (dDim a.d 0) (2 ^ n) → dCap a.d = 0 → outClash out [a, b] = false →
    ∃ t, exec (.matmul f) s = .next t ∧
      Holds u t i out (i.mine out) fun x =>
        (List.range (h.hi - h.lo)).foldl
          (fun acc j => fadd acc (times (u.factorAt i.p b (batchIdx b.d x (ix x 0) 0)) (times (u.factorAt i.p a (ixSet x 0 0))
            (passSum n (dDim a.d 0) ((h.lo + j) * 2 ^ n) (fun k => u.rdElem i.p a (ixSet x 0 k))
              (fun k => u.rdElem i.p b (batchIdx b.d x (ix x 0) k)) (fun k => u.rdScale i.p a (ixSet x 0 k))
              (fun k => u.rdScale i.p b (batchIdx b.d x (ix x 0) k))))))
          (if !h.first then fZero
           else if bit (iMod i.ins) 0 then u.rdVec i.p c (if dDim c.d 1 = 1 then ixSet x 1 0 else x)
           else if iAcc i.ins then u.rdVec i.p out x else fZero))

/-- A block with an infinity or a NaN is written with scale 0xFF and zeros. One of finite values takes the least scale code under
which no value exceeds the largest finite element, and each element is its value under that code, rounded: none saturates; where
all round to zero the code and the elements are 0. QUANT writes each element of OUT from that of A, in an MX format block by block. -/
def Obligations.BlocksAreQuantised : Prop :=
  (∀ (e : Elem) (vals : List Word) (modes : List RMode), e ∈ [Elem.e4m3, .e5m2, .e3m2, .e2m3, .e2m1] → modes.length = vals.length →
    ((∃ w ∈ vals, fIsNaN w = true ∨ fIsInf w = true) → quantBlock e vals modes = (255, vals.map (fun _ => 0), false, true)) ∧
    ((∀ w ∈ vals, fIsNaN w = false ∧ fIsInf w = false) → ∀ (code : Nat) (q : List Nat) (z bad : Bool), quantBlock e vals modes = (code, q, z, bad) →
      bad = false ∧ code < 255 ∧ q.length = vals.length ∧
      (z = true → code = 0 ∧ (∀ c ∈ q, c = 0)) ∧
      (z = false →
        (∀ v ∈ vals, ∀ b m x sg n g, fval v = .num b m x → e.value e.maxCode = .num sg n g → dyLt n (g + code - 127) m x = false) ∧
        (0 < code → ∃ v ∈ vals, ∃ b m x sg n g, fval v = .num b m x ∧ e.value e.maxCode = .num sg n g ∧
          dyLt n (g + code - 128) m x = true) ∧
        (∀ (k : Nat) (v : Word) (md : RMode), vals[k]? = some v → modes[k]? = some md →
          q[k]? = some (e.encode md ((fval v).scale (127 - (code : Int)))).1 ∧
            (e.encode md ((fval v).scale (127 - (code : Int)))).2 = false)))) ∧
  (∀ (f : FacetId) (s u : State) (i : Iss) (out : View), Issues f 0x25 .vector s u i (planQuant u i) → out = i.view (iOut i.ins) 0 →
    i.vecClash out [i.view (iA i.ins) 0] = false →
    ∃ t, exec (.quant f) s = .next t ∧ Holds u t i out (i.mine out) (u.rdVec i.p (i.view (iA i.ins) 0)) ∧
      HoldsBlocks t i out (u.rdVec i.p (i.view (iA i.ins) 0)))

/-- The vector unit writes to OUT: VEW each sub-operation's result; VROWSTAT the chosen statistics of each row or group in lane
order; NORM each element of a row under its statistics, gain and shift; VFUNC a tangent function; SOFTMAX exponentials
over their sum; POOL a window's maximum or average; UPSAMPLE the nearest element. Under RMS and layer norms and the three-pass
softmax the formula stands below; the group and the online forms are those of the operations named. -/
def Obligations.VectorResultsAreWritten : Prop :=
  ∀ (f : FacetId) (s u : State) (i : Iss) (a b c out : View), a = i.view (iA i.ins) 0 → b = i.view (iB i.ins) 0 →
    c = i.view (iC i.ins) 0 → out = i.view (iOut i.ins) 0 →
    (Issues f 0x20 .vector s u i (planVew u i) →
      i.vecClash out ([a] ++ (if (vewUses (iMod i.ins)).1 then [b] else []) ++ (if (vewUses (iMod i.ins)).2.1 then [c] else [])) = false →
      ∃ t, exec (.vew f) s = .next t ∧ Holds u t i out (i.mine out) fun x =>
        let w := BitVec.ofNat 32 (iImm i.ins)
        let va := u.rdVec i.p a x
        let vb := u.rdVec i.p b (bcast b.d x)
        let vc := u.rdVec i.p c (bcast c.d x)
        let even := ixSet x 0 (ix x 0 / 2 * 2)
        let a0 := u.rdVec i.p a even
        let a1 := u.rdVec i.p a (ixSet x 0 (ix x 0 / 2 * 2 + 1))
        let cos := u.rdVec i.p b (bcast b.d even)
        let sin := u.rdVec i.p c (bcast c.d even)
        match iMod i.ins with
        | 0x00 => va
        | 0x01 => fadd va vb
        | 0x02 => fsub va vb
        | 0x03 => fmul va vb
        | 0x04 => fmax va vb
        | 0x05 => fmin va vb
        | 0x06 => fadd va w
        | 0x07 => fmul va w
        | 0x08 => fadd (fmul va vb) vc
        | 0x09 => fadd (fmul va w) vb
        | 0x0A => fabs va
        | 0x0B => fneg va
        | 0x0C => fmax va fZero
        | 0x0D => fadd (fmul va (fadd fOne vb)) vc
        | _ => if ix x 0 % 2 = 0 then fsub (fmul a0 cos) (fmul a1 sin) else fadd (fmul a0 sin) (fmul a1 cos)) ∧
    (Issues f 0x21 .vector s u i (planVrowstat u i) → viewsMeet out.rows a.rows = false →
      ∀ (group : Bool) (row : Idx → Idx) (l : Idx → List Word), group = (bits (iMod i.ins) 4 3 == 1) →
      row = (fun e => if group then [0, ix e 0 / (dDim a.d 0 / (bits (iMod i.ins) 15 8 + 1)), 0, 0, 0] else ixSet e 0 0) →
      l = (fun x => ((allIdx a.dims).filter fun e =>
        i.share a.dims e && row e == (if group then [0, ix x 1, 0, 0, 0] else ixSet x 0 0)).map (u.rdVec i.p a)) →
      ∃ t, exec (.vrowstat f) s = .next t ∧
        Holds u t i out ((allIdx out.dims).filter fun x =>
          if group then ix x 2 == 0 && ix x 3 == 0 && ix x 4 == 0 else !(l x).isEmpty) fun x =>
          ((if bit (iMod i.ins) 0 then [rowSum (l x)] else []) ++ (if bit (iMod i.ins) 1 then [rowSquares (l x)] else []) ++
            (if bit (iMod i.ins) 2 then [rowMax (l x)] else [])).getD (ix x 0) 0) ∧
    (Issues f 0x22 .vector s u i (planNorm u i) → i.vecClash out [a, b, c] = false → iMod i.ins % 4 ≠ 2 →
      ∃ t, exec (.norm f) s = .next t ∧ Holds u t i out (i.mine out) fun x =>
        let eps := BitVec.ofNat 32 (iImm i.ins)
        let m := fdivNat (u.rdVec i.p b (ixSet x 0 0)) (dDim a.d 0)
        let q := fdivNat (u.rdVec i.p b (ixSet x 0 1)) (dDim a.d 0)
        let v := fsub q (fmul m m)
        let gain := u.rdVec i.p c [ix x 0, 0, 0, 0, 0]
        let shift := u.rdVec i.p c [ix x 0, 1, 0, 0, 0]
        if iMod i.ins % 4 = 0 then fadd (fmul (fmul (u.rdVec i.p a x) (rsqrtn (fadd q eps))) gain) shift
        else fadd (fmul (fmul (fsub (u.rdVec i.p a x) m) (rsqrtn (fadd (if flt v fZero then fZero else v) eps))) gain) shift) ∧
    (Issues f 0x23 .vector s u i (planVfunc u i) → i.vecClash out [a] = false →
      ∃ t, exec (.vfunc f) s = .next t ∧ Holds u t i out (i.mine out) fun x =>
        if bit (iMod i.ins) 8 then ocentFn (iMod i.ins % 256) (u.rdVec i.p a x) else nativeFn (iMod i.ins % 256) (u.rdVec i.p a x)) ∧
    (Issues f 0x24 .vector s u i (planSoftmax u i) → i.vecClash out [a] = false →
      ∃ t, exec (.softmax f) s = .next t ∧ Holds u t i out (i.mine out) fun x =>
        let l := (List.range (dDim a.d 0)).map fun k => u.rdVec i.p a (ixSet x 0 k)
        let kappa := fmul (if iImm i.ins = 0 then fOne else BitVec.ofNat 32 (iImm i.ins)) 0x3FB8_AA3B
        let ml := if bit (iMod i.ins) 0 then treeOf (onlineJoin kappa) 9 fun k => (lane l k).foldl (onlineStep kappa) (fNegInf, fZero)
          else (rowMax l, rowSum (l.map fun y => exp2n (fmul (fsub y (rowMax l)) kappa)))
        let y := u.rdVec i.p a x
        if l.any fun y => fIsNaN y || y == fInf then fNaN
        else if ml.1 = fNegInf ∨ y = fNegInf then fZero
        else fmul (exp2n (fmul (fsub y ml.1) kappa)) (recipn ml.2)) ∧
    (Issues f 0x26 .vector s u i (planPool u i) → i.vecClash out [a] = false →
      ∃ t, exec (.pool f) s = .next t ∧ Holds u t i out (i.mine out) fun x =>
        let taps := (List.range (geoTaps (i.desc (iAux i.ins)))).map (u.poolTap i.p (i.desc (iAux i.ins)) a x)
        let vals := taps.map fun w => w.1
        let n := if bit (iMod i.ins) 2 then (taps.filter fun w => !w.2).length else taps.length
        if iMod i.ins % 4 = 1 then (if n = 0 then fZero else fdiv (vals.foldl fadd fZero) (f32OfNat n)) else vals.foldl fmax fNegInf) ∧
    (Issues f 0x27 .vector s u i (planUpsample u i) → i.vecClash out [a] = false →
      ∃ t, exec (.upsample f) s = .next t ∧ Holds u t i out (i.mine out) fun x =>
        u.rdVec i.p a [ix x 0, ix x 1 / 2 ^ (iMod i.ins % 4), ix x 2 / 2 ^ (iMod i.ins % 4), ix x 3 / 2 ^ bits (iMod i.ins) 3 2, ix x 4])

/-- ENCODE_FRAME completes: it starts a frame on an encode engine, with the units its configuration gives it, and ends it once its
units are written and its input released. Each unit is framed as its standard does (notes/assumptions/77.md): the first begins with a
temporal delimiter OBU or an access unit delimiter, each other with a tile group or a slice. A complete frame signals SIG_CTR and counts as output, one whose units do not
fit ends with STREAM_FULL and signals nothing.
ENCODE_UNIT_DONE, INPUT_RELEASE and LATE complete. While an encode runs, ENCODE_UNIT_DONE writes the next unit that fits with its length, counts it and signals UNIT_CTR, and INPUT_RELEASE unpins the input
once and signals REL_CTR. LATE counts a frame that has outlasted its deadline, once. -/
def Obligations.EncodesRunAndReport : Prop :=
  (∀ (c : CodecId) (j : CodecJob) (sl : Slot) (s : State), s.Wf → rising (s.codec c).slots = true → isDecoder c = false →
     s.slot c (jStream j.record) = some sl →
     (CodecStarts s c 1 j → s.jobBusy (jA j.record) (cFrame sl.cfg) = false → s.jobBusy (jB j.record) (jLen j.record) = false →
       s.jobBusy (cRef sl.cfg) (refNeed false sl.cfg) = false →
       (jC j.record ≠ 0 → s.jobBusy (jC j.record) (16 * cWsb sl.cfg * cHsb sl.cfg) = false) →
       (jD j.record ≠ 0 → s.jobBusy (jD j.record) (8 * jRoi j.record) = false) →
       j.done = 0 → j.released = false →
       ∃ t j', exec (.encodeFrame c) s = .next t ∧ (t.codec c).job = some j' ∧ j'.started = true ∧
         j'.units.length = cdiv (cHsb sl.cfg) (cRows sl.cfg) ∧ j'.qps.length = cHsb sl.cfg ∧
         (∀ k u, j'.units[k]? = some u →
           (cCodec sl.cfg = 0 → u.take (if k = 0 then 2 else 1) = (if k = 0 then [0x12, 0x00] else [0x22])) ∧
           (cCodec sl.cfg ≠ 0 → u.take 6 = [0, 0, 0, 1, (if k = 0 then 0x46 else if frameType sl j.record = 0 then 0x26 else 0x02), 1])) ∧
         (∀ q ∈ j'.qps, cMode sl.cfg ≠ 0 → cQpMin sl.cfg ≤ cQp sl.cfg → cQp sl.cfg ≤ cQpMax sl.cfg →
           cQpMin sl.cfg ≤ q ∧ q ≤ cQpMax sl.cfg) ∧ j'.done = 0 ∧ j'.released = false ∧
         j'.record = j.record ∧ (t.codec c).slots = (s.codec c).slots ∧ t.ctr = s.ctr) ∧
     ((s.codec c).job = some j → s.live = true → j.started = true → j.posted = false → j.released = true → j.bad = false →
       s.writesLeft (srcCodec c) = false → s.jobHeld (jB j.record) (jLen j.record) = false →
       s.encodeCode j sl.cfg = 0 → j.mute = false → Room s j.queue →
       (j.done = j.units.length →
         ∃ t sl', exec (.encodeFrame c) s = .next t ∧ (t.codec c).job = none ∧ t.slot c (jStream j.record) = some sl' ∧
           sl'.frames = sl.frames + 1 ∧ sl'.outN = sl.outN + 1 ∧ sl'.cfg = sl.cfg ∧
           (∀ n, t.counter n = if n = jSig j.record then s.counter n + 1 else s.counter n)) ∧
       (j.full = true →
         ∃ t, exec (.encodeFrame c) s = .next t ∧ (t.codec c).job = none ∧
           t.slot c (jStream j.record) = some { sl with frames := sl.frames + 1 } ∧ (t.val (.codLog c)).getLsbD 1 = true ∧
           t.ctr = s.ctr))) ∧
  (∀ (c : CodecId) (j : CodecJob) (s : State), s.Wf → s.live = true → (s.codec c).job = some j → j.posted = false →
     (j.started = true → isDecoder c = false → j.done < j.units.length → j.full = false → j.bad = false →
       s.jobHeld (jB j.record) (jLen j.record) = false → s.runCode c j = 0 →
       ∃ t, exec (.encodeUnitDone c) s = .next t ∧ (t.codec c).job = some { j with done := j.done + 1 } ∧
         (s.landsNow → (gaddr (jB j.record)).space ≠ 3 → ∀ u, j.units[j.done]? = some u →
           rdBytes t.mem ((gaddr (jB j.record)).off + j.unitAt j.done) u.length = u ∧
           (j.done < 48 → rdBytes t.mem ((gaddr (jB j.record)).off + 64 + 4 * j.done) 4 = natLe 4 u.length)) ∧
         (∀ n, t.counter n = if n = jUnit j.record then s.counter n + 1 else s.counter n) ∧ t.units = s.units) ∧
     (j.started = true → isDecoder c = false → j.released = false →
       ∃ t, exec (.inputRelease c) s = .next t ∧ (t.codec c).job = some { j with released := true, pins := [] } ∧
         (∀ n, t.counter n = if n = jRel j.record then s.counter n + 1 else s.counter n) ∧ t.mem = s.mem ∧
         (∀ x e, x ∈ j.pins → t.dirEntry x = some e → e.jobPins.contains c.val = false ∧ e.handPin = false)) ∧
     (∀ sl, s.slot c (jStream j.record) = some sl → s.clocks.vid = true → jOp j.record = 1 → j.late = false → cDeadline sl.cfg ≠ 0 →
       cDeadline sl.cfg * 1000 ≤ (s.limClock - j.waitAt) * 27 →
       ∃ t, exec (.late c) s = .next t ∧ (t.codec c).job = some { j with late := true } ∧
         t.val (.codLateCnt c) = satAdd32 (s.val (.codLateCnt c)) 1 ∧ (t.val (.codLog c)).getLsbD 2 = true ∧
         s.sameRegs t [(Reg.codLateCnt c).key, (Reg.codLog c).key] ∧
         t = { s with codecs := t.codecs, regs := t.regs, out := { s.out with msix := t.out.msix }, fns := t.fns }))

/-- Within the own partition's memory PUT and GET leave in each element of OUT the bits of A's element, and in each scale byte
that begins in the share A's; no other byte changes. ATOMIC adds a scalar to each 4- or 8-byte integer of OUT. -/
def Obligations.CopiesMoveBytes : Prop :=
  ∀ (f : FacetId) (s u : State) (i : Iss) (a out : View), u.gran = [] → u.txDue = [] → u.outstanding f < 64 →
    (gaddr (dAddr out.d)).rank = 0xFFF → out.base.space = 0 ∨ out.base.space = 3 ∧ u.hostOn i.p = true ∧ i.run.cl.mute = false →
    (a = i.moverView (iA i.ins) → out = i.moverView (iOut i.ins) → (gaddr (dAddr a.d)).rank = 0xFFF → a.base.space ∈ [0, 3] →
      out.fmt ≠ .t5 → dCap out.d = 0 → out.apart (i.mine out) → viewsMeet out.pieces a.pieces = false →
      (∀ get : Bool, (if get then Issues f 0x51 .mover s u i (planCopy true u i) else Issues f 0x50 .mover s u i (planCopy false u i)) →
        (∀ j ∈ (planCopy get u i).todo, u.localCode i.p i.p j = 0) →
        ∃ t, exec (if get then .get f else .put f) s = .next t ∧
          (∀ x ∈ i.mine out, t.rdRaw i.p out x = u.rdRaw i.p a x) ∧
          (out.fmt.isMx = true → out.scalesApart (i.mine out) →
            ∀ x ∈ i.mine out, blockFirst out.d x = true → t.rdScale i.p out x = u.rdScale i.p a x) ∧
          (out.fmt.isMx = false →
            (out.base.space = 0 → t.host = u.host ∧ ∀ k, out.beside (i.mine out) k → rd t.mem k = rd u.mem k) ∧
            (out.base.space = 3 → t.mem = u.mem ∧
              ∀ k, out.beside (i.mine out) k → rd t.host (hostKey i.p k) = rd u.host (hostKey i.p k))) ∧
          u.othersKept t f)) ∧
    (∀ w ∈ [4, 8], iMod i.ins = (if w = 4 then 0x10 else 0x11) → Issues f 0x52 .mover s u i (planAtomic u i) →
      out = i.view (iOut i.ins) 0 → out.base.space = 0 → out.apart (allIdx out.dims) →
      (∀ j ∈ (planAtomic u i).todo, u.localCode i.p i.p j = 0) →
      ∃ t, exec (.atomic f) s = .next t ∧
        (∀ x ∈ i.mine out, ix x 0 % w = 0 →
          rdNat t.mem (out.base.off + elemBit out (out.abs x) / 8) w =
            (rdNat u.mem (out.base.off + elemBit out (out.abs x) / 8) w + (if w = 4 then iImm i.ins else iLong i.ins)) % 2 ^ (8 * w)) ∧
        (∀ k, (∀ x ∈ i.mine out, ix x 0 % w = 0 → k < out.base.off + elemBit out (out.abs x) / 8 ∨
          out.base.off + elemBit out (out.abs x) / 8 + w ≤ k) → rd t.mem k = rd u.mem k) ∧ t.host = u.host ∧ u.othersKept t f)

/-- A response ends the operation that holds its tag: ACK frees it, GET_DATA and ATOMIC_RET land their bytes where the
issuer reserved space, or with the sequencer that fetched them, NACK leaves its code with the issuing instruction; the issuer
then goes on. Bytes for a granule that the partition owns no more are refused in place of landing (R253). The bytes that a put of
part of a byte asked for go back merged with it (notes/assumptions/24.md). A response to an operation that has
timed out only frees the tag.
LINK_TIMEOUT: an operation without a response for LNK_OP_TIMEOUT µs is dead and its instruction faults with LINK_TIMEOUT;
its tag stays taken until TAG_RELEASE frees it 1 s later.
That a sequencer's fetch is an operation with an owner of its own is the model's choice (notes/assumptions/65.md). -/
def Obligations.ResponsesAndTimeoutsEndOperations : Prop :=
  (∀ (tag : BitVec 16) (o : RemOp) (data : List Byte) (code : BitVec 8) (s : State), s.Wf → s.live = true →
     s.op tag.toNat = some o →
     (o.dead = false →
       o.job.kind = .put ∧ o.job.nbits = 0 ∨ o.job.kind = .signal ∨ o.job.kind = .atomic ∧ o.job.ret = false →
       exec (.ack tag) s = .next ((s.setOp tag.toNat none).afterOp o.owner)) ∧
     (o.dead = false → o.job.destHost = false → o.job.nbits = 0 → o.job.t5 = false → data.length = o.job.len → s.upset = false →
       (∀ f k, o.owner ≠ .fetch f k) → s.writesNow (ownerSrc o.owner) o.job.dest data.length →
       s.spaceCheck o.part 0 o.job.dest data.length = 0 → s.granBusy o.job.dest data.length = false →
       (o.job.kind = .get → ∃ u : State, exec (.getData tag data) s = .next (u.afterOp o.owner) ∧ u.op tag.toNat = none ∧
         rdBytes u.mem o.job.dest data.length = data ∧
         u = { s with ops := u.ops, mem := u.mem, dir := u.dir, poison := u.poison }) ∧
       (o.job.kind = .atomic → o.job.ret = true →
         ∃ u : State, exec (.atomicRet tag data) s = .next (u.afterOp o.owner) ∧ u.op tag.toNat = none ∧
           rdBytes u.mem o.job.dest data.length = data ∧
           u = { s with ops := u.ops, mem := u.mem, dir := u.dir, poison := u.poison })) ∧
     (∀ c, o.dead = false → o.job.destHost = false → o.job.nbits = 0 → o.job.kind = .get → data.length = o.job.len →
       (∀ f k, o.owner ≠ .fetch f k) → s.spaceCheck o.part 0 o.job.dest data.length = c → c ≠ 0 →
       exec (.getData tag data) s = .next (((s.setOp tag.toNat none).refuseAt o.owner c).afterOp o.owner)) ∧
     (∀ f k r, o.dead = false → o.owner = .fetch f k → o.job.kind = .get → data.length = o.job.len → (s.facet f).run = some r →
       exec (.getData tag data) s =
         .next (((s.setOp tag.toNat none).setFacet f { s.facet f with run := some (r.fetched k o.job data) }).afterOp o.owner)) ∧
     (o.dead = false → o.job.kind = .put → o.job.nbits ≠ 0 → data.length = o.job.len →
       exec (.getData tag data) s =
         .next (((s.setOp tag.toNat none).issueOp o.owner o.part
           { o.job with nbits := 0, data := mergeBits data o.job.data o.job.head o.job.nbits }).afterOp o.owner)) ∧
     (o.dead = false → ∀ f w r i, o.owner = .facet f w → (s.facet f).run = some r → r.flight w = some i → i.fault = 0 →
       ∃ u : State, exec (.nack tag code) s = .next (u.afterOp o.owner) ∧ u.op tag.toNat = none ∧
         (u.facet f).run = some (r.setFlight w (some { i with fault := code })) ∧ u = { s with ops := u.ops, facets := u.facets }) ∧
     (o.dead = true → exec (.ack tag) s = .next (s.setOp tag.toNat none) ∧
       exec (.getData tag data) s = .next (s.setOp tag.toNat none) ∧ exec (.nack tag code) s = .next (s.setOp tag.toNat none))) ∧
  (∀ (tag : BitVec 16) (o : RemOp) (s : State), s.Wf → s.live = true → s.op tag.toNat = some o →
     (o.dead = false → s.get .lnkOpTimeout 23 0 ≠ 0 → o.since + s.get .lnkOpTimeout 23 0 * 1000 ≤ s.limClock →
       ∀ f w r i, o.owner = .facet f w → (s.facet f).run = some r → r.flight w = some i → i.fault = 0 →
       ∃ u : State, exec (.linkTimeout tag) s = .next (u.afterOp o.owner) ∧
         u.op tag.toNat = some { o with dead := true, since := s.limClock } ∧
         (u.facet f).run = some (r.setFlight w (some { i with fault := 0x26 })) ∧ u = { s with ops := u.ops, facets := u.facets }) ∧
     (o.dead = true → o.since + 1000000000 ≤ s.limClock → exec (.tagRelease tag) s = .next (s.setOp tag.toNat none)) ∧
     (o.dead = true → s.limClock < o.since + 1000000000 → exec (.tagRelease tag) s = .next s))

/-- Every flit that the model forms carries its CRC: whatever the link word and the body, the check at the receiver
succeeds, and the body reads back.
FLIT_RECEIVE counts the codewords of the port's lanes; a flit with a bad CRC, with a byte in an uncorrectable codeword or out of
sequence delivers nothing and sends an idle flit with NAK and its credit; the next good header flit for this vertex is
delivered and its credit returned, and where it is a child's timestamp, it waits with the time it came. FLIT_NAK sends every
unacknowledged flit again, as far as credits allow, and counts the replays; a flit replayed eight times retrains the port.
The credit that FLIT_RECEIVE names, the message kinds and how a flit is put together are the model's choices (notes/assumptions/34.md, 62.md, 72.md). -/
def Obligations.FlitsArriveCheckedAndInOrder : Prop :=
  (∀ (link : Nat) (body : List Byte), link < 2 ^ 64 → body.length ≤ 240 →
     flitGood (mkFlit link body) = true ∧ fld (mkFlit link body) 63 0 = link ∧
       flitBody (mkFlit link body) = body ++ List.replicate (240 - body.length) 0) ∧
  (∀ (p : PortId) (a : Arrival) (f : BitVec 2048) (s u : State), a.flit = f → s.Wf → s.live = true → (s.port p).carries 3 = true →
     u = s.codewords p a.words →
     (∃ t, exec (.flitReceive p a) s = .next t ∧
       t.val (.lnkFecCorr p) = satAdd32 (s.val (.lnkFecCorr p))
         ((a.words.filter fun w => (s.port p).lanes.contains w.lane).map fun w => w.corrected).sum ∧
       t.val (.lnkFecUncorr p) = satAdd32 (s.val (.lnkFecUncorr p))
         ((a.words.filter fun w => (s.port p).lanes.contains w.lane).map fun w => w.bad).sum) ∧
     (flitGood f = true → a.lost = false → flitKind f = 3 → exec (.flitReceive p a) s = .next u) ∧
     (flitGood f = false ∨ a.lost = true → flitKind f ≠ 0 →
       ∃ t x, exec (.flitReceive p a) s = .next t ∧ t.port p = { u.port p with sent := (s.port p).sent ++ [x] } ∧
         x.getLsbD 32 = true ∧ flitKind x = 0 ∧ fld x 31 20 = arrivalCredit a % 4096 ∧ t = { u with ports := t.ports }) ∧
     (flitGood f = true → a.lost = false → flitKind f = 1 ∨ flitKind f = 2 → flitSeq f ≠ ((s.port p).rxSeq + 1) % 16384 →
       f.getLsbD 33 = false →
       ∃ t x, exec (.flitReceive p a) s = .next t ∧ t.port p = { u.port p with sent := (s.port p).sent ++ [x] } ∧
         x.getLsbD 32 = true ∧ flitKind x = 0 ∧ t = { u with ports := t.ports }) ∧
     (flitGood f = true → a.lost = false → flitKind f = 1 → flitSeq f = ((s.port p).rxSeq + 1) % 16384 → f.getLsbD 33 = false →
       fDst f = s.coord → (s.port p).carries (fVc f) = true →
       ∃ t, exec (.flitReceive p a) s = .next t ∧ t.out.delivered = s.out.delivered ++ [f] ∧ (t.port p).rxSeq = flitSeq f ∧
         (t.port p).inbuf = (s.port p).inbuf ∧ (t.port p).sent.length = (s.port p).sent.length + 1 ∧
         (∀ k, k ≠ p.val → t.port k = s.port k) ∧
         t.meridian.asks = (if fVc f = 3 ∧ fType f = 12 ∧ fld f 239 232 = 5 ∧ fld f 255 240 = 7 then
             s.meridian.asks.filter (fun x => x.1 != p.val) ++ [(p.val, BitVec.ofNat 64 (fld f 383 320), s.time)]
           else s.meridian.asks) ∧
         t = { u with ports := t.ports, xings := (u.flitIn p).xings, out := { s.out with delivered := t.out.delivered },
                      meridian := { s.meridian with asks := t.meridian.asks } }) ∧
     (∀ n : BitVec 14,
       ∃ t l k, exec (.flitNak p n) s = .next t ∧ l = (s.port p).replay.filter (fun x => !acked n.toNat (flitSeq x.1)) ∧
         (t.port p).replay = l.map (fun x => (x.1, x.2.1 + 1, x.2.2)) ∧ k ≤ l.length ∧
         (t.port p).sent = (s.port p).sent ++ (l.take k).map (fun x => x.1) ∧ (t.port p).again = (l.drop k).map (fun x => (x.1, x.2.2)) ∧
         (∀ x, l[k]? = some x → creditLimit x.2.2 ≤ tget (t.port p).used 0 x.2.2) ∧
         (rising (s.port p).used = true → ∀ key, tget (t.port p).used 0 key =
           tget (s.port p).used 0 key + ((l.take k).filter fun x => x.2.2 == key).length) ∧
         t.val (.lnkReplayCnt p) = satAdd32 (s.val (.lnkReplayCnt p)) k ∧
         ((t.port p).retraining = true ↔ (s.port p).retraining = true ∨ ∃ x ∈ l, 7 ≤ x.2.1) ∧
         (∀ k, k ≠ p.val → t.port k = s.port k) ∧ s.sameRegs t [(Reg.lnkReplayCnt p).key] ∧
         t = { s with ports := t.ports, regs := t.regs }))

/-- ROUTER_FORWARD serves meridian flits first, then the channels that can send in rotation, and on a channel the source
whose train holds the output, or the next in rotation: its flit takes a credit, the next sequence number and a place in the
replay buffer, in the next hop class. A flit that no port will take is discarded first, and the source of its header flit gets
a NACK: one of class 15 that needs another hop is such a flit. Flits that are to be sent again go before any other, as far as credits
allow.
When a flit that no port takes is discarded is the model's choice (notes/assumptions/72.md). -/
def Obligations.RouterSendsNextFlit : Prop :=
  ∀ (p : PortId) (src : Nat) (b : BufFlit) (s s1 : State), s.Wf → s.live = true → s.upset = false → s1 = s.loadInject →
    (∀ (vc : Nat) (shared : Bool) (q : Port), s1.firstStuck = none → q = s1.port p → rising q.used = true →
      rising q.route = true →
      (∃ k y, s1.nextSrc p 3 = some k ∧ s1.flitFrom p 3 k = some y ∧ timeFlit y.1 = true ∧ vc = 3) ∨
        (∀ k y, s1.nextSrc p 3 = some k → s1.flitFrom p 3 k = some y → timeFlit y.1 = false) ∧
          nextAbove (q.noted 8) ((List.range 4).filter fun v => (s1.nextSrc p v).isSome) = some vc →
      (s.port p).again = [] → s1.nextSrc p vc = some src → src ≠ p.val → s1.flitFrom p vc src = some (b, shared) →
      ∃ t x k, exec (.routerForward p) s = .next t ∧ (t.port p).sent = q.sent ++ [x] ∧
        k = creditKey b.vc (if src = 12 then 0 else b.hop + 1) shared ∧ (t.port p).replay = q.replay ++ [(x, 0, k)] ∧
        (t.port p).txSeq = (q.txSeq + 1) % 16384 ∧
        (flitKind b.flit = 1 → fld x 121 118 = if src = 12 then 0 else (b.hop + 1) % 16) ∧ (src ≠ 12 → b.hop ≠ 15) ∧
        q.credit vc (if src = 12 then 0 else b.hop + 1) = some shared ∧
        tget (t.port p).used 0 k = tget q.used 0 k + 1 ∧
        (t.port p).noted b.vc = (if b.left = 0 then none else some src) ∧ (t.port p).noted (4 + b.vc) = some src ∧
        (t.port p).noted 8 = (if timeFlit b then q.noted 8 else some b.vc) ∧
        (src ≠ 12 → (t.port src).inbuf = takeFlit p b (s1.port src).inbuf) ∧
        (∀ k, k ≠ p.val → k ≠ src → t.port k = s1.port k) ∧ t = { s1 with ports := t.ports, inject := t.inject, xings := (s1.flitOut p).xings }) ∧
    ((s.port p).again = [] → s1.firstStuck = some (src, b) → src ≠ 12 → flitKind b.flit = 1 →
      ∃ t x, exec (.routerForward p) s = .next t ∧ t.out.tx = s1.out.tx ++ [x] ∧ x.kind = .nack ∧
        x.header.code = eUnreachable ∧ x.header.dst = fSrc b.flit ∧ (t.port src).inbuf = takeFlit noPort b (s1.port src).inbuf ∧
        (∀ k, k ≠ src → t.port k = s1.port k) ∧ t = { s1 with ports := t.ports, out := { s1.out with tx := t.out.tx } }) ∧
    (∀ vc, src < 12 → vc < 4 → (s1.port src).inbuf.find? (fun x => x.vc == vc) = some b → b.hop = 15 → s1.firstStuck ≠ none) ∧
    ((s.port p).again ≠ [] → (s.port p).carries 3 = true →
      ∃ t k, exec (.routerForward p) s = .next t ∧ k ≤ (s.port p).again.length ∧
        (t.port p).sent = (s.port p).sent ++ ((s.port p).again.take k).map (fun x => x.1) ∧
        (t.port p).again = (s.port p).again.drop k ∧ (t.port p).replay = (s.port p).replay ∧
        (∀ x, (s.port p).again[k]? = some x → creditLimit x.2 ≤ tget (t.port p).used 0 x.2) ∧
        t.val (.lnkReplayCnt p) = satAdd32 (s.val (.lnkReplayCnt p)) k ∧ (∀ j, j ≠ p.val → t.port j = s.port j) ∧
        s.sameRegs t [(Reg.lnkReplayCnt p).key] ∧ t = { s with ports := t.ports, regs := t.regs })

/-- DECODE_FRAME completes: it decodes its chunk; every frame that falls due is written with its map, the errors and the concealed
superblocks are counted, and once all has landed UNIT_CTR counts the frames and SIG_CTR is signalled. Content beyond the
configuration ends the job with UNSUPPORTED and emits nothing. What the chunk's items are is free (notes/assumptions/11.md). -/
def Obligations.DecodeEmitsDueFrames : Prop :=
  (∀ (c : CodecId) (j : CodecJob) (sl : Slot) (x : Config.DecResult) (run : DecRun) (s : State), s.Wf →
    rising (s.codec c).slots = true →
    isDecoder c = true → CodecStarts s c 1 j → j.mute = false → Room s j.queue → s.slot c (jStream j.record) = some sl →
    s.poison = [] → s.gran = [] →
    x = Config.decode sl.cfg sl.ref sl.dec.kept (s.rdMem j.part (gaddr (jA j.record)).space (gaddr (jA j.record)).off (jLen j.record)) →
    run = decodeChunk sl.cfg sl.dec x →
    (run.stop = false →
      ∃ t sl', exec (.decodeFrame c) s = .next t ∧ t.slot c (jStream j.record) = some sl' ∧
        sl'.frames = sl.frames + 1 ∧ sl'.outN = sl.outN + run.out.length ∧ sl'.ref = x.state ∧ sl'.dec = run.dec ∧
        t.val (.codSyntaxCnt c) = satAdd32 (s.val (.codSyntaxCnt c)) run.errors ∧
        t.val (.codConcealCnt c) = satAdd32 (s.val (.codConcealCnt c)) run.conceals ∧
        ((∃ j', t.writesLeft (srcCodec c) = true ∧ (t.codec c).job = some j' ∧ j'.started = true ∧ j'.done = run.out.length ∧
            t.ctr = s.ctr) ∨
          (t.codec c).job = none ∧
            ∀ n, t.counter n = s.counter n + (if n = jUnit j.record then BitVec.ofNat 32 run.out.length else 0) +
              (if n = jSig j.record then 1 else 0)) ∧
        (s.landsNow → (gaddr (jA j.record)).space ≠ 1 → (gaddr (cRef sl.cfg)).space = 0 → (gaddr (cRing sl.cfg)).space = 0 →
          (gaddr (jC j.record)).space = 0 →
          (t.codec c).job = none ∧
          ((s.ringAddr j.queue true).space = 3 → piecesApart (framePieces sl.cfg (jC j.record) sl.outN run.out) →
            ∀ y ∈ framePieces sl.cfg (jC j.record) sl.outN run.out, rdBytes t.mem y.1 y.2.length = y.2))) ∧
    (run.stop = true →
      ∃ t sl', exec (.decodeFrame c) s = .next t ∧ (t.codec c).job = none ∧ t.slot c (jStream j.record) = some sl' ∧
        sl'.outN = sl.outN ∧ sl'.dec.header = none ∧ t.ctr = s.ctr ∧
        t.val (.qCqTail j.queue) = s.val (.qCqTail j.queue) + 1)) ∧
  (∀ (c : CodecId) (j : CodecJob) (s : State), s.Wf → isDecoder c = true → s.live = true → (s.codec c).job = some j →
    j.started = true → j.posted = false → jOp j.record = 1 → j.bad = false → j.mute = false → Room s j.queue →
    (s.writesLeft (srcCodec c) = true → exec (.decodeFrame c) s = .next s) ∧
    (s.writesLeft (srcCodec c) = false →
      ∃ t, exec (.decodeFrame c) s = .next t ∧ (t.codec c).job = none ∧
        (∀ n, t.counter n = s.counter n + (if n = jUnit j.record then BitVec.ofNat 32 j.done else 0) +
          (if n = jSig j.record then 1 else 0))))

/-- Lanes: LANE_REMOVE takes a lane away that has lost lock, or has recorded more than 1,000 uncorrectable codewords in 1 ms, and
the port retrains on the others, or is ABSENT without any; RETRAIN_DONE lets it go on; RETRAIN_TIMEOUT, 10 ms after the
retrain began, leaves it ABSENT with its buffers empty. Of other ports only trains that went to it or came from it are cut.
How long a removed lane is lost is the model's choice (notes/assumptions/72.md). -/
def Obligations.PortLosesLanesAndRetrains : Prop :=
  ∀ (p : PortId) (s : State), s.Wf → s.live = true →
    (∀ (lane : Nat) (cause : LaneFault), (s.port p).lanes.contains lane = true →
      (s.port p).st = .up ∨ (s.port p).st = .draining ∨ (s.port p).st = .disabled ∨ (s.port p).st = .training ∧ (s.port p).trained = true →
      cause = .lostLock ∨ 1000 < s.badWords p lane →
      ∃ t, exec (.laneRemove p lane cause) s = .next t ∧ (t.port p).lanes = (s.port p).lanes.filter (fun x => x ≠ lane) ∧
        (t.port p).lost = lane :: (s.port p).lost ∧ (t.val (.lnkPortLog p)).getLsbD 1 = true ∧
        ((t.port p).lanes ≠ [] → (t.port p).retraining = true ∧ (t.port p).st = (s.port p).st ∧
          ∀ k, k ≠ p.val → t.port k = s.port k) ∧
        ((t.port p).lanes = [] → (t.port p).st = .absent ∧ (t.port p).inbuf = [] ∧ (t.port p).replay = []) ∧
        (∀ k, k ≠ p.val → t.port k = { s.port k with route := (t.port k).route })) ∧
    (∀ lane, s.badWords p lane ≤ 1000 → exec (.laneRemove p lane .uncorrectable) s = .next s) ∧
    ((s.port p).retraining = true →
      ∃ t, exec (.retrainDone p) s = .next t ∧ (t.port p).retraining = false ∧ (t.port p).st = (s.port p).st ∧
        (t.port p).lanes = (s.port p).lanes ∧ (t.port p).replay.map (fun x => x.1) = (s.port p).replay.map (fun x => x.1) ∧
        (t.val (.lnkPortLog p)).getLsbD 0 = true ∧ s.sameRegs t [(Reg.lnkPortLog p).key] ∧
        (∀ k, k ≠ p.val → t.port k = s.port k)) ∧
    ((s.port p).retraining = true → (s.port p).retrainAt + 10000000 ≤ s.limClock →
      ∃ t, exec (.retrainTimeout p) s = .next t ∧ (t.port p).st = .absent ∧ (t.port p).retraining = false ∧
        (t.port p).inbuf = [] ∧ (t.port p).replay = [] ∧
        (∀ k, k ≠ p.val → t.port k = { s.port k with route := (t.port k).route }) ∧
        ((s.port p).st = .up → t.linkMap.contains (s.coord, s.portDim p) = false))

/-- Training: TRAIN_DONE makes a port with lanes trained and sends its nonce; TRAIN_TIMEOUT, after 1 s without lock, leaves it
ABSENT, with NO_PEER where the plan populates its neighbour. NONCE is kept and answered by this vertex's HELLO.
HELLO: the peer's HELLO is kept with the first finding of R306, and its flag is set; the checks stand in the order
identity, plan, version, swapped port, plan neighbour. A DISABLED port that has decided repeats the handshake with a new nonce.
Kinds and layouts of the messages are the model's choices (notes/assumptions/34.md). -/
def Obligations.PortsTrainAndShakeHands : Prop :=
  (∀ (p : PortId) (s : State), s.Wf → s.discovers = true → s.upset = false →
     (s.clocks.opt = true → (s.port p).lanes ≠ [] → (s.port p).trained = false →
       (s.port p).st = .training ∨ (s.port p).st = .absent →
       ∃ t x n, exec (.trainDone p) s = .next t ∧ (t.port p).st = .training ∧ (t.port p).trained = true ∧
         (t.port p).lanes = (s.port p).lanes ∧ (t.port p).lost = (s.port p).lost ∧ (t.port p).mine = some n ∧ t.out.tx = s.out.tx ++ [x] ∧ x.kind = .control ∧
         x.header.code = 1 ∧ x.port = some p.val ∧ x.data = natLe 32 n.toNat ∧ (∀ k, k ≠ p.val → t.port k = s.port k)) ∧
     ((s.port p).st = .training → (s.port p).trained = false → (s.port p).since + 1000000000 ≤ s.limClock →
       ∃ t, exec (.trainTimeout p) s = .next t ∧ t.port p = { s.port p with st := .absent } ∧
         (s.populated (s.expected p) = true → (t.val (.lnkPortLog p)).getLsbD 2 = true) ∧
         (s.populated (s.expected p) = false → t.regs = s.regs) ∧ (∀ k, k ≠ p.val → t.port k = s.port k)) ∧
     (∀ (n : BitVec 256) (i : ImageInfo), (s.port p).listens = true → (s.port p).mine.isSome = true →
       (s.port p).finding = none → s.boot.image = some i →
       (s.boot.idBad = false → s.boot.idDone = true →
         ∃ t x, exec (.nonce p n) s = .next t ∧ t.port p = { s.port p with peerNonce := some n } ∧ t.out.tx = s.out.tx ++ [x] ∧
           x.kind = .control ∧ x.header.code = 2 ∧ x.port = some p.val ∧
           x.data = helloBytes (s.myHello p i n) n ++ falconSig s.nv.secret (helloBytes (s.myHello p i n) n) ∧
           t = { s with ports := t.ports, out := { s.out with tx := t.out.tx } }) ∧
       (s.boot.idBad = true → exec (.nonce p n) s = .next (s.setPort p { s.port p with peerNonce := some n })))) ∧
  (∀ (p : PortId) (h : Hello) (i : ImageInfo) (s : State), s.Wf → s.upset = false → s.discovers = true →
     (s.port p).listens = true → s.boot.image = some i →
     (∀ mine : BitVec 256, (s.port p).finding = none → (s.port p).mine = some mine →
       ∃ t k, exec (.hello p h) s = .next t ∧ t.port p = { s.port p with peer := some h, finding := some k } ∧
         (k = 1 ↔ ¬(certOk h.cert = true ∧ Config.falconVerify (certKey h.cert) (helloBytes h mine) h.signature = true)) ∧
         (k ≠ 1 → (k = 2 ↔ h.planHash ≠ i.planHash)) ∧
         (k ≠ 1 → k ≠ 2 → (k = 3 ↔ h.versions.getLsbD 0 = false)) ∧
         (k = 6 → h.coord = s.expected p ∧ s.populated h.coord = true ∧
           ∀ r, r < 12 → r ≠ p.val → s.mapped r = true → s.expected r ≠ h.coord) ∧
         (k = 1 → (t.val (.lnkPortLog p)).getLsbD 3 = true) ∧ (k = 2 → (t.val (.lnkPortLog p)).getLsbD 4 = true) ∧
         (k = 3 → (t.val (.lnkPortLog p)).getLsbD 5 = true) ∧ (k = 4 → (t.val (.lnkPortLog p)).getLsbD 7 = true) ∧
         (k = 5 → (t.val (.lnkPortLog p)).getLsbD 6 = true) ∧ (k = 6 → t.regs = s.regs) ∧ 1 ≤ k ∧ k ≤ 6 ∧
         (∀ q, q ≠ p.val → t.port q = s.port q) ∧ s.sameRegs t [(Reg.lnkPortLog p).key]) ∧
     ((s.port p).mine = none → (s.port p).st = .disabled →
       ∃ t n x, exec (.hello p h) s = .next t ∧
         t.port p = { s.port p with mine := some n, peerNonce := none, peer := none, finding := none, verdict := none, since := s.limClock } ∧
         t.out.tx = s.out.tx ++ [x] ∧ x.kind = .control ∧ x.header.code = 1 ∧ x.port = some p.val ∧ x.data = natLe 32 n.toNat ∧
         t = { s with ports := t.ports, out := { s.out with tx := t.out.tx }, fresh := t.fresh }))

/-- VERDICT_PHASE decides each checked port and tells its peer: finding 6 is answered UP and keeps the port in the handshake,
finding 5 leaves it DISABLED, others QUARANTINED. VERDICT of the peer concludes a port that this vertex found good: UP joins it
to the polytope, otherwise it is DISABLED with its flag.
LINK_STATE_ANNOUNCE: news changes the link map and is sent on once to every UP neighbour; known news changes nothing.
REDISCOVER repeats the handshake on DISABLED and UP ports and trains ABSENT ports afresh, and lanes that were removed return; PORT_RELEASE trains the
QUARANTINED ports it names.
The messages' kinds, and when a verdict is told, are the model's choices (notes/assumptions/34.md, 72.md). -/
def Obligations.VerdictsAndNewsDecidePorts : Prop :=
  ((∀ (p : PortId) (i : ImageInfo) (k : Nat) (s : State), s.Wf → s.upset = false → s.discovers = true → s.boot.image = some i →
     i.autoRemap = false → ((List.range 12).any s.undecided) = false → (s.port p).mine.isSome = true →
     (s.port p).finding = some k → (s.port p).verdict = none →
     ∃ t, exec .verdictPhase s = .next t ∧ (t.port p).mine = none ∧
       (∃ x ∈ t.out.tx.drop s.out.tx.length, x.kind = .control ∧ x.port = some p.val ∧ x.header.code = 3 ∧
         x.data = [if k = 6 then 1 else 0]) ∧
       (k = 6 → t.port p = { s.port p with mine := none, version := 1, route := (t.port p).route }) ∧
       (k = 5 → (t.port p).st = .disabled ∧ (t.port p).finding = none) ∧
       (k ≠ 5 → k ≠ 6 → (t.port p).st = .quarantined ∧ (t.port p).finding = none)) ∧
   (∀ (p : PortId) (up : Bool) (s : State), s.Wf → s.upset = false → s.discovers = true → (s.port p).listens = true →
     ((s.port p).finding = some 6 → (s.port p).mine = none → up = true → (s.port p).st ≠ .up → s.unitEn (uPort p) = true →
       (s.unit (uPort p)).failed = false →
       ∃ t, exec (.verdict p up) s = .next t ∧ (t.port p).st = .up ∧ (t.port p).finding = none ∧
         t.linkMap.contains (s.coord, s.portDim p) = true ∧ t.linkMap.contains (s.expected p, s.portDim p) = true ∧
         (∀ k, k ≠ p.val → t.port k = s.port k)) ∧
     ((s.port p).finding = some 6 → (s.port p).mine = none → up = false →
       ∃ t, exec (.verdict p up) s = .next t ∧ (t.port p).st = .disabled ∧ (t.port p).version = 0 ∧
         (t.val (.lnkPortLog p)).getLsbD 10 = true ∧
         (∀ k, k ≠ p.val → t.port k = { s.port k with route := (t.port k).route })) ∧
     ((s.port p).mine.isSome = true → exec (.verdict p up) s = .next (s.setPort p { s.port p with verdict := some up })))) ∧
  ((∀ (p : PortId) (n : LinkNews) (s : State), s.Wf → s.upset = false → s.discovers = true → (s.port p).st = .up →
     (n.vertex ≠ s.coord → s.linkMap.contains (n.vertex, n.dim) = !n.up →
       ∃ t, exec (.linkStateAnnounce p n) s = .next t ∧ t.linkMap.contains (n.vertex, n.dim) = n.up ∧
         (∀ x, x ≠ (n.vertex, n.dim) → t.linkMap.contains x = s.linkMap.contains x) ∧
         t.out.tx.length = s.out.tx.length + ((List.range 12).filter fun k => (s.port k).st == .up).length ∧
         t.ports = s.ports ∧ t.mem = s.mem ∧ t.units = s.units) ∧
     (s.linkMap.contains (n.vertex, n.dim) = n.up → exec (.linkStateAnnounce p n) s = .next s)) ∧
   (∀ (w : Word) (s : State) (p : PortId), s.Wf → s.live = true → Taken s 0 .lnkCtrl w →
     (w.getLsbD 12 = true → (s.val .lnkCtrl).getLsbD 12 = false →
       ∃ t, exec (.rediscover w) s = .next t ∧ (t.val .lnkCtrl).getLsbD 12 = true ∧
         ((s.port p).st = .disabled ∨ (s.port p).st = .up → (t.port p).st = (s.port p).st ∧ (t.port p).mine.isSome = true ∧
           (t.port p).finding = none ∧ (t.port p).lost = [] ∧
           ((s.port p).lost ≠ [] → (t.port p).lanes = s.mapLanes p ∧ (t.port p).retraining = true)) ∧
         ((s.port p).st = .absent → (t.port p).st = .training ∧ (t.port p).lanes = s.mapLanes p ∧ (t.port p).lost = []) ∧
         ((s.port p).st = .off ∨ (s.port p).st = .training ∨ (s.port p).st = .draining ∨ (s.port p).st = .quarantined →
           t.port p = { s.port p with route := (t.port p).route })) ∧
     (w.getLsbD p = true → (s.val .lnkCtrl).getLsbD p = false → w.getLsbD 12 = false →
       ∃ t, exec (.portRelease w) s = .next t ∧
         ((s.port p).st = .quarantined → (t.port p).st = .training ∧ (t.port p).lanes = (s.port p).lanes) ∧
         ((s.port p).st ≠ .quarantined → t.port p = { s.port p with route := (t.port p).route }) ∧ s.sameRegs t [Reg.lnkCtrl.key])))

/-- Meridian time: MERIDIAN_SYNC answers each child's timestamp with itself, the time it came and the present count, where its port
is UP, and every 10 µs asks the parent with the count. An exchange yields a round trip from its four timestamps, of which the
last 64 are kept, and the offset to the parent by half their average; the first steps the count by it and locks it, later ones
set what is slewed, with RESYNC above 10 µs.
The messages' layout, the rounding of half the average and when a timestamp is answered are the model's choices (notes/assumptions/34.md, 72.md). -/
def Obligations.MeridianFollowsParent : Prop :=
  ∀ s : State, s.Wf → s.live = true → s.upset = false →
    (∀ (answers asking : List (TxKind × Option Nat × List Byte)) (due : Bool),
      answers = (s.meridian.asks.filter fun a => (s.port a.1).st == .up).map (fun a =>
        (.control, some a.1, natLe 8 a.2.1.toNat ++ natLe 8 a.2.2.toNat ++ natLe 8 s.time.toNat)) →
      (due = true ↔ ∀ a, s.meridian.askedAt = some a → a + 10000 ≤ s.limClock) →
      (∀ p, s.parentPort = some p → asking = if due then [(.control, some p, natLe 8 s.time.toNat)] else []) →
      (s.parentPort = none → asking = []) →
      ∃ t l, exec .meridianSync s = .next t ∧ t.out.tx = s.out.tx ++ l ∧ l.map (fun x => (x.kind, x.port, x.data)) = answers ++ asking ∧
        t.meridian = (if due && s.parentPort.isSome then
            { s.meridian with asks := [], asked := some s.time, askedAt := some s.limClock }
          else { s.meridian with asks := [] }) ∧
        t = { s with meridian := t.meridian, out := { s.out with tx := t.out.tx } }) ∧
    (∀ (received sent t1 : BitVec 64) (l : List Int) (offset : Int), s.parentPort.isSome = true → s.meridian.asked = some t1 →
      l = (s.meridian.trips ++ [((s.time.toNat : Int) - t1.toNat) - ((sent.toNat : Int) - received.toNat)]).drop
        (s.meridian.trips.length + 1 - 64) →
      offset = (sent.toNat : Int) + l.foldl (· + ·) 0 / (2 * max (l.length : Int) 1) - s.time.toNat →
      ∃ t, exec (.meridianExchange received sent) s = .next t ∧ t.meridian.asked = none ∧ t.meridian.trips = l ∧ l.length ≤ 64 ∧
        (s.meridian.locked = false → t.time = BitVec.ofInt 64 (s.time.toNat + offset) ∧ t.meridian.locked = true ∧
          (t.val .merLog).getLsbD 0 = true) ∧
        (s.meridian.locked = true → t.time = s.time ∧ t.meridian.slew = offset ∧
          (10000 < offset.natAbs → (t.val .merLog).getLsbD 1 = true) ∧ (offset.natAbs ≤ 10000 → t.regs = s.regs)) ∧
        s.sameRegs t [Reg.merLog.key] ∧ t.mem = s.mem ∧ t.ports = s.ports ∧ t.units = s.units)

/-- PUT and GET_REQ complete: a permitted put stores its bytes and is acknowledged; a permitted get returns the bytes of its range, or DATA_ERROR
where they are poisoned; in space 1 their tiles are brought near first, and a get in space 0 touches those that near memory serves. A refused one changes nothing and is answered with a
NACK that carries the code. -/
def Obligations.PutsAndGetsAreAnswered : Prop :=
  ∀ (h : TxHeader) (data : List Byte) (s : State), s.Wf →
    (∀ u, Arrives s h .put → data.length = h.len → h.space < 2 → u = s.arriveNear h .put → u.txClear →
      u.writesNow (srcLink h.dstPart) h.offset h.len →
      ∃ t, exec (.putTransaction h data) s = .next t ∧ rdBytes t.mem h.offset h.len = data ∧
        (∀ a, a < h.offset ∨ h.offset + h.len ≤ a → rd t.mem a = rd s.mem a) ∧ s.answered t h .ack 0 [] ∧
        t = { u with mem := t.mem, dir := t.dir, poison := t.poison, txSeq := t.txSeq, out := { u.out with tx := t.out.tx } }) ∧
    (Arrives s h .put → data.length = h.len → h.space = 3 → s.txClear →
      ∃ t, exec (.putTransaction h data) s = .next t ∧ rdBytes t.host (hostKey h.dstPart h.offset) h.len = data ∧
        s.answered t h .ack 0 [] ∧ t = { s with host := t.host, txSeq := t.txSeq, out := { s.out with tx := t.out.tx } }) ∧
    (∀ u, Arrives s h .get → (h.space ≠ 3 → s.poisoned h.offset h.len = false) → u = s.arriveNear h .get →
      ∃ t, exec (.getReq h) s = .next t ∧ s.answered t h .getData 0 (s.rdMem h.dstPart h.space h.offset h.len) ∧
        t = { u with out := { u.out with tx := t.out.tx } } ∧ t.mem = s.mem ∧
        (h.space ≠ 1 → t = { s with dir := t.dir, out := { s.out with tx := t.out.tx } })) ∧
    (Arrives s h .get → h.space ≠ 3 → s.poisoned h.offset h.len = true →
      ∃ t, exec (.getReq h) s = .next t ∧ s.answered t h .nack eDataError [] ∧ t = { s with out := { s.out with tx := t.out.tx } }) ∧
    (s.live = true → s.upset = false → s.arrival h .put h.space h.offset h.len ≠ 0 → data.length = h.len →
      ∃ t, exec (.putTransaction h data) s = .next t ∧ s.answered t h .nack (s.arrival h .put h.space h.offset h.len) [] ∧
        t = { s with out := { s.out with tx := t.out.tx } }) ∧
    (s.live = true → s.upset = false → s.arrival h .get h.space h.offset h.len ≠ 0 →
      ∃ t, exec (.getReq h) s = .next t ∧ s.answered t h .nack (s.arrival h .get h.space h.offset h.len) [] ∧
        t = { s with out := { s.out with tx := t.out.tx } })

/-- RESET_ASSERT ends everything but what the NVM, the fuses and the host keep: PHASE 0x1, every register at its reset
value, memories and units empty; a note of a record that was not written stays. A Program that it cuts off changes its slot alone, a fuse
command burns bits toward its value, the lifecycle last. RESET_RELEASE starts the boot ROM in phase 2 with the fuses' security state,
and the PCIe link trains; a loss of power leaves nothing else than a reset does. -/
def Obligations.ResetKeepsOnlyNonVolatile : Prop :=
  ∀ s : State,
    (∃ t, exec .resetAssert s = .next t ∧ t.pins.reset = true ∧ t.boot = State.reset.boot ∧ t.regs = [] ∧ t.ctr = [] ∧ t.mem = [] ∧
      t.dir = [] ∧ t.facets = [] ∧ t.gangs = [] ∧ t.queues = [] ∧ t.ports = [] ∧ t.units = [] ∧ t.parts = [] ∧ t.seqTab = [] ∧
      t.ctxs = [] ∧ t.ops = [] ∧ t.halted = false ∧ t.freeze = State.reset.freeze ∧ t.time = 0 ∧ t.host = s.host ∧
      t.pending = s.pending ∧ t.gasp = { State.reset.gasp with skipped := s.gasp.skipped } ∧ t.nv.nvm = s.cutOff.nv.nvm ∧
      (s.gasp.program = none → s.boot.fuse = 0 → t.nv = s.nv) ∧
      (∀ g, s.gasp.program = some g → rising s.nv.nvm = true → ∀ a, a < g.addr ∨ g.addr + g.bytes.length ≤ a →
        nvRd t.nv.nvm a = nvRd s.nv.nvm a) ∧
      (s.gasp.program = none → s.boot.fuse = 1 → s.boot.fuseOk = true →
        t.nv = { s.nv with svn := t.nv.svn } ∧ s.nv.svn ≤ t.nv.svn ∧ t.nv.svn ≤ max s.nv.svn s.boot.fuseSvn) ∧
      (s.gasp.program = none → s.boot.fuse = 2 → s.boot.fuseOk = true → s.nv.owned = false →
        t.nv = { s.nv with ownerHash := t.nv.ownerHash, owned := t.nv.owned } ∧ s.nv.ownerHash &&& ~~~t.nv.ownerHash = 0 ∧
        t.nv.ownerHash &&& ~~~(s.nv.ownerHash ||| s.boot.fuseHash) = 0 ∧
        (t.nv.owned = true → t.nv.ownerHash = s.nv.ownerHash ||| s.boot.fuseHash))) ∧
    (∃ t, exec .powerLoss s = .next t ∧ t.pins.reset = true ∧ t.boot = State.reset.boot ∧ t.regs = [] ∧ t.mem = [] ∧ t.units = [] ∧
      t.gasp = State.reset.gasp ∧ (s.gasp.program = none → s.boot.fuse = 0 → t.nv = s.nv) ∧ t.host = s.host) ∧
    (s.pins.reset = true → s.Wf → ∃ t, exec .resetRelease s = .next t ∧ t.pins.reset = false ∧
      t.boot = { s.boot with phase := 2 } ∧ t.get .bootStatus 25 24 = b2n s.nv.owned ∧ t.get .bootStatus 19 14 = s.nv.svn % 64 ∧
      t.link.width ∈ [1, 2, 4, 8, 16] ∧ 1 ≤ t.link.rate ∧ t.link.rate ≤ 6 ∧
      t.clocks.pcie = true ∧ t.clocks.sys = true ∧ t.clocks.opt = true ∧ t.clocks.vid = true ∧
      s.sameRegs t [Reg.bootStatus.key] ∧ t.nv = s.nv) ∧
    (s.pins.reset = false → exec .resetRelease s = .next s)

/-- Boot in its order: NVM_DISCOVERY accepts a device of 512, 1,024 or 2,048 Mbit with the profile, the address width and
the sectors asked for, and shows its density; VERIFY enters recovery with the code of the first failed check; verified
and identified, the firmware starts. Nothing goes on once an error in their memory has stopped the apex cores.
The phases after firmware start: HBM_TRAINING turns every enabled stack ON or marks it failed, and ends in phase 6;
PCIE_READINESS ends request retry; LINK_DISCOVERY waits for every port; READY is shown and enabled units ramp.
That HBM training itself turns stacks ON, and that units ramp from Ready on, is the model's reading (notes/assumptions/32.md). -/
def Obligations.BootRunsItsPhases : Prop :=
  (∀ s : State, s.Wf →
     (∀ (d : NvmDevice) (failed : List StackId), s.boot.apexDead = true →
       exec (.nvmDiscovery d) s = .next s ∧ exec .verify s = .next s ∧ exec .identity s = .next s ∧ exec .firmwareStart s = .next s ∧
       exec (.hbmTraining failed) s = .next s ∧ exec .pcieReadiness s = .next s ∧ exec .linkDiscovery s = .next s ∧
       exec .ready s = .next s) ∧
     (s.booting = true →
     (∀ d : NvmDevice, s.boot.phase = 2 → ∃ t, exec (.nvmDiscovery d) s = .next t ∧ t.boot.phase = 3 ∧
       (t.boot.nvmOk = true ↔ d.present = true ∧ d.profile = true ∧ d.addr4 = true ∧ d.sector64 = true ∧
         (d.mbit = 512 ∨ d.mbit = 1024 ∨ d.mbit = 2048)) ∧
       (t.boot.nvmOk = true → t.get .nvmCtrl 7 4 = (if d.mbit = 512 then 1 else if d.mbit = 1024 then 2 else 3)) ∧
       (t.boot.nvmOk = false → t.get .nvmCtrl 7 4 = 0)) ∧
     (s.boot.phase = 3 → s.boot.verified = false → ∃ t c, exec .verify s = .next t ∧
       c = imVerify s.nv s.boot.nvmOk s.nv.reserved (nvRd s.nv.nvm) ∧
       (c = 0 → t.boot.verified = true ∧ t.boot.image = some (imInfo (nvRd s.nv.nvm)) ∧ t.boot.source = 0 ∧
         t.boot.phase = (if s.boot.idDone then 4 else 3)) ∧
       (c ≠ 0 → t.boot.phase = 15 ∧ t.boot.recovery = true ∧ t.boot.verified = false ∧ (t.val .imageLog).getLsbD 0 = true ∧
         ((s.val .imageLog).getLsbD 0 = false → t.get .imageLog 15 8 = c % 256)) ∧ t.nv = s.nv ∧ t.mem = s.mem) ∧
     (1 < s.boot.phase → s.boot.idDone = false → ∃ t, exec .identity s = .next t ∧ t.boot.idDone = true ∧
       (t.boot.idBad = true ↔ Config.falconPublic (idSeed s.nv.secret) ≠ certKey s.nv.cert) ∧
       (t.boot.idBad = true → (t.val .imageLog).getLsbD 3 = true) ∧
       t.boot.phase = (if s.boot.verified = true ∧ s.boot.phase = 3 then 4 else s.boot.phase) ∧ t.nv = s.nv) ∧
     (∀ i, s.boot.phase = 4 → s.boot.image = some i → ∃ t, exec .firmwareStart s = .next t ∧ t.boot.phase = 5 ∧ t.boot.apexRun = true ∧
       t.pins.apexHb = true ∧ t.gasp.skipped = false ∧ (s.gasp.skipped = true → (t.val .pwrLog).getLsbD 3 = true) ∧
       (s.boot.source = 0 → s.pins.nvmRel = false → t.nv = { s.nv with note := false } ∧ t.gasp.newest = s.nv.newest ∧
         (s.nv.note = true → (t.val .pwrLog).getLsbD 3 = true)) ∧ (s.boot.source ≠ 0 → t.nv = s.nv)))) ∧
  (∀ s : State, s.Wf → s.booting = true →
     (∀ failed : List StackId, s.boot.phase = 5 → ∃ t, exec (.hbmTraining failed) s = .next t ∧ t.boot.phase = 6 ∧
       (∀ x : StackId, x ∈ failed → (t.unit (uStack x)).failed = true) ∧
       (∀ x : StackId, x ∉ failed → (s.unit (uStack x)).failed = false → s.unitEn (uStack x) = true →
         (t.unit (uStack x)).st = .on ∧ (t.unit (uStack x)).failed = false ∧ (∀ a, a / 2 ^ 36 = x.val → rd t.mem a = 0)) ∧
       (∀ k, k < 40 ∨ 52 ≤ k → t.unit k = s.unit k)) ∧
     (s.boot.phase = 6 → ∃ t, exec .pcieReadiness s = .next t ∧ t.boot = { s.boot with phase := 7, pcieReady := true } ∧
       (s.live = true → s.boot.recovery = false → ∀ p : PortId, (s.port p).st = .off → s.mapped p = true → s.unitEn (uPort p) = true →
         (s.unit (uPort p)).failed = false → (t.port p).st = .training ∧ (t.port p).lanes = s.portLanes p) ∧
       t.mem = s.mem ∧ t.nv = s.nv ∧ t.units = s.units ∧ t.facets = s.facets) ∧
     (s.boot.phase = 7 → s.discDone = true → ∃ t, exec .linkDiscovery s = .next t ∧ t.boot = { s.boot with phase := 8 } ∧
       t.ports = s.ports ∧ t.units = s.units ∧ t.mem = s.mem) ∧
     (s.boot.phase = 7 → s.discDone = false → exec .linkDiscovery s = .next s) ∧
     (s.boot.phase = 8 → s.boot.ready = false → s.live = true → s.boot.recovery = false →
       ∃ t, exec .ready s = .next t ∧ t.boot = { s.boot with ready := true } ∧
         (∀ u, u < 52 → (s.unit u).st = .off → (t.unit u).st =
           if s.unitEn u = true ∧ (s.unit u).failed = false then .ramping else .off) ∧
         (∀ p : PartId, (s.part p).st = .off → (t.part p).st = if s.partEn p then .ramping else .off)))

/-- Entry to recovery by request, where the policy allows it and no partition is in use: PHASE 0xF, links and memory
gone, the test port as under 0, no record armed; failed units, removed lanes, every log and counter register and every beat counter kept
(the model's choice, notes/assumptions/40.md: R424 resets units, and these are cleared by device reset alone); GO begins the check of the buffer, which ends in firmware start with SOURCE 1 or in
RECOV_FAIL with its code.
That the stacks list nothing after the entry is the model's choice (notes/assumptions/15.md). -/
def Obligations.RecoveryChecksItsBuffer : Prop :=
  ∀ s : State, s.Wf →
    (∀ w : Word, Taken s 0 .recovCtrl w → w.getLsbD 29 = true → (s.val .recovCtrl).getLsbD 29 = false → w.getLsbD 28 = false →
      s.mayRecover = true ∧ ∃ t, exec (.recoveryEnter w) s = .next t ∧ t.boot.phase = 15 ∧ t.boot.recovery = true ∧
        t.boot.going = false ∧ t.boot.ready = false ∧ t.boot.apexRun = false ∧ t.boot.recBuf = [] ∧ t.mem = [] ∧ t.facets = [] ∧ t.gangs = [] ∧ t.queues = [] ∧ t.ctr = [] ∧
        t.parts = [] ∧ t.ops = [] ∧ t.ctxs = [] ∧ t.seqTab = [] ∧ (∀ p, t.port p = { port0 with lost := (s.port p).lost }) ∧
        (∀ u, t.unit u = { lc0 with failed := (s.unit u).failed }) ∧ t.gasp.armed = none ∧ t.get .bootStatus 23 22 = 0 ∧
        (∀ r : Reg, r.record = true → regAt 0 r.key = some r → t.cell r = s.cell r) ∧
        t.beats = s.beats ∧ t.active = s.active ∧ t.nv = s.nv ∧ t.host = s.host ∧ t.time = 0) ∧
    (∀ w : Word, Taken s 0 .recovCtrl w → w.getLsbD 28 = true → (s.val .recovCtrl).getLsbD 28 = false →
      (w.getLsbD 29 = true → (s.val .recovCtrl).getLsbD 29 = true) → s.boot.recovery = true →
      ∃ t, exec (.recoveryGo w) s = .next t ∧ t.boot = { s.boot with going := true } ∧ t.get .recovCtrl 27 12 = fld w 27 12 ∧
        s.sameRegs t [Reg.recovCtrl.key] ∧ t.mem = s.mem) ∧
    (s.booting = true → s.boot.recovery = true → s.boot.going = true → s.boot.idDone = true →
      ∃ t c, exec .recoveryVerifyDone s = .next t ∧ c = imVerify s.nv true (s.get .recovCtrl 27 12 * 4096) (rd s.boot.recBuf) ∧
        t.boot.going = false ∧
        (c = 0 → t.boot.recovery = false ∧ t.boot.verified = true ∧ t.boot.source = 1 ∧ t.boot.phase = 4 ∧
          t.boot.image = some (imInfo (rd s.boot.recBuf)) ∧ t.regs = s.regs) ∧
        (c ≠ 0 → t.boot.recovery = true ∧ (t.val .imageLog).getLsbD 1 = true ∧ s.sameRegs t [Reg.imageLog.key]))

/-- The NVM port: RELEASE = 1 gives the port up, after a Program in progress; with RELEASE at 0 it is taken back once the board's line
is high, and the device's tables are read again.
Fuse commands: each sets BUSY; an allowed COMMIT_SVN raises the fuse SVN to its value by FUSE_DONE, and a BURN_OWNER of an unowned
part whose hash covers the bits already burned makes it owned; one that is not allowed burns nothing, and one that fails burns a part.
FUSE_DONE clears BUSY, OP and KEY and sets BURN_FAIL after a command that failed.
When a burn takes place, and what a cut leaves of it, are the model's choices (notes/assumptions/50.md). -/
def Obligations.NvmPortAndFusesObey : Prop :=
  (∀ s : State, s.Wf →
     (∀ w : Word, Taken s 0 .nvmCtrl w → w.getLsbD 0 = true →
       ∃ t, exec (.nvmRelease w) s = .next t ∧ t.pins.nvmRel = true ∧ (t.val .nvmCtrl).getLsbD 0 = true ∧ t.gasp.program = none ∧
         t.boot = s.boot ∧ (s.gasp.program = none → s.sameRegs t [Reg.nvmCtrl.key] ∧ t.nv = s.nv) ∧
         (∀ g, s.gasp.program = some g → rising s.nv.nvm = true → ∀ i, i < g.bytes.length → nvRd t.nv.nvm (g.addr + i) = g.bytes.getD i 0)) ∧
     (∀ d : NvmReturn, d.high = true → s.awake = true → s.pins.nvmRel = true → s.get .nvmCtrl 0 0 = 0 →
       ∃ t, exec (.nvmReclaim d) s = .next t ∧ t.pins = { s.pins with nvmRel := false, nvmBoard := false } ∧
         t.boot = { s.boot with nvmOk := t.boot.nvmOk } ∧
         (t.boot.nvmOk = true ↔ d.device.present = true ∧ d.device.profile = true ∧ d.device.addr4 = true ∧ d.device.sector64 = true ∧
           (d.device.mbit = 512 ∨ d.device.mbit = 1024 ∨ d.device.mbit = 2048)) ∧
         t.get .nvmCtrl 7 4 = (if t.boot.nvmOk = false then 0 else if d.device.mbit = 512 then 1 else if d.device.mbit = 1024 then 2 else 3) ∧
         t.nv = { s.nv with mbit := if t.boot.nvmOk then d.device.mbit else s.nv.mbit } ∧ s.sameRegs t [Reg.nvmCtrl.key]) ∧
     (∀ d : NvmReturn, d.high = false → exec (.nvmReclaim d) s = .next { s with pins := { s.pins with nvmBoard := true } })) ∧
  (∀ s : State, s.Wf →
     (∀ w : Word, Taken s 0 .fuseCtrl w → fld w 19 18 = 1 →
       ∃ t, exec (.fuseCommitSvn w) s = .next t ∧ t.nv = s.nv ∧
         t.boot = { s.boot with fuse := 1, fuseOk := t.boot.fuseOk, fuseSvn := fld w 17 12 } ∧
         (t.boot.fuseOk = true ↔ s.get .bootStatus 21 21 = 1 ∧ s.nv.svn ≤ fld w 17 12 ∧ fld w 17 12 ≤ s.get .bootStatus 13 8) ∧
         s.sameRegs t [Reg.fuseCtrl.key]) ∧
     (∀ w : Word, Taken s 0 .fuseCtrl w → fld w 19 18 = 2 →
       ∃ t, exec (.fuseBurnOwner w) s = .next t ∧ t.nv = s.nv ∧
         t.boot = { s.boot with fuse := 2, fuseOk := t.boot.fuseOk, fuseHash := s.ownerHashValue } ∧
         (t.boot.fuseOk = true ↔ s.nv.owned = false ∧ s.nv.ownerHash &&& ~~~s.ownerHashValue = 0) ∧
         s.sameRegs t [Reg.fuseCtrl.key]) ∧
     (∀ failed : Bool, s.awake = true → s.boot.fuse ≠ 0 →
       ∃ t, exec (.fuseDone failed) s = .next t ∧ t.boot = { s.boot with fuse := 0, fuseOk := false } ∧
         t.get .fuseCtrl 19 18 = 0 ∧ t.get .fuseCtrl 31 24 = 0 ∧
         (failed = true ∨ s.boot.fuseOk = false → (t.val .imageLog).getLsbD 2 = true) ∧
         (failed = false → s.boot.fuseOk = true → t.val .imageLog = s.val .imageLog) ∧
         (s.boot.fuseOk = false → t.nv = s.nv) ∧
         (failed = false → s.boot.fuseOk = true → s.boot.fuse = 1 →
           t.nv = { s.nv with svn := max s.nv.svn s.boot.fuseSvn } ∧ t.get .bootStatus 19 14 = max s.nv.svn s.boot.fuseSvn % 64) ∧
         (failed = false → s.boot.fuseOk = true → s.boot.fuse = 2 → s.nv.owned = false →
           t.nv = { s.nv with owned := true, ownerHash := s.nv.ownerHash ||| s.boot.fuseHash } ∧ t.get .bootStatus 25 24 = 1) ∧
         (failed = true → s.boot.fuseOk = true → s.boot.fuse = 1 →
           t.nv = { s.nv with svn := t.nv.svn } ∧ s.nv.svn ≤ t.nv.svn ∧ t.nv.svn ≤ max s.nv.svn s.boot.fuseSvn) ∧
         (failed = true → s.boot.fuseOk = true → s.boot.fuse = 2 → s.nv.owned = false →
           t.nv = { s.nv with ownerHash := t.nv.ownerHash, owned := t.nv.owned } ∧ s.nv.ownerHash &&& ~~~t.nv.ownerHash = 0 ∧
           (t.nv.owned = true → t.nv.ownerHash = s.nv.ownerHash ||| s.boot.fuseHash))))

/-- ATOMIC and SIGNAL complete: a permitted atomic on one element in the stacks, which space 1 brings near first, replaces it by the operation's result and
answers with the prior value or an acknowledgement; a signal adds its value to its counter and is acknowledged. -/
def Obligations.AtomicsAndSignalsUpdate : Prop :=
  ∀ (h : TxHeader) (s : State), s.Wf →
    (∀ u, Arrives s h .atomic → h.code < 7 ∨ h.code = 8 → h.scalar = true → h.len = atomicBytes h.code → h.space < 2 →
      u = s.arriveNear h .atomic → u.txClear → u.writesNow (srcLink h.dstPart) h.offset h.len →
      ∃ t, exec (.atomicTransaction h []) s = .next t ∧
        rdBytes t.mem h.offset h.len =
          natLe h.len (atomicPlain h.code (rdNat s.mem h.offset h.len) (h.arg.toNat % 2 ^ (8 * h.len))) ∧
        (∀ a, a < h.offset ∨ h.offset + h.len ≤ a → rd t.mem a = rd s.mem a) ∧
        (h.ret = true → s.answered t h .atomicRet 0 (rdBytes s.mem h.offset h.len)) ∧
        (h.ret = false → s.answered t h .ack 0 []) ∧ t.ctr = s.ctr ∧
        t = { u with mem := t.mem, dir := t.dir, poison := t.poison, txSeq := t.txSeq, out := { u.out with tx := t.out.tx } }) ∧
    (s.live = true → s.upset = false → s.arrival h .signal 2 (fld h.arg 45 32 * 16) 1 = 0 →
      ∃ u : State, exec (.signalTransaction h) s = .next u.chordTurns ∧
        (∀ n, u.counter n = if n = fld h.arg 45 32 then s.counter n + BitVec.ofNat 32 (fld h.arg 31 0) else s.counter n) ∧
        s.answered u h .ack 0 [] ∧ u.mem = s.mem ∧ s.sameRegs u queueLogKeys ∧ u.ctxs = s.ctxs ∧ u.facets = s.facets) ∧
    (s.live = true → s.upset = false → s.arrival h .signal 2 (fld h.arg 45 32 * 16) 1 ≠ 0 →
      ∃ t, exec (.signalTransaction h) s = .next t ∧
        s.answered t h .nack (s.arrival h .signal 2 (fld h.arg 45 32 * 16) 1) [] ∧ t = { s with out := { s.out with tx := t.out.tx } })

/-- Attestation: the certificate and the report are refused with a bad identity alone; a report carries the nonce given and a signature
of 1,280 bytes over its bytes. The discovery data names two further types.
The discovery data are PCI Express's as the model presumes them (notes/assumptions/43.md). -/
def Obligations.AttestationAnswers : Prop :=
  ∀ s : State, s.answers = true →
    (exec .getCert s = .next { s with out := { s.out with doe := if s.boot.idBad then [] else s.nv.cert } }) ∧
    (∀ n : BitVec 256, ∃ t, exec (.getReport n) s = .next t ∧ t = { s with out := { s.out with doe := t.out.doe } } ∧
      (s.boot.idBad = false →
        t.out.doe = s.reportBytes n ++ falconSig s.nv.secret (s.reportBytes n) ∧
        (t.out.doe.drop (s.reportBytes n).length).length = 1280 ∧ (t.out.doe.drop 16).take 32 = natLe 32 n.toNat) ∧
      (s.boot.idBad = true → t.out.doe = [])) ∧
    (∀ k : Nat, ∃ t, exec (.doeDiscovery k) s = .next t ∧ t.out.doe.length = 4 ∧
      t.out.doe.getLast? = some (if k = 0 then 1 else if k = 1 then 2 else 0) ∧ t = { s with out := { s.out with doe := t.out.doe } })

/-- GOVERNOR_STEP moves every rail at most 12.5 mV toward the code the limits allow and never past it, but for a rail
whose target write has no valid response; telemetry is taken while the apex cores run. PWRCAP_ASSERT is logged, and its release only shows the land. -/
def Obligations.GovernorStepsRails : Prop :=
  (∀ (r : GovernorReading) (s : State), s.Wf → s.upset = false → s.awake = true → s.halted = false → 5 ≤ s.boot.phase →
    s.boot.recovery = false →
    ∃ t, exec (.governorStep r) s = .next t ∧ t.power.vcore.length = s.power.vcore.length ∧
      (∀ k v v' : Nat, s.power.vcore[k]? = some v → t.power.vcore[k]? = some v' → v' ≤ v + 5 ∧ v ≤ v' + 5 ∧
        v' = (if r.silent.contains k then v else if v < 2 * max (s.railLimit r) 110 then min (v + 5) (2 * max (s.railLimit r) 110)
          else max (v - 5) (2 * max (s.railLimit r) 110))) ∧
      t.power.gating = r.unmet ∧ t.power.slewing = r.slewing ∧
      (s.boot.apexRun = true → t.power.powerW = r.powerW.toNat ∧ t.power.tjMax = r.tjMax.toNat) ∧
      (s.boot.apexRun = false → t.power.powerW = s.power.powerW ∧ t.power.tjMax = s.power.tjMax) ∧
      s.sameRegs t [Reg.pwrLog.key] ∧
      t = { s with power := t.power, regs := t.regs, out := { s.out with msix := t.out.msix }, fns := t.fns }) ∧
  (∀ s : State, s.Wf → ∃ t, exec .pwrcapAssert s = .next t ∧ t.pins = { s.pins with pwrcap := true } ∧
    (s.awake = true → (t.val .pwrLog).getLsbD 1 = true) ∧ s.sameRegs t [Reg.pwrLog.key] ∧ t.power = s.power) ∧
  (∀ s : State, exec .pwrcapRelease s = .next { s with pins := { s.pins with pwrcap := false } })

/-- TRIP halts the fabric, asserts TRIP_N and shows its cause and source, where its cause holds; a power warning stops claiming and its
withdrawal lets it begin again. The record that an armed last-gasp slot then takes is fixed at once and stands in it, byte for byte,
when Program and Check have ended: after 1.22 ms (the model's choice, notes/assumptions/54.md), or at the withdrawal. With none armed,
the skip is noted, and LAST_GASP_ARM writes the note. -/
def Obligations.TripAndWarningWriteRecord : Prop :=
  ∀ s : State, s.Wf → rising s.nv.nvm = true →
    (∀ (cause : Fin 16) (source : BitVec 8), s.awake = true → s.halted = false → s.tripHolds cause.val source.toNat = true →
      ∃ t u : State, exec (.trip cause source) s = .next t ∧ t.halted = true ∧ t.pins.trip = true ∧
        t.get .pwrTrip 11 8 = cause.val ∧ t.get .pwrTrip 7 0 = source.toNat ∧ s.sameRegs t [Reg.pwrTrip.key] ∧ t.mem = s.mem ∧
        t.nv = s.nv ∧
        (∀ k, s.gasp.armed = some k → s.pins.nvmRel = false → ¬(cause.val = 5 ∧ (source = 11 ∨ source = 12)) →
          u = { t with gasp := s.gasp } ∧ t.gasp.armed = none ∧ t.gasp.program =
            some { addr := s.nv.slotAt k, bytes := u.gaspRecord (cause.val + 256 * source.toNat), since := s.time })) ∧
    (∀ (cause : Fin 16) (source : BitVec 8), s.tripHolds cause.val source.toNat = false → exec (.trip cause source) s = .next s) ∧
    (s.pins.pwrwarn = false → s.awake = true → s.halted = false →
      ∃ t u : State, exec .pwrwarnAssert s = .next t ∧ t.pins.pwrwarn = true ∧ t.power.warnStop = true ∧ t.regs = s.regs ∧ t.mem = s.mem ∧
        t.nv = s.nv ∧
        (∀ k, s.gasp.armed = some k → s.pins.nvmRel = false → u = { t with gasp := s.gasp } ∧ t.gasp.armed = none ∧
          t.gasp.program = some { addr := s.nv.slotAt k, bytes := u.gaspRecord 0, since := s.time }) ∧
        (s.gasp.armed = none → t.gasp.skipped = true)) ∧
    (s.awake = true → s.power.warnStop = true → s.freeze.due = false →
      ∃ t, exec .pwrwarnWithdraw s = .next t ∧ t.pins.pwrwarn = false ∧ t.power.warnStop = false ∧ t.gasp.program = none ∧
        (t.val .pwrLog).getLsbD 5 = true ∧ s.sameRegs t [Reg.pwrLog.key] ∧ (s.gasp.program = none → t.nv = s.nv) ∧
        (∀ g, s.gasp.program = some g → ∀ i, i < g.bytes.length → nvRd t.nv.nvm (g.addr + i) = g.bytes.getD i 0)) ∧
    (∀ g, s.gasp.program = some g → s.pending = [] → s.awake = true → s.freeze.due = false →
      1220000 ≤ (s.tickMeridian.time - g.since).toNat →
      ∃ t, step s = .next t ∧ t.gasp.program = none ∧
        (∀ i, i < g.bytes.length → nvRd t.nv.nvm (g.addr + i) = g.bytes.getD i 0) ∧
        ∀ a, a < g.addr ∨ g.addr + g.bytes.length ≤ a → nvRd t.nv.nvm a = nvRd s.nv.nvm a) ∧
    (s.awake = true → s.boot.ready = true → s.gasp.armed = none → s.gasp.program = none → s.pins.nvmRel = false →
      s.boot.source = 0 → s.boot.nvmOk = true → s.boot.apexRun = true →
      ∃ t k next other, exec .lastGaspArm s = .next t ∧ t.gasp.armed = some k ∧ t.gasp.skipped = false ∧
        t.nv = { s.nv with note := s.nv.note || s.gasp.skipped, nvm := t.nv.nvm } ∧ t.nv.slotErased k = true ∧
        next = (match s.nv.newest with | some j => (j + 1) % 32 | none => 0) ∧
        other = (match s.nv.newest with | some j => if j < 16 then 1 else 0 | none => 1) ∧
        k = (if s.nv.slotErased next then next else 16 * other) ∧ (s.nv.slotErased k = true → t.nv.nvm = s.nv.nvm) ∧
        (s.nv.slotErased k = false → ∀ a, nvRd t.nv.nvm a =
          if s.nv.reserved + 65536 * other ≤ a ∧ a < s.nv.reserved + 65536 * other + 65536 then 0xFF else nvRd s.nv.nvm a))

/-- APEX_STOP stops the heartbeat, the collection of errors and what is left of boot, and nothing else. A lost reference clock is noted: without
REFCLK_SYS the fabric holds as in a full freeze, without REFCLK_OPT every UP port loses its lanes.
Section capture: a request freezes the fabric in its scope with every stack in self-refresh and the meridian time
noted; while a record is programmed it waits. THAW ends a core freeze that no request and no read-out holds, and ports train afresh. A
read-out is answered under a test port and lasts until another TAP instruction is selected; it is the header, the table of the regions
and their bytes, the sequence table's among them.
What ends a read-out is the model's reading (notes/assumptions/36.md); the header's layout is its choice (notes/assumptions/17.md). -/
def Obligations.ClocksAndFreezesHoldTheFabric : Prop :=
  (∀ s : State, s.Wf →
     (s.clocks.sys = false → ∀ (x : StackId) (temp : BitVec 8) (r : GovernorReading),
       exec (.stackTempRead x temp) s = .next s ∧ exec (.hbmRefresh x) s = .next s ∧ exec (.governorStep r) s = .next s) ∧
     (s.pins.reset = false →
       exec .apexStop s =
         .next { s with boot := { s.boot with apexRun := false, apexDead := true }, pins := { s.pins with apexHb := false } } ∧
       exec (.refclkLoss .pcie) s = .next { s with clocks := { s.clocks with pcie := false } } ∧
       exec (.refclkLoss .vid) s = .next { s with clocks := { s.clocks with vid := false } } ∧
       (∃ t, exec (.refclkLoss .sys) s = .next t ∧ t.live = false ∧ t.awake = false ∧ t.pins.apexHb = false ∧ t.mem = s.mem ∧ t.regs = s.regs) ∧
       (∃ t, exec (.refclkLoss .opt) s = .next t ∧ t.clocks.opt = false ∧ ∀ p : PortId, (s.port p).st = .up → (s.port p).lanes ≠ [] →
         (t.port p).st = .absent ∧ (t.port p).lanes = [] ∧ (t.port p).lost = (s.port p).lanes ++ (s.port p).lost ∧ (t.val (.lnkPortLog p)).getLsbD 1 = true))) ∧
  (∀ s : State, s.Wf →
     (s.awake = true → s.freeze.frozen = false → s.gasp.program = none →
       (∃ t, exec .freezeNAssert s = .next t ∧ t.freeze.frozen = true ∧ t.freeze.full = (s.get .secCtrl 1 1 == 1) ∧
         t.freeze.stamp = s.time ∧ t.freeze.readout = false ∧ t.pins.freeze = true ∧ (t.val .secLog).getLsbD 0 = true ∧
         (∀ x : StackId, (t.memCtl x).selfRefresh = true) ∧ s.sameRegs t [Reg.secLog.key] ∧ t.mem = s.mem ∧ t.units = s.units) ∧
       (∀ w : Word, Taken s 0 .secCtrl w → w.getLsbD 0 = true → (s.val .secCtrl).getLsbD 0 = false →
         ∃ t, exec (.sectionRequest w) s = .next t ∧ t.freeze.frozen = true ∧ t.freeze.full = w.getLsbD 1 ∧
           t.freeze.stamp = s.time ∧ (∀ x : StackId, (t.memCtl x).selfRefresh = true) ∧ t.mem = s.mem)) ∧
     (s.awake = true → s.gasp.program.isSome = true →
       exec .freezeNAssert s = .next { s with pins := { s.pins with freeze := true }, freeze := { s.freeze with due := true } }) ∧
     (s.awake = true → s.freeze.frozen = true → s.freeze.readout = false → s.get .secCtrl 0 0 = 0 →
       ∃ t, exec .thaw s = .next t ∧ t.freeze.frozen = false ∧ t.freeze.full = false ∧ t.pins.freeze = false ∧
         (∀ p : PortId, (s.port p).st ≠ .off → (s.port p).st ≠ .quarantined → (s.port p).st ≠ .draining → s.unitEn (uPort p) = true →
           (s.unit (uPort p)).failed = false → (t.port p).st = .training) ∧
         (∀ p : PortId, (s.port p).st ≠ .quarantined → s.unitEn (uPort p) = false ∨ (s.unit (uPort p)).failed = true →
           (t.port p).st = .off) ∧
         (∀ x : StackId, (t.memCtl x).selfRefresh = false)) ∧
     (s.freeze.frozen = true → s.freeze.readout = true ∨ s.get .secCtrl 0 0 ≠ 0 →
       exec .thaw s = .next { s with pins := { s.pins with freeze := false } }) ∧
     (s.upset = false → s.pins.reset = false → s.get .bootStatus 23 22 ≠ 0 → s.freeze.frozen = true →
       ∃ t r, exec .sectionRead s = .next t ∧ r = s.regions ∧ t.freeze = { s.freeze with readout := true } ∧
         t.out.tap.length = 32 + cdiv (16 * r.length + (r.map Region.size).foldl (· + ·) 0) 2 ∧
         t.out.tap.take 2 = [0x4354, 0x5345] ∧
         (∀ x, r[114]? = some x → x.size = 2 ^ 22 ∧ x.bytes = rd s.seqTab) ∧
         t = { s with out := { s.out with tap := t.out.tap }, freeze := t.freeze, fresh := t.fresh, tests := t.tests }) ∧
     (s.upset = false → s.get .bootStatus 23 22 = 0 → exec .sectionRead s = .next s) ∧
     (exec .idcode s = .next { s with out := { s.out with tap := [0x1E101987] }, freeze := { s.freeze with readout := false } }) ∧
     (exec .bypass s = .next { s with out := { s.out with tap := [0] }, freeze := { s.freeze with readout := false } }))

/-- The sequencer fetches ahead before each attempt to issue: the rest of a program in space 0 or 3 of the own vertex that the
buffer and the granule take lands at the buffer's end, and nothing else changes but the times at which near tiles were accessed;
a program whose fetch is under way or complete fetches nothing.
Every instruction issues, with what the sequencer has fetched, once it is issuable and ready: it enters its unit with its
effect. While its wait is unreached it begins to wait and nothing else changes.
How far the sequencer fetches ahead is the model's choice (notes/assumptions/65.md). -/
def Obligations.InstructionIssuesWhenReady : Prop :=
  (∀ (f : FacetId) (r : Run) (s : State), s.Wf → s.live = true → s.upset = false → (s.facet f).run = some r → r.tableDue = false →
     r.stop = none → r.posted = false → r.fetchFail = 0 →
     (r.asked ≠ 0 ∨ r.nextFetch.2 = 0 → s.ahead f = s) ∧
     (∀ n, r.asked = 0 → r.nextFetch.2 = n → n ≠ 0 → r.pc + r.buf.length + n = wLen r.cl.wd → r.nextFetch.1.rank = 0xFFF →
       r.nextFetch.1.space = 0 ∨ r.nextFetch.1.space = 3 → s.gran = [] →
       s.spaceCheck r.cl.part r.nextFetch.1.space r.nextFetch.1.off (32 * n) = 0 →
       (r.nextFetch.1.space = 0 → s.poisoned r.nextFetch.1.off (32 * n) = false) →
       (((s.ahead f).facet f).run = some { r with
         buf := r.buf ++ (List.range n).map fun k => BitVec.ofNat 256
           (s.rdVal r.cl.part { r.nextFetch.1 with off := r.nextFetch.1.off + 32 * k } 32) }) ∧
       (∀ k, k ≠ f.val → (s.ahead f).facet k = s.facet k) ∧
       (r.nextFetch.1.space = 3 → (s.ahead f).dir = s.dir) ∧
       s.ahead f = { s with facets := (s.ahead f).facets, dir := (s.ahead f).dir })) ∧
  (∀ (c : Instr) (f : FacetId) (op : Nat) (un : FUnit) (plan : State → Iss → Plan) (s u : State) (i : Iss),
     issueRow c = some (f, op, un, plan) → u = s.ahead f → Issuable u f op un (plan u i) i →
     (Ready u (plan u i) i → exec c s = .next (u.issue i (plan u i))) ∧
     (u.waitOk i.run i.ins = false → i.run.waiting = none ∨ i.run.poolSeq ≠ none →
       exec c s = .next (u.setFacet f { u.facet f with run := some { i.run with waiting := some u.limClock, poolSeq := none } })) ∧
     (u.waitOk i.run i.ins = false → i.run.waiting ≠ none → i.run.poolSeq = none → exec c s = .next u))
end

