-- ==== Sys2Proof/Laws/Table.lean ====
section
/-! SUPPORT. The laws of sparse tables and of memories: reading after writing, the order of keys, the canonical form. -/

namespace Sys2Proof.Machine

@[simp] theorem tget_nil {α : Type} (d : α) (k : Nat) : tget [] d k = d := rfl
@[simp] theorem rising_nil {α : Type} : rising ([] : SMap α) = true := rfl
@[simp] theorem memWf_nil : memWf [] = true := rfl

variable {α : Type}

/-- A table in order from `lo` on is in order from any lower start. -/
theorem risingFrom_mono {lo hi : Nat} (h : lo ≤ hi) : ∀ m : SMap α, risingFrom hi m = true → risingFrom lo m = true
  | [], _ => rfl
  | (k, v) :: t, w => by
    simp only [risingFrom, Bool.and_eq_true, decide_eq_true_eq] at w ⊢
    exact ⟨Nat.le_trans h w.1, w.2⟩

/-- A key below a table's start reads as the default. -/
theorem tget_below (d : α) {lo k : Nat} (h : k < lo) : ∀ m : SMap α, risingFrom lo m = true → tget m d k = d
  | [], _ => rfl
  | (k', v) :: t, w => by
    simp only [risingFrom, Bool.and_eq_true, decide_eq_true_eq] at w
    have : k < k' := Nat.lt_of_lt_of_le h w.1
    simp [tget, this, Nat.ne_of_lt this]

variable [DecidableEq α]

@[simp] theorem twf_nil (d : α) : twf d ([] : SMap α) = true := rfl

/-- A canonical table is in order. -/
theorem risingFrom_of_twfFrom (d : α) : ∀ (m : SMap α) (lo : Nat), twfFrom d lo m = true → risingFrom lo m = true
  | [], _, _ => rfl
  | (k, v) :: t, lo, w => by
    simp only [twfFrom, Bool.and_eq_true, decide_eq_true_eq] at w
    simp only [risingFrom, Bool.and_eq_true, decide_eq_true_eq]
    exact ⟨w.1.1, risingFrom_of_twfFrom d t (k + 1) w.2⟩

theorem rising_of_memWf {m : Mem} (h : memWf m = true) : rising m = true := risingFrom_of_twfFrom 0 m 0 h

/-- A write reads back. -/
theorem tget_tset_same_from (d : α) (k : Nat) (v : α) :
    ∀ (m : SMap α) (lo : Nat), risingFrom lo m = true → tget (tset m d k v) d k = v
  | [], _, _ => by
    by_cases hv : v = d <;> simp [tset, tget, hv]
  | (k', v') :: t, lo, w => by
    simp only [risingFrom, Bool.and_eq_true, decide_eq_true_eq] at w
    unfold tset
    split
    · rename_i h
      split
      · rename_i hv; simp [tget, h, Nat.ne_of_lt h, hv]
      · simp [tget]
    · split
      · rename_i h1 h2
        subst h2
        split
        · rename_i hv; rw [tget_below d (Nat.lt_succ_self k) t w.2, hv]
        · simp [tget]
      · rename_i h1 h2
        simp only [tget, h2, h1, if_false]
        exact tget_tset_same_from d k v t (k' + 1) w.2

/-- A write leaves every other key alone. -/
theorem tget_tset_other_from (d : α) {j k : Nat} (v : α) (hj : j ≠ k) :
    ∀ (m : SMap α) (lo : Nat), risingFrom lo m = true → tget (tset m d k v) d j = tget m d j
  | [], _, _ => by
    unfold tset
    split
    · rfl
    · simp [tget, hj]
  | (k', v') :: t, lo, w => by
    simp only [risingFrom, Bool.and_eq_true, decide_eq_true_eq] at w
    unfold tset
    split
    · rename_i h
      split
      · rfl
      · simp only [tget, hj, if_false]
        split
        · rename_i h3
          rw [if_neg (by omega), if_pos (by omega)]
        · rfl
    · split
      · rename_i h1 h2
        subst h2
        split
        · simp only [tget, hj, if_false]
          split
          · rename_i h3; exact tget_below d (by omega) t w.2
          · rfl
        · simp [tget, hj]
      · rename_i h1 h2
        simp only [tget]
        rw [tget_tset_other_from d v hj t (k' + 1) w.2]

/-- A write keeps the order. -/
theorem risingFrom_tset (d : α) (k : Nat) (v : α) :
    ∀ (m : SMap α) (lo : Nat), lo ≤ k → risingFrom lo m = true → risingFrom lo (tset m d k v) = true
  | [], lo, h, _ => by
    unfold tset
    split
    · rfl
    · simp [risingFrom, h]
  | (k', v') :: t, lo, h, w => by
    have w' := w
    simp only [risingFrom, Bool.and_eq_true, decide_eq_true_eq] at w
    unfold tset
    split
    · rename_i h1
      split
      · exact w'
      · simp only [risingFrom, Bool.and_eq_true, decide_eq_true_eq]
        exact ⟨h, by omega, w.2⟩
    · split
      · rename_i h1 h2
        subst h2
        split
        · exact risingFrom_mono (by omega) t w.2
        · simp only [risingFrom, Bool.and_eq_true, decide_eq_true_eq]
          exact ⟨h, w.2⟩
      · rename_i h1 h2
        simp only [risingFrom, Bool.and_eq_true, decide_eq_true_eq]
        exact ⟨w.1, risingFrom_tset d k v t (k' + 1) (by omega) w.2⟩

theorem tget_tset_same (d : α) (k : Nat) (v : α) {m : SMap α} (h : rising m = true) : tget (tset m d k v) d k = v :=
  tget_tset_same_from d k v m 0 h
theorem tget_tset_other (d : α) {j k : Nat} (v : α) (hj : j ≠ k) {m : SMap α} (h : rising m = true) :
    tget (tset m d k v) d j = tget m d j := tget_tset_other_from d v hj m 0 h
theorem rising_tset (d : α) (k : Nat) (v : α) {m : SMap α} (h : rising m = true) : rising (tset m d k v) = true :=
  risingFrom_tset d k v m 0 (Nat.zero_le k) h

omit [DecidableEq α] in
/-- Keeping only some entries keeps the order. -/
theorem risingFrom_filter (f : Nat × α → Bool) :
    ∀ (m : SMap α) (lo : Nat), risingFrom lo m = true → risingFrom lo (m.filter f) = true
  | [], _, _ => rfl
  | (k, v) :: t, lo, w => by
    simp only [risingFrom, Bool.and_eq_true, decide_eq_true_eq] at w
    have ih := risingFrom_filter f t (k + 1) w.2
    rw [List.filter_cons]
    split
    · simp only [risingFrom, Bool.and_eq_true, decide_eq_true_eq]
      exact ⟨w.1, ih⟩
    · exact risingFrom_mono (by omega) _ ih

omit [DecidableEq α] in
theorem rising_filter (f : Nat × α → Bool) {m : SMap α} (h : rising m = true) : rising (m.filter f) = true :=
  risingFrom_filter f m 0 h

/-! The canonical form: in order, and no entry equal to what an unlisted key reads as. -/

theorem twfFrom_mono (d : α) {lo hi : Nat} (h : lo ≤ hi) : ∀ m : SMap α, twfFrom d hi m = true → twfFrom d lo m = true
  | [], _ => rfl
  | (k, v) :: t, w => by
    simp only [twfFrom, Bool.and_eq_true, decide_eq_true_eq] at w ⊢
    exact ⟨⟨Nat.le_trans h w.1.1, w.1.2⟩, w.2⟩

theorem twfFrom_tset (d : α) (k : Nat) (v : α) :
    ∀ (m : SMap α) (lo : Nat), lo ≤ k → twfFrom d lo m = true → twfFrom d lo (tset m d k v) = true
  | [], lo, h, _ => by
    unfold tset
    split
    · rfl
    · rename_i hv; simp [twfFrom, h, hv]
  | (k', v') :: t, lo, h, w => by
    have w' := w
    simp only [twfFrom, Bool.and_eq_true, decide_eq_true_eq] at w
    unfold tset
    split
    · rename_i h1
      split
      · exact w'
      · rename_i hv
        simp only [twfFrom, Bool.and_eq_true, decide_eq_true_eq]
        exact ⟨⟨h, hv⟩, ⟨by omega, w.1.2⟩, w.2⟩
    · split
      · rename_i h1 h2
        subst h2
        split
        · exact twfFrom_mono d (by omega) t w.2
        · rename_i hv
          simp only [twfFrom, Bool.and_eq_true, decide_eq_true_eq]
          exact ⟨⟨h, hv⟩, w.2⟩
      · rename_i h1 h2
        simp only [twfFrom, Bool.and_eq_true, decide_eq_true_eq]
        exact ⟨w.1, twfFrom_tset d k v t (k' + 1) (by omega) w.2⟩

theorem twf_tset (d : α) (k : Nat) (v : α) (m : SMap α) (h : twf d m = true) : twf d (tset m d k v) = true :=
  twfFrom_tset d k v m 0 (Nat.zero_le k) h

/-- Keeping only some entries keeps the canonical form. -/
theorem twfFrom_filter (d : α) (f : Nat × α → Bool) : ∀ (m : SMap α) (lo : Nat), twfFrom d lo m = true → twfFrom d lo (m.filter f) = true
  | [], _, _ => rfl
  | (k, v) :: t, lo, w => by
    have w' := w
    simp only [twfFrom, Bool.and_eq_true, decide_eq_true_eq] at w
    have ih := twfFrom_filter d f t (k + 1) w.2
    rw [List.filter_cons]
    split
    · simp only [twfFrom, Bool.and_eq_true, decide_eq_true_eq]
      exact ⟨w.1, ih⟩
    · exact twfFrom_mono d (by omega) _ ih

theorem twf_filter (d : α) (f : Nat × α → Bool) (m : SMap α) (h : twf d m = true) : twf d (m.filter f) = true :=
  twfFrom_filter d f m 0 h

/-! Memories. -/

/-- A byte written reads back, and no other byte changes. -/
theorem rd_wr_same (m : Mem) (a : Nat) (b : Byte) (h : memWf m = true) : rd (wr m a b) a = b :=
  tget_tset_same 0 a b (rising_of_memWf h)
theorem rd_wr_other (m : Mem) {a x : Nat} (b : Byte) (h : memWf m = true) (hx : x ≠ a) : rd (wr m a b) x = rd m x :=
  tget_tset_other 0 b hx (rising_of_memWf h)
theorem memWf_wr (m : Mem) (a : Nat) (b : Byte) (h : memWf m = true) : memWf (wr m a b) = true := twf_tset 0 a b m h
/-- Writing cells keeps the canonical form. -/
theorem memWf_wrCells : ∀ (l : List (Nat × Byte)) (m : Mem), memWf m = true → memWf (wrCells m l) = true
  | [], _, h => h
  | (a, b) :: t, m, h => memWf_wrCells t (wr m a b) (memWf_wr m a b h)

theorem memWf_filter (f : Nat × Byte → Bool) (m : Mem) (h : memWf m = true) : memWf (m.filter f) = true := twf_filter 0 f m h

/-- A byte outside the cells written reads as before. -/
theorem rd_wrCells_other {x : Nat} :
    ∀ (l : List (Nat × Byte)) (m : Mem), memWf m = true → (∀ c ∈ l, x ≠ c.1) → rd (wrCells m l) x = rd m x
  | [], _, _, _ => rfl
  | (a, b) :: t, m, h, hx => by
    have h1 : rd (wrCells (wr m a b) t) x = rd (wr m a b) x :=
      rd_wrCells_other t (wr m a b) (memWf_wr m a b h) fun c hc => hx c (List.mem_cons_of_mem _ hc)
    exact h1.trans (rd_wr_other m b h (hx (a, b) (List.mem_cons_self ..)))

/-- The keys of a byte string's cells. -/
theorem mem_cellsAt {x : Nat × Byte} : ∀ (l : List Byte) (a : Nat), x ∈ cellsAt a l → a ≤ x.1 ∧ x.1 < a + l.length
  | [], _, h => by simp [cellsAt] at h
  | b :: t, a, h => by
    simp only [cellsAt, List.mem_cons] at h
    rcases h with rfl | h
    · simp
    · have := mem_cellsAt t (a + 1) h
      simp only [List.length_cons]
      omega

/-- A byte string written reads back. -/
theorem rdBytes_wrCells : ∀ (l : List Byte) (m : Mem) (a : Nat), memWf m = true → rdBytes (wrCells m (cellsAt a l)) a l.length = l
  | [], _, _, _ => rfl
  | b :: t, m, a, h => by
    have ih := rdBytes_wrCells t (wr m a b) (a + 1) (memWf_wr m a b h)
    have h0 : rd (wrCells (wr m a b) (cellsAt (a + 1) t)) a = b := by
      rw [rd_wrCells_other _ _ (memWf_wr m a b h), rd_wr_same m a b h]
      intro c hc
      have := mem_cellsAt t (a + 1) hc
      omega
    simp only [List.length_cons, cellsAt, wrCells, rdBytes, h0, ih]

end Sys2Proof.Machine
end

