-- ==== Sys2Proof/Laws/Kept.lean ====
section
/-! SUPPORT. What every operation keeps (Sys2Proof/Safety.lean's Kept): the relation's own laws and one lemma per
setter of State; the lemmas of the operations above them stand in Sys2Proof/Laws/KeptOps.lean and after. Each is
written so that it chains: from Kept s X follows Kept s (operation of X). -/

namespace Sys2Proof.Machine

theorem FusesKept.refl (a : NonVol) : FusesKept a a := ⟨fun h => ⟨h, rfl⟩, Nat.le_refl _, rfl, rfl, rfl⟩

theorem FusesKept.trans {a b c : NonVol} (h : FusesKept a b) (k : FusesKept b c) : FusesKept a c :=
  ⟨fun w => ⟨(k.owned (h.owned w).1).1, (k.owned (h.owned w).1).2.trans (h.owned w).2⟩, Nat.le_trans h.svn k.svn,
    k.serial.trans h.serial, k.secret.trans h.secret, k.cert.trans h.cert⟩

theorem Kept.refl (s : State) : Kept s s := ⟨rfl, FusesKept.refl _, id⟩

theorem Kept.trans {s t u : State} (h : Kept s t) (k : Kept t u) : Kept s u :=
  ⟨k.pending.trans h.pending, h.fuses.trans k.fuses, fun w => k.wf (h.wf w)⟩

/-- What Kept looks at, all else made equal. -/
def State.shape (s : State) : State :=
  { State.reset with
    pending := s.pending, nv := { s.nv with nvm := [], mbit := 0, note := false }, mem := s.mem, host := s.host, seqTab := s.seqTab
    regs := s.regs, ctr := s.ctr, gran := s.gran, dir := s.dir, memctl := s.memctl, arbs := s.arbs, xings := s.xings, beats := s.beats
    active := s.active, facets := s.facets, queues := s.queues, fns := s.fns, tces := s.tces, codecs := s.codecs
    ctxs := s.ctxs, ops := s.ops, ports := s.ports, routes := s.routes, units := s.units, parts := s.parts, ues := s.ues }

theorem State.wf_shape (s : State) : s.shape.Wf ↔ s.Wf := Iff.rfl

/-- A change of other fields alone. -/
theorem Kept.other {s X t : State} (h : Kept s X) (e : t.shape = X.shape) : Kept s t := by
  refine ⟨?_, ?_, fun w => ?_⟩
  · have e1 : t.shape.pending = X.shape.pending := congrArg State.pending e
    exact Eq.trans e1 h.pending
  · have e1 : t.shape.nv = X.shape.nv := congrArg State.nv e
    simp only [State.shape, NonVol.mk.injEq] at e1
    obtain ⟨-, -, -, a, b, c, d, f, g⟩ := e1
    exact ⟨fun w => ⟨a.trans (h.fuses.owned w).1, c.trans (h.fuses.owned w).2⟩, b ▸ h.fuses.svn, d.trans h.fuses.serial,
      f.trans h.fuses.secret, g.trans h.fuses.cert⟩
  · rw [← State.wf_shape, e, State.wf_shape]; exact h.wf w

/-- The same for a record update, whichever of the other fields it names. -/
theorem Kept.record {s X : State} (h : Kept s X)
    (fresh : Nat) (limClock : Nat) (time : BitVec 64) (out : Out) (poison : List Nat) (classBits : List Nat)
    (waitWrites : List HeldWrite) (promos : List PromoWait) (gangs : List Gang) (posts : Nat) (nextTag : Nat)
    (txDue : List TxDue) (txSeq : Nat)
    (inject : List BufFlit) (injected : Nat) (linkMap : List (Nat × Nat)) (meridian : Meridian) (boot : Boot)
    (gasp : LastGasp) (power : Power) (freeze : Freeze) (halted : Bool) (pins : Pins) (clocks : Clocks)
    (watch : SMap Watch) (link : PcieLink) (tests : Nat) :
    Kept s
      { X with
        fresh := fresh, limClock := limClock, time := time, out := out, poison := poison, classBits := classBits
        waitWrites := waitWrites, promos := promos, gangs := gangs, posts := posts, nextTag := nextTag, txDue := txDue, txSeq := txSeq
        inject := inject, injected := injected, linkMap := linkMap, meridian := meridian, boot := boot, gasp := gasp
        power := power, freeze := freeze, halted := halted, pins := pins, clocks := clocks, watch := watch, link := link, tests := tests } :=
  h.other rfl

/-- A change that touches neither queue nor fuses and keeps the canonical form. -/
theorem Kept.change {s X t : State} (h : Kept s X) (p : t.pending = X.pending) (n : t.nv = X.nv) (w : X.Wf → t.Wf) : Kept s t :=
  ⟨p.trans h.pending, n ▸ h.fuses, fun k => w (h.wf k)⟩

/-- A record update that names memories or tables too. -/
theorem Kept.tables {s X : State} (h : Kept s X)
    (fresh : Nat) (limClock : Nat) (time : BitVec 64) (out : Out) (host : Mem) (ctr : SMap Word) (mem : Mem)
    (poison : List Nat) (ues : SMap (List Nat)) (classBits : List Nat) (waitWrites : List HeldWrite)
    (promos : List PromoWait) (beats : SMap Nat) (active : SMap Nat) (gangs : List Gang) (seqTab : Mem)
    (posts : Nat) (nextTag : Nat) (txDue : List TxDue) (txSeq : Nat) (inject : List BufFlit) (injected : Nat) (routes : SMap (Option Nat))
    (linkMap : List (Nat × Nat)) (meridian : Meridian) (boot : Boot) (gasp : LastGasp) (power : Power)
    (freeze : Freeze) (halted : Bool) (pins : Pins) (clocks : Clocks) (watch : SMap Watch) (link : PcieLink) (tests : Nat)
    (w_mem : memWf X.mem = true → memWf mem = true) (w_host : memWf X.host = true → memWf host = true)
    (w_seqTab : memWf X.seqTab = true → memWf seqTab = true) (w_ctr : rising X.ctr = true → rising ctr = true)
    (w_beats : rising X.beats = true → rising beats = true)
    (w_active : rising X.active = true → rising active = true)
    (w_routes : rising X.routes = true → rising routes = true) (w_ues : rising X.ues = true → rising ues = true) :
    Kept s
      { X with
        fresh := fresh, limClock := limClock, time := time, out := out, host := host, ctr := ctr, mem := mem
        poison := poison, ues := ues, classBits := classBits, waitWrites := waitWrites, promos := promos
        beats := beats, active := active, gangs := gangs, seqTab := seqTab, posts := posts, nextTag := nextTag, txDue := txDue, txSeq := txSeq
        inject := inject, injected := injected, routes := routes, linkMap := linkMap, meridian := meridian
        boot := boot, gasp := gasp, power := power, freeze := freeze, halted := halted, pins := pins
        clocks := clocks, watch := watch, link := link, tests := tests } :=
  h.change rfl rfl fun w => by simp_all [State.Wf, State.memsWf, State.tablesWf]

/-- For a state that a definition names on its way. -/
theorem Kept.gen {s x : State} {P : Prop} (h : Kept s x) (k : Kept s x → P) : P := k h

/-- The state of a pair that a definition takes apart. -/
theorem Kept.pair {α : Type} {s t : State} {a : α} {x : State × α} (e : x = (t, a)) (h : Kept s x.1) : Kept s t := by
  subst e; exact h

/-- A fold of operations that each keep. -/
theorem Kept.foldl {α : Type} {s : State} (f : State → α → State) (l : List α) {X : State} (h : Kept s X)
    (k : ∀ Y a, Kept s Y → Kept s (f Y a)) : Kept s (l.foldl f X) := by
  induction l generalizing X with
  | nil => exact h
  | cons a t ih => exact ih (k X a h)

theorem Kept.foldr {α : Type} {s : State} (f : α → State → State) (l : List α) {X : State} (h : Kept s X)
    (k : ∀ Y a, Kept s Y → Kept s (f a Y)) : Kept s (l.foldr f X) := by
  induction l with
  | nil => exact h
  | cons a t ih => exact k _ a ih

theorem State.setFacet_kept {s X : State} (h : Kept s X) (f : Nat) (v : Facet) : Kept s (X.setFacet f v) :=
  h.change rfl rfl fun w => by simp_all [State.Wf, State.memsWf, State.tablesWf, State.setFacet, rising_tset]
theorem State.setQueue_kept {s X : State} (h : Kept s X) (q : Nat) (v : Queue) : Kept s (X.setQueue q v) :=
  h.change rfl rfl fun w => by simp_all [State.Wf, State.memsWf, State.tablesWf, State.setQueue, rising_tset]
theorem State.setFn_kept {s X : State} (h : Kept s X) (n : Nat) (v : FnState) : Kept s (X.setFn n v) :=
  h.change rfl rfl fun w => by simp_all [State.Wf, State.memsWf, State.tablesWf, State.setFn, rising_tset]
theorem State.setTce_kept {s X : State} (h : Kept s X) (e : Nat) (v : Tce) : Kept s (X.setTce e v) :=
  h.change rfl rfl fun w => by simp_all [State.Wf, State.memsWf, State.tablesWf, State.setTce, rising_tset]
theorem State.setCodec_kept {s X : State} (h : Kept s X) (c : Nat) (v : Codec) : Kept s (X.setCodec c v) :=
  h.change rfl rfl fun w => by simp_all [State.Wf, State.memsWf, State.tablesWf, State.setCodec, rising_tset]
theorem State.setPort_kept {s X : State} (h : Kept s X) (p : Nat) (v : Port) : Kept s (X.setPort p v) :=
  h.change rfl rfl fun w => by simp_all [State.Wf, State.memsWf, State.tablesWf, State.setPort, rising_tset]
theorem State.setMemCtl_kept {s X : State} (h : Kept s X) (n : Nat) (v : MemCtl) : Kept s (X.setMemCtl n v) :=
  h.change rfl rfl fun w => by simp_all [State.Wf, State.memsWf, State.tablesWf, State.setMemCtl, rising_tset]
theorem State.setArb_kept {s X : State} (h : Kept s X) (a : Nat) (v : Arbiter) : Kept s (X.setArb a v) :=
  h.change rfl rfl fun w => by simp_all [State.Wf, State.memsWf, State.tablesWf, State.setArb, rising_tset]
theorem State.setXing_kept {s X : State} (h : Kept s X) (d : Nat) (v : Crossing) : Kept s (X.setXing d v) :=
  h.change rfl rfl fun w => by simp_all [State.Wf, State.memsWf, State.tablesWf, State.setXing, rising_tset]
theorem State.setGranProc_kept {s X : State} (h : Kept s X) (g : Nat) (v : GranProc) : Kept s (X.setGranProc g v) :=
  h.change rfl rfl fun w => by simp_all [State.Wf, State.memsWf, State.tablesWf, State.setGranProc, rising_tset]
theorem State.setUnit_kept {s X : State} (h : Kept s X) (u : Nat) (v : Lc) : Kept s (X.setUnit u v) :=
  h.change rfl rfl fun w => by simp_all [State.Wf, State.memsWf, State.tablesWf, State.setUnit, rising_tset]
theorem State.setPart_kept {s X : State} (h : Kept s X) (p : Nat) (v : Lc) : Kept s (X.setPart p v) :=
  h.change rfl rfl fun w => by simp_all [State.Wf, State.memsWf, State.tablesWf, State.setPart, rising_tset]
theorem State.setCtx_kept {s X : State} (h : Kept s X) (e p : Nat) (v : Option Ctx) : Kept s (X.setCtx e p v) :=
  h.change rfl rfl fun w => by simp_all [State.Wf, State.memsWf, State.tablesWf, State.setCtx, rising_tset]
theorem State.setOp_kept {s X : State} (h : Kept s X) (t : Nat) (v : Option RemOp) : Kept s (X.setOp t v) :=
  h.change rfl rfl fun w => by simp_all [State.Wf, State.memsWf, State.tablesWf, State.setOp, rising_tset]
theorem State.setDir_kept {s X : State} (h : Kept s X) (tile : Nat) (v : Option DirEntry) : Kept s (X.setDir tile v) :=
  h.change rfl rfl fun w => by simp_all [State.Wf, State.memsWf, State.tablesWf, State.setDir, rising_tset]
theorem State.setCell_kept {s X : State} (h : Kept s X) (r : Reg) (c : RegCell) : Kept s (X.setCell r c) :=
  h.change rfl rfl fun w => by simp_all [State.Wf, State.memsWf, State.tablesWf, State.setCell, rising_tset]
theorem State.setCounter_kept {s X : State} (h : Kept s X) (n : Nat) (v : Word) : Kept s (X.setCounter n v) :=
  h.change rfl rfl fun w => by simp_all [State.Wf, State.memsWf, State.tablesWf, State.setCounter, rising_tset]

end Sys2Proof.Machine
end

