-- ==== Sys2Proof/Laws/KeptOps.lean ====
section
/-! SUPPORT. What the named operations, the home directories, stores, remote operations, records and key/value pages keep: one lemma per operation, chaining from Kept s X to Kept s (operation of X)
(Sys2Proof/Laws/Kept.lean). A state that a definition names on its way is taken up as any state that is kept. -/

namespace Sys2Proof.Machine

theorem State.setVal_kept {s0 X : State} (h : Kept s0 X) (r : Reg) (w : Word) : Kept s0 (State.setVal X r w) := by
  unfold State.setVal
  repeat' first
    | with_reducible assumption
    | with_reducible apply State.setCell_kept

theorem State.put_kept {s0 X : State} (h : Kept s0 X) (r : Reg) (hi lo x : Nat) : Kept s0 (State.put X r hi lo x) := by
  unfold State.put
  repeat' first
    | with_reducible assumption
    | with_reducible apply State.setVal_kept

theorem State.count_kept {s0 X : State} (h : Kept s0 X) (r : Reg) (n : Nat) : Kept s0 (State.count X r n) := by
  unfold State.count
  repeat' first
    | with_reducible assumption
    | split
    | with_reducible apply State.setVal_kept

theorem State.msix_kept {s0 X : State} (h : Kept s0 X) (fn v : Nat) : Kept s0 (State.msix X fn v) := by
  unfold State.msix
  repeat' first
    | with_reducible assumption
    | split
    | with_reducible apply State.setFn_kept
    | with_reducible apply Kept.record

theorem State.sendHeld_kept {s0 X : State} (h : Kept s0 X) (fn : Nat) : Kept s0 (State.sendHeld X fn) := by
  unfold State.sendHeld
  repeat' first
    | (extract_lets +onlyGivenNames lv
       refine Kept.gen (s := s0) (x := lv) ?_ ?_
       rotate_left
       intro hx; clear_value lv; revert lv; intro y hy
       rotate_right
       dsimp -zeta only [lv]; clear lv)
    | (extract_lets +onlyGivenNames lv; clear_value lv; revert lv; intro y)
    | with_reducible assumption
    | split
    | with_reducible apply State.msix_kept
    | with_reducible apply State.setFn_kept
    | with_reducible apply Kept.record
    | with_reducible apply Kept.tables
    | exact fun w => w
    | with_reducible exact memWf_wrCells _ _
    | with_reducible exact memWf_filter _ _
    | with_reducible exact rising_tset _ _ _
    | with_reducible exact rising_filter _

theorem State.setWz_kept {s0 X : State} (h : Kept s0 X) (r : Reg) (b : Nat) (caps : List (Reg × Nat × Nat × Nat)) :
    Kept s0 (State.setWz X r b caps) := by
  unfold State.setWz
  repeat' first
    | (extract_lets +onlyGivenNames lv
       refine Kept.gen (s := s0) (x := lv) ?_ ?_
       rotate_left
       intro hx; clear_value lv; revert lv; intro y hy
       rotate_right
       dsimp -zeta only [lv]; clear lv)
    | (extract_lets +onlyGivenNames lv; clear_value lv; revert lv; intro y)
    | with_reducible assumption
    | split
    | with_reducible apply State.put_kept
    | with_reducible apply State.setCell_kept
    | with_reducible apply State.msix_kept
    | with_reducible refine Kept.foldl _ _ ?_ (fun _ _ _ => ?_)

theorem State.flag_kept {s0 X : State} (h : Kept s0 X) (r : Reg) (b : Nat) (c : Bool) : Kept s0 (State.flag X r b c) := by
  unfold State.flag
  repeat' first
    | with_reducible assumption
    | split
    | with_reducible apply State.setWz_kept

theorem State.repair_kept {s0 X : State} (h : Kept s0 X) (r : Reg) : Kept s0 (State.repair X r) := by
  unfold State.repair
  repeat' first
    | (extract_lets +onlyGivenNames lv
       refine Kept.gen (s := s0) (x := lv) ?_ ?_
       rotate_left
       intro hx; clear_value lv; revert lv; intro y hy
       rotate_right
       dsimp -zeta only [lv]; clear lv)
    | (extract_lets +onlyGivenNames lv; clear_value lv; revert lv; intro y)
    | with_reducible assumption
    | split
    | with_reducible apply State.setVal_kept
    | with_reducible apply State.count_kept
    | with_reducible apply State.setWz_kept

theorem State.useNow_kept {s0 X : State} (h : Kept s0 X) (l : List Reg) : Kept s0 (State.useNow X l) := by
  unfold State.useNow
  repeat' first
    | with_reducible assumption
    | split
    | with_reducible apply State.repair_kept
    | with_reducible refine Kept.foldl _ _ ?_ (fun _ _ _ => ?_)

theorem State.use_kept {s0 X : State} (h : Kept s0 X) (l : List Reg) : Kept s0 (State.use X l) := by
  unfold State.use
  repeat' first
    | with_reducible assumption
    | split
    | with_reducible apply State.useNow_kept

theorem State.usePart_kept {s0 X : State} (h : Kept s0 X) (p : Nat) : Kept s0 (State.usePart X p) := by
  unfold State.usePart
  repeat' first
    | with_reducible assumption
    | with_reducible apply State.use_kept

theorem State.useRank_kept {s0 X : State} (h : Kept s0 X) (p r : Nat) : Kept s0 (State.useRank X p r) := by
  unfold State.useRank
  repeat' first
    | with_reducible assumption
    | split
    | with_reducible apply State.use_kept

theorem State.useRanks_kept {s0 X : State} (h : Kept s0 X) (p : Nat) : Kept s0 (State.useRanks X p) := by
  unfold State.useRanks
  repeat' first
    | with_reducible assumption
    | split
    | with_reducible apply State.use_kept

theorem State.overPost_kept {s0 X : State} (h : Kept s0 X) (n : Nat) : Kept s0 (State.overPost X n) := by
  unfold State.overPost
  repeat' first
    | with_reducible assumption
    | split
    | with_reducible apply State.setQueue_kept
    | with_reducible apply State.setWz_kept
    | with_reducible refine Kept.foldl _ _ ?_ (fun _ _ _ => ?_)

theorem State.notePost_kept {s0 X : State} (h : Kept s0 X) (n : Nat) : Kept s0 (State.notePost X n) := by
  unfold State.notePost
  repeat' first
    | (extract_lets +onlyGivenNames lv
       refine Kept.gen (s := s0) (x := lv) ?_ ?_
       rotate_left
       intro hx; clear_value lv; revert lv; intro y hy
       rotate_right
       dsimp -zeta only [lv]; clear lv)
    | (extract_lets +onlyGivenNames lv; clear_value lv; revert lv; intro y)
    | with_reducible assumption
    | split
    | with_reducible apply State.setQueue_kept
    | with_reducible refine Kept.foldl _ _ ?_ (fun _ _ _ => ?_)
    | with_reducible apply Kept.record

theorem State.signal_kept {s0 X : State} (h : Kept s0 X) (n : Nat) (v : Word) : Kept s0 (State.signal X n v) := by
  unfold State.signal
  repeat' first
    | with_reducible assumption
    | with_reducible apply State.setCounter_kept
    | with_reducible apply State.notePost_kept
    | with_reducible apply State.overPost_kept

theorem State.bump_kept {s0 X : State} (h : Kept s0 X)  : Kept s0 (State.bump X) := by
  unfold State.bump
  repeat' first
    | with_reducible assumption
    | with_reducible apply Kept.record

theorem State.bumpIf_kept {s0 X : State} (h : Kept s0 X) (b : Bool) : Kept s0 (State.bumpIf X b) := by
  unfold State.bumpIf
  repeat' first
    | with_reducible assumption
    | split
    | with_reducible apply State.bump_kept

theorem State.useStacks_kept {s0 X : State} (h : Kept s0 X) (off len : Nat) : Kept s0 (State.useStacks X off len) := by
  unfold State.useStacks
  repeat' first
    | with_reducible assumption
    | split
    | with_reducible apply State.use_kept

theorem State.useAddr_kept {s0 X : State} (h : Kept s0 X) (p : Nat) (a : GAddr) (len : Nat) :
    Kept s0 (State.useAddr X p a len) := by
  unfold State.useAddr
  repeat' first
    | (extract_lets +onlyGivenNames lv
       refine Kept.gen (s := s0) (x := lv) ?_ ?_
       rotate_left
       intro hx; clear_value lv; revert lv; intro y hy
       rotate_right
       dsimp -zeta only [lv]; clear lv)
    | with_reducible assumption
    | split
    | with_reducible apply State.useRank_kept
    | with_reducible apply State.useStacks_kept

theorem State.wrHost_kept {s0 X : State} (h : Kept s0 X) (fn off : Nat) (b : List Byte) : Kept s0 (State.wrHost X fn off b) := by
  unfold State.wrHost
  repeat' first
    | with_reducible assumption
    | split
    | with_reducible apply Kept.tables
    | exact fun w => w
    | with_reducible exact memWf_wrCells _ _

theorem State.setClass_kept {s0 X : State} (h : Kept s0 X) (tile : Nat) (ro : Bool) : Kept s0 (State.setClass X tile ro) := by
  unfold State.setClass
  repeat' first
    | with_reducible assumption
    | split
    | with_reducible apply Kept.record

theorem State.touch_kept {s0 X : State} (h : Kept s0 X) (tile : Nat) : Kept s0 (State.touch X tile) := by
  unfold State.touch
  repeat' first
    | with_reducible assumption
    | split
    | with_reducible apply State.setDir_kept

theorem State.moveDown_kept {s0 X : State} (h : Kept s0 X) (tile : Nat) (e : DirEntry) : Kept s0 (State.moveDown X tile e) := by
  unfold State.moveDown
  repeat' first
    | with_reducible assumption
    | with_reducible apply State.setDir_kept

theorem State.evictTile_kept {s0 X : State} (h : Kept s0 X) (tile : Nat) : Kept s0 (State.evictTile X tile) := by
  unfold State.evictTile
  repeat' first
    | with_reducible assumption
    | split
    | with_reducible apply State.setDir_kept
    | with_reducible apply State.moveDown_kept

theorem State.startPromote_kept {s0 X : State} (h : Kept s0 X) (tile size : Nat) (p3 : Bool) :
    Kept s0 (State.startPromote X tile size p3) := by
  unfold State.startPromote
  repeat' first
    | (extract_lets +onlyGivenNames lv; clear_value lv; revert lv; intro y)
    | with_reducible assumption
    | split
    | with_reducible apply State.setDir_kept

/-- A promotion that looks for units keeps. -/
theorem State.obtain_kept {s0 : State} : ∀ (n : Nat) {X : State}, Kept s0 X → ∀ w, Kept s0 (State.obtain n X w).1
  | 0, _, h, _ => h
  | n + 1, X, h, w => by
    unfold State.obtain
    extract_lets size k hh own
    split
    · exact State.startPromote_kept h _ _ _
    · split
      · split
        · exact h
        · exact State.setWz_kept (State.count_kept h _ _) _ _ _
      · rename_i v _
        extract_lets t
        have ht : Kept s0 t := State.evictTile_kept h v
        clear_value t
        split
        · exact ht
        · exact State.obtain_kept n ht _

theorem State.retryPromo_kept {s0 X : State} (h : Kept s0 X) (w : PromoWait) : Kept s0 (X.retryPromo w).1 := by
  unfold State.retryPromo
  extract_lets m
  split
  · exact h
  · exact State.obtain_kept _ h _

theorem State.promote_kept {s0 X : State} (h : Kept s0 X) (tile : Nat) (p3 : Bool) : Kept s0 (State.promote X tile p3) := by
  unfold State.promote
  split
  · split <;> first | exact h | exact State.setDir_kept h _ _ | exact State.touch_kept h _
  · have hu := State.use_kept h [.partCeil (X.tileOwner tile)]
    extract_lets p y w
    have hy : Kept s0 y := hu
    clear_value y
    split
    · exact hy
    · split
      · exact Kept.record hy ..
      · have ho := State.obtain_kept (y.dir.length + 1) hy w
        split
        · rename_i e; exact Kept.pair e ho
        · rename_i e; exact Kept.record (Kept.pair e ho) ..

theorem State.promoteRange_kept {s0 X : State} (h : Kept s0 X) (off len : Nat) (p3 : Bool) :
    Kept s0 (State.promoteRange X off len p3) := by
  unfold State.promoteRange
  repeat' first
    | (extract_lets +onlyGivenNames lv
       refine Kept.gen (s := s0) (x := lv) ?_ ?_
       rotate_left
       intro hx; clear_value lv; revert lv; intro y hy
       rotate_right
       dsimp -zeta only [lv]; clear lv)
    | with_reducible assumption
    | with_reducible apply State.useStacks_kept
    | with_reducible apply State.promote_kept
    | with_reducible refine Kept.foldl _ _ ?_ (fun _ _ _ => ?_)

theorem State.touchRange_kept {s0 X : State} (h : Kept s0 X) (off len : Nat) : Kept s0 (State.touchRange X off len) := by
  unfold State.touchRange
  repeat' first
    | (extract_lets +onlyGivenNames lv
       refine Kept.gen (s := s0) (x := lv) ?_ ?_
       rotate_left
       intro hx; clear_value lv; revert lv; intro y hy
       rotate_right
       dsimp -zeta only [lv]; clear lv)
    | with_reducible assumption
    | with_reducible apply State.useStacks_kept
    | with_reducible apply State.touch_kept
    | with_reducible refine Kept.foldl _ _ ?_ (fun _ _ _ => ?_)

theorem State.poisonAfter_kept {s0 X : State} (h : Kept s0 X) (cells : List Host.Cell) (bad : Bool) :
    Kept s0 (State.poisonAfter X cells bad) := by
  unfold State.poisonAfter
  repeat' first
    | with_reducible assumption
    | split
    | with_reducible apply Kept.record

theorem State.applyStore_kept {s0 X : State} (h : Kept s0 X) (cells : List Host.Cell) (bad : Bool) :
    Kept s0 (State.applyStore X cells bad) := by
  unfold State.applyStore
  repeat' first
    | with_reducible assumption
    | with_reducible apply State.poisonAfter_kept
    | with_reducible apply Kept.tables
    | exact fun w => w
    | with_reducible exact memWf_wrCells _ _

theorem State.raise_kept {s0 X : State} (h : Kept s0 X) (w : HeldWrite) : Kept s0 (State.raise X w) := by
  unfold State.raise
  split
  · exact h
  · exact State.setDir_kept h _ _

/-- What a write's own application keeps, its way through the directory keeps. -/
theorem State.writeVia_kept {s0 X : State} (h : Kept s0 X) (app : Bool → HeldWrite → State → State) (w : HeldWrite)
    (k : ∀ b v Y, Kept s0 Y → Kept s0 (app b v Y)) : Kept s0 (State.writeVia app X w) := by
  unfold State.writeVia
  split
  · exact k _ _ _ h
  · split
    · exact k _ _ _ (State.setDir_kept h _ _)
    · exact k _ _ _ (State.setDir_kept h _ _)
    · exact State.raise_kept (State.setDir_kept h _ _) _

theorem State.dirVia_kept {s0 X : State} (h : Kept s0 X) (app : Bool → HeldWrite → State → State) (w : HeldWrite)
    (k : ∀ b v Y, Kept s0 Y → Kept s0 (app b v Y)) : Kept s0 (State.dirVia app X w) := by
  unfold State.dirVia
  split
  · exact State.raise_kept (Kept.record h ..) _
  · exact State.writeVia_kept h app w k

theorem applyCells_kept {s0 X : State} (h : Kept s0 X) (near : Bool) (w : HeldWrite) : Kept s0 (applyCells near w X) := by
  unfold applyCells
  split
  · exact State.applyStore_kept h _ _
  · exact State.applyStore_kept h _ _
  · exact h

theorem State.writeElem_kept {s0 X : State} (h : Kept s0 X) (w : HeldWrite) (addr : Nat) (e : Word) :
    Kept s0 (State.writeElem X w addr e) :=
  State.dirVia_kept h _ _ fun b v _ k => applyCells_kept k b v

theorem State.noteOld_kept {s0 X : State} (h : Kept s0 X) (w : HeldWrite) (addr : Nat) (old : List Byte) :
    Kept s0 (State.noteOld X w addr old) := by
  unfold State.noteOld
  split
  · exact h
  · exact Kept.record h ..

theorem State.mem_kept {s0 X : State} (h : Kept s0 X) (m : Mem) (k : memWf X.mem = true → memWf m = true) :
    Kept s0 { X with mem := m } := by
  with_reducible apply Kept.tables
  all_goals first | with_reducible assumption | exact k | exact fun w => w

theorem applyOp_kept {s0 X : State} (h : Kept s0 X) (near : Bool) (w : HeldWrite) : Kept s0 (applyOp near w X) := by
  unfold applyOp
  repeat' first
    | (extract_lets +onlyGivenNames lv
       refine Kept.gen (s := s0) (x := lv) ?_ ?_
       rotate_left
       intro hx; clear_value lv; revert lv; intro y hy
       rotate_right
       dsimp -zeta only [lv]; clear lv)
    | (extract_lets +onlyGivenNames lv; clear_value lv; revert lv; intro y)
    | with_reducible assumption
    | split
    | with_reducible apply State.applyStore_kept
    | with_reducible apply State.noteOld_kept
    | with_reducible apply State.writeElem_kept
    | with_reducible apply State.flag_kept
    | with_reducible apply applyCells_kept
    | with_reducible apply Kept.record
    | with_reducible apply Kept.tables
    | exact fun w => w
    | with_reducible exact memWf_wrCells _ _
    | with_reducible exact memWf_filter _ _
    | with_reducible exact rising_tset _ _ _
    | with_reducible exact rising_filter _

theorem State.writeNow_kept {s0 X : State} (h : Kept s0 X) (w : HeldWrite) : Kept s0 (State.writeNow X w) :=
  State.writeVia_kept h _ _ fun b v _ k => applyOp_kept k b v
theorem State.dirWrite_kept {s0 X : State} (h : Kept s0 X) (w : HeldWrite) : Kept s0 (State.dirWrite X w) :=
  State.dirVia_kept h _ _ fun b v _ k => applyOp_kept k b v

theorem State.storeCells_kept {s0 X : State} (h : Kept s0 X) (src p : Nat) (cells : List Host.Cell) (bad : Bool)
    (tx : Option Nat) : Kept s0 (State.storeCells X src p cells bad tx) := by
  unfold State.storeCells
  repeat' first
    | (extract_lets +onlyGivenNames lv
       refine Kept.gen (s := s0) (x := lv) ?_ ?_
       rotate_left
       intro hx; clear_value lv; revert lv; intro y hy
       rotate_right
       dsimp -zeta only [lv]; clear lv)
    | with_reducible assumption
    | split
    | with_reducible apply State.use_kept
    | with_reducible apply State.poisonAfter_kept
    | with_reducible apply State.dirWrite_kept
    | with_reducible refine Kept.foldl _ _ ?_ (fun _ _ _ => ?_)
    | with_reducible apply Kept.tables
    | exact fun w => w
    | with_reducible exact memWf_wrCells _ _

theorem State.waitCells_kept {s0 X : State} (h : Kept s0 X) (src p : Nat) (cells : List Host.Cell) (bad : Bool) :
    Kept s0 (State.waitCells X src p cells bad) := by
  unfold State.waitCells
  repeat' first
    | with_reducible assumption
    | split
    | with_reducible apply Kept.record
    | with_reducible apply Kept.tables
    | exact fun w => w
    | with_reducible exact memWf_wrCells _ _
    | with_reducible exact memWf_filter _ _
    | with_reducible exact rising_tset _ _ _
    | with_reducible exact rising_filter _

theorem State.storeBytes_kept {s0 X : State} (h : Kept s0 X) (src p space off : Nat) (b : List Byte) (bad : Bool)
    (tx : Option Nat) : Kept s0 (State.storeBytes X src p space off b bad tx) := by
  unfold State.storeBytes
  repeat' first
    | with_reducible assumption
    | split
    | with_reducible apply State.wrHost_kept
    | with_reducible apply State.storeCells_kept

theorem State.storeAtomic_kept {s0 X : State} (h : Kept s0 X) (src p code addr slot x : Nat) (tx : Option Nat) (bad : Bool) :
    Kept s0 (State.storeAtomic X src p code addr slot x tx bad) := by
  unfold State.storeAtomic
  repeat' first
    | (extract_lets +onlyGivenNames lv
       refine Kept.gen (s := s0) (x := lv) ?_ ?_
       rotate_left
       intro hx; clear_value lv; revert lv; intro y hy
       rotate_right
       dsimp -zeta only [lv]; clear lv)
    | (extract_lets +onlyGivenNames lv; clear_value lv; revert lv; intro y)
    | with_reducible assumption
    | split
    | with_reducible apply State.useStacks_kept
    | with_reducible apply State.dirWrite_kept

theorem State.applyHeld_kept {s0 X : State} (h : Kept s0 X) (near : Bool) (l : List HeldWrite) :
    Kept s0 (State.applyHeld X near l) := by
  unfold State.applyHeld
  repeat' first
    | with_reducible assumption
    | with_reducible apply applyOp_kept
    | with_reducible refine Kept.foldl _ _ ?_ (fun _ _ _ => ?_)

theorem State.settle_kept {s0 X : State} (h : Kept s0 X) (tile : Nat) : Kept s0 (State.settle X tile) := by
  unfold State.settle
  repeat' first
    | with_reducible assumption
    | split
    | with_reducible apply State.evictTile_kept

theorem State.sealTile_kept {s0 X : State} (h : Kept s0 X) (tile : Nat) : Kept s0 (State.sealTile X tile) := by
  unfold State.sealTile
  repeat' first
    | (extract_lets +onlyGivenNames lv
       refine Kept.gen (s := s0) (x := lv) ?_ ?_
       rotate_left
       intro hx; clear_value lv; revert lv; intro y hy
       rotate_right
       dsimp -zeta only [lv]; clear lv)
    | with_reducible assumption
    | split
    | with_reducible apply State.setClass_kept
    | with_reducible apply State.setDir_kept

theorem State.unsealTile_kept {s0 X : State} (h : Kept s0 X) (tile : Nat) : Kept s0 (State.unsealTile X tile) := by
  unfold State.unsealTile
  repeat' first
    | (extract_lets +onlyGivenNames lv
       refine Kept.gen (s := s0) (x := lv) ?_ ?_
       rotate_left
       intro hx; clear_value lv; revert lv; intro y hy
       rotate_right
       dsimp -zeta only [lv]; clear lv)
    | with_reducible assumption
    | split
    | with_reducible apply State.setClass_kept
    | with_reducible apply State.setDir_kept

theorem State.landTile_kept {s0 X : State} (h : Kept s0 X) (tile : Nat) : Kept s0 (State.landTile X tile) := by
  unfold State.landTile
  repeat' first
    | (extract_lets +onlyGivenNames lv
       refine Kept.gen (s := s0) (x := lv) ?_ ?_
       rotate_left
       intro hx; clear_value lv; revert lv; intro y hy
       rotate_right
       dsimp -zeta only [lv]; clear lv)
    | (extract_lets +onlyGivenNames lv; clear_value lv; revert lv; intro y)
    | with_reducible assumption
    | split
    | with_reducible apply State.setClass_kept
    | with_reducible apply State.setDir_kept
    | with_reducible apply State.applyHeld_kept
    | with_reducible apply State.settle_kept
    | with_reducible apply State.sealTile_kept
    | with_reducible apply State.promote_kept

theorem State.storeScr_kept {s0 X : State} (h : Kept s0 X) (src p space : Nat) (x : Scr) (bad : Bool) :
    Kept s0 (State.storeScr X src p space x bad) := by
  unfold State.storeScr
  repeat' first
    | with_reducible assumption
    | split
    | with_reducible apply State.storeCells_kept
    | with_reducible apply Kept.tables
    | exact fun w => w
    | with_reducible exact memWf_wrCells _ _

theorem State.logQuant_kept {s0 X : State} (h : Kept s0 X) (f : Nat) (q : QStat) : Kept s0 (State.logQuant X f q) := by
  unfold State.logQuant
  repeat' first
    | (extract_lets +onlyGivenNames lv
       refine Kept.gen (s := s0) (x := lv) ?_ ?_
       rotate_left
       intro hx; clear_value lv; revert lv; intro y hy
       rotate_right
       dsimp -zeta only [lv]; clear lv)
    | with_reducible assumption
    | with_reducible apply State.count_kept
    | with_reducible apply State.flag_kept

theorem State.applyAtomic_kept {s0 X : State} (h : Kept s0 X) (src q code space off len slot : Nat) (data : List Byte) (scalar : Bool) (arg : BitVec 64) (tx : Option Nat) (bad : Bool) :
    Kept s0 (State.applyAtomic X src q code space off len slot data scalar arg tx bad) := by
  unfold State.applyAtomic
  repeat' first
    | with_reducible assumption
    | split
    | with_reducible apply State.signal_kept
    | with_reducible apply State.storeAtomic_kept
    | with_reducible refine Kept.foldl _ _ ?_ (fun _ _ _ => ?_)

theorem State.logFault_kept {s0 X : State} (h : Kept s0 X) (f code q index : Nat) (cap key : Nat × Nat) :
    Kept s0 (State.logFault X f code q index cap key) := by
  unfold State.logFault
  repeat' first
    | with_reducible assumption
    | with_reducible apply State.setWz_kept
    | with_reducible apply State.flag_kept

theorem State.mapGang_kept {s0 X : State} (h : Kept s0 X) (q : Nat) (w : Word) (h : Gang → Gang) :
    Kept s0 (State.mapGang X q w h) := by
  unfold State.mapGang
  repeat' first
    | with_reducible assumption
    | with_reducible apply Kept.record

theorem State.stopMember_kept {s0 X : State} (h : Kept s0 X) (f : Nat) (code index : Nat) (detail : Word) (cap key : Nat × Nat) :
    Kept s0 (State.stopMember X f code index detail cap key) := by
  unfold State.stopMember
  repeat' first
    | (extract_lets +onlyGivenNames lv
       refine Kept.gen (s := s0) (x := lv) ?_ ?_
       rotate_left
       intro hx; clear_value lv; revert lv; intro y hy
       rotate_right
       dsimp -zeta only [lv]; clear lv)
    | (extract_lets +onlyGivenNames lv; clear_value lv; revert lv; intro y)
    | with_reducible assumption
    | split
    | with_reducible apply State.logFault_kept
    | with_reducible apply State.setFacet_kept
    | with_reducible apply State.mapGang_kept

theorem State.mapRun_kept {s0 X : State} (h : Kept s0 X) (f : Nat) (g : Run → Run) : Kept s0 (State.mapRun X f g) := by
  unfold State.mapRun
  repeat' first
    | (extract_lets +onlyGivenNames lv
       refine Kept.gen (s := s0) (x := lv) ?_ ?_
       rotate_left
       intro hx; clear_value lv; revert lv; intro y hy
       rotate_right
       dsimp -zeta only [lv]; clear lv)
    | (extract_lets +onlyGivenNames lv; clear_value lv; revert lv; intro y)
    | with_reducible assumption
    | split
    | with_reducible apply State.setFacet_kept

theorem State.mapFlight_kept {s0 X : State} (h : Kept s0 X) (f : Nat) (u : FUnit) (g : InFlight → InFlight) :
    Kept s0 (State.mapFlight X f u g) := by
  unfold State.mapFlight
  repeat' first
    | (extract_lets +onlyGivenNames lv; clear_value lv; revert lv; intro y)
    | with_reducible assumption
    | split
    | with_reducible apply State.setFacet_kept
    | with_reducible apply State.mapRun_kept

theorem State.mapCtx_kept {s0 X : State} (h : Kept s0 X) (e p : Nat) (g : Ctx → Ctx) : Kept s0 (State.mapCtx X e p g) := by
  unfold State.mapCtx
  repeat' first
    | with_reducible assumption
    | split
    | with_reducible apply State.setCtx_kept

theorem State.refuse_kept {s0 X : State} (h : Kept s0 X) (o : OpOwner) (code : Nat) : Kept s0 (State.refuse X o code) := by
  unfold State.refuse
  repeat' first
    | with_reducible assumption
    | split
    | with_reducible apply State.mapFlight_kept
    | with_reducible apply State.mapCtx_kept
    | with_reducible apply State.stopMember_kept
    | with_reducible apply State.mapRun_kept

theorem State.refuseAt_kept {s0 X : State} (h : Kept s0 X) (o : OpOwner) (code : Nat) : Kept s0 (State.refuseAt X o code) := by
  unfold State.refuseAt
  repeat' first
    | with_reducible assumption
    | split
    | with_reducible apply State.refuse_kept
    | with_reducible apply State.flag_kept

theorem State.useTarget_kept {s0 X : State} (h : Kept s0 X) (q space off len : Nat) :
    Kept s0 (State.useTarget X q space off len) := by
  unfold State.useTarget
  repeat' first
    | (extract_lets +onlyGivenNames lv
       refine Kept.gen (s := s0) (x := lv) ?_ ?_
       rotate_left
       intro hx; clear_value lv; revert lv; intro y hy
       rotate_right
       dsimp -zeta only [lv]; clear lv)
    | with_reducible assumption
    | split
    | with_reducible apply State.usePart_kept
    | with_reducible apply State.useStacks_kept

theorem State.bringNear_kept {s0 X : State} (h : Kept s0 X) (space off len : Nat) (slots : Option Nat) (read p3 : Bool) :
    Kept s0 (State.bringNear X space off len slots read p3) := by
  unfold State.bringNear
  repeat' first
    | (extract_lets +onlyGivenNames lv
       refine Kept.gen (s := s0) (x := lv) ?_ ?_
       rotate_left
       intro hx; clear_value lv; revert lv; intro y hy
       rotate_right
       dsimp -zeta only [lv]; clear lv)
    | (extract_lets +onlyGivenNames lv; clear_value lv; revert lv; intro y)
    | with_reducible assumption
    | split
    | with_reducible apply State.promoteRange_kept
    | with_reducible apply State.touchRange_kept
    | with_reducible apply Kept.record
    | with_reducible apply Kept.tables
    | exact fun w => w
    | with_reducible exact memWf_wrCells _ _
    | with_reducible exact memWf_filter _ _
    | with_reducible exact rising_tset _ _ _
    | with_reducible exact rising_filter _

theorem State.landAt_kept {s0 X : State} (h : Kept s0 X) (o : OpOwner) (p : Nat) (j : RemJob) (data : List Byte) (bad : Bool) :
    Kept s0 (State.landAt X o p j data bad) := by
  unfold State.landAt
  repeat' first
    | (extract_lets +onlyGivenNames lv
       refine Kept.gen (s := s0) (x := lv) ?_ ?_
       rotate_left
       intro hx; clear_value lv; revert lv; intro y hy
       rotate_right
       dsimp -zeta only [lv]; clear lv)
    | (extract_lets +onlyGivenNames lv; clear_value lv; revert lv; intro y)
    | with_reducible assumption
    | split
    | with_reducible apply State.wrHost_kept
    | with_reducible apply State.waitCells_kept
    | with_reducible apply State.storeCells_kept
    | with_reducible apply State.refuseAt_kept
    | with_reducible apply Kept.record
    | with_reducible apply Kept.tables
    | exact fun w => w
    | with_reducible exact memWf_wrCells _ _
    | with_reducible exact memWf_filter _ _
    | with_reducible exact rising_tset _ _ _
    | with_reducible exact rising_filter _

theorem State.land_kept {s0 X : State} (h : Kept s0 X) (o : OpOwner) (p : Nat) (j : RemJob) (data : List Byte) (bad : Bool) :
    Kept s0 (State.land X o p j data bad) := by
  unfold State.land
  split
  · exact State.mapRun_kept h _ _
  · exact State.landAt_kept h _ _ _ _ _

theorem State.answer_kept {s0 X : State} (h : Kept s0 X) (x : TxHeader) (k : TxKind) (code : Nat) (data : List Byte) : Kept s0 (State.answer X x k code data) := by
  unfold State.answer
  repeat' first
    | (extract_lets +onlyGivenNames lv
       refine Kept.gen (s := s0) (x := lv) ?_ ?_
       rotate_left
       intro hx; clear_value lv; revert lv; intro y hy
       rotate_right
       dsimp -zeta only [lv]; clear lv)
    | (extract_lets +onlyGivenNames lv; clear_value lv; revert lv; intro y)
    | with_reducible assumption
    | split
    | with_reducible apply Kept.record

theorem State.interrupt_kept {s0 X : State} (h : Kept s0 X) (q : Nat) : Kept s0 (State.interrupt X q) := by
  unfold State.interrupt
  repeat' first
    | (extract_lets +onlyGivenNames lv; clear_value lv; revert lv; intro y)
    | with_reducible assumption
    | split
    | with_reducible apply State.setQueue_kept
    | with_reducible apply State.msix_kept

theorem State.txBack_kept {s0 X : State} (h : Kept s0 X) (d : TxDue) : Kept s0 (State.txBack X d) := by
  unfold State.txBack
  split
  · exact State.answer_kept h _ _ _ _
  · exact State.answer_kept h _ _ _ _
  · exact State.interrupt_kept h _
  · exact State.signal_kept (State.interrupt_kept h _) _ _
  · split
    · exact State.land_kept h _ _ _ _ _
    · exact h

theorem State.settleTx_kept {s0 X : State} (h : Kept s0 X)  : Kept s0 (State.settleTx X) := by
  unfold State.settleTx
  repeat' first
    | (extract_lets +onlyGivenNames lv
       refine Kept.gen (s := s0) (x := lv) ?_ ?_
       rotate_left
       intro hx; clear_value lv; revert lv; intro y hy
       rotate_right
       dsimp -zeta only [lv]; clear lv)
    | (extract_lets +onlyGivenNames lv; clear_value lv; revert lv; intro y)
    | with_reducible assumption
    | split
    | with_reducible apply State.txBack_kept
    | with_reducible refine Kept.foldl _ _ ?_ (fun _ _ _ => ?_)
    | with_reducible apply Kept.record

theorem State.openTx_kept {s0 X : State} (h : Kept s0 X) (b : TxBack) : Kept s0 (State.openTx X b) := by
  unfold State.openTx
  repeat' first
    | (extract_lets +onlyGivenNames lv
       refine Kept.gen (s := s0) (x := lv) ?_ ?_
       rotate_left
       intro hx; clear_value lv; revert lv; intro y hy
       rotate_right
       dsimp -zeta only [lv]; clear lv)
    | (extract_lets +onlyGivenNames lv; clear_value lv; revert lv; intro y)
    | with_reducible assumption
    | split
    | with_reducible apply Kept.record

theorem State.doAtomic_kept {s0 X : State} (h : Kept s0 X) (src q code space off len slot : Nat) (data : List Byte) (scalar : Bool) (arg : BitVec 64) (b : TxBack) (bad : Bool) :
    Kept s0 (State.doAtomic X src q code space off len slot data scalar arg b bad) := by
  unfold State.doAtomic
  repeat' first
    | (extract_lets +onlyGivenNames lv
       refine Kept.gen (s := s0) (x := lv) ?_ ?_
       rotate_left
       intro hx; clear_value lv; revert lv; intro y hy
       rotate_right
       dsimp -zeta only [lv]; clear lv)
    | (extract_lets +onlyGivenNames lv; clear_value lv; revert lv; intro y)
    | with_reducible assumption
    | split
    | with_reducible apply State.openTx_kept
    | with_reducible apply State.applyAtomic_kept
    | with_reducible apply State.settleTx_kept
    | with_reducible apply Kept.record
    | with_reducible apply Kept.tables
    | exact fun w => w
    | with_reducible exact memWf_wrCells _ _
    | with_reducible exact memWf_filter _ _
    | with_reducible exact rising_tset _ _ _
    | with_reducible exact rising_filter _

theorem State.localOp_kept {s0 X : State} (h : Kept s0 X) (o : OpOwner) (p q : Nat) (j : RemJob) :
    Kept s0 (State.localOp X o p q j) := by
  unfold State.localOp
  extract_lets len s1
  have h1 : Kept s0 s1 := State.useTarget_kept h _ _ _ _
  clear_value s1
  split
  · rename_i src s2 _ _
    have h2 : Kept s0 s2 := State.bringNear_kept h1 _ _ _ _ _ _
    clear_value s2
    split
    · exact State.settleTx_kept (State.storeBytes_kept (State.openTx_kept h2 _) _ _ _ _ _ _ _)
    · split
      · exact State.refuseAt_kept h2 _ _
      · exact State.land_kept h2 _ _ _ _ _
    · exact State.doAtomic_kept h2 _ _ _ _ _ _ _ _ _ _ _ _
    · exact State.signal_kept h2 _ _
  · exact State.refuseAt_kept h1 _ _

theorem State.issueOp_kept {s0 X : State} (h : Kept s0 X) (o : OpOwner) (p : Nat) (j : RemJob) :
    Kept s0 (State.issueOp X o p j) := by
  unfold State.issueOp
  repeat' first
    | (extract_lets +onlyGivenNames lv
       refine Kept.gen (s := s0) (x := lv) ?_ ?_
       rotate_left
       intro hx; clear_value lv; revert lv; intro y hy
       rotate_right
       dsimp -zeta only [lv]; clear lv)
    | (extract_lets +onlyGivenNames lv; clear_value lv; revert lv; intro y)
    | with_reducible assumption
    | split
    | with_reducible apply State.useRank_kept
    | with_reducible apply State.refuse_kept
    | with_reducible apply State.localOp_kept
    | with_reducible apply State.setOp_kept
    | with_reducible apply Kept.record

theorem State.pumpOps_kept {s0 : State} : ∀ (n : Nat) {X : State}, Kept s0 X → ∀ f u p, Kept s0 (State.pumpOps n X f u p)
  | 0, _, h, _, _, _ => h
  | n + 1, X, h, f, u, p => by
    unfold State.pumpOps
    split
    · exact h
    · split
      · exact h
      · split
        · exact h
        · exact State.pumpOps_kept n (State.issueOp_kept (State.mapFlight_kept h _ _ _) _ _ _) f u p

theorem State.pumpUnit_kept {s0 X : State} (h : Kept s0 X) (f : Nat) (u : FUnit) : Kept s0 (State.pumpUnit X f u) := by
  unfold State.pumpUnit
  repeat' first
    | (extract_lets +onlyGivenNames lv
       refine Kept.gen (s := s0) (x := lv) ?_ ?_
       rotate_left
       intro hx; clear_value lv; revert lv; intro y hy
       rotate_right
       dsimp -zeta only [lv]; clear lv)
    | (extract_lets +onlyGivenNames lv; clear_value lv; revert lv; intro y)
    | with_reducible assumption
    | split
    | exact State.pumpOps_kept _ h _ _ _

theorem State.pumpFacet_kept {s0 X : State} (h : Kept s0 X) (f : Nat) : Kept s0 (State.pumpFacet X f) := by
  unfold State.pumpFacet
  repeat' first
    | (extract_lets +onlyGivenNames lv
       refine Kept.gen (s := s0) (x := lv) ?_ ?_
       rotate_left
       intro hx; clear_value lv; revert lv; intro y hy
       rotate_right
       dsimp -zeta only [lv]; clear lv)
    | (extract_lets +onlyGivenNames lv; clear_value lv; revert lv; intro y)
    | with_reducible assumption
    | split
    | with_reducible apply State.pumpUnit_kept
    | with_reducible refine Kept.foldl _ _ ?_ (fun _ _ _ => ?_)

theorem State.pumpAll_kept {s0 X : State} (h : Kept s0 X)  : Kept s0 (State.pumpAll X) := by
  unfold State.pumpAll
  repeat' first
    | (extract_lets +onlyGivenNames lv
       refine Kept.gen (s := s0) (x := lv) ?_ ?_
       rotate_left
       intro hx; clear_value lv; revert lv; intro y hy
       rotate_right
       dsimp -zeta only [lv]; clear lv)
    | (extract_lets +onlyGivenNames lv; clear_value lv; revert lv; intro y)
    | with_reducible assumption
    | split
    | with_reducible apply State.pumpFacet_kept
    | with_reducible refine Kept.foldl _ _ ?_ (fun _ _ _ => ?_)

theorem State.settled_kept {s0 X : State} (h : Kept s0 X)  : Kept s0 (State.settled X) := by
  unfold State.settled
  repeat' first
    | (extract_lets +onlyGivenNames lv
       refine Kept.gen (s := s0) (x := lv) ?_ ?_
       rotate_left
       intro hx; clear_value lv; revert lv; intro y hy
       rotate_right
       dsimp -zeta only [lv]; clear lv)
    | (extract_lets +onlyGivenNames lv; clear_value lv; revert lv; intro y)
    | with_reducible assumption
    | split
    | with_reducible apply State.pumpAll_kept
    | with_reducible apply State.settleTx_kept

theorem State.writeRecord_kept {s0 X : State} (h : Kept s0 X) (q : Nat) (r : Rec) : Kept s0 (State.writeRecord X q r) := by
  unfold State.writeRecord
  repeat' first
    | (extract_lets +onlyGivenNames lv
       refine Kept.gen (s := s0) (x := lv) ?_ ?_
       rotate_left
       intro hx; clear_value lv; revert lv; intro y hy
       rotate_right
       dsimp -zeta only [lv]; clear lv)
    | (extract_lets +onlyGivenNames lv; clear_value lv; revert lv; intro y)
    | with_reducible assumption
    | split
    | with_reducible apply State.useAddr_kept
    | with_reducible apply State.openTx_kept
    | with_reducible apply State.storeBytes_kept
    | with_reducible apply State.setVal_kept
    | with_reducible apply State.settleTx_kept

theorem State.postRecord_kept {s0 X : State} (h : Kept s0 X) (q : Nat) (r : Rec) : Kept s0 (X.postRecord q r).1 := by
  unfold State.postRecord
  split
  · exact h
  · split
    · exact State.writeRecord_kept h q r
    · exact State.flag_kept (State.setQueue_kept h _ _) _ _ _

theorem State.stopQuiet_kept {s0 X : State} (h : Kept s0 X) (f : Nat) (code index : Nat) :
    Kept s0 (State.stopQuiet X f code index) := by
  unfold State.stopQuiet
  repeat' first
    | (extract_lets +onlyGivenNames lv; clear_value lv; revert lv; intro y)
    | with_reducible assumption
    | split
    | with_reducible apply State.setFacet_kept

theorem State.raiseLength_kept {s0 X : State} (h : Kept s0 X) (seq n : Nat) : Kept s0 (State.raiseLength X seq n) := by
  unfold State.raiseLength
  repeat' first
    | with_reducible assumption
    | split
    | with_reducible apply Kept.tables
    | exact fun w => w
    | with_reducible exact memWf_wrCells _ _

theorem State.putPte_kept {s0 X : State} (h : Kept s0 X) (src p off : Nat) (x : Nat) : Kept s0 (State.putPte X src p off x) := by
  unfold State.putPte
  repeat' first
    | with_reducible assumption
    | with_reducible apply State.storeBytes_kept

theorem State.openPage_kept {s0 X : State} (h : Kept s0 X) (src p off : Nat) : Kept s0 (State.openPage X src p off) := by
  unfold State.openPage
  repeat' first
    | (extract_lets +onlyGivenNames lv; clear_value lv; revert lv; intro y)
    | with_reducible assumption
    | split
    | with_reducible apply State.putPte_kept
    | with_reducible apply State.unsealTile_kept

theorem State.fillPage_kept {s0 X : State} (h : Kept s0 X) (src p : Nat) (k : KvPost) : Kept s0 (State.fillPage X src p k) := by
  unfold State.fillPage
  repeat' first
    | (extract_lets +onlyGivenNames lv
       refine Kept.gen (s := s0) (x := lv) ?_ ?_
       rotate_left
       intro hx; clear_value lv; revert lv; intro y hy
       rotate_right
       dsimp -zeta only [lv]; clear lv)
    | (extract_lets +onlyGivenNames lv; clear_value lv; revert lv; intro y)
    | with_reducible assumption
    | split
    | with_reducible apply State.putPte_kept
    | with_reducible apply State.sealTile_kept
    | with_reducible apply State.unsealTile_kept

theorem State.takePage_kept {s0 X t : State} (h : Kept s0 X) {src p : Nat} {e : SeqEntry} {j h' : Nat}
    (k : X.takePage src p e j h' = .ok t) : Kept s0 t := by
  unfold State.takePage at k
  revert k
  extract_lets hd a off s1 s2 s3
  split
  · split
    · intro k
      have h3 : Kept s0 s3 := State.putPte_kept (State.unsealTile_kept (State.storeBytes_kept h _ _ _ _ _ _ _) _) _ _ _ _
      clear_value s3
      injection k with k
      subst k
      split
      · exact State.signal_kept h3 _ _
      · exact h3
    · intro k; exact absurd k (by simp)
  · intro k; exact absurd k (by simp)

end Sys2Proof.Machine
end

