-- ==== Sys2Proof/Laws/KeptFacets.lean ====
section
/-! SUPPORT. What the facets' sequencers and units and the chord engines keep: one lemma per operation, chaining from Kept s X to Kept s (operation of X)
(Sys2Proof/Laws/Kept.lean). A state that a definition names on its way is taken up as any state that is kept. -/

namespace Sys2Proof.Machine

theorem State.cross_kept {s0 X : State} (h : Kept s0 X) (n : Nat) (w : ArbWait) : Kept s0 (State.cross X n w) := by
  unfold State.cross
  repeat' first
    | with_reducible assumption
    | split
    | with_reducible apply State.setXing_kept
    | with_reducible apply Kept.record
    | with_reducible apply Kept.tables
    | exact fun w => w
    | with_reducible exact memWf_wrCells _ _
    | with_reducible exact memWf_filter _ _
    | with_reducible exact rising_tset _ _ _
    | with_reducible exact rising_filter _

theorem State.flitOut_kept {s0 X : State} (h : Kept s0 X) (p : Nat) : Kept s0 (State.flitOut X p) := by
  unfold State.flitOut
  repeat' first
    | with_reducible assumption
    | split
    | with_reducible apply State.setXing_kept
    | with_reducible apply Kept.record
    | with_reducible apply Kept.tables
    | exact fun w => w
    | with_reducible exact memWf_wrCells _ _
    | with_reducible exact memWf_filter _ _
    | with_reducible exact rising_tset _ _ _
    | with_reducible exact rising_filter _

theorem State.flitIn_kept {s0 X : State} (h : Kept s0 X) (p : Nat) : Kept s0 (State.flitIn X p) := by
  unfold State.flitIn
  repeat' first
    | with_reducible assumption
    | split
    | with_reducible apply State.setXing_kept
    | with_reducible apply Kept.record
    | with_reducible apply Kept.tables
    | exact fun w => w
    | with_reducible exact memWf_wrCells _ _
    | with_reducible exact memWf_filter _ _
    | with_reducible exact rising_tset _ _ _
    | with_reducible exact rising_filter _

theorem State.endMember_kept {s0 X : State} (h : Kept s0 X) (q : Nat) (w : Word) : Kept s0 (State.endMember X q w) := by
  unfold State.endMember
  repeat' first
    | (extract_lets +onlyGivenNames lv
       refine Kept.gen (s := s0) (x := lv) ?_ ?_
       rotate_left
       intro hx; clear_value lv; revert lv; intro y hy
       rotate_right
       dsimp -zeta only [lv]; clear lv)
    | with_reducible assumption
    | with_reducible apply State.mapGang_kept
    | with_reducible apply Kept.record

theorem State.fetchTable_kept {s0 X : State} (h : Kept s0 X) (f : Nat) : Kept s0 (State.fetchTable X f) := by
  unfold State.fetchTable
  repeat' first
    | (extract_lets +onlyGivenNames lv
       refine Kept.gen (s := s0) (x := lv) ?_ ?_
       rotate_left
       intro hx; clear_value lv; revert lv; intro y hy
       rotate_right
       dsimp -zeta only [lv]; clear lv)
    | (extract_lets +onlyGivenNames lv; clear_value lv; revert lv; intro y)
    | with_reducible assumption
    | split
    | with_reducible apply State.issueOp_kept

theorem State.fetchCode_kept {s0 X : State} (h : Kept s0 X) (f : Nat) : Kept s0 (State.fetchCode X f) := by
  unfold State.fetchCode
  repeat' first
    | (extract_lets +onlyGivenNames lv
       refine Kept.gen (s := s0) (x := lv) ?_ ?_
       rotate_left
       intro hx; clear_value lv; revert lv; intro y hy
       rotate_right
       dsimp -zeta only [lv]; clear lv)
    | (extract_lets +onlyGivenNames lv; clear_value lv; revert lv; intro y)
    | with_reducible assumption
    | split
    | with_reducible apply State.issueOp_kept
    | with_reducible apply State.mapRun_kept

theorem State.fetchAhead_kept {s0 X : State} (h : Kept s0 X) (f : Nat) : Kept s0 (State.fetchAhead X f) :=
  State.fetchCode_kept (State.fetchCode_kept (State.fetchTable_kept h f) f) f

theorem State.beginRun_kept {s0 X : State} (h : Kept s0 X) (f : Nat) (c : Claimed) : Kept s0 (State.beginRun X f c) :=
  State.fetchAhead_kept (State.setFacet_kept h _ _) f

theorem State.startNext_kept {s0 X : State} (h : Kept s0 X) (f : Nat) : Kept s0 (State.startNext X f) := by
  unfold State.startNext
  repeat' first
    | (extract_lets +onlyGivenNames lv; clear_value lv; revert lv; intro y)
    | with_reducible assumption
    | split
    | with_reducible apply State.setFacet_kept
    | with_reducible apply State.beginRun_kept
    | with_reducible apply State.fetchAhead_kept

theorem State.refuseClaim_kept {s0 X : State} (h : Kept s0 X) (f : Nat) (c : Claimed) (code : Nat) :
    Kept s0 (State.refuseClaim X f c code) := by
  unfold State.refuseClaim
  repeat' first
    | (extract_lets +onlyGivenNames lv
       refine Kept.gen (s := s0) (x := lv) ?_ ?_
       rotate_left
       intro hx; clear_value lv; revert lv; intro y hy
       rotate_right
       dsimp -zeta only [lv]; clear lv)
    | with_reducible assumption
    | with_reducible apply State.logFault_kept
    | with_reducible apply State.postRecord_kept
    | with_reducible apply State.endMember_kept

theorem State.takePlace_kept {s0 X : State} (h : Kept s0 X) (f p q : Nat) (c : Claimed) :
    Kept s0 (State.takePlace X f p q c) := by
  unfold State.takePlace
  repeat' first
    | (extract_lets +onlyGivenNames lv
       refine Kept.gen (s := s0) (x := lv) ?_ ?_
       rotate_left
       intro hx; clear_value lv; revert lv; intro y hy
       rotate_right
       dsimp -zeta only [lv]; clear lv)
    | (extract_lets +onlyGivenNames lv; clear_value lv; revert lv; intro y)
    | with_reducible assumption
    | split
    | with_reducible apply State.setFacet_kept
    | with_reducible apply State.useAddr_kept
    | with_reducible apply State.refuseClaim_kept
    | with_reducible apply State.beginRun_kept
    | with_reducible apply State.fetchAhead_kept

theorem State.claimFrom_kept {s0 X : State} (h : Kept s0 X) (f p q : Nat) : Kept s0 (State.claimFrom X f p q) := by
  unfold State.claimFrom
  repeat' first
    | (extract_lets +onlyGivenNames lv
       refine Kept.gen (s := s0) (x := lv) ?_ ?_
       rotate_left
       intro hx; clear_value lv; revert lv; intro y hy
       rotate_right
       dsimp -zeta only [lv]; clear lv)
    | (extract_lets +onlyGivenNames lv; clear_value lv; revert lv; intro y)
    | with_reducible assumption
    | split
    | with_reducible apply State.mapGang_kept
    | with_reducible apply State.takePlace_kept
    | with_reducible apply State.useAddr_kept
    | with_reducible apply State.setVal_kept
    | with_reducible apply State.setFacet_kept
    | with_reducible apply State.refuseClaim_kept
    | with_reducible apply Kept.record
    | with_reducible apply State.beginRun_kept
    | with_reducible apply State.fetchAhead_kept

theorem State.issue_kept {s0 X : State} (h : Kept s0 X) (i : Iss) (pl : Plan) (he : ∀ Y, Kept s0 Y → Kept s0 (pl.eff Y)) :
    Kept s0 (State.issue X i pl) := by
  unfold State.issue
  extract_lets fl rs r fs s1 s2 s3
  have h1 : Kept s0 s1 := State.setFacet_kept h _ _
  have h2 : Kept s0 s2 := Kept.foldl _ _ h1 fun _ _ k => State.promoteRange_kept k _ _ _
  have h3 : Kept s0 s3 := Kept.foldl _ _ h2 fun _ _ k => by
    show Kept s0 (if _ then _ else _)
    split
    · exact k
    · exact Kept.foldl _ _ k fun _ _ k => State.touchRange_kept k _ _
  exact State.pumpUnit_kept (he _ h3) _ _

theorem State.beginWait_kept {s0 X : State} (h : Kept s0 X) (f : Nat) (i : Iss) (q : Option Nat) :
    Kept s0 (State.beginWait X f i q) := by
  unfold State.beginWait
  repeat' first
    | with_reducible assumption
    | split
    | with_reducible apply State.setFacet_kept

theorem State.endWait_kept {s0 X : State} (h : Kept s0 X) (i : Iss) : Kept s0 (State.endWait X i) := by
  unfold State.endWait
  repeat' first
    | with_reducible assumption
    | split
    | with_reducible apply State.setFacet_kept

theorem State.useIssue_kept {s0 X : State} (h : Kept s0 X) (i : Iss) : Kept s0 (State.useIssue X i) := by
  unfold State.useIssue
  repeat' first
    | (extract_lets +onlyGivenNames lv
       refine Kept.gen (s := s0) (x := lv) ?_ ?_
       rotate_left
       intro hx; clear_value lv; revert lv; intro y hy
       rotate_right
       dsimp -zeta only [lv]; clear lv)
    | (extract_lets +onlyGivenNames lv; clear_value lv; revert lv; intro y)
    | with_reducible assumption
    | split
    | with_reducible apply State.usePart_kept
    | with_reducible apply State.useAddr_kept
    | with_reducible apply State.useRank_kept
    | with_reducible refine Kept.foldl _ _ ?_ (fun _ _ _ => ?_)

theorem State.fetchStop_kept {s0 X : State} (h : Kept s0 X) (f : Nat) : Kept s0 (State.fetchStop X f) := by
  unfold State.fetchStop
  repeat' first
    | (extract_lets +onlyGivenNames lv
       refine Kept.gen (s := s0) (x := lv) ?_ ?_
       rotate_left
       intro hx; clear_value lv; revert lv; intro y hy
       rotate_right
       dsimp -zeta only [lv]; clear lv)
    | (extract_lets +onlyGivenNames lv; clear_value lv; revert lv; intro y)
    | with_reducible assumption
    | split
    | with_reducible apply State.stopMember_kept

theorem State.stopCheck_kept {s0 X : State} (h : Kept s0 X) (i : Iss) (c : Nat) (pl : Plan) : Kept s0 (State.stopCheck X i c pl) := by
  unfold State.stopCheck
  repeat' first
    | (extract_lets +onlyGivenNames lv
       refine Kept.gen (s := s0) (x := lv) ?_ ?_
       rotate_left
       intro hx; clear_value lv; revert lv; intro y hy
       rotate_right
       dsimp -zeta only [lv]; clear lv)
    | (extract_lets +onlyGivenNames lv; clear_value lv; revert lv; intro y)
    | with_reducible assumption
    | split
    | with_reducible apply State.stopMember_kept

theorem State.check_keeps {s0 X : State} (plan : State → Iss → Plan) (i : Iss)
    (he : ∀ Z i Y, Kept s0 Y → Kept s0 ((plan Z i).eff Y)) (Y : State) (k : Kept s0 Y) :
    Kept s0 ((State.check X plan i).2.eff Y) := by
  unfold State.check
  dsimp only
  split
  · exact he _ _ _ k
  · exact k

theorem State.tryIssue_kept {s0 X : State} (h : Kept s0 X) (f op : Nat) (u : FUnit) (plan : State → Iss → Plan)
    (he : ∀ Z i Y, Kept s0 Y → Kept s0 ((plan Z i).eff Y)) : Kept s0 (State.tryIssue X f op u plan) := by
  unfold State.tryIssue
  extract_lets s1
  have h1 : Kept s0 s1 := by
    show Kept s0 (if _ then _ else _)
    split
    · exact State.fetchStop_kept (State.fetchAhead_kept h f) f
    · exact h
  clear_value s1
  split
  · exact h1
  · rename_i i _
    split
    · exact h1
    · extract_lets s2
      have h2 : Kept s0 s2 := State.useIssue_kept h1 i
      clear_value s2
      have hc := State.check_keeps (X := s2) plan i he
      split
      · rename_i e
        rw [e] at hc
        split
        · exact h2
        · split
          · exact State.beginWait_kept h2 _ _ _
          · split
            · split
              · exact State.endWait_kept h2 _
              · exact State.issue_kept h2 _ _ hc
            · exact State.stopMember_kept h2 _ _ _ _ _ _
      · exact State.stopCheck_kept h2 _ _ _

theorem State.releaseRun_kept {s0 X : State} (h : Kept s0 X) (f : Nat) : Kept s0 (State.releaseRun X f) := by
  unfold State.releaseRun
  repeat' first
    | with_reducible assumption
    | with_reducible apply State.setFacet_kept
    | with_reducible apply State.startNext_kept

theorem State.complete_kept {s0 X : State} (h : Kept s0 X) (f : Nat) (u : FUnit) (r : Run) (i : InFlight) :
    Kept s0 (State.complete X f u r i) := by
  unfold State.complete
  repeat' first
    | (extract_lets +onlyGivenNames lv
       refine Kept.gen (s := s0) (x := lv) ?_ ?_
       rotate_left
       intro hx; clear_value lv; revert lv; intro y hy
       rotate_right
       dsimp -zeta only [lv]; clear lv)
    | (extract_lets +onlyGivenNames lv; clear_value lv; revert lv; intro y)
    | with_reducible assumption
    | split
    | with_reducible apply State.setFacet_kept
    | with_reducible apply State.fillPage_kept
    | with_reducible apply State.raiseLength_kept
    | with_reducible apply State.stopQuiet_kept
    | with_reducible apply State.stopMember_kept
    | with_reducible apply State.signal_kept
    | with_reducible apply State.issueOp_kept
    | with_reducible refine Kept.foldl _ _ ?_ (fun _ _ _ => ?_)

theorem State.setSeed_kept {s0 X : State} (h : Kept s0 X) (f k v : Nat) : Kept s0 (State.setSeed X f k v) := by
  unfold State.setSeed
  repeat' first
    | (extract_lets +onlyGivenNames lv; clear_value lv; revert lv; intro y)
    | with_reducible assumption
    | split
    | with_reducible apply State.setFacet_kept

theorem State.storeOut_kept {s0 X : State} (h : Kept s0 X) (i : Iss) (space : Nat) (x : Scr) (bad : Bool) :
    Kept s0 (State.storeOut X i space x bad) := by
  unfold State.storeOut
  repeat' first
    | (extract_lets +onlyGivenNames lv; clear_value lv; revert lv; intro y)
    | with_reducible assumption
    | split
    | with_reducible apply State.bump_kept
    | with_reducible apply State.storeScr_kept

theorem State.writeOut_kept {s0 X : State} (h : Kept s0 X) (i : Iss) (v : View) (val : Idx → Word) (bad : Bool) :
    Kept s0 (State.writeOut X i v val bad) := by
  unfold State.writeOut
  repeat' first
    | with_reducible assumption
    | split
    | with_reducible apply State.storeOut_kept
    | with_reducible apply State.logQuant_kept

theorem State.logEv_kept {s0 X : State} (h : Kept s0 X) (f : Nat) (e : Ev) (t5 : Nat) : Kept s0 (State.logEv X f e t5) := by
  unfold State.logEv
  repeat' first
    | (extract_lets +onlyGivenNames lv
       refine Kept.gen (s := s0) (x := lv) ?_ ?_
       rotate_left
       intro hx; clear_value lv; revert lv; intro y hy
       rotate_right
       dsimp -zeta only [lv]; clear lv)
    | with_reducible assumption
    | with_reducible apply State.count_kept
    | with_reducible apply State.flag_kept

theorem State.addSamples_kept {s0 X : State} (h : Kept s0 X) (f : Nat) (l : List Sample) : Kept s0 (State.addSamples X f l) := by
  unfold State.addSamples
  repeat' first
    | with_reducible assumption
    | split
    | with_reducible apply State.setFacet_kept

theorem State.arrayEff_kept {s0 X : State} (h : Kept s0 X) (i : Iss) (o : ArrayOut) (bad laps : Bool) :
    Kept s0 (State.arrayEff X i o bad laps) := by
  unfold State.arrayEff
  repeat' first
    | (extract_lets +onlyGivenNames lv
       refine Kept.gen (s := s0) (x := lv) ?_ ?_
       rotate_left
       intro hx; clear_value lv; revert lv; intro y hy
       rotate_right
       dsimp -zeta only [lv]; clear lv)
    | (extract_lets +onlyGivenNames lv; clear_value lv; revert lv; intro y)
    | with_reducible assumption
    | split
    | with_reducible apply State.writeOut_kept
    | with_reducible apply State.bump_kept
    | with_reducible apply State.logEv_kept
    | with_reducible apply State.addSamples_kept

theorem State.kvWrite_kept {s0 X : State} (h : Kept s0 X) (i : Iss) (a b : View) (d : Desc) (rows : List KvRow) (pages : List KvPage) (t5 : Nat) (bad : Bool) :
    Kept s0 (State.kvWrite X i a b d rows pages t5 bad) := by
  unfold State.kvWrite
  repeat' first
    | (extract_lets +onlyGivenNames lv
       refine Kept.gen (s := s0) (x := lv) ?_ ?_
       rotate_left
       intro hx; clear_value lv; revert lv; intro y hy
       rotate_right
       dsimp -zeta only [lv]; clear lv)
    | (extract_lets +onlyGivenNames lv; clear_value lv; revert lv; intro y)
    | with_reducible assumption
    | with_reducible apply State.openPage_kept
    | with_reducible apply State.storeOut_kept
    | with_reducible apply State.logQuant_kept
    | with_reducible apply State.logEv_kept
    | with_reducible refine Kept.foldl _ _ ?_ (fun _ _ _ => ?_)

theorem State.writeLse_kept {s0 X : State} (h : Kept s0 X) (i : Iss) (d : Desc) (hq : Nat) (l : List ((Nat × Nat) × Word)) (bad : Bool) :
    Kept s0 (State.writeLse X i d hq l bad) := by
  unfold State.writeLse
  repeat' first
    | (extract_lets +onlyGivenNames lv; clear_value lv; revert lv; intro y)
    | with_reducible assumption
    | split
    | with_reducible apply State.storeOut_kept

theorem State.writeRows_kept {s0 X : State} (h : Kept s0 X) (i : Iss) (out : View) (rows : List ((Nat × Nat) × List Word)) (bad : Bool) :
    Kept s0 (State.writeRows X i out rows bad) := by
  unfold State.writeRows
  repeat' first
    | (extract_lets +onlyGivenNames lv
       refine Kept.gen (s := s0) (x := lv) ?_ ?_
       rotate_left
       intro hx; clear_value lv; revert lv; intro y hy
       rotate_right
       dsimp -zeta only [lv]; clear lv)
    | (extract_lets +onlyGivenNames lv; clear_value lv; revert lv; intro y)
    | with_reducible assumption
    | split
    | with_reducible apply State.storeOut_kept
    | with_reducible apply State.logQuant_kept
    | with_reducible apply State.bumpIf_kept
    | with_reducible apply Kept.record
    | with_reducible apply Kept.tables
    | exact fun w => w
    | with_reducible exact memWf_wrCells _ _
    | with_reducible exact memWf_filter _ _
    | with_reducible exact rising_tset _ _ _
    | with_reducible exact rising_filter _

theorem State.writeAtt_kept {s0 X : State} (h : Kept s0 X) (i : Iss) (out : View) (d : Desc) (hq : Nat) (rs : List ((Nat × Nat) × (RowState × Ev))) (bad : Bool) :
    Kept s0 (State.writeAtt X i out d hq rs bad) := by
  unfold State.writeAtt
  repeat' first
    | (extract_lets +onlyGivenNames lv
       refine Kept.gen (s := s0) (x := lv) ?_ ?_
       rotate_left
       intro hx; clear_value lv; revert lv; intro y hy
       rotate_right
       dsimp -zeta only [lv]; clear lv)
    | (extract_lets +onlyGivenNames lv; clear_value lv; revert lv; intro y)
    | with_reducible assumption
    | split
    | with_reducible apply State.writeRows_kept
    | with_reducible apply State.writeLse_kept
    | with_reducible apply State.logEv_kept
    | with_reducible apply State.flag_kept
    | with_reducible refine Kept.foldl _ _ ?_ (fun _ _ _ => ?_)

theorem State.refuseWrite_kept {s0 X : State} (h : Kept s0 X) (w : HeldWrite) : Kept s0 (State.refuseWrite X w) := by
  unfold State.refuseWrite
  repeat' first
    | (extract_lets +onlyGivenNames lv
       refine Kept.gen (s := s0) (x := lv) ?_ ?_
       rotate_left
       intro hx; clear_value lv; revert lv; intro y hy
       rotate_right
       dsimp -zeta only [lv]; clear lv)
    | (extract_lets +onlyGivenNames lv; clear_value lv; revert lv; intro y)
    | with_reducible assumption
    | split
    | with_reducible apply State.refuseAt_kept
    | with_reducible apply State.answer_kept
    | with_reducible apply Kept.record
    | with_reducible apply Kept.tables
    | exact fun w => w
    | with_reducible exact memWf_wrCells _ _
    | with_reducible exact memWf_filter _ _
    | with_reducible exact rising_tset _ _ _
    | with_reducible exact rising_filter _

theorem State.join_kept {s0 X : State} (h : Kept s0 X) (i : Iss) (d par : BitVec 512) (keys : Nat) (bad : Bool) :
    Kept s0 (State.join X i d par keys bad) := by
  unfold State.join
  repeat' first
    | (extract_lets +onlyGivenNames lv; clear_value lv; revert lv; intro y)
    | with_reducible assumption
    | split
    | with_reducible apply State.setCtx_kept

theorem State.pumpOnce_kept {s0 X : State} (h : Kept s0 X) (e p : Nat) : Kept s0 (State.pumpOnce X e p) := by
  unfold State.pumpOnce
  repeat' first
    | with_reducible assumption
    | split
    | with_reducible apply State.issueOp_kept
    | with_reducible apply State.setCtx_kept
    | with_reducible refine Kept.foldl _ _ ?_ (fun _ _ _ => ?_)

theorem State.pump_kept {s0 : State} : ∀ (n : Nat) {X : State}, Kept s0 X → ∀ e p, Kept s0 (State.pump n X e p)
  | 0, _, h, _, _ => h
  | n + 1, _, h, e, p => State.pump_kept n (State.pumpOnce_kept h e p) e p

theorem State.releaseMembers_kept {s0 X : State} (h : Kept s0 X) (e p : Nat) (c : Ctx) (code : BitVec 8) (detail : Word) :
    Kept s0 (State.releaseMembers X e p c code detail) := by
  unfold State.releaseMembers
  repeat' first
    | with_reducible assumption
    | with_reducible apply State.mapFlight_kept
    | with_reducible refine Kept.foldl _ _ ?_ (fun _ _ _ => ?_)

theorem State.closeCtx_kept {s0 X : State} (h : Kept s0 X) (e p : Nat) (c : Ctx) (code : BitVec 8) (detail : Word) :
    Kept s0 (State.closeCtx X e p c code detail) := by
  unfold State.closeCtx
  repeat' first
    | with_reducible assumption
    | with_reducible apply State.releaseMembers_kept
    | with_reducible apply State.setCtx_kept

theorem State.closeAborted_kept {s0 X : State} (h : Kept s0 X) (e p : Nat) (c : Ctx) : Kept s0 (State.closeAborted X e p c) := by
  unfold State.closeAborted
  repeat' first
    | (extract_lets +onlyGivenNames lv
       refine Kept.gen (s := s0) (x := lv) ?_ ?_
       rotate_left
       intro hx; clear_value lv; revert lv; intro y hy
       rotate_right
       dsimp -zeta only [lv]; clear lv)
    | (extract_lets +onlyGivenNames lv; clear_value lv; revert lv; intro y)
    | with_reducible assumption
    | split
    | with_reducible apply State.storeBytes_kept
    | with_reducible apply State.bump_kept
    | with_reducible apply State.closeCtx_kept
    | with_reducible refine Kept.foldl _ _ ?_ (fun _ _ _ => ?_)

theorem State.writeStall_kept {s0 X : State} (h : Kept s0 X) (e p : Nat) (c : Ctx) : Kept s0 (State.writeStall X e p c) := by
  unfold State.writeStall
  repeat' first
    | (extract_lets +onlyGivenNames lv; clear_value lv; revert lv; intro y)
    | with_reducible assumption
    | split
    | with_reducible apply State.bump_kept
    | with_reducible apply State.setVal_kept

theorem State.abortPass_kept {s0 X : State} (h : Kept s0 X) (e p : Nat) : Kept s0 (State.abortPass X e p) := by
  unfold State.abortPass
  repeat' first
    | (extract_lets +onlyGivenNames lv
       refine Kept.gen (s := s0) (x := lv) ?_ ?_
       rotate_left
       intro hx; clear_value lv; revert lv; intro y hy
       rotate_right
       dsimp -zeta only [lv]; clear lv)
    | with_reducible assumption
    | split
    | with_reducible apply State.issueOp_kept
    | with_reducible apply State.setCtx_kept
    | with_reducible apply State.closeAborted_kept
    | with_reducible refine Kept.foldl _ _ ?_ (fun _ _ _ => ?_)

theorem State.chordTurn_kept {s0 X : State} (h : Kept s0 X) (e p : Nat) : Kept s0 (State.chordTurn X e p) := by
  unfold State.chordTurn
  repeat' first
    | (extract_lets +onlyGivenNames lv
       refine Kept.gen (s := s0) (x := lv) ?_ ?_
       rotate_left
       intro hx; clear_value lv; revert lv; intro y hy
       rotate_right
       dsimp -zeta only [lv]; clear lv)
    | with_reducible assumption
    | split
    | with_reducible apply State.pump_kept
    | with_reducible apply State.abortPass_kept
    | with_reducible apply State.closeCtx_kept
    | with_reducible apply State.closeAborted_kept

theorem State.chordTurns_kept {s0 X : State} (h : Kept s0 X)  : Kept s0 (State.chordTurns X) := by
  unfold State.chordTurns
  repeat' first
    | with_reducible assumption
    | with_reducible apply State.chordTurn_kept
    | with_reducible refine Kept.foldl _ _ ?_ (fun _ _ _ => ?_)

theorem State.chordOf_kept {s0 X : State} (h : Kept s0 X) (o : OpOwner) : Kept s0 (State.chordOf X o) := by
  unfold State.chordOf
  repeat' first
    | with_reducible assumption
    | split
    | with_reducible apply State.chordTurn_kept

theorem State.failCtx_kept {s0 X : State} (h : Kept s0 X) (e p code : Nat) : Kept s0 (State.failCtx X e p code) := by
  unfold State.failCtx
  repeat' first
    | with_reducible assumption
    | with_reducible apply State.mapCtx_kept

theorem State.putSpec_kept {s0 X : State} (h : Kept s0 X) (i : Iss) (o : OutSpec) : Kept s0 (State.putSpec X i o) := by
  unfold State.putSpec
  repeat' first
    | with_reducible assumption
    | split
    | with_reducible apply State.storeOut_kept
    | with_reducible apply State.logQuant_kept

theorem State.gatherWrite_kept {s0 X : State} (h : Kept s0 X) (c : Ctx) (i : Iss) (before : Option Nat) (k : Nat) :
    Kept s0 (State.gatherWrite X c i before k) := by
  unfold State.gatherWrite
  repeat' first
    | (extract_lets +onlyGivenNames lv
       refine Kept.gen (s := s0) (x := lv) ?_ ?_
       rotate_left
       intro hx; clear_value lv; revert lv; intro y hy
       rotate_right
       dsimp -zeta only [lv]; clear lv)
    | (extract_lets +onlyGivenNames lv; clear_value lv; revert lv; intro y)
    | with_reducible assumption
    | split
    | with_reducible apply State.putSpec_kept
    | with_reducible apply State.bumpIf_kept
    | with_reducible apply State.logEv_kept
    | with_reducible refine Kept.foldl _ _ ?_ (fun _ _ _ => ?_)
    | with_reducible apply Kept.record
    | with_reducible apply Kept.tables
    | exact fun w => w
    | with_reducible exact memWf_wrCells _ _
    | with_reducible exact memWf_filter _ _
    | with_reducible exact rising_tset _ _ _
    | with_reducible exact rising_filter _

theorem State.gatherOpen_kept {s0 X : State} (h : Kept s0 X) (e p : Nat) (c : Ctx) (i : Iss) :
    Kept s0 (State.gatherOpen X e p c i) := by
  unfold State.gatherOpen
  repeat' first
    | (extract_lets +onlyGivenNames lv
       refine Kept.gen (s := s0) (x := lv) ?_ ?_
       rotate_left
       intro hx; clear_value lv; revert lv; intro y hy
       rotate_right
       dsimp -zeta only [lv]; clear lv)
    | (extract_lets +onlyGivenNames lv; clear_value lv; revert lv; intro y)
    | with_reducible assumption
    | split
    | with_reducible apply State.issueOp_kept
    | with_reducible apply State.gatherWrite_kept
    | with_reducible apply State.mapCtx_kept
    | with_reducible refine Kept.foldl _ _ ?_ (fun _ _ _ => ?_)

theorem State.scatterOpen_kept {s0 X : State} (h : Kept s0 X) (e p : Nat) (c : Ctx) (i : Iss) :
    Kept s0 (State.scatterOpen X e p c i) := by
  unfold State.scatterOpen
  repeat' first
    | (extract_lets +onlyGivenNames lv
       refine Kept.gen (s := s0) (x := lv) ?_ ?_
       rotate_left
       intro hx; clear_value lv; revert lv; intro y hy
       rotate_right
       dsimp -zeta only [lv]; clear lv)
    | (extract_lets +onlyGivenNames lv; clear_value lv; revert lv; intro y)
    | with_reducible assumption
    | with_reducible apply State.issueOp_kept
    | with_reducible apply State.storeBytes_kept
    | with_reducible apply State.logEv_kept
    | with_reducible apply State.mapCtx_kept
    | with_reducible refine Kept.foldl _ _ ?_ (fun _ _ _ => ?_)

theorem State.exchangeOpen_kept {s0 X : State} (h : Kept s0 X) (e p : Nat) (c : Ctx) : Kept s0 (State.exchangeOpen X e p c) := by
  unfold State.exchangeOpen
  repeat' first
    | (extract_lets +onlyGivenNames lv
       refine Kept.gen (s := s0) (x := lv) ?_ ?_
       rotate_left
       intro hx; clear_value lv; revert lv; intro y hy
       rotate_right
       dsimp -zeta only [lv]; clear lv)
    | (extract_lets +onlyGivenNames lv; clear_value lv; revert lv; intro y)
    | with_reducible assumption
    | with_reducible apply State.issueOp_kept
    | with_reducible apply State.mapCtx_kept
    | with_reducible refine Kept.foldl _ _ ?_ (fun _ _ _ => ?_)

theorem State.storeRows_kept {s0 X : State} (h : Kept s0 X) (e p : Nat) (c : Ctx) (a : Desc) :
    Kept s0 (State.storeRows X e p c a) := by
  unfold State.storeRows
  repeat' first
    | (extract_lets +onlyGivenNames lv; clear_value lv; revert lv; intro y)
    | with_reducible assumption
    | with_reducible apply State.storeBytes_kept
    | with_reducible refine Kept.foldl _ _ ?_ (fun _ _ _ => ?_)

theorem State.ringOpen_kept {s0 X : State} (h : Kept s0 X) (e p : Nat) (c : Ctx) (i : Iss) :
    Kept s0 (State.ringOpen X e p c i) := by
  unfold State.ringOpen
  repeat' first
    | (extract_lets +onlyGivenNames lv
       refine Kept.gen (s := s0) (x := lv) ?_ ?_
       rotate_left
       intro hx; clear_value lv; revert lv; intro y hy
       rotate_right
       dsimp -zeta only [lv]; clear lv)
    | (extract_lets +onlyGivenNames lv; clear_value lv; revert lv; intro y)
    | with_reducible assumption
    | split
    | with_reducible apply State.issueOp_kept
    | with_reducible apply State.mapCtx_kept
    | with_reducible apply State.logFault_kept
    | with_reducible apply State.failCtx_kept
    | with_reducible refine Kept.foldl _ _ ?_ (fun _ _ _ => ?_)

theorem State.ringFinish_kept {s0 X : State} (h : Kept s0 X) (c : Ctx) : Kept s0 (State.ringFinish X c) := by
  unfold State.ringFinish
  repeat' first
    | (extract_lets +onlyGivenNames lv
       refine Kept.gen (s := s0) (x := lv) ?_ ?_
       rotate_left
       intro hx; clear_value lv; revert lv; intro y hy
       rotate_right
       dsimp -zeta only [lv]; clear lv)
    | (extract_lets +onlyGivenNames lv; clear_value lv; revert lv; intro y)
    | with_reducible assumption
    | with_reducible apply State.writeRows_kept
    | with_reducible apply State.writeLse_kept
    | with_reducible apply State.flag_kept
    | with_reducible refine Kept.foldl _ _ ?_ (fun _ _ _ => ?_)

theorem State.abortStop_kept {s0 X : State} (h : Kept s0 X) (f : Nat) (r : Run) : Kept s0 (State.abortStop X f r) := by
  unfold State.abortStop
  repeat' first
    | (extract_lets +onlyGivenNames lv
       refine Kept.gen (s := s0) (x := lv) ?_ ?_
       rotate_left
       intro hx; clear_value lv; revert lv; intro y hy
       rotate_right
       dsimp -zeta only [lv]; clear lv)
    | (extract_lets +onlyGivenNames lv; clear_value lv; revert lv; intro y)
    | with_reducible assumption
    | split
    | with_reducible apply State.fetchAhead_kept
    | with_reducible apply State.fetchStop_kept
    | with_reducible apply State.useIssue_kept
    | with_reducible apply State.stopMember_kept
    | with_reducible apply State.stopCheck_kept
    | with_reducible apply Kept.record
    | with_reducible apply Kept.tables
    | exact fun w => w
    | with_reducible exact memWf_wrCells _ _
    | with_reducible exact memWf_filter _ _
    | with_reducible exact rising_tset _ _ _
    | with_reducible exact rising_filter _

end Sys2Proof.Machine
end

