-- ==== Sys2Proof/Laws/KeptEngines.lean ====
section
/-! SUPPORT. What thin-channel and codec engines, the function lifecycle and the partition table keep: one lemma per operation, chaining from Kept s X to Kept s (operation of X)
(Sys2Proof/Laws/Kept.lean). A state that a definition names on its way is taken up as any state that is kept. -/

namespace Sys2Proof.Machine

theorem State.takeEntry_kept {s0 X : State} (h : Kept s0 X) (q : Nat) (i : Word) : Kept s0 (State.takeEntry X q i) := by
  unfold State.takeEntry
  repeat' first
    | (extract_lets +onlyGivenNames lv
       refine Kept.gen (s := s0) (x := lv) ?_ ?_
       rotate_left
       intro hx; clear_value lv; revert lv; intro y hy
       rotate_right
       dsimp -zeta only [lv]; clear lv)
    | (extract_lets +onlyGivenNames lv; clear_value lv; revert lv; intro y)
    | with_reducible assumption
    | split
    | with_reducible apply State.setVal_kept
    | with_reducible apply State.setQueue_kept
    | with_reducible apply Kept.record
    | with_reducible apply Kept.tables
    | exact fun w => w
    | with_reducible exact memWf_wrCells _ _
    | with_reducible exact memWf_filter _ _
    | with_reducible exact rising_tset _ _ _
    | with_reducible exact rising_filter _

theorem State.takeHead_kept {s0 X : State} (h : Kept s0 X) (q : Nat) : Kept s0 (State.takeHead X q) :=
  State.takeEntry_kept h _ _

theorem State.noteReady_kept {s0 X : State} (h : Kept s0 X)  : Kept s0 (State.noteReady X) := by
  unfold State.noteReady
  repeat' first
    | (extract_lets +onlyGivenNames lv
       refine Kept.gen (s := s0) (x := lv) ?_ ?_
       rotate_left
       intro hx; clear_value lv; revert lv; intro y hy
       rotate_right
       dsimp -zeta only [lv]; clear lv)
    | (extract_lets +onlyGivenNames lv; clear_value lv; revert lv; intro y)
    | with_reducible assumption
    | split
    | with_reducible apply State.setQueue_kept
    | with_reducible refine Kept.foldl _ _ ?_ (fun _ _ _ => ?_)
    | with_reducible apply Kept.record
    | with_reducible apply Kept.tables
    | exact fun w => w
    | with_reducible exact memWf_wrCells _ _
    | with_reducible exact memWf_filter _ _
    | with_reducible exact rising_tset _ _ _
    | with_reducible exact rising_filter _

theorem State.putThin_kept {s0 X : State} (h : Kept s0 X) (e : Nat) (j : ThinJob) : Kept s0 (State.putThin X e j) := by
  unfold State.putThin
  repeat' first
    | (extract_lets +onlyGivenNames lv
       refine Kept.gen (s := s0) (x := lv) ?_ ?_
       rotate_left
       intro hx; clear_value lv; revert lv; intro y hy
       rotate_right
       dsimp -zeta only [lv]; clear lv)
    | (extract_lets +onlyGivenNames lv; clear_value lv; revert lv; intro y)
    | with_reducible assumption
    | split
    | with_reducible apply State.setTce_kept

theorem State.dropThin_kept {s0 X : State} (h : Kept s0 X) (e p : Nat) : Kept s0 (State.dropThin X e p) := by
  unfold State.dropThin
  repeat' first
    | (extract_lets +onlyGivenNames lv
       refine Kept.gen (s := s0) (x := lv) ?_ ?_
       rotate_left
       intro hx; clear_value lv; revert lv; intro y hy
       rotate_right
       dsimp -zeta only [lv]; clear lv)
    | (extract_lets +onlyGivenNames lv; clear_value lv; revert lv; intro y)
    | with_reducible assumption
    | split
    | with_reducible apply State.setTce_kept

theorem State.endThin_kept {s0 X : State} (h : Kept s0 X) (e : Nat) (j : ThinJob) (code : Nat) :
    Kept s0 (State.endThin X e j code) := by
  unfold State.endThin
  repeat' first
    | (extract_lets +onlyGivenNames lv
       refine Kept.gen (s := s0) (x := lv) ?_ ?_
       rotate_left
       intro hx; clear_value lv; revert lv; intro y hy
       rotate_right
       dsimp -zeta only [lv]; clear lv)
    | (extract_lets +onlyGivenNames lv; clear_value lv; revert lv; intro y)
    | with_reducible assumption
    | split
    | with_reducible apply State.flag_kept
    | with_reducible apply State.postRecord_kept
    | with_reducible apply State.setTce_kept
    | refine Kept.pair (by assumption) ?_
    | with_reducible apply State.putThin_kept
    | with_reducible apply State.dropThin_kept

theorem State.touchReads_kept {s0 X : State} (h : Kept s0 X) (l : List (Nat × (Nat × Nat))) : Kept s0 (State.touchReads X l) := by
  unfold State.touchReads
  repeat' first
    | with_reducible assumption
    | split
    | with_reducible apply State.touchRange_kept
    | with_reducible refine Kept.foldl _ _ ?_ (fun _ _ _ => ?_)

theorem State.nearOf_kept {s0 X : State} (h : Kept s0 X) (a len : Nat) : Kept s0 (State.nearOf X a len) := by
  unfold State.nearOf
  repeat' first
    | with_reducible assumption
    | split
    | with_reducible apply State.promoteRange_kept

theorem State.nearParts_kept {s0 X : State} (h : Kept s0 X) (a : Nat) (l : List (Nat × Nat)) : Kept s0 (State.nearParts X a l) := by
  unfold State.nearParts
  repeat' first
    | (extract_lets +onlyGivenNames lv
       refine Kept.gen (s := s0) (x := lv) ?_ ?_
       rotate_left
       intro hx; clear_value lv; revert lv; intro y hy
       rotate_right
       dsimp -zeta only [lv]; clear lv)
    | (extract_lets +onlyGivenNames lv; clear_value lv; revert lv; intro y)
    | with_reducible assumption
    | split
    | with_reducible apply State.promoteRange_kept
    | with_reducible refine Kept.foldl _ _ ?_ (fun _ _ _ => ?_)

theorem State.thinTile_kept {s0 X : State} (h : Kept s0 X) (e : Nat) (j : ThinJob) : Kept s0 (State.thinTile X e j) := by
  unfold State.thinTile
  extract_lets r out bad store f s1 s2
  have hs : ∀ Y l, Kept s0 Y → Kept s0 (store Y l) := by
    intro Y l k
    show Kept s0 (if bad then _ else _)
    split
    · exact Kept.foldl _ _ k fun _ _ k => State.bump_kept (State.storeBytes_kept k _ _ _ _ _ _ _)
    · exact Kept.foldl _ _ k fun _ _ k => State.storeBytes_kept k _ _ _ _ _ _ _
  have h1 : Kept s0 s1 := by
    show Kept s0 (if _ then _ else _)
    split
    · exact hs _ _ h
    · exact State.flag_kept (State.flag_kept (State.count_kept (hs _ _ h) _ _) _ _ _) _ _ _
  exact State.setTce_kept (State.putThin_kept (State.touchReads_kept h1 _) _ _) _ _

theorem State.thinRun_kept {s0 X : State} (h : Kept s0 X) (e op : Nat) : Kept s0 (State.thinRun X e op) := by
  unfold State.thinRun
  repeat' first
    | (extract_lets +onlyGivenNames lv
       refine Kept.gen (s := s0) (x := lv) ?_ ?_
       rotate_left
       intro hx; clear_value lv; revert lv; intro y hy
       rotate_right
       dsimp -zeta only [lv]; clear lv)
    | (extract_lets +onlyGivenNames lv; clear_value lv; revert lv; intro y)
    | with_reducible assumption
    | split
    | with_reducible apply State.thinTile_kept
    | with_reducible apply State.usePart_kept
    | with_reducible apply State.nearOf_kept
    | with_reducible apply State.endThin_kept
    | with_reducible apply State.nearParts_kept

theorem State.handPins_kept {s0 X : State} (h : Kept s0 X) (off len : Nat) : Kept s0 (State.handPins X off len) := by
  unfold State.handPins
  repeat' first
    | with_reducible assumption
    | split
    | with_reducible apply State.setDir_kept
    | with_reducible refine Kept.foldl _ _ ?_ (fun _ _ _ => ?_)

theorem State.setSlot_kept {s0 X : State} (h : Kept s0 X) (c k : Nat) (v : Option Slot) : Kept s0 (State.setSlot X c k v) := by
  unfold State.setSlot
  repeat' first
    | with_reducible assumption
    | with_reducible apply State.setCodec_kept

theorem State.endCodec_kept {s0 X : State} (h : Kept s0 X) (c : Nat) (j : CodecJob) (code : Nat) (fault : Bool) :
    Kept s0 (State.endCodec X c j code fault) := by
  unfold State.endCodec
  repeat' first
    | (extract_lets +onlyGivenNames lv
       refine Kept.gen (s := s0) (x := lv) ?_ ?_
       rotate_left
       intro hx; clear_value lv; revert lv; intro y hy
       rotate_right
       dsimp -zeta only [lv]; clear lv)
    | (extract_lets +onlyGivenNames lv; clear_value lv; revert lv; intro y)
    | with_reducible assumption
    | split
    | with_reducible apply State.flag_kept
    | with_reducible apply State.postRecord_kept
    | with_reducible apply State.setCodec_kept
    | refine Kept.pair (by assumption) ?_

theorem State.doneCodec_kept {s0 X : State} (h : Kept s0 X) (c : Nat) (j : CodecJob) (bad : Bool) :
    Kept s0 (State.doneCodec X c j bad) := by
  unfold State.doneCodec
  repeat' first
    | with_reducible assumption
    | split
    | with_reducible apply State.endCodec_kept
    | with_reducible apply State.signal_kept

theorem State.startCodec_kept {s0 X : State} (h : Kept s0 X) (c op : Nat) (run : State → CodecJob → State)
    (hr : ∀ Y j, Kept s0 Y → Kept s0 (run Y j)) : Kept s0 (State.startCodec X c op run) := by
  unfold State.startCodec
  split
  · exact h
  · rename_i j _
    split
    · exact h
    · extract_lets s1
      have h1 : Kept s0 s1 := State.usePart_kept h _
      clear_value s1
      split
      · exact hr _ _ h1
      · exact State.endCodec_kept h1 _ _ _ _

theorem State.refBytes_kept {s0 X : State} (h : Kept s0 X) (c p : Nat) (cfg : Cfg) (state : Nat) (bad : Bool) :
    Kept s0 (State.refBytes X c p cfg state bad) := by
  unfold State.refBytes
  repeat' first
    | (extract_lets +onlyGivenNames lv
       refine Kept.gen (s := s0) (x := lv) ?_ ?_
       rotate_left
       intro hx; clear_value lv; revert lv; intro y hy
       rotate_right
       dsimp -zeta only [lv]; clear lv)
    | (extract_lets +onlyGivenNames lv; clear_value lv; revert lv; intro y)
    | with_reducible assumption
    | split
    | with_reducible apply State.nearOf_kept
    | with_reducible apply State.storeBytes_kept

theorem State.jobPin_kept {s0 X : State} (h : Kept s0 X) (c : Nat) (tiles : List Nat) : Kept s0 (State.jobPin X c tiles) := by
  unfold State.jobPin
  repeat' first
    | with_reducible assumption
    | split
    | with_reducible apply State.setDir_kept
    | with_reducible refine Kept.foldl _ _ ?_ (fun _ _ _ => ?_)

theorem State.jobUnpin_kept {s0 X : State} (h : Kept s0 X) (c : Nat) (tiles : List Nat) (release : Bool) :
    Kept s0 (State.jobUnpin X c tiles release) := by
  unfold State.jobUnpin
  repeat' first
    | with_reducible assumption
    | split
    | with_reducible apply State.setDir_kept
    | with_reducible refine Kept.foldl _ _ ?_ (fun _ _ _ => ?_)

theorem State.encodeStart_kept {s0 X : State} (h : Kept s0 X) (c : Nat) (j : CodecJob) (sl : Slot) :
    Kept s0 (State.encodeStart X c j sl) := by
  unfold State.encodeStart
  repeat' first
    | (extract_lets +onlyGivenNames lv
       refine Kept.gen (s := s0) (x := lv) ?_ ?_
       rotate_left
       intro hx; clear_value lv; revert lv; intro y hy
       rotate_right
       dsimp -zeta only [lv]; clear lv)
    | (extract_lets +onlyGivenNames lv; clear_value lv; revert lv; intro y)
    | with_reducible assumption
    | split
    | with_reducible apply State.jobPin_kept
    | with_reducible apply State.setCodec_kept
    | with_reducible apply State.nearOf_kept
    | with_reducible apply State.refBytes_kept
    | with_reducible apply Kept.record
    | with_reducible apply Kept.tables
    | exact fun w => w
    | with_reducible exact memWf_wrCells _ _
    | with_reducible exact memWf_filter _ _
    | with_reducible exact rising_tset _ _ _
    | with_reducible exact rising_filter _

theorem State.dropCodec_kept {s0 X : State} (h : Kept s0 X) (c : Nat) (j : CodecJob) (code : Nat) :
    Kept s0 (State.dropCodec X c j code) := by
  unfold State.dropCodec
  repeat' first
    | with_reducible assumption
    | split
    | with_reducible apply State.jobUnpin_kept
    | with_reducible apply State.endCodec_kept
    | with_reducible apply Kept.record
    | with_reducible apply Kept.tables
    | exact fun w => w
    | with_reducible exact memWf_wrCells _ _
    | with_reducible exact memWf_filter _ _
    | with_reducible exact rising_tset _ _ _
    | with_reducible exact rising_filter _

theorem State.encodeEnd_kept {s0 X : State} (h : Kept s0 X) (c : Nat) (j : CodecJob) (sl : Slot) :
    Kept s0 (State.encodeEnd X c j sl) := by
  unfold State.encodeEnd
  repeat' first
    | (extract_lets +onlyGivenNames lv
       refine Kept.gen (s := s0) (x := lv) ?_ ?_
       rotate_left
       intro hx; clear_value lv; revert lv; intro y hy
       rotate_right
       dsimp -zeta only [lv]; clear lv)
    | (extract_lets +onlyGivenNames lv; clear_value lv; revert lv; intro y)
    | with_reducible assumption
    | split
    | with_reducible apply State.storeBytes_kept
    | with_reducible apply State.setSlot_kept
    | with_reducible apply State.flag_kept
    | with_reducible apply State.endCodec_kept
    | with_reducible apply State.bump_kept
    | with_reducible apply State.doneCodec_kept

theorem State.emitFrame_kept {s0 X : State} (h : Kept s0 X) (c : Nat) (j : CodecJob) (map : Nat) (bad : Bool)
    (f : Config.Decoded) : Kept s0 (State.emitFrame X c j map bad f) := by
  unfold State.emitFrame
  split
  · exact h
  · extract_lets cfg n k ring mp put s1 s2
    have hp : ∀ Y sp o l, Kept s0 Y → Kept s0 (put Y sp o l) := by
      intro Y sp o l k
      show Kept s0 (if bad then _ else _)
      split
      · exact State.bump_kept (State.storeBytes_kept k _ _ _ _ _ _ _)
      · exact State.storeBytes_kept k _ _ _ _ _ _ _
    have h1 : Kept s0 s1 := Kept.foldl _ _ h fun _ _ k => hp _ _ _ _ k
    exact State.setSlot_kept (hp _ _ _ _ h1) _ _ _

theorem State.ringsNear_kept {s0 X : State} (h : Kept s0 X) (cfg : Cfg) (map : Nat) : Kept s0 (State.ringsNear X cfg map) := by
  unfold State.ringsNear
  repeat' first
    | with_reducible assumption
    | split
    | with_reducible apply State.nearOf_kept

theorem State.decodeEnd_kept {s0 X : State} (h : Kept s0 X) (c : Nat) (j : CodecJob) : Kept s0 (State.decodeEnd X c j) := by
  unfold State.decodeEnd
  repeat' first
    | (extract_lets +onlyGivenNames lv
       refine Kept.gen (s := s0) (x := lv) ?_ ?_
       rotate_left
       intro hx; clear_value lv; revert lv; intro y hy
       rotate_right
       dsimp -zeta only [lv]; clear lv)
    | (extract_lets +onlyGivenNames lv; clear_value lv; revert lv; intro y)
    | with_reducible assumption
    | split
    | with_reducible apply State.signal_kept
    | with_reducible apply State.setSlot_kept
    | with_reducible apply State.doneCodec_kept

theorem State.emitAll_kept {s0 X : State} (h : Kept s0 X) (c : Nat) (j : CodecJob) (cfg : Cfg) (map : Nat) (bad : Bool) (l : List Config.Decoded) :
    Kept s0 (State.emitAll X c j cfg map bad l) := by
  unfold State.emitAll
  repeat' first
    | (extract_lets +onlyGivenNames lv
       refine Kept.gen (s := s0) (x := lv) ?_ ?_
       rotate_left
       intro hx; clear_value lv; revert lv; intro y hy
       rotate_right
       dsimp -zeta only [lv]; clear lv)
    | (extract_lets +onlyGivenNames lv; clear_value lv; revert lv; intro y)
    | with_reducible assumption
    | split
    | with_reducible apply State.setCodec_kept
    | with_reducible apply State.emitFrame_kept
    | with_reducible apply State.ringsNear_kept
    | with_reducible apply State.decodeEnd_kept
    | with_reducible refine Kept.foldl _ _ ?_ (fun _ _ _ => ?_)
    | with_reducible apply Kept.record
    | with_reducible apply Kept.tables
    | exact fun w => w
    | with_reducible exact memWf_wrCells _ _
    | with_reducible exact memWf_filter _ _
    | with_reducible exact rising_tset _ _ _
    | with_reducible exact rising_filter _

theorem State.decodeStart_kept {s0 X : State} (h : Kept s0 X) (c : Nat) (j : CodecJob) (sl : Slot) :
    Kept s0 (State.decodeStart X c j sl) := by
  unfold State.decodeStart
  repeat' first
    | (extract_lets +onlyGivenNames lv
       refine Kept.gen (s := s0) (x := lv) ?_ ?_
       rotate_left
       intro hx; clear_value lv; revert lv; intro y hy
       rotate_right
       dsimp -zeta only [lv]; clear lv)
    | (extract_lets +onlyGivenNames lv; clear_value lv; revert lv; intro y)
    | with_reducible assumption
    | split
    | with_reducible apply State.nearOf_kept
    | with_reducible apply State.setSlot_kept
    | with_reducible apply State.refBytes_kept
    | with_reducible apply State.count_kept
    | with_reducible apply State.flag_kept
    | with_reducible apply State.endCodec_kept
    | with_reducible apply State.emitAll_kept
    | with_reducible apply Kept.record
    | with_reducible apply Kept.tables
    | exact fun w => w
    | with_reducible exact memWf_wrCells _ _
    | with_reducible exact memWf_filter _ _
    | with_reducible exact rising_tset _ _ _
    | with_reducible exact rising_filter _

theorem State.setPartSt_kept {s0 X : State} (h : Kept s0 X) (p : Nat) (st : LcSt) : Kept s0 (State.setPartSt X p st) := by
  unfold State.setPartSt
  repeat' first
    | (extract_lets +onlyGivenNames lv
       refine Kept.gen (s := s0) (x := lv) ?_ ?_
       rotate_left
       intro hx; clear_value lv; revert lv; intro y hy
       rotate_right
       dsimp -zeta only [lv]; clear lv)
    | (extract_lets +onlyGivenNames lv; clear_value lv; revert lv; intro y)
    | with_reducible assumption
    | split
    | with_reducible apply State.setPart_kept
    | with_reducible apply State.msix_kept

theorem State.dropNext_kept {s0 X : State} (h : Kept s0 X) (f code : Nat) : Kept s0 (State.dropNext X f code) := by
  unfold State.dropNext
  repeat' first
    | (extract_lets +onlyGivenNames lv
       refine Kept.gen (s := s0) (x := lv) ?_ ?_
       rotate_left
       intro hx; clear_value lv; revert lv; intro y hy
       rotate_right
       dsimp -zeta only [lv]; clear lv)
    | (extract_lets +onlyGivenNames lv; clear_value lv; revert lv; intro y)
    | with_reducible assumption
    | split
    | with_reducible apply State.setFacet_kept
    | with_reducible apply State.mapGang_kept
    | with_reducible apply State.refuseClaim_kept

theorem State.evacuate_kept {s0 X : State} (h : Kept s0 X) (l : List (Nat × DirEntry)) : Kept s0 (State.evacuate X l) := by
  unfold State.evacuate
  repeat' first
    | with_reducible assumption
    | with_reducible apply State.evictTile_kept
    | with_reducible refine Kept.foldl _ _ ?_ (fun _ _ _ => ?_)

theorem State.drainUnit_kept {s0 X : State} (h : Kept s0 X) (u : Nat) : Kept s0 (State.drainUnit X u) := by
  unfold State.drainUnit
  repeat' first
    | (extract_lets +onlyGivenNames lv
       refine Kept.gen (s := s0) (x := lv) ?_ ?_
       rotate_left
       intro hx; clear_value lv; revert lv; intro y hy
       rotate_right
       dsimp -zeta only [lv]; clear lv)
    | (extract_lets +onlyGivenNames lv; clear_value lv; revert lv; intro y)
    | with_reducible assumption
    | split
    | with_reducible apply State.setUnit_kept
    | with_reducible apply State.dropNext_kept
    | with_reducible apply State.evacuate_kept

theorem State.settleUnit_kept {s0 X : State} (h : Kept s0 X) (u : Nat) : Kept s0 (State.settleUnit X u) := by
  unfold State.settleUnit
  repeat' first
    | (extract_lets +onlyGivenNames lv; clear_value lv; revert lv; intro y)
    | with_reducible assumption
    | split
    | with_reducible apply State.setUnit_kept
    | with_reducible apply State.drainUnit_kept

theorem State.settlePart_kept {s0 X : State} (h : Kept s0 X) (p : Nat) : Kept s0 (State.settlePart X p) := by
  unfold State.settlePart
  repeat' first
    | with_reducible assumption
    | split
    | with_reducible apply State.setPartSt_kept

theorem State.clearFacet_kept {s0 X : State} (h : Kept s0 X) (f : Nat) (joins : Bool) :
    Kept s0 (State.clearFacet X f joins) := by
  unfold State.clearFacet
  repeat' first
    | with_reducible assumption
    | with_reducible apply State.setFacet_kept

theorem State.zeroRange_kept {s0 X : State} (h : Kept s0 X) (lo hi : Nat) : Kept s0 (State.zeroRange X lo hi) := by
  unfold State.zeroRange
  repeat' first
    | with_reducible assumption
    | with_reducible apply Kept.tables
    | exact fun w => w
    | with_reducible exact memWf_filter _ _

theorem State.rampClear_kept {s0 X : State} (h : Kept s0 X) (u : Nat) : Kept s0 (State.rampClear X u) := by
  unfold State.rampClear
  repeat' first
    | with_reducible assumption
    | split
    | with_reducible apply State.clearFacet_kept
    | with_reducible apply State.zeroRange_kept

theorem State.clearMoved_kept {s0 X : State} (h : Kept s0 X) (u : Nat) : Kept s0 (State.clearMoved X u) := by
  unfold State.clearMoved
  repeat' first
    | (extract_lets +onlyGivenNames lv
       refine Kept.gen (s := s0) (x := lv) ?_ ?_
       rotate_left
       intro hx; clear_value lv; revert lv; intro y hy
       rotate_right
       dsimp -zeta only [lv]; clear lv)
    | (extract_lets +onlyGivenNames lv; clear_value lv; revert lv; intro y)
    | with_reducible assumption
    | split
    | with_reducible apply State.setVal_kept
    | with_reducible apply State.clearFacet_kept
    | with_reducible apply State.setCodec_kept
    | with_reducible apply State.setUnit_kept
    | with_reducible refine Kept.foldl _ _ ?_ (fun _ _ _ => ?_)

theorem State.moveUnit_kept {s0 X : State} (h : Kept s0 X) (u : Nat) : Kept s0 (State.moveUnit X u) := by
  unfold State.moveUnit
  repeat' first
    | with_reducible assumption
    | split
    | with_reducible apply State.setUnit_kept
    | with_reducible apply State.drainUnit_kept
    | with_reducible apply State.clearMoved_kept

theorem State.watchUnits_kept {s0 X : State} (h : Kept s0 X)  : Kept s0 (State.watchUnits X) := by
  unfold State.watchUnits
  repeat' first
    | (extract_lets +onlyGivenNames lv
       refine Kept.gen (s := s0) (x := lv) ?_ ?_
       rotate_left
       intro hx; clear_value lv; revert lv; intro y hy
       rotate_right
       dsimp -zeta only [lv]; clear lv)
    | (extract_lets +onlyGivenNames lv; clear_value lv; revert lv; intro y)
    | with_reducible assumption
    | split
    | with_reducible apply Kept.record
    | with_reducible apply Kept.tables
    | exact fun w => w
    | with_reducible exact memWf_wrCells _ _
    | with_reducible exact memWf_filter _ _
    | with_reducible exact rising_tset _ _ _
    | with_reducible exact rising_filter _

theorem State.dropPins_kept {s0 X : State} (h : Kept s0 X) (p : Nat) : Kept s0 (State.dropPins X p) := by
  unfold State.dropPins
  repeat' first
    | with_reducible assumption
    | split
    | with_reducible apply State.setDir_kept
    | with_reducible refine Kept.foldl _ _ ?_ (fun _ _ _ => ?_)

theorem State.drainEnd_kept {s0 X : State} (h : Kept s0 X) (u : Nat) : Kept s0 (State.drainEnd X u) := by
  unfold State.drainEnd
  repeat' first
    | (extract_lets +onlyGivenNames lv
       refine Kept.gen (s := s0) (x := lv) ?_ ?_
       rotate_left
       intro hx; clear_value lv; revert lv; intro y hy
       rotate_right
       dsimp -zeta only [lv]; clear lv)
    | (extract_lets +onlyGivenNames lv; clear_value lv; revert lv; intro y)
    | with_reducible assumption
    | split
    | with_reducible apply State.clearMoved_kept
    | with_reducible apply State.setUnit_kept

theorem State.drainPart_kept {s0 X : State} (h : Kept s0 X) (p : Nat) : Kept s0 (State.drainPart X p) := by
  unfold State.drainPart
  repeat' first
    | (extract_lets +onlyGivenNames lv
       refine Kept.gen (s := s0) (x := lv) ?_ ?_
       rotate_left
       intro hx; clear_value lv; revert lv; intro y hy
       rotate_right
       dsimp -zeta only [lv]; clear lv)
    | with_reducible assumption
    | split
    | with_reducible apply State.use_kept
    | with_reducible apply State.setPartSt_kept
    | with_reducible apply State.dropPins_kept

theorem State.granApply_kept {s0 X : State} (h : Kept s0 X) (g : Nat) (w : Word) : Kept s0 (State.granApply X g w) := by
  unfold State.granApply
  repeat' first
    | (extract_lets +onlyGivenNames lv
       refine Kept.gen (s := s0) (x := lv) ?_ ?_
       rotate_left
       intro hx; clear_value lv; revert lv; intro y hy
       rotate_right
       dsimp -zeta only [lv]; clear lv)
    | (extract_lets +onlyGivenNames lv; clear_value lv; revert lv; intro y)
    | with_reducible assumption
    | split
    | with_reducible apply State.setVal_kept
    | with_reducible apply State.setGranProc_kept
    | with_reducible apply State.evacuate_kept

theorem State.partApply_kept {s0 X : State} (h : Kept s0 X) (r : Reg) (w : Word) : Kept s0 (State.partApply X r w) := by
  unfold State.partApply
  repeat' first
    | (extract_lets +onlyGivenNames lv
       refine Kept.gen (s := s0) (x := lv) ?_ ?_
       rotate_left
       intro hx; clear_value lv; revert lv; intro y hy
       rotate_right
       dsimp -zeta only [lv]; clear lv)
    | (extract_lets +onlyGivenNames lv; clear_value lv; revert lv; intro y)
    | with_reducible assumption
    | split
    | with_reducible apply State.setVal_kept
    | with_reducible apply State.moveUnit_kept
    | with_reducible apply State.setFacet_kept
    | with_reducible refine Kept.foldl _ _ ?_ (fun _ _ _ => ?_)
    | with_reducible apply Kept.tables
    | exact fun w => w
    | with_reducible exact rising_filter _

theorem State.flrQueue_kept {s0 X : State} (h : Kept s0 X) (q : Nat) : Kept s0 (State.flrQueue X q) := by
  unfold State.flrQueue
  repeat' first
    | with_reducible assumption
    | with_reducible apply State.put_kept
    | with_reducible apply State.setQueue_kept

theorem State.flrFacet_kept {s0 X : State} (h : Kept s0 X) (p f : Nat) : Kept s0 (State.flrFacet X p f) := by
  unfold State.flrFacet
  repeat' first
    | (extract_lets +onlyGivenNames lv
       refine Kept.gen (s := s0) (x := lv) ?_ ?_
       rotate_left
       intro hx; clear_value lv; revert lv; intro y hy
       rotate_right
       dsimp -zeta only [lv]; clear lv)
    | (extract_lets +onlyGivenNames lv; clear_value lv; revert lv; intro y)
    | with_reducible assumption
    | split
    | with_reducible apply State.setFacet_kept
    | with_reducible apply State.endMember_kept
    | with_reducible apply State.releaseRun_kept

theorem State.flrCodec_kept {s0 X : State} (h : Kept s0 X) (p c : Nat) : Kept s0 (State.flrCodec X p c) := by
  unfold State.flrCodec
  repeat' first
    | with_reducible assumption
    | split
    | with_reducible apply State.setCodec_kept

theorem State.flrThin_kept {s0 X : State} (h : Kept s0 X) (p e : Nat) : Kept s0 (State.flrThin X p e) := by
  unfold State.flrThin
  repeat' first
    | with_reducible assumption
    | split
    | with_reducible apply State.putThin_kept
    | with_reducible apply State.dropThin_kept

theorem State.flrCtx_kept {s0 X : State} (h : Kept s0 X) (p e : Nat) : Kept s0 (State.flrCtx X p e) := by
  unfold State.flrCtx
  repeat' first
    | with_reducible assumption
    | split
    | with_reducible apply State.setCtx_kept
    | with_reducible apply Kept.record
    | with_reducible apply Kept.tables
    | exact fun w => w
    | with_reducible exact memWf_wrCells _ _
    | with_reducible exact memWf_filter _ _
    | with_reducible exact rising_tset _ _ _
    | with_reducible exact rising_filter _

theorem State.flrPart_kept {s0 X : State} (h : Kept s0 X) (p : Nat) : Kept s0 (State.flrPart X p) := by
  unfold State.flrPart
  repeat' first
    | (extract_lets +onlyGivenNames lv
       refine Kept.gen (s := s0) (x := lv) ?_ ?_
       rotate_left
       intro hx; clear_value lv; revert lv; intro y hy
       rotate_right
       dsimp -zeta only [lv]; clear lv)
    | (extract_lets +onlyGivenNames lv; clear_value lv; revert lv; intro y)
    | with_reducible assumption
    | split
    | with_reducible apply State.flrQueue_kept
    | with_reducible apply State.flrFacet_kept
    | with_reducible apply State.flrCtx_kept
    | with_reducible apply State.flrCodec_kept
    | with_reducible apply State.flrThin_kept
    | with_reducible refine Kept.foldl _ _ ?_ (fun _ _ _ => ?_)
    | with_reducible apply Kept.record
    | with_reducible apply Kept.tables
    | exact fun w => w
    | with_reducible exact memWf_wrCells _ _
    | with_reducible exact memWf_filter _ _
    | with_reducible exact rising_tset _ _ _
    | with_reducible exact rising_filter _

theorem Kept.noFns {s Y : State} (h : Kept s Y) : Kept s { Y with fns := [] } :=
  h.change rfl rfl fun w => by simp_all [State.Wf, State.memsWf, State.tablesWf]

theorem State.flr_kept {s0 X : State} (h : Kept s0 X) (fn : Nat) : Kept s0 (State.flr X fn) := by
  unfold State.flr
  split
  · exact Kept.noFns (Kept.foldl _ _ h fun _ _ k => State.flrPart_kept k _)
  · exact State.setFn_kept (State.flrPart_kept h _) _ _

end Sys2Proof.Machine
end

