-- ==== Sys2Proof/Laws/KeptPackage.lean ====
section
/-! SUPPORT. What links, boot, power, faults and the host's accesses keep: one lemma per operation, chaining from Kept s X to Kept s (operation of X)
(Sys2Proof/Laws/Kept.lean). A state that a definition names on its way is taken up as any state that is kept. -/

namespace Sys2Proof.Machine

theorem State.useArrival_kept {s0 X : State} (h : Kept s0 X) (h : TxHeader) : Kept s0 (State.useArrival X h) := by
  unfold State.useArrival
  repeat' first
    | with_reducible assumption
    | with_reducible apply State.useRanks_kept
    | with_reducible apply State.useTarget_kept

theorem State.arriveNear_kept {s0 X : State} (h : Kept s0 X) (x : TxHeader) (k : RemKind) :
    Kept s0 (State.arriveNear X x k) := by
  unfold State.arriveNear
  repeat' first
    | with_reducible assumption
    | split
    | with_reducible apply State.bringNear_kept

theorem State.afterOp_kept {s0 X : State} (h : Kept s0 X) (o : OpOwner) : Kept s0 (State.afterOp X o) := by
  unfold State.afterOp
  repeat' first
    | (extract_lets +onlyGivenNames lv
       refine Kept.gen (s := s0) (x := lv) ?_ ?_
       rotate_left
       intro hx; clear_value lv; revert lv; intro y hy
       rotate_right
       dsimp -zeta only [lv]; clear lv)
    | (extract_lets +onlyGivenNames lv; clear_value lv; revert lv; intro y)
    | with_reducible assumption
    | split
    | with_reducible apply State.pumpFacet_kept
    | with_reducible apply State.chordOf_kept

theorem State.respond_kept {s0 X : State} (h : Kept s0 X) (tag : Nat) (fits : RemOp → Bool) (effect : State → RemOp → State)
    (he : ∀ Y o, Kept s0 Y → Kept s0 (effect Y o)) : Kept s0 (State.respond X tag fits effect) := by
  unfold State.respond
  split
  · exact h
  · split
    · exact h
    · split
      · exact State.setOp_kept h _ _
      · split
        · exact State.afterOp_kept (he _ _ (State.setOp_kept h _ _)) _
        · exact h

theorem State.loadInject_kept {s0 X : State} (h : Kept s0 X)  : Kept s0 (State.loadInject X) := by
  unfold State.loadInject
  repeat' first
    | with_reducible assumption
    | with_reducible apply Kept.record

theorem State.idle_kept {s0 X : State} (h : Kept s0 X) (p cr0 : Nat) (nak : Bool) : Kept s0 (State.idle X p cr0 nak) := by
  unfold State.idle
  repeat' first
    | (extract_lets +onlyGivenNames lv; clear_value lv; revert lv; intro y)
    | with_reducible assumption
    | with_reducible apply State.setPort_kept

theorem State.goAgain_kept {s0 X : State} (h : Kept s0 X) (p : Nat) : Kept s0 (State.goAgain X p) := by
  unfold State.goAgain
  repeat' first
    | (extract_lets +onlyGivenNames lv
       refine Kept.gen (s := s0) (x := lv) ?_ ?_
       rotate_left
       intro hx; clear_value lv; revert lv; intro y hy
       rotate_right
       dsimp -zeta only [lv]; clear lv)
    | (extract_lets +onlyGivenNames lv; clear_value lv; revert lv; intro y)
    | with_reducible assumption
    | split
    | with_reducible apply State.setPort_kept
    | with_reducible apply State.count_kept

theorem State.nakPort_kept {s0 X : State} (h : Kept s0 X) (p ack : Nat) : Kept s0 (State.nakPort X p ack) := by
  unfold State.nakPort
  repeat' first
    | (extract_lets +onlyGivenNames lv
       refine Kept.gen (s := s0) (x := lv) ?_ ?_
       rotate_left
       intro hx; clear_value lv; revert lv; intro y hy
       rotate_right
       dsimp -zeta only [lv]; clear lv)
    | (extract_lets +onlyGivenNames lv; clear_value lv; revert lv; intro y)
    | with_reducible assumption
    | split
    | with_reducible apply State.setPort_kept
    | with_reducible apply State.goAgain_kept
    | with_reducible apply Kept.record
    | with_reducible apply Kept.tables
    | exact fun w => w
    | with_reducible exact memWf_wrCells _ _
    | with_reducible exact memWf_filter _ _
    | with_reducible exact rising_tset _ _ _
    | with_reducible exact rising_filter _

theorem State.takeLink_kept {s0 X : State} (h : Kept s0 X) (p : Nat) (f : BitVec 2048) (credits : Bool) :
    Kept s0 (State.takeLink X p f credits) := by
  unfold State.takeLink
  repeat' first
    | (extract_lets +onlyGivenNames lv
       refine Kept.gen (s := s0) (x := lv) ?_ ?_
       rotate_left
       intro hx; clear_value lv; revert lv; intro y hy
       rotate_right
       dsimp -zeta only [lv]; clear lv)
    | (extract_lets +onlyGivenNames lv; clear_value lv; revert lv; intro y)
    | with_reducible assumption
    | split
    | with_reducible apply State.setPort_kept
    | with_reducible apply State.nakPort_kept

theorem State.takeStamp_kept {s0 X : State} (h : Kept s0 X) (p : Nat) (f : BitVec 2048) : Kept s0 (State.takeStamp X p f) := by
  unfold State.takeStamp
  exact h.other rfl

theorem State.acceptFlit_kept {s0 X : State} (h : Kept s0 X) (p : Nat) (a : Arrival) : Kept s0 (State.acceptFlit X p a) := by
  unfold State.acceptFlit
  repeat' first
    | (extract_lets +onlyGivenNames lv
       refine Kept.gen (s := s0) (x := lv) ?_ ?_
       rotate_left
       intro hx; clear_value lv; revert lv; intro y hy
       rotate_right
       dsimp -zeta only [lv]; clear lv)
    | (extract_lets +onlyGivenNames lv; clear_value lv; revert lv; intro y)
    | with_reducible assumption
    | split
    | with_reducible apply State.flitIn_kept
    | with_reducible apply State.setPort_kept
    | with_reducible apply State.idle_kept
    | with_reducible apply State.takeStamp_kept
    | with_reducible apply Kept.record
    | with_reducible apply Kept.tables
    | exact fun w => w
    | with_reducible exact memWf_wrCells _ _
    | with_reducible exact memWf_filter _ _
    | with_reducible exact rising_tset _ _ _
    | with_reducible exact rising_filter _

theorem State.codewords_kept {s0 X : State} (h : Kept s0 X) (p : Nat) (l : List LaneCount) : Kept s0 (State.codewords X p l) := by
  unfold State.codewords
  repeat' first
    | (extract_lets +onlyGivenNames lv
       refine Kept.gen (s := s0) (x := lv) ?_ ?_
       rotate_left
       intro hx; clear_value lv; revert lv; intro y hy
       rotate_right
       dsimp -zeta only [lv]; clear lv)
    | (extract_lets +onlyGivenNames lv; clear_value lv; revert lv; intro y)
    | with_reducible assumption
    | split
    | with_reducible apply State.count_kept
    | with_reducible apply State.setPort_kept

theorem State.unbuffer_kept {s0 X : State} (h : Kept s0 X) (k src : Nat) (b : BufFlit) : Kept s0 (State.unbuffer X k src b) := by
  unfold State.unbuffer
  repeat' first
    | (extract_lets +onlyGivenNames lv; clear_value lv; revert lv; intro y)
    | with_reducible assumption
    | split
    | with_reducible apply State.setPort_kept
    | with_reducible apply State.idle_kept
    | with_reducible apply Kept.record

theorem State.discardFlit_kept {s0 X : State} (h : Kept s0 X) (src : Nat) (b : BufFlit) : Kept s0 (State.discardFlit X src b) := by
  unfold State.discardFlit
  repeat' first
    | (extract_lets +onlyGivenNames lv
       refine Kept.gen (s := s0) (x := lv) ?_ ?_
       rotate_left
       intro hx; clear_value lv; revert lv; intro y hy
       rotate_right
       dsimp -zeta only [lv]; clear lv)
    | (extract_lets +onlyGivenNames lv; clear_value lv; revert lv; intro y)
    | with_reducible assumption
    | split
    | with_reducible apply State.unbuffer_kept
    | with_reducible apply State.answer_kept
    | with_reducible refine State.respond_kept ?_ _ _ _ (fun _ _ k => State.refuseAt_kept k _ _)

theorem State.sendFlit_kept {s0 X : State} (h : Kept s0 X) (p src : Nat) (b : BufFlit) (shared : Bool) :
    Kept s0 (State.sendFlit X p src b shared) := by
  unfold State.sendFlit
  repeat' first
    | (extract_lets +onlyGivenNames lv
       refine Kept.gen (s := s0) (x := lv) ?_ ?_
       rotate_left
       intro hx; clear_value lv; revert lv; intro y hy
       rotate_right
       dsimp -zeta only [lv]; clear lv)
    | (extract_lets +onlyGivenNames lv; clear_value lv; revert lv; intro y)
    | with_reducible assumption
    | split
    | with_reducible apply State.unbuffer_kept
    | with_reducible apply State.flitOut_kept
    | with_reducible apply State.setPort_kept
    | with_reducible apply Kept.record
    | with_reducible apply Kept.tables
    | exact fun w => w
    | with_reducible exact memWf_wrCells _ _
    | with_reducible exact memWf_filter _ _
    | with_reducible exact rising_tset _ _ _
    | with_reducible exact rising_filter _

theorem State.reroute_kept {s0 X : State} (h : Kept s0 X) : Kept s0 (State.reroute X) := by
  unfold State.reroute
  extract_lets x mine dims near
  have hf : ∀ (l : List (Nat × Nat)) (t : SMap (Option Nat)), rising t = true →
      rising (l.foldl (fun t y => if y.2 = 0 then t
        else tset t none y.1 ((near.find? fun n => distTo n.2 y.1 == some (y.2 - 1)).map fun n => n.1)) t) = true := by
    intro l
    induction l with
    | nil => exact fun _ k => k
    | cons a t ih =>
      intro m k
      refine ih _ ?_
      show rising (if _ then _ else _) = true
      split
      · exact k
      · exact rising_tset _ _ _ k
  exact Kept.tables h (routes := _) (w_mem := id) (w_host := id) (w_seqTab := id) (w_ctr := id) (w_beats := id) (w_active := id)
    (w_routes := fun _ => hf mine [] rfl) (w_ues := id) ..

theorem State.relink_kept {s0 X : State} (h : Kept s0 X) (first : Bool) : Kept s0 (State.relink X first) := by
  unfold State.relink
  repeat' first
    | (extract_lets +onlyGivenNames lv
       refine Kept.gen (s := s0) (x := lv) ?_ ?_
       rotate_left
       intro hx; clear_value lv; revert lv; intro y hy
       rotate_right
       dsimp -zeta only [lv]; clear lv)
    | (extract_lets +onlyGivenNames lv; clear_value lv; revert lv; intro y)
    | with_reducible assumption
    | split
    | with_reducible apply State.flag_kept
    | with_reducible apply Kept.record

theorem State.linksChanged_kept {s0 X : State} (h : Kept s0 X)  : Kept s0 (State.linksChanged X) := by
  unfold State.linksChanged
  repeat' first
    | with_reducible assumption
    | with_reducible apply State.reroute_kept
    | with_reducible apply State.relink_kept

theorem State.control_kept {s0 X : State} (h : Kept s0 X) (p kind : Nat) (data : List Byte) :
    Kept s0 (State.control X p kind data) := by
  unfold State.control
  repeat' first
    | (extract_lets +onlyGivenNames lv; clear_value lv; revert lv; intro y)
    | with_reducible assumption
    | with_reducible apply Kept.record

theorem State.tellLink_kept {s0 X : State} (h : Kept s0 X) (p v d : Nat) (up : Bool) : Kept s0 (State.tellLink X p v d up) := by
  unfold State.tellLink
  exact State.control_kept h _ _ _

theorem State.answerStamps_kept {s0 X : State} (h : Kept s0 X) : Kept s0 (State.answerStamps X) := by
  unfold State.answerStamps
  refine Kept.foldl _ _ (h.other rfl) (fun _ _ hy => ?_)
  split
  · exact State.control_kept hy _ _ _
  · exact hy

theorem State.announce_kept {s0 X : State} (h : Kept s0 X) (v d : Nat) (up : Bool) : Kept s0 (State.announce X v d up) := by
  unfold State.announce
  repeat' first
    | with_reducible assumption
    | split
    | with_reducible apply State.tellLink_kept
    | with_reducible refine Kept.foldl _ _ ?_ (fun _ _ _ => ?_)

theorem State.mapLink_kept {s0 X : State} (h : Kept s0 X) (v d : Nat) (up : Bool) : Kept s0 (State.mapLink X v d up) := by
  unfold State.mapLink
  repeat' first
    | with_reducible assumption
    | split
    | with_reducible apply Kept.record

theorem State.cutHolds_kept {s0 X : State} (h : Kept s0 X) (p : Nat) : Kept s0 (State.cutHolds X p) := by
  unfold State.cutHolds
  repeat' first
    | (extract_lets +onlyGivenNames lv
       refine Kept.gen (s := s0) (x := lv) ?_ ?_
       rotate_left
       intro hx; clear_value lv; revert lv; intro y hy
       rotate_right
       dsimp -zeta only [lv]; clear lv)
    | (extract_lets +onlyGivenNames lv; clear_value lv; revert lv; intro y)
    | with_reducible assumption
    | split
    | with_reducible apply State.setPort_kept
    | with_reducible refine Kept.foldl _ _ ?_ (fun _ _ _ => ?_)
    | with_reducible apply Kept.record
    | with_reducible apply Kept.tables
    | exact fun w => w
    | with_reducible exact memWf_wrCells _ _
    | with_reducible exact memWf_filter _ _
    | with_reducible exact rising_tset _ _ _
    | with_reducible exact rising_filter _

theorem State.leaveUp_kept {s0 X : State} (h : Kept s0 X) (p : Nat) (st : PortSt) : Kept s0 (State.leaveUp X p st) := by
  unfold State.leaveUp
  repeat' first
    | (extract_lets +onlyGivenNames lv
       refine Kept.gen (s := s0) (x := lv) ?_ ?_
       rotate_left
       intro hx; clear_value lv; revert lv; intro y hy
       rotate_right
       dsimp -zeta only [lv]; clear lv)
    | (extract_lets +onlyGivenNames lv; clear_value lv; revert lv; intro y)
    | with_reducible assumption
    | split
    | with_reducible apply State.setPort_kept
    | with_reducible apply State.mapLink_kept
    | with_reducible apply State.announce_kept
    | with_reducible apply State.linksChanged_kept
    | with_reducible apply State.cutHolds_kept

theorem State.portAbsent_kept {s0 X : State} (h : Kept s0 X) (p : Nat) : Kept s0 (State.portAbsent X p) := by
  unfold State.portAbsent
  repeat' first
    | (extract_lets +onlyGivenNames lv
       refine Kept.gen (s := s0) (x := lv) ?_ ?_
       rotate_left
       intro hx; clear_value lv; revert lv; intro y hy
       rotate_right
       dsimp -zeta only [lv]; clear lv)
    | (extract_lets +onlyGivenNames lv; clear_value lv; revert lv; intro y)
    | with_reducible assumption
    | with_reducible apply State.leaveUp_kept
    | with_reducible apply State.setPort_kept

theorem State.trainPort_kept {s0 X : State} (h : Kept s0 X) (p : Nat) (lanes : List Nat) :
    Kept s0 (State.trainPort X p lanes) := by
  unfold State.trainPort
  repeat' first
    | with_reducible assumption
    | with_reducible apply State.setPort_kept
    | with_reducible apply State.cutHolds_kept

theorem State.settlePort_kept {s0 X : State} (h : Kept s0 X) (p : Nat) : Kept s0 (State.settlePort X p) := by
  unfold State.settlePort
  repeat' first
    | (extract_lets +onlyGivenNames lv; clear_value lv; revert lv; intro y)
    | with_reducible assumption
    | split
    | with_reducible apply State.trainPort_kept
    | with_reducible apply State.leaveUp_kept

theorem State.portDrained_kept {s0 X : State} (h : Kept s0 X) (p : Nat) : Kept s0 (State.portDrained X p) := by
  unfold State.portDrained
  repeat' first
    | (extract_lets +onlyGivenNames lv; clear_value lv; revert lv; intro y)
    | with_reducible assumption
    | split
    | with_reducible apply State.setPort_kept
    | with_reducible apply State.settlePort_kept

theorem State.startLinks_kept {s0 X : State} (h : Kept s0 X)  : Kept s0 (State.startLinks X) := by
  unfold State.startLinks
  repeat' first
    | with_reducible assumption
    | with_reducible apply State.settlePort_kept
    | with_reducible refine Kept.foldl _ _ ?_ (fun _ _ _ => ?_)

theorem State.shake_kept {s0 X : State} (h : Kept s0 X) (p : Nat) : Kept s0 (State.shake X p) := by
  unfold State.shake
  repeat' first
    | (extract_lets +onlyGivenNames lv
       refine Kept.gen (s := s0) (x := lv) ?_ ?_
       rotate_left
       intro hx; clear_value lv; revert lv; intro y hy
       rotate_right
       dsimp -zeta only [lv]; clear lv)
    | (extract_lets +onlyGivenNames lv; clear_value lv; revert lv; intro y)
    | with_reducible assumption
    | split
    | with_reducible apply State.bump_kept
    | with_reducible apply State.setPort_kept
    | with_reducible apply State.control_kept

theorem State.flagFinding_kept {s0 X : State} (h : Kept s0 X) (p k : Nat) : Kept s0 (State.flagFinding X p k) := by
  unfold State.flagFinding
  repeat' first
    | with_reducible assumption
    | split
    | with_reducible apply State.flag_kept

theorem State.remap_kept {s0 X : State} (h : Kept s0 X) (l : List Nat) : Kept s0 (State.remap X l) := by
  unfold State.remap
  repeat' first
    | (extract_lets +onlyGivenNames lv
       refine Kept.gen (s := s0) (x := lv) ?_ ?_
       rotate_left
       intro hx; clear_value lv; revert lv; intro y hy
       rotate_right
       dsimp -zeta only [lv]; clear lv)
    | (extract_lets +onlyGivenNames lv; clear_value lv; revert lv; intro y)
    | with_reducible assumption
    | with_reducible apply State.put_kept
    | with_reducible apply State.setPort_kept
    | with_reducible apply State.flag_kept
    | with_reducible refine Kept.foldl _ _ ?_ (fun _ _ _ => ?_)

theorem State.joinPort_kept {s0 X : State} (h : Kept s0 X) (p : Nat) : Kept s0 (State.joinPort X p) := by
  unfold State.joinPort
  repeat' first
    | (extract_lets +onlyGivenNames lv
       refine Kept.gen (s := s0) (x := lv) ?_ ?_
       rotate_left
       intro hx; clear_value lv; revert lv; intro y hy
       rotate_right
       dsimp -zeta only [lv]; clear lv)
    | (extract_lets +onlyGivenNames lv; clear_value lv; revert lv; intro y)
    | with_reducible assumption
    | split
    | with_reducible apply State.setPort_kept
    | with_reducible apply State.mapLink_kept
    | with_reducible apply State.tellLink_kept
    | with_reducible refine Kept.foldl _ _ ?_ (fun _ _ _ => ?_)
    | with_reducible apply State.announce_kept
    | with_reducible apply State.linksChanged_kept
    | with_reducible apply State.settlePort_kept

theorem State.concludePort_kept {s0 X : State} (h : Kept s0 X) (p : Nat) (up : Bool) : Kept s0 (State.concludePort X p up) := by
  unfold State.concludePort
  repeat' first
    | (extract_lets +onlyGivenNames lv
       refine Kept.gen (s := s0) (x := lv) ?_ ?_
       rotate_left
       intro hx; clear_value lv; revert lv; intro y hy
       rotate_right
       dsimp -zeta only [lv]; clear lv)
    | (extract_lets +onlyGivenNames lv; clear_value lv; revert lv; intro y)
    | with_reducible assumption
    | split
    | with_reducible apply State.setPort_kept
    | with_reducible apply State.joinPort_kept
    | with_reducible apply State.leaveUp_kept
    | with_reducible apply State.flag_kept

theorem State.lastWord_kept {s0 X : State} (h : Kept s0 X) (p : Nat) : Kept s0 (State.lastWord X p) := by
  unfold State.lastWord
  repeat' first
    | (extract_lets +onlyGivenNames lv
       refine Kept.gen (s := s0) (x := lv) ?_ ?_
       rotate_left
       intro hx; clear_value lv; revert lv; intro y hy
       rotate_right
       dsimp -zeta only [lv]; clear lv)
    | (extract_lets +onlyGivenNames lv; clear_value lv; revert lv; intro y)
    | with_reducible assumption
    | split
    | with_reducible apply State.sendFlit_kept
    | with_reducible apply State.loadInject_kept

theorem State.decidePort_kept {s0 X : State} (h : Kept s0 X) (p : Nat) : Kept s0 (State.decidePort X p) := by
  unfold State.decidePort
  repeat' first
    | (extract_lets +onlyGivenNames lv
       refine Kept.gen (s := s0) (x := lv) ?_ ?_
       rotate_left
       intro hx; clear_value lv; revert lv; intro y hy
       rotate_right
       dsimp -zeta only [lv]; clear lv)
    | (extract_lets +onlyGivenNames lv; clear_value lv; revert lv; intro y)
    | with_reducible assumption
    | split
    | with_reducible apply State.setPort_kept
    | with_reducible apply State.flag_kept
    | with_reducible apply State.control_kept
    | with_reducible apply State.concludePort_kept
    | with_reducible apply State.leaveUp_kept
    | with_reducible apply State.lastWord_kept

theorem State.regainLanes_kept {s0 X : State} (h : Kept s0 X) (p : Nat) : Kept s0 (State.regainLanes X p) := by
  unfold State.regainLanes
  repeat' first
    | (extract_lets +onlyGivenNames lv
       refine Kept.gen (s := s0) (x := lv) ?_ ?_
       rotate_left
       intro hx; clear_value lv; revert lv; intro y hy
       rotate_right
       dsimp -zeta only [lv]; clear lv)
    | (extract_lets +onlyGivenNames lv; clear_value lv; revert lv; intro y)
    | with_reducible assumption
    | split
    | with_reducible apply State.setPort_kept

theorem State.rediscover_kept {s0 X : State} (h : Kept s0 X)  : Kept s0 (State.rediscover X) := by
  unfold State.rediscover
  repeat' first
    | with_reducible assumption
    | split
    | with_reducible apply State.shake_kept
    | with_reducible apply State.trainPort_kept
    | with_reducible refine Kept.foldl _ _ ?_ (fun _ _ _ => ?_)
    | with_reducible apply State.regainLanes_kept
    | with_reducible apply State.setPort_kept

theorem State.releasePorts_kept {s0 X : State} (h : Kept s0 X) (mask : Nat) : Kept s0 (State.releasePorts X mask) := by
  unfold State.releasePorts
  repeat' first
    | with_reducible assumption
    | split
    | with_reducible apply State.trainPort_kept
    | with_reducible refine Kept.foldl _ _ ?_ (fun _ _ _ => ?_)

theorem State.tickMeridian_kept {s0 X : State} (h : Kept s0 X)  : Kept s0 (State.tickMeridian X) := by
  unfold State.tickMeridian
  repeat' first
    | (extract_lets +onlyGivenNames lv; clear_value lv; revert lv; intro y)
    | with_reducible assumption
    | with_reducible apply Kept.record

theorem State.burned_kept {s0 X : State} (h : Kept s0 X) : Kept s0 (State.burned X) := by
  unfold State.burned
  split
  · exact h
  · rename_i c
    split
    · refine State.put_kept ?_ _ _ _ _
      exact ⟨h.pending, h.fuses.trans ⟨fun w => ⟨w, rfl⟩, Nat.le_max_left _ _, rfl, rfl, rfl⟩, fun w => h.wf w⟩
    · rename_i f
      have ho : X.nv.owned = false := by
        simp only [Bool.or_eq_true, Bool.and_eq_true, bne_iff_ne, not_or, not_and, Bool.not_eq_true] at c
        exact c.2 f
      refine State.put_kept ?_ _ _ _ _
      exact ⟨h.pending, h.fuses.trans ⟨fun w => absurd (ho.symm.trans w) (by decide), Nat.le_refl _, rfl, rfl, rfl⟩,
        fun w => h.wf w⟩

theorem State.partBurned_kept {s0 X : State} (h : Kept s0 X) : Kept s0 (State.partBurned X) := by
  unfold State.partBurned
  split
  · exact h
  · rename_i c
    split
    · refine State.bump_kept (State.put_kept ?_ _ _ _ _)
      exact ⟨h.pending, h.fuses.trans ⟨fun w => ⟨w, rfl⟩, Nat.le_add_right _ _, rfl, rfl, rfl⟩, fun w => h.wf w⟩
    · rename_i f
      have ho : X.nv.owned = false := by
        simp only [Bool.or_eq_true, Bool.and_eq_true, bne_iff_ne, not_or, not_and, Bool.not_eq_true] at c
        exact c.2 f
      refine State.bump_kept (State.put_kept ?_ _ _ _ _)
      exact ⟨h.pending, h.fuses.trans ⟨fun w => absurd (ho.symm.trans w) (by decide), Nat.le_refl _, rfl, rfl, rfl⟩,
        fun w => h.wf w⟩

theorem State.partProgrammed_kept {s0 X : State} (h : Kept s0 X) : Kept s0 (State.partProgrammed X) := by
  unfold State.partProgrammed
  split
  · exact h
  · refine State.bump_kept ?_
    exact ⟨h.pending, h.fuses.trans ⟨fun w => ⟨w, rfl⟩, Nat.le_refl _, rfl, rfl, rfl⟩, fun w => h.wf w⟩

theorem State.cutOff_kept {s0 X : State} (h : Kept s0 X)  : Kept s0 (State.cutOff X) := by
  unfold State.cutOff
  repeat' first
    | with_reducible assumption
    | split
    | with_reducible apply State.partProgrammed_kept
    | with_reducible apply State.partBurned_kept

/-- The tables of a state that a reset leaves are empty. -/
theorem State.cold_kept {s0 X : State} (h : Kept s0 X) : Kept s0 (State.cold X) := by
  refine h.change rfl rfl fun w => ?_
  have := w.1
  simp_all [State.Wf, State.memsWf, State.tablesWf, State.cold, State.reset]

theorem State.loadFuses_kept {s0 X : State} (h : Kept s0 X)  : Kept s0 (State.loadFuses X) := by
  unfold State.loadFuses
  repeat' first
    | with_reducible assumption
    | with_reducible apply State.put_kept

theorem State.trainPcie_kept {s0 X : State} (h : Kept s0 X)  : Kept s0 (State.trainPcie X) := by
  unfold State.trainPcie
  repeat' first
    | with_reducible assumption
    | split
    | with_reducible apply State.bump_kept
    | with_reducible apply Kept.record
    | with_reducible apply Kept.tables
    | exact fun w => w
    | with_reducible exact memWf_wrCells _ _
    | with_reducible exact memWf_filter _ _
    | with_reducible exact rising_tset _ _ _
    | with_reducible exact rising_filter _

theorem State.readSfdp_kept {s0 X : State} (h : Kept s0 X) (d : NvmDevice) : Kept s0 (State.readSfdp X d) := by
  unfold State.readSfdp
  extract_lets ok ns bs s1
  have h1 : Kept s0 s1 := h.other rfl
  exact State.put_kept h1 _ _ _ _

theorem State.afterVerify_kept {s0 X : State} (h : Kept s0 X)  : Kept s0 (State.afterVerify X) := by
  unfold State.afterVerify
  repeat' first
    | with_reducible assumption
    | split
    | with_reducible apply Kept.record

theorem State.readRing_kept {s0 X : State} (h : Kept s0 X) : Kept s0 (State.readRing X) := by
  unfold State.readRing
  extract_lets n torn new seq g s1 s2
  clear_value seq new torn
  clear_value g
  have h1 : Kept s0 s1 := h.other rfl
  clear_value s1
  have h2 : Kept s0 s2 := State.flag_kept (State.flag_kept (State.setVal_kept h1 _ _) _ _ _) _ _ _
  clear_value s2
  exact ⟨h2.pending, h2.fuses.trans ⟨fun w => ⟨w, rfl⟩, Nat.le_refl _, rfl, rfl, rfl⟩, fun w => h2.wf w⟩

/-- What an optional state keeps. -/
def KeptO (s : State) (o : Option State) : Prop := ∀ t, o = some t → Kept s t

theorem KeptO.foldl {α : Type} {s : State} (f : State → α → Option State) (k : ∀ Y a, Kept s Y → KeptO s (f Y a)) :
    ∀ (l : List α) (o : Option State), KeptO s o → KeptO s (l.foldl (fun o a => o.bind fun s => f s a) o)
  | [], _, h => h
  | a :: t, o, h => by
    refine KeptO.foldl f k t _ ?_
    intro u e
    cases o with
    | none => cases e
    | some y => exact k y a (h y rfl) u e

theorem defaultWrite_kept {s X t : State} {r : Reg} {w : Word} {bad : Bool} (h : Kept s X) (e : defaultWrite r w bad X = some t) :
    Kept s t := by
  unfold defaultWrite at e
  split at e
  · cases e
  · cases e; exact h

theorem State.applyDefaults_kept {s0 X : State} (h : Kept s0 X) (d : Nat → Byte) : KeptO s0 (X.applyDefaults d) := by
  unfold State.applyDefaults
  refine KeptO.foldl (fun s p => s.defaultPart d p) ?_ _ _
    (KeptO.foldl (fun s g => s.defaultGran g (BitVec.ofNat 32 (imgNat d (4096 + 2 * g) 2))) ?_ _ _ ?_)
  · intro Y p k u e
    unfold State.defaultPart at e
    split at e
    · cases e
    · refine KeptO.foldl (fun s n => defaultWrite ((partRegs p).getD n (.partCtrl p)) (defWord d p n)
        (s.partReject p ((partRegs p).getD n (.partCtrl p)) (((partRegs p).getD n (.partCtrl p)).stored (defWord d p n)))
        (s.partApply ((partRegs p).getD n (.partCtrl p)) (((partRegs p).getD n (.partCtrl p)).stored (defWord d p n)))) ?_ _ _ ?_ u e
      · exact fun _ _ k _ e => defaultWrite_kept (State.partApply_kept k _ _) e
      · intro t e; cases e; exact k
  · exact fun _ _ k _ e => defaultWrite_kept (State.setVal_kept k _ _) e
  · intro t e; cases e; exact h

theorem State.defaulted_kept {s0 X : State} (h : Kept s0 X) (d : Nat → Byte) : Kept s0 ((X.applyDefaults d).getD X) := by
  have := State.applyDefaults_kept h d
  cases e : X.applyDefaults d with
  | none => exact h
  | some t => exact this t e

theorem State.imagePort_kept {s0 X : State} (h : Kept s0 X) (i : ImageInfo) (p : Nat) : Kept s0 (State.imagePort X i p) := by
  unfold State.imagePort
  extract_lets x l
  split
  · exact h
  · rename_i s1 _
    have h1 : Kept s0 s1 := State.put_kept (State.put_kept h _ _ _ _) _ _ _ _
    clear_value s1
    split
    · exact h1
    · exact State.put_kept h1 _ _ _ _

theorem State.applyImage_kept {s0 X : State} (h : Kept s0 X) (i : ImageInfo) : Kept s0 (State.applyImage X i) := by
  unfold State.applyImage
  extract_lets s1 s2 s3 s4 s5 s6
  have h1 : Kept s0 s1 := State.put_kept (State.put_kept (State.put_kept h _ _ _ _) _ _ _ _) _ _ _ _
  clear_value s1
  have h2 : Kept s0 s2 := Kept.foldl _ _ h1 fun _ _ k => State.imagePort_kept k _ _
  clear_value s2
  have h3 : Kept s0 s3 := State.put_kept (State.put_kept h2 _ _ _ _) _ _ _ _
  clear_value s3
  have h4 : Kept s0 s4 := State.put_kept (State.put_kept h3 _ _ _ _) _ _ _ _
  clear_value s4
  have h5 : Kept s0 s5 := State.put_kept (State.put_kept (State.put_kept h4 _ _ _ _) _ _ _ _) _ _ _ _
  clear_value s5
  have h6 : Kept s0 s6 := State.put_kept (State.put_kept h5 _ _ _ _) _ _ _ _
  clear_value s6
  exact State.defaulted_kept h6 _

theorem State.hwLog_kept {s0 X : State} (h : Kept s0 X) (b src off : Nat) : Kept s0 (State.hwLog X b src off) := by
  unfold State.hwLog
  repeat' first
    | with_reducible assumption
    | split
    | with_reducible apply State.setWz_kept

theorem State.markFailed_kept {s0 X : State} (h : Kept s0 X) (u : Nat) : Kept s0 (State.markFailed X u) := by
  unfold State.markFailed
  repeat' first
    | with_reducible assumption
    | with_reducible apply State.setUnit_kept
    | with_reducible apply State.hwLog_kept

/-- Dropping entries of a table and changing others leaves it in order. -/
theorem rising_filterMap {α β : Type} (p : α → Option β) : ∀ (m : SMap α) (lo : Nat), risingFrom lo m = true →
    risingFrom lo (m.filterMap fun x => (p x.2).map fun y => (x.1, y)) = true
  | [], _, _ => rfl
  | (k, v) :: t, lo, w => by
    simp only [risingFrom, Bool.and_eq_true, decide_eq_true_eq] at w
    have ih := rising_filterMap p t (k + 1) w.2
    rw [List.filterMap_cons]
    cases hf : p v with
    | some y =>
      simp only [Option.map_some, risingFrom, Bool.and_eq_true, decide_eq_true_eq]
      exact ⟨w.1, ih⟩
    | none =>
      simp only [Option.map_none]
      exact risingFrom_mono (by omega) _ ih

theorem State.enterRecovery_kept {s0 X : State} (h : Kept s0 X) : Kept s0 (State.enterRecovery X) := by
  unfold State.enterRecovery
  dsimp only
  refine State.put_kept ?_ _ _ _ _
  refine h.change rfl rfl fun w => ?_
  have hu : rising X.units = true := by have := w.2; simp_all [State.tablesWf]
  have hp : rising X.ports = true := by have := w.2; simp_all [State.tablesWf]
  have hr : rising X.regs = true := by have := w.2; simp_all [State.tablesWf]
  have hf : rising X.fns = true := by have := w.2; simp_all [State.tablesWf]
  have hb : rising X.beats = true := by have := w.2; simp_all [State.tablesWf]
  have ha : rising X.active = true := by have := w.2; simp_all [State.tablesWf]
  have h1 : rising (failedUnits X.units) = true := by
    unfold failedUnits rising
    exact rising_filterMap (fun (v : Lc) => if v.failed then some ({ lc0 with failed := true } : Lc) else none) _ _ hu
  have h5 : rising (lostPorts X.ports) = true := by
    unfold lostPorts rising
    exact rising_filterMap (fun (v : Port) => if v.lost.isEmpty then none else some ({ port0 with lost := v.lost } : Port)) _ _ hp
  have h2 := rising_filter (fun x => keptReg x.1 x.2) hr
  have h3 := rising_filter (fun x => x.1 == 0) hf
  have h4 := w.1
  simp only [State.Wf, State.memsWf, State.tablesWf, State.cold, State.reset]
  simp_all [State.memsWf, rising, risingFrom]

theorem State.recoveryGo_kept {s0 X : State} (h : Kept s0 X)  : Kept s0 (State.recoveryGo X) := by
  unfold State.recoveryGo
  repeat' first
    | with_reducible assumption
    | split
    | with_reducible apply Kept.record

theorem State.fuseCommit_kept {s0 X : State} (h : Kept s0 X) (value : Nat) : Kept s0 (State.fuseCommit X value) := by
  unfold State.fuseCommit
  repeat' first
    | (extract_lets +onlyGivenNames lv
       refine Kept.gen (s := s0) (x := lv) ?_ ?_
       rotate_left
       intro hx; clear_value lv; revert lv; intro y hy
       rotate_right
       dsimp -zeta only [lv]; clear lv)
    | (extract_lets +onlyGivenNames lv; clear_value lv; revert lv; intro y)
    | with_reducible assumption
    | split
    | with_reducible apply Kept.record
    | with_reducible apply Kept.tables
    | exact fun w => w
    | with_reducible exact memWf_wrCells _ _
    | with_reducible exact memWf_filter _ _
    | with_reducible exact rising_tset _ _ _
    | with_reducible exact rising_filter _

theorem State.fuseOwner_kept {s0 X : State} (h : Kept s0 X)  : Kept s0 (State.fuseOwner X) := by
  unfold State.fuseOwner
  repeat' first
    | (extract_lets +onlyGivenNames lv
       refine Kept.gen (s := s0) (x := lv) ?_ ?_
       rotate_left
       intro hx; clear_value lv; revert lv; intro y hy
       rotate_right
       dsimp -zeta only [lv]; clear lv)
    | (extract_lets +onlyGivenNames lv; clear_value lv; revert lv; intro y)
    | with_reducible assumption
    | split
    | with_reducible apply Kept.record
    | with_reducible apply Kept.tables
    | exact fun w => w
    | with_reducible exact memWf_wrCells _ _
    | with_reducible exact memWf_filter _ _
    | with_reducible exact rising_tset _ _ _
    | with_reducible exact rising_filter _

theorem State.answerDoe_kept {s0 X : State} (h : Kept s0 X) (b : List Byte) : Kept s0 (State.answerDoe X b) := by
  unfold State.answerDoe
  repeat' first
    | with_reducible assumption
    | with_reducible apply Kept.record

theorem State.lastGasp_kept {s0 X : State} (h : Kept s0 X) (cause : Nat) : Kept s0 (State.lastGasp X cause) := by
  unfold State.lastGasp
  split
  · exact h.other rfl
  · split
    · exact h.other rfl
    · extract_lets b ns gs
      clear_value b
      exact ⟨h.pending, h.fuses.trans ⟨fun w => ⟨w, rfl⟩, Nat.le_refl _, rfl, rfl, rfl⟩, fun w => h.wf w⟩

theorem State.stopApex_kept {s0 X : State} (h : Kept s0 X)  : Kept s0 (State.stopApex X) := by
  unfold State.stopApex
  repeat' first
    | with_reducible assumption
    | with_reducible apply Kept.record

theorem State.loseLanes_kept {s0 X : State} (h : Kept s0 X) (p : Nat) : Kept s0 (State.loseLanes X p) := by
  unfold State.loseLanes
  repeat' first
    | (extract_lets +onlyGivenNames lv; clear_value lv; revert lv; intro y)
    | with_reducible assumption
    | split
    | with_reducible apply State.setPort_kept
    | with_reducible apply State.flag_kept
    | with_reducible apply State.portAbsent_kept

theorem State.selfRefresh_kept {s0 X : State} (h : Kept s0 X) (b : Bool) : Kept s0 (State.selfRefresh X b) := by
  unfold State.selfRefresh
  repeat' first
    | with_reducible assumption
    | with_reducible apply State.setMemCtl_kept
    | with_reducible refine Kept.foldl _ _ ?_ (fun _ _ _ => ?_)

theorem State.requestFreeze_kept {s0 X : State} (h : Kept s0 X)  : Kept s0 (State.requestFreeze X) := by
  unfold State.requestFreeze
  repeat' first
    | (extract_lets +onlyGivenNames lv
       refine Kept.gen (s := s0) (x := lv) ?_ ?_
       rotate_left
       intro hx; clear_value lv; revert lv; intro y hy
       rotate_right
       dsimp -zeta only [lv]; clear lv)
    | (extract_lets +onlyGivenNames lv; clear_value lv; revert lv; intro y)
    | with_reducible assumption
    | split
    | with_reducible apply State.flag_kept
    | with_reducible apply State.selfRefresh_kept
    | with_reducible apply Kept.record

theorem State.endProgram_kept {s0 X : State} (h : Kept s0 X) : Kept s0 (State.endProgram X) := by
  unfold State.endProgram
  split
  · exact h
  · extract_lets nv gs s1
    have h1 : Kept s0 s1 := ⟨h.pending, h.fuses.trans ⟨fun w => ⟨w, rfl⟩, Nat.le_refl _, rfl, rfl, rfl⟩, fun w => h.wf w⟩
    clear_value s1
    split
    · exact State.requestFreeze_kept h1
    · exact h1

theorem State.trip_kept {s0 X : State} (h : Kept s0 X) (cause source : Nat) : Kept s0 (State.trip X cause source) := by
  unfold State.trip
  split
  · exact h
  · extract_lets pp s1 s2
    have h1 : Kept s0 s1 := h.other rfl
    clear_value s1
    have h2 : Kept s0 s2 := State.put_kept (State.put_kept h1 _ _ _ _) _ _ _ _
    clear_value s2
    split
    · exact h2
    · exact State.lastGasp_kept h2 _

theorem State.nvmRelease_kept {s0 X : State} (h : Kept s0 X) : Kept s0 (State.nvmRelease X) := by
  unfold State.nvmRelease
  exact (State.endProgram_kept h).other rfl

theorem State.programTick_kept {s0 X : State} (h : Kept s0 X)  : Kept s0 (State.programTick X) := by
  unfold State.programTick
  repeat' first
    | with_reducible assumption
    | split
    | with_reducible apply State.endProgram_kept
    | with_reducible apply Kept.record
    | with_reducible apply Kept.tables
    | exact fun w => w
    | with_reducible exact memWf_wrCells _ _
    | with_reducible exact memWf_filter _ _
    | with_reducible exact rising_tset _ _ _
    | with_reducible exact rising_filter _

theorem State.thawPort_kept {s0 X : State} (h : Kept s0 X) (p : Nat) : Kept s0 (State.thawPort X p) := by
  unfold State.thawPort
  repeat' first
    | (extract_lets +onlyGivenNames lv
       refine Kept.gen (s := s0) (x := lv) ?_ ?_
       rotate_left
       intro hx; clear_value lv; revert lv; intro y hy
       rotate_right
       dsimp -zeta only [lv]; clear lv)
    | (extract_lets +onlyGivenNames lv; clear_value lv; revert lv; intro y)
    | with_reducible assumption
    | split
    | with_reducible apply State.settlePort_kept
    | with_reducible apply State.leaveUp_kept
    | with_reducible apply State.trainPort_kept
    | with_reducible apply State.setPort_kept
    | with_reducible apply Kept.record
    | with_reducible apply Kept.tables
    | exact fun w => w
    | with_reducible exact memWf_wrCells _ _
    | with_reducible exact memWf_filter _ _
    | with_reducible exact rising_tset _ _ _
    | with_reducible exact rising_filter _

theorem State.beat_kept {s0 X : State} (h : Kept s0 X) (k : Nat) : Kept s0 (State.beat X k) := by
  unfold State.beat
  repeat' first
    | (extract_lets +onlyGivenNames lv
       refine Kept.gen (s := s0) (x := lv) ?_ ?_
       rotate_left
       intro hx; clear_value lv; revert lv; intro y hy
       rotate_right
       dsimp -zeta only [lv]; clear lv)
    | (extract_lets +onlyGivenNames lv; clear_value lv; revert lv; intro y)
    | with_reducible assumption
    | split
    | with_reducible apply Kept.tables
    | exact fun w => w
    | with_reducible exact rising_tset _ _ _

theorem State.xingTick_kept {s0 X : State} (h : Kept s0 X)  : Kept s0 (State.xingTick X) := by
  unfold State.xingTick
  repeat' first
    | (extract_lets +onlyGivenNames lv
       refine Kept.gen (s := s0) (x := lv) ?_ ?_
       rotate_left
       intro hx; clear_value lv; revert lv; intro y hy
       rotate_right
       dsimp -zeta only [lv]; clear lv)
    | (extract_lets +onlyGivenNames lv; clear_value lv; revert lv; intro y)
    | with_reducible assumption
    | split
    | with_reducible apply State.setXing_kept
    | with_reducible refine Kept.foldl _ _ ?_ (fun _ _ _ => ?_)

theorem State.pass_kept {s0 X : State} (h : Kept s0 X)  : Kept s0 (State.pass X) := by
  unfold State.pass
  repeat' first
    | (extract_lets +onlyGivenNames lv
       refine Kept.gen (s := s0) (x := lv) ?_ ?_
       rotate_left
       intro hx; clear_value lv; revert lv; intro y hy
       rotate_right
       dsimp -zeta only [lv]; clear lv)
    | (extract_lets +onlyGivenNames lv; clear_value lv; revert lv; intro y)
    | with_reducible assumption
    | split
    | with_reducible apply State.tickMeridian_kept
    | with_reducible apply State.programTick_kept
    | with_reducible apply State.beat_kept
    | with_reducible apply State.xingTick_kept
    | with_reducible apply State.chordTurns_kept
    | with_reducible apply State.watchUnits_kept
    | with_reducible apply State.noteReady_kept
    | with_reducible refine Kept.foldl _ _ ?_ (fun _ _ _ => ?_)
    | with_reducible apply Kept.record
    | with_reducible apply Kept.tables
    | exact fun w => w
    | with_reducible exact memWf_wrCells _ _
    | with_reducible exact memWf_filter _ _
    | with_reducible exact rising_tset _ _ _
    | with_reducible exact rising_filter _

theorem State.eccLog_kept {s0 X : State} (h : Kept s0 X) (counter : Reg) (b : Nat) (src : EccSource) (u off : Nat) :
    Kept s0 (State.eccLog X counter b src u off) := by
  unfold State.eccLog
  repeat' first
    | with_reducible assumption
    | split
    | with_reducible apply State.count_kept
    | with_reducible apply State.hwLog_kept

theorem State.poisonAt_kept {s0 X : State} (h : Kept s0 X) (off : Nat) : Kept s0 (State.poisonAt X off) := by
  unfold State.poisonAt
  repeat' first
    | with_reducible assumption
    | with_reducible apply Kept.record

theorem State.dateError_kept {s0 X : State} (h : Kept s0 X) (t : Nat) : Kept s0 (State.dateError X t) := by
  unfold State.dateError
  repeat' first
    | (extract_lets +onlyGivenNames lv; clear_value lv; revert lv; intro y)
    | with_reducible assumption
    | with_reducible apply Kept.tables
    | exact fun w => w
    | with_reducible exact rising_tset _ _ _

theorem State.spoil_kept {s0 X : State} (h : Kept s0 X) (f : Nat) (p : Nat) (u : FUnit) (l : List Range) :
    Kept s0 (State.spoil X f p u l) := by
  unfold State.spoil
  repeat' first
    | with_reducible assumption
    | split
    | with_reducible apply State.storeBytes_kept
    | with_reducible apply State.bump_kept
    | with_reducible refine Kept.foldl _ _ ?_ (fun _ _ _ => ?_)

theorem State.strikeUnit_kept {s0 X : State} (h : Kept s0 X) (f : Nat) (u : FUnit) : Kept s0 (State.strikeUnit X f u) := by
  unfold State.strikeUnit
  repeat' first
    | (extract_lets +onlyGivenNames lv
       refine Kept.gen (s := s0) (x := lv) ?_ ?_
       rotate_left
       intro hx; clear_value lv; revert lv; intro y hy
       rotate_right
       dsimp -zeta only [lv]; clear lv)
    | with_reducible assumption
    | split
    | with_reducible apply State.mapFlight_kept
    | with_reducible apply State.spoil_kept

theorem State.strikeFacet_kept {s0 X : State} (h : Kept s0 X) (f : Nat) : Kept s0 (State.strikeFacet X f) := by
  unfold State.strikeFacet
  repeat' first
    | with_reducible assumption
    | with_reducible apply State.strikeUnit_kept

theorem State.dropFlights_kept {s0 X : State} (h : Kept s0 X) (f : Nat) : Kept s0 (State.dropFlights X f) := by
  unfold State.dropFlights
  repeat' first
    | (extract_lets +onlyGivenNames lv; clear_value lv; revert lv; intro y)
    | with_reducible assumption
    | split
    | with_reducible apply State.setFacet_kept

theorem State.failWork_kept {s0 X : State} (h : Kept s0 X) (u : Nat) (cause : FailCause) :
    Kept s0 (State.failWork X u cause) := by
  unfold State.failWork
  repeat' first
    | (extract_lets +onlyGivenNames lv
       refine Kept.gen (s := s0) (x := lv) ?_ ?_
       rotate_left
       intro hx; clear_value lv; revert lv; intro y hy
       rotate_right
       dsimp -zeta only [lv]; clear lv)
    | (extract_lets +onlyGivenNames lv; clear_value lv; revert lv; intro y)
    | with_reducible assumption
    | split
    | with_reducible apply State.stopMember_kept
    | with_reducible apply State.dropFlights_kept
    | with_reducible apply State.jobUnpin_kept
    | with_reducible apply State.endCodec_kept
    | with_reducible apply State.endThin_kept
    | with_reducible apply State.failCtx_kept
    | with_reducible apply State.chordTurn_kept
    | with_reducible refine Kept.foldl _ _ ?_ (fun _ _ _ => ?_)

theorem State.failPort_kept {s0 X : State} (h : Kept s0 X) (p : Nat) : Kept s0 (State.failPort X p) := by
  unfold State.failPort
  repeat' first
    | with_reducible assumption
    | split
    | with_reducible apply State.settlePort_kept
    | with_reducible apply State.setPort_kept
    | with_reducible apply State.cutHolds_kept

theorem State.useReach_kept {s0 X : State} (h : Kept s0 X) (fn : Nat) : Kept s0 (State.useReach X fn) := by
  unfold State.useReach
  repeat' first
    | with_reducible assumption
    | split
    | with_reducible apply State.useNow_kept

theorem State.refused_kept {s0 X : State} (h : Kept s0 X) (fn : Nat) (r : Reg) (l : List Nat) :
    Kept s0 (State.refused X fn r l) := by
  unfold State.refused
  repeat' first
    | (extract_lets +onlyGivenNames lv; clear_value lv; revert lv; intro y)
    | with_reducible assumption
    | split
    | with_reducible apply State.setWz_kept
    | with_reducible refine Kept.foldl _ _ ?_ (fun _ _ _ => ?_)

theorem State.writeSeq_kept {s0 X : State} (h : Kept s0 X) (fn o : Nat) (w : Word) : Kept s0 (State.writeSeq X fn o w) := by
  unfold State.writeSeq
  repeat' first
    | (extract_lets +onlyGivenNames lv; clear_value lv; revert lv; intro y)
    | with_reducible assumption
    | split
    | with_reducible apply Kept.tables
    | exact fun w => w
    | with_reducible exact memWf_wrCells _ _

theorem State.hostSignal_kept {s0 X : State} (h : Kept s0 X) (n : Nat) (v : Word) : Kept s0 (State.hostSignal X n v) := by
  unfold State.hostSignal
  repeat' first
    | with_reducible assumption
    | split
    | with_reducible apply State.signal_kept
    | with_reducible apply State.setWz_kept
    | with_reducible refine Kept.foldl _ _ ?_ (fun _ _ _ => ?_)

theorem State.hostSet_kept {s0 X : State} (h : Kept s0 X) (n : Nat) (v : Word) : Kept s0 (State.hostSet X n v) := by
  unfold State.hostSet
  repeat' first
    | with_reducible assumption
    | with_reducible apply State.setCounter_kept
    | with_reducible apply State.notePost_kept
    | with_reducible apply State.overPost_kept

theorem State.writeQueue_kept {s0 X : State} (h : Kept s0 X) (q : Nat) (w : Word) : Kept s0 (State.writeQueue X q w) := by
  unfold State.writeQueue
  repeat' first
    | (extract_lets +onlyGivenNames lv
       refine Kept.gen (s := s0) (x := lv) ?_ ?_
       rotate_left
       intro hx; clear_value lv; revert lv; intro y hy
       rotate_right
       dsimp -zeta only [lv]; clear lv)
    | (extract_lets +onlyGivenNames lv; clear_value lv; revert lv; intro y)
    | with_reducible assumption
    | split
    | with_reducible apply State.setVal_kept
    | with_reducible apply State.setQueue_kept

theorem State.writeLinkCtrl_kept {s0 X : State} (h : Kept s0 X) (w : Word) : Kept s0 (State.writeLinkCtrl X w) := by
  unfold State.writeLinkCtrl
  repeat' first
    | (extract_lets +onlyGivenNames lv
       refine Kept.gen (s := s0) (x := lv) ?_ ?_
       rotate_left
       intro hx; clear_value lv; revert lv; intro y hy
       rotate_right
       dsimp -zeta only [lv]; clear lv)
    | (extract_lets +onlyGivenNames lv; clear_value lv; revert lv; intro y)
    | with_reducible assumption
    | split
    | with_reducible apply State.setVal_kept
    | with_reducible apply State.rediscover_kept
    | with_reducible apply State.releasePorts_kept

theorem State.writeRecov_kept {s0 X : State} (h : Kept s0 X) (w : Word) : Kept s0 (State.writeRecov X w) := by
  unfold State.writeRecov
  repeat' first
    | (extract_lets +onlyGivenNames lv
       refine Kept.gen (s := s0) (x := lv) ?_ ?_
       rotate_left
       intro hx; clear_value lv; revert lv; intro y hy
       rotate_right
       dsimp -zeta only [lv]; clear lv)
    | (extract_lets +onlyGivenNames lv; clear_value lv; revert lv; intro y)
    | with_reducible assumption
    | split
    | with_reducible apply State.setVal_kept
    | with_reducible apply State.enterRecovery_kept
    | with_reducible apply State.recoveryGo_kept

theorem State.writeFuse_kept {s0 X : State} (h : Kept s0 X) (w : Word) : Kept s0 (State.writeFuse X w) := by
  unfold State.writeFuse
  repeat' first
    | (extract_lets +onlyGivenNames lv
       refine Kept.gen (s := s0) (x := lv) ?_ ?_
       rotate_left
       intro hx; clear_value lv; revert lv; intro y hy
       rotate_right
       dsimp -zeta only [lv]; clear lv)
    | with_reducible assumption
    | split
    | with_reducible apply State.setVal_kept
    | with_reducible apply State.useNow_kept
    | with_reducible apply State.fuseCommit_kept
    | with_reducible apply State.fuseOwner_kept

theorem State.writeSection_kept {s0 X : State} (h : Kept s0 X) (w : Word) : Kept s0 (State.writeSection X w) := by
  unfold State.writeSection
  repeat' first
    | (extract_lets +onlyGivenNames lv
       refine Kept.gen (s := s0) (x := lv) ?_ ?_
       rotate_left
       intro hx; clear_value lv; revert lv; intro y hy
       rotate_right
       dsimp -zeta only [lv]; clear lv)
    | (extract_lets +onlyGivenNames lv; clear_value lv; revert lv; intro y)
    | with_reducible assumption
    | split
    | with_reducible apply State.setVal_kept
    | with_reducible apply State.requestFreeze_kept

theorem State.applyWrite_kept {s0 X : State} (h : Kept s0 X) (fn : Nat) (r : Reg) (w : Word) :
    Kept s0 (State.applyWrite X fn r w) := by
  unfold State.applyWrite
  repeat' first
    | (extract_lets +onlyGivenNames lv
       refine Kept.gen (s := s0) (x := lv) ?_ ?_
       rotate_left
       intro hx; clear_value lv; revert lv; intro y hy
       rotate_right
       dsimp -zeta only [lv]; clear lv)
    | (extract_lets +onlyGivenNames lv; clear_value lv; revert lv; intro y)
    | with_reducible assumption
    | split
    | with_reducible apply State.partApply_kept
    | with_reducible apply State.settlePart_kept
    | with_reducible apply State.granApply_kept
    | with_reducible apply State.setVal_kept
    | with_reducible apply State.settleUnit_kept
    | with_reducible apply State.settlePort_kept
    | with_reducible apply State.writeSeq_kept
    | with_reducible apply State.hostSet_kept
    | with_reducible apply State.hostSignal_kept
    | with_reducible apply State.writeQueue_kept
    | with_reducible apply State.writeLinkCtrl_kept
    | with_reducible apply State.writeRecov_kept
    | with_reducible apply State.nvmRelease_kept
    | with_reducible apply State.writeFuse_kept
    | with_reducible apply State.writeSection_kept
    | with_reducible apply State.sendHeld_kept
    | with_reducible apply Kept.record
    | with_reducible apply Kept.tables
    | exact fun w => w
    | with_reducible exact memWf_wrCells _ _
    | with_reducible exact memWf_filter _ _
    | with_reducible exact rising_tset _ _ _
    | with_reducible exact rising_filter _

theorem State.useTable_kept {s0 X : State} (h : Kept s0 X) (r : Reg) : Kept s0 (State.useTable X r) := by
  unfold State.useTable
  repeat' first
    | with_reducible assumption
    | split
    | with_reducible apply State.useNow_kept

theorem State.writeReg_kept {s0 X : State} (h : Kept s0 X) (fn : Nat) (r : Reg) (be : BitVec 4) (w : Word) :
    Kept s0 (State.writeReg X fn r be w) := by
  unfold State.writeReg
  repeat' first
    | (extract_lets +onlyGivenNames lv
       refine Kept.gen (s := s0) (x := lv) ?_ ?_
       rotate_left
       intro hx; clear_value lv; revert lv; intro y hy
       rotate_right
       dsimp -zeta only [lv]; clear lv)
    | with_reducible assumption
    | split
    | with_reducible apply State.refused_kept
    | with_reducible apply State.repair_kept
    | with_reducible apply State.useTable_kept
    | with_reducible apply State.setWz_kept
    | with_reducible apply State.applyWrite_kept
    | with_reducible refine Kept.foldl _ _ ?_ (fun _ _ _ => ?_)

theorem State.hostWait_kept {s0 X : State} (h : Kept s0 X) (fn : Nat) (x : HostPost) : Kept s0 (State.hostWait X fn x) :=
  State.setFn_kept h fn _

theorem State.hostTake_kept {s0 X : State} (h : Kept s0 X) (late : Bool) (fn o : Nat) (be : BitVec 4) (w : Word) :
    Kept s0 (State.hostTake X late fn o be w) := by
  unfold State.hostTake
  repeat' first
    | (extract_lets +onlyGivenNames lv
       refine Kept.gen (s := s0) (x := lv) ?_ ?_
       rotate_left
       intro hx; clear_value lv; revert lv; intro y hy
       rotate_right
       dsimp -zeta only [lv]; clear lv)
    | with_reducible assumption
    | split
    | with_reducible apply State.flag_kept
    | with_reducible apply State.useReach_kept
    | with_reducible apply State.hostWait_kept
    | with_reducible apply State.writeReg_kept

theorem State.hostWrite_kept {s0 X : State} (h : Kept s0 X) (fn o : Nat) (be : BitVec 4) (w : Word) :
    Kept s0 (State.hostWrite X fn o be w) := State.hostTake_kept h false fn o be w

theorem State.showData_kept {s0 X : State} (h : Kept s0 X) (l : List Byte) (bad join : Bool) :
    Kept s0 (State.showData X l bad join) :=
  h.other rfl

theorem State.hostShow_kept {s0 X : State} (h : Kept s0 X) (late : Bool) (fn o : Nat) (be : BitVec 4) (join : Bool) :
    Kept s0 (State.hostShow X late fn o be join) := by
  unfold State.hostShow
  split
  · exact h
  · split
    · exact State.showData_kept (State.flag_kept h _ _ _) _ _ _
    · split
      · exact State.hostWait_kept h _ _
      · extract_lets s1
        have h1 : Kept s0 s1 := State.useReach_kept h _
        clear_value s1
        split
        · exact State.showData_kept h1 _ _ _
        · extract_lets s2 s3
          have h2 : Kept s0 s2 := State.repair_kept h1 _
          clear_value s2
          have h3 : Kept s0 s3 := State.showData_kept h2 _ _ _
          clear_value s3
          split
          · exact h3
          · exact State.setCell_kept h3 _ _

theorem State.hostReads_kept {s0 : State} (fn : Nat) :
    ∀ (l : List (BitVec 4)) {X : State} (o : Nat) (join : Bool), Kept s0 X → Kept s0 (State.hostReads X fn o join l)
  | [], _, _, _, h => h
  | _ :: t, _, _, _, h => State.hostReads_kept fn t _ _ (State.hostShow_kept h _ _ _ _ _)
theorem State.hostWrites_kept {s0 : State} (fn : Nat) :
    ∀ (l : List (BitVec 4 × Word)) {X : State} (o : Nat), Kept s0 X → Kept s0 (State.hostWrites X fn o l)
  | [], _, _, h => h
  | _ :: t, _, _, h => State.hostWrites_kept fn t _ (State.hostWrite_kept h _ _ _ _)

theorem State.rowWrite_kept {s0 X : State} (h : Kept s0 X) (c : Bool) (fn : Nat) (r : Reg) (w : Word) :
    Kept s0 (State.rowWrite X c fn r w) := by
  unfold State.rowWrite
  repeat' first
    | with_reducible assumption
    | split
    | with_reducible apply State.hostWrite_kept

theorem State.bar4Deny_kept {s0 X : State} (h : Kept s0 X) (len : Nat) (rd : Bool) : Kept s0 (State.bar4Deny X len rd) := by
  unfold State.bar4Deny
  repeat' first
    | (extract_lets +onlyGivenNames lv
       refine Kept.gen (s := s0) (x := lv) ?_ ?_
       rotate_left
       intro hx; clear_value lv; revert lv; intro y hy
       rotate_right
       dsimp -zeta only [lv]; clear lv)
    | with_reducible assumption
    | split
    | with_reducible apply State.flag_kept
    | with_reducible apply State.showData_kept

theorem State.freeOwner_kept {s0 X : State} (h : Kept s0 X) (o : RecOwner) : Kept s0 (State.freeOwner X o) := by
  unfold State.freeOwner
  repeat' first
    | with_reducible assumption
    | split
    | with_reducible apply State.releaseRun_kept
    | with_reducible apply State.setCodec_kept
    | with_reducible apply State.setTce_kept
    | with_reducible apply State.dropThin_kept

theorem State.ring_kept {s0 X : State} (h : Kept s0 X) (late : Bool) (fn q : Nat) (w : Word) :
    Kept s0 (State.ring X late fn q w) := by
  unfold State.ring
  repeat' first
    | (extract_lets +onlyGivenNames lv
       refine Kept.gen (s := s0) (x := lv) ?_ ?_
       rotate_left
       intro hx; clear_value lv; revert lv; intro y hy
       rotate_right
       dsimp -zeta only [lv]; clear lv)
    | (extract_lets +onlyGivenNames lv; clear_value lv; revert lv; intro y)
    | with_reducible assumption
    | split
    | with_reducible apply State.flag_kept
    | with_reducible apply State.useReach_kept
    | with_reducible apply State.hostWait_kept
    | with_reducible apply State.signal_kept
    | with_reducible apply State.setWz_kept

theorem State.pageAccess_kept {s0 X : State} (h : Kept s0 X) (fn : Nat) (rd : Bool) : Kept s0 (State.pageAccess X fn rd) := by
  unfold State.pageAccess
  repeat' first
    | (extract_lets +onlyGivenNames lv
       refine Kept.gen (s := s0) (x := lv) ?_ ?_
       rotate_left
       intro hx; clear_value lv; revert lv; intro y hy
       rotate_right
       dsimp -zeta only [lv]; clear lv)
    | (extract_lets +onlyGivenNames lv; clear_value lv; revert lv; intro y)
    | with_reducible assumption
    | split
    | with_reducible apply State.flag_kept
    | with_reducible apply State.showData_kept

theorem State.bar4At_kept {s0 X : State} (h : Kept s0 X) (late : Bool) (fn a n : Nat) (d : Option (List Byte)) :
    Kept s0 (State.bar4At X late fn a n d) := by
  unfold State.bar4At
  repeat' first
    | (extract_lets +onlyGivenNames lv
       refine Kept.gen (s := s0) (x := lv) ?_ ?_
       rotate_left
       intro hx; clear_value lv; revert lv; intro y hy
       rotate_right
       dsimp -zeta only [lv]; clear lv)
    | (extract_lets +onlyGivenNames lv; clear_value lv; revert lv; intro y)
    | with_reducible assumption
    | split
    | with_reducible apply State.useStacks_kept
    | with_reducible apply State.useReach_kept
    | with_reducible apply State.bar4Deny_kept
    | with_reducible apply State.hostWait_kept
    | with_reducible apply State.showData_kept
    | with_reducible apply State.touchRange_kept
    | with_reducible apply State.storeBytes_kept

theorem State.frozenAccess_kept {s0 X : State} (h : Kept s0 X) (fn : Nat) : Kept s0 (State.frozenAccess X fn) := by
  unfold State.frozenAccess
  repeat' first
    | (extract_lets +onlyGivenNames lv
       refine Kept.gen (s := s0) (x := lv) ?_ ?_
       rotate_left
       intro hx; clear_value lv; revert lv; intro y hy
       rotate_right
       dsimp -zeta only [lv]; clear lv)
    | (extract_lets +onlyGivenNames lv; clear_value lv; revert lv; intro y)
    | with_reducible assumption
    | split
    | with_reducible apply State.setFn_kept
    | with_reducible apply State.hostTake_kept
    | with_reducible apply State.hostShow_kept
    | with_reducible apply Kept.record
    | with_reducible apply Kept.tables
    | exact fun w => w
    | with_reducible exact memWf_wrCells _ _
    | with_reducible exact memWf_filter _ _
    | with_reducible exact rising_tset _ _ _
    | with_reducible exact rising_filter _

theorem State.lateAccess_kept {s0 X : State} (h : Kept s0 X) (fn : Nat) : Kept s0 (State.lateAccess X fn) := by
  unfold State.lateAccess
  repeat' first
    | (extract_lets +onlyGivenNames lv
       refine Kept.gen (s := s0) (x := lv) ?_ ?_
       rotate_left
       intro hx; clear_value lv; revert lv; intro y hy
       rotate_right
       dsimp -zeta only [lv]; clear lv)
    | (extract_lets +onlyGivenNames lv; clear_value lv; revert lv; intro y)
    | with_reducible assumption
    | split
    | with_reducible apply State.setFn_kept
    | with_reducible apply State.hostTake_kept
    | with_reducible apply State.hostShow_kept
    | with_reducible apply State.ring_kept
    | with_reducible apply State.bar4At_kept
    | with_reducible apply Kept.record
    | with_reducible apply Kept.tables
    | exact fun w => w
    | with_reducible exact memWf_wrCells _ _
    | with_reducible exact memWf_filter _ _
    | with_reducible exact rising_tset _ _ _
    | with_reducible exact rising_filter _

/-- Time, and the accesses that it lets in, keep the invariants (the empty queue's step). -/
theorem State.tick_kept {s0 X : State} (h : Kept s0 X)  : Kept s0 (State.tick X) := by
  unfold State.tick
  repeat' first
    | (extract_lets +onlyGivenNames lv
       refine Kept.gen (s := s0) (x := lv) ?_ ?_
       rotate_left
       intro hx; clear_value lv; revert lv; intro y hy
       rotate_right
       dsimp -zeta only [lv]; clear lv)
    | (extract_lets +onlyGivenNames lv; clear_value lv; revert lv; intro y)
    | with_reducible assumption
    | split
    | with_reducible apply State.pass_kept
    | with_reducible apply State.frozenAccess_kept
    | with_reducible apply State.lateAccess_kept
    | with_reducible refine Kept.foldl _ _ ?_ (fun _ _ _ => ?_)

end Sys2Proof.Machine
end

