-- ==== Sys2Proof/Laws/KeptPlans.lean ====
section
/-! SUPPORT. The plans of the facets' instructions have effects that keep (Sys2Proof/Laws/KeptFacets.lean's
State.tryIssue_kept asks it of them). -/

namespace Sys2Proof.Machine

/-- A plan whose effect keeps. -/
abbrev PlanKeeps (plan : State → Iss → Plan) : Prop := ∀ {s0 : State} Z i Y, Kept s0 Y → Kept s0 ((plan Z i).eff Y)

theorem planNop_keeps : PlanKeeps planNop := fun _ _ _ h => h
theorem planSetseed_keeps : PlanKeeps planSetseed := fun _ _ _ h => State.setSeed_kept h _ _ _
theorem planDload_keeps : PlanKeeps planDload := fun _ _ _ h => State.issueOp_kept h _ _ _
theorem planMm_keeps (lr : Bool) : PlanKeeps (planMm lr) := fun Z i Y h => by
  unfold planMm
  extract_lets
  split <;> exact State.arrayEff_kept h _ _ _ _
theorem planConv_keeps : PlanKeeps planConv := fun Z i Y h => by
  unfold planConv
  extract_lets
  split <;> exact State.arrayEff_kept h _ _ _ _
theorem planMatmulKv_keeps : PlanKeeps planMatmulKv := fun _ _ _ h => State.kvWrite_kept h _ _ _ _ _ _ _ _
theorem planAttn_keeps : PlanKeeps planAttn := fun _ _ _ h => Kept.foldl _ _ h fun _ _ k =>
  State.flag_kept (State.logEv_kept (State.writeLse_kept (State.writeRows_kept k _ _ _ _) _ _ _ _ _) _ _ _) _ _ _

/-- A vector instruction keeps if what it logs does. -/
theorem State.planVec_keeps {s0 Y Z : State} (h : Kept s0 Y) (i : Iss) (ins : List (View × List Idx)) (code : Nat) (val : Idx → Word)
    (log : State → State) (hl : ∀ Y, Kept s0 Y → Kept s0 (log Y)) : Kept s0 ((Z.planVec i ins code val log).eff Y) :=
  hl _ (State.flag_kept (State.bumpIf_kept (State.writeOut_kept h _ _ _ _) _) _ _ _)
theorem planVew_keeps : PlanKeeps planVew := fun _ _ _ h => by
  unfold planVew
  exact State.planVec_keeps h _ _ _ _ _ fun _ k => k
theorem planCopy_keeps (get : Bool) : PlanKeeps (planCopy get) := fun _ _ _ h => h
theorem planAtomic_keeps : PlanKeeps planAtomic := fun _ _ _ h => h
theorem planPrefetch_keeps : PlanKeeps planPrefetch := fun _ _ _ h => Kept.foldl _ _ h fun _ _ k => State.promote_kept k _ _
theorem planEvict_keeps : PlanKeeps planEvict := fun _ _ _ h => Kept.foldl _ _ h fun _ _ k => State.evictTile_kept k _
theorem planGather_keeps : PlanKeeps planGather := fun _ _ _ h => State.join_kept h _ _ _ _ _
theorem planScatter_keeps : PlanKeeps planScatter := fun _ _ _ h => State.join_kept h _ _ _ _ _
theorem planExchange_keeps : PlanKeeps planExchange := fun _ _ _ h => State.join_kept h _ _ _ _ _
theorem planRing_keeps : PlanKeeps planRing := fun _ _ _ h => State.join_kept h _ _ _ _ _
theorem planNorm_keeps : PlanKeeps planNorm := fun _ _ _ h => by
  unfold planNorm
  extract_lets
  exact State.planVec_keeps h _ _ _ _ _ fun _ k => State.count_kept (State.flag_kept (State.flag_kept k _ _ _) _ _ _) _ _
theorem planVfunc_keeps : PlanKeeps planVfunc := fun _ _ _ h => by
  unfold planVfunc
  extract_lets
  exact State.planVec_keeps h _ _ _ _ _ fun _ k => State.flag_kept k _ _ _
theorem planSoftmax_keeps : PlanKeeps planSoftmax := fun _ _ _ h => by
  unfold planSoftmax
  extract_lets
  exact State.planVec_keeps h _ _ _ _ _ fun _ k => State.flag_kept k _ _ _
theorem planQuant_keeps : PlanKeeps planQuant := fun _ _ _ h => by
  unfold planQuant
  extract_lets
  exact State.planVec_keeps h _ _ _ _ _ fun _ k => State.addSamples_kept k _ _
theorem planPool_keeps : PlanKeeps planPool := fun _ _ _ h => by
  unfold planPool
  extract_lets
  exact State.planVec_keeps h _ _ _ _ _ fun _ k => k
theorem planUpsample_keeps : PlanKeeps planUpsample := fun _ _ _ h => by
  unfold planUpsample
  extract_lets
  exact State.planVec_keeps h _ _ _ _ _ fun _ k => k
theorem planVrowstat_keeps : PlanKeeps planVrowstat := fun _ _ _ h => by
  unfold planVrowstat
  extract_lets
  exact State.flag_kept (State.flag_kept (State.storeOut_kept h _ _ _ _) _ _ _) _ _ _
end Sys2Proof.Machine
end

