-- ==== Sys2Proof/WellFormed.lean ====
section
/-! DEFINITION. Which commands are well formed: the operands that the spec's fields, offsets and numbers admit.
Sys2Proof.Machine.exec is total and answers for ill-formed commands too; nothing but this file restricts them. -/

namespace Sys2Proof

/-- A space-0 offset inside a stack: 12 stacks of 48 GiB, 64 GiB apart (R249). -/
def inStacks (off : Nat) : Bool := decide (off / 2 ^ 36 < 12) && decide (off % 2 ^ 36 < 48 * 2 ^ 30)

/-- A range of bytes inside one stack. -/
def rangeInStacks (off len : Nat) : Bool :=
  decide (1 ≤ len) && inStacks off && inStacks (off + len - 1) && off / 2 ^ 36 == (off + len - 1) / 2 ^ 36

/-- An aligned BAR0 word, as the device takes it (R394). -/
def bar0Word (off : Nat) : Bool := off % 4 == 0 && decide (off < 2 ^ 26)

/-- The fields of a transaction header (11, header-flit bytes 8 to 39). -/
def TxHeader.wf (h : TxHeader) : Bool :=
  decide (h.src < 4096) && decide (h.dst < 4096) && decide (h.srcPart < 32) && decide (h.dstPart < 32) &&
    decide (h.tag < 65536) && decide (h.space < 4) && decide (h.offset < 2 ^ 48) && decide (h.len ≤ 65536) && decide (h.code < 256)

/-- A HELLO (R305, R422). -/
def Hello.wf (h : Hello) : Bool :=
  decide (h.coord < 4096) && decide (h.dim < 12) && h.planHash.length == 64 && h.cert.length == 3136 && h.signature.length == 1280

/-- The well-formed commands. -/
def Instr.wf : Instr → Bool
  | .workClaim _ | .programDone _ | .instructionComplete _ _ | .waitTimeout _ | .gangAbortStop _ | .nop _ | .fence _
  | .setseed _ | .dload _ | .matmul _ | .matmulLr _ | .matmulKv _ | .conv _ | .attn _ | .vew _ | .vrowstat _ | .norm _
  | .vfunc _ | .softmax _ | .quant _ | .pool _ | .upsample _ | .gatherMatmul _ | .matmulScatter _ | .ringAttn _
  | .exchangeV _ | .put _ | .get _ | .atomic _ | .prefetch _ | .evict _ | .poolAllocate _ | .checkerSample _ => true
  | .contextOpen _ _ | .gatherPieceLanded _ _ | .scatterReduce _ _ | .exchangeCounts _ _ | .exchangeData _ _
  | .ringStepBoundary _ _ | .ringStall _ _ | .collAbort _ _ | .preemptRequest _ _ => true
  | .tileRead _ off len => rangeInStacks off len
  | .tileWrite _ _ off data => rangeInStacks off data.length
  | .tilePromote _ off _ | .tileSeal off | .tileUnseal off | .tileLands off | .promotionUnits off => inStacks off
  | .heldWriteAccept _ => true
  | .arbiterGrant n waiting => decide (n < 462) && waiting.all fun r => decide (r.off < 2 ^ 48)
  | .stackTempRead _ _ | .hbmRefresh _ => true
  | .input _ | .output _ | .thin _ | .tceFrameDone _ => true
  | .openStream _ | .encodeFrame _ | .encodeUnitDone _ | .inputRelease _ | .decodeFrame _ | .closeStream _ | .late _
  | .jobClaim _ => true
  | .doorbell _ q _ => decide (q.offset < 4096)
  | .hostSignal _ _ _ | .counterSet _ _ | .queueEnable _ _ _ | .queueDisable _ _ _ | .cqHeadWrite _ _ _
  | .completionRecord _ | .imodTimeout _ => true
  | .partitionTableWrite _ p off _ => (Machine.partReg p off).isSome
  | .partEnable _ _ _ | .partDisable _ _ _ | .lcEnable _ _ _ | .lcDisable _ _ _ | .rampDone _ | .drainDone _ | .unitFail _ _ => true
  | .dataError src u off | .correctedError src u off =>
    match src with
    | .stack => decide (40 ≤ u.val) && decide (u.val < 52) && inStacks off && off / 2 ^ 36 == u.val - 40
    | .near => inStacks off
    | .facetStore => decide (u.val < 24) && decide (off < 2 ^ 48)
    | _ => decide (off < 2 ^ 48)
  | .functionLevelReset _ | .busMasterEnable _ _ _ | .pcieConfigRequest _ => true
  | .bar4Access _ off len data =>
    decide (1 ≤ len) && decide (off + len ≤ 2 ^ 40) && (match data with | some d => d.length == len | none => true)
  | .registerWrite _ a _ _ => bar0Word a.offset && bar0Word (a.offset + 4 * a.more.length)
  | .wzRegisterRead _ a | .triplicatedRead _ a => bar0Word a.offset && bar0Word (a.offset + 4 * a.more.length)
  | .singleUpset off _ _ => bar0Word off
  | .triplicatedScrub | .granuleWrite _ _ _ | .flushDone _ | .scrubDone _ => true
  | .putTransaction h data => h.wf && data.length == h.len
  | .getReq h | .signalTransaction h => h.wf
  | .atomicTransaction h data => h.wf && (h.scalar || data.length == h.len)
  | .ack _ | .getData _ _ | .atomicRet _ _ | .nack _ _ | .linkTimeout _ | .tagRelease _ => true
  | .flitReceive _ a => decide (a.vc < 4) && decide (a.hop < 16) && a.words.all fun w => decide (w.lane < 72)
  | .flitNak _ _ | .routerForward _ => true
  | .laneRemove _ lane _ => decide (lane < 72)
  | .retrainDone _ | .retrainTimeout _ | .trainDone _ | .trainTimeout _ | .nonce _ _ => true
  | .hello _ h => h.wf
  | .verdictPhase | .verdict _ _ => true
  | .linkStateAnnounce _ news => decide (news.vertex < 4096) && decide (news.dim < 12)
  | .rediscover _ | .portRelease _ | .meridianSync | .meridianExchange _ _ => true
  | .resetAssert | .resetRelease | .nvmDiscovery _ | .verify | .identity | .firmwareStart | .hbmTraining _ | .pcieReadiness
  | .linkDiscovery | .ready | .lastGaspArm | .perstAssert | .recoveryEnter _ | .recoveryGo _ | .recoveryVerifyDone
  | .nvmRelease _ | .nvmReclaim _ | .fuseCommitSvn _ | .fuseBurnOwner _ | .fuseDone _ => true
  | .doeDiscovery index => decide (index < 256)
  | .getCert | .getReport _ => true
  | .governorStep r => decide (r.capCode < 256) && decide (r.pwrcapCode < 256) && decide (r.thermCode < 256) && r.silent.all fun k => decide (k < 4)
  | .pwrcapAssert | .pwrcapRelease | .pwrwarnAssert | .pwrwarnWithdraw => true
  | .trip cause _ => decide (1 ≤ cause.val) && decide (cause.val ≤ 5)
  | .apexStop | .refclkLoss _ | .freezeNAssert | .sectionRequest _ | .thaw | .sectionRead | .idcode | .bypass
  | .perstRelease | .powerLoss => true

end Sys2Proof
end

