-- ==== Sys2Proof/Laws/PerInstr.lean ====
section
/-! SUPPORT. One statement of every command as syntax: a row that issues a facet instruction names an opcode of the table
(R101) and is well formed whichever facet it names. -/

namespace Sys2Proof.Laws.F

open Sys2Proof.Machine

/-- What is said of each command. -/
def Statement (i : Instr) : Prop :=
  ∀ (f : FacetId) (op : Nat) (u : FUnit) (plan : State → Iss → Plan), issueRow i = some (f, op, u, plan) →
    opcodes.contains op = true ∧ i.wf = true

/-- A row that issues nothing. -/
theorem of_none {i : Instr} (h : issueRow i = none) : Statement i := fun f op u plan e => by rw [h] at e; cases e

/-- A row that issues an opcode of the table. -/
theorem of_some {i : Instr} {f : FacetId} {op : Nat} {u : FUnit} {plan : State → Iss → Plan}
    (h : issueRow i = some (f, op, u, plan)) (ho : opcodes.contains op = true) (hw : i.wf = true) : Statement i :=
  fun f' op' u' plan' e => by
    rw [h] at e
    cases e
    exact ⟨ho, hw⟩

theorem workClaim : ∀ a, Statement (.workClaim a) := fun _ => of_none rfl
theorem programDone : ∀ a, Statement (.programDone a) := fun _ => of_none rfl
theorem instructionComplete : ∀ a b, Statement (.instructionComplete a b) := fun _ _ => of_none rfl
theorem waitTimeout : ∀ a, Statement (.waitTimeout a) := fun _ => of_none rfl
theorem gangAbortStop : ∀ a, Statement (.gangAbortStop a) := fun _ => of_none rfl
theorem nop : ∀ a, Statement (.nop a) := fun _ => of_some rfl (by decide) rfl
theorem fence : ∀ a, Statement (.fence a) := fun _ => of_some rfl (by decide) rfl
theorem setseed : ∀ a, Statement (.setseed a) := fun _ => of_some rfl (by decide) rfl
theorem dload : ∀ a, Statement (.dload a) := fun _ => of_some rfl (by decide) rfl
theorem matmul : ∀ a, Statement (.matmul a) := fun _ => of_some rfl (by decide) rfl
theorem matmulLr : ∀ a, Statement (.matmulLr a) := fun _ => of_some rfl (by decide) rfl
theorem matmulKv : ∀ a, Statement (.matmulKv a) := fun _ => of_some rfl (by decide) rfl
theorem conv : ∀ a, Statement (.conv a) := fun _ => of_some rfl (by decide) rfl
theorem attn : ∀ a, Statement (.attn a) := fun _ => of_some rfl (by decide) rfl
theorem vew : ∀ a, Statement (.vew a) := fun _ => of_some rfl (by decide) rfl
theorem vrowstat : ∀ a, Statement (.vrowstat a) := fun _ => of_some rfl (by decide) rfl
theorem norm : ∀ a, Statement (.norm a) := fun _ => of_some rfl (by decide) rfl
theorem vfunc : ∀ a, Statement (.vfunc a) := fun _ => of_some rfl (by decide) rfl
theorem softmax : ∀ a, Statement (.softmax a) := fun _ => of_some rfl (by decide) rfl
theorem quant : ∀ a, Statement (.quant a) := fun _ => of_some rfl (by decide) rfl
theorem pool : ∀ a, Statement (.pool a) := fun _ => of_some rfl (by decide) rfl
theorem upsample : ∀ a, Statement (.upsample a) := fun _ => of_some rfl (by decide) rfl
theorem gatherMatmul : ∀ a, Statement (.gatherMatmul a) := fun _ => of_some rfl (by decide) rfl
theorem matmulScatter : ∀ a, Statement (.matmulScatter a) := fun _ => of_some rfl (by decide) rfl
theorem ringAttn : ∀ a, Statement (.ringAttn a) := fun _ => of_some rfl (by decide) rfl
theorem exchangeV : ∀ a, Statement (.exchangeV a) := fun _ => of_some rfl (by decide) rfl
theorem put : ∀ a, Statement (.put a) := fun _ => of_some rfl (by decide) rfl
theorem get : ∀ a, Statement (.get a) := fun _ => of_some rfl (by decide) rfl
theorem atomic : ∀ a, Statement (.atomic a) := fun _ => of_some rfl (by decide) rfl
theorem prefetch : ∀ a, Statement (.prefetch a) := fun _ => of_some rfl (by decide) rfl
theorem evict : ∀ a, Statement (.evict a) := fun _ => of_some rfl (by decide) rfl
theorem poolAllocate : ∀ a, Statement (.poolAllocate a) := fun _ => of_none rfl
theorem checkerSample : ∀ a, Statement (.checkerSample a) := fun _ => of_none rfl
theorem contextOpen : ∀ a b, Statement (.contextOpen a b) := fun _ _ => of_none rfl
theorem gatherPieceLanded : ∀ a b, Statement (.gatherPieceLanded a b) := fun _ _ => of_none rfl
theorem scatterReduce : ∀ a b, Statement (.scatterReduce a b) := fun _ _ => of_none rfl
theorem exchangeCounts : ∀ a b, Statement (.exchangeCounts a b) := fun _ _ => of_none rfl
theorem exchangeData : ∀ a b, Statement (.exchangeData a b) := fun _ _ => of_none rfl
theorem ringStepBoundary : ∀ a b, Statement (.ringStepBoundary a b) := fun _ _ => of_none rfl
theorem ringStall : ∀ a b, Statement (.ringStall a b) := fun _ _ => of_none rfl
theorem collAbort : ∀ a b, Statement (.collAbort a b) := fun _ _ => of_none rfl
theorem preemptRequest : ∀ a b, Statement (.preemptRequest a b) := fun _ _ => of_none rfl
theorem tileRead : ∀ a b c, Statement (.tileRead a b c) := fun _ _ _ => of_none rfl
theorem tileWrite : ∀ a b c d, Statement (.tileWrite a b c d) := fun _ _ _ _ => of_none rfl
theorem tilePromote : ∀ a b c, Statement (.tilePromote a b c) := fun _ _ _ => of_none rfl
theorem tileSeal : ∀ a, Statement (.tileSeal a) := fun _ => of_none rfl
theorem tileUnseal : ∀ a, Statement (.tileUnseal a) := fun _ => of_none rfl
theorem tileLands : ∀ a, Statement (.tileLands a) := fun _ => of_none rfl
theorem promotionUnits : ∀ a, Statement (.promotionUnits a) := fun _ => of_none rfl
theorem heldWriteAccept : ∀ a, Statement (.heldWriteAccept a) := fun _ => of_none rfl
theorem arbiterGrant : ∀ a b, Statement (.arbiterGrant a b) := fun _ _ => of_none rfl
theorem stackTempRead : ∀ a b, Statement (.stackTempRead a b) := fun _ _ => of_none rfl
theorem hbmRefresh : ∀ a, Statement (.hbmRefresh a) := fun _ => of_none rfl
theorem input : ∀ a, Statement (.input a) := fun _ => of_none rfl
theorem output : ∀ a, Statement (.output a) := fun _ => of_none rfl
theorem thin : ∀ a, Statement (.thin a) := fun _ => of_none rfl
theorem tceFrameDone : ∀ a, Statement (.tceFrameDone a) := fun _ => of_none rfl
theorem openStream : ∀ a, Statement (.openStream a) := fun _ => of_none rfl
theorem encodeFrame : ∀ a, Statement (.encodeFrame a) := fun _ => of_none rfl
theorem encodeUnitDone : ∀ a, Statement (.encodeUnitDone a) := fun _ => of_none rfl
theorem inputRelease : ∀ a, Statement (.inputRelease a) := fun _ => of_none rfl
theorem decodeFrame : ∀ a, Statement (.decodeFrame a) := fun _ => of_none rfl
theorem closeStream : ∀ a, Statement (.closeStream a) := fun _ => of_none rfl
theorem late : ∀ a, Statement (.late a) := fun _ => of_none rfl
theorem jobClaim : ∀ a, Statement (.jobClaim a) := fun _ => of_none rfl
theorem doorbell : ∀ a b c, Statement (.doorbell a b c) := fun _ _ _ => of_none rfl
theorem hostSignal : ∀ a b c, Statement (.hostSignal a b c) := fun _ _ _ => of_none rfl
theorem counterSet : ∀ a b, Statement (.counterSet a b) := fun _ _ => of_none rfl
theorem queueEnable : ∀ a b c, Statement (.queueEnable a b c) := fun _ _ _ => of_none rfl
theorem queueDisable : ∀ a b c, Statement (.queueDisable a b c) := fun _ _ _ => of_none rfl
theorem cqHeadWrite : ∀ a b c, Statement (.cqHeadWrite a b c) := fun _ _ _ => of_none rfl
theorem completionRecord : ∀ a, Statement (.completionRecord a) := fun _ => of_none rfl
theorem imodTimeout : ∀ a, Statement (.imodTimeout a) := fun _ => of_none rfl
theorem partitionTableWrite : ∀ a b c d, Statement (.partitionTableWrite a b c d) := fun _ _ _ _ => of_none rfl
theorem partEnable : ∀ a b c, Statement (.partEnable a b c) := fun _ _ _ => of_none rfl
theorem partDisable : ∀ a b c, Statement (.partDisable a b c) := fun _ _ _ => of_none rfl
theorem lcEnable : ∀ a b c, Statement (.lcEnable a b c) := fun _ _ _ => of_none rfl
theorem lcDisable : ∀ a b c, Statement (.lcDisable a b c) := fun _ _ _ => of_none rfl
theorem rampDone : ∀ a, Statement (.rampDone a) := fun _ => of_none rfl
theorem drainDone : ∀ a, Statement (.drainDone a) := fun _ => of_none rfl
theorem unitFail : ∀ a b, Statement (.unitFail a b) := fun _ _ => of_none rfl
theorem dataError : ∀ a b c, Statement (.dataError a b c) := fun _ _ _ => of_none rfl
theorem functionLevelReset : ∀ a, Statement (.functionLevelReset a) := fun _ => of_none rfl
theorem busMasterEnable : ∀ a b c, Statement (.busMasterEnable a b c) := fun _ _ _ => of_none rfl
theorem pcieConfigRequest : ∀ a, Statement (.pcieConfigRequest a) := fun _ => of_none rfl
theorem bar4Access : ∀ a b c d, Statement (.bar4Access a b c d) := fun _ _ _ _ => of_none rfl
theorem registerWrite : ∀ a b c d, Statement (.registerWrite a b c d) := fun _ _ _ _ => of_none rfl
theorem wzRegisterRead : ∀ a b, Statement (.wzRegisterRead a b) := fun _ _ => of_none rfl
theorem triplicatedScrub : Statement (.triplicatedScrub) := of_none rfl
theorem granuleWrite : ∀ a b c, Statement (.granuleWrite a b c) := fun _ _ _ => of_none rfl
theorem flushDone : ∀ a, Statement (.flushDone a) := fun _ => of_none rfl
theorem scrubDone : ∀ a, Statement (.scrubDone a) := fun _ => of_none rfl
theorem putTransaction : ∀ a b, Statement (.putTransaction a b) := fun _ _ => of_none rfl
theorem getReq : ∀ a, Statement (.getReq a) := fun _ => of_none rfl
theorem atomicTransaction : ∀ a b, Statement (.atomicTransaction a b) := fun _ _ => of_none rfl
theorem signalTransaction : ∀ a, Statement (.signalTransaction a) := fun _ => of_none rfl
theorem ack : ∀ a, Statement (.ack a) := fun _ => of_none rfl
theorem getData : ∀ a b, Statement (.getData a b) := fun _ _ => of_none rfl
theorem atomicRet : ∀ a b, Statement (.atomicRet a b) := fun _ _ => of_none rfl
theorem nack : ∀ a b, Statement (.nack a b) := fun _ _ => of_none rfl
theorem linkTimeout : ∀ a, Statement (.linkTimeout a) := fun _ => of_none rfl
theorem tagRelease : ∀ a, Statement (.tagRelease a) := fun _ => of_none rfl
theorem flitReceive : ∀ a b, Statement (.flitReceive a b) := fun _ _ => of_none rfl
theorem flitNak : ∀ a b, Statement (.flitNak a b) := fun _ _ => of_none rfl
theorem routerForward : ∀ a, Statement (.routerForward a) := fun _ => of_none rfl
theorem laneRemove : ∀ a b c, Statement (.laneRemove a b c) := fun _ _ _ => of_none rfl
theorem retrainDone : ∀ a, Statement (.retrainDone a) := fun _ => of_none rfl
theorem retrainTimeout : ∀ a, Statement (.retrainTimeout a) := fun _ => of_none rfl
theorem trainDone : ∀ a, Statement (.trainDone a) := fun _ => of_none rfl
theorem trainTimeout : ∀ a, Statement (.trainTimeout a) := fun _ => of_none rfl
theorem nonce : ∀ a b, Statement (.nonce a b) := fun _ _ => of_none rfl
theorem hello : ∀ a b, Statement (.hello a b) := fun _ _ => of_none rfl
theorem verdictPhase : Statement (.verdictPhase) := of_none rfl
theorem verdict : ∀ a b, Statement (.verdict a b) := fun _ _ => of_none rfl
theorem linkStateAnnounce : ∀ a b, Statement (.linkStateAnnounce a b) := fun _ _ => of_none rfl
theorem rediscover : ∀ a, Statement (.rediscover a) := fun _ => of_none rfl
theorem portRelease : ∀ a, Statement (.portRelease a) := fun _ => of_none rfl
theorem meridianSync : Statement .meridianSync := of_none rfl
theorem meridianExchange : ∀ a b, Statement (.meridianExchange a b) := fun _ _ => of_none rfl
theorem resetAssert : Statement (.resetAssert) := of_none rfl
theorem resetRelease : Statement (.resetRelease) := of_none rfl
theorem nvmDiscovery : ∀ a, Statement (.nvmDiscovery a) := fun _ => of_none rfl
theorem verify : Statement (.verify) := of_none rfl
theorem identity : Statement (.identity) := of_none rfl
theorem firmwareStart : Statement (.firmwareStart) := of_none rfl
theorem hbmTraining : ∀ a, Statement (.hbmTraining a) := fun _ => of_none rfl
theorem pcieReadiness : Statement (.pcieReadiness) := of_none rfl
theorem linkDiscovery : Statement (.linkDiscovery) := of_none rfl
theorem ready : Statement (.ready) := of_none rfl
theorem lastGaspArm : Statement (.lastGaspArm) := of_none rfl
theorem perstAssert : Statement (.perstAssert) := of_none rfl
theorem recoveryEnter : ∀ a, Statement (.recoveryEnter a) := fun _ => of_none rfl
theorem recoveryGo : ∀ a, Statement (.recoveryGo a) := fun _ => of_none rfl
theorem recoveryVerifyDone : Statement (.recoveryVerifyDone) := of_none rfl
theorem nvmRelease : ∀ a, Statement (.nvmRelease a) := fun _ => of_none rfl
theorem nvmReclaim : ∀ a, Statement (.nvmReclaim a) := fun _ => of_none rfl
theorem fuseCommitSvn : ∀ a, Statement (.fuseCommitSvn a) := fun _ => of_none rfl
theorem fuseBurnOwner : ∀ a, Statement (.fuseBurnOwner a) := fun _ => of_none rfl
theorem fuseDone : ∀ a, Statement (.fuseDone a) := fun _ => of_none rfl
theorem doeDiscovery : ∀ a, Statement (.doeDiscovery a) := fun _ => of_none rfl
theorem getCert : Statement (.getCert) := of_none rfl
theorem getReport : ∀ a, Statement (.getReport a) := fun _ => of_none rfl
theorem governorStep : ∀ a, Statement (.governorStep a) := fun _ => of_none rfl
theorem pwrcapAssert : Statement (.pwrcapAssert) := of_none rfl
theorem pwrcapRelease : Statement (.pwrcapRelease) := of_none rfl
theorem pwrwarnAssert : Statement (.pwrwarnAssert) := of_none rfl
theorem pwrwarnWithdraw : Statement (.pwrwarnWithdraw) := of_none rfl
theorem trip : ∀ a b, Statement (.trip a b) := fun _ _ => of_none rfl
theorem apexStop : Statement (.apexStop) := of_none rfl
theorem refclkLoss : ∀ a, Statement (.refclkLoss a) := fun _ => of_none rfl
theorem freezeNAssert : Statement (.freezeNAssert) := of_none rfl
theorem sectionRequest : ∀ a, Statement (.sectionRequest a) := fun _ => of_none rfl
theorem thaw : Statement (.thaw) := of_none rfl
theorem sectionRead : Statement (.sectionRead) := of_none rfl
theorem idcode : Statement (.idcode) := of_none rfl
theorem bypass : Statement (.bypass) := of_none rfl
theorem perstRelease : Statement (.perstRelease) := of_none rfl
theorem powerLoss : Statement (.powerLoss) := of_none rfl
theorem correctedError : ∀ a b c, Statement (.correctedError a b c) := fun _ _ _ => of_none rfl
theorem singleUpset : ∀ a b c, Statement (.singleUpset a b c) := fun _ _ _ => of_none rfl
theorem triplicatedRead : ∀ a b, Statement (.triplicatedRead a b) := fun _ _ => of_none rfl

end Sys2Proof.Laws.F
end

