-- ==== Sys2Proof/Laws/State.lean ====
section
/-! SUPPORT. The small lemmas of State: what each setter leaves (one lemma per field, true by definition) and what the
accessors read after it. Reading back needs the tables in order (Sys2Proof/Safety.lean's State.Wf). -/

namespace Sys2Proof.Machine

/-! setFacet -/
@[simp] theorem State.setFacet_pending (s : State) (f : Nat) (v : Facet) : (s.setFacet f v).pending = s.pending := rfl
@[simp] theorem State.setFacet_fresh (s : State) (f : Nat) (v : Facet) : (s.setFacet f v).fresh = s.fresh := rfl
@[simp] theorem State.setFacet_limClock (s : State) (f : Nat) (v : Facet) : (s.setFacet f v).limClock = s.limClock := rfl
@[simp] theorem State.setFacet_time (s : State) (f : Nat) (v : Facet) : (s.setFacet f v).time = s.time := rfl
@[simp] theorem State.setFacet_out (s : State) (f : Nat) (v : Facet) : (s.setFacet f v).out = s.out := rfl
@[simp] theorem State.setFacet_nv (s : State) (f : Nat) (v : Facet) : (s.setFacet f v).nv = s.nv := rfl
@[simp] theorem State.setFacet_host (s : State) (f : Nat) (v : Facet) : (s.setFacet f v).host = s.host := rfl
@[simp] theorem State.setFacet_regs (s : State) (f : Nat) (v : Facet) : (s.setFacet f v).regs = s.regs := rfl
@[simp] theorem State.setFacet_ctr (s : State) (f : Nat) (v : Facet) : (s.setFacet f v).ctr = s.ctr := rfl
@[simp] theorem State.setFacet_mem (s : State) (f : Nat) (v : Facet) : (s.setFacet f v).mem = s.mem := rfl
@[simp] theorem State.setFacet_poison (s : State) (f : Nat) (v : Facet) : (s.setFacet f v).poison = s.poison := rfl
@[simp] theorem State.setFacet_ues (s : State) (f : Nat) (v : Facet) : (s.setFacet f v).ues = s.ues := rfl
@[simp] theorem State.setFacet_classBits (s : State) (f : Nat) (v : Facet) : (s.setFacet f v).classBits = s.classBits := rfl
@[simp] theorem State.setFacet_gran (s : State) (f : Nat) (v : Facet) : (s.setFacet f v).gran = s.gran := rfl
@[simp] theorem State.setFacet_dir (s : State) (f : Nat) (v : Facet) : (s.setFacet f v).dir = s.dir := rfl
@[simp] theorem State.setFacet_waitWrites (s : State) (f : Nat) (v : Facet) : (s.setFacet f v).waitWrites = s.waitWrites := rfl
@[simp] theorem State.setFacet_promos (s : State) (f : Nat) (v : Facet) : (s.setFacet f v).promos = s.promos := rfl
@[simp] theorem State.setFacet_memctl (s : State) (f : Nat) (v : Facet) : (s.setFacet f v).memctl = s.memctl := rfl
@[simp] theorem State.setFacet_xings (s : State) (f : Nat) (v : Facet) : (s.setFacet f v).xings = s.xings := rfl
@[simp] theorem State.setFacet_arbs (s : State) (f : Nat) (v : Facet) : (s.setFacet f v).arbs = s.arbs := rfl
@[simp] theorem State.setFacet_beats (s : State) (f : Nat) (v : Facet) : (s.setFacet f v).beats = s.beats := rfl
@[simp] theorem State.setFacet_active (s : State) (f : Nat) (v : Facet) : (s.setFacet f v).active = s.active := rfl
@[simp] theorem State.setFacet_gangs (s : State) (f : Nat) (v : Facet) : (s.setFacet f v).gangs = s.gangs := rfl
@[simp] theorem State.setFacet_seqTab (s : State) (f : Nat) (v : Facet) : (s.setFacet f v).seqTab = s.seqTab := rfl
@[simp] theorem State.setFacet_queues (s : State) (f : Nat) (v : Facet) : (s.setFacet f v).queues = s.queues := rfl
@[simp] theorem State.setFacet_posts (s : State) (f : Nat) (v : Facet) : (s.setFacet f v).posts = s.posts := rfl
@[simp] theorem State.setFacet_fns (s : State) (f : Nat) (v : Facet) : (s.setFacet f v).fns = s.fns := rfl
@[simp] theorem State.setFacet_tces (s : State) (f : Nat) (v : Facet) : (s.setFacet f v).tces = s.tces := rfl
@[simp] theorem State.setFacet_codecs (s : State) (f : Nat) (v : Facet) : (s.setFacet f v).codecs = s.codecs := rfl
@[simp] theorem State.setFacet_ctxs (s : State) (f : Nat) (v : Facet) : (s.setFacet f v).ctxs = s.ctxs := rfl
@[simp] theorem State.setFacet_ops (s : State) (f : Nat) (v : Facet) : (s.setFacet f v).ops = s.ops := rfl
@[simp] theorem State.setFacet_nextTag (s : State) (f : Nat) (v : Facet) : (s.setFacet f v).nextTag = s.nextTag := rfl
@[simp] theorem State.setFacet_txDue (s : State) (f : Nat) (v : Facet) : (s.setFacet f v).txDue = s.txDue := rfl
@[simp] theorem State.setFacet_txSeq (s : State) (f : Nat) (v : Facet) : (s.setFacet f v).txSeq = s.txSeq := rfl
@[simp] theorem State.setFacet_ports (s : State) (f : Nat) (v : Facet) : (s.setFacet f v).ports = s.ports := rfl
@[simp] theorem State.setFacet_inject (s : State) (f : Nat) (v : Facet) : (s.setFacet f v).inject = s.inject := rfl
@[simp] theorem State.setFacet_injected (s : State) (f : Nat) (v : Facet) : (s.setFacet f v).injected = s.injected := rfl
@[simp] theorem State.setFacet_routes (s : State) (f : Nat) (v : Facet) : (s.setFacet f v).routes = s.routes := rfl
@[simp] theorem State.setFacet_linkMap (s : State) (f : Nat) (v : Facet) : (s.setFacet f v).linkMap = s.linkMap := rfl
@[simp] theorem State.setFacet_meridian (s : State) (f : Nat) (v : Facet) : (s.setFacet f v).meridian = s.meridian := rfl
@[simp] theorem State.setFacet_boot (s : State) (f : Nat) (v : Facet) : (s.setFacet f v).boot = s.boot := rfl
@[simp] theorem State.setFacet_gasp (s : State) (f : Nat) (v : Facet) : (s.setFacet f v).gasp = s.gasp := rfl
@[simp] theorem State.setFacet_power (s : State) (f : Nat) (v : Facet) : (s.setFacet f v).power = s.power := rfl
@[simp] theorem State.setFacet_freeze (s : State) (f : Nat) (v : Facet) : (s.setFacet f v).freeze = s.freeze := rfl
@[simp] theorem State.setFacet_halted (s : State) (f : Nat) (v : Facet) : (s.setFacet f v).halted = s.halted := rfl
@[simp] theorem State.setFacet_units (s : State) (f : Nat) (v : Facet) : (s.setFacet f v).units = s.units := rfl
@[simp] theorem State.setFacet_parts (s : State) (f : Nat) (v : Facet) : (s.setFacet f v).parts = s.parts := rfl
@[simp] theorem State.setFacet_pins (s : State) (f : Nat) (v : Facet) : (s.setFacet f v).pins = s.pins := rfl
@[simp] theorem State.setFacet_clocks (s : State) (f : Nat) (v : Facet) : (s.setFacet f v).clocks = s.clocks := rfl
@[simp] theorem State.setFacet_watch (s : State) (f : Nat) (v : Facet) : (s.setFacet f v).watch = s.watch := rfl
@[simp] theorem State.setFacet_link (s : State) (f : Nat) (v : Facet) : (s.setFacet f v).link = s.link := rfl
@[simp] theorem State.setFacet_tests (s : State) (f : Nat) (v : Facet) : (s.setFacet f v).tests = s.tests := rfl
@[simp] theorem State.setFacet_get_queue (s : State) (f : Nat) (v : Facet) (k : Nat) : (s.setFacet f v).queue k = s.queue k := rfl
@[simp] theorem State.setFacet_get_fn (s : State) (f : Nat) (v : Facet) (k : Nat) : (s.setFacet f v).fn k = s.fn k := rfl
@[simp] theorem State.setFacet_get_tce (s : State) (f : Nat) (v : Facet) (k : Nat) : (s.setFacet f v).tce k = s.tce k := rfl
@[simp] theorem State.setFacet_get_codec (s : State) (f : Nat) (v : Facet) (k : Nat) : (s.setFacet f v).codec k = s.codec k := rfl
@[simp] theorem State.setFacet_get_port (s : State) (f : Nat) (v : Facet) (k : Nat) : (s.setFacet f v).port k = s.port k := rfl
@[simp] theorem State.setFacet_get_memCtl (s : State) (f : Nat) (v : Facet) (k : Nat) : (s.setFacet f v).memCtl k = s.memCtl k := rfl
@[simp] theorem State.setFacet_get_xing (s : State) (f : Nat) (v : Facet) (k : Nat) : (s.setFacet f v).xing k = s.xing k := rfl
@[simp] theorem State.setFacet_get_arb (s : State) (f : Nat) (v : Facet) (k : Nat) : (s.setFacet f v).arb k = s.arb k := rfl
@[simp] theorem State.setFacet_get_granProc (s : State) (f : Nat) (v : Facet) (k : Nat) : (s.setFacet f v).granProc k = s.granProc k := rfl
@[simp] theorem State.setFacet_get_unit (s : State) (f : Nat) (v : Facet) (k : Nat) : (s.setFacet f v).unit k = s.unit k := rfl
@[simp] theorem State.setFacet_get_part (s : State) (f : Nat) (v : Facet) (k : Nat) : (s.setFacet f v).part k = s.part k := rfl
@[simp] theorem State.setFacet_get_op (s : State) (f : Nat) (v : Facet) (k : Nat) : (s.setFacet f v).op k = s.op k := rfl
@[simp] theorem State.setFacet_get_dirEntry (s : State) (f : Nat) (v : Facet) (k : Nat) : (s.setFacet f v).dirEntry k = s.dirEntry k := rfl
@[simp] theorem State.setFacet_get_counter (s : State) (f : Nat) (v : Facet) (k : Nat) : (s.setFacet f v).counter k = s.counter k := rfl
@[simp] theorem State.setFacet_get_ctx (s : State) (f : Nat) (v : Facet) (k m : Nat) : (s.setFacet f v).ctx k m = s.ctx k m := rfl
@[simp] theorem State.setFacet_get_cell (s : State) (f : Nat) (v : Facet) (r : Reg) : (s.setFacet f v).cell r = s.cell r := rfl
@[simp] theorem State.setFacet_get_val (s : State) (f : Nat) (v : Facet) (r : Reg) : (s.setFacet f v).val r = s.val r := rfl
@[simp] theorem State.setFacet_get_get (s : State) (f : Nat) (v : Facet) (r : Reg) (i j : Nat) : (s.setFacet f v).get r i j = s.get r i j := rfl
@[simp] theorem State.setFacet_get_upset (s : State) (f : Nat) (v : Facet) : (s.setFacet f v).upset = s.upset := rfl
@[simp] theorem State.setFacet_get_live (s : State) (f : Nat) (v : Facet) : (s.setFacet f v).live = s.live := rfl

/-! setQueue -/
@[simp] theorem State.setQueue_pending (s : State) (q : Nat) (v : Queue) : (s.setQueue q v).pending = s.pending := rfl
@[simp] theorem State.setQueue_fresh (s : State) (q : Nat) (v : Queue) : (s.setQueue q v).fresh = s.fresh := rfl
@[simp] theorem State.setQueue_limClock (s : State) (q : Nat) (v : Queue) : (s.setQueue q v).limClock = s.limClock := rfl
@[simp] theorem State.setQueue_time (s : State) (q : Nat) (v : Queue) : (s.setQueue q v).time = s.time := rfl
@[simp] theorem State.setQueue_out (s : State) (q : Nat) (v : Queue) : (s.setQueue q v).out = s.out := rfl
@[simp] theorem State.setQueue_nv (s : State) (q : Nat) (v : Queue) : (s.setQueue q v).nv = s.nv := rfl
@[simp] theorem State.setQueue_host (s : State) (q : Nat) (v : Queue) : (s.setQueue q v).host = s.host := rfl
@[simp] theorem State.setQueue_regs (s : State) (q : Nat) (v : Queue) : (s.setQueue q v).regs = s.regs := rfl
@[simp] theorem State.setQueue_ctr (s : State) (q : Nat) (v : Queue) : (s.setQueue q v).ctr = s.ctr := rfl
@[simp] theorem State.setQueue_mem (s : State) (q : Nat) (v : Queue) : (s.setQueue q v).mem = s.mem := rfl
@[simp] theorem State.setQueue_poison (s : State) (q : Nat) (v : Queue) : (s.setQueue q v).poison = s.poison := rfl
@[simp] theorem State.setQueue_ues (s : State) (q : Nat) (v : Queue) : (s.setQueue q v).ues = s.ues := rfl
@[simp] theorem State.setQueue_classBits (s : State) (q : Nat) (v : Queue) : (s.setQueue q v).classBits = s.classBits := rfl
@[simp] theorem State.setQueue_gran (s : State) (q : Nat) (v : Queue) : (s.setQueue q v).gran = s.gran := rfl
@[simp] theorem State.setQueue_dir (s : State) (q : Nat) (v : Queue) : (s.setQueue q v).dir = s.dir := rfl
@[simp] theorem State.setQueue_waitWrites (s : State) (q : Nat) (v : Queue) : (s.setQueue q v).waitWrites = s.waitWrites := rfl
@[simp] theorem State.setQueue_promos (s : State) (q : Nat) (v : Queue) : (s.setQueue q v).promos = s.promos := rfl
@[simp] theorem State.setQueue_memctl (s : State) (q : Nat) (v : Queue) : (s.setQueue q v).memctl = s.memctl := rfl
@[simp] theorem State.setQueue_xings (s : State) (q : Nat) (v : Queue) : (s.setQueue q v).xings = s.xings := rfl
@[simp] theorem State.setQueue_arbs (s : State) (q : Nat) (v : Queue) : (s.setQueue q v).arbs = s.arbs := rfl
@[simp] theorem State.setQueue_beats (s : State) (q : Nat) (v : Queue) : (s.setQueue q v).beats = s.beats := rfl
@[simp] theorem State.setQueue_active (s : State) (q : Nat) (v : Queue) : (s.setQueue q v).active = s.active := rfl
@[simp] theorem State.setQueue_facets (s : State) (q : Nat) (v : Queue) : (s.setQueue q v).facets = s.facets := rfl
@[simp] theorem State.setQueue_gangs (s : State) (q : Nat) (v : Queue) : (s.setQueue q v).gangs = s.gangs := rfl
@[simp] theorem State.setQueue_seqTab (s : State) (q : Nat) (v : Queue) : (s.setQueue q v).seqTab = s.seqTab := rfl
@[simp] theorem State.setQueue_posts (s : State) (q : Nat) (v : Queue) : (s.setQueue q v).posts = s.posts := rfl
@[simp] theorem State.setQueue_fns (s : State) (q : Nat) (v : Queue) : (s.setQueue q v).fns = s.fns := rfl
@[simp] theorem State.setQueue_tces (s : State) (q : Nat) (v : Queue) : (s.setQueue q v).tces = s.tces := rfl
@[simp] theorem State.setQueue_codecs (s : State) (q : Nat) (v : Queue) : (s.setQueue q v).codecs = s.codecs := rfl
@[simp] theorem State.setQueue_ctxs (s : State) (q : Nat) (v : Queue) : (s.setQueue q v).ctxs = s.ctxs := rfl
@[simp] theorem State.setQueue_ops (s : State) (q : Nat) (v : Queue) : (s.setQueue q v).ops = s.ops := rfl
@[simp] theorem State.setQueue_nextTag (s : State) (q : Nat) (v : Queue) : (s.setQueue q v).nextTag = s.nextTag := rfl
@[simp] theorem State.setQueue_txDue (s : State) (q : Nat) (v : Queue) : (s.setQueue q v).txDue = s.txDue := rfl
@[simp] theorem State.setQueue_txSeq (s : State) (q : Nat) (v : Queue) : (s.setQueue q v).txSeq = s.txSeq := rfl
@[simp] theorem State.setQueue_ports (s : State) (q : Nat) (v : Queue) : (s.setQueue q v).ports = s.ports := rfl
@[simp] theorem State.setQueue_inject (s : State) (q : Nat) (v : Queue) : (s.setQueue q v).inject = s.inject := rfl
@[simp] theorem State.setQueue_injected (s : State) (q : Nat) (v : Queue) : (s.setQueue q v).injected = s.injected := rfl
@[simp] theorem State.setQueue_routes (s : State) (q : Nat) (v : Queue) : (s.setQueue q v).routes = s.routes := rfl
@[simp] theorem State.setQueue_linkMap (s : State) (q : Nat) (v : Queue) : (s.setQueue q v).linkMap = s.linkMap := rfl
@[simp] theorem State.setQueue_meridian (s : State) (q : Nat) (v : Queue) : (s.setQueue q v).meridian = s.meridian := rfl
@[simp] theorem State.setQueue_boot (s : State) (q : Nat) (v : Queue) : (s.setQueue q v).boot = s.boot := rfl
@[simp] theorem State.setQueue_gasp (s : State) (q : Nat) (v : Queue) : (s.setQueue q v).gasp = s.gasp := rfl
@[simp] theorem State.setQueue_power (s : State) (q : Nat) (v : Queue) : (s.setQueue q v).power = s.power := rfl
@[simp] theorem State.setQueue_freeze (s : State) (q : Nat) (v : Queue) : (s.setQueue q v).freeze = s.freeze := rfl
@[simp] theorem State.setQueue_halted (s : State) (q : Nat) (v : Queue) : (s.setQueue q v).halted = s.halted := rfl
@[simp] theorem State.setQueue_units (s : State) (q : Nat) (v : Queue) : (s.setQueue q v).units = s.units := rfl
@[simp] theorem State.setQueue_parts (s : State) (q : Nat) (v : Queue) : (s.setQueue q v).parts = s.parts := rfl
@[simp] theorem State.setQueue_pins (s : State) (q : Nat) (v : Queue) : (s.setQueue q v).pins = s.pins := rfl
@[simp] theorem State.setQueue_clocks (s : State) (q : Nat) (v : Queue) : (s.setQueue q v).clocks = s.clocks := rfl
@[simp] theorem State.setQueue_watch (s : State) (q : Nat) (v : Queue) : (s.setQueue q v).watch = s.watch := rfl
@[simp] theorem State.setQueue_link (s : State) (q : Nat) (v : Queue) : (s.setQueue q v).link = s.link := rfl
@[simp] theorem State.setQueue_tests (s : State) (q : Nat) (v : Queue) : (s.setQueue q v).tests = s.tests := rfl
@[simp] theorem State.setQueue_get_facet (s : State) (q : Nat) (v : Queue) (k : Nat) : (s.setQueue q v).facet k = s.facet k := rfl
@[simp] theorem State.setQueue_get_fn (s : State) (q : Nat) (v : Queue) (k : Nat) : (s.setQueue q v).fn k = s.fn k := rfl
@[simp] theorem State.setQueue_get_tce (s : State) (q : Nat) (v : Queue) (k : Nat) : (s.setQueue q v).tce k = s.tce k := rfl
@[simp] theorem State.setQueue_get_codec (s : State) (q : Nat) (v : Queue) (k : Nat) : (s.setQueue q v).codec k = s.codec k := rfl
@[simp] theorem State.setQueue_get_port (s : State) (q : Nat) (v : Queue) (k : Nat) : (s.setQueue q v).port k = s.port k := rfl
@[simp] theorem State.setQueue_get_memCtl (s : State) (q : Nat) (v : Queue) (k : Nat) : (s.setQueue q v).memCtl k = s.memCtl k := rfl
@[simp] theorem State.setQueue_get_xing (s : State) (q : Nat) (v : Queue) (k : Nat) : (s.setQueue q v).xing k = s.xing k := rfl
@[simp] theorem State.setQueue_get_arb (s : State) (q : Nat) (v : Queue) (k : Nat) : (s.setQueue q v).arb k = s.arb k := rfl
@[simp] theorem State.setQueue_get_granProc (s : State) (q : Nat) (v : Queue) (k : Nat) : (s.setQueue q v).granProc k = s.granProc k := rfl
@[simp] theorem State.setQueue_get_unit (s : State) (q : Nat) (v : Queue) (k : Nat) : (s.setQueue q v).unit k = s.unit k := rfl
@[simp] theorem State.setQueue_get_part (s : State) (q : Nat) (v : Queue) (k : Nat) : (s.setQueue q v).part k = s.part k := rfl
@[simp] theorem State.setQueue_get_op (s : State) (q : Nat) (v : Queue) (k : Nat) : (s.setQueue q v).op k = s.op k := rfl
@[simp] theorem State.setQueue_get_dirEntry (s : State) (q : Nat) (v : Queue) (k : Nat) : (s.setQueue q v).dirEntry k = s.dirEntry k := rfl
@[simp] theorem State.setQueue_get_counter (s : State) (q : Nat) (v : Queue) (k : Nat) : (s.setQueue q v).counter k = s.counter k := rfl
@[simp] theorem State.setQueue_get_ctx (s : State) (q : Nat) (v : Queue) (k m : Nat) : (s.setQueue q v).ctx k m = s.ctx k m := rfl
@[simp] theorem State.setQueue_get_cell (s : State) (q : Nat) (v : Queue) (r : Reg) : (s.setQueue q v).cell r = s.cell r := rfl
@[simp] theorem State.setQueue_get_val (s : State) (q : Nat) (v : Queue) (r : Reg) : (s.setQueue q v).val r = s.val r := rfl
@[simp] theorem State.setQueue_get_get (s : State) (q : Nat) (v : Queue) (r : Reg) (i j : Nat) : (s.setQueue q v).get r i j = s.get r i j := rfl
@[simp] theorem State.setQueue_get_upset (s : State) (q : Nat) (v : Queue) : (s.setQueue q v).upset = s.upset := rfl
@[simp] theorem State.setQueue_get_live (s : State) (q : Nat) (v : Queue) : (s.setQueue q v).live = s.live := rfl

/-! setFn -/
@[simp] theorem State.setFn_pending (s : State) (n : Nat) (v : FnState) : (s.setFn n v).pending = s.pending := rfl
@[simp] theorem State.setFn_fresh (s : State) (n : Nat) (v : FnState) : (s.setFn n v).fresh = s.fresh := rfl
@[simp] theorem State.setFn_limClock (s : State) (n : Nat) (v : FnState) : (s.setFn n v).limClock = s.limClock := rfl
@[simp] theorem State.setFn_time (s : State) (n : Nat) (v : FnState) : (s.setFn n v).time = s.time := rfl
@[simp] theorem State.setFn_out (s : State) (n : Nat) (v : FnState) : (s.setFn n v).out = s.out := rfl
@[simp] theorem State.setFn_nv (s : State) (n : Nat) (v : FnState) : (s.setFn n v).nv = s.nv := rfl
@[simp] theorem State.setFn_host (s : State) (n : Nat) (v : FnState) : (s.setFn n v).host = s.host := rfl
@[simp] theorem State.setFn_regs (s : State) (n : Nat) (v : FnState) : (s.setFn n v).regs = s.regs := rfl
@[simp] theorem State.setFn_ctr (s : State) (n : Nat) (v : FnState) : (s.setFn n v).ctr = s.ctr := rfl
@[simp] theorem State.setFn_mem (s : State) (n : Nat) (v : FnState) : (s.setFn n v).mem = s.mem := rfl
@[simp] theorem State.setFn_poison (s : State) (n : Nat) (v : FnState) : (s.setFn n v).poison = s.poison := rfl
@[simp] theorem State.setFn_ues (s : State) (n : Nat) (v : FnState) : (s.setFn n v).ues = s.ues := rfl
@[simp] theorem State.setFn_classBits (s : State) (n : Nat) (v : FnState) : (s.setFn n v).classBits = s.classBits := rfl
@[simp] theorem State.setFn_gran (s : State) (n : Nat) (v : FnState) : (s.setFn n v).gran = s.gran := rfl
@[simp] theorem State.setFn_dir (s : State) (n : Nat) (v : FnState) : (s.setFn n v).dir = s.dir := rfl
@[simp] theorem State.setFn_waitWrites (s : State) (n : Nat) (v : FnState) : (s.setFn n v).waitWrites = s.waitWrites := rfl
@[simp] theorem State.setFn_promos (s : State) (n : Nat) (v : FnState) : (s.setFn n v).promos = s.promos := rfl
@[simp] theorem State.setFn_memctl (s : State) (n : Nat) (v : FnState) : (s.setFn n v).memctl = s.memctl := rfl
@[simp] theorem State.setFn_xings (s : State) (n : Nat) (v : FnState) : (s.setFn n v).xings = s.xings := rfl
@[simp] theorem State.setFn_arbs (s : State) (n : Nat) (v : FnState) : (s.setFn n v).arbs = s.arbs := rfl
@[simp] theorem State.setFn_beats (s : State) (n : Nat) (v : FnState) : (s.setFn n v).beats = s.beats := rfl
@[simp] theorem State.setFn_active (s : State) (n : Nat) (v : FnState) : (s.setFn n v).active = s.active := rfl
@[simp] theorem State.setFn_facets (s : State) (n : Nat) (v : FnState) : (s.setFn n v).facets = s.facets := rfl
@[simp] theorem State.setFn_gangs (s : State) (n : Nat) (v : FnState) : (s.setFn n v).gangs = s.gangs := rfl
@[simp] theorem State.setFn_seqTab (s : State) (n : Nat) (v : FnState) : (s.setFn n v).seqTab = s.seqTab := rfl
@[simp] theorem State.setFn_queues (s : State) (n : Nat) (v : FnState) : (s.setFn n v).queues = s.queues := rfl
@[simp] theorem State.setFn_posts (s : State) (n : Nat) (v : FnState) : (s.setFn n v).posts = s.posts := rfl
@[simp] theorem State.setFn_tces (s : State) (n : Nat) (v : FnState) : (s.setFn n v).tces = s.tces := rfl
@[simp] theorem State.setFn_codecs (s : State) (n : Nat) (v : FnState) : (s.setFn n v).codecs = s.codecs := rfl
@[simp] theorem State.setFn_ctxs (s : State) (n : Nat) (v : FnState) : (s.setFn n v).ctxs = s.ctxs := rfl
@[simp] theorem State.setFn_ops (s : State) (n : Nat) (v : FnState) : (s.setFn n v).ops = s.ops := rfl
@[simp] theorem State.setFn_nextTag (s : State) (n : Nat) (v : FnState) : (s.setFn n v).nextTag = s.nextTag := rfl
@[simp] theorem State.setFn_txDue (s : State) (n : Nat) (v : FnState) : (s.setFn n v).txDue = s.txDue := rfl
@[simp] theorem State.setFn_txSeq (s : State) (n : Nat) (v : FnState) : (s.setFn n v).txSeq = s.txSeq := rfl
@[simp] theorem State.setFn_ports (s : State) (n : Nat) (v : FnState) : (s.setFn n v).ports = s.ports := rfl
@[simp] theorem State.setFn_inject (s : State) (n : Nat) (v : FnState) : (s.setFn n v).inject = s.inject := rfl
@[simp] theorem State.setFn_injected (s : State) (n : Nat) (v : FnState) : (s.setFn n v).injected = s.injected := rfl
@[simp] theorem State.setFn_routes (s : State) (n : Nat) (v : FnState) : (s.setFn n v).routes = s.routes := rfl
@[simp] theorem State.setFn_linkMap (s : State) (n : Nat) (v : FnState) : (s.setFn n v).linkMap = s.linkMap := rfl
@[simp] theorem State.setFn_meridian (s : State) (n : Nat) (v : FnState) : (s.setFn n v).meridian = s.meridian := rfl
@[simp] theorem State.setFn_boot (s : State) (n : Nat) (v : FnState) : (s.setFn n v).boot = s.boot := rfl
@[simp] theorem State.setFn_gasp (s : State) (n : Nat) (v : FnState) : (s.setFn n v).gasp = s.gasp := rfl
@[simp] theorem State.setFn_power (s : State) (n : Nat) (v : FnState) : (s.setFn n v).power = s.power := rfl
@[simp] theorem State.setFn_freeze (s : State) (n : Nat) (v : FnState) : (s.setFn n v).freeze = s.freeze := rfl
@[simp] theorem State.setFn_halted (s : State) (n : Nat) (v : FnState) : (s.setFn n v).halted = s.halted := rfl
@[simp] theorem State.setFn_units (s : State) (n : Nat) (v : FnState) : (s.setFn n v).units = s.units := rfl
@[simp] theorem State.setFn_parts (s : State) (n : Nat) (v : FnState) : (s.setFn n v).parts = s.parts := rfl
@[simp] theorem State.setFn_pins (s : State) (n : Nat) (v : FnState) : (s.setFn n v).pins = s.pins := rfl
@[simp] theorem State.setFn_clocks (s : State) (n : Nat) (v : FnState) : (s.setFn n v).clocks = s.clocks := rfl
@[simp] theorem State.setFn_watch (s : State) (n : Nat) (v : FnState) : (s.setFn n v).watch = s.watch := rfl
@[simp] theorem State.setFn_link (s : State) (n : Nat) (v : FnState) : (s.setFn n v).link = s.link := rfl
@[simp] theorem State.setFn_tests (s : State) (n : Nat) (v : FnState) : (s.setFn n v).tests = s.tests := rfl
@[simp] theorem State.setFn_get_facet (s : State) (n : Nat) (v : FnState) (k : Nat) : (s.setFn n v).facet k = s.facet k := rfl
@[simp] theorem State.setFn_get_queue (s : State) (n : Nat) (v : FnState) (k : Nat) : (s.setFn n v).queue k = s.queue k := rfl
@[simp] theorem State.setFn_get_tce (s : State) (n : Nat) (v : FnState) (k : Nat) : (s.setFn n v).tce k = s.tce k := rfl
@[simp] theorem State.setFn_get_codec (s : State) (n : Nat) (v : FnState) (k : Nat) : (s.setFn n v).codec k = s.codec k := rfl
@[simp] theorem State.setFn_get_port (s : State) (n : Nat) (v : FnState) (k : Nat) : (s.setFn n v).port k = s.port k := rfl
@[simp] theorem State.setFn_get_memCtl (s : State) (n : Nat) (v : FnState) (k : Nat) : (s.setFn n v).memCtl k = s.memCtl k := rfl
@[simp] theorem State.setFn_get_xing (s : State) (n : Nat) (v : FnState) (k : Nat) : (s.setFn n v).xing k = s.xing k := rfl
@[simp] theorem State.setFn_get_arb (s : State) (n : Nat) (v : FnState) (k : Nat) : (s.setFn n v).arb k = s.arb k := rfl
@[simp] theorem State.setFn_get_granProc (s : State) (n : Nat) (v : FnState) (k : Nat) : (s.setFn n v).granProc k = s.granProc k := rfl
@[simp] theorem State.setFn_get_unit (s : State) (n : Nat) (v : FnState) (k : Nat) : (s.setFn n v).unit k = s.unit k := rfl
@[simp] theorem State.setFn_get_part (s : State) (n : Nat) (v : FnState) (k : Nat) : (s.setFn n v).part k = s.part k := rfl
@[simp] theorem State.setFn_get_op (s : State) (n : Nat) (v : FnState) (k : Nat) : (s.setFn n v).op k = s.op k := rfl
@[simp] theorem State.setFn_get_dirEntry (s : State) (n : Nat) (v : FnState) (k : Nat) : (s.setFn n v).dirEntry k = s.dirEntry k := rfl
@[simp] theorem State.setFn_get_counter (s : State) (n : Nat) (v : FnState) (k : Nat) : (s.setFn n v).counter k = s.counter k := rfl
@[simp] theorem State.setFn_get_ctx (s : State) (n : Nat) (v : FnState) (k m : Nat) : (s.setFn n v).ctx k m = s.ctx k m := rfl
@[simp] theorem State.setFn_get_cell (s : State) (n : Nat) (v : FnState) (r : Reg) : (s.setFn n v).cell r = s.cell r := rfl
@[simp] theorem State.setFn_get_val (s : State) (n : Nat) (v : FnState) (r : Reg) : (s.setFn n v).val r = s.val r := rfl
@[simp] theorem State.setFn_get_get (s : State) (n : Nat) (v : FnState) (r : Reg) (i j : Nat) : (s.setFn n v).get r i j = s.get r i j := rfl
@[simp] theorem State.setFn_get_upset (s : State) (n : Nat) (v : FnState) : (s.setFn n v).upset = s.upset := rfl
@[simp] theorem State.setFn_get_live (s : State) (n : Nat) (v : FnState) : (s.setFn n v).live = s.live := rfl

/-! setTce -/
@[simp] theorem State.setTce_pending (s : State) (e : Nat) (v : Tce) : (s.setTce e v).pending = s.pending := rfl
@[simp] theorem State.setTce_fresh (s : State) (e : Nat) (v : Tce) : (s.setTce e v).fresh = s.fresh := rfl
@[simp] theorem State.setTce_limClock (s : State) (e : Nat) (v : Tce) : (s.setTce e v).limClock = s.limClock := rfl
@[simp] theorem State.setTce_time (s : State) (e : Nat) (v : Tce) : (s.setTce e v).time = s.time := rfl
@[simp] theorem State.setTce_out (s : State) (e : Nat) (v : Tce) : (s.setTce e v).out = s.out := rfl
@[simp] theorem State.setTce_nv (s : State) (e : Nat) (v : Tce) : (s.setTce e v).nv = s.nv := rfl
@[simp] theorem State.setTce_host (s : State) (e : Nat) (v : Tce) : (s.setTce e v).host = s.host := rfl
@[simp] theorem State.setTce_regs (s : State) (e : Nat) (v : Tce) : (s.setTce e v).regs = s.regs := rfl
@[simp] theorem State.setTce_ctr (s : State) (e : Nat) (v : Tce) : (s.setTce e v).ctr = s.ctr := rfl
@[simp] theorem State.setTce_mem (s : State) (e : Nat) (v : Tce) : (s.setTce e v).mem = s.mem := rfl
@[simp] theorem State.setTce_poison (s : State) (e : Nat) (v : Tce) : (s.setTce e v).poison = s.poison := rfl
@[simp] theorem State.setTce_ues (s : State) (e : Nat) (v : Tce) : (s.setTce e v).ues = s.ues := rfl
@[simp] theorem State.setTce_classBits (s : State) (e : Nat) (v : Tce) : (s.setTce e v).classBits = s.classBits := rfl
@[simp] theorem State.setTce_gran (s : State) (e : Nat) (v : Tce) : (s.setTce e v).gran = s.gran := rfl
@[simp] theorem State.setTce_dir (s : State) (e : Nat) (v : Tce) : (s.setTce e v).dir = s.dir := rfl
@[simp] theorem State.setTce_waitWrites (s : State) (e : Nat) (v : Tce) : (s.setTce e v).waitWrites = s.waitWrites := rfl
@[simp] theorem State.setTce_promos (s : State) (e : Nat) (v : Tce) : (s.setTce e v).promos = s.promos := rfl
@[simp] theorem State.setTce_memctl (s : State) (e : Nat) (v : Tce) : (s.setTce e v).memctl = s.memctl := rfl
@[simp] theorem State.setTce_xings (s : State) (e : Nat) (v : Tce) : (s.setTce e v).xings = s.xings := rfl
@[simp] theorem State.setTce_arbs (s : State) (e : Nat) (v : Tce) : (s.setTce e v).arbs = s.arbs := rfl
@[simp] theorem State.setTce_beats (s : State) (e : Nat) (v : Tce) : (s.setTce e v).beats = s.beats := rfl
@[simp] theorem State.setTce_active (s : State) (e : Nat) (v : Tce) : (s.setTce e v).active = s.active := rfl
@[simp] theorem State.setTce_facets (s : State) (e : Nat) (v : Tce) : (s.setTce e v).facets = s.facets := rfl
@[simp] theorem State.setTce_gangs (s : State) (e : Nat) (v : Tce) : (s.setTce e v).gangs = s.gangs := rfl
@[simp] theorem State.setTce_seqTab (s : State) (e : Nat) (v : Tce) : (s.setTce e v).seqTab = s.seqTab := rfl
@[simp] theorem State.setTce_queues (s : State) (e : Nat) (v : Tce) : (s.setTce e v).queues = s.queues := rfl
@[simp] theorem State.setTce_posts (s : State) (e : Nat) (v : Tce) : (s.setTce e v).posts = s.posts := rfl
@[simp] theorem State.setTce_fns (s : State) (e : Nat) (v : Tce) : (s.setTce e v).fns = s.fns := rfl
@[simp] theorem State.setTce_codecs (s : State) (e : Nat) (v : Tce) : (s.setTce e v).codecs = s.codecs := rfl
@[simp] theorem State.setTce_ctxs (s : State) (e : Nat) (v : Tce) : (s.setTce e v).ctxs = s.ctxs := rfl
@[simp] theorem State.setTce_ops (s : State) (e : Nat) (v : Tce) : (s.setTce e v).ops = s.ops := rfl
@[simp] theorem State.setTce_nextTag (s : State) (e : Nat) (v : Tce) : (s.setTce e v).nextTag = s.nextTag := rfl
@[simp] theorem State.setTce_txDue (s : State) (e : Nat) (v : Tce) : (s.setTce e v).txDue = s.txDue := rfl
@[simp] theorem State.setTce_txSeq (s : State) (e : Nat) (v : Tce) : (s.setTce e v).txSeq = s.txSeq := rfl
@[simp] theorem State.setTce_ports (s : State) (e : Nat) (v : Tce) : (s.setTce e v).ports = s.ports := rfl
@[simp] theorem State.setTce_inject (s : State) (e : Nat) (v : Tce) : (s.setTce e v).inject = s.inject := rfl
@[simp] theorem State.setTce_injected (s : State) (e : Nat) (v : Tce) : (s.setTce e v).injected = s.injected := rfl
@[simp] theorem State.setTce_routes (s : State) (e : Nat) (v : Tce) : (s.setTce e v).routes = s.routes := rfl
@[simp] theorem State.setTce_linkMap (s : State) (e : Nat) (v : Tce) : (s.setTce e v).linkMap = s.linkMap := rfl
@[simp] theorem State.setTce_meridian (s : State) (e : Nat) (v : Tce) : (s.setTce e v).meridian = s.meridian := rfl
@[simp] theorem State.setTce_boot (s : State) (e : Nat) (v : Tce) : (s.setTce e v).boot = s.boot := rfl
@[simp] theorem State.setTce_gasp (s : State) (e : Nat) (v : Tce) : (s.setTce e v).gasp = s.gasp := rfl
@[simp] theorem State.setTce_power (s : State) (e : Nat) (v : Tce) : (s.setTce e v).power = s.power := rfl
@[simp] theorem State.setTce_freeze (s : State) (e : Nat) (v : Tce) : (s.setTce e v).freeze = s.freeze := rfl
@[simp] theorem State.setTce_halted (s : State) (e : Nat) (v : Tce) : (s.setTce e v).halted = s.halted := rfl
@[simp] theorem State.setTce_units (s : State) (e : Nat) (v : Tce) : (s.setTce e v).units = s.units := rfl
@[simp] theorem State.setTce_parts (s : State) (e : Nat) (v : Tce) : (s.setTce e v).parts = s.parts := rfl
@[simp] theorem State.setTce_pins (s : State) (e : Nat) (v : Tce) : (s.setTce e v).pins = s.pins := rfl
@[simp] theorem State.setTce_clocks (s : State) (e : Nat) (v : Tce) : (s.setTce e v).clocks = s.clocks := rfl
@[simp] theorem State.setTce_watch (s : State) (e : Nat) (v : Tce) : (s.setTce e v).watch = s.watch := rfl
@[simp] theorem State.setTce_link (s : State) (e : Nat) (v : Tce) : (s.setTce e v).link = s.link := rfl
@[simp] theorem State.setTce_tests (s : State) (e : Nat) (v : Tce) : (s.setTce e v).tests = s.tests := rfl
@[simp] theorem State.setTce_get_facet (s : State) (e : Nat) (v : Tce) (k : Nat) : (s.setTce e v).facet k = s.facet k := rfl
@[simp] theorem State.setTce_get_queue (s : State) (e : Nat) (v : Tce) (k : Nat) : (s.setTce e v).queue k = s.queue k := rfl
@[simp] theorem State.setTce_get_fn (s : State) (e : Nat) (v : Tce) (k : Nat) : (s.setTce e v).fn k = s.fn k := rfl
@[simp] theorem State.setTce_get_codec (s : State) (e : Nat) (v : Tce) (k : Nat) : (s.setTce e v).codec k = s.codec k := rfl
@[simp] theorem State.setTce_get_port (s : State) (e : Nat) (v : Tce) (k : Nat) : (s.setTce e v).port k = s.port k := rfl
@[simp] theorem State.setTce_get_memCtl (s : State) (e : Nat) (v : Tce) (k : Nat) : (s.setTce e v).memCtl k = s.memCtl k := rfl
@[simp] theorem State.setTce_get_xing (s : State) (e : Nat) (v : Tce) (k : Nat) : (s.setTce e v).xing k = s.xing k := rfl
@[simp] theorem State.setTce_get_arb (s : State) (e : Nat) (v : Tce) (k : Nat) : (s.setTce e v).arb k = s.arb k := rfl
@[simp] theorem State.setTce_get_granProc (s : State) (e : Nat) (v : Tce) (k : Nat) : (s.setTce e v).granProc k = s.granProc k := rfl
@[simp] theorem State.setTce_get_unit (s : State) (e : Nat) (v : Tce) (k : Nat) : (s.setTce e v).unit k = s.unit k := rfl
@[simp] theorem State.setTce_get_part (s : State) (e : Nat) (v : Tce) (k : Nat) : (s.setTce e v).part k = s.part k := rfl
@[simp] theorem State.setTce_get_op (s : State) (e : Nat) (v : Tce) (k : Nat) : (s.setTce e v).op k = s.op k := rfl
@[simp] theorem State.setTce_get_dirEntry (s : State) (e : Nat) (v : Tce) (k : Nat) : (s.setTce e v).dirEntry k = s.dirEntry k := rfl
@[simp] theorem State.setTce_get_counter (s : State) (e : Nat) (v : Tce) (k : Nat) : (s.setTce e v).counter k = s.counter k := rfl
@[simp] theorem State.setTce_get_ctx (s : State) (e : Nat) (v : Tce) (k m : Nat) : (s.setTce e v).ctx k m = s.ctx k m := rfl
@[simp] theorem State.setTce_get_cell (s : State) (e : Nat) (v : Tce) (r : Reg) : (s.setTce e v).cell r = s.cell r := rfl
@[simp] theorem State.setTce_get_val (s : State) (e : Nat) (v : Tce) (r : Reg) : (s.setTce e v).val r = s.val r := rfl
@[simp] theorem State.setTce_get_get (s : State) (e : Nat) (v : Tce) (r : Reg) (i j : Nat) : (s.setTce e v).get r i j = s.get r i j := rfl
@[simp] theorem State.setTce_get_upset (s : State) (e : Nat) (v : Tce) : (s.setTce e v).upset = s.upset := rfl
@[simp] theorem State.setTce_get_live (s : State) (e : Nat) (v : Tce) : (s.setTce e v).live = s.live := rfl

/-! setCodec -/
@[simp] theorem State.setCodec_pending (s : State) (c : Nat) (v : Codec) : (s.setCodec c v).pending = s.pending := rfl
@[simp] theorem State.setCodec_fresh (s : State) (c : Nat) (v : Codec) : (s.setCodec c v).fresh = s.fresh := rfl
@[simp] theorem State.setCodec_limClock (s : State) (c : Nat) (v : Codec) : (s.setCodec c v).limClock = s.limClock := rfl
@[simp] theorem State.setCodec_time (s : State) (c : Nat) (v : Codec) : (s.setCodec c v).time = s.time := rfl
@[simp] theorem State.setCodec_out (s : State) (c : Nat) (v : Codec) : (s.setCodec c v).out = s.out := rfl
@[simp] theorem State.setCodec_nv (s : State) (c : Nat) (v : Codec) : (s.setCodec c v).nv = s.nv := rfl
@[simp] theorem State.setCodec_host (s : State) (c : Nat) (v : Codec) : (s.setCodec c v).host = s.host := rfl
@[simp] theorem State.setCodec_regs (s : State) (c : Nat) (v : Codec) : (s.setCodec c v).regs = s.regs := rfl
@[simp] theorem State.setCodec_ctr (s : State) (c : Nat) (v : Codec) : (s.setCodec c v).ctr = s.ctr := rfl
@[simp] theorem State.setCodec_mem (s : State) (c : Nat) (v : Codec) : (s.setCodec c v).mem = s.mem := rfl
@[simp] theorem State.setCodec_poison (s : State) (c : Nat) (v : Codec) : (s.setCodec c v).poison = s.poison := rfl
@[simp] theorem State.setCodec_ues (s : State) (c : Nat) (v : Codec) : (s.setCodec c v).ues = s.ues := rfl
@[simp] theorem State.setCodec_classBits (s : State) (c : Nat) (v : Codec) : (s.setCodec c v).classBits = s.classBits := rfl
@[simp] theorem State.setCodec_gran (s : State) (c : Nat) (v : Codec) : (s.setCodec c v).gran = s.gran := rfl
@[simp] theorem State.setCodec_dir (s : State) (c : Nat) (v : Codec) : (s.setCodec c v).dir = s.dir := rfl
@[simp] theorem State.setCodec_waitWrites (s : State) (c : Nat) (v : Codec) : (s.setCodec c v).waitWrites = s.waitWrites := rfl
@[simp] theorem State.setCodec_promos (s : State) (c : Nat) (v : Codec) : (s.setCodec c v).promos = s.promos := rfl
@[simp] theorem State.setCodec_memctl (s : State) (c : Nat) (v : Codec) : (s.setCodec c v).memctl = s.memctl := rfl
@[simp] theorem State.setCodec_xings (s : State) (c : Nat) (v : Codec) : (s.setCodec c v).xings = s.xings := rfl
@[simp] theorem State.setCodec_arbs (s : State) (c : Nat) (v : Codec) : (s.setCodec c v).arbs = s.arbs := rfl
@[simp] theorem State.setCodec_beats (s : State) (c : Nat) (v : Codec) : (s.setCodec c v).beats = s.beats := rfl
@[simp] theorem State.setCodec_active (s : State) (c : Nat) (v : Codec) : (s.setCodec c v).active = s.active := rfl
@[simp] theorem State.setCodec_facets (s : State) (c : Nat) (v : Codec) : (s.setCodec c v).facets = s.facets := rfl
@[simp] theorem State.setCodec_gangs (s : State) (c : Nat) (v : Codec) : (s.setCodec c v).gangs = s.gangs := rfl
@[simp] theorem State.setCodec_seqTab (s : State) (c : Nat) (v : Codec) : (s.setCodec c v).seqTab = s.seqTab := rfl
@[simp] theorem State.setCodec_queues (s : State) (c : Nat) (v : Codec) : (s.setCodec c v).queues = s.queues := rfl
@[simp] theorem State.setCodec_posts (s : State) (c : Nat) (v : Codec) : (s.setCodec c v).posts = s.posts := rfl
@[simp] theorem State.setCodec_fns (s : State) (c : Nat) (v : Codec) : (s.setCodec c v).fns = s.fns := rfl
@[simp] theorem State.setCodec_tces (s : State) (c : Nat) (v : Codec) : (s.setCodec c v).tces = s.tces := rfl
@[simp] theorem State.setCodec_ctxs (s : State) (c : Nat) (v : Codec) : (s.setCodec c v).ctxs = s.ctxs := rfl
@[simp] theorem State.setCodec_ops (s : State) (c : Nat) (v : Codec) : (s.setCodec c v).ops = s.ops := rfl
@[simp] theorem State.setCodec_nextTag (s : State) (c : Nat) (v : Codec) : (s.setCodec c v).nextTag = s.nextTag := rfl
@[simp] theorem State.setCodec_txDue (s : State) (c : Nat) (v : Codec) : (s.setCodec c v).txDue = s.txDue := rfl
@[simp] theorem State.setCodec_txSeq (s : State) (c : Nat) (v : Codec) : (s.setCodec c v).txSeq = s.txSeq := rfl
@[simp] theorem State.setCodec_ports (s : State) (c : Nat) (v : Codec) : (s.setCodec c v).ports = s.ports := rfl
@[simp] theorem State.setCodec_inject (s : State) (c : Nat) (v : Codec) : (s.setCodec c v).inject = s.inject := rfl
@[simp] theorem State.setCodec_injected (s : State) (c : Nat) (v : Codec) : (s.setCodec c v).injected = s.injected := rfl
@[simp] theorem State.setCodec_routes (s : State) (c : Nat) (v : Codec) : (s.setCodec c v).routes = s.routes := rfl
@[simp] theorem State.setCodec_linkMap (s : State) (c : Nat) (v : Codec) : (s.setCodec c v).linkMap = s.linkMap := rfl
@[simp] theorem State.setCodec_meridian (s : State) (c : Nat) (v : Codec) : (s.setCodec c v).meridian = s.meridian := rfl
@[simp] theorem State.setCodec_boot (s : State) (c : Nat) (v : Codec) : (s.setCodec c v).boot = s.boot := rfl
@[simp] theorem State.setCodec_gasp (s : State) (c : Nat) (v : Codec) : (s.setCodec c v).gasp = s.gasp := rfl
@[simp] theorem State.setCodec_power (s : State) (c : Nat) (v : Codec) : (s.setCodec c v).power = s.power := rfl
@[simp] theorem State.setCodec_freeze (s : State) (c : Nat) (v : Codec) : (s.setCodec c v).freeze = s.freeze := rfl
@[simp] theorem State.setCodec_halted (s : State) (c : Nat) (v : Codec) : (s.setCodec c v).halted = s.halted := rfl
@[simp] theorem State.setCodec_units (s : State) (c : Nat) (v : Codec) : (s.setCodec c v).units = s.units := rfl
@[simp] theorem State.setCodec_parts (s : State) (c : Nat) (v : Codec) : (s.setCodec c v).parts = s.parts := rfl
@[simp] theorem State.setCodec_pins (s : State) (c : Nat) (v : Codec) : (s.setCodec c v).pins = s.pins := rfl
@[simp] theorem State.setCodec_clocks (s : State) (c : Nat) (v : Codec) : (s.setCodec c v).clocks = s.clocks := rfl
@[simp] theorem State.setCodec_watch (s : State) (c : Nat) (v : Codec) : (s.setCodec c v).watch = s.watch := rfl
@[simp] theorem State.setCodec_link (s : State) (c : Nat) (v : Codec) : (s.setCodec c v).link = s.link := rfl
@[simp] theorem State.setCodec_tests (s : State) (c : Nat) (v : Codec) : (s.setCodec c v).tests = s.tests := rfl
@[simp] theorem State.setCodec_get_facet (s : State) (c : Nat) (v : Codec) (k : Nat) : (s.setCodec c v).facet k = s.facet k := rfl
@[simp] theorem State.setCodec_get_queue (s : State) (c : Nat) (v : Codec) (k : Nat) : (s.setCodec c v).queue k = s.queue k := rfl
@[simp] theorem State.setCodec_get_fn (s : State) (c : Nat) (v : Codec) (k : Nat) : (s.setCodec c v).fn k = s.fn k := rfl
@[simp] theorem State.setCodec_get_tce (s : State) (c : Nat) (v : Codec) (k : Nat) : (s.setCodec c v).tce k = s.tce k := rfl
@[simp] theorem State.setCodec_get_port (s : State) (c : Nat) (v : Codec) (k : Nat) : (s.setCodec c v).port k = s.port k := rfl
@[simp] theorem State.setCodec_get_memCtl (s : State) (c : Nat) (v : Codec) (k : Nat) : (s.setCodec c v).memCtl k = s.memCtl k := rfl
@[simp] theorem State.setCodec_get_xing (s : State) (c : Nat) (v : Codec) (k : Nat) : (s.setCodec c v).xing k = s.xing k := rfl
@[simp] theorem State.setCodec_get_arb (s : State) (c : Nat) (v : Codec) (k : Nat) : (s.setCodec c v).arb k = s.arb k := rfl
@[simp] theorem State.setCodec_get_granProc (s : State) (c : Nat) (v : Codec) (k : Nat) : (s.setCodec c v).granProc k = s.granProc k := rfl
@[simp] theorem State.setCodec_get_unit (s : State) (c : Nat) (v : Codec) (k : Nat) : (s.setCodec c v).unit k = s.unit k := rfl
@[simp] theorem State.setCodec_get_part (s : State) (c : Nat) (v : Codec) (k : Nat) : (s.setCodec c v).part k = s.part k := rfl
@[simp] theorem State.setCodec_get_op (s : State) (c : Nat) (v : Codec) (k : Nat) : (s.setCodec c v).op k = s.op k := rfl
@[simp] theorem State.setCodec_get_dirEntry (s : State) (c : Nat) (v : Codec) (k : Nat) : (s.setCodec c v).dirEntry k = s.dirEntry k := rfl
@[simp] theorem State.setCodec_get_counter (s : State) (c : Nat) (v : Codec) (k : Nat) : (s.setCodec c v).counter k = s.counter k := rfl
@[simp] theorem State.setCodec_get_ctx (s : State) (c : Nat) (v : Codec) (k m : Nat) : (s.setCodec c v).ctx k m = s.ctx k m := rfl
@[simp] theorem State.setCodec_get_cell (s : State) (c : Nat) (v : Codec) (r : Reg) : (s.setCodec c v).cell r = s.cell r := rfl
@[simp] theorem State.setCodec_get_val (s : State) (c : Nat) (v : Codec) (r : Reg) : (s.setCodec c v).val r = s.val r := rfl
@[simp] theorem State.setCodec_get_get (s : State) (c : Nat) (v : Codec) (r : Reg) (i j : Nat) : (s.setCodec c v).get r i j = s.get r i j := rfl
@[simp] theorem State.setCodec_get_upset (s : State) (c : Nat) (v : Codec) : (s.setCodec c v).upset = s.upset := rfl
@[simp] theorem State.setCodec_get_live (s : State) (c : Nat) (v : Codec) : (s.setCodec c v).live = s.live := rfl

/-! setPort -/
@[simp] theorem State.setPort_pending (s : State) (p : Nat) (v : Port) : (s.setPort p v).pending = s.pending := rfl
@[simp] theorem State.setPort_fresh (s : State) (p : Nat) (v : Port) : (s.setPort p v).fresh = s.fresh := rfl
@[simp] theorem State.setPort_limClock (s : State) (p : Nat) (v : Port) : (s.setPort p v).limClock = s.limClock := rfl
@[simp] theorem State.setPort_time (s : State) (p : Nat) (v : Port) : (s.setPort p v).time = s.time := rfl
@[simp] theorem State.setPort_out (s : State) (p : Nat) (v : Port) : (s.setPort p v).out = s.out := rfl
@[simp] theorem State.setPort_nv (s : State) (p : Nat) (v : Port) : (s.setPort p v).nv = s.nv := rfl
@[simp] theorem State.setPort_host (s : State) (p : Nat) (v : Port) : (s.setPort p v).host = s.host := rfl
@[simp] theorem State.setPort_regs (s : State) (p : Nat) (v : Port) : (s.setPort p v).regs = s.regs := rfl
@[simp] theorem State.setPort_ctr (s : State) (p : Nat) (v : Port) : (s.setPort p v).ctr = s.ctr := rfl
@[simp] theorem State.setPort_mem (s : State) (p : Nat) (v : Port) : (s.setPort p v).mem = s.mem := rfl
@[simp] theorem State.setPort_poison (s : State) (p : Nat) (v : Port) : (s.setPort p v).poison = s.poison := rfl
@[simp] theorem State.setPort_ues (s : State) (p : Nat) (v : Port) : (s.setPort p v).ues = s.ues := rfl
@[simp] theorem State.setPort_classBits (s : State) (p : Nat) (v : Port) : (s.setPort p v).classBits = s.classBits := rfl
@[simp] theorem State.setPort_gran (s : State) (p : Nat) (v : Port) : (s.setPort p v).gran = s.gran := rfl
@[simp] theorem State.setPort_dir (s : State) (p : Nat) (v : Port) : (s.setPort p v).dir = s.dir := rfl
@[simp] theorem State.setPort_waitWrites (s : State) (p : Nat) (v : Port) : (s.setPort p v).waitWrites = s.waitWrites := rfl
@[simp] theorem State.setPort_promos (s : State) (p : Nat) (v : Port) : (s.setPort p v).promos = s.promos := rfl
@[simp] theorem State.setPort_memctl (s : State) (p : Nat) (v : Port) : (s.setPort p v).memctl = s.memctl := rfl
@[simp] theorem State.setPort_xings (s : State) (p : Nat) (v : Port) : (s.setPort p v).xings = s.xings := rfl
@[simp] theorem State.setPort_arbs (s : State) (p : Nat) (v : Port) : (s.setPort p v).arbs = s.arbs := rfl
@[simp] theorem State.setPort_beats (s : State) (p : Nat) (v : Port) : (s.setPort p v).beats = s.beats := rfl
@[simp] theorem State.setPort_active (s : State) (p : Nat) (v : Port) : (s.setPort p v).active = s.active := rfl
@[simp] theorem State.setPort_facets (s : State) (p : Nat) (v : Port) : (s.setPort p v).facets = s.facets := rfl
@[simp] theorem State.setPort_gangs (s : State) (p : Nat) (v : Port) : (s.setPort p v).gangs = s.gangs := rfl
@[simp] theorem State.setPort_seqTab (s : State) (p : Nat) (v : Port) : (s.setPort p v).seqTab = s.seqTab := rfl
@[simp] theorem State.setPort_queues (s : State) (p : Nat) (v : Port) : (s.setPort p v).queues = s.queues := rfl
@[simp] theorem State.setPort_posts (s : State) (p : Nat) (v : Port) : (s.setPort p v).posts = s.posts := rfl
@[simp] theorem State.setPort_fns (s : State) (p : Nat) (v : Port) : (s.setPort p v).fns = s.fns := rfl
@[simp] theorem State.setPort_tces (s : State) (p : Nat) (v : Port) : (s.setPort p v).tces = s.tces := rfl
@[simp] theorem State.setPort_codecs (s : State) (p : Nat) (v : Port) : (s.setPort p v).codecs = s.codecs := rfl
@[simp] theorem State.setPort_ctxs (s : State) (p : Nat) (v : Port) : (s.setPort p v).ctxs = s.ctxs := rfl
@[simp] theorem State.setPort_ops (s : State) (p : Nat) (v : Port) : (s.setPort p v).ops = s.ops := rfl
@[simp] theorem State.setPort_nextTag (s : State) (p : Nat) (v : Port) : (s.setPort p v).nextTag = s.nextTag := rfl
@[simp] theorem State.setPort_txDue (s : State) (p : Nat) (v : Port) : (s.setPort p v).txDue = s.txDue := rfl
@[simp] theorem State.setPort_txSeq (s : State) (p : Nat) (v : Port) : (s.setPort p v).txSeq = s.txSeq := rfl
@[simp] theorem State.setPort_inject (s : State) (p : Nat) (v : Port) : (s.setPort p v).inject = s.inject := rfl
@[simp] theorem State.setPort_injected (s : State) (p : Nat) (v : Port) : (s.setPort p v).injected = s.injected := rfl
@[simp] theorem State.setPort_routes (s : State) (p : Nat) (v : Port) : (s.setPort p v).routes = s.routes := rfl
@[simp] theorem State.setPort_linkMap (s : State) (p : Nat) (v : Port) : (s.setPort p v).linkMap = s.linkMap := rfl
@[simp] theorem State.setPort_meridian (s : State) (p : Nat) (v : Port) : (s.setPort p v).meridian = s.meridian := rfl
@[simp] theorem State.setPort_boot (s : State) (p : Nat) (v : Port) : (s.setPort p v).boot = s.boot := rfl
@[simp] theorem State.setPort_gasp (s : State) (p : Nat) (v : Port) : (s.setPort p v).gasp = s.gasp := rfl
@[simp] theorem State.setPort_power (s : State) (p : Nat) (v : Port) : (s.setPort p v).power = s.power := rfl
@[simp] theorem State.setPort_freeze (s : State) (p : Nat) (v : Port) : (s.setPort p v).freeze = s.freeze := rfl
@[simp] theorem State.setPort_halted (s : State) (p : Nat) (v : Port) : (s.setPort p v).halted = s.halted := rfl
@[simp] theorem State.setPort_units (s : State) (p : Nat) (v : Port) : (s.setPort p v).units = s.units := rfl
@[simp] theorem State.setPort_parts (s : State) (p : Nat) (v : Port) : (s.setPort p v).parts = s.parts := rfl
@[simp] theorem State.setPort_pins (s : State) (p : Nat) (v : Port) : (s.setPort p v).pins = s.pins := rfl
@[simp] theorem State.setPort_clocks (s : State) (p : Nat) (v : Port) : (s.setPort p v).clocks = s.clocks := rfl
@[simp] theorem State.setPort_watch (s : State) (p : Nat) (v : Port) : (s.setPort p v).watch = s.watch := rfl
@[simp] theorem State.setPort_link (s : State) (p : Nat) (v : Port) : (s.setPort p v).link = s.link := rfl
@[simp] theorem State.setPort_tests (s : State) (p : Nat) (v : Port) : (s.setPort p v).tests = s.tests := rfl
@[simp] theorem State.setPort_get_facet (s : State) (p : Nat) (v : Port) (k : Nat) : (s.setPort p v).facet k = s.facet k := rfl
@[simp] theorem State.setPort_get_queue (s : State) (p : Nat) (v : Port) (k : Nat) : (s.setPort p v).queue k = s.queue k := rfl
@[simp] theorem State.setPort_get_fn (s : State) (p : Nat) (v : Port) (k : Nat) : (s.setPort p v).fn k = s.fn k := rfl
@[simp] theorem State.setPort_get_tce (s : State) (p : Nat) (v : Port) (k : Nat) : (s.setPort p v).tce k = s.tce k := rfl
@[simp] theorem State.setPort_get_codec (s : State) (p : Nat) (v : Port) (k : Nat) : (s.setPort p v).codec k = s.codec k := rfl
@[simp] theorem State.setPort_get_memCtl (s : State) (p : Nat) (v : Port) (k : Nat) : (s.setPort p v).memCtl k = s.memCtl k := rfl
@[simp] theorem State.setPort_get_xing (s : State) (p : Nat) (v : Port) (k : Nat) : (s.setPort p v).xing k = s.xing k := rfl
@[simp] theorem State.setPort_get_arb (s : State) (p : Nat) (v : Port) (k : Nat) : (s.setPort p v).arb k = s.arb k := rfl
@[simp] theorem State.setPort_get_granProc (s : State) (p : Nat) (v : Port) (k : Nat) : (s.setPort p v).granProc k = s.granProc k := rfl
@[simp] theorem State.setPort_get_unit (s : State) (p : Nat) (v : Port) (k : Nat) : (s.setPort p v).unit k = s.unit k := rfl
@[simp] theorem State.setPort_get_part (s : State) (p : Nat) (v : Port) (k : Nat) : (s.setPort p v).part k = s.part k := rfl
@[simp] theorem State.setPort_get_op (s : State) (p : Nat) (v : Port) (k : Nat) : (s.setPort p v).op k = s.op k := rfl
@[simp] theorem State.setPort_get_dirEntry (s : State) (p : Nat) (v : Port) (k : Nat) : (s.setPort p v).dirEntry k = s.dirEntry k := rfl
@[simp] theorem State.setPort_get_counter (s : State) (p : Nat) (v : Port) (k : Nat) : (s.setPort p v).counter k = s.counter k := rfl
@[simp] theorem State.setPort_get_ctx (s : State) (p : Nat) (v : Port) (k m : Nat) : (s.setPort p v).ctx k m = s.ctx k m := rfl
@[simp] theorem State.setPort_get_cell (s : State) (p : Nat) (v : Port) (r : Reg) : (s.setPort p v).cell r = s.cell r := rfl
@[simp] theorem State.setPort_get_val (s : State) (p : Nat) (v : Port) (r : Reg) : (s.setPort p v).val r = s.val r := rfl
@[simp] theorem State.setPort_get_get (s : State) (p : Nat) (v : Port) (r : Reg) (i j : Nat) : (s.setPort p v).get r i j = s.get r i j := rfl
@[simp] theorem State.setPort_get_upset (s : State) (p : Nat) (v : Port) : (s.setPort p v).upset = s.upset := rfl
@[simp] theorem State.setPort_get_live (s : State) (p : Nat) (v : Port) : (s.setPort p v).live = s.live := rfl

/-! setMemCtl -/
@[simp] theorem State.setMemCtl_pending (s : State) (n : Nat) (v : MemCtl) : (s.setMemCtl n v).pending = s.pending := rfl
@[simp] theorem State.setMemCtl_fresh (s : State) (n : Nat) (v : MemCtl) : (s.setMemCtl n v).fresh = s.fresh := rfl
@[simp] theorem State.setMemCtl_limClock (s : State) (n : Nat) (v : MemCtl) : (s.setMemCtl n v).limClock = s.limClock := rfl
@[simp] theorem State.setMemCtl_time (s : State) (n : Nat) (v : MemCtl) : (s.setMemCtl n v).time = s.time := rfl
@[simp] theorem State.setMemCtl_out (s : State) (n : Nat) (v : MemCtl) : (s.setMemCtl n v).out = s.out := rfl
@[simp] theorem State.setMemCtl_nv (s : State) (n : Nat) (v : MemCtl) : (s.setMemCtl n v).nv = s.nv := rfl
@[simp] theorem State.setMemCtl_host (s : State) (n : Nat) (v : MemCtl) : (s.setMemCtl n v).host = s.host := rfl
@[simp] theorem State.setMemCtl_regs (s : State) (n : Nat) (v : MemCtl) : (s.setMemCtl n v).regs = s.regs := rfl
@[simp] theorem State.setMemCtl_ctr (s : State) (n : Nat) (v : MemCtl) : (s.setMemCtl n v).ctr = s.ctr := rfl
@[simp] theorem State.setMemCtl_mem (s : State) (n : Nat) (v : MemCtl) : (s.setMemCtl n v).mem = s.mem := rfl
@[simp] theorem State.setMemCtl_poison (s : State) (n : Nat) (v : MemCtl) : (s.setMemCtl n v).poison = s.poison := rfl
@[simp] theorem State.setMemCtl_ues (s : State) (n : Nat) (v : MemCtl) : (s.setMemCtl n v).ues = s.ues := rfl
@[simp] theorem State.setMemCtl_classBits (s : State) (n : Nat) (v : MemCtl) : (s.setMemCtl n v).classBits = s.classBits := rfl
@[simp] theorem State.setMemCtl_gran (s : State) (n : Nat) (v : MemCtl) : (s.setMemCtl n v).gran = s.gran := rfl
@[simp] theorem State.setMemCtl_dir (s : State) (n : Nat) (v : MemCtl) : (s.setMemCtl n v).dir = s.dir := rfl
@[simp] theorem State.setMemCtl_waitWrites (s : State) (n : Nat) (v : MemCtl) : (s.setMemCtl n v).waitWrites = s.waitWrites := rfl
@[simp] theorem State.setMemCtl_promos (s : State) (n : Nat) (v : MemCtl) : (s.setMemCtl n v).promos = s.promos := rfl
@[simp] theorem State.setMemCtl_arbs (s : State) (n : Nat) (v : MemCtl) : (s.setMemCtl n v).arbs = s.arbs := rfl
@[simp] theorem State.setMemCtl_xings (s : State) (n : Nat) (v : MemCtl) : (s.setMemCtl n v).xings = s.xings := rfl
@[simp] theorem State.setMemCtl_beats (s : State) (n : Nat) (v : MemCtl) : (s.setMemCtl n v).beats = s.beats := rfl
@[simp] theorem State.setMemCtl_active (s : State) (n : Nat) (v : MemCtl) : (s.setMemCtl n v).active = s.active := rfl
@[simp] theorem State.setMemCtl_facets (s : State) (n : Nat) (v : MemCtl) : (s.setMemCtl n v).facets = s.facets := rfl
@[simp] theorem State.setMemCtl_gangs (s : State) (n : Nat) (v : MemCtl) : (s.setMemCtl n v).gangs = s.gangs := rfl
@[simp] theorem State.setMemCtl_seqTab (s : State) (n : Nat) (v : MemCtl) : (s.setMemCtl n v).seqTab = s.seqTab := rfl
@[simp] theorem State.setMemCtl_queues (s : State) (n : Nat) (v : MemCtl) : (s.setMemCtl n v).queues = s.queues := rfl
@[simp] theorem State.setMemCtl_posts (s : State) (n : Nat) (v : MemCtl) : (s.setMemCtl n v).posts = s.posts := rfl
@[simp] theorem State.setMemCtl_fns (s : State) (n : Nat) (v : MemCtl) : (s.setMemCtl n v).fns = s.fns := rfl
@[simp] theorem State.setMemCtl_tces (s : State) (n : Nat) (v : MemCtl) : (s.setMemCtl n v).tces = s.tces := rfl
@[simp] theorem State.setMemCtl_codecs (s : State) (n : Nat) (v : MemCtl) : (s.setMemCtl n v).codecs = s.codecs := rfl
@[simp] theorem State.setMemCtl_ctxs (s : State) (n : Nat) (v : MemCtl) : (s.setMemCtl n v).ctxs = s.ctxs := rfl
@[simp] theorem State.setMemCtl_ops (s : State) (n : Nat) (v : MemCtl) : (s.setMemCtl n v).ops = s.ops := rfl
@[simp] theorem State.setMemCtl_nextTag (s : State) (n : Nat) (v : MemCtl) : (s.setMemCtl n v).nextTag = s.nextTag := rfl
@[simp] theorem State.setMemCtl_txDue (s : State) (n : Nat) (v : MemCtl) : (s.setMemCtl n v).txDue = s.txDue := rfl
@[simp] theorem State.setMemCtl_txSeq (s : State) (n : Nat) (v : MemCtl) : (s.setMemCtl n v).txSeq = s.txSeq := rfl
@[simp] theorem State.setMemCtl_ports (s : State) (n : Nat) (v : MemCtl) : (s.setMemCtl n v).ports = s.ports := rfl
@[simp] theorem State.setMemCtl_inject (s : State) (n : Nat) (v : MemCtl) : (s.setMemCtl n v).inject = s.inject := rfl
@[simp] theorem State.setMemCtl_injected (s : State) (n : Nat) (v : MemCtl) : (s.setMemCtl n v).injected = s.injected := rfl
@[simp] theorem State.setMemCtl_routes (s : State) (n : Nat) (v : MemCtl) : (s.setMemCtl n v).routes = s.routes := rfl
@[simp] theorem State.setMemCtl_linkMap (s : State) (n : Nat) (v : MemCtl) : (s.setMemCtl n v).linkMap = s.linkMap := rfl
@[simp] theorem State.setMemCtl_meridian (s : State) (n : Nat) (v : MemCtl) : (s.setMemCtl n v).meridian = s.meridian := rfl
@[simp] theorem State.setMemCtl_boot (s : State) (n : Nat) (v : MemCtl) : (s.setMemCtl n v).boot = s.boot := rfl
@[simp] theorem State.setMemCtl_gasp (s : State) (n : Nat) (v : MemCtl) : (s.setMemCtl n v).gasp = s.gasp := rfl
@[simp] theorem State.setMemCtl_power (s : State) (n : Nat) (v : MemCtl) : (s.setMemCtl n v).power = s.power := rfl
@[simp] theorem State.setMemCtl_freeze (s : State) (n : Nat) (v : MemCtl) : (s.setMemCtl n v).freeze = s.freeze := rfl
@[simp] theorem State.setMemCtl_halted (s : State) (n : Nat) (v : MemCtl) : (s.setMemCtl n v).halted = s.halted := rfl
@[simp] theorem State.setMemCtl_units (s : State) (n : Nat) (v : MemCtl) : (s.setMemCtl n v).units = s.units := rfl
@[simp] theorem State.setMemCtl_parts (s : State) (n : Nat) (v : MemCtl) : (s.setMemCtl n v).parts = s.parts := rfl
@[simp] theorem State.setMemCtl_pins (s : State) (n : Nat) (v : MemCtl) : (s.setMemCtl n v).pins = s.pins := rfl
@[simp] theorem State.setMemCtl_clocks (s : State) (n : Nat) (v : MemCtl) : (s.setMemCtl n v).clocks = s.clocks := rfl
@[simp] theorem State.setMemCtl_watch (s : State) (n : Nat) (v : MemCtl) : (s.setMemCtl n v).watch = s.watch := rfl
@[simp] theorem State.setMemCtl_link (s : State) (n : Nat) (v : MemCtl) : (s.setMemCtl n v).link = s.link := rfl
@[simp] theorem State.setMemCtl_tests (s : State) (n : Nat) (v : MemCtl) : (s.setMemCtl n v).tests = s.tests := rfl
@[simp] theorem State.setMemCtl_get_facet (s : State) (n : Nat) (v : MemCtl) (k : Nat) : (s.setMemCtl n v).facet k = s.facet k := rfl
@[simp] theorem State.setMemCtl_get_queue (s : State) (n : Nat) (v : MemCtl) (k : Nat) : (s.setMemCtl n v).queue k = s.queue k := rfl
@[simp] theorem State.setMemCtl_get_fn (s : State) (n : Nat) (v : MemCtl) (k : Nat) : (s.setMemCtl n v).fn k = s.fn k := rfl
@[simp] theorem State.setMemCtl_get_tce (s : State) (n : Nat) (v : MemCtl) (k : Nat) : (s.setMemCtl n v).tce k = s.tce k := rfl
@[simp] theorem State.setMemCtl_get_codec (s : State) (n : Nat) (v : MemCtl) (k : Nat) : (s.setMemCtl n v).codec k = s.codec k := rfl
@[simp] theorem State.setMemCtl_get_port (s : State) (n : Nat) (v : MemCtl) (k : Nat) : (s.setMemCtl n v).port k = s.port k := rfl
@[simp] theorem State.setMemCtl_get_arb (s : State) (n : Nat) (v : MemCtl) (k : Nat) : (s.setMemCtl n v).arb k = s.arb k := rfl
@[simp] theorem State.setMemCtl_get_xing (s : State) (n : Nat) (v : MemCtl) (k : Nat) : (s.setMemCtl n v).xing k = s.xing k := rfl
@[simp] theorem State.setMemCtl_get_granProc (s : State) (n : Nat) (v : MemCtl) (k : Nat) : (s.setMemCtl n v).granProc k = s.granProc k := rfl
@[simp] theorem State.setMemCtl_get_unit (s : State) (n : Nat) (v : MemCtl) (k : Nat) : (s.setMemCtl n v).unit k = s.unit k := rfl
@[simp] theorem State.setMemCtl_get_part (s : State) (n : Nat) (v : MemCtl) (k : Nat) : (s.setMemCtl n v).part k = s.part k := rfl
@[simp] theorem State.setMemCtl_get_op (s : State) (n : Nat) (v : MemCtl) (k : Nat) : (s.setMemCtl n v).op k = s.op k := rfl
@[simp] theorem State.setMemCtl_get_dirEntry (s : State) (n : Nat) (v : MemCtl) (k : Nat) : (s.setMemCtl n v).dirEntry k = s.dirEntry k := rfl
@[simp] theorem State.setMemCtl_get_counter (s : State) (n : Nat) (v : MemCtl) (k : Nat) : (s.setMemCtl n v).counter k = s.counter k := rfl
@[simp] theorem State.setMemCtl_get_ctx (s : State) (n : Nat) (v : MemCtl) (k m : Nat) : (s.setMemCtl n v).ctx k m = s.ctx k m := rfl
@[simp] theorem State.setMemCtl_get_cell (s : State) (n : Nat) (v : MemCtl) (r : Reg) : (s.setMemCtl n v).cell r = s.cell r := rfl
@[simp] theorem State.setMemCtl_get_val (s : State) (n : Nat) (v : MemCtl) (r : Reg) : (s.setMemCtl n v).val r = s.val r := rfl
@[simp] theorem State.setMemCtl_get_get (s : State) (n : Nat) (v : MemCtl) (r : Reg) (i j : Nat) : (s.setMemCtl n v).get r i j = s.get r i j := rfl
@[simp] theorem State.setMemCtl_get_upset (s : State) (n : Nat) (v : MemCtl) : (s.setMemCtl n v).upset = s.upset := rfl
@[simp] theorem State.setMemCtl_get_live (s : State) (n : Nat) (v : MemCtl) : (s.setMemCtl n v).live = s.live := rfl

/-! setArb -/
@[simp] theorem State.setArb_pending (s : State) (a : Nat) (v : Arbiter) : (s.setArb a v).pending = s.pending := rfl
@[simp] theorem State.setArb_fresh (s : State) (a : Nat) (v : Arbiter) : (s.setArb a v).fresh = s.fresh := rfl
@[simp] theorem State.setArb_limClock (s : State) (a : Nat) (v : Arbiter) : (s.setArb a v).limClock = s.limClock := rfl
@[simp] theorem State.setArb_time (s : State) (a : Nat) (v : Arbiter) : (s.setArb a v).time = s.time := rfl
@[simp] theorem State.setArb_out (s : State) (a : Nat) (v : Arbiter) : (s.setArb a v).out = s.out := rfl
@[simp] theorem State.setArb_nv (s : State) (a : Nat) (v : Arbiter) : (s.setArb a v).nv = s.nv := rfl
@[simp] theorem State.setArb_host (s : State) (a : Nat) (v : Arbiter) : (s.setArb a v).host = s.host := rfl
@[simp] theorem State.setArb_regs (s : State) (a : Nat) (v : Arbiter) : (s.setArb a v).regs = s.regs := rfl
@[simp] theorem State.setArb_ctr (s : State) (a : Nat) (v : Arbiter) : (s.setArb a v).ctr = s.ctr := rfl
@[simp] theorem State.setArb_mem (s : State) (a : Nat) (v : Arbiter) : (s.setArb a v).mem = s.mem := rfl
@[simp] theorem State.setArb_poison (s : State) (a : Nat) (v : Arbiter) : (s.setArb a v).poison = s.poison := rfl
@[simp] theorem State.setArb_ues (s : State) (a : Nat) (v : Arbiter) : (s.setArb a v).ues = s.ues := rfl
@[simp] theorem State.setArb_classBits (s : State) (a : Nat) (v : Arbiter) : (s.setArb a v).classBits = s.classBits := rfl
@[simp] theorem State.setArb_gran (s : State) (a : Nat) (v : Arbiter) : (s.setArb a v).gran = s.gran := rfl
@[simp] theorem State.setArb_dir (s : State) (a : Nat) (v : Arbiter) : (s.setArb a v).dir = s.dir := rfl
@[simp] theorem State.setArb_waitWrites (s : State) (a : Nat) (v : Arbiter) : (s.setArb a v).waitWrites = s.waitWrites := rfl
@[simp] theorem State.setArb_promos (s : State) (a : Nat) (v : Arbiter) : (s.setArb a v).promos = s.promos := rfl
@[simp] theorem State.setArb_memctl (s : State) (a : Nat) (v : Arbiter) : (s.setArb a v).memctl = s.memctl := rfl
@[simp] theorem State.setArb_xings (s : State) (a : Nat) (v : Arbiter) : (s.setArb a v).xings = s.xings := rfl
@[simp] theorem State.setArb_beats (s : State) (a : Nat) (v : Arbiter) : (s.setArb a v).beats = s.beats := rfl
@[simp] theorem State.setArb_active (s : State) (a : Nat) (v : Arbiter) : (s.setArb a v).active = s.active := rfl
@[simp] theorem State.setArb_facets (s : State) (a : Nat) (v : Arbiter) : (s.setArb a v).facets = s.facets := rfl
@[simp] theorem State.setArb_gangs (s : State) (a : Nat) (v : Arbiter) : (s.setArb a v).gangs = s.gangs := rfl
@[simp] theorem State.setArb_seqTab (s : State) (a : Nat) (v : Arbiter) : (s.setArb a v).seqTab = s.seqTab := rfl
@[simp] theorem State.setArb_queues (s : State) (a : Nat) (v : Arbiter) : (s.setArb a v).queues = s.queues := rfl
@[simp] theorem State.setArb_posts (s : State) (a : Nat) (v : Arbiter) : (s.setArb a v).posts = s.posts := rfl
@[simp] theorem State.setArb_fns (s : State) (a : Nat) (v : Arbiter) : (s.setArb a v).fns = s.fns := rfl
@[simp] theorem State.setArb_tces (s : State) (a : Nat) (v : Arbiter) : (s.setArb a v).tces = s.tces := rfl
@[simp] theorem State.setArb_codecs (s : State) (a : Nat) (v : Arbiter) : (s.setArb a v).codecs = s.codecs := rfl
@[simp] theorem State.setArb_ctxs (s : State) (a : Nat) (v : Arbiter) : (s.setArb a v).ctxs = s.ctxs := rfl
@[simp] theorem State.setArb_ops (s : State) (a : Nat) (v : Arbiter) : (s.setArb a v).ops = s.ops := rfl
@[simp] theorem State.setArb_nextTag (s : State) (a : Nat) (v : Arbiter) : (s.setArb a v).nextTag = s.nextTag := rfl
@[simp] theorem State.setArb_txDue (s : State) (a : Nat) (v : Arbiter) : (s.setArb a v).txDue = s.txDue := rfl
@[simp] theorem State.setArb_txSeq (s : State) (a : Nat) (v : Arbiter) : (s.setArb a v).txSeq = s.txSeq := rfl
@[simp] theorem State.setArb_ports (s : State) (a : Nat) (v : Arbiter) : (s.setArb a v).ports = s.ports := rfl
@[simp] theorem State.setArb_inject (s : State) (a : Nat) (v : Arbiter) : (s.setArb a v).inject = s.inject := rfl
@[simp] theorem State.setArb_injected (s : State) (a : Nat) (v : Arbiter) : (s.setArb a v).injected = s.injected := rfl
@[simp] theorem State.setArb_routes (s : State) (a : Nat) (v : Arbiter) : (s.setArb a v).routes = s.routes := rfl
@[simp] theorem State.setArb_linkMap (s : State) (a : Nat) (v : Arbiter) : (s.setArb a v).linkMap = s.linkMap := rfl
@[simp] theorem State.setArb_meridian (s : State) (a : Nat) (v : Arbiter) : (s.setArb a v).meridian = s.meridian := rfl
@[simp] theorem State.setArb_boot (s : State) (a : Nat) (v : Arbiter) : (s.setArb a v).boot = s.boot := rfl
@[simp] theorem State.setArb_gasp (s : State) (a : Nat) (v : Arbiter) : (s.setArb a v).gasp = s.gasp := rfl
@[simp] theorem State.setArb_power (s : State) (a : Nat) (v : Arbiter) : (s.setArb a v).power = s.power := rfl
@[simp] theorem State.setArb_freeze (s : State) (a : Nat) (v : Arbiter) : (s.setArb a v).freeze = s.freeze := rfl
@[simp] theorem State.setArb_halted (s : State) (a : Nat) (v : Arbiter) : (s.setArb a v).halted = s.halted := rfl
@[simp] theorem State.setArb_units (s : State) (a : Nat) (v : Arbiter) : (s.setArb a v).units = s.units := rfl
@[simp] theorem State.setArb_parts (s : State) (a : Nat) (v : Arbiter) : (s.setArb a v).parts = s.parts := rfl
@[simp] theorem State.setArb_pins (s : State) (a : Nat) (v : Arbiter) : (s.setArb a v).pins = s.pins := rfl
@[simp] theorem State.setArb_clocks (s : State) (a : Nat) (v : Arbiter) : (s.setArb a v).clocks = s.clocks := rfl
@[simp] theorem State.setArb_watch (s : State) (a : Nat) (v : Arbiter) : (s.setArb a v).watch = s.watch := rfl
@[simp] theorem State.setArb_link (s : State) (a : Nat) (v : Arbiter) : (s.setArb a v).link = s.link := rfl
@[simp] theorem State.setArb_tests (s : State) (a : Nat) (v : Arbiter) : (s.setArb a v).tests = s.tests := rfl
@[simp] theorem State.setArb_get_facet (s : State) (a : Nat) (v : Arbiter) (k : Nat) : (s.setArb a v).facet k = s.facet k := rfl
@[simp] theorem State.setArb_get_queue (s : State) (a : Nat) (v : Arbiter) (k : Nat) : (s.setArb a v).queue k = s.queue k := rfl
@[simp] theorem State.setArb_get_fn (s : State) (a : Nat) (v : Arbiter) (k : Nat) : (s.setArb a v).fn k = s.fn k := rfl
@[simp] theorem State.setArb_get_tce (s : State) (a : Nat) (v : Arbiter) (k : Nat) : (s.setArb a v).tce k = s.tce k := rfl
@[simp] theorem State.setArb_get_codec (s : State) (a : Nat) (v : Arbiter) (k : Nat) : (s.setArb a v).codec k = s.codec k := rfl
@[simp] theorem State.setArb_get_port (s : State) (a : Nat) (v : Arbiter) (k : Nat) : (s.setArb a v).port k = s.port k := rfl
@[simp] theorem State.setArb_get_memCtl (s : State) (a : Nat) (v : Arbiter) (k : Nat) : (s.setArb a v).memCtl k = s.memCtl k := rfl
@[simp] theorem State.setArb_get_xing (s : State) (a : Nat) (v : Arbiter) (k : Nat) : (s.setArb a v).xing k = s.xing k := rfl
@[simp] theorem State.setArb_get_granProc (s : State) (a : Nat) (v : Arbiter) (k : Nat) : (s.setArb a v).granProc k = s.granProc k := rfl
@[simp] theorem State.setArb_get_unit (s : State) (a : Nat) (v : Arbiter) (k : Nat) : (s.setArb a v).unit k = s.unit k := rfl
@[simp] theorem State.setArb_get_part (s : State) (a : Nat) (v : Arbiter) (k : Nat) : (s.setArb a v).part k = s.part k := rfl
@[simp] theorem State.setArb_get_op (s : State) (a : Nat) (v : Arbiter) (k : Nat) : (s.setArb a v).op k = s.op k := rfl
@[simp] theorem State.setArb_get_dirEntry (s : State) (a : Nat) (v : Arbiter) (k : Nat) : (s.setArb a v).dirEntry k = s.dirEntry k := rfl
@[simp] theorem State.setArb_get_counter (s : State) (a : Nat) (v : Arbiter) (k : Nat) : (s.setArb a v).counter k = s.counter k := rfl
@[simp] theorem State.setArb_get_ctx (s : State) (a : Nat) (v : Arbiter) (k m : Nat) : (s.setArb a v).ctx k m = s.ctx k m := rfl
@[simp] theorem State.setArb_get_cell (s : State) (a : Nat) (v : Arbiter) (r : Reg) : (s.setArb a v).cell r = s.cell r := rfl
@[simp] theorem State.setArb_get_val (s : State) (a : Nat) (v : Arbiter) (r : Reg) : (s.setArb a v).val r = s.val r := rfl
@[simp] theorem State.setArb_get_get (s : State) (a : Nat) (v : Arbiter) (r : Reg) (i j : Nat) : (s.setArb a v).get r i j = s.get r i j := rfl
@[simp] theorem State.setArb_get_upset (s : State) (a : Nat) (v : Arbiter) : (s.setArb a v).upset = s.upset := rfl
@[simp] theorem State.setArb_get_live (s : State) (a : Nat) (v : Arbiter) : (s.setArb a v).live = s.live := rfl

/-! setXing -/
@[simp] theorem State.setXing_pending (s : State) (d : Nat) (v : Crossing) : (s.setXing d v).pending = s.pending := rfl
@[simp] theorem State.setXing_fresh (s : State) (d : Nat) (v : Crossing) : (s.setXing d v).fresh = s.fresh := rfl
@[simp] theorem State.setXing_limClock (s : State) (d : Nat) (v : Crossing) : (s.setXing d v).limClock = s.limClock := rfl
@[simp] theorem State.setXing_time (s : State) (d : Nat) (v : Crossing) : (s.setXing d v).time = s.time := rfl
@[simp] theorem State.setXing_out (s : State) (d : Nat) (v : Crossing) : (s.setXing d v).out = s.out := rfl
@[simp] theorem State.setXing_nv (s : State) (d : Nat) (v : Crossing) : (s.setXing d v).nv = s.nv := rfl
@[simp] theorem State.setXing_host (s : State) (d : Nat) (v : Crossing) : (s.setXing d v).host = s.host := rfl
@[simp] theorem State.setXing_regs (s : State) (d : Nat) (v : Crossing) : (s.setXing d v).regs = s.regs := rfl
@[simp] theorem State.setXing_ctr (s : State) (d : Nat) (v : Crossing) : (s.setXing d v).ctr = s.ctr := rfl
@[simp] theorem State.setXing_mem (s : State) (d : Nat) (v : Crossing) : (s.setXing d v).mem = s.mem := rfl
@[simp] theorem State.setXing_poison (s : State) (d : Nat) (v : Crossing) : (s.setXing d v).poison = s.poison := rfl
@[simp] theorem State.setXing_ues (s : State) (d : Nat) (v : Crossing) : (s.setXing d v).ues = s.ues := rfl
@[simp] theorem State.setXing_classBits (s : State) (d : Nat) (v : Crossing) : (s.setXing d v).classBits = s.classBits := rfl
@[simp] theorem State.setXing_gran (s : State) (d : Nat) (v : Crossing) : (s.setXing d v).gran = s.gran := rfl
@[simp] theorem State.setXing_dir (s : State) (d : Nat) (v : Crossing) : (s.setXing d v).dir = s.dir := rfl
@[simp] theorem State.setXing_waitWrites (s : State) (d : Nat) (v : Crossing) : (s.setXing d v).waitWrites = s.waitWrites := rfl
@[simp] theorem State.setXing_promos (s : State) (d : Nat) (v : Crossing) : (s.setXing d v).promos = s.promos := rfl
@[simp] theorem State.setXing_memctl (s : State) (d : Nat) (v : Crossing) : (s.setXing d v).memctl = s.memctl := rfl
@[simp] theorem State.setXing_arbs (s : State) (d : Nat) (v : Crossing) : (s.setXing d v).arbs = s.arbs := rfl
@[simp] theorem State.setXing_beats (s : State) (d : Nat) (v : Crossing) : (s.setXing d v).beats = s.beats := rfl
@[simp] theorem State.setXing_active (s : State) (d : Nat) (v : Crossing) : (s.setXing d v).active = s.active := rfl
@[simp] theorem State.setXing_facets (s : State) (d : Nat) (v : Crossing) : (s.setXing d v).facets = s.facets := rfl
@[simp] theorem State.setXing_gangs (s : State) (d : Nat) (v : Crossing) : (s.setXing d v).gangs = s.gangs := rfl
@[simp] theorem State.setXing_seqTab (s : State) (d : Nat) (v : Crossing) : (s.setXing d v).seqTab = s.seqTab := rfl
@[simp] theorem State.setXing_queues (s : State) (d : Nat) (v : Crossing) : (s.setXing d v).queues = s.queues := rfl
@[simp] theorem State.setXing_posts (s : State) (d : Nat) (v : Crossing) : (s.setXing d v).posts = s.posts := rfl
@[simp] theorem State.setXing_fns (s : State) (d : Nat) (v : Crossing) : (s.setXing d v).fns = s.fns := rfl
@[simp] theorem State.setXing_tces (s : State) (d : Nat) (v : Crossing) : (s.setXing d v).tces = s.tces := rfl
@[simp] theorem State.setXing_codecs (s : State) (d : Nat) (v : Crossing) : (s.setXing d v).codecs = s.codecs := rfl
@[simp] theorem State.setXing_ctxs (s : State) (d : Nat) (v : Crossing) : (s.setXing d v).ctxs = s.ctxs := rfl
@[simp] theorem State.setXing_ops (s : State) (d : Nat) (v : Crossing) : (s.setXing d v).ops = s.ops := rfl
@[simp] theorem State.setXing_nextTag (s : State) (d : Nat) (v : Crossing) : (s.setXing d v).nextTag = s.nextTag := rfl
@[simp] theorem State.setXing_txDue (s : State) (d : Nat) (v : Crossing) : (s.setXing d v).txDue = s.txDue := rfl
@[simp] theorem State.setXing_txSeq (s : State) (d : Nat) (v : Crossing) : (s.setXing d v).txSeq = s.txSeq := rfl
@[simp] theorem State.setXing_ports (s : State) (d : Nat) (v : Crossing) : (s.setXing d v).ports = s.ports := rfl
@[simp] theorem State.setXing_inject (s : State) (d : Nat) (v : Crossing) : (s.setXing d v).inject = s.inject := rfl
@[simp] theorem State.setXing_injected (s : State) (d : Nat) (v : Crossing) : (s.setXing d v).injected = s.injected := rfl
@[simp] theorem State.setXing_routes (s : State) (d : Nat) (v : Crossing) : (s.setXing d v).routes = s.routes := rfl
@[simp] theorem State.setXing_linkMap (s : State) (d : Nat) (v : Crossing) : (s.setXing d v).linkMap = s.linkMap := rfl
@[simp] theorem State.setXing_meridian (s : State) (d : Nat) (v : Crossing) : (s.setXing d v).meridian = s.meridian := rfl
@[simp] theorem State.setXing_boot (s : State) (d : Nat) (v : Crossing) : (s.setXing d v).boot = s.boot := rfl
@[simp] theorem State.setXing_gasp (s : State) (d : Nat) (v : Crossing) : (s.setXing d v).gasp = s.gasp := rfl
@[simp] theorem State.setXing_power (s : State) (d : Nat) (v : Crossing) : (s.setXing d v).power = s.power := rfl
@[simp] theorem State.setXing_freeze (s : State) (d : Nat) (v : Crossing) : (s.setXing d v).freeze = s.freeze := rfl
@[simp] theorem State.setXing_halted (s : State) (d : Nat) (v : Crossing) : (s.setXing d v).halted = s.halted := rfl
@[simp] theorem State.setXing_units (s : State) (d : Nat) (v : Crossing) : (s.setXing d v).units = s.units := rfl
@[simp] theorem State.setXing_parts (s : State) (d : Nat) (v : Crossing) : (s.setXing d v).parts = s.parts := rfl
@[simp] theorem State.setXing_pins (s : State) (d : Nat) (v : Crossing) : (s.setXing d v).pins = s.pins := rfl
@[simp] theorem State.setXing_clocks (s : State) (d : Nat) (v : Crossing) : (s.setXing d v).clocks = s.clocks := rfl
@[simp] theorem State.setXing_watch (s : State) (d : Nat) (v : Crossing) : (s.setXing d v).watch = s.watch := rfl
@[simp] theorem State.setXing_link (s : State) (d : Nat) (v : Crossing) : (s.setXing d v).link = s.link := rfl
@[simp] theorem State.setXing_tests (s : State) (d : Nat) (v : Crossing) : (s.setXing d v).tests = s.tests := rfl
@[simp] theorem State.setXing_get_facet (s : State) (d : Nat) (v : Crossing) (k : Nat) : (s.setXing d v).facet k = s.facet k := rfl
@[simp] theorem State.setXing_get_queue (s : State) (d : Nat) (v : Crossing) (k : Nat) : (s.setXing d v).queue k = s.queue k := rfl
@[simp] theorem State.setXing_get_fn (s : State) (d : Nat) (v : Crossing) (k : Nat) : (s.setXing d v).fn k = s.fn k := rfl
@[simp] theorem State.setXing_get_tce (s : State) (d : Nat) (v : Crossing) (k : Nat) : (s.setXing d v).tce k = s.tce k := rfl
@[simp] theorem State.setXing_get_codec (s : State) (d : Nat) (v : Crossing) (k : Nat) : (s.setXing d v).codec k = s.codec k := rfl
@[simp] theorem State.setXing_get_port (s : State) (d : Nat) (v : Crossing) (k : Nat) : (s.setXing d v).port k = s.port k := rfl
@[simp] theorem State.setXing_get_memCtl (s : State) (d : Nat) (v : Crossing) (k : Nat) : (s.setXing d v).memCtl k = s.memCtl k := rfl
@[simp] theorem State.setXing_get_arb (s : State) (d : Nat) (v : Crossing) (k : Nat) : (s.setXing d v).arb k = s.arb k := rfl
@[simp] theorem State.setXing_get_granProc (s : State) (d : Nat) (v : Crossing) (k : Nat) : (s.setXing d v).granProc k = s.granProc k := rfl
@[simp] theorem State.setXing_get_unit (s : State) (d : Nat) (v : Crossing) (k : Nat) : (s.setXing d v).unit k = s.unit k := rfl
@[simp] theorem State.setXing_get_part (s : State) (d : Nat) (v : Crossing) (k : Nat) : (s.setXing d v).part k = s.part k := rfl
@[simp] theorem State.setXing_get_op (s : State) (d : Nat) (v : Crossing) (k : Nat) : (s.setXing d v).op k = s.op k := rfl
@[simp] theorem State.setXing_get_dirEntry (s : State) (d : Nat) (v : Crossing) (k : Nat) : (s.setXing d v).dirEntry k = s.dirEntry k := rfl
@[simp] theorem State.setXing_get_counter (s : State) (d : Nat) (v : Crossing) (k : Nat) : (s.setXing d v).counter k = s.counter k := rfl
@[simp] theorem State.setXing_get_ctx (s : State) (d : Nat) (v : Crossing) (k m : Nat) : (s.setXing d v).ctx k m = s.ctx k m := rfl
@[simp] theorem State.setXing_get_cell (s : State) (d : Nat) (v : Crossing) (r : Reg) : (s.setXing d v).cell r = s.cell r := rfl
@[simp] theorem State.setXing_get_val (s : State) (d : Nat) (v : Crossing) (r : Reg) : (s.setXing d v).val r = s.val r := rfl
@[simp] theorem State.setXing_get_get (s : State) (d : Nat) (v : Crossing) (r : Reg) (i j : Nat) : (s.setXing d v).get r i j = s.get r i j := rfl
@[simp] theorem State.setXing_get_upset (s : State) (d : Nat) (v : Crossing) : (s.setXing d v).upset = s.upset := rfl
@[simp] theorem State.setXing_get_live (s : State) (d : Nat) (v : Crossing) : (s.setXing d v).live = s.live := rfl

/-! setGranProc -/
@[simp] theorem State.setGranProc_pending (s : State) (g : Nat) (v : GranProc) : (s.setGranProc g v).pending = s.pending := rfl
@[simp] theorem State.setGranProc_fresh (s : State) (g : Nat) (v : GranProc) : (s.setGranProc g v).fresh = s.fresh := rfl
@[simp] theorem State.setGranProc_limClock (s : State) (g : Nat) (v : GranProc) : (s.setGranProc g v).limClock = s.limClock := rfl
@[simp] theorem State.setGranProc_time (s : State) (g : Nat) (v : GranProc) : (s.setGranProc g v).time = s.time := rfl
@[simp] theorem State.setGranProc_out (s : State) (g : Nat) (v : GranProc) : (s.setGranProc g v).out = s.out := rfl
@[simp] theorem State.setGranProc_nv (s : State) (g : Nat) (v : GranProc) : (s.setGranProc g v).nv = s.nv := rfl
@[simp] theorem State.setGranProc_host (s : State) (g : Nat) (v : GranProc) : (s.setGranProc g v).host = s.host := rfl
@[simp] theorem State.setGranProc_regs (s : State) (g : Nat) (v : GranProc) : (s.setGranProc g v).regs = s.regs := rfl
@[simp] theorem State.setGranProc_ctr (s : State) (g : Nat) (v : GranProc) : (s.setGranProc g v).ctr = s.ctr := rfl
@[simp] theorem State.setGranProc_mem (s : State) (g : Nat) (v : GranProc) : (s.setGranProc g v).mem = s.mem := rfl
@[simp] theorem State.setGranProc_poison (s : State) (g : Nat) (v : GranProc) : (s.setGranProc g v).poison = s.poison := rfl
@[simp] theorem State.setGranProc_ues (s : State) (g : Nat) (v : GranProc) : (s.setGranProc g v).ues = s.ues := rfl
@[simp] theorem State.setGranProc_classBits (s : State) (g : Nat) (v : GranProc) : (s.setGranProc g v).classBits = s.classBits := rfl
@[simp] theorem State.setGranProc_dir (s : State) (g : Nat) (v : GranProc) : (s.setGranProc g v).dir = s.dir := rfl
@[simp] theorem State.setGranProc_waitWrites (s : State) (g : Nat) (v : GranProc) : (s.setGranProc g v).waitWrites = s.waitWrites := rfl
@[simp] theorem State.setGranProc_promos (s : State) (g : Nat) (v : GranProc) : (s.setGranProc g v).promos = s.promos := rfl
@[simp] theorem State.setGranProc_memctl (s : State) (g : Nat) (v : GranProc) : (s.setGranProc g v).memctl = s.memctl := rfl
@[simp] theorem State.setGranProc_xings (s : State) (g : Nat) (v : GranProc) : (s.setGranProc g v).xings = s.xings := rfl
@[simp] theorem State.setGranProc_arbs (s : State) (g : Nat) (v : GranProc) : (s.setGranProc g v).arbs = s.arbs := rfl
@[simp] theorem State.setGranProc_beats (s : State) (g : Nat) (v : GranProc) : (s.setGranProc g v).beats = s.beats := rfl
@[simp] theorem State.setGranProc_active (s : State) (g : Nat) (v : GranProc) : (s.setGranProc g v).active = s.active := rfl
@[simp] theorem State.setGranProc_facets (s : State) (g : Nat) (v : GranProc) : (s.setGranProc g v).facets = s.facets := rfl
@[simp] theorem State.setGranProc_gangs (s : State) (g : Nat) (v : GranProc) : (s.setGranProc g v).gangs = s.gangs := rfl
@[simp] theorem State.setGranProc_seqTab (s : State) (g : Nat) (v : GranProc) : (s.setGranProc g v).seqTab = s.seqTab := rfl
@[simp] theorem State.setGranProc_queues (s : State) (g : Nat) (v : GranProc) : (s.setGranProc g v).queues = s.queues := rfl
@[simp] theorem State.setGranProc_posts (s : State) (g : Nat) (v : GranProc) : (s.setGranProc g v).posts = s.posts := rfl
@[simp] theorem State.setGranProc_fns (s : State) (g : Nat) (v : GranProc) : (s.setGranProc g v).fns = s.fns := rfl
@[simp] theorem State.setGranProc_tces (s : State) (g : Nat) (v : GranProc) : (s.setGranProc g v).tces = s.tces := rfl
@[simp] theorem State.setGranProc_codecs (s : State) (g : Nat) (v : GranProc) : (s.setGranProc g v).codecs = s.codecs := rfl
@[simp] theorem State.setGranProc_ctxs (s : State) (g : Nat) (v : GranProc) : (s.setGranProc g v).ctxs = s.ctxs := rfl
@[simp] theorem State.setGranProc_ops (s : State) (g : Nat) (v : GranProc) : (s.setGranProc g v).ops = s.ops := rfl
@[simp] theorem State.setGranProc_nextTag (s : State) (g : Nat) (v : GranProc) : (s.setGranProc g v).nextTag = s.nextTag := rfl
@[simp] theorem State.setGranProc_txDue (s : State) (g : Nat) (v : GranProc) : (s.setGranProc g v).txDue = s.txDue := rfl
@[simp] theorem State.setGranProc_txSeq (s : State) (g : Nat) (v : GranProc) : (s.setGranProc g v).txSeq = s.txSeq := rfl
@[simp] theorem State.setGranProc_ports (s : State) (g : Nat) (v : GranProc) : (s.setGranProc g v).ports = s.ports := rfl
@[simp] theorem State.setGranProc_inject (s : State) (g : Nat) (v : GranProc) : (s.setGranProc g v).inject = s.inject := rfl
@[simp] theorem State.setGranProc_injected (s : State) (g : Nat) (v : GranProc) : (s.setGranProc g v).injected = s.injected := rfl
@[simp] theorem State.setGranProc_routes (s : State) (g : Nat) (v : GranProc) : (s.setGranProc g v).routes = s.routes := rfl
@[simp] theorem State.setGranProc_linkMap (s : State) (g : Nat) (v : GranProc) : (s.setGranProc g v).linkMap = s.linkMap := rfl
@[simp] theorem State.setGranProc_meridian (s : State) (g : Nat) (v : GranProc) : (s.setGranProc g v).meridian = s.meridian := rfl
@[simp] theorem State.setGranProc_boot (s : State) (g : Nat) (v : GranProc) : (s.setGranProc g v).boot = s.boot := rfl
@[simp] theorem State.setGranProc_gasp (s : State) (g : Nat) (v : GranProc) : (s.setGranProc g v).gasp = s.gasp := rfl
@[simp] theorem State.setGranProc_power (s : State) (g : Nat) (v : GranProc) : (s.setGranProc g v).power = s.power := rfl
@[simp] theorem State.setGranProc_freeze (s : State) (g : Nat) (v : GranProc) : (s.setGranProc g v).freeze = s.freeze := rfl
@[simp] theorem State.setGranProc_halted (s : State) (g : Nat) (v : GranProc) : (s.setGranProc g v).halted = s.halted := rfl
@[simp] theorem State.setGranProc_units (s : State) (g : Nat) (v : GranProc) : (s.setGranProc g v).units = s.units := rfl
@[simp] theorem State.setGranProc_parts (s : State) (g : Nat) (v : GranProc) : (s.setGranProc g v).parts = s.parts := rfl
@[simp] theorem State.setGranProc_pins (s : State) (g : Nat) (v : GranProc) : (s.setGranProc g v).pins = s.pins := rfl
@[simp] theorem State.setGranProc_clocks (s : State) (g : Nat) (v : GranProc) : (s.setGranProc g v).clocks = s.clocks := rfl
@[simp] theorem State.setGranProc_watch (s : State) (g : Nat) (v : GranProc) : (s.setGranProc g v).watch = s.watch := rfl
@[simp] theorem State.setGranProc_link (s : State) (g : Nat) (v : GranProc) : (s.setGranProc g v).link = s.link := rfl
@[simp] theorem State.setGranProc_tests (s : State) (g : Nat) (v : GranProc) : (s.setGranProc g v).tests = s.tests := rfl
@[simp] theorem State.setGranProc_get_facet (s : State) (g : Nat) (v : GranProc) (k : Nat) : (s.setGranProc g v).facet k = s.facet k := rfl
@[simp] theorem State.setGranProc_get_queue (s : State) (g : Nat) (v : GranProc) (k : Nat) : (s.setGranProc g v).queue k = s.queue k := rfl
@[simp] theorem State.setGranProc_get_fn (s : State) (g : Nat) (v : GranProc) (k : Nat) : (s.setGranProc g v).fn k = s.fn k := rfl
@[simp] theorem State.setGranProc_get_tce (s : State) (g : Nat) (v : GranProc) (k : Nat) : (s.setGranProc g v).tce k = s.tce k := rfl
@[simp] theorem State.setGranProc_get_codec (s : State) (g : Nat) (v : GranProc) (k : Nat) : (s.setGranProc g v).codec k = s.codec k := rfl
@[simp] theorem State.setGranProc_get_port (s : State) (g : Nat) (v : GranProc) (k : Nat) : (s.setGranProc g v).port k = s.port k := rfl
@[simp] theorem State.setGranProc_get_memCtl (s : State) (g : Nat) (v : GranProc) (k : Nat) : (s.setGranProc g v).memCtl k = s.memCtl k := rfl
@[simp] theorem State.setGranProc_get_xing (s : State) (g : Nat) (v : GranProc) (k : Nat) : (s.setGranProc g v).xing k = s.xing k := rfl
@[simp] theorem State.setGranProc_get_arb (s : State) (g : Nat) (v : GranProc) (k : Nat) : (s.setGranProc g v).arb k = s.arb k := rfl
@[simp] theorem State.setGranProc_get_unit (s : State) (g : Nat) (v : GranProc) (k : Nat) : (s.setGranProc g v).unit k = s.unit k := rfl
@[simp] theorem State.setGranProc_get_part (s : State) (g : Nat) (v : GranProc) (k : Nat) : (s.setGranProc g v).part k = s.part k := rfl
@[simp] theorem State.setGranProc_get_op (s : State) (g : Nat) (v : GranProc) (k : Nat) : (s.setGranProc g v).op k = s.op k := rfl
@[simp] theorem State.setGranProc_get_dirEntry (s : State) (g : Nat) (v : GranProc) (k : Nat) : (s.setGranProc g v).dirEntry k = s.dirEntry k := rfl
@[simp] theorem State.setGranProc_get_counter (s : State) (g : Nat) (v : GranProc) (k : Nat) : (s.setGranProc g v).counter k = s.counter k := rfl
@[simp] theorem State.setGranProc_get_ctx (s : State) (g : Nat) (v : GranProc) (k m : Nat) : (s.setGranProc g v).ctx k m = s.ctx k m := rfl
@[simp] theorem State.setGranProc_get_cell (s : State) (g : Nat) (v : GranProc) (r : Reg) : (s.setGranProc g v).cell r = s.cell r := rfl
@[simp] theorem State.setGranProc_get_val (s : State) (g : Nat) (v : GranProc) (r : Reg) : (s.setGranProc g v).val r = s.val r := rfl
@[simp] theorem State.setGranProc_get_get (s : State) (g : Nat) (v : GranProc) (r : Reg) (i j : Nat) : (s.setGranProc g v).get r i j = s.get r i j := rfl
@[simp] theorem State.setGranProc_get_upset (s : State) (g : Nat) (v : GranProc) : (s.setGranProc g v).upset = s.upset := rfl
@[simp] theorem State.setGranProc_get_live (s : State) (g : Nat) (v : GranProc) : (s.setGranProc g v).live = s.live := rfl

/-! setUnit -/
@[simp] theorem State.setUnit_pending (s : State) (u : Nat) (v : Lc) : (s.setUnit u v).pending = s.pending := rfl
@[simp] theorem State.setUnit_fresh (s : State) (u : Nat) (v : Lc) : (s.setUnit u v).fresh = s.fresh := rfl
@[simp] theorem State.setUnit_limClock (s : State) (u : Nat) (v : Lc) : (s.setUnit u v).limClock = s.limClock := rfl
@[simp] theorem State.setUnit_time (s : State) (u : Nat) (v : Lc) : (s.setUnit u v).time = s.time := rfl
@[simp] theorem State.setUnit_out (s : State) (u : Nat) (v : Lc) : (s.setUnit u v).out = s.out := rfl
@[simp] theorem State.setUnit_nv (s : State) (u : Nat) (v : Lc) : (s.setUnit u v).nv = s.nv := rfl
@[simp] theorem State.setUnit_host (s : State) (u : Nat) (v : Lc) : (s.setUnit u v).host = s.host := rfl
@[simp] theorem State.setUnit_regs (s : State) (u : Nat) (v : Lc) : (s.setUnit u v).regs = s.regs := rfl
@[simp] theorem State.setUnit_ctr (s : State) (u : Nat) (v : Lc) : (s.setUnit u v).ctr = s.ctr := rfl
@[simp] theorem State.setUnit_mem (s : State) (u : Nat) (v : Lc) : (s.setUnit u v).mem = s.mem := rfl
@[simp] theorem State.setUnit_poison (s : State) (u : Nat) (v : Lc) : (s.setUnit u v).poison = s.poison := rfl
@[simp] theorem State.setUnit_ues (s : State) (u : Nat) (v : Lc) : (s.setUnit u v).ues = s.ues := rfl
@[simp] theorem State.setUnit_classBits (s : State) (u : Nat) (v : Lc) : (s.setUnit u v).classBits = s.classBits := rfl
@[simp] theorem State.setUnit_gran (s : State) (u : Nat) (v : Lc) : (s.setUnit u v).gran = s.gran := rfl
@[simp] theorem State.setUnit_dir (s : State) (u : Nat) (v : Lc) : (s.setUnit u v).dir = s.dir := rfl
@[simp] theorem State.setUnit_waitWrites (s : State) (u : Nat) (v : Lc) : (s.setUnit u v).waitWrites = s.waitWrites := rfl
@[simp] theorem State.setUnit_promos (s : State) (u : Nat) (v : Lc) : (s.setUnit u v).promos = s.promos := rfl
@[simp] theorem State.setUnit_memctl (s : State) (u : Nat) (v : Lc) : (s.setUnit u v).memctl = s.memctl := rfl
@[simp] theorem State.setUnit_xings (s : State) (u : Nat) (v : Lc) : (s.setUnit u v).xings = s.xings := rfl
@[simp] theorem State.setUnit_arbs (s : State) (u : Nat) (v : Lc) : (s.setUnit u v).arbs = s.arbs := rfl
@[simp] theorem State.setUnit_beats (s : State) (u : Nat) (v : Lc) : (s.setUnit u v).beats = s.beats := rfl
@[simp] theorem State.setUnit_active (s : State) (u : Nat) (v : Lc) : (s.setUnit u v).active = s.active := rfl
@[simp] theorem State.setUnit_facets (s : State) (u : Nat) (v : Lc) : (s.setUnit u v).facets = s.facets := rfl
@[simp] theorem State.setUnit_gangs (s : State) (u : Nat) (v : Lc) : (s.setUnit u v).gangs = s.gangs := rfl
@[simp] theorem State.setUnit_seqTab (s : State) (u : Nat) (v : Lc) : (s.setUnit u v).seqTab = s.seqTab := rfl
@[simp] theorem State.setUnit_queues (s : State) (u : Nat) (v : Lc) : (s.setUnit u v).queues = s.queues := rfl
@[simp] theorem State.setUnit_posts (s : State) (u : Nat) (v : Lc) : (s.setUnit u v).posts = s.posts := rfl
@[simp] theorem State.setUnit_fns (s : State) (u : Nat) (v : Lc) : (s.setUnit u v).fns = s.fns := rfl
@[simp] theorem State.setUnit_tces (s : State) (u : Nat) (v : Lc) : (s.setUnit u v).tces = s.tces := rfl
@[simp] theorem State.setUnit_codecs (s : State) (u : Nat) (v : Lc) : (s.setUnit u v).codecs = s.codecs := rfl
@[simp] theorem State.setUnit_ctxs (s : State) (u : Nat) (v : Lc) : (s.setUnit u v).ctxs = s.ctxs := rfl
@[simp] theorem State.setUnit_ops (s : State) (u : Nat) (v : Lc) : (s.setUnit u v).ops = s.ops := rfl
@[simp] theorem State.setUnit_nextTag (s : State) (u : Nat) (v : Lc) : (s.setUnit u v).nextTag = s.nextTag := rfl
@[simp] theorem State.setUnit_txDue (s : State) (u : Nat) (v : Lc) : (s.setUnit u v).txDue = s.txDue := rfl
@[simp] theorem State.setUnit_txSeq (s : State) (u : Nat) (v : Lc) : (s.setUnit u v).txSeq = s.txSeq := rfl
@[simp] theorem State.setUnit_ports (s : State) (u : Nat) (v : Lc) : (s.setUnit u v).ports = s.ports := rfl
@[simp] theorem State.setUnit_inject (s : State) (u : Nat) (v : Lc) : (s.setUnit u v).inject = s.inject := rfl
@[simp] theorem State.setUnit_injected (s : State) (u : Nat) (v : Lc) : (s.setUnit u v).injected = s.injected := rfl
@[simp] theorem State.setUnit_routes (s : State) (u : Nat) (v : Lc) : (s.setUnit u v).routes = s.routes := rfl
@[simp] theorem State.setUnit_linkMap (s : State) (u : Nat) (v : Lc) : (s.setUnit u v).linkMap = s.linkMap := rfl
@[simp] theorem State.setUnit_meridian (s : State) (u : Nat) (v : Lc) : (s.setUnit u v).meridian = s.meridian := rfl
@[simp] theorem State.setUnit_boot (s : State) (u : Nat) (v : Lc) : (s.setUnit u v).boot = s.boot := rfl
@[simp] theorem State.setUnit_gasp (s : State) (u : Nat) (v : Lc) : (s.setUnit u v).gasp = s.gasp := rfl
@[simp] theorem State.setUnit_power (s : State) (u : Nat) (v : Lc) : (s.setUnit u v).power = s.power := rfl
@[simp] theorem State.setUnit_freeze (s : State) (u : Nat) (v : Lc) : (s.setUnit u v).freeze = s.freeze := rfl
@[simp] theorem State.setUnit_halted (s : State) (u : Nat) (v : Lc) : (s.setUnit u v).halted = s.halted := rfl
@[simp] theorem State.setUnit_parts (s : State) (u : Nat) (v : Lc) : (s.setUnit u v).parts = s.parts := rfl
@[simp] theorem State.setUnit_pins (s : State) (u : Nat) (v : Lc) : (s.setUnit u v).pins = s.pins := rfl
@[simp] theorem State.setUnit_clocks (s : State) (u : Nat) (v : Lc) : (s.setUnit u v).clocks = s.clocks := rfl
@[simp] theorem State.setUnit_watch (s : State) (u : Nat) (v : Lc) : (s.setUnit u v).watch = s.watch := rfl
@[simp] theorem State.setUnit_link (s : State) (u : Nat) (v : Lc) : (s.setUnit u v).link = s.link := rfl
@[simp] theorem State.setUnit_tests (s : State) (u : Nat) (v : Lc) : (s.setUnit u v).tests = s.tests := rfl
@[simp] theorem State.setUnit_get_facet (s : State) (u : Nat) (v : Lc) (k : Nat) : (s.setUnit u v).facet k = s.facet k := rfl
@[simp] theorem State.setUnit_get_queue (s : State) (u : Nat) (v : Lc) (k : Nat) : (s.setUnit u v).queue k = s.queue k := rfl
@[simp] theorem State.setUnit_get_fn (s : State) (u : Nat) (v : Lc) (k : Nat) : (s.setUnit u v).fn k = s.fn k := rfl
@[simp] theorem State.setUnit_get_tce (s : State) (u : Nat) (v : Lc) (k : Nat) : (s.setUnit u v).tce k = s.tce k := rfl
@[simp] theorem State.setUnit_get_codec (s : State) (u : Nat) (v : Lc) (k : Nat) : (s.setUnit u v).codec k = s.codec k := rfl
@[simp] theorem State.setUnit_get_port (s : State) (u : Nat) (v : Lc) (k : Nat) : (s.setUnit u v).port k = s.port k := rfl
@[simp] theorem State.setUnit_get_memCtl (s : State) (u : Nat) (v : Lc) (k : Nat) : (s.setUnit u v).memCtl k = s.memCtl k := rfl
@[simp] theorem State.setUnit_get_xing (s : State) (u : Nat) (v : Lc) (k : Nat) : (s.setUnit u v).xing k = s.xing k := rfl
@[simp] theorem State.setUnit_get_arb (s : State) (u : Nat) (v : Lc) (k : Nat) : (s.setUnit u v).arb k = s.arb k := rfl
@[simp] theorem State.setUnit_get_granProc (s : State) (u : Nat) (v : Lc) (k : Nat) : (s.setUnit u v).granProc k = s.granProc k := rfl
@[simp] theorem State.setUnit_get_part (s : State) (u : Nat) (v : Lc) (k : Nat) : (s.setUnit u v).part k = s.part k := rfl
@[simp] theorem State.setUnit_get_op (s : State) (u : Nat) (v : Lc) (k : Nat) : (s.setUnit u v).op k = s.op k := rfl
@[simp] theorem State.setUnit_get_dirEntry (s : State) (u : Nat) (v : Lc) (k : Nat) : (s.setUnit u v).dirEntry k = s.dirEntry k := rfl
@[simp] theorem State.setUnit_get_counter (s : State) (u : Nat) (v : Lc) (k : Nat) : (s.setUnit u v).counter k = s.counter k := rfl
@[simp] theorem State.setUnit_get_ctx (s : State) (u : Nat) (v : Lc) (k m : Nat) : (s.setUnit u v).ctx k m = s.ctx k m := rfl
@[simp] theorem State.setUnit_get_cell (s : State) (u : Nat) (v : Lc) (r : Reg) : (s.setUnit u v).cell r = s.cell r := rfl
@[simp] theorem State.setUnit_get_val (s : State) (u : Nat) (v : Lc) (r : Reg) : (s.setUnit u v).val r = s.val r := rfl
@[simp] theorem State.setUnit_get_get (s : State) (u : Nat) (v : Lc) (r : Reg) (i j : Nat) : (s.setUnit u v).get r i j = s.get r i j := rfl
@[simp] theorem State.setUnit_get_upset (s : State) (u : Nat) (v : Lc) : (s.setUnit u v).upset = s.upset := rfl
@[simp] theorem State.setUnit_get_live (s : State) (u : Nat) (v : Lc) : (s.setUnit u v).live = s.live := rfl

/-! setPart -/
@[simp] theorem State.setPart_pending (s : State) (p : Nat) (v : Lc) : (s.setPart p v).pending = s.pending := rfl
@[simp] theorem State.setPart_fresh (s : State) (p : Nat) (v : Lc) : (s.setPart p v).fresh = s.fresh := rfl
@[simp] theorem State.setPart_limClock (s : State) (p : Nat) (v : Lc) : (s.setPart p v).limClock = s.limClock := rfl
@[simp] theorem State.setPart_time (s : State) (p : Nat) (v : Lc) : (s.setPart p v).time = s.time := rfl
@[simp] theorem State.setPart_out (s : State) (p : Nat) (v : Lc) : (s.setPart p v).out = s.out := rfl
@[simp] theorem State.setPart_nv (s : State) (p : Nat) (v : Lc) : (s.setPart p v).nv = s.nv := rfl
@[simp] theorem State.setPart_host (s : State) (p : Nat) (v : Lc) : (s.setPart p v).host = s.host := rfl
@[simp] theorem State.setPart_regs (s : State) (p : Nat) (v : Lc) : (s.setPart p v).regs = s.regs := rfl
@[simp] theorem State.setPart_ctr (s : State) (p : Nat) (v : Lc) : (s.setPart p v).ctr = s.ctr := rfl
@[simp] theorem State.setPart_mem (s : State) (p : Nat) (v : Lc) : (s.setPart p v).mem = s.mem := rfl
@[simp] theorem State.setPart_poison (s : State) (p : Nat) (v : Lc) : (s.setPart p v).poison = s.poison := rfl
@[simp] theorem State.setPart_ues (s : State) (p : Nat) (v : Lc) : (s.setPart p v).ues = s.ues := rfl
@[simp] theorem State.setPart_classBits (s : State) (p : Nat) (v : Lc) : (s.setPart p v).classBits = s.classBits := rfl
@[simp] theorem State.setPart_gran (s : State) (p : Nat) (v : Lc) : (s.setPart p v).gran = s.gran := rfl
@[simp] theorem State.setPart_dir (s : State) (p : Nat) (v : Lc) : (s.setPart p v).dir = s.dir := rfl
@[simp] theorem State.setPart_waitWrites (s : State) (p : Nat) (v : Lc) : (s.setPart p v).waitWrites = s.waitWrites := rfl
@[simp] theorem State.setPart_promos (s : State) (p : Nat) (v : Lc) : (s.setPart p v).promos = s.promos := rfl
@[simp] theorem State.setPart_memctl (s : State) (p : Nat) (v : Lc) : (s.setPart p v).memctl = s.memctl := rfl
@[simp] theorem State.setPart_xings (s : State) (p : Nat) (v : Lc) : (s.setPart p v).xings = s.xings := rfl
@[simp] theorem State.setPart_arbs (s : State) (p : Nat) (v : Lc) : (s.setPart p v).arbs = s.arbs := rfl
@[simp] theorem State.setPart_beats (s : State) (p : Nat) (v : Lc) : (s.setPart p v).beats = s.beats := rfl
@[simp] theorem State.setPart_active (s : State) (p : Nat) (v : Lc) : (s.setPart p v).active = s.active := rfl
@[simp] theorem State.setPart_facets (s : State) (p : Nat) (v : Lc) : (s.setPart p v).facets = s.facets := rfl
@[simp] theorem State.setPart_gangs (s : State) (p : Nat) (v : Lc) : (s.setPart p v).gangs = s.gangs := rfl
@[simp] theorem State.setPart_seqTab (s : State) (p : Nat) (v : Lc) : (s.setPart p v).seqTab = s.seqTab := rfl
@[simp] theorem State.setPart_queues (s : State) (p : Nat) (v : Lc) : (s.setPart p v).queues = s.queues := rfl
@[simp] theorem State.setPart_posts (s : State) (p : Nat) (v : Lc) : (s.setPart p v).posts = s.posts := rfl
@[simp] theorem State.setPart_fns (s : State) (p : Nat) (v : Lc) : (s.setPart p v).fns = s.fns := rfl
@[simp] theorem State.setPart_tces (s : State) (p : Nat) (v : Lc) : (s.setPart p v).tces = s.tces := rfl
@[simp] theorem State.setPart_codecs (s : State) (p : Nat) (v : Lc) : (s.setPart p v).codecs = s.codecs := rfl
@[simp] theorem State.setPart_ctxs (s : State) (p : Nat) (v : Lc) : (s.setPart p v).ctxs = s.ctxs := rfl
@[simp] theorem State.setPart_ops (s : State) (p : Nat) (v : Lc) : (s.setPart p v).ops = s.ops := rfl
@[simp] theorem State.setPart_nextTag (s : State) (p : Nat) (v : Lc) : (s.setPart p v).nextTag = s.nextTag := rfl
@[simp] theorem State.setPart_txDue (s : State) (p : Nat) (v : Lc) : (s.setPart p v).txDue = s.txDue := rfl
@[simp] theorem State.setPart_txSeq (s : State) (p : Nat) (v : Lc) : (s.setPart p v).txSeq = s.txSeq := rfl
@[simp] theorem State.setPart_ports (s : State) (p : Nat) (v : Lc) : (s.setPart p v).ports = s.ports := rfl
@[simp] theorem State.setPart_inject (s : State) (p : Nat) (v : Lc) : (s.setPart p v).inject = s.inject := rfl
@[simp] theorem State.setPart_injected (s : State) (p : Nat) (v : Lc) : (s.setPart p v).injected = s.injected := rfl
@[simp] theorem State.setPart_routes (s : State) (p : Nat) (v : Lc) : (s.setPart p v).routes = s.routes := rfl
@[simp] theorem State.setPart_linkMap (s : State) (p : Nat) (v : Lc) : (s.setPart p v).linkMap = s.linkMap := rfl
@[simp] theorem State.setPart_meridian (s : State) (p : Nat) (v : Lc) : (s.setPart p v).meridian = s.meridian := rfl
@[simp] theorem State.setPart_boot (s : State) (p : Nat) (v : Lc) : (s.setPart p v).boot = s.boot := rfl
@[simp] theorem State.setPart_gasp (s : State) (p : Nat) (v : Lc) : (s.setPart p v).gasp = s.gasp := rfl
@[simp] theorem State.setPart_power (s : State) (p : Nat) (v : Lc) : (s.setPart p v).power = s.power := rfl
@[simp] theorem State.setPart_freeze (s : State) (p : Nat) (v : Lc) : (s.setPart p v).freeze = s.freeze := rfl
@[simp] theorem State.setPart_halted (s : State) (p : Nat) (v : Lc) : (s.setPart p v).halted = s.halted := rfl
@[simp] theorem State.setPart_units (s : State) (p : Nat) (v : Lc) : (s.setPart p v).units = s.units := rfl
@[simp] theorem State.setPart_pins (s : State) (p : Nat) (v : Lc) : (s.setPart p v).pins = s.pins := rfl
@[simp] theorem State.setPart_clocks (s : State) (p : Nat) (v : Lc) : (s.setPart p v).clocks = s.clocks := rfl
@[simp] theorem State.setPart_watch (s : State) (p : Nat) (v : Lc) : (s.setPart p v).watch = s.watch := rfl
@[simp] theorem State.setPart_link (s : State) (p : Nat) (v : Lc) : (s.setPart p v).link = s.link := rfl
@[simp] theorem State.setPart_tests (s : State) (p : Nat) (v : Lc) : (s.setPart p v).tests = s.tests := rfl
@[simp] theorem State.setPart_get_facet (s : State) (p : Nat) (v : Lc) (k : Nat) : (s.setPart p v).facet k = s.facet k := rfl
@[simp] theorem State.setPart_get_queue (s : State) (p : Nat) (v : Lc) (k : Nat) : (s.setPart p v).queue k = s.queue k := rfl
@[simp] theorem State.setPart_get_fn (s : State) (p : Nat) (v : Lc) (k : Nat) : (s.setPart p v).fn k = s.fn k := rfl
@[simp] theorem State.setPart_get_tce (s : State) (p : Nat) (v : Lc) (k : Nat) : (s.setPart p v).tce k = s.tce k := rfl
@[simp] theorem State.setPart_get_codec (s : State) (p : Nat) (v : Lc) (k : Nat) : (s.setPart p v).codec k = s.codec k := rfl
@[simp] theorem State.setPart_get_port (s : State) (p : Nat) (v : Lc) (k : Nat) : (s.setPart p v).port k = s.port k := rfl
@[simp] theorem State.setPart_get_memCtl (s : State) (p : Nat) (v : Lc) (k : Nat) : (s.setPart p v).memCtl k = s.memCtl k := rfl
@[simp] theorem State.setPart_get_xing (s : State) (p : Nat) (v : Lc) (k : Nat) : (s.setPart p v).xing k = s.xing k := rfl
@[simp] theorem State.setPart_get_arb (s : State) (p : Nat) (v : Lc) (k : Nat) : (s.setPart p v).arb k = s.arb k := rfl
@[simp] theorem State.setPart_get_granProc (s : State) (p : Nat) (v : Lc) (k : Nat) : (s.setPart p v).granProc k = s.granProc k := rfl
@[simp] theorem State.setPart_get_unit (s : State) (p : Nat) (v : Lc) (k : Nat) : (s.setPart p v).unit k = s.unit k := rfl
@[simp] theorem State.setPart_get_op (s : State) (p : Nat) (v : Lc) (k : Nat) : (s.setPart p v).op k = s.op k := rfl
@[simp] theorem State.setPart_get_dirEntry (s : State) (p : Nat) (v : Lc) (k : Nat) : (s.setPart p v).dirEntry k = s.dirEntry k := rfl
@[simp] theorem State.setPart_get_counter (s : State) (p : Nat) (v : Lc) (k : Nat) : (s.setPart p v).counter k = s.counter k := rfl
@[simp] theorem State.setPart_get_ctx (s : State) (p : Nat) (v : Lc) (k m : Nat) : (s.setPart p v).ctx k m = s.ctx k m := rfl
@[simp] theorem State.setPart_get_cell (s : State) (p : Nat) (v : Lc) (r : Reg) : (s.setPart p v).cell r = s.cell r := rfl
@[simp] theorem State.setPart_get_val (s : State) (p : Nat) (v : Lc) (r : Reg) : (s.setPart p v).val r = s.val r := rfl
@[simp] theorem State.setPart_get_get (s : State) (p : Nat) (v : Lc) (r : Reg) (i j : Nat) : (s.setPart p v).get r i j = s.get r i j := rfl
@[simp] theorem State.setPart_get_upset (s : State) (p : Nat) (v : Lc) : (s.setPart p v).upset = s.upset := rfl
@[simp] theorem State.setPart_get_live (s : State) (p : Nat) (v : Lc) : (s.setPart p v).live = s.live := rfl

/-! setCtx -/
@[simp] theorem State.setCtx_pending (s : State) (e p : Nat) (v : Option Ctx) : (s.setCtx e p v).pending = s.pending := rfl
@[simp] theorem State.setCtx_fresh (s : State) (e p : Nat) (v : Option Ctx) : (s.setCtx e p v).fresh = s.fresh := rfl
@[simp] theorem State.setCtx_limClock (s : State) (e p : Nat) (v : Option Ctx) : (s.setCtx e p v).limClock = s.limClock := rfl
@[simp] theorem State.setCtx_time (s : State) (e p : Nat) (v : Option Ctx) : (s.setCtx e p v).time = s.time := rfl
@[simp] theorem State.setCtx_out (s : State) (e p : Nat) (v : Option Ctx) : (s.setCtx e p v).out = s.out := rfl
@[simp] theorem State.setCtx_nv (s : State) (e p : Nat) (v : Option Ctx) : (s.setCtx e p v).nv = s.nv := rfl
@[simp] theorem State.setCtx_host (s : State) (e p : Nat) (v : Option Ctx) : (s.setCtx e p v).host = s.host := rfl
@[simp] theorem State.setCtx_regs (s : State) (e p : Nat) (v : Option Ctx) : (s.setCtx e p v).regs = s.regs := rfl
@[simp] theorem State.setCtx_ctr (s : State) (e p : Nat) (v : Option Ctx) : (s.setCtx e p v).ctr = s.ctr := rfl
@[simp] theorem State.setCtx_mem (s : State) (e p : Nat) (v : Option Ctx) : (s.setCtx e p v).mem = s.mem := rfl
@[simp] theorem State.setCtx_poison (s : State) (e p : Nat) (v : Option Ctx) : (s.setCtx e p v).poison = s.poison := rfl
@[simp] theorem State.setCtx_ues (s : State) (e p : Nat) (v : Option Ctx) : (s.setCtx e p v).ues = s.ues := rfl
@[simp] theorem State.setCtx_classBits (s : State) (e p : Nat) (v : Option Ctx) : (s.setCtx e p v).classBits = s.classBits := rfl
@[simp] theorem State.setCtx_gran (s : State) (e p : Nat) (v : Option Ctx) : (s.setCtx e p v).gran = s.gran := rfl
@[simp] theorem State.setCtx_dir (s : State) (e p : Nat) (v : Option Ctx) : (s.setCtx e p v).dir = s.dir := rfl
@[simp] theorem State.setCtx_waitWrites (s : State) (e p : Nat) (v : Option Ctx) : (s.setCtx e p v).waitWrites = s.waitWrites := rfl
@[simp] theorem State.setCtx_promos (s : State) (e p : Nat) (v : Option Ctx) : (s.setCtx e p v).promos = s.promos := rfl
@[simp] theorem State.setCtx_memctl (s : State) (e p : Nat) (v : Option Ctx) : (s.setCtx e p v).memctl = s.memctl := rfl
@[simp] theorem State.setCtx_xings (s : State) (e p : Nat) (v : Option Ctx) : (s.setCtx e p v).xings = s.xings := rfl
@[simp] theorem State.setCtx_arbs (s : State) (e p : Nat) (v : Option Ctx) : (s.setCtx e p v).arbs = s.arbs := rfl
@[simp] theorem State.setCtx_beats (s : State) (e p : Nat) (v : Option Ctx) : (s.setCtx e p v).beats = s.beats := rfl
@[simp] theorem State.setCtx_active (s : State) (e p : Nat) (v : Option Ctx) : (s.setCtx e p v).active = s.active := rfl
@[simp] theorem State.setCtx_facets (s : State) (e p : Nat) (v : Option Ctx) : (s.setCtx e p v).facets = s.facets := rfl
@[simp] theorem State.setCtx_gangs (s : State) (e p : Nat) (v : Option Ctx) : (s.setCtx e p v).gangs = s.gangs := rfl
@[simp] theorem State.setCtx_seqTab (s : State) (e p : Nat) (v : Option Ctx) : (s.setCtx e p v).seqTab = s.seqTab := rfl
@[simp] theorem State.setCtx_queues (s : State) (e p : Nat) (v : Option Ctx) : (s.setCtx e p v).queues = s.queues := rfl
@[simp] theorem State.setCtx_posts (s : State) (e p : Nat) (v : Option Ctx) : (s.setCtx e p v).posts = s.posts := rfl
@[simp] theorem State.setCtx_fns (s : State) (e p : Nat) (v : Option Ctx) : (s.setCtx e p v).fns = s.fns := rfl
@[simp] theorem State.setCtx_tces (s : State) (e p : Nat) (v : Option Ctx) : (s.setCtx e p v).tces = s.tces := rfl
@[simp] theorem State.setCtx_codecs (s : State) (e p : Nat) (v : Option Ctx) : (s.setCtx e p v).codecs = s.codecs := rfl
@[simp] theorem State.setCtx_ops (s : State) (e p : Nat) (v : Option Ctx) : (s.setCtx e p v).ops = s.ops := rfl
@[simp] theorem State.setCtx_nextTag (s : State) (e p : Nat) (v : Option Ctx) : (s.setCtx e p v).nextTag = s.nextTag := rfl
@[simp] theorem State.setCtx_txDue (s : State) (e p : Nat) (v : Option Ctx) : (s.setCtx e p v).txDue = s.txDue := rfl
@[simp] theorem State.setCtx_txSeq (s : State) (e p : Nat) (v : Option Ctx) : (s.setCtx e p v).txSeq = s.txSeq := rfl
@[simp] theorem State.setCtx_ports (s : State) (e p : Nat) (v : Option Ctx) : (s.setCtx e p v).ports = s.ports := rfl
@[simp] theorem State.setCtx_inject (s : State) (e p : Nat) (v : Option Ctx) : (s.setCtx e p v).inject = s.inject := rfl
@[simp] theorem State.setCtx_injected (s : State) (e p : Nat) (v : Option Ctx) : (s.setCtx e p v).injected = s.injected := rfl
@[simp] theorem State.setCtx_routes (s : State) (e p : Nat) (v : Option Ctx) : (s.setCtx e p v).routes = s.routes := rfl
@[simp] theorem State.setCtx_linkMap (s : State) (e p : Nat) (v : Option Ctx) : (s.setCtx e p v).linkMap = s.linkMap := rfl
@[simp] theorem State.setCtx_meridian (s : State) (e p : Nat) (v : Option Ctx) : (s.setCtx e p v).meridian = s.meridian := rfl
@[simp] theorem State.setCtx_boot (s : State) (e p : Nat) (v : Option Ctx) : (s.setCtx e p v).boot = s.boot := rfl
@[simp] theorem State.setCtx_gasp (s : State) (e p : Nat) (v : Option Ctx) : (s.setCtx e p v).gasp = s.gasp := rfl
@[simp] theorem State.setCtx_power (s : State) (e p : Nat) (v : Option Ctx) : (s.setCtx e p v).power = s.power := rfl
@[simp] theorem State.setCtx_freeze (s : State) (e p : Nat) (v : Option Ctx) : (s.setCtx e p v).freeze = s.freeze := rfl
@[simp] theorem State.setCtx_halted (s : State) (e p : Nat) (v : Option Ctx) : (s.setCtx e p v).halted = s.halted := rfl
@[simp] theorem State.setCtx_units (s : State) (e p : Nat) (v : Option Ctx) : (s.setCtx e p v).units = s.units := rfl
@[simp] theorem State.setCtx_parts (s : State) (e p : Nat) (v : Option Ctx) : (s.setCtx e p v).parts = s.parts := rfl
@[simp] theorem State.setCtx_pins (s : State) (e p : Nat) (v : Option Ctx) : (s.setCtx e p v).pins = s.pins := rfl
@[simp] theorem State.setCtx_clocks (s : State) (e p : Nat) (v : Option Ctx) : (s.setCtx e p v).clocks = s.clocks := rfl
@[simp] theorem State.setCtx_watch (s : State) (e p : Nat) (v : Option Ctx) : (s.setCtx e p v).watch = s.watch := rfl
@[simp] theorem State.setCtx_link (s : State) (e p : Nat) (v : Option Ctx) : (s.setCtx e p v).link = s.link := rfl
@[simp] theorem State.setCtx_tests (s : State) (e p : Nat) (v : Option Ctx) : (s.setCtx e p v).tests = s.tests := rfl
@[simp] theorem State.setCtx_get_facet (s : State) (e p : Nat) (v : Option Ctx) (k : Nat) : (s.setCtx e p v).facet k = s.facet k := rfl
@[simp] theorem State.setCtx_get_queue (s : State) (e p : Nat) (v : Option Ctx) (k : Nat) : (s.setCtx e p v).queue k = s.queue k := rfl
@[simp] theorem State.setCtx_get_fn (s : State) (e p : Nat) (v : Option Ctx) (k : Nat) : (s.setCtx e p v).fn k = s.fn k := rfl
@[simp] theorem State.setCtx_get_tce (s : State) (e p : Nat) (v : Option Ctx) (k : Nat) : (s.setCtx e p v).tce k = s.tce k := rfl
@[simp] theorem State.setCtx_get_codec (s : State) (e p : Nat) (v : Option Ctx) (k : Nat) : (s.setCtx e p v).codec k = s.codec k := rfl
@[simp] theorem State.setCtx_get_port (s : State) (e p : Nat) (v : Option Ctx) (k : Nat) : (s.setCtx e p v).port k = s.port k := rfl
@[simp] theorem State.setCtx_get_memCtl (s : State) (e p : Nat) (v : Option Ctx) (k : Nat) : (s.setCtx e p v).memCtl k = s.memCtl k := rfl
@[simp] theorem State.setCtx_get_xing (s : State) (e p : Nat) (v : Option Ctx) (k : Nat) : (s.setCtx e p v).xing k = s.xing k := rfl
@[simp] theorem State.setCtx_get_arb (s : State) (e p : Nat) (v : Option Ctx) (k : Nat) : (s.setCtx e p v).arb k = s.arb k := rfl
@[simp] theorem State.setCtx_get_granProc (s : State) (e p : Nat) (v : Option Ctx) (k : Nat) : (s.setCtx e p v).granProc k = s.granProc k := rfl
@[simp] theorem State.setCtx_get_unit (s : State) (e p : Nat) (v : Option Ctx) (k : Nat) : (s.setCtx e p v).unit k = s.unit k := rfl
@[simp] theorem State.setCtx_get_part (s : State) (e p : Nat) (v : Option Ctx) (k : Nat) : (s.setCtx e p v).part k = s.part k := rfl
@[simp] theorem State.setCtx_get_op (s : State) (e p : Nat) (v : Option Ctx) (k : Nat) : (s.setCtx e p v).op k = s.op k := rfl
@[simp] theorem State.setCtx_get_dirEntry (s : State) (e p : Nat) (v : Option Ctx) (k : Nat) : (s.setCtx e p v).dirEntry k = s.dirEntry k := rfl
@[simp] theorem State.setCtx_get_counter (s : State) (e p : Nat) (v : Option Ctx) (k : Nat) : (s.setCtx e p v).counter k = s.counter k := rfl
@[simp] theorem State.setCtx_get_cell (s : State) (e p : Nat) (v : Option Ctx) (r : Reg) : (s.setCtx e p v).cell r = s.cell r := rfl
@[simp] theorem State.setCtx_get_val (s : State) (e p : Nat) (v : Option Ctx) (r : Reg) : (s.setCtx e p v).val r = s.val r := rfl
@[simp] theorem State.setCtx_get_get (s : State) (e p : Nat) (v : Option Ctx) (r : Reg) (i j : Nat) : (s.setCtx e p v).get r i j = s.get r i j := rfl
@[simp] theorem State.setCtx_get_upset (s : State) (e p : Nat) (v : Option Ctx) : (s.setCtx e p v).upset = s.upset := rfl
@[simp] theorem State.setCtx_get_live (s : State) (e p : Nat) (v : Option Ctx) : (s.setCtx e p v).live = s.live := rfl

/-! setOp -/
@[simp] theorem State.setOp_pending (s : State) (t : Nat) (v : Option RemOp) : (s.setOp t v).pending = s.pending := rfl
@[simp] theorem State.setOp_fresh (s : State) (t : Nat) (v : Option RemOp) : (s.setOp t v).fresh = s.fresh := rfl
@[simp] theorem State.setOp_limClock (s : State) (t : Nat) (v : Option RemOp) : (s.setOp t v).limClock = s.limClock := rfl
@[simp] theorem State.setOp_time (s : State) (t : Nat) (v : Option RemOp) : (s.setOp t v).time = s.time := rfl
@[simp] theorem State.setOp_out (s : State) (t : Nat) (v : Option RemOp) : (s.setOp t v).out = s.out := rfl
@[simp] theorem State.setOp_nv (s : State) (t : Nat) (v : Option RemOp) : (s.setOp t v).nv = s.nv := rfl
@[simp] theorem State.setOp_host (s : State) (t : Nat) (v : Option RemOp) : (s.setOp t v).host = s.host := rfl
@[simp] theorem State.setOp_regs (s : State) (t : Nat) (v : Option RemOp) : (s.setOp t v).regs = s.regs := rfl
@[simp] theorem State.setOp_ctr (s : State) (t : Nat) (v : Option RemOp) : (s.setOp t v).ctr = s.ctr := rfl
@[simp] theorem State.setOp_mem (s : State) (t : Nat) (v : Option RemOp) : (s.setOp t v).mem = s.mem := rfl
@[simp] theorem State.setOp_poison (s : State) (t : Nat) (v : Option RemOp) : (s.setOp t v).poison = s.poison := rfl
@[simp] theorem State.setOp_ues (s : State) (t : Nat) (v : Option RemOp) : (s.setOp t v).ues = s.ues := rfl
@[simp] theorem State.setOp_classBits (s : State) (t : Nat) (v : Option RemOp) : (s.setOp t v).classBits = s.classBits := rfl
@[simp] theorem State.setOp_gran (s : State) (t : Nat) (v : Option RemOp) : (s.setOp t v).gran = s.gran := rfl
@[simp] theorem State.setOp_dir (s : State) (t : Nat) (v : Option RemOp) : (s.setOp t v).dir = s.dir := rfl
@[simp] theorem State.setOp_waitWrites (s : State) (t : Nat) (v : Option RemOp) : (s.setOp t v).waitWrites = s.waitWrites := rfl
@[simp] theorem State.setOp_promos (s : State) (t : Nat) (v : Option RemOp) : (s.setOp t v).promos = s.promos := rfl
@[simp] theorem State.setOp_memctl (s : State) (t : Nat) (v : Option RemOp) : (s.setOp t v).memctl = s.memctl := rfl
@[simp] theorem State.setOp_xings (s : State) (t : Nat) (v : Option RemOp) : (s.setOp t v).xings = s.xings := rfl
@[simp] theorem State.setOp_arbs (s : State) (t : Nat) (v : Option RemOp) : (s.setOp t v).arbs = s.arbs := rfl
@[simp] theorem State.setOp_beats (s : State) (t : Nat) (v : Option RemOp) : (s.setOp t v).beats = s.beats := rfl
@[simp] theorem State.setOp_active (s : State) (t : Nat) (v : Option RemOp) : (s.setOp t v).active = s.active := rfl
@[simp] theorem State.setOp_facets (s : State) (t : Nat) (v : Option RemOp) : (s.setOp t v).facets = s.facets := rfl
@[simp] theorem State.setOp_gangs (s : State) (t : Nat) (v : Option RemOp) : (s.setOp t v).gangs = s.gangs := rfl
@[simp] theorem State.setOp_seqTab (s : State) (t : Nat) (v : Option RemOp) : (s.setOp t v).seqTab = s.seqTab := rfl
@[simp] theorem State.setOp_queues (s : State) (t : Nat) (v : Option RemOp) : (s.setOp t v).queues = s.queues := rfl
@[simp] theorem State.setOp_posts (s : State) (t : Nat) (v : Option RemOp) : (s.setOp t v).posts = s.posts := rfl
@[simp] theorem State.setOp_fns (s : State) (t : Nat) (v : Option RemOp) : (s.setOp t v).fns = s.fns := rfl
@[simp] theorem State.setOp_tces (s : State) (t : Nat) (v : Option RemOp) : (s.setOp t v).tces = s.tces := rfl
@[simp] theorem State.setOp_codecs (s : State) (t : Nat) (v : Option RemOp) : (s.setOp t v).codecs = s.codecs := rfl
@[simp] theorem State.setOp_ctxs (s : State) (t : Nat) (v : Option RemOp) : (s.setOp t v).ctxs = s.ctxs := rfl
@[simp] theorem State.setOp_nextTag (s : State) (t : Nat) (v : Option RemOp) : (s.setOp t v).nextTag = s.nextTag := rfl
@[simp] theorem State.setOp_txDue (s : State) (t : Nat) (v : Option RemOp) : (s.setOp t v).txDue = s.txDue := rfl
@[simp] theorem State.setOp_txSeq (s : State) (t : Nat) (v : Option RemOp) : (s.setOp t v).txSeq = s.txSeq := rfl
@[simp] theorem State.setOp_ports (s : State) (t : Nat) (v : Option RemOp) : (s.setOp t v).ports = s.ports := rfl
@[simp] theorem State.setOp_inject (s : State) (t : Nat) (v : Option RemOp) : (s.setOp t v).inject = s.inject := rfl
@[simp] theorem State.setOp_injected (s : State) (t : Nat) (v : Option RemOp) : (s.setOp t v).injected = s.injected := rfl
@[simp] theorem State.setOp_routes (s : State) (t : Nat) (v : Option RemOp) : (s.setOp t v).routes = s.routes := rfl
@[simp] theorem State.setOp_linkMap (s : State) (t : Nat) (v : Option RemOp) : (s.setOp t v).linkMap = s.linkMap := rfl
@[simp] theorem State.setOp_meridian (s : State) (t : Nat) (v : Option RemOp) : (s.setOp t v).meridian = s.meridian := rfl
@[simp] theorem State.setOp_boot (s : State) (t : Nat) (v : Option RemOp) : (s.setOp t v).boot = s.boot := rfl
@[simp] theorem State.setOp_gasp (s : State) (t : Nat) (v : Option RemOp) : (s.setOp t v).gasp = s.gasp := rfl
@[simp] theorem State.setOp_power (s : State) (t : Nat) (v : Option RemOp) : (s.setOp t v).power = s.power := rfl
@[simp] theorem State.setOp_freeze (s : State) (t : Nat) (v : Option RemOp) : (s.setOp t v).freeze = s.freeze := rfl
@[simp] theorem State.setOp_halted (s : State) (t : Nat) (v : Option RemOp) : (s.setOp t v).halted = s.halted := rfl
@[simp] theorem State.setOp_units (s : State) (t : Nat) (v : Option RemOp) : (s.setOp t v).units = s.units := rfl
@[simp] theorem State.setOp_parts (s : State) (t : Nat) (v : Option RemOp) : (s.setOp t v).parts = s.parts := rfl
@[simp] theorem State.setOp_pins (s : State) (t : Nat) (v : Option RemOp) : (s.setOp t v).pins = s.pins := rfl
@[simp] theorem State.setOp_clocks (s : State) (t : Nat) (v : Option RemOp) : (s.setOp t v).clocks = s.clocks := rfl
@[simp] theorem State.setOp_watch (s : State) (t : Nat) (v : Option RemOp) : (s.setOp t v).watch = s.watch := rfl
@[simp] theorem State.setOp_link (s : State) (t : Nat) (v : Option RemOp) : (s.setOp t v).link = s.link := rfl
@[simp] theorem State.setOp_tests (s : State) (t : Nat) (v : Option RemOp) : (s.setOp t v).tests = s.tests := rfl
@[simp] theorem State.setOp_get_facet (s : State) (t : Nat) (v : Option RemOp) (k : Nat) : (s.setOp t v).facet k = s.facet k := rfl
@[simp] theorem State.setOp_get_queue (s : State) (t : Nat) (v : Option RemOp) (k : Nat) : (s.setOp t v).queue k = s.queue k := rfl
@[simp] theorem State.setOp_get_fn (s : State) (t : Nat) (v : Option RemOp) (k : Nat) : (s.setOp t v).fn k = s.fn k := rfl
@[simp] theorem State.setOp_get_tce (s : State) (t : Nat) (v : Option RemOp) (k : Nat) : (s.setOp t v).tce k = s.tce k := rfl
@[simp] theorem State.setOp_get_codec (s : State) (t : Nat) (v : Option RemOp) (k : Nat) : (s.setOp t v).codec k = s.codec k := rfl
@[simp] theorem State.setOp_get_port (s : State) (t : Nat) (v : Option RemOp) (k : Nat) : (s.setOp t v).port k = s.port k := rfl
@[simp] theorem State.setOp_get_memCtl (s : State) (t : Nat) (v : Option RemOp) (k : Nat) : (s.setOp t v).memCtl k = s.memCtl k := rfl
@[simp] theorem State.setOp_get_xing (s : State) (t : Nat) (v : Option RemOp) (k : Nat) : (s.setOp t v).xing k = s.xing k := rfl
@[simp] theorem State.setOp_get_arb (s : State) (t : Nat) (v : Option RemOp) (k : Nat) : (s.setOp t v).arb k = s.arb k := rfl
@[simp] theorem State.setOp_get_granProc (s : State) (t : Nat) (v : Option RemOp) (k : Nat) : (s.setOp t v).granProc k = s.granProc k := rfl
@[simp] theorem State.setOp_get_unit (s : State) (t : Nat) (v : Option RemOp) (k : Nat) : (s.setOp t v).unit k = s.unit k := rfl
@[simp] theorem State.setOp_get_part (s : State) (t : Nat) (v : Option RemOp) (k : Nat) : (s.setOp t v).part k = s.part k := rfl
@[simp] theorem State.setOp_get_dirEntry (s : State) (t : Nat) (v : Option RemOp) (k : Nat) : (s.setOp t v).dirEntry k = s.dirEntry k := rfl
@[simp] theorem State.setOp_get_counter (s : State) (t : Nat) (v : Option RemOp) (k : Nat) : (s.setOp t v).counter k = s.counter k := rfl
@[simp] theorem State.setOp_get_ctx (s : State) (t : Nat) (v : Option RemOp) (k m : Nat) : (s.setOp t v).ctx k m = s.ctx k m := rfl
@[simp] theorem State.setOp_get_cell (s : State) (t : Nat) (v : Option RemOp) (r : Reg) : (s.setOp t v).cell r = s.cell r := rfl
@[simp] theorem State.setOp_get_val (s : State) (t : Nat) (v : Option RemOp) (r : Reg) : (s.setOp t v).val r = s.val r := rfl
@[simp] theorem State.setOp_get_get (s : State) (t : Nat) (v : Option RemOp) (r : Reg) (i j : Nat) : (s.setOp t v).get r i j = s.get r i j := rfl
@[simp] theorem State.setOp_get_upset (s : State) (t : Nat) (v : Option RemOp) : (s.setOp t v).upset = s.upset := rfl
@[simp] theorem State.setOp_get_live (s : State) (t : Nat) (v : Option RemOp) : (s.setOp t v).live = s.live := rfl

/-! setDir -/
@[simp] theorem State.setDir_pending (s : State) (tile : Nat) (v : Option DirEntry) : (s.setDir tile v).pending = s.pending := rfl
@[simp] theorem State.setDir_fresh (s : State) (tile : Nat) (v : Option DirEntry) : (s.setDir tile v).fresh = s.fresh := rfl
@[simp] theorem State.setDir_limClock (s : State) (tile : Nat) (v : Option DirEntry) : (s.setDir tile v).limClock = s.limClock := rfl
@[simp] theorem State.setDir_time (s : State) (tile : Nat) (v : Option DirEntry) : (s.setDir tile v).time = s.time := rfl
@[simp] theorem State.setDir_out (s : State) (tile : Nat) (v : Option DirEntry) : (s.setDir tile v).out = s.out := rfl
@[simp] theorem State.setDir_nv (s : State) (tile : Nat) (v : Option DirEntry) : (s.setDir tile v).nv = s.nv := rfl
@[simp] theorem State.setDir_host (s : State) (tile : Nat) (v : Option DirEntry) : (s.setDir tile v).host = s.host := rfl
@[simp] theorem State.setDir_regs (s : State) (tile : Nat) (v : Option DirEntry) : (s.setDir tile v).regs = s.regs := rfl
@[simp] theorem State.setDir_ctr (s : State) (tile : Nat) (v : Option DirEntry) : (s.setDir tile v).ctr = s.ctr := rfl
@[simp] theorem State.setDir_mem (s : State) (tile : Nat) (v : Option DirEntry) : (s.setDir tile v).mem = s.mem := rfl
@[simp] theorem State.setDir_poison (s : State) (tile : Nat) (v : Option DirEntry) : (s.setDir tile v).poison = s.poison := rfl
@[simp] theorem State.setDir_ues (s : State) (tile : Nat) (v : Option DirEntry) : (s.setDir tile v).ues = s.ues := rfl
@[simp] theorem State.setDir_classBits (s : State) (tile : Nat) (v : Option DirEntry) : (s.setDir tile v).classBits = s.classBits := rfl
@[simp] theorem State.setDir_gran (s : State) (tile : Nat) (v : Option DirEntry) : (s.setDir tile v).gran = s.gran := rfl
@[simp] theorem State.setDir_waitWrites (s : State) (tile : Nat) (v : Option DirEntry) : (s.setDir tile v).waitWrites = s.waitWrites := rfl
@[simp] theorem State.setDir_promos (s : State) (tile : Nat) (v : Option DirEntry) : (s.setDir tile v).promos = s.promos := rfl
@[simp] theorem State.setDir_memctl (s : State) (tile : Nat) (v : Option DirEntry) : (s.setDir tile v).memctl = s.memctl := rfl
@[simp] theorem State.setDir_xings (s : State) (tile : Nat) (v : Option DirEntry) : (s.setDir tile v).xings = s.xings := rfl
@[simp] theorem State.setDir_arbs (s : State) (tile : Nat) (v : Option DirEntry) : (s.setDir tile v).arbs = s.arbs := rfl
@[simp] theorem State.setDir_beats (s : State) (tile : Nat) (v : Option DirEntry) : (s.setDir tile v).beats = s.beats := rfl
@[simp] theorem State.setDir_active (s : State) (tile : Nat) (v : Option DirEntry) : (s.setDir tile v).active = s.active := rfl
@[simp] theorem State.setDir_facets (s : State) (tile : Nat) (v : Option DirEntry) : (s.setDir tile v).facets = s.facets := rfl
@[simp] theorem State.setDir_gangs (s : State) (tile : Nat) (v : Option DirEntry) : (s.setDir tile v).gangs = s.gangs := rfl
@[simp] theorem State.setDir_seqTab (s : State) (tile : Nat) (v : Option DirEntry) : (s.setDir tile v).seqTab = s.seqTab := rfl
@[simp] theorem State.setDir_queues (s : State) (tile : Nat) (v : Option DirEntry) : (s.setDir tile v).queues = s.queues := rfl
@[simp] theorem State.setDir_posts (s : State) (tile : Nat) (v : Option DirEntry) : (s.setDir tile v).posts = s.posts := rfl
@[simp] theorem State.setDir_fns (s : State) (tile : Nat) (v : Option DirEntry) : (s.setDir tile v).fns = s.fns := rfl
@[simp] theorem State.setDir_tces (s : State) (tile : Nat) (v : Option DirEntry) : (s.setDir tile v).tces = s.tces := rfl
@[simp] theorem State.setDir_codecs (s : State) (tile : Nat) (v : Option DirEntry) : (s.setDir tile v).codecs = s.codecs := rfl
@[simp] theorem State.setDir_ctxs (s : State) (tile : Nat) (v : Option DirEntry) : (s.setDir tile v).ctxs = s.ctxs := rfl
@[simp] theorem State.setDir_ops (s : State) (tile : Nat) (v : Option DirEntry) : (s.setDir tile v).ops = s.ops := rfl
@[simp] theorem State.setDir_nextTag (s : State) (tile : Nat) (v : Option DirEntry) : (s.setDir tile v).nextTag = s.nextTag := rfl
@[simp] theorem State.setDir_txDue (s : State) (tile : Nat) (v : Option DirEntry) : (s.setDir tile v).txDue = s.txDue := rfl
@[simp] theorem State.setDir_txSeq (s : State) (tile : Nat) (v : Option DirEntry) : (s.setDir tile v).txSeq = s.txSeq := rfl
@[simp] theorem State.setDir_ports (s : State) (tile : Nat) (v : Option DirEntry) : (s.setDir tile v).ports = s.ports := rfl
@[simp] theorem State.setDir_inject (s : State) (tile : Nat) (v : Option DirEntry) : (s.setDir tile v).inject = s.inject := rfl
@[simp] theorem State.setDir_injected (s : State) (tile : Nat) (v : Option DirEntry) : (s.setDir tile v).injected = s.injected := rfl
@[simp] theorem State.setDir_routes (s : State) (tile : Nat) (v : Option DirEntry) : (s.setDir tile v).routes = s.routes := rfl
@[simp] theorem State.setDir_linkMap (s : State) (tile : Nat) (v : Option DirEntry) : (s.setDir tile v).linkMap = s.linkMap := rfl
@[simp] theorem State.setDir_meridian (s : State) (tile : Nat) (v : Option DirEntry) : (s.setDir tile v).meridian = s.meridian := rfl
@[simp] theorem State.setDir_boot (s : State) (tile : Nat) (v : Option DirEntry) : (s.setDir tile v).boot = s.boot := rfl
@[simp] theorem State.setDir_gasp (s : State) (tile : Nat) (v : Option DirEntry) : (s.setDir tile v).gasp = s.gasp := rfl
@[simp] theorem State.setDir_power (s : State) (tile : Nat) (v : Option DirEntry) : (s.setDir tile v).power = s.power := rfl
@[simp] theorem State.setDir_freeze (s : State) (tile : Nat) (v : Option DirEntry) : (s.setDir tile v).freeze = s.freeze := rfl
@[simp] theorem State.setDir_halted (s : State) (tile : Nat) (v : Option DirEntry) : (s.setDir tile v).halted = s.halted := rfl
@[simp] theorem State.setDir_units (s : State) (tile : Nat) (v : Option DirEntry) : (s.setDir tile v).units = s.units := rfl
@[simp] theorem State.setDir_parts (s : State) (tile : Nat) (v : Option DirEntry) : (s.setDir tile v).parts = s.parts := rfl
@[simp] theorem State.setDir_pins (s : State) (tile : Nat) (v : Option DirEntry) : (s.setDir tile v).pins = s.pins := rfl
@[simp] theorem State.setDir_clocks (s : State) (tile : Nat) (v : Option DirEntry) : (s.setDir tile v).clocks = s.clocks := rfl
@[simp] theorem State.setDir_watch (s : State) (tile : Nat) (v : Option DirEntry) : (s.setDir tile v).watch = s.watch := rfl
@[simp] theorem State.setDir_link (s : State) (tile : Nat) (v : Option DirEntry) : (s.setDir tile v).link = s.link := rfl
@[simp] theorem State.setDir_tests (s : State) (tile : Nat) (v : Option DirEntry) : (s.setDir tile v).tests = s.tests := rfl
@[simp] theorem State.setDir_get_facet (s : State) (tile : Nat) (v : Option DirEntry) (k : Nat) : (s.setDir tile v).facet k = s.facet k := rfl
@[simp] theorem State.setDir_get_queue (s : State) (tile : Nat) (v : Option DirEntry) (k : Nat) : (s.setDir tile v).queue k = s.queue k := rfl
@[simp] theorem State.setDir_get_fn (s : State) (tile : Nat) (v : Option DirEntry) (k : Nat) : (s.setDir tile v).fn k = s.fn k := rfl
@[simp] theorem State.setDir_get_tce (s : State) (tile : Nat) (v : Option DirEntry) (k : Nat) : (s.setDir tile v).tce k = s.tce k := rfl
@[simp] theorem State.setDir_get_codec (s : State) (tile : Nat) (v : Option DirEntry) (k : Nat) : (s.setDir tile v).codec k = s.codec k := rfl
@[simp] theorem State.setDir_get_port (s : State) (tile : Nat) (v : Option DirEntry) (k : Nat) : (s.setDir tile v).port k = s.port k := rfl
@[simp] theorem State.setDir_get_memCtl (s : State) (tile : Nat) (v : Option DirEntry) (k : Nat) : (s.setDir tile v).memCtl k = s.memCtl k := rfl
@[simp] theorem State.setDir_get_xing (s : State) (tile : Nat) (v : Option DirEntry) (k : Nat) : (s.setDir tile v).xing k = s.xing k := rfl
@[simp] theorem State.setDir_get_arb (s : State) (tile : Nat) (v : Option DirEntry) (k : Nat) : (s.setDir tile v).arb k = s.arb k := rfl
@[simp] theorem State.setDir_get_granProc (s : State) (tile : Nat) (v : Option DirEntry) (k : Nat) : (s.setDir tile v).granProc k = s.granProc k := rfl
@[simp] theorem State.setDir_get_unit (s : State) (tile : Nat) (v : Option DirEntry) (k : Nat) : (s.setDir tile v).unit k = s.unit k := rfl
@[simp] theorem State.setDir_get_part (s : State) (tile : Nat) (v : Option DirEntry) (k : Nat) : (s.setDir tile v).part k = s.part k := rfl
@[simp] theorem State.setDir_get_op (s : State) (tile : Nat) (v : Option DirEntry) (k : Nat) : (s.setDir tile v).op k = s.op k := rfl
@[simp] theorem State.setDir_get_counter (s : State) (tile : Nat) (v : Option DirEntry) (k : Nat) : (s.setDir tile v).counter k = s.counter k := rfl
@[simp] theorem State.setDir_get_ctx (s : State) (tile : Nat) (v : Option DirEntry) (k m : Nat) : (s.setDir tile v).ctx k m = s.ctx k m := rfl
@[simp] theorem State.setDir_get_cell (s : State) (tile : Nat) (v : Option DirEntry) (r : Reg) : (s.setDir tile v).cell r = s.cell r := rfl
@[simp] theorem State.setDir_get_val (s : State) (tile : Nat) (v : Option DirEntry) (r : Reg) : (s.setDir tile v).val r = s.val r := rfl
@[simp] theorem State.setDir_get_get (s : State) (tile : Nat) (v : Option DirEntry) (r : Reg) (i j : Nat) : (s.setDir tile v).get r i j = s.get r i j := rfl
@[simp] theorem State.setDir_get_upset (s : State) (tile : Nat) (v : Option DirEntry) : (s.setDir tile v).upset = s.upset := rfl
@[simp] theorem State.setDir_get_live (s : State) (tile : Nat) (v : Option DirEntry) : (s.setDir tile v).live = s.live := rfl

/-! setCell -/
@[simp] theorem State.setCell_pending (s : State) (r : Reg) (c : RegCell) : (s.setCell r c).pending = s.pending := rfl
@[simp] theorem State.setCell_fresh (s : State) (r : Reg) (c : RegCell) : (s.setCell r c).fresh = s.fresh := rfl
@[simp] theorem State.setCell_limClock (s : State) (r : Reg) (c : RegCell) : (s.setCell r c).limClock = s.limClock := rfl
@[simp] theorem State.setCell_time (s : State) (r : Reg) (c : RegCell) : (s.setCell r c).time = s.time := rfl
@[simp] theorem State.setCell_out (s : State) (r : Reg) (c : RegCell) : (s.setCell r c).out = s.out := rfl
@[simp] theorem State.setCell_nv (s : State) (r : Reg) (c : RegCell) : (s.setCell r c).nv = s.nv := rfl
@[simp] theorem State.setCell_host (s : State) (r : Reg) (c : RegCell) : (s.setCell r c).host = s.host := rfl
@[simp] theorem State.setCell_ctr (s : State) (r : Reg) (c : RegCell) : (s.setCell r c).ctr = s.ctr := rfl
@[simp] theorem State.setCell_mem (s : State) (r : Reg) (c : RegCell) : (s.setCell r c).mem = s.mem := rfl
@[simp] theorem State.setCell_poison (s : State) (r : Reg) (c : RegCell) : (s.setCell r c).poison = s.poison := rfl
@[simp] theorem State.setCell_ues (s : State) (r : Reg) (c : RegCell) : (s.setCell r c).ues = s.ues := rfl
@[simp] theorem State.setCell_classBits (s : State) (r : Reg) (c : RegCell) : (s.setCell r c).classBits = s.classBits := rfl
@[simp] theorem State.setCell_gran (s : State) (r : Reg) (c : RegCell) : (s.setCell r c).gran = s.gran := rfl
@[simp] theorem State.setCell_dir (s : State) (r : Reg) (c : RegCell) : (s.setCell r c).dir = s.dir := rfl
@[simp] theorem State.setCell_waitWrites (s : State) (r : Reg) (c : RegCell) : (s.setCell r c).waitWrites = s.waitWrites := rfl
@[simp] theorem State.setCell_promos (s : State) (r : Reg) (c : RegCell) : (s.setCell r c).promos = s.promos := rfl
@[simp] theorem State.setCell_memctl (s : State) (r : Reg) (c : RegCell) : (s.setCell r c).memctl = s.memctl := rfl
@[simp] theorem State.setCell_xings (s : State) (r : Reg) (c : RegCell) : (s.setCell r c).xings = s.xings := rfl
@[simp] theorem State.setCell_arbs (s : State) (r : Reg) (c : RegCell) : (s.setCell r c).arbs = s.arbs := rfl
@[simp] theorem State.setCell_beats (s : State) (r : Reg) (c : RegCell) : (s.setCell r c).beats = s.beats := rfl
@[simp] theorem State.setCell_active (s : State) (r : Reg) (c : RegCell) : (s.setCell r c).active = s.active := rfl
@[simp] theorem State.setCell_facets (s : State) (r : Reg) (c : RegCell) : (s.setCell r c).facets = s.facets := rfl
@[simp] theorem State.setCell_gangs (s : State) (r : Reg) (c : RegCell) : (s.setCell r c).gangs = s.gangs := rfl
@[simp] theorem State.setCell_seqTab (s : State) (r : Reg) (c : RegCell) : (s.setCell r c).seqTab = s.seqTab := rfl
@[simp] theorem State.setCell_queues (s : State) (r : Reg) (c : RegCell) : (s.setCell r c).queues = s.queues := rfl
@[simp] theorem State.setCell_posts (s : State) (r : Reg) (c : RegCell) : (s.setCell r c).posts = s.posts := rfl
@[simp] theorem State.setCell_fns (s : State) (r : Reg) (c : RegCell) : (s.setCell r c).fns = s.fns := rfl
@[simp] theorem State.setCell_tces (s : State) (r : Reg) (c : RegCell) : (s.setCell r c).tces = s.tces := rfl
@[simp] theorem State.setCell_codecs (s : State) (r : Reg) (c : RegCell) : (s.setCell r c).codecs = s.codecs := rfl
@[simp] theorem State.setCell_ctxs (s : State) (r : Reg) (c : RegCell) : (s.setCell r c).ctxs = s.ctxs := rfl
@[simp] theorem State.setCell_ops (s : State) (r : Reg) (c : RegCell) : (s.setCell r c).ops = s.ops := rfl
@[simp] theorem State.setCell_nextTag (s : State) (r : Reg) (c : RegCell) : (s.setCell r c).nextTag = s.nextTag := rfl
@[simp] theorem State.setCell_txDue (s : State) (r : Reg) (c : RegCell) : (s.setCell r c).txDue = s.txDue := rfl
@[simp] theorem State.setCell_txSeq (s : State) (r : Reg) (c : RegCell) : (s.setCell r c).txSeq = s.txSeq := rfl
@[simp] theorem State.setCell_ports (s : State) (r : Reg) (c : RegCell) : (s.setCell r c).ports = s.ports := rfl
@[simp] theorem State.setCell_inject (s : State) (r : Reg) (c : RegCell) : (s.setCell r c).inject = s.inject := rfl
@[simp] theorem State.setCell_injected (s : State) (r : Reg) (c : RegCell) : (s.setCell r c).injected = s.injected := rfl
@[simp] theorem State.setCell_routes (s : State) (r : Reg) (c : RegCell) : (s.setCell r c).routes = s.routes := rfl
@[simp] theorem State.setCell_linkMap (s : State) (r : Reg) (c : RegCell) : (s.setCell r c).linkMap = s.linkMap := rfl
@[simp] theorem State.setCell_meridian (s : State) (r : Reg) (c : RegCell) : (s.setCell r c).meridian = s.meridian := rfl
@[simp] theorem State.setCell_boot (s : State) (r : Reg) (c : RegCell) : (s.setCell r c).boot = s.boot := rfl
@[simp] theorem State.setCell_gasp (s : State) (r : Reg) (c : RegCell) : (s.setCell r c).gasp = s.gasp := rfl
@[simp] theorem State.setCell_power (s : State) (r : Reg) (c : RegCell) : (s.setCell r c).power = s.power := rfl
@[simp] theorem State.setCell_freeze (s : State) (r : Reg) (c : RegCell) : (s.setCell r c).freeze = s.freeze := rfl
@[simp] theorem State.setCell_halted (s : State) (r : Reg) (c : RegCell) : (s.setCell r c).halted = s.halted := rfl
@[simp] theorem State.setCell_units (s : State) (r : Reg) (c : RegCell) : (s.setCell r c).units = s.units := rfl
@[simp] theorem State.setCell_parts (s : State) (r : Reg) (c : RegCell) : (s.setCell r c).parts = s.parts := rfl
@[simp] theorem State.setCell_pins (s : State) (r : Reg) (c : RegCell) : (s.setCell r c).pins = s.pins := rfl
@[simp] theorem State.setCell_clocks (s : State) (r : Reg) (c : RegCell) : (s.setCell r c).clocks = s.clocks := rfl
@[simp] theorem State.setCell_watch (s : State) (r : Reg) (c : RegCell) : (s.setCell r c).watch = s.watch := rfl
@[simp] theorem State.setCell_link (s : State) (r : Reg) (c : RegCell) : (s.setCell r c).link = s.link := rfl
@[simp] theorem State.setCell_tests (s : State) (r : Reg) (c : RegCell) : (s.setCell r c).tests = s.tests := rfl
@[simp] theorem State.setCell_get_facet (s : State) (r : Reg) (c : RegCell) (k : Nat) : (s.setCell r c).facet k = s.facet k := rfl
@[simp] theorem State.setCell_get_queue (s : State) (r : Reg) (c : RegCell) (k : Nat) : (s.setCell r c).queue k = s.queue k := rfl
@[simp] theorem State.setCell_get_fn (s : State) (r : Reg) (c : RegCell) (k : Nat) : (s.setCell r c).fn k = s.fn k := rfl
@[simp] theorem State.setCell_get_tce (s : State) (r : Reg) (c : RegCell) (k : Nat) : (s.setCell r c).tce k = s.tce k := rfl
@[simp] theorem State.setCell_get_codec (s : State) (r : Reg) (c : RegCell) (k : Nat) : (s.setCell r c).codec k = s.codec k := rfl
@[simp] theorem State.setCell_get_port (s : State) (r : Reg) (c : RegCell) (k : Nat) : (s.setCell r c).port k = s.port k := rfl
@[simp] theorem State.setCell_get_memCtl (s : State) (r : Reg) (c : RegCell) (k : Nat) : (s.setCell r c).memCtl k = s.memCtl k := rfl
@[simp] theorem State.setCell_get_xing (s : State) (r : Reg) (c : RegCell) (k : Nat) : (s.setCell r c).xing k = s.xing k := rfl
@[simp] theorem State.setCell_get_arb (s : State) (r : Reg) (c : RegCell) (k : Nat) : (s.setCell r c).arb k = s.arb k := rfl
@[simp] theorem State.setCell_get_granProc (s : State) (r : Reg) (c : RegCell) (k : Nat) : (s.setCell r c).granProc k = s.granProc k := rfl
@[simp] theorem State.setCell_get_unit (s : State) (r : Reg) (c : RegCell) (k : Nat) : (s.setCell r c).unit k = s.unit k := rfl
@[simp] theorem State.setCell_get_part (s : State) (r : Reg) (c : RegCell) (k : Nat) : (s.setCell r c).part k = s.part k := rfl
@[simp] theorem State.setCell_get_op (s : State) (r : Reg) (c : RegCell) (k : Nat) : (s.setCell r c).op k = s.op k := rfl
@[simp] theorem State.setCell_get_dirEntry (s : State) (r : Reg) (c : RegCell) (k : Nat) : (s.setCell r c).dirEntry k = s.dirEntry k := rfl
@[simp] theorem State.setCell_get_counter (s : State) (r : Reg) (c : RegCell) (k : Nat) : (s.setCell r c).counter k = s.counter k := rfl
@[simp] theorem State.setCell_get_ctx (s : State) (r : Reg) (c : RegCell) (k m : Nat) : (s.setCell r c).ctx k m = s.ctx k m := rfl
@[simp] theorem State.setCell_get_live (s : State) (r : Reg) (c : RegCell) : (s.setCell r c).live = s.live := rfl

/-! setVal -/
@[simp] theorem State.setVal_pending (s : State) (r : Reg) (w : Word) : (s.setVal r w).pending = s.pending := rfl
@[simp] theorem State.setVal_fresh (s : State) (r : Reg) (w : Word) : (s.setVal r w).fresh = s.fresh := rfl
@[simp] theorem State.setVal_limClock (s : State) (r : Reg) (w : Word) : (s.setVal r w).limClock = s.limClock := rfl
@[simp] theorem State.setVal_time (s : State) (r : Reg) (w : Word) : (s.setVal r w).time = s.time := rfl
@[simp] theorem State.setVal_out (s : State) (r : Reg) (w : Word) : (s.setVal r w).out = s.out := rfl
@[simp] theorem State.setVal_nv (s : State) (r : Reg) (w : Word) : (s.setVal r w).nv = s.nv := rfl
@[simp] theorem State.setVal_host (s : State) (r : Reg) (w : Word) : (s.setVal r w).host = s.host := rfl
@[simp] theorem State.setVal_ctr (s : State) (r : Reg) (w : Word) : (s.setVal r w).ctr = s.ctr := rfl
@[simp] theorem State.setVal_mem (s : State) (r : Reg) (w : Word) : (s.setVal r w).mem = s.mem := rfl
@[simp] theorem State.setVal_poison (s : State) (r : Reg) (w : Word) : (s.setVal r w).poison = s.poison := rfl
@[simp] theorem State.setVal_ues (s : State) (r : Reg) (w : Word) : (s.setVal r w).ues = s.ues := rfl
@[simp] theorem State.setVal_classBits (s : State) (r : Reg) (w : Word) : (s.setVal r w).classBits = s.classBits := rfl
@[simp] theorem State.setVal_gran (s : State) (r : Reg) (w : Word) : (s.setVal r w).gran = s.gran := rfl
@[simp] theorem State.setVal_dir (s : State) (r : Reg) (w : Word) : (s.setVal r w).dir = s.dir := rfl
@[simp] theorem State.setVal_waitWrites (s : State) (r : Reg) (w : Word) : (s.setVal r w).waitWrites = s.waitWrites := rfl
@[simp] theorem State.setVal_promos (s : State) (r : Reg) (w : Word) : (s.setVal r w).promos = s.promos := rfl
@[simp] theorem State.setVal_memctl (s : State) (r : Reg) (w : Word) : (s.setVal r w).memctl = s.memctl := rfl
@[simp] theorem State.setVal_xings (s : State) (r : Reg) (w : Word) : (s.setVal r w).xings = s.xings := rfl
@[simp] theorem State.setVal_arbs (s : State) (r : Reg) (w : Word) : (s.setVal r w).arbs = s.arbs := rfl
@[simp] theorem State.setVal_beats (s : State) (r : Reg) (w : Word) : (s.setVal r w).beats = s.beats := rfl
@[simp] theorem State.setVal_active (s : State) (r : Reg) (w : Word) : (s.setVal r w).active = s.active := rfl
@[simp] theorem State.setVal_facets (s : State) (r : Reg) (w : Word) : (s.setVal r w).facets = s.facets := rfl
@[simp] theorem State.setVal_gangs (s : State) (r : Reg) (w : Word) : (s.setVal r w).gangs = s.gangs := rfl
@[simp] theorem State.setVal_seqTab (s : State) (r : Reg) (w : Word) : (s.setVal r w).seqTab = s.seqTab := rfl
@[simp] theorem State.setVal_queues (s : State) (r : Reg) (w : Word) : (s.setVal r w).queues = s.queues := rfl
@[simp] theorem State.setVal_posts (s : State) (r : Reg) (w : Word) : (s.setVal r w).posts = s.posts := rfl
@[simp] theorem State.setVal_fns (s : State) (r : Reg) (w : Word) : (s.setVal r w).fns = s.fns := rfl
@[simp] theorem State.setVal_tces (s : State) (r : Reg) (w : Word) : (s.setVal r w).tces = s.tces := rfl
@[simp] theorem State.setVal_codecs (s : State) (r : Reg) (w : Word) : (s.setVal r w).codecs = s.codecs := rfl
@[simp] theorem State.setVal_ctxs (s : State) (r : Reg) (w : Word) : (s.setVal r w).ctxs = s.ctxs := rfl
@[simp] theorem State.setVal_ops (s : State) (r : Reg) (w : Word) : (s.setVal r w).ops = s.ops := rfl
@[simp] theorem State.setVal_nextTag (s : State) (r : Reg) (w : Word) : (s.setVal r w).nextTag = s.nextTag := rfl
@[simp] theorem State.setVal_txDue (s : State) (r : Reg) (w : Word) : (s.setVal r w).txDue = s.txDue := rfl
@[simp] theorem State.setVal_txSeq (s : State) (r : Reg) (w : Word) : (s.setVal r w).txSeq = s.txSeq := rfl
@[simp] theorem State.setVal_ports (s : State) (r : Reg) (w : Word) : (s.setVal r w).ports = s.ports := rfl
@[simp] theorem State.setVal_inject (s : State) (r : Reg) (w : Word) : (s.setVal r w).inject = s.inject := rfl
@[simp] theorem State.setVal_injected (s : State) (r : Reg) (w : Word) : (s.setVal r w).injected = s.injected := rfl
@[simp] theorem State.setVal_routes (s : State) (r : Reg) (w : Word) : (s.setVal r w).routes = s.routes := rfl
@[simp] theorem State.setVal_linkMap (s : State) (r : Reg) (w : Word) : (s.setVal r w).linkMap = s.linkMap := rfl
@[simp] theorem State.setVal_meridian (s : State) (r : Reg) (w : Word) : (s.setVal r w).meridian = s.meridian := rfl
@[simp] theorem State.setVal_boot (s : State) (r : Reg) (w : Word) : (s.setVal r w).boot = s.boot := rfl
@[simp] theorem State.setVal_gasp (s : State) (r : Reg) (w : Word) : (s.setVal r w).gasp = s.gasp := rfl
@[simp] theorem State.setVal_power (s : State) (r : Reg) (w : Word) : (s.setVal r w).power = s.power := rfl
@[simp] theorem State.setVal_freeze (s : State) (r : Reg) (w : Word) : (s.setVal r w).freeze = s.freeze := rfl
@[simp] theorem State.setVal_halted (s : State) (r : Reg) (w : Word) : (s.setVal r w).halted = s.halted := rfl
@[simp] theorem State.setVal_units (s : State) (r : Reg) (w : Word) : (s.setVal r w).units = s.units := rfl
@[simp] theorem State.setVal_parts (s : State) (r : Reg) (w : Word) : (s.setVal r w).parts = s.parts := rfl
@[simp] theorem State.setVal_pins (s : State) (r : Reg) (w : Word) : (s.setVal r w).pins = s.pins := rfl
@[simp] theorem State.setVal_clocks (s : State) (r : Reg) (w : Word) : (s.setVal r w).clocks = s.clocks := rfl
@[simp] theorem State.setVal_watch (s : State) (r : Reg) (w : Word) : (s.setVal r w).watch = s.watch := rfl
@[simp] theorem State.setVal_link (s : State) (r : Reg) (w : Word) : (s.setVal r w).link = s.link := rfl
@[simp] theorem State.setVal_tests (s : State) (r : Reg) (w : Word) : (s.setVal r w).tests = s.tests := rfl
@[simp] theorem State.setVal_get_facet (s : State) (r : Reg) (w : Word) (k : Nat) : (s.setVal r w).facet k = s.facet k := rfl
@[simp] theorem State.setVal_get_queue (s : State) (r : Reg) (w : Word) (k : Nat) : (s.setVal r w).queue k = s.queue k := rfl
@[simp] theorem State.setVal_get_fn (s : State) (r : Reg) (w : Word) (k : Nat) : (s.setVal r w).fn k = s.fn k := rfl
@[simp] theorem State.setVal_get_tce (s : State) (r : Reg) (w : Word) (k : Nat) : (s.setVal r w).tce k = s.tce k := rfl
@[simp] theorem State.setVal_get_codec (s : State) (r : Reg) (w : Word) (k : Nat) : (s.setVal r w).codec k = s.codec k := rfl
@[simp] theorem State.setVal_get_port (s : State) (r : Reg) (w : Word) (k : Nat) : (s.setVal r w).port k = s.port k := rfl
@[simp] theorem State.setVal_get_memCtl (s : State) (r : Reg) (w : Word) (k : Nat) : (s.setVal r w).memCtl k = s.memCtl k := rfl
@[simp] theorem State.setVal_get_xing (s : State) (r : Reg) (w : Word) (k : Nat) : (s.setVal r w).xing k = s.xing k := rfl
@[simp] theorem State.setVal_get_arb (s : State) (r : Reg) (w : Word) (k : Nat) : (s.setVal r w).arb k = s.arb k := rfl
@[simp] theorem State.setVal_get_granProc (s : State) (r : Reg) (w : Word) (k : Nat) : (s.setVal r w).granProc k = s.granProc k := rfl
@[simp] theorem State.setVal_get_unit (s : State) (r : Reg) (w : Word) (k : Nat) : (s.setVal r w).unit k = s.unit k := rfl
@[simp] theorem State.setVal_get_part (s : State) (r : Reg) (w : Word) (k : Nat) : (s.setVal r w).part k = s.part k := rfl
@[simp] theorem State.setVal_get_op (s : State) (r : Reg) (w : Word) (k : Nat) : (s.setVal r w).op k = s.op k := rfl
@[simp] theorem State.setVal_get_dirEntry (s : State) (r : Reg) (w : Word) (k : Nat) : (s.setVal r w).dirEntry k = s.dirEntry k := rfl
@[simp] theorem State.setVal_get_counter (s : State) (r : Reg) (w : Word) (k : Nat) : (s.setVal r w).counter k = s.counter k := rfl
@[simp] theorem State.setVal_get_ctx (s : State) (r : Reg) (w : Word) (k m : Nat) : (s.setVal r w).ctx k m = s.ctx k m := rfl
@[simp] theorem State.setVal_get_live (s : State) (r : Reg) (w : Word) : (s.setVal r w).live = s.live := rfl

/-! put -/
@[simp] theorem State.put_pending (s : State) (r : Reg) (hi lo x : Nat) : (s.put r hi lo x).pending = s.pending := rfl
@[simp] theorem State.put_fresh (s : State) (r : Reg) (hi lo x : Nat) : (s.put r hi lo x).fresh = s.fresh := rfl
@[simp] theorem State.put_limClock (s : State) (r : Reg) (hi lo x : Nat) : (s.put r hi lo x).limClock = s.limClock := rfl
@[simp] theorem State.put_time (s : State) (r : Reg) (hi lo x : Nat) : (s.put r hi lo x).time = s.time := rfl
@[simp] theorem State.put_out (s : State) (r : Reg) (hi lo x : Nat) : (s.put r hi lo x).out = s.out := rfl
@[simp] theorem State.put_nv (s : State) (r : Reg) (hi lo x : Nat) : (s.put r hi lo x).nv = s.nv := rfl
@[simp] theorem State.put_host (s : State) (r : Reg) (hi lo x : Nat) : (s.put r hi lo x).host = s.host := rfl
@[simp] theorem State.put_ctr (s : State) (r : Reg) (hi lo x : Nat) : (s.put r hi lo x).ctr = s.ctr := rfl
@[simp] theorem State.put_mem (s : State) (r : Reg) (hi lo x : Nat) : (s.put r hi lo x).mem = s.mem := rfl
@[simp] theorem State.put_poison (s : State) (r : Reg) (hi lo x : Nat) : (s.put r hi lo x).poison = s.poison := rfl
@[simp] theorem State.put_ues (s : State) (r : Reg) (hi lo x : Nat) : (s.put r hi lo x).ues = s.ues := rfl
@[simp] theorem State.put_classBits (s : State) (r : Reg) (hi lo x : Nat) : (s.put r hi lo x).classBits = s.classBits := rfl
@[simp] theorem State.put_gran (s : State) (r : Reg) (hi lo x : Nat) : (s.put r hi lo x).gran = s.gran := rfl
@[simp] theorem State.put_dir (s : State) (r : Reg) (hi lo x : Nat) : (s.put r hi lo x).dir = s.dir := rfl
@[simp] theorem State.put_waitWrites (s : State) (r : Reg) (hi lo x : Nat) : (s.put r hi lo x).waitWrites = s.waitWrites := rfl
@[simp] theorem State.put_promos (s : State) (r : Reg) (hi lo x : Nat) : (s.put r hi lo x).promos = s.promos := rfl
@[simp] theorem State.put_memctl (s : State) (r : Reg) (hi lo x : Nat) : (s.put r hi lo x).memctl = s.memctl := rfl
@[simp] theorem State.put_xings (s : State) (r : Reg) (hi lo x : Nat) : (s.put r hi lo x).xings = s.xings := rfl
@[simp] theorem State.put_arbs (s : State) (r : Reg) (hi lo x : Nat) : (s.put r hi lo x).arbs = s.arbs := rfl
@[simp] theorem State.put_beats (s : State) (r : Reg) (hi lo x : Nat) : (s.put r hi lo x).beats = s.beats := rfl
@[simp] theorem State.put_active (s : State) (r : Reg) (hi lo x : Nat) : (s.put r hi lo x).active = s.active := rfl
@[simp] theorem State.put_facets (s : State) (r : Reg) (hi lo x : Nat) : (s.put r hi lo x).facets = s.facets := rfl
@[simp] theorem State.put_gangs (s : State) (r : Reg) (hi lo x : Nat) : (s.put r hi lo x).gangs = s.gangs := rfl
@[simp] theorem State.put_seqTab (s : State) (r : Reg) (hi lo x : Nat) : (s.put r hi lo x).seqTab = s.seqTab := rfl
@[simp] theorem State.put_queues (s : State) (r : Reg) (hi lo x : Nat) : (s.put r hi lo x).queues = s.queues := rfl
@[simp] theorem State.put_posts (s : State) (r : Reg) (hi lo x : Nat) : (s.put r hi lo x).posts = s.posts := rfl
@[simp] theorem State.put_fns (s : State) (r : Reg) (hi lo x : Nat) : (s.put r hi lo x).fns = s.fns := rfl
@[simp] theorem State.put_tces (s : State) (r : Reg) (hi lo x : Nat) : (s.put r hi lo x).tces = s.tces := rfl
@[simp] theorem State.put_codecs (s : State) (r : Reg) (hi lo x : Nat) : (s.put r hi lo x).codecs = s.codecs := rfl
@[simp] theorem State.put_ctxs (s : State) (r : Reg) (hi lo x : Nat) : (s.put r hi lo x).ctxs = s.ctxs := rfl
@[simp] theorem State.put_ops (s : State) (r : Reg) (hi lo x : Nat) : (s.put r hi lo x).ops = s.ops := rfl
@[simp] theorem State.put_nextTag (s : State) (r : Reg) (hi lo x : Nat) : (s.put r hi lo x).nextTag = s.nextTag := rfl
@[simp] theorem State.put_txDue (s : State) (r : Reg) (hi lo x : Nat) : (s.put r hi lo x).txDue = s.txDue := rfl
@[simp] theorem State.put_txSeq (s : State) (r : Reg) (hi lo x : Nat) : (s.put r hi lo x).txSeq = s.txSeq := rfl
@[simp] theorem State.put_ports (s : State) (r : Reg) (hi lo x : Nat) : (s.put r hi lo x).ports = s.ports := rfl
@[simp] theorem State.put_inject (s : State) (r : Reg) (hi lo x : Nat) : (s.put r hi lo x).inject = s.inject := rfl
@[simp] theorem State.put_injected (s : State) (r : Reg) (hi lo x : Nat) : (s.put r hi lo x).injected = s.injected := rfl
@[simp] theorem State.put_routes (s : State) (r : Reg) (hi lo x : Nat) : (s.put r hi lo x).routes = s.routes := rfl
@[simp] theorem State.put_linkMap (s : State) (r : Reg) (hi lo x : Nat) : (s.put r hi lo x).linkMap = s.linkMap := rfl
@[simp] theorem State.put_meridian (s : State) (r : Reg) (hi lo x : Nat) : (s.put r hi lo x).meridian = s.meridian := rfl
@[simp] theorem State.put_boot (s : State) (r : Reg) (hi lo x : Nat) : (s.put r hi lo x).boot = s.boot := rfl
@[simp] theorem State.put_gasp (s : State) (r : Reg) (hi lo x : Nat) : (s.put r hi lo x).gasp = s.gasp := rfl
@[simp] theorem State.put_power (s : State) (r : Reg) (hi lo x : Nat) : (s.put r hi lo x).power = s.power := rfl
@[simp] theorem State.put_freeze (s : State) (r : Reg) (hi lo x : Nat) : (s.put r hi lo x).freeze = s.freeze := rfl
@[simp] theorem State.put_halted (s : State) (r : Reg) (hi lo x : Nat) : (s.put r hi lo x).halted = s.halted := rfl
@[simp] theorem State.put_units (s : State) (r : Reg) (hi lo x : Nat) : (s.put r hi lo x).units = s.units := rfl
@[simp] theorem State.put_parts (s : State) (r : Reg) (hi lo x : Nat) : (s.put r hi lo x).parts = s.parts := rfl
@[simp] theorem State.put_pins (s : State) (r : Reg) (hi lo x : Nat) : (s.put r hi lo x).pins = s.pins := rfl
@[simp] theorem State.put_clocks (s : State) (r : Reg) (hi lo x : Nat) : (s.put r hi lo x).clocks = s.clocks := rfl
@[simp] theorem State.put_watch (s : State) (r : Reg) (hi lo x : Nat) : (s.put r hi lo x).watch = s.watch := rfl
@[simp] theorem State.put_link (s : State) (r : Reg) (hi lo x : Nat) : (s.put r hi lo x).link = s.link := rfl
@[simp] theorem State.put_tests (s : State) (r : Reg) (hi lo x : Nat) : (s.put r hi lo x).tests = s.tests := rfl
@[simp] theorem State.put_get_facet (s : State) (r : Reg) (hi lo x : Nat) (k : Nat) : (s.put r hi lo x).facet k = s.facet k := rfl
@[simp] theorem State.put_get_queue (s : State) (r : Reg) (hi lo x : Nat) (k : Nat) : (s.put r hi lo x).queue k = s.queue k := rfl
@[simp] theorem State.put_get_fn (s : State) (r : Reg) (hi lo x : Nat) (k : Nat) : (s.put r hi lo x).fn k = s.fn k := rfl
@[simp] theorem State.put_get_tce (s : State) (r : Reg) (hi lo x : Nat) (k : Nat) : (s.put r hi lo x).tce k = s.tce k := rfl
@[simp] theorem State.put_get_codec (s : State) (r : Reg) (hi lo x : Nat) (k : Nat) : (s.put r hi lo x).codec k = s.codec k := rfl
@[simp] theorem State.put_get_port (s : State) (r : Reg) (hi lo x : Nat) (k : Nat) : (s.put r hi lo x).port k = s.port k := rfl
@[simp] theorem State.put_get_memCtl (s : State) (r : Reg) (hi lo x : Nat) (k : Nat) : (s.put r hi lo x).memCtl k = s.memCtl k := rfl
@[simp] theorem State.put_get_xing (s : State) (r : Reg) (hi lo x : Nat) (k : Nat) : (s.put r hi lo x).xing k = s.xing k := rfl
@[simp] theorem State.put_get_arb (s : State) (r : Reg) (hi lo x : Nat) (k : Nat) : (s.put r hi lo x).arb k = s.arb k := rfl
@[simp] theorem State.put_get_granProc (s : State) (r : Reg) (hi lo x : Nat) (k : Nat) : (s.put r hi lo x).granProc k = s.granProc k := rfl
@[simp] theorem State.put_get_unit (s : State) (r : Reg) (hi lo x : Nat) (k : Nat) : (s.put r hi lo x).unit k = s.unit k := rfl
@[simp] theorem State.put_get_part (s : State) (r : Reg) (hi lo x : Nat) (k : Nat) : (s.put r hi lo x).part k = s.part k := rfl
@[simp] theorem State.put_get_op (s : State) (r : Reg) (hi lo x : Nat) (k : Nat) : (s.put r hi lo x).op k = s.op k := rfl
@[simp] theorem State.put_get_dirEntry (s : State) (r : Reg) (hi lo x : Nat) (k : Nat) : (s.put r hi lo x).dirEntry k = s.dirEntry k := rfl
@[simp] theorem State.put_get_counter (s : State) (r : Reg) (hi lo x : Nat) (k : Nat) : (s.put r hi lo x).counter k = s.counter k := rfl
@[simp] theorem State.put_get_ctx (s : State) (r : Reg) (hi lo x : Nat) (k m : Nat) : (s.put r hi lo x).ctx k m = s.ctx k m := rfl
@[simp] theorem State.put_get_live (s : State) (r : Reg) (hi lo x : Nat) : (s.put r hi lo x).live = s.live := rfl

/-! setCounter -/
@[simp] theorem State.setCounter_pending (s : State) (n : Nat) (v : Word) : (s.setCounter n v).pending = s.pending := rfl
@[simp] theorem State.setCounter_fresh (s : State) (n : Nat) (v : Word) : (s.setCounter n v).fresh = s.fresh := rfl
@[simp] theorem State.setCounter_limClock (s : State) (n : Nat) (v : Word) : (s.setCounter n v).limClock = s.limClock := rfl
@[simp] theorem State.setCounter_time (s : State) (n : Nat) (v : Word) : (s.setCounter n v).time = s.time := rfl
@[simp] theorem State.setCounter_out (s : State) (n : Nat) (v : Word) : (s.setCounter n v).out = s.out := rfl
@[simp] theorem State.setCounter_nv (s : State) (n : Nat) (v : Word) : (s.setCounter n v).nv = s.nv := rfl
@[simp] theorem State.setCounter_host (s : State) (n : Nat) (v : Word) : (s.setCounter n v).host = s.host := rfl
@[simp] theorem State.setCounter_regs (s : State) (n : Nat) (v : Word) : (s.setCounter n v).regs = s.regs := rfl
@[simp] theorem State.setCounter_mem (s : State) (n : Nat) (v : Word) : (s.setCounter n v).mem = s.mem := rfl
@[simp] theorem State.setCounter_poison (s : State) (n : Nat) (v : Word) : (s.setCounter n v).poison = s.poison := rfl
@[simp] theorem State.setCounter_ues (s : State) (n : Nat) (v : Word) : (s.setCounter n v).ues = s.ues := rfl
@[simp] theorem State.setCounter_classBits (s : State) (n : Nat) (v : Word) : (s.setCounter n v).classBits = s.classBits := rfl
@[simp] theorem State.setCounter_gran (s : State) (n : Nat) (v : Word) : (s.setCounter n v).gran = s.gran := rfl
@[simp] theorem State.setCounter_dir (s : State) (n : Nat) (v : Word) : (s.setCounter n v).dir = s.dir := rfl
@[simp] theorem State.setCounter_waitWrites (s : State) (n : Nat) (v : Word) : (s.setCounter n v).waitWrites = s.waitWrites := rfl
@[simp] theorem State.setCounter_promos (s : State) (n : Nat) (v : Word) : (s.setCounter n v).promos = s.promos := rfl
@[simp] theorem State.setCounter_memctl (s : State) (n : Nat) (v : Word) : (s.setCounter n v).memctl = s.memctl := rfl
@[simp] theorem State.setCounter_xings (s : State) (n : Nat) (v : Word) : (s.setCounter n v).xings = s.xings := rfl
@[simp] theorem State.setCounter_arbs (s : State) (n : Nat) (v : Word) : (s.setCounter n v).arbs = s.arbs := rfl
@[simp] theorem State.setCounter_beats (s : State) (n : Nat) (v : Word) : (s.setCounter n v).beats = s.beats := rfl
@[simp] theorem State.setCounter_active (s : State) (n : Nat) (v : Word) : (s.setCounter n v).active = s.active := rfl
@[simp] theorem State.setCounter_facets (s : State) (n : Nat) (v : Word) : (s.setCounter n v).facets = s.facets := rfl
@[simp] theorem State.setCounter_gangs (s : State) (n : Nat) (v : Word) : (s.setCounter n v).gangs = s.gangs := rfl
@[simp] theorem State.setCounter_seqTab (s : State) (n : Nat) (v : Word) : (s.setCounter n v).seqTab = s.seqTab := rfl
@[simp] theorem State.setCounter_queues (s : State) (n : Nat) (v : Word) : (s.setCounter n v).queues = s.queues := rfl
@[simp] theorem State.setCounter_posts (s : State) (n : Nat) (v : Word) : (s.setCounter n v).posts = s.posts := rfl
@[simp] theorem State.setCounter_fns (s : State) (n : Nat) (v : Word) : (s.setCounter n v).fns = s.fns := rfl
@[simp] theorem State.setCounter_tces (s : State) (n : Nat) (v : Word) : (s.setCounter n v).tces = s.tces := rfl
@[simp] theorem State.setCounter_codecs (s : State) (n : Nat) (v : Word) : (s.setCounter n v).codecs = s.codecs := rfl
@[simp] theorem State.setCounter_ctxs (s : State) (n : Nat) (v : Word) : (s.setCounter n v).ctxs = s.ctxs := rfl
@[simp] theorem State.setCounter_ops (s : State) (n : Nat) (v : Word) : (s.setCounter n v).ops = s.ops := rfl
@[simp] theorem State.setCounter_nextTag (s : State) (n : Nat) (v : Word) : (s.setCounter n v).nextTag = s.nextTag := rfl
@[simp] theorem State.setCounter_txDue (s : State) (n : Nat) (v : Word) : (s.setCounter n v).txDue = s.txDue := rfl
@[simp] theorem State.setCounter_txSeq (s : State) (n : Nat) (v : Word) : (s.setCounter n v).txSeq = s.txSeq := rfl
@[simp] theorem State.setCounter_ports (s : State) (n : Nat) (v : Word) : (s.setCounter n v).ports = s.ports := rfl
@[simp] theorem State.setCounter_inject (s : State) (n : Nat) (v : Word) : (s.setCounter n v).inject = s.inject := rfl
@[simp] theorem State.setCounter_injected (s : State) (n : Nat) (v : Word) : (s.setCounter n v).injected = s.injected := rfl
@[simp] theorem State.setCounter_routes (s : State) (n : Nat) (v : Word) : (s.setCounter n v).routes = s.routes := rfl
@[simp] theorem State.setCounter_linkMap (s : State) (n : Nat) (v : Word) : (s.setCounter n v).linkMap = s.linkMap := rfl
@[simp] theorem State.setCounter_meridian (s : State) (n : Nat) (v : Word) : (s.setCounter n v).meridian = s.meridian := rfl
@[simp] theorem State.setCounter_boot (s : State) (n : Nat) (v : Word) : (s.setCounter n v).boot = s.boot := rfl
@[simp] theorem State.setCounter_gasp (s : State) (n : Nat) (v : Word) : (s.setCounter n v).gasp = s.gasp := rfl
@[simp] theorem State.setCounter_power (s : State) (n : Nat) (v : Word) : (s.setCounter n v).power = s.power := rfl
@[simp] theorem State.setCounter_freeze (s : State) (n : Nat) (v : Word) : (s.setCounter n v).freeze = s.freeze := rfl
@[simp] theorem State.setCounter_halted (s : State) (n : Nat) (v : Word) : (s.setCounter n v).halted = s.halted := rfl
@[simp] theorem State.setCounter_units (s : State) (n : Nat) (v : Word) : (s.setCounter n v).units = s.units := rfl
@[simp] theorem State.setCounter_parts (s : State) (n : Nat) (v : Word) : (s.setCounter n v).parts = s.parts := rfl
@[simp] theorem State.setCounter_pins (s : State) (n : Nat) (v : Word) : (s.setCounter n v).pins = s.pins := rfl
@[simp] theorem State.setCounter_clocks (s : State) (n : Nat) (v : Word) : (s.setCounter n v).clocks = s.clocks := rfl
@[simp] theorem State.setCounter_watch (s : State) (n : Nat) (v : Word) : (s.setCounter n v).watch = s.watch := rfl
@[simp] theorem State.setCounter_link (s : State) (n : Nat) (v : Word) : (s.setCounter n v).link = s.link := rfl
@[simp] theorem State.setCounter_tests (s : State) (n : Nat) (v : Word) : (s.setCounter n v).tests = s.tests := rfl
@[simp] theorem State.setCounter_get_facet (s : State) (n : Nat) (v : Word) (k : Nat) : (s.setCounter n v).facet k = s.facet k := rfl
@[simp] theorem State.setCounter_get_queue (s : State) (n : Nat) (v : Word) (k : Nat) : (s.setCounter n v).queue k = s.queue k := rfl
@[simp] theorem State.setCounter_get_fn (s : State) (n : Nat) (v : Word) (k : Nat) : (s.setCounter n v).fn k = s.fn k := rfl
@[simp] theorem State.setCounter_get_tce (s : State) (n : Nat) (v : Word) (k : Nat) : (s.setCounter n v).tce k = s.tce k := rfl
@[simp] theorem State.setCounter_get_codec (s : State) (n : Nat) (v : Word) (k : Nat) : (s.setCounter n v).codec k = s.codec k := rfl
@[simp] theorem State.setCounter_get_port (s : State) (n : Nat) (v : Word) (k : Nat) : (s.setCounter n v).port k = s.port k := rfl
@[simp] theorem State.setCounter_get_memCtl (s : State) (n : Nat) (v : Word) (k : Nat) : (s.setCounter n v).memCtl k = s.memCtl k := rfl
@[simp] theorem State.setCounter_get_xing (s : State) (n : Nat) (v : Word) (k : Nat) : (s.setCounter n v).xing k = s.xing k := rfl
@[simp] theorem State.setCounter_get_arb (s : State) (n : Nat) (v : Word) (k : Nat) : (s.setCounter n v).arb k = s.arb k := rfl
@[simp] theorem State.setCounter_get_granProc (s : State) (n : Nat) (v : Word) (k : Nat) : (s.setCounter n v).granProc k = s.granProc k := rfl
@[simp] theorem State.setCounter_get_unit (s : State) (n : Nat) (v : Word) (k : Nat) : (s.setCounter n v).unit k = s.unit k := rfl
@[simp] theorem State.setCounter_get_part (s : State) (n : Nat) (v : Word) (k : Nat) : (s.setCounter n v).part k = s.part k := rfl
@[simp] theorem State.setCounter_get_op (s : State) (n : Nat) (v : Word) (k : Nat) : (s.setCounter n v).op k = s.op k := rfl
@[simp] theorem State.setCounter_get_dirEntry (s : State) (n : Nat) (v : Word) (k : Nat) : (s.setCounter n v).dirEntry k = s.dirEntry k := rfl
@[simp] theorem State.setCounter_get_ctx (s : State) (n : Nat) (v : Word) (k m : Nat) : (s.setCounter n v).ctx k m = s.ctx k m := rfl
@[simp] theorem State.setCounter_get_cell (s : State) (n : Nat) (v : Word) (r : Reg) : (s.setCounter n v).cell r = s.cell r := rfl
@[simp] theorem State.setCounter_get_val (s : State) (n : Nat) (v : Word) (r : Reg) : (s.setCounter n v).val r = s.val r := rfl
@[simp] theorem State.setCounter_get_get (s : State) (n : Nat) (v : Word) (r : Reg) (i j : Nat) : (s.setCounter n v).get r i j = s.get r i j := rfl
@[simp] theorem State.setCounter_get_upset (s : State) (n : Nat) (v : Word) : (s.setCounter n v).upset = s.upset := rfl
@[simp] theorem State.setCounter_get_live (s : State) (n : Nat) (v : Word) : (s.setCounter n v).live = s.live := rfl

/-! Reading back. -/

theorem State.facet_setFacet (s : State) (h : rising s.facets = true) (f : Nat) (v : Facet) (k : Nat) :
    (s.setFacet f v).facet k = if k = f then v else s.facet k := by
  unfold State.facet State.setFacet
  split
  · rename_i e; subst e; exact tget_tset_same _ _ _ h
  · rename_i e; exact tget_tset_other _ _ e h
theorem State.queue_setQueue (s : State) (h : rising s.queues = true) (q : Nat) (v : Queue) (k : Nat) :
    (s.setQueue q v).queue k = if k = q then v else s.queue k := by
  unfold State.queue State.setQueue
  split
  · rename_i e; subst e; exact tget_tset_same _ _ _ h
  · rename_i e; exact tget_tset_other _ _ e h
theorem State.fn_setFn (s : State) (h : rising s.fns = true) (n : Nat) (v : FnState) (k : Nat) :
    (s.setFn n v).fn k = if k = n then v else s.fn k := by
  unfold State.fn State.setFn
  split
  · rename_i e; subst e; exact tget_tset_same _ _ _ h
  · rename_i e; exact tget_tset_other _ _ e h
theorem State.tce_setTce (s : State) (h : rising s.tces = true) (e : Nat) (v : Tce) (k : Nat) :
    (s.setTce e v).tce k = if k = e then v else s.tce k := by
  unfold State.tce State.setTce
  split
  · rename_i e; subst e; exact tget_tset_same _ _ _ h
  · rename_i e; exact tget_tset_other _ _ e h
theorem State.codec_setCodec (s : State) (h : rising s.codecs = true) (c : Nat) (v : Codec) (k : Nat) :
    (s.setCodec c v).codec k = if k = c then v else s.codec k := by
  unfold State.codec State.setCodec
  split
  · rename_i e; subst e; exact tget_tset_same _ _ _ h
  · rename_i e; exact tget_tset_other _ _ e h
theorem State.port_setPort (s : State) (h : rising s.ports = true) (p : Nat) (v : Port) (k : Nat) :
    (s.setPort p v).port k = if k = p then v else s.port k := by
  unfold State.port State.setPort
  split
  · rename_i e; subst e; exact tget_tset_same _ _ _ h
  · rename_i e; exact tget_tset_other _ _ e h
theorem State.memCtl_setMemCtl (s : State) (h : rising s.memctl = true) (n : Nat) (v : MemCtl) (k : Nat) :
    (s.setMemCtl n v).memCtl k = if k = n then v else s.memCtl k := by
  unfold State.memCtl State.setMemCtl
  split
  · rename_i e; subst e; exact tget_tset_same _ _ _ h
  · rename_i e; exact tget_tset_other _ _ e h
theorem State.arb_setArb (s : State) (h : rising s.arbs = true) (a : Nat) (v : Arbiter) (k : Nat) :
    (s.setArb a v).arb k = if k = a then v else s.arb k := by
  unfold State.arb State.setArb
  split
  · rename_i e; subst e; exact tget_tset_same _ _ _ h
  · rename_i e; exact tget_tset_other _ _ e h
theorem State.xing_setXing (s : State) (h : rising s.xings = true) (d : Nat) (v : Crossing) (k : Nat) :
    (s.setXing d v).xing k = if k = d then v else s.xing k := by
  unfold State.xing State.setXing
  split
  · rename_i e; subst e; exact tget_tset_same _ _ _ h
  · rename_i e; exact tget_tset_other _ _ e h
theorem State.granProc_setGranProc (s : State) (h : rising s.gran = true) (g : Nat) (v : GranProc) (k : Nat) :
    (s.setGranProc g v).granProc k = if k = g then v else s.granProc k := by
  unfold State.granProc State.setGranProc
  split
  · rename_i e; subst e; exact tget_tset_same _ _ _ h
  · rename_i e; exact tget_tset_other _ _ e h
theorem State.unit_setUnit (s : State) (h : rising s.units = true) (u : Nat) (v : Lc) (k : Nat) :
    (s.setUnit u v).unit k = if k = u then v else s.unit k := by
  unfold State.unit State.setUnit
  split
  · rename_i e; subst e; exact tget_tset_same _ _ _ h
  · rename_i e; exact tget_tset_other _ _ e h
theorem State.part_setPart (s : State) (h : rising s.parts = true) (p : Nat) (v : Lc) (k : Nat) :
    (s.setPart p v).part k = if k = p then v else s.part k := by
  unfold State.part State.setPart
  split
  · rename_i e; subst e; exact tget_tset_same _ _ _ h
  · rename_i e; exact tget_tset_other _ _ e h
theorem State.op_setOp (s : State) (h : rising s.ops = true) (t : Nat) (v : Option RemOp) (k : Nat) :
    (s.setOp t v).op k = if k = t then v else s.op k := by
  unfold State.op State.setOp
  split
  · rename_i e; subst e; exact tget_tset_same _ _ _ h
  · rename_i e; exact tget_tset_other _ _ e h
theorem State.dirEntry_setDir (s : State) (h : rising s.dir = true) (tile : Nat) (v : Option DirEntry) (k : Nat) :
    (s.setDir tile v).dirEntry k = if k = tile then v else s.dirEntry k := by
  unfold State.dirEntry State.setDir
  split
  · rename_i e; subst e; exact tget_tset_same _ _ _ h
  · rename_i e; exact tget_tset_other _ _ e h
theorem State.counter_setCounter (s : State) (h : rising s.ctr = true) (n : Nat) (v : Word) (k : Nat) :
    (s.setCounter n v).counter k = if k = n then v else s.counter k := by
  unfold State.counter State.setCounter
  split
  · rename_i e; subst e; exact tget_tset_same _ _ _ h
  · rename_i e; exact tget_tset_other _ _ e h

/-- A chord context, for partitions below 32. -/
theorem State.ctx_setCtx_same (s : State) (h : rising s.ctxs = true) (e p : Nat) (v : Option Ctx) : (s.setCtx e p v).ctx e p = v :=
  tget_tset_same _ _ _ h
theorem State.ctx_setCtx_other (s : State) (h : rising s.ctxs = true) {e p k m : Nat} (v : Option Ctx) (ne : k * 32 + m ≠ e * 32 + p) :
    (s.setCtx e p v).ctx k m = s.ctx k m := tget_tset_other _ _ ne h

/-- Registers: a cell written reads back; a register at another key keeps its cell and its value. -/
theorem State.cell_setCell_same (s : State) (h : rising s.regs = true) (r : Reg) (c : RegCell) : (s.setCell r c).cell r = c :=
  tget_tset_same _ _ _ h

/-- A table write at another key is not seen, whatever the two defaults are. -/
theorem tget_tset_other' {α : Type} [DecidableEq α] (d d' : α) {j k : Nat} (v : α) (hj : j ≠ k) :
    ∀ (m : SMap α) (lo : Nat), risingFrom lo m = true → tget (tset m d k v) d' j = tget m d' j
  | [], _, _ => by
    unfold tset
    split
    · rfl
    · simp [tget, hj]
  | (k', v') :: t, lo, w => by
    simp only [risingFrom, Bool.and_eq_true, decide_eq_true_eq] at w
    unfold tset
    split
    · split
      · rfl
      · simp only [tget, hj, if_false]
        split
        · rw [if_neg (by omega), if_pos (by omega)]
        · rfl
    · split
      · rename_i h1 h2
        subst h2
        split
        · simp only [tget, hj, if_false]
          split
          · exact tget_below d' (by omega) t w.2
          · rfl
        · simp [tget, hj]
      · simp only [tget]
        rw [tget_tset_other' d d' v hj t (k' + 1) w.2]

theorem State.cell_setCell_other (s : State) (h : rising s.regs = true) {r r' : Reg} (c : RegCell) (hk : r'.key ≠ r.key) :
    (s.setCell r c).cell r' = s.cell r' := tget_tset_other' _ _ _ hk _ 0 h

/-- The vote of three equal copies. -/
@[simp] theorem vote_same (w : Word) : vote w w w = w := by simp [vote]

theorem State.val_setVal_same (s : State) (h : rising s.regs = true) (r : Reg) (w : Word) : (s.setVal r w).val r = w := by
  simp [State.val, State.setVal, State.cell_setCell_same s h]
theorem State.val_setVal_other (s : State) (h : rising s.regs = true) {r r' : Reg} (w : Word) (hk : r'.key ≠ r.key) :
    (s.setVal r w).val r' = s.val r' := by
  simp [State.val, State.setVal, State.cell_setCell_other s h _ hk]
theorem State.val_setCell_other (s : State) (h : rising s.regs = true) {r r' : Reg} (c : RegCell) (hk : r'.key ≠ r.key) :
    (s.setCell r c).val r' = s.val r' := by
  simp [State.val, State.cell_setCell_other s h _ hk]
theorem State.mark_setVal (s : State) (h : rising s.regs = true) (r : Reg) (w : Word) :
    ((s.setVal r w).cell r).mark = (s.cell r).mark := by
  simp [State.setVal, State.cell_setCell_same s h]
theorem State.get_setVal_other (s : State) (h : rising s.regs = true) {r r' : Reg} (w : Word) (hk : r'.key ≠ r.key) (i j : Nat) :
    (s.setVal r w).get r' i j = s.get r' i j := by
  simp [State.get, State.val_setVal_other s h _ hk]

/-- A canonical state's register file is in order. -/
theorem State.Wf.regs {s : State} (w : s.Wf) : rising s.regs = true := by
  have := w.2
  simp_all [State.tablesWf]

/-- A step of a unit repairs nothing where no copies disagree. -/
@[simp] theorem State.useNow_calm {s : State} (h : s.upset = false) (l : List Reg) : s.useNow l = s := by simp [State.useNow, h]
@[simp] theorem State.use_calm {s : State} (h : s.upset = false) (l : List Reg) : s.use l = s := by
  unfold State.use; split <;> simp [h]
@[simp] theorem State.usePart_calm {s : State} (h : s.upset = false) (p : Nat) : s.usePart p = s := State.use_calm h _
@[simp] theorem State.useRank_calm {s : State} (h : s.upset = false) (p r : Nat) : s.useRank p r = s := by
  unfold State.useRank; split <;> simp [h]
@[simp] theorem State.useRanks_calm {s : State} (h : s.upset = false) (p : Nat) : s.useRanks p = s := by simp [State.useRanks, h]
@[simp] theorem State.useStacks_calm {s : State} (h : s.upset = false) (off len : Nat) : s.useStacks off len = s := by
  simp [State.useStacks, h]
@[simp] theorem State.useAddr_calm {s : State} (h : s.upset = false) (p : Nat) (a : GAddr) (len : Nat) : s.useAddr p a len = s := by
  unfold State.useAddr; dsimp only; split <;> simp [h]

end Sys2Proof.Machine
end

