-- ==== Sys2Proof/Tests/Slice0.lean ====
section
/-! SUPPORT. Tests: each check of WellFormed refuses an ill-formed term, and for each statement of
Certificates/Slice0/Obligations.lean one small state meets the hypotheses of each clause; two worked examples of the spec.
The states and words are written from the spec's formats. -/

namespace Sys2Proof.Tests
open Sys2Proof.Machine

set_option Elab.async false
/-! How a test writes the hypotheses of a statement. -/

theorem wf_of {s : State} (h : (s.memsWf && s.tablesWf) = true) : s.Wf := (Bool.and_eq_true _ _).mp h

/-- Reached, decided. -/
def reachedB (s : State) (fn : Nat) (wr : Bool) (r : Reg) : Bool :=
  s.answersTo fn && (!s.freeze.frozen || freezeBlock r.offset) && decide (s.target fn wr r.offset = some r) &&
    (s.freeze.frozen || !s.hostLine fn)

theorem reached_of {s : State} {fn : Nat} {wr : Bool} {r : Reg} (h : reachedB s fn wr r = true) : Reached s fn wr r := by
  simp only [reachedB, Bool.and_eq_true, Bool.or_eq_true, Bool.not_eq_true', decide_eq_true_eq] at h
  exact ⟨h.1.1.1, fun hf => h.1.1.2.resolve_left (by simp [hf]), h.1.2, fun hf => h.2.resolve_left (by simp [hf])⟩

/-- Taken, decided. -/
def takenB (s : State) (fn : Nat) (r : Reg) (w : Word) : Bool :=
  reachedB s fn true r && !s.upset && (!r.ordered || !s.hostHeld fn) &&
    decide ((w ^^^ s.readVal fn r) &&& r.mask .rk = 0) && (s.rejects r w).isNone

theorem taken_of {s : State} {fn : Nat} {r : Reg} {w : Word} (h : takenB s fn r w = true) : Taken s fn r w := by
  simp only [takenB, Bool.and_eq_true, Bool.or_eq_true, Bool.not_eq_true', decide_eq_true_eq, Option.isNone_iff_eq_none] at h
  exact ⟨reached_of h.1.1.1.1, h.1.1.1.2, fun ho => h.1.1.2.resolve_left (by simp [ho]), h.1.2, h.2⟩

/-- Issuable and Ready, decided. -/
def issuableB (s : State) (op : Nat) (u : FUnit) (pl : Plan) (i : Iss) : Bool :=
  decide (iOpcode i.ins = op) && !s.upset && decide (s.baseCode i.p i.ins = 0) && decide (pl.code = 0) &&
    decide (pl.seq = 0) && !s.loading i && i.run.clear u pl.foot && !s.gangAborted i.run && !s.footBusy pl.foot
def readyB (s : State) (pl : Plan) (i : Iss) : Bool :=
  s.waitOk i.run i.ins && pl.ready && decide (pl.late = 0) && !pl.hold

/-- A row of the table issues its instruction at a state: the hypotheses of InstructionIssuesWhenReady, `now` for its first
clause, else for the second. -/
def rowOk (s : State) (c : Instr) (now : Bool) : Bool :=
  match issueRow c with
  | none => false
  | some (f, op, u, plan) =>
    match (s.ahead f).nextIns f u with
    | none => false
    | some i =>
      issuableB (s.ahead f) op u (plan (s.ahead f) i) i &&
        (if now then readyB (s.ahead f) (plan (s.ahead f) i) i else !(s.ahead f).waitOk i.run i.ins)

/-- What rowOk decides. -/
def RowIssues (c : Instr) (s : State) (now : Bool) : Prop :=
  ∃ f op u plan i, issueRow c = some (f, op, u, plan) ∧ Issuable (s.ahead f) f op u (plan (s.ahead f) i) i ∧
    (now = true → Ready (s.ahead f) (plan (s.ahead f) i) i) ∧ (now = false → (s.ahead f).waitOk i.run i.ins = false)

theorem rowIssues_of {c : Instr} {s : State} {now : Bool} (h : rowOk s c now = true) : RowIssues c s now := by
  unfold rowOk at h
  split at h
  · cases h
  · rename_i f op u plan hr
    split at h
    · cases h
    · rename_i i hi
      simp only [issuableB, Bool.and_eq_true, Bool.not_eq_true', decide_eq_true_eq] at h
      obtain ⟨⟨⟨⟨⟨⟨⟨⟨⟨h1, h2⟩, h3⟩, h4⟩, h5⟩, h6⟩, h7⟩, h8⟩, h9⟩, ha⟩ := h
      refine ⟨f, op, u, plan, i, hr, ⟨hi, h1, h2, h3, h4, h5, h6, h7, h8, h9⟩, fun hn => ?_, fun hn => ?_⟩
      · simp only [hn, readyB, if_true, Bool.and_eq_true, Bool.not_eq_true', decide_eq_true_eq] at ha
        exact ⟨ha.1.1.1, ha.1.1.2, ha.1.2, ha.2⟩
      · simpa [hn] using ha


/-- A bit string from its fields: highest bit, lowest bit, value. -/
def bitsOf (w : Nat) (l : List (Nat × Nat × Nat)) : BitVec w := l.foldl (fun v x => putFld v x.1 x.2.1 x.2.2) 0

/-- A space-0 offset of the own vertex as a global address. -/
def own (off : Nat) : Nat := 0xFFF * 2 ^ 52 + off

/-- A tensor descriptor (R110): element format, layout, extents, strides in 64 bytes, further fields. -/
def tensor (off fmt layout ndim : Nat) (d0 d1 d2 s1 s2 : Nat) (l : List (Nat × Nat × Nat)) : BitVec 512 :=
  bitsOf 512 ([(63, 0, own off), (159, 128, d0), (191, 160, d1), (223, 192, d2), (255, 224, 1), (287, 256, 1), (319, 288, s1),
    (351, 320, s2), (455, 448, fmt), (459, 456, layout), (462, 460, ndim), (479, 476, 1)] ++ l)

/-- An instruction (R100): opcode, OUT, A, B, C, AUX, MOD, further fields. -/
def insOf (op out a b c aux md : Nat) (l : List (Nat × Nat × Nat)) : BitVec 256 :=
  bitsOf 256 ([(7, 0, op), (11, 8, 1), (31, 24, out), (39, 32, a), (47, 40, b), (55, 48, c), (63, 56, aux), (95, 80, md)] ++ l)

/-- The state with these registers set. -/
def regsOf (s : State) (l : List (Reg × Word)) : State := l.foldl (fun s x => s.setVal x.1 x.2) s

/-- The state with these bytes of the stacks written. -/
def memOf (s : State) (l : List (Nat × Nat × Nat)) : State :=
  { s with mem := l.foldl (fun m x => wrCells m (cellsAt x.1 (natLe x.2.1 x.2.2))) s.mem }

/-- An image's data. -/
def testImage : ImageInfo :=
  { fwVer := 1, svn := 0, sections := 6, digest := [], signer := [], planHash := [], ndim := 1, twisted := false, autoRemap := false,
    populated := 3, coord := 0, lanes := [0xFFFF], defaults := [], capW := 1000, pwrcapW := 800, slew := 20, capMaxW := 1100,
    testPort := 0, svnCommit := false, recoveryEnter := false }

def unitIs (st : LcSt) : Lc := { st := st, failed := false, moved := false }

/-- A device that is ready: boot has ended, the units that the tests use are ON. -/
def ready : State :=
  { State.reset with
    pins := { State.reset.pins with reset := false, apexHb := true }
    boot := { State.reset.boot with phase := 8, nvmOk := true, verified := true, idDone := true, image := some testImage,
                                    ready := true, pcieReady := true, apexRun := true }
    units := [(0, unitIs .on), (24, unitIs .on), (32, unitIs .on), (36, unitIs .on), (38, unitIs .on), (40, unitIs .on)]
    parts := [(0, unitIs .on)], fns := [(0, { bme := true, vf := false, held := [], waiting := [] })] }

/-- Ready, and partition 0 owns what the tests use: facet 0, codec engines 0 and 8, queues 0 to 15, counters 0 to 63 and the
first granule, with one rank, this vertex. -/
def owned : State :=
  regsOf ready
    [(.pwrLc 0, 0x100), (.pwrLc 24, 0x100), (.pwrLc 32, 0x100), (.pwrLc 36, 0x100), (.pwrLc 38, 0x100), (.pwrLc 40, 0x100),
     (.partCtrl 0, 0x100), (.partUnits 0, 1), (.partCodecs 0, 0x101), (.partCeil 0, 768), (.partQueues 0, 0x10000),
     (.partCtrs 0, 0x100000), (.partQmask 0 0, 0x10000), (.memGran 0, 0x200), (.lnkRanks 0, 1), (.rankEntry 0 0, 0x80000000)]

/-- A claimed work descriptor of queue 0: its program of one instruction lies at offset 0x1000. -/
def claim : Claimed :=
  { queue := 0, part := 0, wseq := 0, gang := 0,
    wd := bitsOf 512 [(63, 0, own 0x1000), (127, 64, own 0x2000), (176, 160, 1), (190, 186, 1), (205, 192, 3), (483, 480, 1)] }

/-- Its program at the start, with a table of descriptors. -/
def runOf (t : SMap (BitVec 512)) : Run :=
  { cl := claim, pc := 0, table := t, seeds := [], control := none, array := none, vector := none, mover := none,
    waiting := none, stop := none, posted := false }

/-- An instruction in flight, all of whose effects have landed. -/
def flight (op : Nat) (fault : BitVec 8) : InFlight :=
  { index := 0, ins := insOf op 0 0 0 0 0 0 [(115, 114, 1), (109, 96, 5), (159, 128, 1)], foot := [], fault := fault, todo := [], tiles := [],
    ctx := none, post := [], lens := [], since := 0, detail := 0 }

/-- A facet that runs a program of one instruction. -/
def facetRuns (s : State) (i : BitVec 256) (t : SMap (BitVec 512)) : State :=
  { memOf s [(0x1000, 32, i.toNat)] with facets := [(0, { run := some (runOf t), next := none, served := none, samples := [] })] }

def f32d (off d0 d1 : Nat) : BitVec 512 := tensor off 0 0 2 d0 d1 1 (cdiv (d0 * 4) 64) 0 []
def bf16d (off d0 d1 : Nat) : BitVec 512 := tensor off 1 0 2 d0 d1 1 (cdiv (d0 * 2) 64) 0 []
/-- The state with this sequence-table entry 0. -/
def seqOf (s : State) (e : BitVec 512) : State := { s with seqTab := wrCells [] (cellsAt 0 (natLe 64 e.toNat)) }
def seqEntry0 : BitVec 512 :=
  bitsOf 512 [(63, 0, own 0x9000), (127, 64, own 0xA000), (255, 224, 1), (275, 272, 1), (283, 280, 1), (304, 304, 1), (311, 308, 1)]
/-- Attention parameters: one sequence, D and Dv of 32. -/
def attn (l : List (Nat × Nat × Nat)) : BitVec 512 :=
  bitsOf 512 ([(63, 0, own 0xB000), (320, 304, 1), (339, 336, 1), (343, 340, 1), (464, 463, 2), (479, 476, 1)] ++ l)

/-- What a command leaves. -/
def after (c : Instr) (s : State) : State := match exec c s with | .next t => t | _ => s

/-! The block and its memory. -/

theorem test_witness_front : ∃ c rest s, State.pending s = c :: rest := ⟨.apexStop, [], { ready with pending := [.apexStop] }, rfl⟩
theorem test_witness_idle : ready.pending = [] := rfl
theorem test_witness_kept : ready.Wf ∧ ∃ t, step ready = .next t := ⟨wf_of (by decide +kernel), _, rfl⟩
theorem test_witness_reaches : ∃ t, Reaches ready t ∧ t ≠ ready :=
  ⟨{ ready with pending := ready.pending ++ [.apexStop] }, .send _ (.refl _), by decide +kernel⟩
theorem test_witness_numbers : 0x3F80 < 2 ^ Elem.bf16.width ∧ (∃ n m e, Elem.bf16.value 0x3F80 = .num n m e) ∧ 0xF3 ≤ 0xFF :=
  ⟨by decide, ⟨false, _, _, rfl⟩, by decide⟩

/-- A tile of the first granule with an entry in this state. -/
def entryOf (st : TileState) (held : List HeldWrite) : DirEntry :=
  { size := 8192, st := st, owner := 0, units := [0], touch := 0, handPin := false, jobPins := [], p3 := false, promo := none,
    sealReq := false, unsealReq := false, held := held }
def tileIn (st : TileState) (held : List HeldWrite) : State := { owned with dir := [(0, some (entryOf st held))] }
/-- The same in a paged granule. -/
def paged (s : State) : State := s.setVal (.memGran 0) 0x2200
def heldW : HeldWrite := { src := 0, part := 0, tile := 0, op := .store [(0, 1)], bad := false }

theorem test_witness_read : owned.Wf ∧ owned.upset = false ∧ owned.admitted 0 0 16 = true :=
  ⟨wf_of (by decide +kernel), by decide +kernel, by decide +kernel⟩
/-- A range whose tile near memory serves, and one whose tile it does not serve yet. -/
theorem test_witness_read_near : ∀ st, ∃ s : State, s.Wf ∧ s.upset = false ∧ s.admitted 0 0 16 = true ∧
    s.dirEntry (s.tileOf 0).1 = some (entryOf st []) := by
  intro st
  refine ⟨tileIn st [], wf_of ?_, ?_⟩ <;> cases st <;> decide +kernel
theorem test_witness_write : owned.Wf ∧ owned.upset = false ∧ owned.admitted 0 0 1 = true ∧
    owned.writesNow 3 0 1 :=
  ⟨wf_of (by decide +kernel), by decide +kernel, by decide +kernel, by unfold State.writesNow; decide +kernel⟩
theorem test_witness_write_held : ∃ s : State, s.upset = false ∧ s.admitted 0 0xFF 1 = true ∧
    s.dirEntry (s.tileOf 0xFF).1 = some (entryOf .movingUp []) ∧ 0xFF / 256 = (0xFF + 1 - 1) / 256 :=
  ⟨tileIn .movingUp [], by decide +kernel, by decide +kernel, by decide +kernel, by decide⟩
theorem test_witness_promote : owned.Wf ∧ owned.admitted 0 0 1 = true ∧ owned.dirEntry (owned.tileOf 0).1 = none ∧
    owned.ceiling (owned.tileOwner (owned.tileOf 0).1) ≠ 0 ∧ (owned.promos.any fun w => w.tile == (owned.tileOf 0).1) = false ∧
    owned.occupancy (owned.tileOwner (owned.tileOf 0).1) + (owned.tileOf (owned.tileOf 0).1).2 / 8192 ≤
      owned.ceiling (owned.tileOwner (owned.tileOf 0).1) ∧
    (owned.tileOf (owned.tileOf 0).1).2 / 8192 ≤ owned.freeUnits (halfOf (owned.tileOf 0).1) :=
  ⟨wf_of (by decide +kernel), by decide +kernel⟩
theorem test_witness_no_ceiling : ∃ s : State, s.Wf ∧ s.admitted 0 0 1 = true ∧ s.ceiling (s.tileOwner (s.tileOf 0).1) = 0 :=
  ⟨owned.setVal (.partCeil 0) 0, wf_of (by decide +kernel), by decide +kernel⟩
theorem test_witness_seal : ∀ st, ∃ s : State, s.live = true ∧ s.upset = false ∧ granuleOf 0 = some 0 ∧ s.granClass 0 = 2 ∧
    s.dirEntry (s.tileOf 0).1 = some (entryOf st []) := by
  intro st
  refine ⟨paged (tileIn st []), ?_⟩
  cases st <;> decide +kernel
theorem test_witness_seal_absent : (paged owned).granClass 0 = 2 ∧ (paged owned).dirEntry ((paged owned).tileOf 0).1 = none := by
  decide +kernel
theorem test_witness_lands : ∀ st l, l = [] ∨ l = [heldW] → ∃ s : State, s.live = true ∧ s.upset = false ∧
    s.dirEntry (s.tileAt 0) = some (entryOf st l) ∧ s.flushing (s.tileAt 0) = false := by
  intro st l h
  refine ⟨tileIn st l, ?_⟩
  rcases h with rfl | rfl <;> cases st <;> decide +kernel

def promoW : PromoWait := { tile := 0, part := 0, p3 := false, counted := false, victim := none }
theorem test_witness_promotion : ∃ s : State, s.live = true ∧ s.upset = false ∧
    s.promos.find? (fun x => x.tile == (s.tileOf 0).1) = some promoW ∧ promoW.victim = none ∧ s.flushing (s.tileOf 0).1 = false ∧
    s.occupancy 0 + (s.tileOf 0).2 / 8192 ≤ s.ceiling 0 ∧ (s.tileOf 0).2 / 8192 ≤ s.freeUnits (halfOf 0) :=
  ⟨{ owned with promos := [promoW] }, by decide +kernel⟩
theorem test_witness_accept : ∀ e, e = none ∨ e = some (entryOf .copy []) ∨ e = some (entryOf .near []) →
    ∃ s : State, s.live = true ∧ s.waitWrites = [heldW] ∧ halfOf 0 = 0 ∧ s.mayWrite heldW = true ∧
      s.granBusy 0 1 = false ∧ s.moving 0 = false ∧ s.dirEntry 0 = e := by
  intro e h
  refine ⟨{ owned with waitWrites := [heldW], dir := if e = none then [] else [(0, e)] }, ?_⟩
  rcases h with rfl | rfl | rfl <;> decide +kernel
/-- A write of facet 0's mover that waits; its partition does not own the granule any more. -/
theorem test_witness_accept_refused : ∃ (s : State) (w : HeldWrite) (r : Run) (i : InFlight), s.live = true ∧ s.waitWrites = [w] ∧
    halfOf w.tile = 0 ∧ s.mayWrite w = false ∧ w.tx = none ∧ w.src = srcFacet 0 .mover ∧ (s.facet 0).run = some r ∧
    r.flight .mover = some i ∧ i.fault = 0 :=
  ⟨{ owned.setVal (.memGran 0) 0x201 with
     facets := [(0, { run := some { runOf [] with mover := some (flight 0x50 0) }, next := none, served := none, samples := [] })]
     waitWrites := [{ heldW with src := srcFacet 0 .mover }] },
    { heldW with src := srcFacet 0 .mover }, { runOf [] with mover := some (flight 0x50 0) }, flight 0x50 0, by decide +kernel⟩
/-- The pseudo-channel that keeps granule 0, its arbiter in a slot, with these classes granted last. -/
def pc0 : Nat := stackArbiter 0
def arbIn (slot : Nat) (hist : List Nat) : State := { owned with arbs := [(pc0, { arb0 with slot := slot, hist := hist })] }
/-- A granule of P3, of P1, of P4, at the front of its queue. -/
def req3 : ArbRequest := { src := .facet 0, kind := .facet, write := false, off := 0 }
def req1 : ArbRequest := { src := .codec 0, kind := .codec, write := true, off := 0 }
def req4 : ArbRequest := { src := .host, kind := .host, write := false, off := 0 }
theorem test_witness_arbiter : ∀ l, l = [req3] ∨ l = [req3, req1] ∨ l = [req4] → ∀ k, k = 0 ∨ k = 19 → (arbIn k []).Wf ∧ (arbIn k []).live = true ∧
    (arbIn k []).hasRoom pc0 = true ∧ (arbIn k []).throttled pc0 ((arbIn k []).gather pc0 l) = false ∧
    ((arbIn k []).arb pc0).slot = k ∧
    (((arbIn k []).gather pc0 l).free.any fun w => decide (w.cls < 5)) = true ∧
    ((((arbIn k []).gather pc0 l).free.any fun w => decide (w.cls ≤ 1)) = l.contains req1) ∧
    ((((arbIn k []).gather pc0 l).free.any fun w => w.cls == 3) = l.contains req3) ∧
    ((((arbIn k []).gather pc0 l).free.any fun w => w.cls == 4) = l.contains req4) := by
  intro l hl k hk
  refine ⟨wf_of ?_, ?_⟩ <;> rcases hl with rfl | rfl | rfl <;> rcases hk with rfl | rfl <;> decide +kernel
theorem test_witness_arbiter_full : ((arbIn 1 (List.replicate 8 1)).gather pc0 [req1]).full = true ∧
    p1Counter pc0 = some (.memP1OverCnt 0) ∧ ((arbIn 1 (List.replicate 8 1)).gather pc0 [req1]).waiting.length = 1 := by decide +kernel
theorem test_witness_arbiter_holds : ∃ s : State, s.Wf ∧ s.live = true ∧ s.hasRoom pc0 = false :=
  ⟨{ owned with xings := [(1, { xing0 with away := List.replicate 64 { age := 0, read := false } })] }, wf_of (by decide +kernel),
    by decide +kernel⟩
/-- P1 prevails in a floor slot; in the open slot after it P3 is repaid (the order R60 gives). -/
theorem test_arbiter_repays : ((after (.arbiterGrant pc0 [req3, req1]) (arbIn 0 [])).arb pc0).grant.map (fun w => w.cls) = some 1 ∧
    ((after (.arbiterGrant pc0 []) (after (.arbiterGrant pc0 [req3, req1]) (arbIn 0 []))).arb pc0).grant.map (fun w => w.cls) = some 3 := by
  decide +kernel
/-- A stack above 105 °C does not take a granule; it reads more than 110 °C and trips, or less. -/
theorem test_witness_throttled : ∃ s : State, s.Wf ∧ s.live = true ∧ s.throttled pc0 (s.gather pc0 [req3]) = true :=
  ⟨{ owned with memctl := [(0, { owned.memCtl 0 with throttle := true })], arbs := [(pc0, { arb0 with slot := 1, lastAt := some 0 })] }, wf_of (by decide +kernel),
    by decide +kernel⟩
theorem test_witness_temp : owned.Wf ∧ owned.awake = true ∧ (111 : BitVec 8).toNat = 111 ∧ owned.pins.reset = false ∧ owned.halted = false ∧ (owned.unit (uStack 0)).st ≠ .off ∧
    (owned.memCtl 0).selfRefresh = false := ⟨wf_of (by decide +kernel), by decide +kernel⟩

/-- Granule 0 under a procedure. -/
def granIn (f c : Bool) : State := { owned with gran := [(0, { flush := f, scrub := c, needScrub := true, clearClass := false })] }
theorem test_witness_granule : owned.Wf ∧ Taken owned 0 (.memGran 0) 0x200 ∧ owned.merged (.memGran 0) 0x200 = owned.val (.memGran 0) ∧
    Taken owned 0 (.memGran 0) 0x201 ∧ owned.merged (.memGran 0) 0x201 ≠ owned.val (.memGran 0) :=
  ⟨wf_of (by decide +kernel), taken_of (by decide +kernel), by decide +kernel, taken_of (by decide +kernel), by decide +kernel⟩
theorem test_witness_flush_done : (granIn true false).Wf ∧ (granIn true false).live = true ∧
    ((granIn true false).granProc 0).flush = true ∧ (granIn true false).granTiles 0 = [] ∧
    ((granIn true false).granProc 0).clearClass = false :=
  ⟨wf_of (by decide +kernel), by decide +kernel⟩
theorem test_witness_scrub_done : (granIn false true).Wf ∧ ((granIn false true).granProc 0).scrub = true :=
  ⟨wf_of (by decide +kernel), by decide +kernel⟩

/-! The register file and the host. -/

/-- Queue 0 enabled, its rings at offsets of the own stacks (or, `h`, the completion ring in host memory). -/
def queued (h : Bool) : State :=
  regsOf owned [(.qRing 0 false, 0x10000), (.qRing 0 true, 0xFFF00000), (.qCfg 0, 0x1C04), (.qCq 0 false, 0x20000),
    (.qCq 0 true, if h then 0xFFF30000 else 0xFFF00000), (.qCqCfg 0, 0x00200014)]
/-- One copy of a triplicated register has flipped. -/
def flipped : State := after (.singleUpset (Reg.partCeil 0).key 1 0) owned
def rec0 : Rec :=
  { owner := .nobody, wseq := 0, status := 0, gang := 0, faultMember := 0, faultIndex := 0, userTag := 0, detail := 0, doneCtr := some 3 }
def held0 : State := (queued true).setQueue 0 { (queued true).queue 0 with waiting := [rec0], irq := [0] }

theorem test_witness_plain_write : owned.Wf ∧ Taken owned 0 (.qCqCfg 0) 0x14 ∧ (Reg.qCqCfg 0).plain = true ∧
    Taken owned 0 .imageLog 0 ∧ Reg.imageLog.plain = true ∧ (Reg.imageLog.mask .wz) ≠ 0 :=
  ⟨wf_of (by decide +kernel), taken_of (by decide +kernel), rfl, taken_of (by decide +kernel), rfl, by decide +kernel⟩
theorem test_witness_refused : owned.Wf ∧ Reached owned 0 true (.lnkRanks 0) ∧ (0x7 : BitVec 4) ≠ 0xF ∧
    (0xFFFFFFFF ^^^ owned.readVal 0 (.lnkRanks 0)) &&& (Reg.lnkRanks 0).mask .rk ≠ 0 ∧
    (0x1001 ^^^ owned.readVal 0 (.lnkRanks 0)) &&& (Reg.lnkRanks 0).mask .rk = 0 ∧ owned.rejects (.lnkRanks 0) 0x1001 = some [] ∧
    owned.hostHeld 0 = false :=
  ⟨wf_of (by decide +kernel), reached_of (by decide +kernel), by decide +kernel⟩
theorem test_witness_refused_flags : Reached ready 0 true (.qCfg 0) ∧ ready.rejects (.qCfg 0) 0x400 = some [(.qLog 0, 3)] ∧
    (0x400 ^^^ ready.readVal 0 (.qCfg 0)) &&& (Reg.qCfg 0).mask .rk = 0 := ⟨reached_of (by decide +kernel), by decide +kernel⟩
theorem test_witness_reg_read : owned.Wf ∧ Reached owned 0 false .imageLog ∧ owned.answersTo 0 = true ∧
    owned.target 0 false 0x00FF_FFF0 = none ∧ owned.hostLine 0 = false := ⟨wf_of (by decide +kernel), reached_of (by decide +kernel), by decide +kernel⟩
theorem test_witness_two_words : Reached owned 0 false (.qRing 0 false) ∧ Reached owned 0 false (.qRing 0 true) ∧
    (Reg.qRing 0 true).offset = (Reg.qRing 0 false).offset + 4 := ⟨reached_of (by decide +kernel), reached_of (by decide +kernel), rfl⟩
theorem test_witness_read_frozen : ∃ s : State, s.Wf ∧ s.answersTo 0 = true ∧ s.freeze.frozen = true ∧ freezeBlock 0x00A1_0000 = false :=
  ⟨{ owned with freeze := { owned.freeze with frozen := true } }, wf_of (by decide +kernel), by decide +kernel⟩
theorem test_witness_wz : (owned.val .imageLog).getLsbD 0 = false ∧ ((owned.setWz .imageLog 0 []).val .imageLog).getLsbD 0 = true := by
  decide +kernel
theorem test_witness_upset : owned.Wf ∧ regAt 0 (Reg.partCeil 0).key = some (.partCeil 0) ∧ (Reg.partCeil 0).triple.getLsbD 0 = true ∧
    owned.agrees (.partCeil 0) = true := ⟨wf_of (by decide +kernel), by decide +kernel⟩
theorem test_witness_outvoted : flipped.Wf ∧ Reached flipped 0 false (.partCeil 0) ∧ (Reg.partCeil 0).triplicated = true ∧
    flipped.agrees (.partCeil 0) = false ∧ (∀ x ∈ partEntry 0, x.key = (Reg.partCeil 0).key ∨ flipped.agrees x = true) :=
  ⟨wf_of (by decide +kernel), reached_of (by decide +kernel), by decide +kernel⟩
theorem test_witness_scrub : flipped.awake = true ∧ flipped.boot.ready = true := by decide +kernel

theorem test_witness_signal : owned.Wf ∧ Taken owned 0 (.ctrSignal 3) 1 ∧ Taken owned 0 (.ctrSignal 3) 0 ∧ sigOk 1 = true ∧
    sigOk 0 = false ∧ Taken owned 0 (.ctrValue 3) 9 :=
  ⟨wf_of (by decide +kernel), taken_of (by decide +kernel), taken_of (by decide +kernel), by decide, by decide, taken_of (by decide +kernel)⟩
theorem test_witness_doorbell : (queued false).Wf ∧ (queued false).answersTo 0 = true ∧ (queued false).upset = false ∧
    (queued false).hostHeld 0 = false ∧ (queued false).get (.qCfg 0) 24 11 = 3 ∧
    (queued false).ownsQueue ((queued false).qPart 0) 0 = true ∧ (queued false).ownsCtr ((queued false).qPart 0) 3 = true :=
  ⟨wf_of (by decide +kernel), by decide +kernel⟩
theorem test_witness_queue_page : owned.answersTo 0 = true ∧ owned.freeze.frozen = false := by decide +kernel
/-- A doorbell of queue 0 waits, behind a BAR4 write that has not landed or not. -/
def rings (left : Bool) : State :=
  { (queued false).setFn 0 { (queued false).fn 0 with waiting := [.doorbell 0 5] } with
    waitWrites := if left then [{ heldW with src := srcHost 0 }] else [] }
theorem test_witness_doorbell_waits : ∀ l, (rings l).Wf ∧ (rings l).answersTo 0 = true ∧ (rings l).boot.recovery = false ∧
    (rings l).freeze.frozen = false ∧ (rings l).upset = false ∧ (rings l).get (.qCfg 0) 24 11 = 3 ∧
    (rings l).ownsQueue ((rings l).qPart 0) 0 = true ∧ (rings l).ownsCtr ((rings l).qPart 0) 3 = true ∧ (rings l).hostHeld 0 = true ∧
    ((rings l).fn 0).waiting = [.doorbell 0 5] ∧ (rings l).writesLeft (srcHost 0) = l := by
  intro l; cases l <;> exact ⟨wf_of (by decide +kernel), by decide +kernel⟩
theorem test_witness_write_waits : ∃ s : State, s.Wf ∧ Reached s 0 true (.ctrSignal 3) ∧ s.upset = false ∧
    (Reg.ctrSignal 3).ordered = true ∧ s.hostHeld 0 = true :=
  ⟨{ queued false with waitWrites := [{ heldW with src := srcHost 0 }] }, wf_of (by decide +kernel), reached_of (by decide +kernel),
    by decide +kernel⟩
theorem test_witness_read_waits : (rings false).answersTo 0 = true ∧ (rings false).freeze.frozen = false ∧ (rings false).hostLine 0 = true := by
  decide +kernel
/-- The doorbell takes effect in a step of the empty queue after the write has landed, and not before. -/
theorem test_doorbell_after_write : ∀ l : Bool,
    (match step (rings l) with | .next t => t.counter 3 - (rings l).counter 3 | _ => 7) = if l then 0 else 5 := by decide +kernel
theorem test_witness_queue_enable : ∃ s : State, s.Wf ∧ Taken s 0 (.qCfg 0) 0x1C04 ∧ s.qEnabled 0 = false ∧
    (0x1C04 : Word).getLsbD 10 = true :=
  ⟨(queued false).setVal (.qCfg 0) 0, wf_of (by decide +kernel), taken_of (by decide +kernel), by decide +kernel⟩
theorem test_witness_queue_disable : (queued false).Wf ∧ Taken (queued false) 0 (.qCfg 0) 0x1804 ∧ (queued false).qEnabled 0 = true ∧
    Taken (queued false) 0 (.qCqHead 0) 1 := ⟨wf_of (by decide +kernel), taken_of (by decide +kernel), by decide +kernel, taken_of (by decide +kernel)⟩
theorem test_witness_record : ∀ h : Bool, ∃ s : State, s.Wf ∧ s.live = true ∧ s.upset = false ∧ (s.queue 0).waiting = [rec0] ∧
    s.cqReachable 0 = true ∧ s.cqFull 0 = false ∧ (s.ringAddr 0 true).space = if h then 3 else 0 := by
  intro h
  refine ⟨(queued h).setQueue 0 { (queued h).queue 0 with waiting := [rec0], irq := [0] }, wf_of ?_, ?_⟩ <;> cases h <;> decide +kernel
/-- A record waits for the ring at 0x20000, whose tile is still or moves. -/
def recWaits (m : Bool) : State :=
  { (queued false).setQueue 0 { (queued false).queue 0 with waiting := [rec0] } with
    dir := if m then [(0x20000, some (entryOf .movingUp []))] else [] }
theorem test_witness_record_lands : ∀ m, (recWaits m).Wf ∧ (recWaits m).txClear ∧
    ((recWaits m).ringAddr 0 true).off + ((recWaits m).val (.qCqTail 0)).toNat % (recWaits m).cqDepth 0 * 64 = 0x20000 ∧
    0x20000 / 256 = (0x20000 + 63) / 256 ∧ (recWaits m).moving ((recWaits m).tileOf 0x20000).1 = m ∧
    (m = false → (recWaits m).writesNow srcQueue 0x20000 64) := by
  intro m
  refine ⟨wf_of ?_, ?_, ?_, ?_, ?_, fun h => ?_⟩
  case refine_6 => subst h; unfold State.writesNow; decide +kernel
  all_goals cases m <;> (try unfold State.txClear) <;> decide +kernel
/-- The completion ring of queue 0 is full. -/
theorem test_witness_record_full : ∃ s : State, s.Wf ∧ s.live = true ∧ (s.queue 0).waiting = [rec0] ∧ s.cqFull 0 = true :=
  ⟨(recWaits false).setVal (.qCqTail 0) (BitVec.ofNat 32 ((recWaits false).cqDepth 0)), wf_of (by decide +kernel), by decide +kernel⟩
/-- A record is on its way, its write held or landed. -/
theorem test_witness_record_due : ∀ held : Bool, ∃ (s : State) (d : TxDue), s.Wf ∧ s.txDue = [d] ∧ d.back = .record 0 (some 3) ∧
    s.txLeft d.seq = held := by
  intro held
  refine ⟨{ queued false with txDue := [{ seq := 0, back := .record 0 (some 3), old := [] }],
                              waitWrites := if held then [{ heldW with src := srcQueue, tx := some 0 }] else [] }, _, wf_of ?_, rfl, rfl, ?_⟩ <;>
    cases held <;> decide +kernel
/-- A facet whose program has ended, with a program fetched behind it or none. -/
theorem test_witness_owner_free : ∀ n, n = none ∨ n = some claim → ∃ u : State, u.Wf ∧ (u.facet 0).next = n := by
  intro n h
  refine ⟨{ owned with facets := [(0, { run := some (runOf []), next := n, served := none, samples := [] })] }, wf_of ?_, ?_⟩ <;>
    rcases h with rfl | rfl <;> decide +kernel
theorem test_witness_imod : held0.Wf ∧ held0.live = true ∧ (held0.queue 0).irq = [0] ∧ (held0.val (.qCqCfg 0)).getLsbD 4 = true ∧
    ∃ s : State, s.Wf ∧ (s.queue 0).irq = [0] ∧ (s.val (.qCqCfg 0)).getLsbD 4 = true ∧
      0 + s.get (.qCqCfg 0) 31 21 * 1000 ≤ s.limClock :=
  ⟨wf_of (by decide +kernel), by decide +kernel, by decide +kernel, by decide +kernel, { held0 with limClock := 5000 },
    wf_of (by decide +kernel), by decide +kernel⟩
/-- The function's vector 0 in its table: masked, as after reset, or not. -/
def vectorIs (masked : Bool) : State := if masked then held0 else held0.setVal (.msixWord 0 12) 0
theorem test_witness_vector : ∀ m, (vectorIs m).Wf ∧ (vectorIs m).upset = false ∧
    (vectorIs m).msixOpen ((vectorIs m).qPart 0) ((vectorIs m).get (.qCqCfg 0) 12 5) = !m ∧ Taken (vectorIs m) 0 (.msixWord 0 12) 0 := by
  intro m; refine ⟨wf_of ?_, ?_, ?_, taken_of ?_⟩ <;> cases m <;> decide +kernel
/-- Bus mastering is written on or off while a message is held, of a vector that is masked or not. -/
theorem test_witness_bme : ∀ m, ∃ s : State, s.Wf ∧ s.answers = true ∧ s.boot.recovery = false ∧ (s.fn 0).held = [0] ∧
    (s.val (.msixWord 0 (16 * 0 + 12))).getLsbD 0 = m := by
  intro m
  refine ⟨(vectorIs m).setFn 0 { (vectorIs m).fn 0 with held := [0] }, wf_of ?_, ?_⟩ <;> cases m <;> decide +kernel

theorem test_witness_part_write : ∃ s : State, s.Wf ∧ partReg 0 0x14 = some (.partCtrs 0) ∧ Taken s 0 (.partCtrs 0) 0x104000 ∧
    s.ownsCtr 0 64 = false ∧ Taken s 0 (.partCeil 0) 5 ∧ Taken s 0 (.partUnits 0) 0 ∧ (s.unit (uFacet 0)).st = .on :=
  ⟨{ owned with parts := [] }, wf_of (by decide +kernel), by decide +kernel, taken_of (by decide +kernel), by decide +kernel,
    taken_of (by decide +kernel), taken_of (by decide +kernel), by decide +kernel⟩
theorem test_witness_part_enable : owned.Wf ∧ owned.live = true ∧ Taken owned 0 (.partCtrl 0) 0x102 ∧ Taken owned 0 (.partCtrl 0) 2 :=
  ⟨wf_of (by decide +kernel), by decide +kernel, taken_of (by decide +kernel), taken_of (by decide +kernel)⟩
theorem test_witness_unit_enable : owned.Wf ∧ Taken owned 0 (.pwrLc 1) 0x100 ∧ (owned.unit 1).failed = false ∧ owned.mayRamp 1 = true ∧
    (owned.unit 1).st = .off ∧ Taken owned 0 (.pwrLc 0) 0 ∧ (owned.unit 0).st = .on :=
  ⟨wf_of (by decide +kernel), taken_of (by decide +kernel), by decide +kernel, by decide +kernel, by decide +kernel,
    taken_of (by decide +kernel), by decide +kernel⟩
theorem test_witness_ramp : ∀ st en, (st = .ramping ∨ st = .draining) → ∃ s : State, s.Wf ∧ s.live = true ∧ (s.unit 40).st = st ∧
    s.unitEn 40 = en ∧ s.holdsWork 40 = false ∧ (s.unit 40).moved = false ∧ (s.part 0).st = st ∧ s.upset = false ∧
    s.partHolds 0 = false := by
  intro st en h
  refine ⟨{ owned.setVal (.pwrLc 40) (if en then 0x100 else 0) with units := [(40, unitIs st)], parts := [(0, unitIs st)] }, wf_of ?_, ?_⟩ <;>
    rcases h with rfl | rfl <;> cases en <;> decide +kernel

theorem test_witness_bar4 : owned.Wf ∧ owned.answersTo 0 = true ∧ owned.freeze.frozen = false ∧ owned.bar4Ok 0 0 8 = true ∧
    owned.granBusy 0 8 = false ∧ owned.writesNow (srcHost 0) 0 8 ∧ 0 + 8 ≤ 2 ^ (owned.fn 0).barLog ∧ 2 ^ (owned.fn 0).barLog < 2 ^ 40 + 8 ∧
    (owned.fn 0).waiting = [] ∧ owned.bar4Ok 0 (2 ^ 36) 8 = false ∧
    ∃ s : State, s.Wf ∧ s.answersTo 0 = true ∧ s.boot.recovery = false ∧ s.bar4Ok 0 0 8 = true ∧ s.granBusy 0 8 = true :=
  ⟨wf_of (by decide +kernel), by decide +kernel, by decide +kernel, by decide +kernel, by decide +kernel,
    by unfold State.writesNow; decide +kernel, by decide +kernel, by decide +kernel, by decide +kernel, by decide +kernel,
    { owned with gran := [(0, { flush := false, scrub := true, needScrub := false, clearClass := false })] }, wf_of (by decide +kernel),
    by decide +kernel⟩
/-- In recovery. -/
def recovers : State := { ready with boot := { ready.boot with phase := 15, recovery := true, ready := false } }
theorem test_witness_bar4_recovery : recovers.Wf ∧ recovers.answersTo 0 = true ∧ recovers.upset = false ∧ 0 + 8 ≤ 2 ^ 24 ∧
    recovers.boot.going = false := ⟨wf_of (by decide +kernel), by decide +kernel⟩
theorem test_witness_reset_function : owned.answers = true ∧ (1 : FnId) ≠ 0 ∧ owned.pins.reset = false ∧ owned.boot.ready = true ∧
    owned.pcieUp = true ∧ State.reset.answers = false := by decide +kernel
/-- Partition 1's function is reset while a member of its gang runs on facet 0. -/
def run1 : Run := { runOf [] with cl := { claim with part := 1 } }
def gangIs (q p wseq : Nat) : Gang := { queue := q, part := p, wseq := BitVec.ofNat 32 wseq, wd := claim.wd, size := 2, claimed := 1, ended := 0, fault := none }
theorem test_witness_reset_gang : ∃ (s : State) (g : Gang), s.Wf ∧ s.answers = true ∧ s.boot.recovery = false ∧
    (∀ k, k < 24 → ∀ c, (s.facet k).next = some c → c.part ≠ 1) ∧ (s.facet 0).run = some run1 ∧ run1.cl.part = (1 : FnId).val ∧
    run1.posted = false ∧ run1.stop = none ∧ run1.pc < wLen run1.cl.wd ∧ (s.unit (uFacet 0)).st ≠ .draining ∧
    s.gangOf run1.cl.queue run1.cl.wseq = some g ∧ g.part = (1 : FnId).val ∧ g.ended < g.claimed ∧ g.fault = none := by
  refine ⟨{ owned with facets := [(0, { run := some run1, next := none, served := none, samples := [] })], gangs := [gangIs 0 1 0] },
    gangIs 0 1 0, wf_of (by decide +kernel), by decide +kernel, by decide +kernel, fun k _ c h => ?_, by decide +kernel⟩
  by_cases hk : k = 0
  · subst hk; cases h
  · have : (State.facet { owned with facets := [(0, { run := some run1, next := none, served := none, samples := [] })], gangs := [gangIs 0 1 0] } k).next = none := by
      simp [State.facet, tget, hk, facet0]
    rw [this] at h; cases h
/-- Word 36 of an entry of partition 1, through the PF and its own VF; an entry of partition 0 through the VF. -/
def window (p : Nat) : State :=
  seqOf (owned.setFn 1 { owned.fn 1 with vf := true, bme := true }) (bitsOf 512 [(300, 296, p), (304, 304, 1)])
theorem test_witness_window : ∀ p, p = 0 ∨ p = 1 → ∀ o, o = 0 ∨ o = 36 → (window p).Wf ∧ (window p).upset = false ∧
    (window p).val (.seqWord o) = 0 ∧ Taken (window p) 0 (.seqWord o) 7 ∧ Taken (window p) (1 : FnId) (.seqWord o) 7 ∧
    Reached (window p) 0 false (.seqWord o) ∧ Reached (window p) (1 : FnId) false (.seqWord o) ∧
    ((rd (window p).seqTab ((window p).seqAt 1 o / 64 * 64 + 37)).toNat % 32 = 1 ↔ p = 1) := by
  intro p hp o ho
  refine ⟨wf_of ?_, ?_, ?_, taken_of ?_, taken_of ?_, reached_of ?_, reached_of ?_, ?_⟩ <;> rcases hp with rfl | rfl <;>
    rcases ho with rfl | rfl <;> decide +kernel
theorem test_witness_errors : owned.Wf ∧ owned.pins.reset = false ∧ owned.boot.apexRun = true ∧ owned.mayFail 0 .controlState = true :=
  ⟨wf_of (by decide +kernel), by decide +kernel⟩

/-! Facets: each row of an instruction issues on one small state. -/

def T0 : SMap (BitVec 512) :=
  [(1, f32d 0x4000 32 1), (2, bf16d 0x5000 32 1), (3, bf16d 0x6000 1 32), (4, f32d 0x7000 1 1), (5, f32d 0x8000 32 1),
   (6, f32d 0x9000 2 1), (7, f32d 0xA000 32 2)]
/-- Convolution parameters of a 1 × 1 kernel. -/
def geo : BitVec 512 :=
  bitsOf 512 [(143, 128, 1), (159, 144, 1), (175, 160, 1), (191, 176, 1), (207, 192, 1), (223, 208, 1), (231, 224, 1), (239, 232, 1),
    (247, 240, 1), (464, 463, 1), (479, 476, 1)]
def T1 : SMap (BitVec 512) :=
  [(1, tensor 0x4000 1 1 5 32 1 1 0 0 []), (2, bf16d 0x6000 1 32), (3, tensor 0x7000 0 1 5 1 1 1 0 0 []), (4, geo),
   (5, tensor 0x8000 1 1 5 32 1 1 0 0 [])]
/-- A chord schedule of one member. -/
def sch1 (l : List (Nat × Nat × Nat)) : BitVec 512 :=
  bitsOf 512 ([(462, 449, 8), (464, 463, 3), (359, 348, 1), (319, 304, 1), (191, 128, own 0x10000), (127, 96, 1), (479, 476, 1)] ++ l)
def T2 : SMap (BitVec 512) :=
  [(1, f32d 0x4000 1 1), (2, bf16d 0x5000 32 1), (3, bf16d 0x6000 1 32), (4, sch1 []), (5, bf16d 0x7000 32 1), (6, bf16d 0x8000 32 1),
   (7, sch1 [(63, 0, own 0x9000)])]
def T3 : SMap (BitVec 512) :=
  [(1, bf16d 0x4000 32 1), (2, bf16d 0x5000 64 32), (3, attn []), (4, attn [(298, 288, 1)]), (5, tensor 0x6000 1 0 3 32 1 1 1 1 []),
   (6, tensor 0x7000 0 0 3 32 1 1 2 2 []), (7, sch1 [(255, 192, own 0xC000)])]
def T4 : SMap (BitVec 512) :=
  [(1, tensor 0x4000 0x20 0 2 32 1 1 1 0 []), (8, tensor 0x8000 0x21 0 2 1 32 1 1 0 []), (9, bf16d 0xD000 16 32),
   (10, bf16d 0xE000 1 16), (11, f32d 0xF000 1 1)]
/-- Length table and page table of sequence 0. -/
def kvOf (s : State) (l : List (Nat × Nat × Nat)) : State := memOf (seqOf s seqEntry0) ((0xB008, 4, 1) :: l)

theorem test_issues_nop : RowIssues (.nop 0) (facetRuns owned (insOf 0x00 0 0 0 0 0 0 []) T0) true := rowIssues_of (by decide +kernel)
theorem test_issues_fence : RowIssues (.fence 0) (facetRuns owned (insOf 0x01 0 0 0 0 0 0 []) T0) true := rowIssues_of (by decide +kernel)
theorem test_issues_setseed : RowIssues (.setseed 0) (facetRuns owned (insOf 0x02 0 0 0 0 0 0 [(17, 14, 3)]) T0) true :=
  rowIssues_of (by decide +kernel)
theorem test_issues_dload : RowIssues (.dload 0) (facetRuns owned (insOf 0x03 1 0 0 0 0 1 [(255, 192, own 0x2000)]) T0) true :=
  rowIssues_of (by decide +kernel)
theorem test_issues_matmul : RowIssues (.matmul 0) (facetRuns owned (insOf 0x10 4 2 3 0 0 0 []) T0) true := rowIssues_of (by decide +kernel)
theorem test_issues_matmul_lr : RowIssues (.matmulLr 0) (facetRuns owned (insOf 0x11 11 1 8 0 9 (10 * 256) []) T4) true :=
  rowIssues_of (by decide +kernel)
theorem test_issues_matmul_kv : RowIssues (.matmulKv 0)
    (kvOf (facetRuns owned (insOf 0x12 0 1 2 0 3 0 []) T3) [(0x9000, 8, 2 ^ 63 + 0x12000)]) true := rowIssues_of (by decide +kernel)
theorem test_issues_conv : RowIssues (.conv 0) (facetRuns owned (insOf 0x13 3 1 2 0 4 0 []) T1) true := rowIssues_of (by decide +kernel)
theorem test_issues_attn : RowIssues (.attn 0) (kvOf (facetRuns owned (insOf 0x14 6 5 0 0 4 0 []) T3) []) true :=
  rowIssues_of (by decide +kernel)
theorem test_issues_vew : RowIssues (.vew 0) (facetRuns owned (insOf 0x20 1 1 0 0 0 0 []) T0) true := rowIssues_of (by decide +kernel)
theorem test_issues_vrowstat : RowIssues (.vrowstat 0) (facetRuns owned (insOf 0x21 4 1 0 0 0 1 []) T0) true := rowIssues_of (by decide +kernel)
theorem test_issues_norm : RowIssues (.norm 0) (facetRuns owned (insOf 0x22 1 5 6 7 0 0 []) T0) true := rowIssues_of (by decide +kernel)
theorem test_issues_vfunc : RowIssues (.vfunc 0) (facetRuns owned (insOf 0x23 1 1 0 0 0 0 []) T0) true := rowIssues_of (by decide +kernel)
theorem test_issues_softmax : RowIssues (.softmax 0) (facetRuns owned (insOf 0x24 1 1 0 0 0 0 []) T0) true := rowIssues_of (by decide +kernel)
theorem test_issues_quant : RowIssues (.quant 0) (facetRuns owned (insOf 0x25 1 5 0 0 0 0 []) T0) true := rowIssues_of (by decide +kernel)
theorem test_issues_pool : RowIssues (.pool 0) (facetRuns owned (insOf 0x26 5 1 0 0 4 0 []) T1) true := rowIssues_of (by decide +kernel)
theorem test_issues_upsample : RowIssues (.upsample 0) (facetRuns owned (insOf 0x27 5 1 0 0 0 0 []) T1) true := rowIssues_of (by decide +kernel)
theorem test_issues_gather : RowIssues (.gatherMatmul 0) (facetRuns owned (insOf 0x40 1 2 3 0 4 0 []) T2) true := rowIssues_of (by decide +kernel)
theorem test_issues_scatter : RowIssues (.matmulScatter 0) (facetRuns owned (insOf 0x41 1 2 3 0 4 0 []) T2) true := rowIssues_of (by decide +kernel)
theorem test_issues_ring : RowIssues (.ringAttn 0) (kvOf (facetRuns owned (insOf 0x42 6 5 4 0 7 0 []) T3) []) true :=
  rowIssues_of (by decide +kernel)
theorem test_issues_exchange : RowIssues (.exchangeV 0) (memOf (facetRuns owned (insOf 0x43 5 6 0 0 7 0 []) T2) [(0x9000, 8, 1)]) true :=
  rowIssues_of (by decide +kernel)
theorem test_issues_put : RowIssues (.put 0) (facetRuns owned (insOf 0x50 1 5 0 0 0 0 []) T0) true := rowIssues_of (by decide +kernel)
theorem test_issues_get : RowIssues (.get 0) (facetRuns owned (insOf 0x51 1 5 0 0 0 0 []) T0) true := rowIssues_of (by decide +kernel)
theorem test_issues_atomic : RowIssues (.atomic 0) (facetRuns owned (insOf 0x52 1 0 0 0 0 0x16 []) T0) true := rowIssues_of (by decide +kernel)
theorem test_issues_prefetch : RowIssues (.prefetch 0) (facetRuns owned (insOf 0x53 0 5 0 0 0 0 []) T0) true := rowIssues_of (by decide +kernel)
theorem test_issues_evict : RowIssues (.evict 0) (facetRuns owned (insOf 0x54 0 5 0 0 0 0 []) T0) true := rowIssues_of (by decide +kernel)

/-- A NOP that waits for counter 5 to reach 1. -/
def waits : State := facetRuns owned (insOf 0x00 0 0 0 0 0 0 [(79, 79, 1), (77, 64, 5), (191, 160, 1)]) []
theorem test_waits : RowIssues (.nop 0) waits false := rowIssues_of (by decide +kernel)
def waitsOn : State := { waits with facets := [(0, { run := some { runOf [] with waiting := some 0 }, next := none, served := none, samples := [] })] }
theorem test_waits_on : RowIssues (.nop 0) waitsOn false ∧ ((waitsOn.ahead 0).facet 0).run.map (fun r => (r.waiting, r.poolSeq)) = some (some 0, none) :=
  ⟨rowIssues_of (by decide +kernel), by decide +kernel⟩

/-- The instruction at a facet's pc as it issues. -/
def issT (u : FUnit) (ins : BitVec 256) (t : SMap (BitVec 512)) : Iss := issOf 0 u { runOf t with buf := [ins] } ins
theorem test_witness_evict_tiles : ∀ st, st = .copy ∨ st = .near → ∃ (s : State) (a : Nat), s.Wf ∧ RowIssues (.evict 0) s true ∧
    a ∈ (s.ahead 0).viewTiles ((issT .mover (insOf 0x54 0 5 0 0 0 0 []) T0).moverView 5) ∧ (s.ahead 0).dirEntry a = some (entryOf st []) ∧
    (s.ahead 0).evictable a (entryOf st []) = true := by
  intro st h
  refine ⟨{ facetRuns owned (insOf 0x54 0 5 0 0 0 0 []) T0 with dir := [(0x8000, some (entryOf st []))] }, 0x8000, wf_of ?_, rowIssues_of ?_, ?_⟩ <;>
    rcases h with rfl | rfl <;> decide +kernel

/-- A matrix product whose slots the table does not fill. -/
def wrong : State := facetRuns owned (insOf 0x10 4 2 3 0 0 0 []) []
def issW : Iss := issT .array (insOf 0x10 4 2 3 0 0 0 []) []
/-- A reserved opcode. -/
def reserved : State := facetRuns owned (insOf 0x7F 0 0 0 0 0 0 []) []
def issR : Iss := issT .array (insOf 0x7F 0 0 0 0 0 0 []) []
theorem test_witness_check : wrong.Wf ∧ (wrong.ahead 0).upset = false ∧ (wrong.ahead 0).loading issW = false ∧
    (wrong.ahead 0).nextIns 0 .array = some issW ∧ iOpcode issW.ins = 0x10 ∧
    codeAt (firstCode ((wrong.ahead 0).baseCode issW.p issW.ins) (planMm false (wrong.ahead 0) issW).code)
      (planMm false (wrong.ahead 0) issW).seq ≠ 0 := ⟨wf_of (by decide +kernel), by decide +kernel⟩
theorem test_witness_opcode : reserved.Wf ∧ (reserved.ahead 0).nextIns 0 .array = some issR ∧ (reserved.ahead 0).loading issR = false ∧
    opcodes.contains (iOpcode issR.ins) = false ∧ (reserved.ahead 0).baseCode issR.p issR.ins ≠ 0 := ⟨wf_of (by decide +kernel), by decide +kernel⟩

/-- Facet 0 holds this run. -/
def runs (s : State) (r : Run) : State := { s with facets := [(0, { run := some r, next := none, served := none, samples := [] })] }
def gang0 : Gang := { queue := 0, part := 0, wseq := 0, wd := claim.wd, size := 2, claimed := 2, ended := 0, fault := none }
def stop0 : Stop := { code := 7, member := 1, index := 0, detail := 0 }
theorem test_witness_fetch : ∃ (s : State) (r : Run), s.Wf ∧ s.live = true ∧ s.upset = false ∧ (s.facet 0).run = some r ∧ r.tableDue = false ∧
    r.stop = none ∧ r.posted = false ∧ r.fetchFail = 0 ∧ r.asked = 0 ∧ r.nextFetch.2 = 1 ∧ r.pc + r.buf.length + 1 = wLen r.cl.wd ∧
    r.nextFetch.1.rank = 0xFFF ∧ r.nextFetch.1.space = 0 ∧ s.gran = [] ∧
    s.spaceCheck r.cl.part r.nextFetch.1.space r.nextFetch.1.off 32 = 0 ∧ s.poisoned r.nextFetch.1.off 32 = false :=
  ⟨runs owned (runOf []), runOf [], wf_of (by decide +kernel), by decide +kernel⟩
theorem test_witness_fetched : ∀ n : Nat, n = 0 ∨ n = 3 → ∃ r : Run, (r.asked ≠ 0 ∨ r.nextFetch.2 = 0) ∧ r.tableDue = false ∧ r.fetchFail = 0 ∧
    r.asked = n := by
  intro n h
  refine ⟨{ runOf [] with asked := n, pc := 1 }, ?_⟩
  rcases h with rfl | rfl <;> decide +kernel
theorem test_witness_wait_limit : ∀ pool : Bool, ∃ (s : State) (r : Run), s.Wf ∧ s.live = true ∧ (s.facet 0).run = some r ∧ r.stop = none ∧
    r.waiting = some 0 ∧ r.poolSeq.isSome = pool ∧ s.waitHolds r = true ∧ s.prefetchWaits r = none ∧ s.get (.fctWaitLimit 0) 23 0 ≠ 0 ∧
    0 + s.get (.fctWaitLimit 0) 23 0 * 1000 ≤ s.limClock := by
  intro pool
  let r : Run := { runOf [] with buf := [BitVec.ofNat 256 (2 ^ 79 + 2 ^ 160)], waiting := some 0, poolSeq := if pool then some 0 else none }
  refine ⟨{ runs (owned.setVal (.fctWaitLimit 0) 1) r with limClock := 1000 }, r, wf_of ?_, ?_⟩ <;> cases pool <;> decide +kernel
/-- A PREFETCH whose promotion waits for units. -/
def fetching0 : InFlight :=
  { index := 0, ins := insOf 0x53 0 0 0 0 0 0 [], foot := [], fault := 0, todo := [], tiles := [0], ctx := none, post := [], lens := [],
    since := 0, detail := 0 }
theorem test_witness_prefetch_limit : ∃ (s : State) (r : Run), s.Wf ∧ s.live = true ∧ (s.facet 0).run = some r ∧ r.stop = none ∧
    s.prefetchWaits r = some (fetching0, 0) ∧ s.get (.fctWaitLimit 0) 23 0 ≠ 0 ∧ 0 + s.get (.fctWaitLimit 0) 23 0 * 1000 ≤ s.limClock :=
  ⟨{ runs (owned.setVal (.fctWaitLimit 0) 1) { runOf [] with mover := some fetching0 } with promos := [promoW], limClock := 1000 },
    { runOf [] with mover := some fetching0 }, wf_of (by decide +kernel), by decide +kernel⟩
theorem test_witness_abort : ∀ t, t = T0 ∨ t = [] → ∃ (s : State) (r : Run), s.Wf ∧ s.live = true ∧ (s.facet 0).run = some r ∧ r.stop = none ∧
    r.pc < wLen r.cl.wd ∧ (s.unit (uFacet 0)).st ≠ .draining ∧ s.gangAborted r = true ∧ s.boundaryStop 0 r = some eAborted ∧
    r.buf = [issW.ins] ∧ r.tableDue = false ∧ s.loading (issOf 0 .array r issW.ins) = false ∧ s.upset = false ∧
    ((s.check (planOf 0x10) (issOf 0 .array r issW.ins)).1 = 0 ↔ t ≠ []) := by
  intro t h
  refine ⟨{ runs owned { runOf t with buf := [issW.ins] } with gangs := [{ gang0 with fault := some stop0 }] },
    { runOf t with buf := [issW.ins] }, wf_of ?_, ?_⟩ <;> rcases h with rfl | rfl <;> decide +kernel
theorem test_witness_drained : ∀ fl : Bool, ∃ (s : State) (r : Run), s.Wf ∧ s.live = true ∧ (s.facet 0).run = some r ∧ r.stop = none ∧
    (s.unit (uFacet 0)).st = .draining ∧ (s.unit (uFacet 0)).failed = fl ∧ s.boundaryStop 0 r = some (if fl then eUnitOff else eDrained) := by
  intro fl
  refine ⟨{ runs owned (runOf []) with units := [(0, { unitIs .draining with failed := fl })] }, runOf [], wf_of ?_, ?_⟩ <;>
    cases fl <;> decide +kernel

/-- Queue 0 offers the descriptor at its head, of a gang of `n`. -/
def offersGang (n : Nat) : State := { memOf (queued false) [(0x10000, 64, (putFld claim.wd 190 186 n).toNat)] with ctr := [(3, 1)] }
/-- What a claim by facet 0 from queue 0 rests on. -/
def claimsB (s : State) : Bool :=
  !s.upset && s.canClaim 0 && s.facetPart 0 == some 0 &&
    nextAbove (s.facet 0).served (s.candidates.filter fun q => s.inMask 0 0 q && s.ownsQueue 0 q && s.offersTo 0 0 q) == some 0
theorem test_witness_claim : ∃ s : State, s.Wf ∧ claimsB s = true ∧ s.openGang 0 = none ∧ 1 ≤ wGang (s.ringEntry 0 (s.val (.qHead 0))) ∧
    wGang (s.ringEntry 0 (s.val (.qHead 0))) ≤ s.maskCount 0 0 ∧ s.wdCheck 0 (s.ringEntry 0 (s.val (.qHead 0))) = 0 ∧
    (s.facet 0).run = none := ⟨offersGang 1, wf_of (by decide +kernel), by decide +kernel⟩
theorem test_witness_claim_size : ∀ n, n = 0 ∨ n = 2 → ∃ s : State, s.Wf ∧ claimsB s = true ∧ s.openGang 0 = none ∧
    (wGang (s.ringEntry 0 (s.val (.qHead 0))) = 0 ∨ s.maskCount 0 0 < wGang (s.ringEntry 0 (s.val (.qHead 0)))) ∧ s.txDue = [] := by
  intro n h
  refine ⟨offersGang n, wf_of ?_, ?_⟩ <;> rcases h with rfl | rfl <;> decide +kernel
theorem test_witness_claim_place : ∃ (s : State) (g : Gang), s.Wf ∧ claimsB s = true ∧ s.openGang 0 = some g ∧ s.wdCheck 0 g.wd = 0 ∧
    (s.facet 0).run = none :=
  ⟨{ queued false with gangs := [{ gang0 with claimed := 1 }] }, { gang0 with claimed := 1 }, wf_of (by decide +kernel), by decide +kernel⟩
/-- A member that has ended, with a program fetched behind it or none; its ring in host memory, or in the stacks at 0x20000, still or moving. -/
def ended0 : Run := { runOf [] with pc := 1 }
def ends (host m : Bool) (next : Option Claimed) : State :=
  { queued host with facets := [(0, { run := some ended0, next := next, served := none, samples := [] })]
                     dir := if m then [(0x20000, some (entryOf .movingUp []))] else [] }
theorem test_witness_done : ∀ h m : Bool, ∀ n, n = none ∨ n = some claim → (ends h m n).Wf ∧ (ends h m n).live = true ∧ (ends h m n).upset = false ∧
    ((ends h m n).facet 0).run = some ended0 ∧ ended0.posted = false ∧ ended0.flights = [] ∧ (ends h m n).outstanding 0 = 0 ∧
    (ends h m n).fetching 0 = false ∧ ended0.stop = none ∧ wLen ended0.cl.wd ≤ ended0.pc ∧ ended0.cl.mute = false ∧ ended0.cl.queue < 4096 ∧
    ((ends h m n).queue ended0.cl.queue).waiting = [] ∧ (ends h m n).cqReachable ended0.cl.queue = true ∧
    (ends h m n).cqFull ended0.cl.queue = false ∧ ((ends h m n).facet 0).next = n ∧ ((ends h m n).ringAddr 0 true).space = (if h then 3 else 0) ∧
    ((ends h m n).ringAddr 0 true).off + ((ends h m n).val (.qCqTail 0)).toNat % (ends h m n).cqDepth 0 * 64 = 0x20000 ∧
    (ends h m n).moving ((ends h m n).tileOf 0x20000).1 = m := by
  intro h m n hn
  refine ⟨wf_of ?_, ?_⟩ <;> rcases hn with rfl | rfl <;> cases h <;> cases m <;> decide +kernel
theorem test_witness_done_lands : ∀ h m : Bool, (ends h m none).txClear ∧ (m = false → (ends h m none).writesNow srcQueue 0x20000 64) := by
  intro h m
  refine ⟨?_, fun e => ?_⟩
  · unfold State.txClear; cases h <;> cases m <;> decide +kernel
  · subst e; unfold State.writesNow; cases h <;> decide +kernel

theorem test_witness_complete : ∀ c, c = 0 ∨ c = 0x26 → ∃ (s : State) (r : Run) (i : InFlight), s.Wf ∧ s.live = true ∧
    (s.facet 0).run = some r ∧ r.flight .array = some i ∧ s.landed 0 .array i = true ∧ iOpcode i.ins ≠ 0x01 ∧ i.post = [] ∧ i.lens = [] ∧
    iSigMode i.ins = 1 ∧ s.putsToward 0 r i.index 0xFFF = false ∧ s.outstanding 0 < 64 ∧ i.fault = c ∧ r.stop = none := by
  intro c h
  refine ⟨runs owned { runOf [] with array := some (flight 0x10 c) }, { runOf [] with array := some (flight 0x10 c) }, flight 0x10 c,
    wf_of ?_, ?_⟩ <;> rcases h with rfl | rfl <;> decide +kernel
def fenced : State := runs owned { runOf [] with control := some (flight 0x01 0) }
theorem test_witness_fence : ∃ (r : Run) (i : InFlight), (fenced.facet 0).run = some r ∧ r.flight .control = some i ∧ iOpcode i.ins = 0x01 ∧
    exec (.instructionComplete 0 .control) fenced = .next (after (.instructionComplete 0 .control) fenced) ∧
    after (.instructionComplete 0 .control) fenced ≠ fenced :=
  ⟨_, _, rfl, rfl, by decide +kernel, by rfl, by decide +kernel⟩

/-- A MATMUL_KV that lacks its page, and a pool with `n` pages posted. -/
def lacks (n : Nat) : State :=
  (kvOf (facetRuns (owned.setVal (.memGran 0) 0x600) (insOf 0x12 0 1 2 0 3 0 []) T3)
    [(0xA008, 8, n), (0xA010, 4, 4), (0xA014, 1, 1), (0xA040, 8, 0x18000)]).ahead 0
def issK : Iss := issT .array (insOf 0x12 0 1 2 0 3 0 []) T3
def page0 : KvPage := { seq := 0, page := 0, head := 0, pte := 0x9000 }
theorem ok_of {α β : Type} {x : Except α β} (h : x.isOk = true) : ∃ y, x = .ok y := by
  cases x with
  | error e => cases h
  | ok y => exact ⟨y, rfl⟩
theorem test_witness_page : ∀ n, n = 0 ∨ n = 1 → (lacks n).Wf ∧ (lacks n).nextIns 0 .array = some issK ∧ iOpcode issK.ins = 0x12 ∧
    ((lacks n).check planMatmulKv issK).1 = 0 ∧ (lacks n).loading issK = false ∧
    (lacks n).footBusy (planMatmulKv (lacks n) issK).foot = false ∧
    issK.run.clear .array (planMatmulKv (lacks n) issK).foot = true ∧ (lacks n).gangAborted issK.run = false ∧
    (lacks n).waitOk issK.run issK.ins = true ∧ (planMatmulKv (lacks n) issK).late = 0 ∧
    ((lacks n).kvPages issK (issK.desc (iA issK.ins)) (issK.desc (iAux issK.ins))).find?
        (fun k => !(pteValid ((lacks n).pteLatest issK.p k.pte))) = some page0 ∧
    (poPosted ((lacks n).poolLatest 0 ((lacks n).seqEntry 0)) = poTake ((lacks n).poolLatest 0 ((lacks n).seqEntry 0)) ↔ n = 0) := by
  intro n h
  refine ⟨wf_of ?_, ?_⟩ <;> rcases h with rfl | rfl <;> decide +kernel
theorem test_witness_page_taken : (lacks 1).dir = [] ∧ (lacks 1).waitWrites = [] ∧ (lacks 1).upset = false ∧ (gaddr (sqPool ((lacks 1).seqEntry 0))).space = 0 ∧
    ((gaddr (sqPool ((lacks 1).seqEntry 0))).off + 8 ≤ pteAt ((lacks 1).seqEntry 0) 0 0 ∨
      pteAt ((lacks 1).seqEntry 0) 0 0 + 8 ≤ (gaddr (sqPool ((lacks 1).seqEntry 0))).off) ∧
    ∃ s', (lacks 1).takePage issK.src 0 ((lacks 1).seqEntry 0) 0 0 = .ok s' :=
  ⟨by decide +kernel, by decide +kernel, by decide +kernel, by decide +kernel, by decide +kernel, ok_of (by decide +kernel)⟩
def sample0 (e : Word) : Sample := { queue := 0, index := 0, tile := 0, threshExp := 8, reference := [0x3F800000], written := [e] }
theorem test_witness_sample : ∀ e, e = 0x3F800000 ∨ e = 0x40000000 ∨ e = 0x7FC00000 → ∃ s : State, s.Wf ∧ s.live = true ∧
    (s.facet 0).samples = [sample0 e] ∧ (fIsNaN (sampleE (sample0 e)) = decide (e = 0x7FC00000)) ∧
    (flt (s.val (.fctChkMaxerr 0)) (sampleE (sample0 e)) = decide (e = 0x40000000)) := by
  intro e h
  refine ⟨{ owned with facets := [(0, { run := none, next := none, served := none, samples := [sample0 e] })] }, wf_of ?_, ?_⟩ <;>
    rcases h with rfl | rfl | rfl <;> decide +kernel
theorem test_witness_unit_fails : ∃ (s : State) (r : Run), s.Wf ∧ s.mayFail 0 .controlState = true ∧ s.boot.apexRun = true ∧
    (s.unit 0).st ≠ .off ∧ (s.facet 0).run = some r ∧ r.stop = none :=
  ⟨runs owned (runOf []), runOf [], wf_of (by decide +kernel), by decide +kernel⟩

/-! Facet arithmetic: an instruction of each kind issues where nothing keeps its writes from landing, and its outputs share no bit. -/

/-- An instruction issues on a facet, and more holds of it. -/
def issuesB (f op : Nat) (un : FUnit) (s : State) (plan : State → Iss → Plan) (ok : Iss → Bool) : Bool :=
  match (s.ahead f).nextIns f un with
  | none => false
  | some i =>
    (s.memsWf && s.tablesWf) && issuableB (s.ahead f) op un (plan (s.ahead f) i) i && readyB (s.ahead f) (plan (s.ahead f) i) i &&
      (decide ((s.ahead f).dir = []) && decide ((s.ahead f).waitWrites = []) && decide ((s.ahead f).poison = [])) &&
      decide ((plan (s.ahead f) i).near = []) && ok i
theorem issues_of {f op : Nat} {un : FUnit} {s : State} {plan : State → Iss → Plan} {ok : Iss → Bool}
    (h : issuesB f op un s plan ok = true) : ∃ i, Issues f op un s (s.ahead f) i (plan (s.ahead f) i) ∧ ok i = true := by
  unfold issuesB at h
  split at h
  · cases h
  · rename_i i hi
    simp only [issuableB, readyB, Bool.and_eq_true, Bool.not_eq_true', decide_eq_true_eq] at h
    obtain ⟨⟨⟨⟨⟨hw, ⟨⟨⟨⟨⟨⟨⟨⟨h1, h2⟩, h3⟩, h4⟩, h5⟩, h6⟩, h7⟩, h8⟩, h9⟩⟩, hr⟩, hs⟩, hf⟩, ho⟩ := h
    exact ⟨i, ⟨⟨hw.1, hw.2⟩, rfl, ⟨hi, h1, h2, h3, h4, h5, h6, h7, h8, h9⟩, ⟨hr.1.1.1, hr.1.1.2, hr.1.2, hr.2⟩, ⟨hs.1.1, hs.1.2, hs.2⟩, hf⟩, ho⟩
/-- View.apart and View.scalesApart, decided. -/
def apartB (v : View) (els : List Idx) : Bool :=
  els.all fun x => els.all fun y => x == y || decide (elemBit v (v.abs x) + v.fmt.width ≤ elemBit v (v.abs y)) ||
    decide (elemBit v (v.abs y) + v.fmt.width ≤ elemBit v (v.abs x))
theorem apart_of {v : View} {els : List Idx} (h : apartB v els = true) : v.apart els := by
  intro x hx y hy hn
  have := List.all_eq_true.mp (List.all_eq_true.mp h x hx) y hy
  simpa [hn, or_assoc] using this
def scalesApartB (v : View) (els : List Idx) : Bool :=
  (els.all fun x => els.all fun y => blockIdx v.d x == blockIdx v.d y || decide (scaleByte v (v.abs x) ≠ scaleByte v (v.abs y))) &&
    decide (v.sbase.space = v.base.space) && els.all fun x => els.all fun y =>
      decide (v.sbase.off + scaleByte v (v.abs x) < v.base.off + elemBit v (v.abs y) / 8) ||
        decide (v.base.off + cdiv (elemBit v (v.abs y) + v.fmt.width) 8 ≤ v.sbase.off + scaleByte v (v.abs x))
theorem scalesApart_of {v : View} {els : List Idx} (h : scalesApartB v els = true) : v.scalesApart els := by
  simp only [scalesApartB, Bool.and_eq_true, List.all_eq_true, Bool.or_eq_true, decide_eq_true_eq, beq_iff_eq] at h
  exact ⟨fun x hx y hy hn => (h.1.1 x hx y hy).resolve_left hn, h.1.2, fun x hx y hy => h.2 x hx y hy⟩

def outV (i : Iss) : View := i.view (iOut i.ins) 0
def aV (i : Iss) : View := i.view (iA i.ins) 0

/-- A reduction of 70 elements of 1 in passes of 64, without corrections, with or without a low-rank part. -/
def redOnes (rank : Nat) : Red :=
  { k := 70, kp := 2 ^ 6, a := fun _ => .num false 1 0, sa := fun _ => 127, b := fun _ => .num false 1 0, sb := fun _ => 127, fa := none,
    fb := none, slot := fun _ => none, listed := fun _ => none, ax := fun _ => 0, an := fun _ => false, bx := fun _ => 0,
    bw := fun _ => (0, false), start := (fZero, ev0), rank := rank, refRank := 0, low := fun _ => (.num false 1 0, .num false 1 0),
    lowRef := fun _ _ => 0, rcRef := fun _ => 0, refB := false, yEv := ev0 }
/-- By hand: 70, and 32 more by the low-rank part. -/
theorem test_reduction : ((redOnes 0).run 0 2 (fZero, ev0)).1 = 0x428C0000 ∧ ((redOnes 32).run 0 2 (fZero, ev0)).1 = 0x42CC0000 := by
  decide +kernel
theorem test_witness_matmul : ∃ s i, Issues 0 0x10 .array s (s.ahead 0) i (planMm false (s.ahead 0) i) ∧
    (iRef i.ins == false && iXacc i.ins == false && i.kpOf (iA i.ins) (iB i.ins) == 2 ^ 6 && dCap (aV i).d == 0 &&
      !outClash (outV i) [(aV i), i.view (iB i.ins) (2 ^ 6)] && apartB (outV i) (i.mine (outV i))) = true :=
  ⟨facetRuns owned (insOf 0x10 4 2 3 0 0 0 []) T0, issues_of (by decide +kernel)⟩
/-- QUANT to BF16, and to an MX format. -/
def TQ : SMap (BitVec 512) := [(1, f32d 0x4000 32 1), (2, bf16d 0x8000 32 1), (3, tensor 0x8000 0x10 0 2 32 1 1 1 0 [(127, 64, own 0xC000)])]
theorem test_witness_quant : ∃ s i, Issues 0 0x25 .vector s (s.ahead 0) i (planQuant (s.ahead 0) i) ∧
    (!i.vecClash (outV i) [(aV i)] && apartB (outV i) (i.mine (outV i)) && (outV i).fmt == .plain .bf16) = true :=
  ⟨facetRuns owned (insOf 0x25 2 1 0 0 0 0 []) TQ, issues_of (by decide +kernel)⟩
theorem test_witness_quant_blocks : ∃ s i, Issues 0 0x25 .vector s (s.ahead 0) i (planQuant (s.ahead 0) i) ∧
    (!i.vecClash (outV i) [(aV i)] && (outV i).fmt.isMx && dCap (outV i).d == 0 && apartB (outV i) (allIdx (outV i).dims) &&
      scalesApartB (outV i) (allIdx (outV i).dims) &&
      (allIdx (blockGrid (outV i).d)).all fun b => (blockElems (outV i).d b).all fun x => i.share (outV i).dims x) = true :=
  ⟨facetRuns owned (insOf 0x25 3 1 0 0 0 0 []) TQ, issues_of (by decide +kernel)⟩
/-- A block of finite values, one that rounds to zero, one with an infinity. -/
theorem test_witness_block : ([(0x3F800000 : Word), 0x40400000].all fun w => !fIsNaN w && !fIsInf w) = true ∧
    (quantBlock .e4m3 [0x3F800000, 0x40400000] [.rne, .rne]).2.2 = (false, false) ∧
    (quantBlock .e4m3 [0, 0] [.rne, .rne]).2.2 = (true, false) ∧ fIsInf 0x7F800000 = true := by decide +kernel
/-- VEW: multiply and add, in place or not. -/
theorem test_witness_vew : ∀ out, out = 5 ∨ out = 1 → ∃ s i, Issues 0 0x20 .vector s (s.ahead 0) i (planVew (s.ahead 0) i) ∧
    (!i.vecClash (outV i) ([(aV i)] ++ (if (vewUses (iMod i.ins)).1 then [i.view (iB i.ins) 0] else []) ++
        (if (vewUses (iMod i.ins)).2.1 then [i.view (iC i.ins) 0] else [])) && apartB (outV i) (i.mine (outV i)) &&
      iOut i.ins == out) = true := by
  intro out h
  refine ⟨facetRuns owned (insOf 0x20 out 1 1 1 0 8 []) T0, issues_of ?_⟩
  rcases h with rfl | rfl <;> decide +kernel
/-- Statistics of two rows of 20, and of the two groups of one row. -/
def TR : SMap (BitVec 512) :=
  [(1, f32d 0x4000 20 2), (2, f32d 0x7000 3 2), (3, f32d 0x7000 2 2), (5, f32d 0x8000 2 2), (6, f32d 0x9000 20 2), (7, f32d 0x10000 20 2)]
theorem test_witness_vrowstat : ∀ k : Bool, ∃ s i, Issues 0 0x21 .vector s (s.ahead 0) i (planVrowstat (s.ahead 0) i) ∧
    (!viewsMeet (outV i).rows (aV i).rows && (bits (iMod i.ins) 4 3 == 1) == k && apartB (outV i) (allIdx (outV i).dims)) = true := by
  intro k
  refine ⟨facetRuns owned (insOf 0x21 (if k then 3 else 2) 1 0 0 0 (if k then 3 + 8 + 256 else 7) []) TR, issues_of ?_⟩
  cases k <;> decide +kernel
theorem test_witness_norm : ∀ m, m = 0 ∨ m = 1 → ∃ s i, Issues 0 0x22 .vector s (s.ahead 0) i (planNorm (s.ahead 0) i) ∧
    (!i.vecClash (outV i) [(aV i), i.view (iB i.ins) 0, i.view (iC i.ins) 0] && iMod i.ins % 4 == m &&
      apartB (outV i) (i.mine (outV i))) = true := by
  intro m h
  refine ⟨facetRuns owned (insOf 0x22 7 1 5 6 0 m []) TR, issues_of ?_⟩
  rcases h with rfl | rfl <;> decide +kernel
theorem test_witness_vfunc : ∀ m, m = 0 ∨ m = 256 → ∃ s i, Issues 0 0x23 .vector s (s.ahead 0) i (planVfunc (s.ahead 0) i) ∧
    (!i.vecClash (outV i) [(aV i)] && iMod i.ins == m && apartB (outV i) (i.mine (outV i))) = true := by
  intro m h
  refine ⟨facetRuns owned (insOf 0x23 7 1 0 0 0 m []) TR, issues_of ?_⟩
  rcases h with rfl | rfl <;> decide +kernel
theorem test_witness_softmax : ∀ m, m = 0 ∨ m = 1 → ∃ s i, Issues 0 0x24 .vector s (s.ahead 0) i (planSoftmax (s.ahead 0) i) ∧
    (!i.vecClash (outV i) [(aV i)] && iMod i.ins == m && apartB (outV i) (i.mine (outV i))) = true := by
  intro m h
  refine ⟨facetRuns owned (insOf 0x24 7 1 0 0 0 m []) TR, issues_of ?_⟩
  rcases h with rfl | rfl <;> decide +kernel
theorem test_witness_pool : ∃ s i, Issues 0 0x26 .vector s (s.ahead 0) i (planPool (s.ahead 0) i) ∧
    (!i.vecClash (outV i) [(aV i)] && apartB (outV i) (i.mine (outV i))) = true :=
  ⟨facetRuns owned (insOf 0x26 5 1 0 0 4 0 []) T1, issues_of (by decide +kernel)⟩
theorem test_witness_upsample : ∃ s i, Issues 0 0x27 .vector s (s.ahead 0) i (planUpsample (s.ahead 0) i) ∧
    (!i.vecClash (outV i) [(aV i)] && apartB (outV i) (i.mine (outV i))) = true :=
  ⟨facetRuns owned (insOf 0x27 5 1 0 0 0 0 []) T1, issues_of (by decide +kernel)⟩
/-- Copies within the stacks, of FP32 and of an MX format, and to host memory. -/
def TC : SMap (BitVec 512) :=
  [(1, f32d 0x4000 8 2), (2, f32d 0x8000 8 2), (3, putFld (f32d 0x8000 8 2) 51 48 3), (5, tensor 0x4000 0x10 0 2 32 1 1 1 0 [(127, 64, own 0xC000)]),
   (6, tensor 0x8000 0x10 0 2 32 1 1 1 0 [(127, 64, own 0xD000)]), (7, tensor 0x8000 0x20 0 2 16 2 1 1 0 [])]
def copyB (get : Bool) (s : State) (i : Iss) : Bool :=
  let a := i.moverView (iA i.ins)
  let out := i.moverView (iOut i.ins)
  s.gran == [] && s.txDue == [] && decide (s.outstanding 0 < 64) && (gaddr (dAddr out.d)).rank == 0xFFF && (gaddr (dAddr a.d)).rank == 0xFFF &&
    ((out.base.space == 0) || (out.base.space == 3 && s.hostOn i.p && !i.run.cl.mute)) && [0, 3].contains a.base.space &&
    decide (out.fmt ≠ .t5) && dCap out.d == 0 && apartB out (i.mine out) && !viewsMeet out.pieces a.pieces &&
    (planCopy get s i).todo.all (fun j => s.localCode i.p i.p j == 0) && (!out.fmt.isMx || scalesApartB out (i.mine out))
theorem test_witness_copy : ∀ get : Bool, ∀ o, o = 2 ∨ o = 3 ∨ o = 6 → ∃ s i, (if get = true then
      Issues 0 0x51 .mover s (s.ahead 0) i (planCopy true (s.ahead 0) i) else Issues 0 0x50 .mover s (s.ahead 0) i (planCopy false (s.ahead 0) i)) ∧
    (copyB get (s.ahead 0) i && iOut i.ins == o) = true := by
  intro get o h
  cases get
  · refine ⟨facetRuns owned (insOf 0x50 o (if o = 6 then 5 else 1) 0 0 0 0 []) TC, ?_⟩
    simp only [Bool.false_eq_true, if_false]
    refine issues_of (plan := planCopy false) (ok := fun i => copyB false (State.ahead _ 0) i && iOut i.ins == o) ?_
    rcases h with rfl | rfl | rfl <;> decide +kernel
  · refine ⟨facetRuns owned (insOf 0x51 o (if o = 6 then 5 else 1) 0 0 0 0 []) TC, ?_⟩
    simp only [if_true]
    refine issues_of (plan := planCopy true) (ok := fun i => copyB true (State.ahead _ 0) i && iOut i.ins == o) ?_
    rcases h with rfl | rfl | rfl <;> decide +kernel
theorem test_witness_add : ∀ w, w = 4 ∨ w = 8 → ∃ s i, Issues 0 0x52 .mover s (s.ahead 0) i (planAtomic (s.ahead 0) i) ∧
    (iMod i.ins == (if w = 4 then 0x10 else 0x11) && (outV i).base.space == 0 && apartB (outV i) (allIdx (outV i).dims) &&
      (planAtomic (s.ahead 0) i).todo.all fun j => (s.ahead 0).localCode i.p i.p j == 0) = true := by
  intro w h
  refine ⟨facetRuns owned (insOf 0x52 7 0 0 0 0 (if w = 4 then 0x10 else 0x11) [(159, 128, 7)]) TC,
    issues_of (plan := planAtomic) (ok := fun i => iMod i.ins == (if w = 4 then 0x10 else 0x11) && (outV i).base.space == 0 &&
      apartB (outV i) (allIdx (outV i).dims) && (planAtomic (State.ahead _ 0) i).todo.all fun j => (State.ahead _ 0).localCode i.p i.p j == 0) ?_⟩
  rcases h with rfl | rfl <;> decide +kernel

/-! Chord contexts. -/

/-- A schedule of n members in a mode, of two members. -/
def schN (n mode : Nat) : BitVec 512 := sch1 [(383, 372, n - 1), (335, 332, mode), (63, 0, own 0x9000), (255, 192, own 0xC000)]
def sch2 (mode : Nat) : BitVec 512 := schN 2 mode
/-- A context of one gang member. -/
def ctxOf (op mode : Nat) : Ctx :=
  { op := op, sch := sch2 mode, par := attn [], keys := 0, base := 0, wseq := 0, queue := 0, size := 1,
    members := [{ facet := 0, unit := .array, ins := insOf op 5 2 3 0 4 0 [], index := 0, run := runOf T2 }], opened := true, own := 0, step := 0,
    sends := [], sent := 0, pieces := 0, phase := 0, rows := [], since := 0, fail := 0, aborting := false }
def leadOf (op : Nat) : Iss := issOf 0 .array (runOf T2) (insOf op 5 2 3 0 4 0 [])
/-- Engine 0 holds a context of partition 0, with these counters. -/
def chord (c : Ctx) (l : SMap Word) : State := { owned with ctxs := [(0, some c)], ctr := l }

theorem test_witness_open : ∀ n f, (n = 1 ∨ n = 2) → (f = 0 ∨ f = 0x11) → ∃ (s : State) (c : Ctx), s.Wf ∧ s.live = true ∧ s.ctx 0 0 = some c ∧
    c.lead = some (leadOf 0x41) ∧ c.opened = false ∧ c.size = n ∧ c.members.length = 1 ∧ c.fail = f := by
  intro n f hn hf
  refine ⟨chord { ctxOf 0x41 0 with size := n, fail := f, opened := false } [], { ctxOf 0x41 0 with size := n, fail := f, opened := false },
    wf_of ?_, ?_⟩ <;> rcases hn with rfl | rfl <;> rcases hf with rfl | rfl <;> decide +kernel
/-- A gather of n members with one piece landed; the piece comes from the next member where n = 2, from another where n = 3. -/
def gathers (n : Nat) (poi : List Nat) : State :=
  { chord { ctxOf 0x40 0 with sch := schN n 0 } [(9, 1)] with poison := poi }
theorem test_witness_piece : ∀ n, n = 2 ∨ n = 3 → ∀ p, p = [] ∨ p = [256] → ∃ c : Ctx, (gathers n p).Wf ∧ (gathers n p).live = true ∧
    (gathers n p).ctx 0 0 = some c ∧ c.lead = some (leadOf 0x40) ∧ c.op = 0x40 ∧ c.opened = true ∧ c.fail = 0 ∧
    c.pieces < c.gatherTotal (dDim ((leadOf 0x40).desc (iA (leadOf 0x40).ins)) 1) ∧ c.pieces < (gathers n p).landings c ∧
    dDim ((leadOf 0x40).desc (iA (leadOf 0x40).ins)) 1 = 1 ∧ schRows c.sch = 1 ∧ schMode c.sch = 0 ∧
    ((c.own + 2 * schP c.sch - 1 - c.pieces) % schP c.sch = nextIx c.sch c.own ↔ n = 2) ∧
    (n = 2 → (gathers n p).recvPoisoned (recvView ((leadOf 0x40).view (iA (leadOf 0x40).ins) 0) c.sch) [1] = decide (p = [256])) := by
  intro n hn p hp
  refine ⟨{ ctxOf 0x40 0 with sch := schN n 0 }, wf_of ?_, ?_⟩ <;> rcases hn with rfl | rfl <;> rcases hp with rfl | rfl <;> decide +kernel
/-- One member's elements share no bit. -/
theorem membersApart_one {m : Iss} {mine : Iss → Idx → Bool} (h : (allIdx (outV m).dims).all (fun x => (allIdx (outV m).dims).all fun y =>
      !mine m x || !mine m y || x == y || decide ((outV m).base.off * 8 + elemBit (outV m) ((outV m).abs x) + (outV m).fmt.width ≤
        (outV m).base.off * 8 + elemBit (outV m) ((outV m).abs y)) || decide ((outV m).base.off * 8 + elemBit (outV m) ((outV m).abs y) +
        (outV m).fmt.width ≤ (outV m).base.off * 8 + elemBit (outV m) ((outV m).abs x))) = true) : membersApart [m] mine := by
  intro a ha b hb v w hv hw x hx y hy hax hby
  simp only [List.mem_singleton] at ha hb
  subst ha hb hv hw
  have := List.all_eq_true.mp (List.all_eq_true.mp h x hx) y hy
  simp only [hax, hby, Bool.not_true, Bool.false_or, Bool.or_eq_true, beq_iff_eq, decide_eq_true_eq] at this
  rcases this with (e | e) | e
  · exact .inl ⟨rfl, e⟩
  · exact .inr (.inl e)
  · exact .inr (.inr e)
/-- A scatter at its reduction, of two members, the second of which owns the one row; reduce-scatter or all-reduce. -/
def scatC (m : Nat) : Ctx :=
  { ctxOf 0x41 m with own := 1, members := [{ facet := 0, unit := .array, ins := insOf 0x41 1 2 3 0 4 0 [], index := 0, run := runOf T2 }] }
def scatI : Iss := issOf 0 .array (runOf T2) (insOf 0x41 1 2 3 0 4 0 [])
def scatters (m : Nat) (poi : List Nat) : State := { chord (scatC m) [(9, 1)] with poison := poi }
def ownsRow (m : Nat) (i : Iss) (_ : Idx) : Bool := (((scatC m).rowMember 1 0).map fun y => y.f) == some i.f
theorem test_witness_reduce : ∀ m, m = 0 ∨ m = 1 → ∀ p, p = [] ∨ p = [256] → (scatters m p).Wf ∧ (scatters m p).live = true ∧
    (scatters m p).ctx 0 0 = some (scatC m) ∧ (scatC m).lead = some scatI ∧ (scatC m).op = 0x41 ∧ (scatC m).opened = true ∧ (scatC m).fail = 0 ∧
    (scatC m).phase = 0 ∧ schP (scatC m).sch - 1 ≤ (scatters m p).landings (scatC m) ∧ (scatters m p).writesLeft (srcChord 0 0) = false ∧
    schMode (scatC m).sch = m ∧ dDim (scatI.desc (iA scatI.ins)) 1 = 1 ∧ dDim (scatI.desc (iB scatI.ins)) 0 = 1 ∧
    (scatC m).own * 1 / schP (scatC m).sch = 0 ∧ ((scatC m).own + 1) * 1 / schP (scatC m).sch = 1 ∧
    (scatters m p).partPoisoned (gaddr (schRecv (scatC m).sch)) (0, 2 * 64) = decide (p = [256]) := by
  intro m hm p hp
  refine ⟨wf_of ?_, ?_⟩ <;> rcases hm with rfl | rfl <;> rcases hp with rfl | rfl <;> decide +kernel
/-- Of its outputs, this one is owned, with a rounded and an exact sum. -/
theorem test_witness_reduce_output : ∀ m, m = 0 ∨ m = 1 → (scatters m []).dir = [] ∧ (scatters m []).waitWrites = [] ∧ (scatC m).issues = [scatI] ∧
    membersApart [scatI] (ownsRow m) ∧ (outV scatI).fmt = .plain .fp32 ∧ dScaleMode (outV scatI).d = 0 ∧ (outV scatI).base.space ≠ 3 ∧
    outClash (outV scatI) [(aV scatI), scatI.view (iB scatI.ins) (scatI.kpOf (iA scatI.ins) (iB scatI.ins))] = false ∧
    [0, 0, 0, 0, 0] ∈ allIdx (outV scatI).dims ∧ ownsRow m scatI [0, 0, 0, 0, 0] = true ∧ schP (scatC m).sch ≤ 2 ^ 1 ∧
    schExact (scatC m).sch = false ∧
    ∀ vals : Nat → Word, treeOf joinSome 1 (fun g => if g < 2 then some (vals g) else none) = some (fadd (vals 0) (vals 1)) := by
  intro m h
  refine ⟨rfl, rfl, ?_, membersApart_one ?_, ?_, ?_, ?_, ?_, ?_, ?_, ?_, ?_, fun _ => rfl⟩ <;> rcases h with rfl | rfl <;> decide +kernel
/-- An exchange of two members: its counts have landed, or its offsets; n rows come from the other. -/
def exchC (ph : Nat) : Ctx := { ctxOf 0x43 0 with phase := ph }
def exchanges (ph n : Nat) (poi : List Nat) : State :=
  { memOf (chord (exchC ph) [(8, 2), (9, 1)]) [(0x10008, 4, n), (0x9000, 8, 1)] with poison := poi }
theorem test_witness_counts : ∀ n, n = 0 ∨ n = 5 → ∀ p, p = [] ∨ p = [256] → (exchanges 0 n p).Wf ∧ (exchanges 0 n p).live = true ∧
    (exchanges 0 n p).ctx 0 0 = some (exchC 0) ∧ (exchC 0).lead = some (leadOf 0x43) ∧ (exchC 0).op = 0x43 ∧ (exchC 0).opened = true ∧
    (exchC 0).fail = 0 ∧ (exchC 0).phase = 0 ∧ schP (exchC 0).sch - 1 ≤ (exchanges 0 n p).landings (exchC 0) ∧
    (exchanges 0 n p).partPoisoned (gaddr (schRecv (exchC 0).sch)) (0, 8 * 2) = decide (p = [256]) ∧
    (sumTo ((exchanges 0 n p).recvCounts 0 (exchC 0)) 2 ≤ dDim ((leadOf 0x43).desc (iOut (leadOf 0x43).ins)) 1 ↔ n = 0) := by
  intro n hn p hp
  refine ⟨wf_of ?_, ?_⟩ <;> rcases hn with rfl | rfl <;> rcases hp with rfl | rfl <;> decide +kernel
theorem test_witness_segments : ∀ p, p = [] ∨ p = [256] → (exchanges 1 0 p).Wf ∧ (exchanges 1 0 p).live = true ∧
    (exchanges 1 0 p).ctx 0 0 = some (exchC 1) ∧ (exchC 1).lead = some (leadOf 0x43) ∧ (exchC 1).phase = 1 ∧
    2 * (schP (exchC 1).sch - 1) ≤ (exchanges 1 0 p).credits (exchC 1) ∧
    (exchanges 1 0 p).partPoisoned (gaddr (schRecv (exchC 1).sch)) (8 * 2, 8 * 2) = decide (p = [256]) ∧
    (exchanges 1 0 p).dir = [] ∧ (exchanges 1 0 p).waitWrites = [] ∧ (aV (leadOf 0x43)).fmt.isMx = false ∧ (outV (leadOf 0x43)).fmt.isMx = false ∧
    (aV (leadOf 0x43)).base.space ≠ 3 ∧ (outV (leadOf 0x43)).base.space ≠ 3 ∧ (exchC 1).own < 2 ∧
    (exchanges 1 0 p).sendCount 0 (exchC 1).sch (exchC 1).own = 1 ∧ rowElems (aV (leadOf 0x43)) [0, 0, 0, 0, 0] = (0, 64) := by
  intro p hp
  refine ⟨wf_of ?_, ?_⟩ <;> rcases hp with rfl | rfl <;> decide +kernel
theorem test_witness_rows_apart : ∀ r r', r < r' →
    (rowElems (outV (leadOf 0x43)) [0, r, 0, 0, 0]).1 + (rowElems (aV (leadOf 0x43)) [0, 0, 0, 0, 0]).2 ≤ (rowElems (outV (leadOf 0x43)) [0, r', 0, 0, 0]).1 := by
  have e : (rowElems (aV (leadOf 0x43)) [0, 0, 0, 0, 0]).2 = 64 := by decide +kernel
  have o : ∀ r, (rowElems (outV (leadOf 0x43)) [0, r, 0, 0, 0]).1 = 64 * r := by
    intro r
    have l : dLayout (outV (leadOf 0x43)).d = 0 := by decide +kernel
    have f : (outV (leadOf 0x43)).fmt ≠ .t5 := by decide +kernel
    have a : (outV (leadOf 0x43)).top = 1 := by decide +kernel
    have b : (outV (leadOf 0x43)).start = 0 := by decide +kernel
    have c : dStride (outV (leadOf 0x43)).d 1 = 64 := by decide +kernel
    simp only [rowElems, elemBit, l, f, if_false, View.abs, a, b, ixSet, ix, List.set, List.getD, Nat.add_zero, c]
    simp; omega
  intro r r' h
  rw [e, o, o]; omega
/-- A ring of n members at a step; its page is poisoned, or a pre-emption asked. -/
def ringC (n step : Nat) : Ctx :=
  { ctxOf 0x42 0 with
    sch := schN n 0, par := attn [(298, 288, 1)], keys := 1, step := step
    members := [{ facet := 0, unit := .array, ins := insOf 0x42 6 5 4 0 7 0 [], index := 0, run := runOf T3 }] }
def ringI : Iss := issOf 0 .array (runOf T3) (insOf 0x42 6 5 4 0 7 0 [])
def rings0 (n step : Nat) (poi : List Nat) (pre : Bool) : State :=
  { (kvOf (chord (ringC n step) [(9, BitVec.ofNat 32 (step + 1))]) [(0x9000, 8, 2 ^ 63 + 0x12000)]).setVal (.chdPreemptReq 0)
      (if pre then 1 else 0) with poison := poi }
theorem test_witness_ring_step : ∀ n k, n = 2 ∧ k = 0 ∨ n = 2 ∧ k = 1 ∨ n = 3 ∧ k = 0 → ∀ p, p = [] ∨ p = [0x120] → ∀ pre : Bool,
    (rings0 n k p pre).Wf ∧ (rings0 n k p pre).live = true ∧ (rings0 n k p pre).ctx 0 0 = some (ringC n k) ∧ (ringC n k).lead = some ringI ∧
    (ringC n k).op = 0x42 ∧ (ringC n k).opened = true ∧ (ringC n k).fail = 0 ∧ (ringC n k).phase = 0 ∧ (ringC n k).sends = [] ∧
    (rings0 n k p pre).chdBusy 0 0 = false ∧ (ringC n k).landLeft (rings0 n k p pre) = false ∧
    (k = 0 → (rings0 n k p pre).stepPoisoned 0 (ringC n k) = decide (p = [0x120])) ∧
    (rings0 n k p pre).preemptAsked 0 0 (ringC n k) = pre ∧ (ringSteps (ringC n k).sch ≤ k + 1 ↔ k = 1) ∧ (k + 3 ≤ schP (ringC n k).sch ↔ n = 3) := by
  intro n k h p hp pre
  refine ⟨wf_of ?_, ?_⟩ <;> rcases h with ⟨rfl, rfl⟩ | ⟨rfl, rfl⟩ | ⟨rfl, rfl⟩ <;> rcases hp with rfl | rfl <;> cases pre <;> decide +kernel
/-- The one row of the member, and its output after the last step. -/
theorem test_witness_ring_output : (rings0 2 1 [] false).dir = [] ∧ (rings0 2 1 [] false).waitWrites = [] ∧ (ringC 2 1).issues = [ringI] ∧
    (rings0 2 1 [] false).ringMine (ringC 2 1) ringI = [(0, 0)] ∧ (rings0 2 1 [] false).stepPoisoned 0 (ringC 2 1) = false ∧
    aLse (ringC 2 1).par = 0 ∧
    membersApart [ringI] (fun m y => ((rings0 2 1 [] false).ringMine (ringC 2 1) m).contains (ix y 2, ix y 1) && ix y 3 == 0 && ix y 4 == 0) ∧
    (outV ringI).fmt = .plain .fp32 ∧ dScaleMode (outV ringI).d = 0 ∧ (outV ringI).base.space ≠ 3 ∧ outClash (outV ringI) [(aV ringI)] = false ∧
    [0, 0, 0, 0, 0] ∈ allIdx (outV ringI).dims ∧ (gaddr (schState (ringC 2 1).sch)).space ≠ 3 := by
  refine ⟨rfl, rfl, ?_, ?_, ?_, ?_, membersApart_one ?_, ?_⟩ <;> decide +kernel
/-- Rows are as long as a value vector. -/
theorem test_witness_ring_rows : ∀ n, ((ringC 2 0).rowOf n).o.length = aDv (ringC 2 0).par := by
  intro n
  have e : (ringC 2 0).rows = [] := rfl
  unfold Ctx.rowOf
  rw [e]
  generalize aDv (ringC 2 0).par = d
  simp [tget, row0]
/-- What RING_STALL finds: a ring's step, a wait for landings, a wait for the first transfer's credits, each as long as its limit. -/
def stalls (c : Ctx) : State := { (chord c []).setVal (.chdWatchdog 0 0) 1 with limClock := 1000 }
theorem test_witness_stall : ∀ op, op = 0x40 ∨ op = 0x42 → ∃ (s : State) (c : Ctx), s.Wf ∧ s.live = true ∧ s.ctx 0 0 = some c ∧
    c.opened = true ∧ c.fail = 0 ∧ s.get (.chdWatchdog 0 0) 23 0 ≠ 0 ∧ c.op = op ∧ (op = 0x40 → s.landWait c = true) ∧
    c.since + s.get (.chdWatchdog 0 0) 23 0 * 1000 ≤ s.limClock := by
  intro op h
  refine ⟨stalls (ctxOf op 0), ctxOf op 0, wf_of ?_, ?_⟩ <;> rcases h with rfl | rfl <;> decide +kernel
def send0 : ChdSend := { dest := 1, cred := 1, jobs := [], sig := some 1 }
theorem test_witness_stall_credit : ∃ (s : State) (c : Ctx), s.Wf ∧ s.live = true ∧ s.ctx 0 0 = some c ∧ c.opened = true ∧ c.fail = 0 ∧
    c.op ≠ 0x42 ∧ c.credAt = some 0 ∧ c.sends = [send0] ∧ s.credits c < send0.cred ∧
    0 + s.get (.chdWatchdog 0 0) 23 0 * 1000 ≤ s.limClock :=
  ⟨stalls { ctxOf 0x40 0 with credAt := some 0, sends := [send0] }, { ctxOf 0x40 0 with credAt := some 0, sends := [send0] },
    wf_of (by decide +kernel), by decide +kernel⟩
theorem test_witness_stop : ∃ (s : State) (c : Ctx), s.Wf ∧ s.live = true ∧ s.ctx 0 0 = some c ∧ c.opened = true ∧ c.fail = 0 ∧
    s.gangOf c.queue c.wseq = none ∧ s.stops c ≠ 0 := ⟨chord (ctxOf 0x42 0) [(10, 1)], ctxOf 0x42 0, wf_of (by decide +kernel), by decide +kernel⟩
theorem test_witness_gang_fault : ∃ (s : State) (c : Ctx) (g : Gang), s.Wf ∧ s.live = true ∧ s.ctx 0 0 = some c ∧ c.fail = 0 ∧
    s.gangOf c.queue c.wseq = some g ∧ g.fault ≠ none :=
  ⟨{ chord (ctxOf 0x42 0) [] with gangs := [{ gang0 with fault := some stop0 }] }, ctxOf 0x42 0, { gang0 with fault := some stop0 },
    wf_of (by decide +kernel), by decide +kernel⟩
theorem test_witness_preempt : Taken owned 0 (.chdPreemptReq 0) 1 := taken_of (by decide +kernel)

/-! Thin-channel and codec engines. -/

/-- A job record: version 1, SIG_CTR 3. -/
def jobOf (l : List (Nat × Nat × Nat)) : BitVec 512 := bitsOf 512 ([(461, 448, 3), (483, 480, 1)] ++ l)
/-- A thin-channel job of one frame of 2 × 2, of an operation, with its channels and formats. -/
def thinRec (op cin cout fi fo : Nat) : BitVec 512 :=
  jobOf [(63, 0, own 0x40000), (127, 64, own 0x50000), (191, 128, own 0x60000), (255, 192, if op = 2 then 0 else own 0x70000),
    (271, 256, 2), (287, 272, 2), (303, 288, 1), (319, 304, if op = 2 then 0 else 1), (329, 320, cin - 1), (339, 330, cout - 1),
    (342, 340, 1), (345, 343, 1), (348, 346, 1), (355, 352, op), (359, 356, fi), (363, 360, fo)]
def thinJob0 (r : BitVec 512) : ThinJob :=
  { queue := 0, part := 0, wseq := 0, record := r, started := false, frame := 0, tile := 0, written := false, bad := false, posted := false }
/-- Thin-channel engine 0 holds a job. -/
def thinRuns (j : ThinJob) : State := { queued false with tces := [(0, { served := none, jobs := [j] })] }
/-- Queue 0 of kind `k` offers the record at its head. -/
def offersJob (k : Nat) (r : BitVec 512) : State :=
  { memOf ((queued false).setVal (.qCfg 0) (BitVec.ofNat 32 (0x1C04 + 16 * k))) [(0x10000, 64, r.toNat)] with ctr := [(3, 1)] }
def codecOf (r : BitVec 512) : CodecJob :=
  { queue := 0, part := 0, wseq := 0, record := r, waitAt := 0, late := false, started := false, units := [], done := 0, released := false,
    pins := [], nextRef := 0, qps := [], bad := false, posted := false }
def slotOf (cfg : BitVec 512) : Slot := { cfg := cfg, frames := 0, full := 0, ref := 0, outN := 0, cycle := none, mapBase := 0 }
/-- A stream of 64 × 64: what both kinds say, and what each adds. -/
def cfgOf (l : List (Nat × Nat × Nat)) : BitVec 512 :=
  bitsOf 512 ([(63, 0, own 0x100000), (95, 64, 1), (111, 96, 64), (127, 112, 64), (335, 320, 1), (483, 480, 1)] ++ l)
def decCfg : BitVec 512 := cfgOf [(287, 280, 1), (340, 336, 1), (415, 352, own 0x200000)]
def encCfg : BitVec 512 := cfgOf [(151, 144, 1), (191, 160, 60), (223, 192, 1), (239, 224, 30), (255, 240, 1), (319, 288, 27)]
/-- Codec engine c holds a job, and a stream's slot where one is given. -/
def codecRuns (c : Nat) (sl : Option Slot) (j : CodecJob) : State :=
  { queued false with codecs := [(c, { slots := if sl.isSome then [(0, sl)] else [], job := some j })] }
def encRec : BitVec 512 := jobOf [(323, 320, 1), (63, 0, own 0x40000), (127, 64, own 0x50000), (287, 256, 4096)]
def decRec : BitVec 512 := jobOf [(323, 320, 1), (63, 0, own 0x40000), (191, 128, own 0x50000), (287, 256, 64)]

/-- Queue 0 offers two records to codec engine 0, the first of which waits for counter 4 where `w`. -/
def offersTwo (w : Bool) : State :=
  { memOf (offersJob 1 (if w then putFld (putFld (putFld encRec 399 399 1) 397 384 4) 447 416 9 else encRec))
      [(0x10040, 64, (putFld encRec 325 324 1).toNat)] with ctr := [(3, 2)] }
theorem test_witness_job_codec : ∀ w : Bool, ∃ (s : State) (x : JobEntry), s.Wf ∧ s.upset = false ∧ s.offers = true ∧
    (s.codec 0).job = none ∧ s.unitOn (uCodec 0) = true ∧ x.queue = 0 ∧ s.codecPick [] (s.codecEntries 0) = some x ∧
    (x.index = s.val (.qHead 0) ↔ w = false) ∧ (s.queue 0).taken = [] := by
  intro w
  refine ⟨offersTwo w, { queue := 0, index := if w then 1 else 0, order := 0 }, wf_of ?_, ?_⟩ <;> cases w <;> decide +kernel
theorem test_witness_job_thin : ∃ s : State, s.Wf ∧ s.upset = false ∧ s.offers = true ∧ s.thinTurn 0 = some 0 ∧
    (s.thinHeads 0).find? (fun x => x.1 == 0) = some (0, 0) ∧ s.qPart 0 = 0 := ⟨offersJob 2 (thinRec 2 1 1 0 0), wf_of (by decide +kernel), by decide +kernel⟩
/-- A job of an operation, begun or not. -/
def thinJ (op : Nat) (b : Bool) : ThinJob :=
  { thinJob0 (thinRec op 3 3 (if op = 0 then 3 else 0) (if op = 1 then 3 else 0)) with started := b }
theorem test_witness_thin : ∀ op, op = 0 ∨ op = 1 ∨ op = 2 → ∀ b : Bool, (thinRuns (thinJ op b)).Wf ∧ (thinRuns (thinJ op b)).live = true ∧
    (thinRuns (thinJ op b)).upset = false ∧ (thinRuns (thinJ op b)).thinTurn 0 = some 0 ∧
    (thinRuns (thinJ op b)).thinJob 0 0 = some (thinJ op b) ∧ tOp (thinJ op b).record = op ∧ (thinJ op b).started = b ∧
    (thinRuns (thinJ op b)).thinCode 0 (thinJ op b).record = 0 ∧ (thinRuns (thinJ op b)).thinAddrs 0 (thinJ op b).record = 0 ∧
    (thinRuns (thinJ op b)).landsNow ∧ ([tOut, tIn, tW, tCc].all fun a => (gaddr (a (thinJ op b).record)).space == 0) = true ∧
    (thinJ op b).frame < tFrames (thinJ op b).record := by
  intro op h b
  refine ⟨wf_of ?_, ?_⟩ <;> (try unfold State.landsNow) <;> rcases h with rfl | rfl | rfl <;> cases b <;> decide +kernel
theorem room_of {s : State} {q : Nat}
    (h : (decide (q < 4096) && (s.queue q).waiting.isEmpty && s.cqReachable q && !s.cqFull q && (s.txDue.isEmpty &&
      !s.txLeft s.txSeq)) = true) : Room s q := by
  simp only [Bool.and_eq_true, decide_eq_true_eq, List.isEmpty_iff, Bool.not_eq_true'] at h
  exact ⟨h.1.1.1.1, h.1.1.1.2, h.1.1.2, h.1.2, h.2⟩
def thinBad : ThinJob := thinJob0 (thinRec 2 1 1 2 0)
theorem test_witness_thin_bad : (thinRuns thinBad).Wf ∧ (thinRuns thinBad).thinTurn 0 = some 0 ∧ (thinRuns thinBad).thinJob 0 0 = some thinBad ∧
    tOp thinBad.record = 2 ∧ thinBad.started = false ∧ (thinRuns thinBad).thinCode 0 thinBad.record ≠ 0 ∧ thinBad.mute = false ∧
    Room (thinRuns thinBad) thinBad.queue :=
  ⟨wf_of (by decide +kernel), by decide +kernel, by decide +kernel, by decide +kernel, rfl, by decide +kernel, rfl, room_of (by decide +kernel)⟩
/-- A job of n frames whose first frame has been written. -/
def thinEnds (n : Nat) : ThinJob := { thinJob0 (putFld (thinRec 2 1 1 0 0) 303 288 n) with started := true, written := true }
theorem test_witness_thin_done : ∀ n, n = 1 ∨ n = 2 → (thinRuns (thinEnds n)).Wf ∧ (thinRuns (thinEnds n)).live = true ∧
    ((thinRuns (thinEnds n)).tce 0).jobs.find?
      (fun j => j.written && !j.posted && !(thinRuns (thinEnds n)).writesLeft (srcThin 0 j.part)) = some (thinEnds n) ∧
    (thinRuns (thinEnds n)).thinJob 0 0 = some (thinEnds n) ∧ (thinEnds n).bad = false ∧ (thinEnds n).mute = false ∧
    ((thinEnds n).frame + 1 < tFrames (thinEnds n).record ↔ n = 2) ∧ Room (thinRuns (thinEnds n)) (thinEnds n).queue := by
  intro n h
  refine ⟨wf_of ?_, ?_, ?_, ?_, rfl, rfl, ?_, room_of ?_⟩ <;> rcases h with rfl | rfl <;> decide +kernel

theorem starts_of {s : State} {c op : Nat} {j : CodecJob}
    (h : (decide ((s.codec c).job = some j) && s.live && !s.upset && !j.posted && !j.started && decide (jOp j.record = op) &&
      decide (s.codecCode c j.part j.record = 0)) = true) : CodecStarts s c op j := by
  simp only [Bool.and_eq_true, decide_eq_true_eq, Bool.not_eq_true'] at h
  exact ⟨h.1.1.1.1.1.1, h.1.1.1.1.1.2, h.1.1.1.1.2, ⟨h.1.1.1.2, h.1.1.2⟩, h.1.2, h.2⟩
/-- A decode stream is about to open. -/
def opens : State := memOf (codecRuns 8 none (codecOf (jobOf [(63, 0, own 0x60000)]))) [(0x60000, 64, decCfg.toNat)]
theorem test_witness_open_stream : ∃ j, opens.Wf ∧ rising (opens.codec 8).slots = true ∧ j.mute = false ∧ Room opens j.queue ∧
    CodecStarts opens 8 0 j ∧ opens.jobBusy (jA j.record) 64 = false ∧ opens.jobPoison (jA j.record) 64 = false :=
  ⟨codecOf (jobOf [(63, 0, own 0x60000)]), wf_of (by decide +kernel), by decide +kernel, rfl, room_of (by decide +kernel),
    starts_of (by decide +kernel), by decide +kernel⟩
/-- A stream that has decoded one frame, which waits to be put out. -/
def kept0 : Config.Decoded := { (default : Config.Decoded) with number := 0 }
def slotKeeps : Slot := { slotOf decCfg with dec := { dec0 with kept := [kept0] }, mapBase := own 0x50000 }
/-- CLOSE, its frames due being what Config.decodeFlush names. -/
def closes (c : Nat) (ring : Bool) : State :=
  codecRuns c (some (if ring then slotKeeps else { slotKeeps with mapBase := own 0x50001 })) (codecOf (jobOf [(323, 320, 2)]))
theorem test_witness_close : ∀ c, c = 0 ∨ c = 8 → ∀ ring : Bool, ∃ (j : CodecJob) (sl : Slot), (closes c ring).Wf ∧
    rising ((closes c ring).codec c).slots = true ∧ j.mute = false ∧ Room (closes c ring) j.queue ∧ CodecStarts (closes c ring) c 2 j ∧
    (isDecoder c = true ↔ c = 8) ∧ (closes c ring).slot c (jStream j.record) = some sl ∧
    ((closes c ring).ringCheck j.part sl.cfg sl.mapBase = 0 ↔ ring = true) ∧ (closes c ring).ringsBusy sl.cfg sl.mapBase = false ∧
    (closes c ring).landsNow ∧ (gaddr (cRing sl.cfg)).space = 0 ∧ (gaddr sl.mapBase).space = 0 ∧
    (Config.decodeFlush sl.cfg sl.ref = [] → dueFrames sl.dec.kept (Config.decodeFlush sl.cfg sl.ref) = []) ∧
    (Config.decodeFlush sl.cfg sl.ref = [0] → dueFrames sl.dec.kept (Config.decodeFlush sl.cfg sl.ref) = [kept0]) := by
  intro c h ring
  refine ⟨codecOf (jobOf [(323, 320, 2)]), if ring then slotKeeps else { slotKeeps with mapBase := own 0x50001 }, wf_of ?_, ?_, rfl,
    room_of ?_, starts_of ?_, ?_, ?_, ?_, ?_, ?_, ?_, ?_, fun e => ?_, fun e => ?_⟩
  case refine_13 => rw [e]; cases ring <;> rfl
  case refine_12 => rw [e]; rfl
  all_goals rcases h with rfl | rfl <;> cases ring <;> (try unfold State.landsNow) <;> decide +kernel
/-- The record waits for room: queue 0's ring in host memory, the frames written; and a CLOSE whose frames have not all landed. -/
theorem test_witness_close_landing : ∀ held : Bool, ∃ (s : State) (j : CodecJob), isDecoder 8 = true ∧ s.live = true ∧ (s.codec 8).job = some j ∧
    j.started = true ∧ j.posted = false ∧ jOp j.record = 2 ∧ j.bad = false ∧ s.writesLeft (srcCodec 8) = held := by
  intro held
  refine ⟨{ codecRuns 8 (some slotKeeps) { codecOf (jobOf [(323, 320, 2)]) with started := true, done := 1 } with
    waitWrites := if held then [{ heldW with src := srcCodec 8 }] else [] }, _, ?_, ?_, rfl, ?_⟩ <;> cases held <;> decide +kernel
/-- An encode engine holds a FRAME job of a stream. -/
def encodes (j : CodecJob) : State := codecRuns 0 (some (slotOf encCfg)) j
theorem test_witness_encode : ∃ j, (encodes j).Wf ∧ rising ((encodes j).codec 0).slots = true ∧ isDecoder 0 = false ∧
    (encodes j).slot 0 (jStream j.record) = some (slotOf encCfg) ∧ CodecStarts (encodes j) 0 1 j ∧
    (encodes j).jobBusy (jA j.record) (cFrame encCfg) = false ∧ (encodes j).jobBusy (jB j.record) (jLen j.record) = false ∧
    (encodes j).jobBusy (cRef encCfg) (refNeed false encCfg) = false ∧ (encodes j).jobBusy (jC j.record) (16 * cWsb encCfg * cHsb encCfg) = false ∧
    (encodes j).jobBusy (jD j.record) (8 * jRoi j.record) = false ∧ j.done = 0 ∧
    j.released = false :=
  ⟨codecOf encRec, wf_of (by decide +kernel), by decide +kernel, by decide +kernel, by decide +kernel, starts_of (by decide +kernel),
    by decide +kernel⟩
/-- The job while it runs: one unit of n bytes, `d` written. -/
def encoding (n d : Nat) (r : Bool) : CodecJob :=
  { codecOf encRec with started := true, units := [List.replicate n 0], done := d, released := r, qps := [0] }
/-- A configuration that controls the rate, with its QP in bounds. -/
def rateCfg : BitVec 512 := putFld (putFld encCfg 137 136 1) 279 272 51
theorem test_witness_encode_qp : cMode rateCfg ≠ 0 ∧ cQpMin rateCfg ≤ cQp rateCfg ∧ cQp rateCfg ≤ cQpMax rateCfg := by decide +kernel
theorem test_witness_encode_end : ∀ n, n = 1 ∨ n = 5000 → ∃ (s : State) (j : CodecJob), s.Wf ∧ (s.codec 0).job = some j ∧ s.live = true ∧
    j.started = true ∧ j.posted = false ∧ j.released = true ∧ j.bad = false ∧ s.writesLeft (srcCodec 0) = false ∧ j.mute = false ∧
    Room s j.queue ∧ s.slot 0 (jStream j.record) = some (slotOf encCfg) ∧ (j.done = j.units.length ↔ n = 1) ∧ (j.full = true ↔ n = 5000) ∧
    s.jobHeld (jB j.record) (jLen j.record) = false ∧ s.encodeCode j encCfg = 0 := by
  intro n h
  refine ⟨encodes (encoding n (if n = 1 then 1 else 0) true), _, wf_of ?_, rfl, ?_, rfl, rfl, rfl, rfl, ?_, rfl, room_of ?_, ?_⟩ <;>
    rcases h with rfl | rfl <;> decide +kernel
theorem test_witness_encode_unit : ∃ (s : State) (j : CodecJob), s.Wf ∧ s.live = true ∧ (s.codec 0).job = some j ∧ j.posted = false ∧
    j.started = true ∧ isDecoder 0 = false ∧ j.done < j.units.length ∧ j.full = false ∧ j.bad = false ∧ j.released = false ∧
    s.jobHeld (jB j.record) (jLen j.record) = false ∧ s.runCode 0 j = 0 ∧ s.landsNow ∧ (gaddr (jB j.record)).space ≠ 3 ∧
    j.units[j.done]?.isSome = true ∧ j.done < 48 :=
  ⟨encodes (encoding 1 0 false), _, wf_of (by decide +kernel), by decide +kernel, rfl, by unfold State.landsNow; decide +kernel⟩
theorem test_witness_late : ∃ (s : State) (j : CodecJob), s.Wf ∧ s.live = true ∧ (s.codec 0).job = some j ∧ j.posted = false ∧
    s.slot 0 (jStream j.record) = some (slotOf encCfg) ∧ s.clocks.vid = true ∧ jOp j.record = 1 ∧ j.late = false ∧ cDeadline encCfg ≠ 0 ∧
    cDeadline encCfg * 1000 ≤ (s.limClock - j.waitAt) * 27 :=
  ⟨{ encodes (encoding 1 0 false) with limClock := 1000 }, _, wf_of (by decide +kernel), by decide +kernel, rfl, by decide +kernel⟩
/-- A decode engine holds a FRAME job of a stream. -/
def decodes : State := codecRuns 8 (some (slotOf decCfg)) (codecOf decRec)
theorem test_witness_decode : ∃ (j : CodecJob) (x : Config.DecResult), decodes.Wf ∧ rising (decodes.codec 8).slots = true ∧ isDecoder 8 = true ∧
    CodecStarts decodes 8 1 j ∧ j.mute = false ∧ Room decodes j.queue ∧ decodes.slot 8 (jStream j.record) = some (slotOf decCfg) ∧
    decodes.poison = [] ∧ decodes.gran = [] ∧
    x = Config.decode decCfg 0 [] (decodes.rdMem 0 (gaddr (jA j.record)).space (gaddr (jA j.record)).off (jLen j.record)) ∧
    (x.items = [] → (decodeChunk decCfg dec0 x).stop = false) ∧ (x.items = [.picture default []] → (decodeChunk decCfg dec0 x).stop = true) ∧ decodes.landsNow ∧ (gaddr (jA j.record)).space ≠ 1 ∧
    (gaddr (cRef decCfg)).space = 0 ∧ (gaddr (cRing decCfg)).space = 0 ∧ (gaddr (jC j.record)).space = 0 :=
  ⟨codecOf decRec, _, wf_of (by decide +kernel), by decide +kernel, by decide +kernel, starts_of (by decide +kernel), rfl,
    room_of (by decide +kernel), by decide +kernel, by decide +kernel, by decide +kernel, rfl,
    fun h => by unfold decodeChunk; rw [h]; rfl, fun h => by unfold decodeChunk; rw [h]; rfl, by unfold State.landsNow; decide +kernel⟩
theorem test_witness_decode_landing : ∀ held : Bool, ∃ (s : State) (j : CodecJob), s.Wf ∧ isDecoder 8 = true ∧ s.live = true ∧
    (s.codec 8).job = some j ∧ j.started = true ∧ j.posted = false ∧ jOp j.record = 1 ∧ j.bad = false ∧ j.mute = false ∧
    (held = false → Room s j.queue) ∧ s.writesLeft (srcCodec 8) = held := by
  intro held
  refine ⟨{ codecRuns 8 (some (slotOf decCfg)) { codecOf decRec with started := true, done := 1 } with
    waitWrites := if held then [{ heldW with src := srcCodec 8 }] else [] }, _, wf_of ?_, ?_, ?_, rfl, rfl, rfl, ?_, rfl, rfl, fun h => ?_, ?_⟩
  case refine_5 => subst h; exact room_of (by decide +kernel)
  all_goals cases held <;> decide +kernel

/-! Transactions, flits, ports and meridian time. -/

/-- A transaction's header from partition 0 to itself. -/
def hdr0 (space off len : Nat) : TxHeader :=
  { src := 0, dst := 0, srcPart := 0, dstPart := 0, tag := 7, space := space, offset := off, len := len, code := 0, ret := false,
    scalar := true, arg := 1 }
theorem arrives_of {s : State} {h : TxHeader} {k : RemKind}
    (e : (!s.upset && decide (s.arrival h k h.space h.offset h.len = 0) && s.takesTx h) = true) : Arrives s h k := by
  simp only [Bool.and_eq_true, decide_eq_true_eq, Bool.not_eq_true'] at e
  exact ⟨e.1.1, e.1.2, e.2⟩
/-- One granule of owned memory is poisoned. -/
def poisoned0 : State := { owned with poison := [0] }
theorem test_witness_put : owned.Wf ∧ Arrives owned (hdr0 0 0 4) .put ∧ (owned.arriveNear (hdr0 0 0 4) .put).txClear ∧
    (owned.arriveNear (hdr0 0 0 4) .put).writesNow (srcLink 0) 0 4 ∧ Arrives owned (hdr0 3 0 4) .put ∧ owned.txClear ∧
    Arrives owned (hdr0 0 0 4) .get ∧ owned.poisoned 0 4 = false ∧ Arrives poisoned0 (hdr0 0 0 4) .get ∧ poisoned0.poisoned 0 4 = true :=
  ⟨wf_of (by decide +kernel), arrives_of (by decide +kernel), by unfold State.txClear; decide +kernel,
    by unfold State.writesNow; decide +kernel, arrives_of (by decide +kernel), by unfold State.txClear; decide +kernel,
    arrives_of (by decide +kernel), by decide +kernel, arrives_of (by decide +kernel), by decide +kernel⟩
/-- In space 1 the tile is brought near first; one that is near already takes the write. -/
theorem test_witness_put_near : ∃ s u : State, s.Wf ∧ Arrives s (hdr0 1 0 4) .put ∧ u = s.arriveNear (hdr0 1 0 4) .put ∧ u.txClear ∧
    u.writesNow (srcLink 0) 0 4 ∧ Arrives s (hdr0 1 0 4) .get ∧ s.poisoned 0 4 = false :=
  ⟨tileIn .near [], _, wf_of (by decide +kernel), arrives_of (by decide +kernel), rfl, by unfold State.txClear; decide +kernel,
    by unfold State.writesNow; decide +kernel, arrives_of (by decide +kernel), by decide +kernel⟩
theorem test_witness_nack : owned.live = true ∧ owned.upset = false ∧ owned.arrival (hdr0 0 (2 ^ 36) 4) .put 0 (2 ^ 36) 4 ≠ 0 ∧
    owned.arrival (hdr0 0 (2 ^ 36) 4) .get 0 (2 ^ 36) 4 ≠ 0 := by decide +kernel
theorem test_witness_atomic : ∀ c, c = 0 ∨ c = 8 → ∀ r : Bool, ∃ h, Arrives owned h .atomic ∧ (h.code < 7 ∨ h.code = 8) ∧ h.scalar = true ∧
    h.len = atomicBytes h.code ∧ h.space < 2 ∧ (owned.arriveNear h .atomic).txDue = [] ∧
    (owned.arriveNear h .atomic).txLeft (owned.arriveNear h .atomic).txSeq = false ∧
    ((owned.arriveNear h .atomic).moving ((owned.arriveNear h .atomic).tileOf h.offset).1 = false ∧ (owned.arriveNear h .atomic).waitWrites = []) ∧
    h.ret = r ∧ h.code = c := by
  intro c h r
  refine ⟨{ hdr0 0 0 (atomicBytes c) with code := c, ret := r }, arrives_of ?_, ?_⟩ <;> rcases h with rfl | rfl <;> cases r <;> decide +kernel
theorem test_witness_signal_arrives : owned.arrival (hdr0 2 0 1) .signal 2 (fld (hdr0 2 0 1).arg 45 32 * 16) 1 = 0 ∧
    owned.arrival { hdr0 2 0 1 with arg := 100 * 2 ^ 32 } .signal 2 (fld (BitVec.ofNat 64 (100 * 2 ^ 32)) 45 32 * 16) 1 ≠ 0 := by
  decide +kernel

def remJob (k : RemKind) (r : Bool) : RemJob :=
  { kind := k, rank := 0, space := 0, offset := 0, len := 4, data := [], destHost := false, dest := 0x4000, code := 0, ret := r, scalar := true,
    arg := 1 }
def opOf (k : RemKind) (r dead : Bool) : RemOp := { job := remJob k r, owner := .facet 0 .mover, part := 0, since := 0, dead := dead }
/-- An operation with tag 7 of an instruction in flight on facet 0's mover. -/
def opState (o : RemOp) (clock : Nat) : State :=
  { runs (owned.setVal .lnkOpTimeout 1) { runOf [] with mover := some (flight 0x50 0) } with ops := [(7, some o)], limClock := clock }
theorem test_witness_response : ∀ k r d, (k = .put ∨ k = .signal ∨ k = .get ∨ k = .atomic) → ∃ (s : State) (o : RemOp), s.Wf ∧ s.live = true ∧
    s.op 7 = some o ∧ o.dead = d ∧ o.job.kind = k ∧ o.job.ret = r ∧ o.job.destHost = false ∧ o.job.nbits = 0 ∧ o.job.t5 = false ∧
    o.job.len = 4 ∧ s.upset = false ∧ s.spaceCheck o.part 0 o.job.dest 4 = 0 ∧ s.granBusy o.job.dest 4 = false ∧ s.writesNow (ownerSrc o.owner) o.job.dest 4 ∧ o.owner = .facet 0 .mover ∧
    ∃ run i, (s.facet 0).run = some run ∧ run.flight .mover = some i ∧ i.fault = 0 := by
  intro k r d h
  refine ⟨opState (opOf k r d) 0, opOf k r d, wf_of ?_, ?_, ?_, rfl, rfl, rfl, rfl, rfl, rfl, rfl, ?_, ?_, ?_, ?_, rfl, _, _, rfl, rfl, rfl⟩ <;>
    try unfold State.writesNow
  all_goals rcases h with rfl | rfl | rfl | rfl <;> cases r <;> cases d <;> decide +kernel
/-- The granule that the bytes go to is owned by the partition no more. -/
theorem test_witness_response_refused : ∃ (s : State) (o : RemOp), s.Wf ∧ s.live = true ∧ s.op 7 = some o ∧ o.dead = false ∧
    o.job.destHost = false ∧ o.job.nbits = 0 ∧ o.job.kind = .get ∧ o.job.len = 4 ∧ (∀ f k, o.owner ≠ .fetch f k) ∧
    s.spaceCheck o.part 0 o.job.dest 4 ≠ 0 :=
  ⟨(opState (opOf .get false false) 0).setVal (.memGran 0) 0x201, opOf .get false false, wf_of (by decide +kernel), by decide +kernel, by decide +kernel,
    rfl, rfl, rfl, rfl, rfl, (by intro f k h; cases h), by decide +kernel⟩
/-- Bytes that a sequencer fetched; those that a put of part of a byte asked for. -/
theorem test_witness_fetch_data : ∃ (s : State) (o : RemOp) (r : Run), s.Wf ∧ s.live = true ∧ s.op 7 = some o ∧ o.dead = false ∧
    o.owner = .fetch 0 .code ∧ o.job.kind = .get ∧ o.job.len = 4 ∧ (s.facet 0).run = some r :=
  ⟨opState { opOf .get false false with owner := .fetch 0 .code } 0, { opOf .get false false with owner := .fetch 0 .code }, _,
    wf_of (by decide +kernel), by decide +kernel, rfl, rfl, rfl, rfl, rfl, rfl⟩
theorem test_witness_merge : ∃ (s : State) (o : RemOp), s.Wf ∧ s.live = true ∧ s.op 7 = some o ∧ o.dead = false ∧ o.job.kind = .put ∧
    o.job.nbits ≠ 0 ∧ o.job.len = 4 :=
  ⟨opState { opOf .put false false with job := { remJob .put false with nbits := 12, head := 4 } } 0,
    { opOf .put false false with job := { remJob .put false with nbits := 12, head := 4 } }, wf_of (by decide +kernel), by decide +kernel⟩
theorem test_witness_timeout : ∃ s : State, s.Wf ∧ s.op 7 = some (opOf .put false false) ∧ s.get .lnkOpTimeout 23 0 ≠ 0 ∧
    0 + s.get .lnkOpTimeout 23 0 * 1000 ≤ s.limClock := ⟨opState (opOf .put false false) 1000, wf_of (by decide +kernel), by decide +kernel⟩
theorem test_witness_tag : (opState (opOf .put false true) 0).op 7 = some (opOf .put false true) ∧ 0 < 0 + 1000000000 ∧
    0 + 1000000000 ≤ (opState (opOf .put false true) 1000000000).limClock := ⟨by decide +kernel, by decide, by decide⟩

/-- Port p of the lane map carries dimension p in one lane. -/
def portUp : Port := { port0 with st := .up, lanes := [0], trained := true, version := 1 }
/-- Ports 0 and 1 are mapped; port 0 is as given, port 1 UP. -/
def linked (q : Port) : State :=
  { regsOf owned [(.lnkPortMap 0, 0x20), (.lnkPortMap 1, 0x21)] with
    ports := [(0, q), (1, portUp)], routes := [(2, some 1)],
    units := owned.units ++ [(52, unitIs .on), (53, unitIs .on)] }
def linkOn (q : Port) : State := regsOf (linked q) [(.pwrLc 52, 0x100), (.pwrLc 53, 0x100)]
/-- A header flit for a vertex; one with its CRC-64/XZ computed by hand (R286), and one with a wrong CRC. -/
def flitTo (dst hop : Nat) : BitVec 2048 := mkFlit (2 ^ 62) (natLe 8 (3 * 2 ^ 60 + hop * 2 ^ 54 + dst * 2 ^ 30))
def goodFlit : BitVec 2048 := BitVec.ofNat 2048 (0xC8D4F0CD35C047D5 * 2 ^ 1984 + 3 * 2 ^ 124 + 2 ^ 62)
def badFlit : BitVec 2048 := BitVec.ofNat 2048 (0xC8D4F0CD35C047D4 * 2 ^ 1984 + 3 * 2 ^ 124 + 2 ^ 62)
/-- What comes with a flit: two codewords of lane 0 counted, the credit of channel 0 in hop class 0. -/
def came (lost : Bool) : Arrival := { flit := if lost then badFlit else goodFlit, words := [{ lane := 0, corrected := 2, bad := 1 }], lost := lost, vc := 0, hop := 0, shared := false }
theorem test_witness_flit_bad : (linkOn portUp).Wf ∧ (linkOn portUp).live = true ∧ ((linkOn portUp).port 0).carries 3 = true ∧
    flitGood (came true).flit = false ∧ flitKind (came true).flit = 1 ∧ (came true).lost = true := ⟨wf_of (by decide +kernel), by decide +kernel⟩
theorem test_witness_flit_good : ∀ n : Nat, n = 0 ∨ n = 5 → flitGood goodFlit = true ∧ (came false).lost = false ∧ flitKind goodFlit = 1 ∧
    goodFlit.getLsbD 33 = false ∧ ((linkOn { portUp with rxSeq := 16383 - n }).port 0).carries 3 = true ∧
    fDst goodFlit = (linkOn portUp).coord ∧ ((linkOn portUp).port 0).carries (fVc goodFlit) = true ∧
    (flitSeq goodFlit = (((linkOn { portUp with rxSeq := 16383 - n }).port 0).rxSeq + 1) % 16384 ↔ n = 0) := by
  intro n h
  rcases h with rfl | rfl <;> decide +kernel
/-- A good flit of the reserved kind, its CRC computed by hand. -/
def kind3 : BitVec 2048 := BitVec.ofNat 2048 (0x5BE9BD0F6AA5EAB * 2 ^ 1984 + 3 * 2 ^ 62)
theorem test_witness_flit_reserved : flitGood kind3 = true ∧ flitKind kind3 = 3 := by decide +kernel
/-- The sender holds a credit for the flit that it sends again, or holds none. -/
theorem test_witness_nak_credit : ∀ n, n = 0 ∨ n = 2 → ∃ q : Port, q = { portUp with replay := [(goodFlit, 7, 0)], used := if n = 0 then [] else [(0, n)] } ∧
    rising q.used = true ∧ (creditLimit 0 ≤ tget q.used 0 0 ↔ n = 2) := by
  intro n h; refine ⟨_, rfl, ?_⟩; rcases h with rfl | rfl <;> decide +kernel
/-- A port that has flits to send again. -/
theorem test_witness_again : ∃ s : State, s.Wf ∧ s.live = true ∧ s.upset = false ∧ (s.port 0).again = [(goodFlit, 0)] ∧ (s.port 0).carries 3 = true :=
  ⟨linkOn { portUp with again := [(goodFlit, 0)] }, wf_of (by decide +kernel), by decide +kernel⟩
theorem test_witness_nak : ((linkOn { portUp with replay := [(goodFlit, 7, 0)] }).port 0).carries 3 = true ∧
    acked 16383 (flitSeq goodFlit) = false := by decide +kernel
theorem test_witness_link_word : ∃ (link : Nat) (body : List Byte), link < 2 ^ 64 ∧ body.length ≤ 240 := ⟨1, [1], by decide, by decide⟩

/-- A flit for vertex 2 in port 0's buffer; one that the vertex itself sends. -/
def bufOf (hop : Nat) : BufFlit := { vc := 0, hop := hop, dst := 2, left := 0, shared := false, port := none, flit := flitTo 2 hop }
def routesB (s : State) (vc src : Nat) (b : BufFlit) (c : Bool) : Bool :=
  s.live && !s.upset && (s.port 1).again.isEmpty && s.loadInject.firstStuck.isNone && rising (s.loadInject.port 1).used && rising (s.loadInject.port 1).route &&
    decide (s.loadInject.nextSrc 1 vc = some src) && decide (s.loadInject.flitFrom 1 vc src = some (b, c)) &&
    (if timeFlit b then vc == 3
     else (s.loadInject.nextSrc 1 3).isNone &&
      decide (nextAbove ((s.loadInject.port 1).noted 8) ((List.range 4).filter fun v => (s.loadInject.nextSrc 1 v).isSome) = some vc))
theorem test_witness_route : ∃ s : State, s.Wf ∧ routesB s 0 0 (bufOf 0) false = true ∧ flitKind (bufOf 0).flit = 1 :=
  ⟨linkOn { portUp with inbuf := [bufOf 0] }, wf_of (by decide +kernel), by decide +kernel⟩
/-- A flit of class 15 that needs another hop; one without a route. -/
theorem test_witness_stuck : ∀ n, n = 0 ∨ n = 1 → ∃ (s : State) (b : BufFlit), s.Wf ∧ s.live = true ∧ s.upset = false ∧ (s.port 1).again = [] ∧
    s.loadInject.firstStuck = some (0, b) ∧ flitKind b.flit = 1 ∧ (b.hop = 15 ↔ n = 1) ∧
    (s.loadInject.port 0).inbuf.find? (fun x => x.vc == 0) = some b := by
  intro n h
  refine ⟨{ linkOn { portUp with inbuf := [bufOf (15 * n)] } with routes := if n = 0 then [] else [(2, some 1)] }, bufOf (15 * n), wf_of ?_, ?_⟩ <;>
    rcases h with rfl | rfl <;> decide +kernel
/-- A timestamp goes before a data request of the vertex itself. -/
def stamp : BufFlit :=
  { vc := 3, hop := 0, dst := 2, left := 0, shared := false, port := some 1,
    flit := mkFlit (2 ^ 62) (natLe 8 (12 * 2 ^ 60 + 3 * 2 ^ 58 + 2 * 2 ^ 30) ++ natLe 8 0 ++ natLe 8 (5 * 2 ^ 40)) }
theorem test_witness_route_own : ∃ s : State, s.Wf ∧ routesB s 0 12 (bufOf 0) false = true ∧ (12 : Nat) ≠ (1 : PortId).val :=
  ⟨{ linkOn portUp with inject := [bufOf 0] }, wf_of (by decide +kernel), by decide +kernel, by decide⟩
theorem test_witness_route_time : ∃ s : State, s.Wf ∧ routesB s 3 12 stamp false = true ∧ s.loadInject.nextVc 1 = some 3 :=
  ⟨{ linkOn portUp with inject := [bufOf 0, stamp] }, wf_of (by decide +kernel), by decide +kernel, by decide +kernel⟩

theorem test_witness_lane : ∀ l, l = [0] ∨ l = [0, 1] → ∃ s : State, s.Wf ∧ s.live = true ∧ (s.port 0).lanes = l ∧ (s.port 0).st = .up ∧
    (s.port 0).lanes.contains 0 = true := by
  intro l h
  refine ⟨linkOn { portUp with lanes := l }, wf_of ?_, ?_⟩ <;> rcases h with rfl | rfl <;> decide +kernel
/-- Lane 0 of port 0 has recorded n uncorrectable codewords just now. -/
theorem test_witness_bad_words : ∀ n, n = 1000 ∨ n = 1001 → (linkOn { portUp with bads := [(0, 0, n)] }).Wf ∧
    (linkOn { portUp with bads := [(0, 0, n)] }).badWords 0 0 = n := by
  intro n h
  refine ⟨wf_of ?_, ?_⟩ <;> rcases h with rfl | rfl <;> decide +kernel
theorem test_witness_retrain : ∃ s : State, s.Wf ∧ s.live = true ∧ (s.port 0).retraining = true ∧
    (s.port 0).retrainAt + 10000000 ≤ s.limClock ∧ (s.port 0).st = .up :=
  ⟨{ linkOn { portUp with retraining := true } with limClock := 10000000 }, wf_of (by decide +kernel), by decide +kernel⟩

def trainingP (trained : Bool) : Port := { port0 with st := .training, lanes := [0], trained := trained }
theorem test_witness_train : (linkOn (trainingP false)).Wf ∧ (linkOn (trainingP false)).discovers = true ∧ (linkOn (trainingP false)).upset = false ∧
    (linkOn (trainingP false)).clocks.opt = true ∧ ((linkOn (trainingP false)).port 0).lanes ≠ [] ∧
    ((linkOn (trainingP false)).port 0).trained = false ∧ ((linkOn (trainingP false)).port 0).st = .training :=
  ⟨wf_of (by decide +kernel), by decide +kernel⟩
theorem test_witness_train_timeout : ∀ n : BitVec 4096, n = 1 ∨ n = 3 → ∃ s : State, s.Wf ∧ s.discovers = true ∧ (s.port 0).st = .training ∧
    (s.port 0).trained = false ∧ (s.port 0).since + 1000000000 ≤ s.limClock ∧ s.populated (s.expected 0) = decide (n = 3) := by
  intro n h
  refine ⟨{ linkOn (trainingP false) with
            limClock := 1000000000, boot := { owned.boot with image := some { testImage with populated := n } } }, wf_of ?_, ?_⟩ <;>
    rcases h with rfl | rfl <;> decide +kernel
/-- The handshake of port 0. -/
def shaking (f : Option Nat) (v : Option Bool) : Port := { trainingP true with mine := some 5, finding := f, verdict := v }
theorem test_witness_nonce : ∀ bad : Bool, ∃ s : State, s.Wf ∧ s.discovers = true ∧ s.upset = false ∧ (s.port 0).listens = true ∧
    (s.port 0).mine = some 5 ∧ (s.port 0).finding = none ∧ s.boot.image = some testImage ∧ s.boot.idBad = bad ∧ s.boot.idDone = true := by
  intro bad
  refine ⟨{ linkOn (shaking none none) with boot := { owned.boot with idBad := bad } }, wf_of ?_, ?_⟩ <;> cases bad <;> decide +kernel
theorem test_witness_verdict_phase : ∀ k, k = 1 ∨ k = 5 ∨ k = 6 → ∃ s : State, s.Wf ∧ s.upset = false ∧ s.discovers = true ∧
    s.boot.image = some testImage ∧ testImage.autoRemap = false ∧ ((List.range 12).any s.undecided) = false ∧
    (s.port 0).mine.isSome = true ∧ (s.port 0).finding = some k ∧ (s.port 0).verdict = none := by
  intro k h
  refine ⟨linkOn (shaking (some k) none), wf_of ?_, ?_⟩ <;> rcases h with rfl | rfl | rfl <;> decide +kernel
theorem test_witness_verdict : ∃ s : State, s.Wf ∧ s.upset = false ∧ s.discovers = true ∧ (s.port 0).listens = true ∧
    (s.port 0).finding = some 6 ∧ (s.port 0).mine = none ∧ (s.port 0).st ≠ .up ∧ s.unitEn (uPort 0) = true ∧ (s.unit (uPort 0)).failed = false :=
  ⟨linkOn { shaking (some 6) none with mine := none }, wf_of (by decide +kernel), by decide +kernel⟩
theorem test_witness_verdict_early : ((linkOn (shaking none none)).port 0).listens = true ∧
    ((linkOn (shaking none none)).port 0).mine.isSome = true := by decide +kernel
/-- A DISABLED port that has decided. -/
theorem test_witness_hello_again : ∃ s : State, s.Wf ∧ s.upset = false ∧ s.discovers = true ∧ (s.port 0).listens = true ∧
    s.boot.image = some testImage ∧ (s.port 0).mine = none ∧ (s.port 0).st = .disabled :=
  ⟨linkOn { portUp with st := .disabled, mine := none }, wf_of (by decide +kernel), by decide +kernel⟩
theorem test_witness_news : (linkOn portUp).Wf ∧ (linkOn portUp).upset = false ∧ (linkOn portUp).discovers = true ∧ ((linkOn portUp).port 0).st = .up ∧
    1 ≠ (linkOn portUp).coord ∧ (linkOn portUp).linkMap.contains (1, 0) = !true ∧ (linkOn portUp).linkMap.contains (1, 0) = false :=
  ⟨wf_of (by decide +kernel), by decide +kernel⟩
theorem test_witness_requests : ∀ st, ∃ s : State, s.Wf ∧ s.live = true ∧ Taken s 0 .lnkCtrl 0x1000 ∧ Taken s 0 .lnkCtrl 1 ∧
    (s.val .lnkCtrl).getLsbD 12 = false ∧ (s.val .lnkCtrl).getLsbD 0 = false ∧ (s.port 0).st = st := by
  intro st
  refine ⟨linkOn { portUp with st := st }, wf_of ?_, ?_, taken_of ?_, taken_of ?_, ?_⟩ <;> cases st <;> decide +kernel
theorem test_witness_meridian : ∀ l : Bool, ∃ s : State, s.Wf ∧ s.live = true ∧ s.upset = false ∧ s.parentPort = some 0 ∧ s.meridian.askedAt = none ∧
    s.meridian.asked = some 0 ∧ s.meridian.locked = l ∧ s.meridian.trips.length = 64 ∧ s.meridian.asks.length = 1 ∧
    (s.port 1).st = .up := by
  intro l
  refine ⟨{ linkOn portUp with
            meridian := { owned.meridian with
              root := false, rootCoord := 1, parentDim := 0, asked := some 0, asks := [(1, 7, 9)], trips := List.replicate 64 40, locked := l } }, wf_of ?_, ?_⟩ <;>
    cases l <;> decide +kernel
/-- A child's timestamp on port 1 waits and is answered: it carries 7, came at 9 and is answered at 12. -/
def stampFrom : BitVec 2048 :=
  mkFlit (2 ^ 62) (natLe 8 (12 * 2 ^ 60 + 3 * 2 ^ 58) ++ natLe 8 0 ++ natLe 8 (7 * 2 ^ 48 + 5 * 2 ^ 40) ++ natLe 8 0 ++ natLe 8 7)
theorem test_stamp_waits : (after (.flitReceive 1 { came false with flit := stampFrom })
    { linkOn portUp with ports := [(0, portUp), (1, { portUp with rxSeq := 16383 })], time := 9 }).meridian.asks = [(1, 7, 9)] := by
  decide +kernel
theorem test_stamp_answered : ((after .meridianSync
    { linkOn portUp with time := 12, meridian := { owned.meridian with asks := [(1, 7, 9)] } }).out.tx.map fun x => (x.port, x.data)) =
    [(some 1, natLe 8 7 ++ natLe 8 9 ++ natLe 8 12)] := by decide +kernel
/-- R311, by hand: asked at 0, received at 116, answered at 120, read at 40: a round trip of 36, so the parent stands at 138. -/
theorem test_exchange_offset : (after (.meridianExchange 116 120)
    { linkOn portUp with
      time := 40, meridian := { owned.meridian with root := false, rootCoord := 1, parentDim := 0, asked := some 0, locked := true } }).meridian.slew =
    98 := by decide +kernel

/-! Reset, boot, trust, power and section capture. -/

theorem test_witness_release : State.reset.pins.reset = true ∧ State.reset.Wf ∧ ready.pins.reset = false :=
  ⟨rfl, wf_of (by decide +kernel), rfl⟩
/-- A record is programmed into the first slot, since time 0. -/
def gasp0 : GaspProgram := { addr := ready.nv.reserved, bytes := [1, 2], since := 0 }
def programs : State := { ready with gasp := { ready.gasp with program := some gasp0 } }
theorem test_witness_cut_program : programs.gasp.program = some gasp0 ∧ rising programs.nv.nvm = true := ⟨rfl, by decide +kernel⟩
theorem test_witness_cut_fuse : ∀ k, k = 1 ∨ k = 2 → ∃ s : State, s.gasp.program = none ∧ s.boot.fuse = k ∧ s.boot.fuseOk = true ∧ s.nv.owned = false := by
  intro k h
  refine ⟨{ ready with boot := { ready.boot with fuse := k, fuseOk := true, fuseSvn := 3, fuseHash := 1 } }, ?_⟩
  rcases h with rfl | rfl <;> decide +kernel
/-- Out of reset, in a phase of boot. -/
def booting (n : Nat) : State :=
  { linkOn port0 with
    boot := { ready.boot with phase := n, verified := decide (4 ≤ n), idDone := decide (4 ≤ n), ready := false, pcieReady := decide (7 ≤ n) }
    units := [], parts := [] }
theorem test_witness_boot : ∀ n, (n = 2 ∨ n = 3 ∨ n = 4 ∨ n = 5 ∨ n = 6 ∨ n = 8) → ∃ s : State, s.Wf ∧ s.booting = true ∧ s.boot.phase = n ∧
    (s.boot.verified = false ↔ n ≤ 3) ∧ (s.boot.idDone = false ↔ n ≤ 3) ∧ s.boot.image = some testImage ∧ s.live = true ∧
    s.boot.recovery = false ∧ s.boot.ready = false ∧ (s.port 0).st = .off ∧ s.mapped 0 = true ∧ s.unitEn (uPort 0) = true ∧
    (s.unit (uPort 0)).failed = false ∧ (s.unit 0).st = .off ∧ (s.part 0).st = .off := by
  intro n h
  refine ⟨booting n, wf_of ?_, ?_⟩ <;> rcases h with rfl | rfl | rfl | rfl | rfl | rfl <;> decide +kernel
theorem test_witness_discovery : ∀ d : Bool, ∃ s : State, s.Wf ∧ s.booting = true ∧ s.boot.phase = 7 ∧ s.discDone = d := by
  intro d
  refine ⟨{ booting 7 with ports := [(0, if d then port0 else trainingP false)] }, wf_of ?_, ?_⟩ <;> cases d <;> decide +kernel
theorem test_witness_skipped : ∃ s : State, s.booting = true ∧ s.boot.phase = 4 ∧ s.boot.image = some testImage ∧ s.gasp.skipped = true ∧
    s.nv.note = true ∧ s.boot.source = 0 ∧ s.pins.nvmRel = false :=
  ⟨{ booting 4 with gasp := { owned.gasp with skipped := true }, nv := { owned.nv with note := true } }, by decide +kernel⟩
theorem test_witness_apex_dead : ∃ s : State, s.Wf ∧ s.boot.apexDead = true :=
  ⟨{ booting 4 with boot := { ready.boot with apexDead := true } }, wf_of (by decide +kernel), rfl⟩

/-- An image whose policy allows recovery by request, and no partition in use. -/
def mayEnter : State := { owned.setVal .bootStatus 0x00300000 with parts := [] }
theorem test_witness_recovery : mayEnter.Wf ∧ Taken mayEnter 0 .recovCtrl 0x20000000 ∧ (0x20000000 : Word).getLsbD 29 = true ∧
    (mayEnter.val .recovCtrl).getLsbD 29 = false ∧ (0x20000000 : Word).getLsbD 28 = false :=
  ⟨wf_of (by decide +kernel), taken_of (by decide +kernel), by decide, by decide +kernel, by decide⟩
theorem test_witness_go : recovers.Wf ∧ Taken recovers 0 .recovCtrl 0x10001000 ∧ (0x10001000 : Word).getLsbD 28 = true ∧
    (recovers.val .recovCtrl).getLsbD 28 = false ∧ (0x10001000 : Word).getLsbD 29 = false ∧ recovers.boot.recovery = true :=
  ⟨wf_of (by decide +kernel), taken_of (by decide +kernel), by decide, by decide +kernel, by decide, rfl⟩
theorem test_witness_recovery_check : ∃ s : State, s.Wf ∧ s.booting = true ∧ s.boot.recovery = true ∧ s.boot.going = true ∧
    s.boot.idDone = true := ⟨{ recovers with boot := { recovers.boot with going := true } }, wf_of (by decide +kernel), by decide +kernel⟩

/-- The board gives the bus back, or has not yet; the device that the port then finds. -/
def returns (h : Bool) : NvmReturn := { high := h, device := { present := true, mbit := 1024, profile := true, addr4 := true, sector64 := true } }
theorem test_witness_nvm : Taken ready 0 .nvmCtrl 1 ∧ Taken programs 0 .nvmCtrl 1 ∧ (1 : Word).getLsbD 0 = true ∧
    (returns true).high = true ∧ (returns false).high = false ∧
    ∃ s : State, s.Wf ∧ s.awake = true ∧ s.pins.nvmRel = true ∧ s.get .nvmCtrl 0 0 = 0 :=
  ⟨taken_of (by decide +kernel), taken_of (by decide +kernel), by decide, rfl, rfl, { ready with pins := { ready.pins with nvmRel := true } },
    wf_of (by decide +kernel), by decide +kernel⟩
theorem test_witness_fuse : mayEnter.Wf ∧ Taken mayEnter 0 .fuseCtrl 0xC5040000 ∧ fld (0xC5040000 : Word) 19 18 = 1 ∧
    Taken mayEnter 0 .fuseCtrl 0xC5080000 ∧ fld (0xC5080000 : Word) 19 18 = 2 ∧
    (mayEnter.get .bootStatus 21 21 = 1 ∧ mayEnter.nv.svn ≤ fld (0xC5040000 : Word) 17 12 ∧
      fld (0xC5040000 : Word) 17 12 ≤ mayEnter.get .bootStatus 13 8) ∧
    mayEnter.nv.owned = false ∧ mayEnter.nv.ownerHash &&& ~~~mayEnter.ownerHashValue = 0 :=
  ⟨wf_of (by decide +kernel), taken_of (by decide +kernel), by decide, taken_of (by decide +kernel), by decide, by decide +kernel,
    by decide +kernel, by decide +kernel⟩
theorem test_witness_fuse_refused : ∃ s : State, s.Wf ∧ Taken s 0 .fuseCtrl 0xC5040000 ∧ s.get .bootStatus 21 21 ≠ 1 ∧
    Taken s 0 .fuseCtrl 0xC5080000 ∧ s.nv.owned = true :=
  ⟨{ owned with nv := { owned.nv with owned := true } }, wf_of (by decide +kernel), taken_of (by decide +kernel), by decide +kernel,
    taken_of (by decide +kernel), by decide +kernel⟩
theorem test_witness_fuse_done : ∀ ok : Bool, ∀ k, k = 1 ∨ k = 2 → ∃ s : State, s.Wf ∧ s.awake = true ∧ s.boot.fuse = k ∧ s.boot.fuse ≠ 0 ∧
    s.boot.fuseOk = ok ∧ s.nv.owned = false := by
  intro ok k h
  refine ⟨{ ready with boot := { ready.boot with fuse := k, fuseOk := ok } }, wf_of ?_, ?_⟩ <;> rcases h with rfl | rfl <;> cases ok <;> decide +kernel

theorem test_witness_attest : ready.answers = true ∧ ready.boot.idBad = false ∧
    ∃ s : State, s.answers = true ∧ s.boot.idBad = true :=
  ⟨by decide +kernel, rfl, { ready with boot := { ready.boot with idBad := true } }, by decide +kernel⟩
theorem test_witness_governor : ∀ a : Bool, ∃ s : State, s.Wf ∧ s.upset = false ∧ s.awake = true ∧ s.halted = false ∧ 5 ≤ s.boot.phase ∧
    s.boot.recovery = false ∧ s.boot.apexRun = a := by
  intro a
  refine ⟨{ ready with boot := { ready.boot with apexRun := a } }, wf_of ?_, ?_⟩ <;> cases a <;> decide +kernel

/-- A last-gasp slot is armed, or none. -/
def gasping (k : Option Nat) : State := { ready with gasp := { ready.gasp with armed := k } }
theorem test_witness_trip : ∀ k, k = none ∨ k = some 0 → ∃ s : State, s.Wf ∧ rising s.nv.nvm = true ∧ s.awake = true ∧ s.halted = false ∧
    s.gasp.armed = k ∧ s.pins.nvmRel = false ∧ s.pins.pwrwarn = false ∧ s.tripHolds 1 0 = true ∧ s.tripHolds 2 0 = false := by
  intro k h
  refine ⟨gasping k, wf_of ?_, ?_⟩ <;> rcases h with rfl | rfl <;> decide +kernel
theorem test_witness_withdraw : ∀ g, g = none ∨ g = some gasp0 → ∃ s : State, s.Wf ∧ rising s.nv.nvm = true ∧ s.awake = true ∧
    s.power.warnStop = true ∧ s.freeze.due = false ∧ s.gasp.program = g := by
  intro g h
  refine ⟨{ ready with power := { ready.power with warnStop := true }, gasp := { ready.gasp with program := g } }, wf_of ?_, ?_⟩ <;>
    rcases h with rfl | rfl <;> decide +kernel
/-- The record's Program and Check have taken their time. -/
theorem test_witness_program_ends : ∃ s : State, s.Wf ∧ rising s.nv.nvm = true ∧ s.gasp.program = some gasp0 ∧ s.pending = [] ∧ s.awake = true ∧
    s.freeze.due = false ∧ 1220000 ≤ (s.tickMeridian.time - gasp0.since).toNat :=
  ⟨{ programs with time := 2000000 }, wf_of (by decide +kernel), by decide +kernel⟩
/-- The slot that is next is erased, or holds something. -/
theorem test_witness_arm : ∀ e : Bool, ∃ s : State, s.Wf ∧ rising s.nv.nvm = true ∧ s.awake = true ∧ s.boot.ready = true ∧
    s.gasp.armed = none ∧ s.gasp.program = none ∧ s.pins.nvmRel = false ∧ s.boot.source = 0 ∧ s.boot.nvmOk = true ∧ s.boot.apexRun = true ∧
    s.nv.newest = none ∧ s.nv.slotErased 0 = e := by
  intro e
  refine ⟨{ ready with nv := { ready.nv with nvm := if e then [] else [(ready.nv.reserved, 0)] } }, wf_of ?_, ?_⟩ <;> cases e <;> decide +kernel
theorem test_witness_clock_lost : ∃ s : State, s.Wf ∧ s.clocks.sys = false :=
  ⟨{ ready with clocks := { ready.clocks with sys := false } }, wf_of (by decide +kernel), rfl⟩
theorem test_witness_refclk : ∃ s : State, s.Wf ∧ s.pins.reset = false ∧ (s.port 0).st = .up ∧ (s.port 0).lanes ≠ [] :=
  ⟨linkOn portUp, wf_of (by decide +kernel), by decide +kernel⟩
/-- A freeze, with or without a read-out. -/
def frozen0 (r : Bool) : State := { ready with freeze := { ready.freeze with frozen := true, readout := r } }
theorem test_witness_freeze_due : programs.Wf ∧ programs.awake = true ∧ programs.gasp.program.isSome = true :=
  ⟨wf_of (by decide +kernel), by decide +kernel, rfl⟩
theorem test_witness_freeze : ready.Wf ∧ ready.awake = true ∧ ready.freeze.frozen = false ∧ ready.gasp.program = none ∧ Taken ready 0 .secCtrl 1 ∧
    (1 : Word).getLsbD 0 = true ∧ (ready.val .secCtrl).getLsbD 0 = false :=
  ⟨wf_of (by decide +kernel), by decide +kernel, rfl, rfl, taken_of (by decide +kernel), by decide, by decide +kernel⟩
/-- A port is UP as the freeze ends: its unit is enabled, or is not any more. -/
theorem test_witness_thaw_port : ∀ en : Bool, ∃ s : State, s.Wf ∧ s.awake = true ∧ s.freeze.frozen = true ∧ s.freeze.readout = false ∧
    s.get .secCtrl 0 0 = 0 ∧ (s.port 0).st = .up ∧ s.unitEn (uPort 0) = en ∧ (s.unit (uPort 0)).failed = false := by
  intro en
  refine ⟨{ (linkOn portUp).setVal (.pwrLc 52) (if en then 0x100 else 0) with freeze := { owned.freeze with frozen := true } }, wf_of ?_, ?_⟩ <;>
    cases en <;> decide +kernel
theorem test_witness_thaw : ∀ r : Bool, (frozen0 r).Wf ∧ (frozen0 r).awake = true ∧ (frozen0 r).freeze.frozen = true ∧
    (frozen0 r).freeze.readout = r ∧ (frozen0 r).get .secCtrl 0 0 = 0 ∧ (frozen0 r).get .bootStatus 23 22 = 0 := by
  intro r
  refine ⟨wf_of ?_, ?_⟩ <;> cases r <;> decide +kernel
theorem test_witness_section : ∃ s : State, s.Wf ∧ s.upset = false ∧ s.pins.reset = false ∧ s.get .bootStatus 23 22 ≠ 0 ∧ s.freeze.frozen = true :=
  ⟨(frozen0 false).setVal .bootStatus 0x00400000, wf_of (by decide +kernel), by decide +kernel⟩

/-! Each check of Instr.wf refuses an ill-formed command. -/

def badHello : Hello := { coord := 0, dim := 0, planHash := [], versions := 1, fwVer := 0, cert := [], signature := [] }
theorem test_wf_tile : (Instr.tileRead 0 0 0).wf = false ∧ (Instr.tileRead 0 (48 * 2 ^ 30 - 1) 2).wf = false ∧
    (Instr.tileWrite 0 0 (12 * 2 ^ 36) [0]).wf = false ∧ (Instr.tileSeal (48 * 2 ^ 30)).wf = false ∧
    (Instr.tileRead 0 (48 * 2 ^ 30 - 1) 1).wf = true := by decide +kernel
theorem test_wf_arbiter : (Instr.arbiterGrant 462 []).wf = false ∧ (Instr.arbiterGrant 0 [{ req3 with off := 2 ^ 48 }]).wf = false ∧
    (Instr.arbiterGrant 0 [req3]).wf = true := by decide +kernel
theorem test_wf_partition : (Instr.partitionTableWrite 0 0 0x18 0).wf = false ∧ (Instr.partitionTableWrite 0 0 0x14 0).wf = true := by
  decide +kernel
theorem test_wf_errors : (Instr.dataError .stack 39 0).wf = false ∧ (Instr.dataError .stack 41 0).wf = false ∧
    (Instr.correctedError .near 0 (48 * 2 ^ 30)).wf = false ∧ (Instr.dataError .facetStore 24 0).wf = false ∧
    (Instr.correctedError .apex 0 (2 ^ 48)).wf = false := by decide +kernel
theorem test_wf_bar4 : (Instr.bar4Access 0 0 0 none).wf = false ∧ (Instr.bar4Access 0 (2 ^ 40) 1 none).wf = false ∧
    (Instr.bar4Access 0 0 2 (some [0])).wf = false := by decide +kernel
theorem test_wf_offset : (Instr.registerWrite 0 { offset := 2, more := [] } 15 0).wf = false ∧
    (Instr.wzRegisterRead 0 { offset := 2 ^ 26 }).wf = false ∧ (Instr.wzRegisterRead 0 { offset := 2 ^ 26 - 4, more := [15] }).wf = false := by decide +kernel
theorem test_wf_header : (Instr.getReq { hdr0 0 0 4 with src := 4096 }).wf = false ∧ (Instr.getReq { hdr0 0 0 4 with dst := 4096 }).wf = false ∧
    (Instr.getReq { hdr0 0 0 4 with srcPart := 32 }).wf = false ∧ (Instr.getReq { hdr0 0 0 4 with dstPart := 32 }).wf = false ∧
    (Instr.getReq { hdr0 0 0 4 with tag := 65536 }).wf = false ∧ (Instr.getReq (hdr0 4 0 4)).wf = false ∧
    (Instr.getReq (hdr0 0 (2 ^ 48) 4)).wf = false ∧ (Instr.getReq (hdr0 0 0 65537)).wf = false ∧
    (Instr.getReq { hdr0 0 0 4 with code := 256 }).wf = false ∧ (Instr.getReq (hdr0 0 0 4)).wf = true := by decide +kernel
theorem test_wf_data : (Instr.putTransaction (hdr0 0 0 4) [0]).wf = false ∧
    (Instr.atomicTransaction { hdr0 0 0 4 with scalar := false } [0]).wf = false := by decide +kernel
theorem test_wf_links : (Instr.laneRemove 0 72 .lostLock).wf = false ∧ (Instr.linkStateAnnounce 0 { vertex := 4096, dim := 0, up := true }).wf = false ∧
    (Instr.linkStateAnnounce 0 { vertex := 0, dim := 12, up := true }).wf = false := by decide +kernel
theorem test_wf_arrival : (Instr.flitReceive 0 { came true with vc := 4 }).wf = false ∧ (Instr.flitReceive 0 { came true with hop := 16 }).wf = false ∧
    (Instr.flitReceive 0 { came true with words := [{ lane := 72, corrected := 0, bad := 0 }] }).wf = false ∧
    (Instr.flitReceive 0 (came true)).wf = true := by decide +kernel
/-- A HELLO of the right lengths. -/
def fullHello : Hello :=
  { badHello with planHash := List.replicate 64 0, cert := List.replicate 3136 0, signature := List.replicate 1280 0 }
theorem test_wf_hello : fullHello.wf = true ∧ Hello.wf { fullHello with coord := 4096 } = false ∧ Hello.wf { fullHello with dim := 12 } = false ∧
    Hello.wf { fullHello with planHash := [] } = false ∧ Hello.wf { fullHello with cert := [] } = false ∧
    Hello.wf { fullHello with signature := [] } = false := by decide +kernel
theorem test_wf_trust : (Instr.doeDiscovery 256).wf = false ∧ (Instr.trip 0 0).wf = false ∧ (Instr.trip 6 0).wf = false := by decide +kernel
theorem test_wf_governor : ∀ k : Fin 4, (Instr.governorStep
    { capCode := if k = 0 then 256 else 0, pwrcapCode := if k = 1 then 256 else 0, thermCode := if k = 2 then 256 else 0, unmet := false,
      slewing := false, powerW := 0, tjMax := 0, silent := if k = 3 then [4] else [] }).wf = false := by decide +kernel

/-- The worked example after R144: a grid of 2 by 27 tiles has b = 5 and begins with M0 N0, M0 N1, M1 N1, M1 N0. -/
theorem test_walk_example : (List.range 4).map (fun d => hilbertAxes d 5 2) = [[0, 0], [0, 1], [1, 1], [1, 0]] := by decide +kernel
/-- The worked example after R251: offset 0x0123_4500 of stack 4. -/
theorem test_placement_example : stackPlace 0x01234500 = { pc := 21, col := 2, bank := 15, row := 9, byte := 0 } ∧
    stackArbiter 0x004001234500 = 149 := by decide +kernel
/-- SHAKE256 of the empty message (FIPS 202's published value, first bytes). -/
theorem test_shake_empty : Machine.shake256 [] 4 = [0x46, 0xB9, 0xDD, 0x2B] := by decide +kernel

end Sys2Proof.Tests
end

section
/-! The quantiser along a CB32 tensor's rows (spec/06_narrow_formats.md R146, spec/09_convolution.md R230). -/

namespace Sys2Proof.Machine.CbQuant

/-! A CB32 tensor keeps one scale byte per position and channel block, whatever BLOCK_AXIS says, while the quantiser's
blocks follow BLOCK_AXIS and write the scale of their first element alone. With BLOCK_AXIS = 1 (the row) and one channel,
the other elements of a block are read under bytes that nothing has written. No check of QUANT refuses such an OUT. -/

/-- A bit string from its fields: highest bit, lowest bit, value. -/
def ofFields (w : Nat) (l : List (Nat × Nat × Nat)) : BitVec w := l.foldl (fun v x => putFld v x.1 x.2.1 x.2.2) 0

/-- The space-0 offset of the own vertex as a global address. -/
def ownAddr (off : Nat) : Nat := 0xFFF * 2 ^ 52 + off

/-- A tensor of one channel and two positions: ADDR, FORMAT, LAYOUT, further fields (R110). -/
def pairTensor (off fmt layout : Nat) (l : List (Nat × Nat × Nat)) : Desc :=
  ofFields 512 ([(63, 0, ownAddr off), (159, 128, 1), (191, 160, 2), (223, 192, 1), (255, 224, 1), (287, 256, 1),
    (455, 448, fmt), (459, 456, layout), (462, 460, 2), (479, 476, 1)] ++ l)

/-- A: FP32, PLAIN, its rows 64 bytes apart. -/
def src : Desc := pairTensor 0x4000 0x00 0 [(319, 288, 1)]

/-- OUT: MXFP8 E4M3 in CB32, its blocks along DIM1, its scales at 0xC000. -/
def dst : Desc := pairTensor 0x8000 0x10 1 [(127, 64, ownAddr 0xC000), (469, 467, 1)]

/-- QUANT of descriptor 1 into descriptor 2. -/
def quantIns : Ins := ofFields 256 [(7, 0, 0x25), (11, 8, 1), (31, 24, 2), (39, 32, 1)]

/-- A program of that one instruction, fetched, of a gang of one. -/
def run : Run :=
  { cl := { queue := 0, part := 0, wseq := 0, gang := 0, wd := ofFields 512 [(176, 160, 1), (190, 186, 1), (483, 480, 1)] }
    pc := 0, buf := [quantIns], table := [(1, src), (2, dst)], seeds := [], control := none, array := none, vector := none
    mover := none, waiting := none, stop := none, posted := false }

/-- Facet 0 runs it; partition 0 owns the first granule, whose two values of A are 1. -/
def start : State :=
  { State.reset with
    pins := { State.reset.pins with reset := false }
    units := [(uFacet 0, { lc0 with st := .on }), (uStack 0, { lc0 with st := .on })]
    regs := [((Reg.memGran 0).key, cellOf 0x200)]
    facets := [(0, { facet0 with run := some run })]
    mem := wrCells [] (cellsAt 0x4000 (natLe 4 0x3F800000) ++ cellsAt 0x4040 (natLe 4 0x3F800000)) }

/-- QUANT as it issues there. -/
def iss : Iss := issOf 0 .vector run quantIns

/-- OUT as the instruction sees it, and its second element. -/
def out : View := iss.view (iOut iss.ins) 0
def second : Idx := [0, 1, 0, 0, 0]

theorem start_ahead : start.ahead 0 = start := by decide +kernel

theorem quant_issuable : Issuable start 0 0x25 .vector (planQuant start iss) iss where
  next := by decide +kernel
  opcode := by decide +kernel
  calm := by decide +kernel
  base := by decide +kernel
  code := by decide +kernel
  seq := by decide +kernel
  loaded := by decide +kernel
  clear := by decide +kernel
  alone := by decide +kernel
  granules := by decide +kernel

theorem quant_issues : Issues 0 0x25 .vector start start iss (planQuant start iss) where
  wf := ⟨by decide +kernel, by decide +kernel⟩
  fetched := start_ahead.symm
  issuable := quant_issuable
  ready := ⟨by decide +kernel, by decide +kernel, by decide +kernel, by decide +kernel⟩
  still := ⟨rfl, rfl, rfl⟩
  far := by decide +kernel

theorem out_noClash : iss.vecClash out [iss.view (iA iss.ins) 0] = false := by decide +kernel

theorem out_apart : out.apart (allIdx out.dims) := by
  unfold View.apart
  decide +kernel

/-- Both elements are of one block, so that its scale byte is no other block's. -/
theorem out_scalesApart : out.scalesApart (allIdx out.dims) := by
  unfold View.scalesApart View.beside
  decide +kernel

theorem out_block : blockElems out.d [0, 0, 0, 0, 0] = [[0, 0, 0, 0, 0], second] := by decide +kernel

/-- The block's scale code: 1 lies 8 below the largest exponent of E4M3. -/
theorem block_code : (quantBlock .e4m3 ((blockElems out.d [0, 0, 0, 0, 0]).map (start.rdVec iss.p (iss.view (iA iss.ins) 0)))
    ((blockElems out.d [0, 0, 0, 0, 0]).map (elemMode iss.ins iss.seed out.dims))).1 = 119 := by decide +kernel

/-- The scale byte that the second element is read under stays 0. -/
theorem second_scale : (start.tryIssue 0 0x25 .vector planQuant).rdScale iss.p out second = 0 := by decide +kernel

end Sys2Proof.Machine.CbQuant

namespace Sys2Proof.Machine

open CbQuant in
/-- Refutes O38: QUANT into a CB32 tensor of an MX format whose blocks run along DIM1. The block of two elements has scale
code 119, written to the first element's scale byte (R230); the second element's own byte still holds 0. -/
theorem not_blocksAreQuantised : ¬ Obligations.BlocksAreQuantised := by
  unfold Obligations.BlocksAreQuantised
  rintro ⟨-, hquant⟩
  obtain ⟨t, ht, -, hblocks⟩ := hquant 0 start start iss out quant_issues rfl out_noClash
  obtain rfl : start.tryIssue 0 0x25 .vector planQuant = t := Host.Outcome.next.inj ht
  have hscale := (hblocks .e4m3 (by decide +kernel) (by decide +kernel) out_apart out_scalesApart [0, 0, 0, 0, 0]
    (by decide +kernel) (by decide +kernel) 1 second (by rw [out_block]; rfl)).1
  rw [second_scale, block_code] at hscale
  exact absurd hscale (by decide)

end Sys2Proof.Machine
end

section
/-! What setting a log bit leaves (R399, R401): the bit reads 1, other registers keep their values, and beside registers
only messages change. -/

namespace Sys2Proof.Machine

theorem State.Wf.facets {s : State} (w : s.Wf) : rising s.facets = true := by
  have := w.2
  simp_all [State.tablesWf]

theorem State.flagged_refl (s : State) : s.flagged s := rfl

theorem State.flagged_trans {s t u : State} (h : s.flagged t) (k : t.flagged u) : s.flagged u := by
  have hk : u = { t with regs := u.regs, out := { t.out with msix := u.out.msix }, fns := u.fns } := k
  rw [State.flagged, hk, h]

theorem State.setVal_flagged (s : State) (r : Reg) (w : Word) : s.flagged (s.setVal r w) := rfl

theorem State.msix_flagged (s : State) (fn v : Nat) : s.flagged (s.msix fn v) := by
  unfold State.msix
  split
  · rfl
  · split <;> rfl

@[simp] theorem State.msix_regs (s : State) (fn v : Nat) : (s.msix fn v).regs = s.regs := by
  unfold State.msix
  split
  · rfl
  · split <;> rfl

theorem State.val_congr {s t : State} (h : t.regs = s.regs) (r : Reg) : t.val r = s.val r := by
  simp only [State.val, State.cell, h]

/-- The capture fields that an event writes with its bit. -/
def State.putAll (s : State) (caps : List (Reg × Nat × Nat × Nat)) : State :=
  caps.foldl (fun s x => s.put x.1 x.2.1 x.2.2.1 x.2.2.2) s

theorem State.putAll_wf {s : State} (w : s.Wf) (caps : List (Reg × Nat × Nat × Nat)) : (s.putAll caps).Wf :=
  (Kept.foldl _ caps (Kept.refl s) fun _ x k => State.put_kept k x.1 x.2.1 x.2.2.1 x.2.2.2).wf w

theorem State.putAll_flagged (s : State) (caps : List (Reg × Nat × Nat × Nat)) : s.flagged (s.putAll caps) := by
  induction caps generalizing s with
  | nil => exact s.flagged_refl
  | cons x rest ih => exact State.flagged_trans (s.setVal_flagged _ _) (ih (s.put x.1 x.2.1 x.2.2.1 x.2.2.2))

theorem State.putAll_val {s : State} (w : s.Wf) {r : Reg} {caps : List (Reg × Nat × Nat × Nat)}
    (h : ∀ x ∈ caps, r.key ≠ x.1.key) : (s.putAll caps).val r = s.val r := by
  induction caps generalizing s with
  | nil => rfl
  | cons x rest ih =>
    have hput : (s.put x.1 x.2.1 x.2.2.1 x.2.2.2).val r = s.val r := State.val_setVal_other s w.regs _ (h x (by simp))
    exact (ih ((State.put_kept (Kept.refl s) _ _ _ _).wf w) fun y hy => h y (by simp [hy])).trans hput

/-- Setting a WZ bit, taken apart: it was set, or the captures, the bit and a message come in turn. -/
theorem State.setWz_cases (s : State) (r : Reg) (b : Nat) (caps : List (Reg × Nat × Nat × Nat)) :
    (bit (s.val r).toNat b = true ∧ s.setWz r b caps = s) ∨
      ∃ c : RegCell, vote c.a c.b c.c = (s.putAll caps).val r ||| BitVec.ofNat 32 (2 ^ b) ∧
        s.setWz r b caps = ((s.putAll caps).setCell r c).msix 0 0 := by
  unfold State.setWz
  split
  · exact .inl ⟨‹_›, rfl⟩
  · exact .inr ⟨_, vote_same _, rfl⟩

theorem State.setWz_flagged (s : State) (r : Reg) (b : Nat) (caps : List (Reg × Nat × Nat × Nat)) :
    s.flagged (s.setWz r b caps) := by
  obtain ⟨-, h⟩ | ⟨c, -, h⟩ := s.setWz_cases r b caps <;> rw [h]
  · exact s.flagged_refl
  · have hcell : (s.putAll caps).flagged ((s.putAll caps).setCell r c) := rfl
    exact State.flagged_trans (s.putAll_flagged caps) (State.flagged_trans hcell (State.msix_flagged _ 0 0))

theorem State.setWz_bit {s : State} (w : s.Wf) (r : Reg) {b : Nat} (hb : b < 32) (caps : List (Reg × Nat × Nat × Nat)) :
    ((s.setWz r b caps).val r).getLsbD b = true := by
  obtain ⟨hset, h⟩ | ⟨c, hc, h⟩ := s.setWz_cases r b caps <;> rw [h]
  · exact hset
  · rw [State.val_congr (State.msix_regs _ 0 0), State.val, State.cell_setCell_same _ (State.putAll_wf w caps).regs, hc,
      BitVec.getLsbD_or, BitVec.getLsbD_ofNat, Nat.testBit_two_pow_self]
    simp [hb]

theorem State.setWz_val {s : State} (w : s.Wf) {r r' : Reg} (b : Nat) {caps : List (Reg × Nat × Nat × Nat)}
    (hr : r'.key ≠ r.key) (hcaps : ∀ x ∈ caps, r'.key ≠ x.1.key) : (s.setWz r b caps).val r' = s.val r' := by
  obtain ⟨-, h⟩ | ⟨c, -, h⟩ := s.setWz_cases r b caps <;> rw [h]
  rw [State.val_congr (State.msix_regs _ 0 0), State.val_setCell_other _ (State.putAll_wf w caps).regs c hr,
    State.putAll_val w hcaps]

theorem State.flagged_facets {s t : State} (h : s.flagged t) : t.facets = s.facets := by
  rw [State.flagged] at h
  rw [h]

/-- A facet is set, and then bits are: what the state may differ in. -/
theorem State.eq_of_setFacet_flagged {s t : State} {f : Nat} {v : Facet} (h : (s.setFacet f v).flagged t) :
    t = { s with facets := t.facets, regs := t.regs, out := { s.out with msix := t.out.msix }, fns := t.fns } := by
  rw [State.flagged_facets h]
  exact h

end Sys2Proof.Machine
end

section
/-! CHECKER_SAMPLE (R167). -/

namespace Sys2Proof.Machine

/-- Whether a sample's error is above its threshold; NaN is. -/
def Sample.exceeds (x : Sample) : Bool :=
  fIsNaN (sampleE x) || flt (f32 (.num false 1 (-(x.threshExp : Int)))) (sampleE x)

/-- The sample taken and counted. -/
def State.sampleCounted (s : State) (f : Nat) (rest : List Sample) : State :=
  (s.setFacet f { s.facet f with samples := rest }).count (.fctChkSamples f) 1

/-- MAXERR after a sample's error: the larger, NaN once an error is NaN. -/
def State.raiseMaxerr (s : State) (f : Nat) (e : Word) : State :=
  if fIsNaN e then s.setVal (.fctChkMaxerr f) fNaN
  else if flt (s.val (.fctChkMaxerr f)) e then s.setVal (.fctChkMaxerr f) e else s

/-- An error above the threshold, counted and logged with its tile, queue and index. -/
def State.logExceed (s : State) (f : Nat) (x : Sample) : State :=
  (s.count (.fctChkExceeds f) 1).setWz (.fctQLog f) 4
    [(.fctChkTile f, 31, 0, x.tile), (.fctChkWhere f, 27, 16, x.queue), (.fctChkWhere f, 15, 0, x.index)]

theorem State.val_count_one (s : State) (h : rising s.regs = true) (r : Reg) : (s.count r 1).val r = satAdd32 (s.val r) 1 :=
  State.val_setVal_same s h r _

theorem State.val_count_other (s : State) (h : rising s.regs = true) {r r' : Reg} (n : Nat) (hk : r'.key ≠ r.key) :
    (s.count r n).val r' = s.val r' := by
  unfold State.count
  split
  · rfl
  · exact State.val_setVal_other s h _ hk

theorem State.count_flagged (s : State) (r : Reg) (n : Nat) : s.flagged (s.count r n) := by
  unfold State.count
  split <;> rfl

theorem State.raiseMaxerr_cases (s : State) (f : Nat) (e : Word) :
    s.raiseMaxerr f e = s ∨ ∃ w, s.raiseMaxerr f e = s.setVal (.fctChkMaxerr f) w := by
  unfold State.raiseMaxerr
  split
  · exact .inr ⟨_, rfl⟩
  · split
    · exact .inr ⟨_, rfl⟩
    · exact .inl rfl

theorem State.raiseMaxerr_flagged (s : State) (f : Nat) (e : Word) : s.flagged (s.raiseMaxerr f e) := by
  obtain h | ⟨w, h⟩ := s.raiseMaxerr_cases f e <;> rw [h]
  · exact s.flagged_refl
  · exact s.setVal_flagged _ w

theorem State.raiseMaxerr_wf {s : State} (w : s.Wf) (f : Nat) (e : Word) : (s.raiseMaxerr f e).Wf := by
  obtain h | ⟨v, h⟩ := s.raiseMaxerr_cases f e <;> rw [h]
  · exact w
  · exact (State.setVal_kept (Kept.refl s) _ v).wf w

theorem State.raiseMaxerr_out (s : State) (f : Nat) (e : Word) : (s.raiseMaxerr f e).out = s.out := by
  obtain h | ⟨w, h⟩ := s.raiseMaxerr_cases f e <;> rw [h]
  rfl

theorem State.raiseMaxerr_val_other {s : State} (w : s.Wf) (f : Nat) (e : Word) {r : Reg}
    (hr : r.key ≠ (Reg.fctChkMaxerr f).key) : (s.raiseMaxerr f e).val r = s.val r := by
  obtain h | ⟨v, h⟩ := s.raiseMaxerr_cases f e <;> rw [h]
  exact State.val_setVal_other s w.regs v hr

theorem State.raiseMaxerr_larger {s : State} (w : s.Wf) {f : Nat} {e : Word} (hn : fIsNaN e = false)
    (hlt : flt (s.val (.fctChkMaxerr f)) e = true) : (s.raiseMaxerr f e).val (.fctChkMaxerr f) = e := by
  simp [State.raiseMaxerr, hn, hlt, State.val_setVal_same s w.regs]

theorem State.raiseMaxerr_smaller {s : State} {f : Nat} {e : Word} (hn : fIsNaN e = false)
    (hlt : flt (s.val (.fctChkMaxerr f)) e = false) : s.raiseMaxerr f e = s := by
  simp [State.raiseMaxerr, hn, hlt]

theorem State.logExceed_flagged (s : State) (f : Nat) (x : Sample) : s.flagged (s.logExceed f x) :=
  State.flagged_trans (s.count_flagged _ 1) (State.setWz_flagged _ _ _ _)

theorem State.count_wf {s : State} (w : s.Wf) (r : Reg) (n : Nat) : (s.count r n).Wf :=
  (State.count_kept (Kept.refl s) r n).wf w

/-- The registers that logging an error leaves. -/
theorem State.logExceed_val {s : State} (w : s.Wf) (f : Nat) (x : Sample) {r : Reg}
    (h : ∀ k ∈ [Reg.fctChkExceeds f, .fctQLog f, .fctChkTile f, .fctChkWhere f], r.key ≠ k.key) :
    (s.logExceed f x).val r = s.val r := by
  simp only [List.forall_mem_cons] at h
  obtain ⟨hcnt, hlog, htile, hwhere, -⟩ := h
  rw [State.logExceed, State.setWz_val (State.count_wf w _ 1) 4 hlog (by simp [htile, hwhere]),
    State.val_count_other s w.regs 1 hcnt]

theorem State.logExceed_counts {s : State} (w : s.Wf) (f : Nat) (x : Sample) :
    (s.logExceed f x).val (.fctChkExceeds f) = satAdd32 (s.val (.fctChkExceeds f)) 1 := by
  rw [State.logExceed, State.setWz_val (State.count_wf w _ 1) 4 (by simp [Reg.key, Reg.copyOf, Reg.offset])
    (by simp [Reg.key, Reg.copyOf, Reg.offset]), State.val_count_one s w.regs]

/-- What one sample leaves. -/
def State.sampleTaken (s : State) (f : Nat) (x : Sample) (rest : List Sample) : State :=
  if x.exceeds then ((s.sampleCounted f rest).raiseMaxerr f (sampleE x)).logExceed f x
  else (s.sampleCounted f rest).raiseMaxerr f (sampleE x)

theorem State.sampleCounted_wf {s : State} (w : s.Wf) (f : Nat) (rest : List Sample) : (s.sampleCounted f rest).Wf :=
  State.count_wf ((State.setFacet_kept (Kept.refl s) f _).wf w) _ 1

theorem State.sampleCounted_val_other {s : State} (w : s.Wf) (f : Nat) (rest : List Sample) {r : Reg}
    (hr : r.key ≠ (Reg.fctChkSamples f).key) : (s.sampleCounted f rest).val r = s.val r :=
  State.val_count_other (s.setFacet f _) w.regs 1 hr

/-- CHECKER_SAMPLE takes the oldest sample. -/
theorem execCheckerSample_of_sample {f : FacetId} {x : Sample} {rest : List Sample} {s : State} (w : s.Wf) (hl : s.live = true)
    (hx : (s.facet f).samples = x :: rest) : exec (.checkerSample f) s = .next (s.sampleTaken f x rest) := by
  have hold : (s.sampleCounted f rest).val (.fctChkMaxerr f) = s.val (.fctChkMaxerr f) :=
    State.sampleCounted_val_other w f rest (by simp [Reg.key, Reg.copyOf, Reg.offset])
  change execCheckerSample f s = _
  unfold execCheckerSample State.sampleTaken State.raiseMaxerr
  rw [hx, hold]
  simp only [hl, Bool.not_true, Bool.false_eq_true, if_false]
  exact (apply_ite _ _ _ _).symm

theorem State.sampleTaken_flagged (s : State) (f : Nat) (x : Sample) (rest : List Sample) :
    (s.setFacet f { s.facet f with samples := rest }).flagged (s.sampleTaken f x rest) := by
  have hraised := State.flagged_trans (State.count_flagged (s.setFacet f { s.facet f with samples := rest }) (.fctChkSamples f) 1)
    (State.raiseMaxerr_flagged (s.sampleCounted f rest) f (sampleE x))
  unfold State.sampleTaken
  split
  · exact State.flagged_trans hraised (State.logExceed_flagged _ f x)
  · exact hraised

theorem State.sampleTaken_facet {s : State} (w : s.Wf) (f : Nat) (x : Sample) (rest : List Sample) :
    (s.sampleTaken f x rest).facet f = { s.facet f with samples := rest } := by
  rw [State.facet, State.flagged_facets (s.sampleTaken_flagged f x rest)]
  exact (State.facet_setFacet s w.facets f _ f).trans (if_pos rfl)

/-- A register that the log of an excess leaves is as MAXERR's update left it. -/
theorem State.sampleTaken_val {s : State} (w : s.Wf) (f : Nat) (x : Sample) (rest : List Sample) {r : Reg}
    (h : ∀ k ∈ [Reg.fctChkExceeds f, .fctQLog f, .fctChkTile f, .fctChkWhere f], r.key ≠ k.key) :
    (s.sampleTaken f x rest).val r = ((s.sampleCounted f rest).raiseMaxerr f (sampleE x)).val r := by
  unfold State.sampleTaken
  split
  · exact State.logExceed_val (State.raiseMaxerr_wf (State.sampleCounted_wf w f rest) f _) f x h
  · rfl

theorem State.sampleTaken_samples {s : State} (w : s.Wf) (f : Nat) (x : Sample) (rest : List Sample) :
    (s.sampleTaken f x rest).val (.fctChkSamples f) = satAdd32 (s.val (.fctChkSamples f)) 1 := by
  rw [State.sampleTaken_val w f x rest (by simp [Reg.key, Reg.copyOf, Reg.offset]),
    State.raiseMaxerr_val_other (State.sampleCounted_wf w f rest) f _ (by simp [Reg.key, Reg.copyOf, Reg.offset])]
  exact State.val_count_one (s.setFacet f _) w.regs _

section
variable {s : State} (w : s.Wf) (f : Nat) (x : Sample) (rest : List Sample)
include w

theorem State.sampleTaken_maxerr (hn : fIsNaN (sampleE x) = false) :
    (s.sampleTaken f x rest).val (.fctChkMaxerr f) =
      if flt (s.val (.fctChkMaxerr f)) (sampleE x) then sampleE x else s.val (.fctChkMaxerr f) := by
  have hold : (s.sampleCounted f rest).val (.fctChkMaxerr f) = s.val (.fctChkMaxerr f) :=
    State.sampleCounted_val_other w f rest (by simp [Reg.key, Reg.copyOf, Reg.offset])
  rw [State.sampleTaken_val w f x rest (by simp [Reg.key, Reg.copyOf, Reg.offset])]
  split
  · exact State.raiseMaxerr_larger (State.sampleCounted_wf w f rest) hn (by rwa [hold])
  · rename_i hle
    rw [State.raiseMaxerr_smaller hn (by rwa [hold, ← Bool.not_eq_true]), hold]

/-- EXCEEDS before the excess is counted. -/
theorem State.raisedMaxerr_exceeds :
    ((s.sampleCounted f rest).raiseMaxerr f (sampleE x)).val (.fctChkExceeds f) = s.val (.fctChkExceeds f) := by
  rw [State.raiseMaxerr_val_other (State.sampleCounted_wf w f rest) f _ (by simp [Reg.key, Reg.copyOf, Reg.offset]),
    State.sampleCounted_val_other w f rest (by simp [Reg.key, Reg.copyOf, Reg.offset])]

theorem State.sampleTaken_above (h : x.exceeds = true) :
    (s.sampleTaken f x rest).val (.fctChkExceeds f) = satAdd32 (s.val (.fctChkExceeds f)) 1 ∧
      ((s.sampleTaken f x rest).val (.fctQLog f)).getLsbD 4 = true := by
  have hraised := State.raiseMaxerr_wf (State.sampleCounted_wf w f rest) f (sampleE x)
  rw [State.sampleTaken, if_pos h]
  exact ⟨by rw [State.logExceed_counts hraised, State.raisedMaxerr_exceeds w f x rest],
    State.setWz_bit (State.count_wf hraised _ 1) _ (by decide) _⟩

theorem State.sampleTaken_within (h : x.exceeds = false) :
    (s.sampleTaken f x rest).val (.fctChkExceeds f) = s.val (.fctChkExceeds f) ∧ (s.sampleTaken f x rest).out = s.out := by
  rw [State.sampleTaken, if_neg (by simp [h])]
  exact ⟨State.raisedMaxerr_exceeds w f x rest, State.raiseMaxerr_out _ f _⟩
end

end Sys2Proof.Machine
end

section
/-! POOL_ALLOCATE (R202). -/

namespace Sys2Proof.Machine

/-- Facet f's next instruction is a MATMUL_KV that nothing but a page holds back: `k` is the first that it lacks. -/
structure LacksPage (s : State) (f : FacetId) (i : Iss) (k : KvPage) : Prop where
  next : s.nextIns f .array = some i
  opcode : iOpcode i.ins = 0x12
  check : (s.check planMatmulKv i).1 = 0
  loaded : s.loading i = false
  granules : s.footBusy (planMatmulKv s i).foot = false
  clear : i.run.clear .array (planMatmulKv s i).foot = true
  alone : s.gangAborted i.run = false
  wait : s.waitOk i.run i.ins = true
  late : (planMatmulKv s i).late = 0
  page : (s.kvPages i (i.desc (iA i.ins)) (i.desc (iAux i.ins))).find? (fun k => !(pteValid (s.pteLatest i.p k.pte))) = some k

theorem State.check_plan {s : State} {plan : State → Iss → Plan} {i : Iss} (h : opcodes.contains (iOpcode i.ins) = true) :
    (s.check plan i).2 = plan s i := by
  simp only [State.check, h, if_true]

section
variable {s : State} {f : FacetId} {i : Iss} {k : KvPage} (h : LacksPage s f i k)
include h

/-- No guard of POOL_ALLOCATE holds it back. -/
theorem LacksPage.not_held : ¬(iOpcode i.ins ≠ 0x12 ∨ (s.check planMatmulKv i).1 ≠ 0 ∨
    !i.run.clear .array (s.check planMatmulKv i).2.foot ∨ s.gangAborted i.run ∨ s.loading i ∨
    s.footBusy (s.check planMatmulKv i).2.foot ∨ !s.waitOk i.run i.ins ∨ (s.check planMatmulKv i).2.late ≠ 0) := by
  rw [State.check_plan (by rw [h.opcode]; decide)]
  simp [h.opcode, h.check, h.loaded, h.granules, h.clear, h.alone, h.wait, h.late]

theorem LacksPage.exec_empty
    (hp : poPosted (s.poolLatest i.p (s.seqEntry k.seq)) = poTake (s.poolLatest i.p (s.seqEntry k.seq))) :
    exec (.poolAllocate f) s = .next ((s.flag (.fctAttLog f) 2 true).beginWait f i (some k.seq)) := by
  change execPoolAllocate f s = _
  unfold execPoolAllocate
  simp only [h.next, if_neg h.not_held, h.page, hp, if_true]

theorem LacksPage.exec_takes {t : State}
    (hp : poPosted (s.poolLatest i.p (s.seqEntry k.seq)) ≠ poTake (s.poolLatest i.p (s.seqEntry k.seq)))
    (ht : s.takePage i.src i.p (s.seqEntry k.seq) k.page k.head = .ok t) :
    exec (.poolAllocate f) s =
      .next (t.setFacet f { t.facet f with run := some { i.run with waiting := none, poolSeq := none } }) := by
  change execPoolAllocate f s = _
  unfold execPoolAllocate
  simp only [h.next, if_neg h.not_held, h.page, if_neg hp, ht]
end

/-- Beginning to wait changes the facet alone. -/
theorem State.beginWait_eq (s : State) (f : Nat) (i : Iss) (pool : Option Nat) :
    s.beginWait f i pool = { s with facets := (s.beginWait f i pool).facets } := by
  unfold State.beginWait
  split <;> rfl

theorem State.beginWait_begins {s : State} (w : rising s.facets = true) (f : Nat) {i : Iss} {pool : Option Nat}
    (h : i.run.waiting = none ∨ i.run.poolSeq ≠ pool) :
    ((s.beginWait f i pool).facet f).run = some { i.run with waiting := some s.limClock, poolSeq := pool } := by
  have hno : ¬(i.run.waiting.isSome ∧ i.run.poolSeq = pool) := by
    rintro ⟨hsome, hpool⟩
    obtain hnone | hne := h
    · simp [hnone] at hsome
    · exact hne hpool
  rw [State.beginWait, if_neg hno, State.facet_setFacet s w, if_pos rfl]

/-! One page taken, where no tile is near and no write waits. -/

/-- The offset that the pool posts at TAKE. -/
def State.postedPage (s : State) (p : Nat) (e : SeqEntry) : Nat :=
  fld (BitVec.ofNat 64 (s.rdVal p { gaddr (sqPool e) with
    off := (gaddr (sqPool e)).off + 64 + 8 * ((poTake (s.poolLatest p e)).toNat % max (poCap (s.poolLatest p e)) 1) } 8)) 39 0

/-- The bytes of TAKE, and of the page-table entry, that an allocation writes. -/
def State.takeBytes (s : State) (p : Nat) (e : SeqEntry) : List Byte := natLe 8 (poTake (s.poolLatest p e) + 1).toNat
def State.newPte (s : State) (p : Nat) (e : SeqEntry) : Nat := mkPte false (sqFmt e) 0 (s.postedPage p e)

/-- The page given: the pool's TAKE, its tile mutable, and the page-table entry. -/
def State.pageGiven (s : State) (src p : Nat) (e : SeqEntry) (j h : Nat) : State :=
  ((s.storeBytes src p (gaddr (sqPool e)).space (gaddr (sqPool e)).off (s.takeBytes p e) false).unsealTile
    (s.tileOf (s.postedPage p e)).1).putPte src p (pteAt e j h) (s.newPte p e)

/-- An allocation gives the page, and may signal the pool's LOW_CTR. -/
theorem State.takePage_ok {s t : State} {src p : Nat} {e : SeqEntry} {j h : Nat} (ht : s.takePage src p e j h = .ok t) :
    t = s.pageGiven src p e j h ∨ ∃ n, t = (s.pageGiven src p e j h).signal n 1 := by
  unfold State.takePage at ht
  dsimp only at ht
  split at ht
  · split at ht
    · injection ht with ht
      rw [← ht]
      split
      · exact .inr ⟨_, rfl⟩
      · exact .inl rfl
    · cases ht
  · cases ht

theorem State.setWz_mem (s : State) (r : Reg) (b : Nat) (caps : List (Reg × Nat × Nat × Nat)) :
    (s.setWz r b caps).mem = s.mem := by
  have h := s.setWz_flagged r b caps
  rw [State.flagged] at h
  rw [h]

theorem State.notePost_mem (s : State) (n : Nat) : (s.notePost n).mem = s.mem := by
  refine List.foldlRecOn (motive := fun t : State => t.mem = s.mem) _ _ rfl fun t ih q _ => ?_
  split
  · exact ih
  · exact ih

theorem State.overPost_mem (s : State) (n : Nat) : (s.overPost n).mem = s.mem := by
  refine List.foldlRecOn (motive := fun t : State => t.mem = s.mem) _ _ rfl fun t ih q _ => ?_
  split
  · exact (State.setWz_mem _ _ _ _).trans ih
  · exact ih

theorem State.signal_mem (s : State) (n : Nat) (v : Word) : (s.signal n v).mem = s.mem :=
  (State.overPost_mem _ n).trans (State.notePost_mem _ n)

theorem State.poisonAfter_eq (s : State) (cells : List Host.Cell) (bad : Bool) :
    ∃ l, s.poisonAfter cells bad = { s with poison := l } := by
  unfold State.poisonAfter
  split
  · exact ⟨_, rfl⟩
  · split
    · exact ⟨_, rfl⟩
    · exact ⟨_, rfl⟩

/-- A store to the stacks lands at once. -/
theorem State.storeBytes_still {s : State} (hd : s.dir = []) (hw : s.waitWrites = []) (hu : s.upset = false) (src p : Nat)
    {space : Nat} (hs : space ≠ 3) (off : Nat) (b : List Byte) (bad : Bool) :
    ∃ l, s.storeBytes src p space off b bad = { s with mem := wrCells s.mem (cellsAt off b), poison := l } := by
  obtain ⟨l, hl⟩ := State.poisonAfter_eq { s with mem := wrCells s.mem (cellsAt off b) } (cellsAt off b) bad
  refine ⟨l, ?_⟩
  have hstill : (s.dir.isEmpty && s.waitWrites.isEmpty) = true := by simp [hd, hw]
  rw [State.storeBytes, if_neg hs, State.storeCells]
  simp only [hu, hstill, Bool.false_eq_true, if_false, if_true]
  exact hl

theorem State.setClass_eq (s : State) (tile : Nat) (ro : Bool) : ∃ l, s.setClass tile ro = { s with classBits := l } := by
  unfold State.setClass
  split
  · exact ⟨_, rfl⟩
  · split
    · exact ⟨_, rfl⟩
    · exact ⟨_, rfl⟩

theorem State.unsealTile_still {s : State} (hd : s.dir = []) (tile : Nat) :
    ∃ l, s.unsealTile tile = { s with classBits := l } := by
  have hnone : s.dirEntry tile = none := by rw [State.dirEntry, hd, tget_nil]
  unfold State.unsealTile
  rw [hnone]
  exact s.setClass_eq tile false

theorem State.pageGiven_mem {s : State} (hd : s.dir = []) (hw : s.waitWrites = []) (hu : s.upset = false) (src p : Nat)
    {e : SeqEntry} (hs : (gaddr (sqPool e)).space = 0) (j h : Nat) :
    (s.pageGiven src p e j h).mem =
      wrCells (wrCells s.mem (cellsAt (gaddr (sqPool e)).off (s.takeBytes p e)))
        (cellsAt (pteAt e j h) (natLe 8 (s.newPte p e))) := by
  obtain ⟨l, hl⟩ := State.storeBytes_still hd hw hu src p (space := (gaddr (sqPool e)).space) (by omega)
    (gaddr (sqPool e)).off (s.takeBytes p e) false
  obtain ⟨c, hc⟩ := State.unsealTile_still
    (s := { s with mem := wrCells s.mem (cellsAt (gaddr (sqPool e)).off (s.takeBytes p e)), poison := l }) hd
    (s.tileOf (s.postedPage p e)).1
  obtain ⟨l', hl'⟩ := State.storeBytes_still
    (s := { s with mem := wrCells s.mem (cellsAt (gaddr (sqPool e)).off (s.takeBytes p e)), poison := l, classBits := c })
    hd hw hu src p (space := 0) (by decide) (pteAt e j h) (natLe 8 (s.newPte p e)) false
  rw [State.pageGiven, hl, hc, State.putPte, hl']

end Sys2Proof.Machine
end

section
/-! Byte strings and page-table entries read back (R68, R194). -/

namespace Sys2Proof.Machine

@[simp] theorem natLe_length (n v : Nat) : (natLe n v).length = n := by
  induction n generalizing v with
  | zero => rfl
  | succ n ih => simp [natLe, ih]

theorem leNat_natLe (n v : Nat) : leNat (natLe n v) = v % 256 ^ n := by
  induction n generalizing v with
  | zero => simp [natLe, leNat, Nat.mod_one]
  | succ n ih =>
    rw [natLe, leNat, ih, BitVec.toNat_ofNat, Nat.pow_succ' (m := 256) (n := n), Nat.mod_mul (a := 256)]

theorem rdBytes_congr {m m' : Mem} {a : Nat} (n : Nat) (h : ∀ x, a ≤ x → x < a + n → rd m x = rd m' x) :
    rdBytes m a n = rdBytes m' a n := by
  induction n generalizing a with
  | zero => rfl
  | succ n ih =>
    rw [rdBytes, rdBytes, h a (by omega) (by omega), ih fun x hx hlt => h x (by omega) (by omega)]

theorem memWf_of_wf {s : State} (w : s.Wf) : memWf s.mem = true := by
  have := w.1
  simp_all [State.memsWf]

/-- Of two byte strings written one after the other at places apart, both read back. -/
theorem rdBytes_wrCells_apart {m : Mem} (h : memWf m = true) (a b : Nat) (l k : List Byte)
    (hab : a + l.length ≤ b ∨ b + k.length ≤ a) :
    rdBytes (wrCells (wrCells m (cellsAt a l)) (cellsAt b k)) a l.length = l := by
  refine (rdBytes_congr l.length fun x hx hlt => ?_).trans (rdBytes_wrCells l m a h)
  refine rd_wrCells_other _ _ (memWf_wrCells _ m h) fun c hc => ?_
  have := mem_cellsAt k b hc
  omega

section
variable (sealed : Bool) (fmt fill off : Nat)

theorem mkPte_testBit_valid : (mkPte sealed fmt fill off).testBit 63 = true := by
  have : b2n sealed < 2 := by cases sealed <;> decide
  rw [Nat.testBit_eq_decide_div_mod_eq, mkPte]
  simp only [decide_eq_true_eq]
  omega

theorem pteValid_mkPte : pteValid (BitVec.ofNat 64 (mkPte sealed fmt fill off)) = true := by
  rw [pteValid, BitVec.getLsbD_ofNat, mkPte_testBit_valid]
  decide

theorem pteSealed_mkPte : pteSealed (BitVec.ofNat 64 (mkPte sealed fmt fill off)) = sealed := by
  have hbit : (mkPte sealed fmt fill off).testBit 62 = decide (b2n sealed = 1) := by
    have : b2n sealed < 2 := by cases sealed <;> decide
    rw [Nat.testBit_eq_decide_div_mod_eq, mkPte, decide_eq_decide]
    omega
  rw [pteSealed, BitVec.getLsbD_ofNat, hbit]
  cases sealed <;> decide

theorem pteFill_mkPte : pteFill (BitVec.ofNat 64 (mkPte sealed fmt fill off)) = fill % 256 := by
  have : b2n sealed < 2 := by cases sealed <;> decide
  simp only [pteFill, fld, bits, BitVec.toNat_ofNat, Nat.shiftRight_eq_div_pow, mkPte]
  omega
end

/-- The page-table entry where one has just been written. -/
theorem State.pte_of_bytes {s : State} {p off v : Nat} (h : rdBytes s.mem off 8 = natLe 8 v) :
    s.pte p off = BitVec.ofNat 64 v := by
  refine BitVec.eq_of_toNat_eq ?_
  simp [State.pte, State.rdMem, h, leNat_natLe]

end Sys2Proof.Machine
end

section
/-! O36: pages and samples (R167, R202). -/

namespace Sys2Proof.Machine

/-- The memory behind an allocation, whether or not it signals. -/
theorem State.takePage_mem {s t : State} {src p : Nat} {e : SeqEntry} {j h : Nat} (ht : s.takePage src p e j h = .ok t)
    (hd : s.dir = []) (hw : s.waitWrites = []) (hu : s.upset = false) (hs : (gaddr (sqPool e)).space = 0) :
    t.mem = wrCells (wrCells s.mem (cellsAt (gaddr (sqPool e)).off (s.takeBytes p e)))
      (cellsAt (pteAt e j h) (natLe 8 (s.newPte p e))) := by
  rw [← State.pageGiven_mem hd hw hu src p hs j h]
  obtain rfl | ⟨n, rfl⟩ := State.takePage_ok ht
  · rfl
  · exact State.signal_mem _ n 1

/-- TAKE moves by one and the entry is of a valid page, unsealed, with nothing filled. -/
theorem State.takePage_reads {s t : State} {src p : Nat} {e : SeqEntry} {j h : Nat} (w : s.Wf)
    (ht : s.takePage src p e j h = .ok t) (hd : s.dir = []) (hw : s.waitWrites = []) (hu : s.upset = false)
    (hs : (gaddr (sqPool e)).space = 0)
    (hapart : (gaddr (sqPool e)).off + 8 ≤ pteAt e j h ∨ pteAt e j h + 8 ≤ (gaddr (sqPool e)).off) :
    rdBytes t.mem (gaddr (sqPool e)).off 8 = s.takeBytes p e ∧ t.pte p (pteAt e j h) = BitVec.ofNat 64 (s.newPte p e) := by
  have hmem := State.takePage_mem ht hd hw hu hs
  have hlen : (s.takeBytes p e).length = 8 := natLe_length 8 _
  have hpte : rdBytes t.mem (pteAt e j h) 8 = natLe 8 (s.newPte p e) := by
    have hread := rdBytes_wrCells (natLe 8 (s.newPte p e)) _ (pteAt e j h)
      (memWf_wrCells (cellsAt (gaddr (sqPool e)).off (s.takeBytes p e)) s.mem (memWf_of_wf w))
    rwa [natLe_length, ← hmem] at hread
  refine ⟨?_, State.pte_of_bytes hpte⟩
  have hread := rdBytes_wrCells_apart (memWf_of_wf w) (gaddr (sqPool e)).off (pteAt e j h) (s.takeBytes p e)
    (natLe 8 (s.newPte p e)) (by rwa [hlen, natLe_length])
  rwa [hlen, ← hmem] at hread

/-- Settles O36: from what one page taken and one sample taken leave. -/
theorem pagesAndSamplesAreTaken : Obligations.PagesAndSamplesAreTaken := by
  unfold Obligations.PagesAndSamplesAreTaken
  refine ⟨fun f i k s w hnext hop hcheck hload hgran hclear halone hwait hlate hpage => ?_, fun f x rest s w hl hx => ?_⟩
  · have hk : LacksPage s f i k := ⟨hnext, hop, hcheck, hload, hgran, hclear, halone, hwait, hlate, hpage⟩
    refine ⟨fun hp => ?_, fun s' hp ht => ?_⟩
    · have hflag : s.flagged (s.flag (.fctAttLog f) 2 true) := s.setWz_flagged _ 2 []
      have hfacets := State.flagged_facets hflag
      rw [State.flagged] at hflag
      have hbegin := (s.flag (.fctAttLog f) 2 true).beginWait_eq f i (some k.seq)
      refine ⟨_, hk.exec_empty hp, ?_, ?_, fun h => ?_, ?_⟩
      · rw [hbegin]
        exact State.setWz_bit w (.fctAttLog f) (by decide) []
      · rw [hbegin]
        exact State.setWz_mem s _ 2 []
      · rw [State.beginWait_begins (hfacets ▸ w.facets) f h, hflag]
      · rw [hbegin, hflag]
    · have hfs : rising s'.facets = true := ((State.takePage_kept (Kept.refl s) ht).wf w).facets
      refine ⟨_, hk.exec_takes hp ht, by rw [State.facet_setFacet s' hfs, if_pos rfl], rfl, fun hd hw hu hs hapart => ?_⟩
      obtain ⟨htake, hpte⟩ := State.takePage_reads w ht hd hw hu hs hapart
      refine ⟨htake, ?_⟩
      change pteValid (s'.pte _ _) = true ∧ pteSealed (s'.pte _ _) = false ∧ pteFill (s'.pte _ _) = 0
      rw [hpte]
      exact ⟨pteValid_mkPte .., pteSealed_mkPte .., pteFill_mkPte ..⟩
  · have hfacet := State.sampleTaken_facet w f x rest
    refine ⟨_, execCheckerSample_of_sample w hl hx, by rw [hfacet], by rw [hfacet], State.sampleTaken_samples w f x rest,
      fun hn hlt => ?_, fun hn hle => ?_, fun h => State.sampleTaken_above w f x rest ?_,
      fun hn hle => State.sampleTaken_within w f x rest ?_, State.eq_of_setFacet_flagged (s.sampleTaken_flagged f x rest)⟩
    · rw [State.sampleTaken_maxerr w f x rest hn, if_pos hlt]
    · rw [State.sampleTaken_maxerr w f x rest hn, if_neg (by simp [hle])]
    · rwa [Sample.exceeds, Bool.or_eq_true]
    · rw [Sample.exceeds, hn, hle]; rfl

end Sys2Proof.Machine
end

section
/-! BAR0 accesses of a calm state (R394 to R399): where no register's copies disagree nothing is repaired, so that a write
which is taken is applied to the state as it stands, and a read shows that state's value. -/

namespace Sys2Proof.Machine

/-- What a table's default and every listed value have, what it holds at a key has. -/
theorem tget_of_forall {α : Type} {p : α → Prop} {d : α} (hd : p d) (k : Nat) :
    ∀ {m : SMap α}, (∀ x ∈ m, p x.2) → p (tget m d k)
  | [], _ => hd
  | (k', v) :: t, h => by
    unfold tget
    split
    · exact h (k', v) (List.mem_cons_self ..)
    · split
      · exact hd
      · exact tget_of_forall hd k fun x hx => h x (List.mem_cons_of_mem _ hx)

theorem State.agrees_calm {s : State} (h : s.upset = false) (r : Reg) : s.agrees r = true := by
  refine tget_of_forall (p := fun c : RegCell => (c.a == c.b && c.b == c.c) = true) (by simp [cellOf]) r.key fun x hx => ?_
  have := List.any_eq_false.mp h x hx
  simpa using this

@[simp] theorem State.repair_calm {s : State} (h : s.upset = false) (r : Reg) : s.repair r = s := by
  have hr := State.agrees_calm h r
  simp only [State.agrees, Bool.and_eq_true, beq_iff_eq] at hr
  exact if_pos hr

@[simp] theorem State.useReach_calm {s : State} (h : s.upset = false) (fn : Nat) : s.useReach fn = s := by
  unfold State.useReach
  split <;> simp [h]

@[simp] theorem State.useTable_calm {s : State} (h : s.upset = false) (r : Reg) : s.useTable r = s := by
  unfold State.useTable
  split <;> simp [h]

/-- An access that reaches a register is not turned away by a freeze. -/
theorem Reached.unfrozen {s : State} {fn : Nat} {wr : Bool} {r : Reg} (h : Reached s fn wr r) :
    (s.freeze.frozen && !freezeBlock r.offset) = false := by
  cases hf : s.freeze.frozen with
  | false => rfl
  | true => simp [h.runs hf]

/-- Nor does it wait for an earlier access to a register. -/
theorem Reached.notQueued {s : State} {fn : Nat} {wr : Bool} {r : Reg} (h : Reached s fn wr r) :
    (!s.freeze.frozen && s.hostLine fn) = false := by
  cases hf : s.freeze.frozen with
  | false => simp [h.next hf]
  | true => rfl

/-- A write that is taken does not wait for the function's writes to memory either. -/
theorem Taken.notHeld {s : State} {fn : Nat} {r : Reg} {w : Word} (h : Taken s fn r w) :
    (!s.freeze.frozen && (s.hostLine fn || r.ordered && s.hostHeld fn)) = false := by
  have hline := h.reached.notQueued
  cases hr : r.ordered with
  | false => simpa using hline
  | true => simpa [h.first hr] using hline

theorem State.writeReg_taken {s : State} {fn : Nat} {r : Reg} {w : Word} (h : Taken s fn r w) :
    s.writeReg fn r 0xF w = s.applyWrite fn r w := by
  simp [State.writeReg, h.calm, h.kept, h.legal]

/-- REGISTER_WRITE of one word that is taken applies the write. -/
theorem exec_registerWrite_taken {s : State} {fn : FnId} {r : Reg} {w : Word} (h : Taken s fn r w) :
    exec (.registerWrite fn ⟨r.offset, []⟩ 0xF w) s = .next (s.applyWrite fn r w) := by
  change Host.Outcome.next (s.hostTake false fn r.offset 0xF w) = _
  rw [← State.writeReg_taken h]
  simp [State.hostTake, h.reached.answers, h.reached.unfrozen, h.calm, h.reached.target, h.notHeld]

/-- WZ_REGISTER_READ of one word of a register without WZ bits shows its value and leaves the rest. -/
theorem exec_wzRegisterRead_reached {s : State} {fn : FnId} {r : Reg} (h : Reached s fn false r) (hu : s.upset = false)
    (hz : r.mask .wz = 0) (be : BitVec 4) :
    exec (.wzRegisterRead fn ⟨r.offset, be, []⟩) s = .next (s.showData (enabledBytes be (s.readVal fn r)) false) := by
  change Host.Outcome.next (s.hostShow false fn r.offset be false) = _
  simp [State.hostShow, h.answers, h.unfrozen, h.notQueued, hu, h.target, hz]

@[simp] theorem State.showData_data (s : State) (l : List Byte) (bad : Bool) : (s.showData l bad).out.data = l := rfl

/-- All four byte enables show the whole word. -/
@[simp] theorem enabledBytes_all (w : Word) : enabledBytes 0xF w = natLe 4 w.toNat := by
  simp [enabledBytes, natLe, List.range_succ]

end Sys2Proof.Machine
end

section
/-! A register that starts nothing (R398, R399). -/

namespace Sys2Proof.Machine

theorem State.applyWrite_plain {r : Reg} (h : r.plain = true) (s : State) (fn : Nat) (w : Word) :
    s.applyWrite fn r w = s.setVal r (s.merged r w) := by
  unfold State.applyWrite
  split <;> simp_all [Reg.plain]

/-- One bit of the value stored: RW and RW3 bits are replaced, a WZ bit without its mark goes at a 0, others stay. -/
theorem State.merged_bit (s : State) (r : Reg) (w : Word) {i : Nat} (hi : i < 32) :
    (s.merged r w).getLsbD i =
      if (r.mask .rw ||| r.mask .rw3).getLsbD i then w.getLsbD i
      else if (r.mask .wz).getLsbD i && !w.getLsbD i && !(s.cell r).mark.getLsbD i then false
      else (s.val r).getLsbD i := by
  dsimp only [State.merged]
  generalize r.mask .rw ||| r.mask .rw3 = replaced
  simp only [BitVec.getLsbD_and, BitVec.getLsbD_or, BitVec.getLsbD_not, hi, decide_true, Bool.true_and]
  cases replaced.getLsbD i with
  | true =>
    -- A 1 written is never cleared, and a 0 stays one.
    cases w.getLsbD i <;> simp
  | false => cases (r.mask .wz).getLsbD i && !w.getLsbD i && !(s.cell r).mark.getLsbD i <;> simp

theorem State.setVal_sameRegs {s : State} (h : rising s.regs = true) (r : Reg) (w : Word) : s.sameRegs (s.setVal r w) [r.key] :=
  fun _ hx => State.cell_setCell_other s h _ fun hk => hx (List.mem_singleton.mpr hk)

end Sys2Proof.Machine
end

section
/-! The sequence-table window (R199): four bytes of the table, of which a VF leaves PARTITION and VALID of its entries. -/

namespace Sys2Proof.Machine

theorem seqTab_wf_of_wf {s : State} (w : s.Wf) : memWf s.seqTab = true := by
  have := w.1
  simp_all [State.memsWf]

@[simp] theorem rdBytes_length (m : Mem) (a n : Nat) : (rdBytes m a n).length = n := by
  induction n generalizing a with
  | zero => rfl
  | succ n ih => simp [rdBytes, ih]

theorem leNat_lt (l : List Byte) : leNat l < 256 ^ l.length := by
  induction l with
  | nil => simp [leNat]
  | cons b t ih =>
    have hb := b.isLt
    simp only [leNat, List.length_cons, Nat.pow_succ]
    omega

theorem natLe_leNat (l : List Byte) : natLe l.length (leNat l) = l := by
  induction l with
  | nil => rfl
  | cons b t ih =>
    have hb := b.isLt
    have hlow : BitVec.ofNat 8 (b.toNat + 256 * leNat t) = b := by
      apply BitVec.eq_of_toNat_eq
      rw [BitVec.toNat_ofNat]
      omega
    have hhigh : (b.toNat + 256 * leNat t) / 256 = leNat t := by omega
    rw [List.length_cons, leNat, natLe, hlow, hhigh, ih]

/-- A word read from a memory is its four bytes again. -/
theorem natLe_rdNat_word (m : Mem) (a : Nat) : natLe 4 (BitVec.ofNat 32 (rdNat m a 4)).toNat = rdBytes m a 4 := by
  have hlt := leNat_lt (rdBytes m a 4)
  have hback := natLe_leNat (rdBytes m a 4)
  rw [rdBytes_length] at hlt hback
  rw [BitVec.toNat_ofNat, rdNat, Nat.mod_eq_of_lt (by simpa using hlt), hback]

/-- The function sees the entry whose PARTITION is its number; the PF sees all of them. -/
theorem State.seqSees_iff (s : State) (fn : FnId) (o : Nat) :
    s.seqSees fn o = true ↔ fn = 0 ∨ (rd s.seqTab (s.seqAt fn o / 64 * 64 + 37)).toNat % 32 = fn.val := by
  simp only [State.seqSees, Bool.or_eq_true, beq_iff_eq, Fin.val_eq_zero_iff]

/-- The bits of a word that a function's write leaves: PARTITION and VALID, through a VF. -/
def seqFixed (fn o : Nat) : Word := if fn ≠ 0 ∧ o % 64 = 36 then 0x00011F00 else 0

/-- The word that stands in the table after a write of w. -/
def State.seqStored (s : State) (fn o : Nat) (w : Word) : Word :=
  (w &&& ~~~seqFixed fn o) ||| (BitVec.ofNat 32 (rdNat s.seqTab (s.seqAt fn o) 4) &&& seqFixed fn o)

theorem State.writeSeq_hidden {s : State} {fn o : Nat} (h : s.seqSees fn o = false) (w : Word) : s.writeSeq fn o w = s := by
  simp [State.writeSeq, h]

theorem State.writeSeq_seqTab {s : State} {fn o : Nat} (h : s.seqSees fn o = true) (w : Word) :
    (s.writeSeq fn o w).seqTab = wrCells s.seqTab (cellsAt (s.seqAt fn o) (natLe 4 (s.seqStored fn o w).toNat)) := by
  simp [State.writeSeq, h, State.seqStored, seqFixed]

theorem State.writeSeq_frame (s : State) (fn o : Nat) (w : Word) :
    s.writeSeq fn o w = { s with seqTab := (s.writeSeq fn o w).seqTab, poison := (s.writeSeq fn o w).poison } := by
  unfold State.writeSeq
  split <;> rfl

/-- The four bytes that the window shows are those of the stored word. -/
theorem State.writeSeq_bytes {s : State} (wf : s.Wf) {fn o : Nat} (h : s.seqSees fn o = true) (w : Word) :
    rdBytes (s.writeSeq fn o w).seqTab (s.seqAt fn o) 4 = natLe 4 (s.seqStored fn o w).toNat := by
  have hread := rdBytes_wrCells (natLe 4 (s.seqStored fn o w).toNat) s.seqTab (s.seqAt fn o) (seqTab_wf_of_wf wf)
  rwa [natLe_length, ← State.writeSeq_seqTab h] at hread

theorem State.writeSeq_other {s : State} (wf : s.Wf) (fn o : Nat) (w : Word) {a : Nat}
    (ha : a < s.seqAt fn o ∨ s.seqAt fn o + 4 ≤ a) : rd (s.writeSeq fn o w).seqTab a = rd s.seqTab a := by
  cases h : s.seqSees fn o with
  | false => rw [State.writeSeq_hidden h]
  | true =>
    rw [State.writeSeq_seqTab h]
    refine rd_wrCells_other _ _ (seqTab_wf_of_wf wf) fun c hc => ?_
    have hkey := mem_cellsAt _ _ hc
    rw [natLe_length] at hkey
    omega

/-- No bit of the word is fixed for the PF, nor outside word 36 of an entry. -/
theorem State.seqStored_free {fn o : Nat} (h : fn = 0 ∨ o % 64 ≠ 36) (s : State) (w : Word) : s.seqStored fn o w = w := by
  have hfree : seqFixed fn o = 0 := if_neg fun hvf => h.elim hvf.1 fun ho => ho hvf.2
  rw [State.seqStored, hfree]
  change (w &&& BitVec.allOnes 32) ||| (_ &&& 0#32) = w
  rw [BitVec.and_zero, BitVec.or_zero, BitVec.and_allOnes]

theorem State.seqStored_fixed {fn o : Nat} (hfn : fn ≠ 0) (ho : o % 64 = 36) (s : State) (w : Word) :
    s.seqStored fn o w = (w &&& 0xFFFEE0FF) ||| (BitVec.ofNat 32 (rdNat s.seqTab (s.seqAt fn o) 4) &&& 0x00011F00) := by
  have hfixed : seqFixed fn o = 0x00011F00 := if_pos ⟨hfn, ho⟩
  rw [State.seqStored, hfixed]
  rfl

/-- The window has no stored bits of its own and none that the test port sets: it shows the table. -/
theorem State.readVal_seqWord {s : State} {o : Nat} (h : s.val (.seqWord o) = 0) (fn : Nat) :
    s.readVal fn (.seqWord o) =
      if s.seqSees fn o then BitVec.ofNat 32 (rdNat s.seqTab (s.seqAt fn o) 4) else 0 := by
  have hrk : (Reg.seqWord o).mask .rk = 0 := rfl
  simp only [State.readVal, State.testBits, State.liveOf, h, hrk]
  split <;> simp

/-- Settles O16: from what a write that is taken applies, bit by bit, and what the window's write and read do. -/
theorem plainWriteReplacesFields : Obligations.PlainWriteReplacesFields := by
  unfold Obligations.PlainWriteReplacesFields
  refine ⟨fun fn r w s wf h hplain => ?_, fun fn o w s wf hu hval => ⟨fun h => ?_, fun h => ?_⟩⟩
  · refine ⟨_, exec_registerWrite_taken h, ?_⟩
    rw [State.applyWrite_plain hplain]
    refine ⟨fun i hi => ?_, State.mark_setVal s wf.regs r _, State.setVal_sameRegs wf.regs r _, rfl⟩
    rw [State.val_setVal_same s wf.regs, State.merged_bit s r w hi]
  · refine ⟨s.writeSeq fn o w, exec_registerWrite_taken h, fun hfree => ?_, fun hfn ho hpart => ?_,
      fun a => State.writeSeq_other wf fn o w, fun hfn hpart => ?_, s.writeSeq_frame fn o w⟩
    · have hsees : s.seqSees fn o = true := (s.seqSees_iff fn o).mpr (hfree.imp_right And.right)
      rw [State.writeSeq_bytes wf hsees, State.seqStored_free]
      exact hfree.imp (fun h0 => by rw [h0]; rfl) And.left
    · have hsees : s.seqSees fn o = true := (s.seqSees_iff fn o).mpr (.inr hpart)
      rw [State.writeSeq_bytes wf hsees, State.seqStored_fixed (Fin.val_ne_zero_iff.mpr hfn) ho]
    · have hhidden : ¬ s.seqSees fn o = true := fun hsees => ((s.seqSees_iff fn o).mp hsees).elim hfn hpart
      exact State.writeSeq_hidden (Bool.eq_false_iff.mpr hhidden) w
  · refine ⟨_, exec_wzRegisterRead_reached h hu rfl 0xF, ?_⟩
    rw [State.showData_data, enabledBytes_all, State.readVal_seqWord hval]
    simp only [s.seqSees_iff fn o]
    split
    · exact natLe_rdNat_word ..
    · rfl

end Sys2Proof.Machine
end

section
/-! Tiles of a range of bytes (R257, R258): a tile is a power of two of bytes within one granule, and the tiles of a range
are those of its bytes. -/

namespace Sys2Proof.Machine

theorem State.Wf.dir {s : State} (w : s.Wf) : rising s.dir = true := by
  have := w.2
  simp_all [State.tablesWf]

theorem State.Wf.gran {s : State} (w : s.Wf) : rising s.gran = true := by
  have := w.2
  simp_all [State.tablesWf]

theorem State.Wf.fns {s : State} (w : s.Wf) : rising s.fns = true := by
  have := w.2
  simp_all [State.tablesWf]

theorem State.tileBytes_cases (s : State) (g : Nat) :
    s.tileBytes g = 8192 ∨ s.tileBytes g = 32768 ∨ s.tileBytes g = 131072 := by
  unfold State.tileBytes
  split <;> simp

/-- Bytes of the tile that holds an offset. -/
def State.tileSize (s : State) (off : Nat) : Nat := (s.tileOf off).2

theorem State.tileSize_cases (s : State) (off : Nat) :
    s.tileSize off = 8192 ∨ s.tileSize off = 32768 ∨ s.tileSize off = 131072 := by
  unfold State.tileSize State.tileOf
  split
  · exact .inl rfl
  · exact s.tileBytes_cases _

theorem State.tileOf_eq (s : State) (off : Nat) : s.tileOf off = (off - off % s.tileSize off, s.tileSize off) := by
  unfold State.tileSize State.tileOf
  split <;> rfl

/-- Every byte of a tile names the same tile. -/
theorem State.tileOf_of_mem (s : State) {x pos : Nat} (hlo : (s.tileOf pos).1 ≤ x)
    (hhi : x < (s.tileOf pos).1 + (s.tileOf pos).2) : s.tileOf x = s.tileOf pos := by
  rw [s.tileOf_eq pos] at hlo hhi
  dsimp only at hlo hhi
  have hgran : x / 2 ^ 30 = pos / 2 ^ 30 := by obtain h | h | h := s.tileSize_cases pos <;> rw [h] at hlo hhi <;> omega
  have hsize : s.tileSize x = s.tileSize pos := by
    unfold State.tileSize State.tileOf granuleOf
    rw [hgran]
    split <;> rfl
  rw [s.tileOf_eq x, s.tileOf_eq pos, hsize]
  congr 1
  obtain h | h | h := s.tileSize_cases pos <;> rw [h] at hlo hhi ⊢ <;> omega

/-- Where fuel for the range's 8 KiB pieces is left, the tiles listed are those of the bytes. -/
theorem State.mem_tilesFrom (s : State) {n pos stop : Nat} (hfuel : stop ≤ pos / 8192 * 8192 + 8192 * n) (tile : Nat) :
    tile ∈ s.tilesFrom n pos stop ↔ ∃ x, pos ≤ x ∧ x < stop ∧ (s.tileOf x).1 = tile := by
  induction n generalizing pos with
  | zero =>
    simp only [State.tilesFrom, List.not_mem_nil, false_iff]
    rintro ⟨x, hlo, hhi, -⟩
    omega
  | succ n ih =>
    unfold State.tilesFrom
    split
    · simp only [List.not_mem_nil, false_iff]
      rintro ⟨x, hlo, hhi, -⟩
      omega
    · rename_i hpos
      -- The next tile begins at a multiple of 8 KiB above this position.
      have hnext : pos < (s.tileOf pos).1 + (s.tileOf pos).2 ∧
          stop ≤ ((s.tileOf pos).1 + (s.tileOf pos).2) / 8192 * 8192 + 8192 * n := by
        rw [s.tileOf_eq pos]
        dsimp only
        obtain h | h | h := s.tileSize_cases pos <;> rw [h] <;> omega
      rw [List.mem_cons, ih hnext.2]
      constructor
      · rintro (rfl | ⟨x, hlo, hhi, htile⟩)
        · exact ⟨pos, Nat.le_refl _, by omega, rfl⟩
        · exact ⟨x, by omega, hhi, htile⟩
      · rintro ⟨x, hlo, hhi, rfl⟩
        by_cases hx : x < (s.tileOf pos).1 + (s.tileOf pos).2
        · have hbase : (s.tileOf pos).1 ≤ pos := by
            rw [s.tileOf_eq pos]
            exact Nat.sub_le ..
          exact .inl (congrArg Prod.fst (s.tileOf_of_mem (by omega) hx))
        · exact .inr ⟨x, by omega, hhi, rfl⟩

theorem State.mem_tilesOf (s : State) (off len tile : Nat) :
    tile ∈ s.tilesOf off len ↔ ∃ k < len, (s.tileOf (off + k)).1 = tile := by
  rw [State.tilesOf, s.mem_tilesFrom (by omega)]
  constructor
  · rintro ⟨x, hlo, hhi, h⟩
    exact ⟨x - off, by omega, by rwa [Nat.add_sub_cancel' hlo]⟩
  · rintro ⟨k, hk, h⟩
    exact ⟨off + k, by omega, by omega, h⟩

end Sys2Proof.Machine
end

section
/-! What a read touches (R262, R267). -/

namespace Sys2Proof.Machine

/-- A tile's entry after an access that near memory serves; in FILLING and MOVING_UP it does not. -/
def DirEntry.touchedAt (now : Nat) (e : DirEntry) : DirEntry :=
  match e.st with
  | .filling | .movingUp => e
  | .copy | .near | .movingDown | .cleaning => { e with touch := now }

theorem DirEntry.touchedAt_served {e : DirEntry} (hf : e.st ≠ .filling) (hu : e.st ≠ .movingUp) (now : Nat) :
    e.touchedAt now = { e with touch := now } := by
  unfold DirEntry.touchedAt
  split <;> simp_all

theorem DirEntry.touchedAt_other {e : DirEntry} (h : e.st = .filling ∨ e.st = .movingUp) (now : Nat) : e.touchedAt now = e := by
  unfold DirEntry.touchedAt
  split <;> simp_all

@[simp] theorem DirEntry.touchedAt_touchedAt (e : DirEntry) (now : Nat) : (e.touchedAt now).touchedAt now = e.touchedAt now := by
  by_cases h : e.st = .filling ∨ e.st = .movingUp
  · rw [DirEntry.touchedAt_other h, DirEntry.touchedAt_other h]
  · obtain ⟨hf, hu⟩ := not_or.mp h
    rw [DirEntry.touchedAt_served hf hu]
    exact DirEntry.touchedAt_served (e := { e with touch := now }) hf hu now

theorem State.touch_eq (s : State) (tile : Nat) : ∃ d, s.touch tile = { s with dir := d } := by
  unfold State.touch
  split
  · exact ⟨_, rfl⟩
  · split <;> exact ⟨_, rfl⟩

/-- A touch of a listed tile keeps its entry, or sets it. -/
theorem State.touch_cases {s : State} {tile : Nat} {e : DirEntry} (he : s.dirEntry tile = some e) :
    s.touch tile = s ∧ e.touchedAt s.touchTime = e ∨ s.touch tile = s.setDir tile (some (e.touchedAt s.touchTime)) := by
  simp only [State.touch, he, DirEntry.touchedAt]
  cases e.st <;> simp

theorem State.dirEntry_touch {s : State} (h : rising s.dir = true) (tile a : Nat) :
    (s.touch tile).dirEntry a = if a = tile then (s.dirEntry a).map (DirEntry.touchedAt s.touchTime) else s.dirEntry a := by
  cases he : s.dirEntry tile with
  | none =>
    have hkeep : s.touch tile = s := by simp only [State.touch, he]
    rw [hkeep]
    split <;> simp_all
  | some e =>
    obtain ⟨hkeep, hsame⟩ | hset := State.touch_cases he
    · rw [hkeep]
      split <;> simp_all
    · rw [hset, State.dirEntry_setDir s h]
      split <;> simp_all

theorem State.touchAll_eq (s : State) (l : List Nat) : ∃ d, l.foldl State.touch s = { s with dir := d } :=
  List.foldlRecOn (motive := fun t : State => ∃ d, t = { s with dir := d }) l State.touch ⟨s.dir, rfl⟩ fun t ⟨d, hd⟩ tile _ => by
    obtain ⟨d', hd'⟩ := t.touch_eq tile
    exact ⟨d', by rw [hd', hd]⟩

theorem State.dirEntry_touchAll {s : State} (w : s.Wf) (l : List Nat) (a : Nat) :
    (l.foldl State.touch s).dirEntry a =
      if a ∈ l then (s.dirEntry a).map (DirEntry.touchedAt s.touchTime) else s.dirEntry a := by
  induction l generalizing s with
  | nil => simp
  | cons tile rest ih =>
    have hnow : (s.touch tile).touchTime = s.touchTime := by
      obtain ⟨d, hd⟩ := s.touch_eq tile
      rw [hd]
      rfl
    rw [List.foldl_cons, ih ((State.touch_kept (Kept.refl s) tile).wf w), hnow, State.dirEntry_touch w.dir]
    by_cases ha : a = tile
    · -- Touched here, and perhaps once more by the rest.
      subst ha
      by_cases hr : a ∈ rest <;> simp [hr, Function.comp_def]
    · simp [ha]

/-- A read of a range changes the directories alone. -/
theorem State.touchRange_eq {s : State} (hu : s.upset = false) (off len : Nat) :
    ∃ d, s.touchRange off len = { s with dir := d } := by
  rw [State.touchRange, State.useStacks_calm hu]
  exact s.touchAll_eq _

theorem State.dirEntry_touchRange {s : State} (w : s.Wf) (hu : s.upset = false) (off len a : Nat) :
    (s.touchRange off len).dirEntry a =
      if ∃ k < len, (s.tileOf (off + k)).1 = a then (s.dirEntry a).map (DirEntry.touchedAt s.touchTime) else s.dirEntry a := by
  simp only [← s.mem_tilesOf]
  rw [State.touchRange, State.useStacks_calm hu]
  exact State.dirEntry_touchAll w _ a

/-- An entry that a read changes is of a tile of the range that near memory serves. -/
theorem State.dirEntry_touchRange_cases {s : State} (w : s.Wf) (hu : s.upset = false) (off len a : Nat) :
    (s.touchRange off len).dirEntry a = s.dirEntry a ∨
      ∃ k e, k < len ∧ a = (s.tileOf (off + k)).1 ∧ s.dirEntry a = some e ∧ e.st ≠ .filling ∧ e.st ≠ .movingUp := by
  rw [State.dirEntry_touchRange w hu]
  split
  · rename_i h
    obtain ⟨k, hk, htile⟩ := h
    cases he : s.dirEntry a with
    | none => exact .inl rfl
    | some e =>
      by_cases hst : e.st = .filling ∨ e.st = .movingUp
      · exact .inl (by rw [Option.map_some, DirEntry.touchedAt_other hst])
      · obtain ⟨hf, hup⟩ := not_or.mp hst
        exact .inr ⟨k, e, hk, htile.symm, rfl, hf, hup⟩
  · exact .inl rfl

/-- TILE_READ that is admitted shows the bytes and touches the range. -/
theorem exec_tileRead_admitted {p : PartId} {off len : Nat} {s : State} (hu : s.upset = false) (ha : s.admitted p off len = true) :
    exec (.tileRead p off len) s =
      .next { s.touchRange off len with
        out := { s.out with data := rdBytes s.mem off len, poisoned := s.poisoned off len } } := by
  obtain ⟨d, hd⟩ := State.touchRange_eq hu off len
  change execTileRead p off len s = _
  rw [execTileRead, State.usePart_calm hu, State.useStacks_calm hu]
  simp only [ha, hd]
  rfl

/-- Settles O8: from what a read of a range touches. -/
theorem tileReadReturnsHomeBytes : Obligations.TileReadReturnsHomeBytes := by
  unfold Obligations.TileReadReturnsHomeBytes
  intro p off len s w hu ha
  obtain ⟨d, hd⟩ := State.touchRange_eq hu off len
  refine ⟨_, exec_tileRead_admitted hu ha, rfl, rfl, by rw [hd], fun k e hk he hf hup => ?_,
    State.dirEntry_touchRange_cases w hu off len⟩
  refine (State.dirEntry_touchRange w hu off len _).trans ?_
  rw [if_pos ⟨k, hk, rfl⟩, he, Option.map_some, DirEntry.touchedAt_served hf hup]

end Sys2Proof.Machine
end

section
/-! Promotions that find their units free (R262, R266, R269). -/

namespace Sys2Proof.Machine

theorem State.obtain_free {s : State} {w : PromoWait} (n : Nat)
    (hown : s.occupancy w.part + (s.tileOf w.tile).2 / 8192 ≤ s.ceiling w.part)
    (hfree : (s.tileOf w.tile).2 / 8192 ≤ s.freeUnits (halfOf w.tile)) :
    State.obtain (n + 1) s w = (s.startPromote w.tile (s.tileOf w.tile).2 w.p3, none) := by
  have hstart : (!decide (s.ceiling w.part < s.occupancy w.part + (s.tileOf w.tile).2 / unitBytes) &&
      decide ((s.tileOf w.tile).2 / unitBytes ≤ s.freeUnits (halfOf w.tile))) = true := by
    simp [unitBytes, Nat.not_lt.mpr hown, hfree]
  rw [State.obtain]
  exact if_pos hstart

theorem State.promote_noCeiling {s : State} {tile : Nat} {p3 : Bool} (hu : s.upset = false) (hd : s.dirEntry tile = none)
    (hc : s.ceiling (s.tileOwner tile) = 0) : s.promote tile p3 = s := by
  simp [State.promote, hd, hu, hc]

theorem State.promote_free {s : State} {tile : Nat} {p3 : Bool} (hu : s.upset = false) (hd : s.dirEntry tile = none)
    (hc : s.ceiling (s.tileOwner tile) ≠ 0) (hw : (s.promos.any fun w => w.tile == tile) = false)
    (hown : s.occupancy (s.tileOwner tile) + (s.tileOf tile).2 / 8192 ≤ s.ceiling (s.tileOwner tile))
    (hfree : (s.tileOf tile).2 / 8192 ≤ s.freeUnits (halfOf tile)) :
    s.promote tile p3 = s.startPromote tile (s.tileOf tile).2 p3 := by
  simp [State.promote, hd, hu, hc, hw, State.obtain_free, hown, hfree]

/-- A promotion that starts. -/
theorem State.dirEntry_startPromote {s : State} (h : rising s.dir = true) (tile size : Nat) (p3 : Bool) :
    ∃ e, (s.startPromote tile size p3).dirEntry tile = some e ∧ e.st = (if s.tileRo tile then .filling else .movingUp) ∧
      e.owner = s.tileOwner tile ∧ e.touch = s.touchTime ∧ e.p3 = p3 ∧ e.held = [] :=
  ⟨_, (State.dirEntry_setDir s h tile _ tile).trans (if_pos rfl), rfl, rfl, rfl, rfl, rfl⟩

theorem State.dirEntry_startPromote_other {s : State} (h : rising s.dir = true) {tile a : Nat} (size : Nat) (p3 : Bool)
    (ha : a ≠ tile) : (s.startPromote tile size p3).dirEntry a = s.dirEntry a :=
  (State.dirEntry_setDir s h tile _ a).trans (if_neg ha)

theorem exec_tilePromote_admitted {p : PartId} {off : Nat} {p3 : Bool} {s : State} (hu : s.upset = false)
    (ha : s.admitted p off 1 = true) : exec (.tilePromote p off p3) s = .next (s.promote (s.tileOf off).1 p3) := by
  change execTilePromote p off p3 s = _
  simp [execTilePromote, hu, ha]

/-- A waiting promotion that awaits no victim tries again. -/
theorem State.retryPromo_free {s : State} {w : PromoWait} (hv : w.victim = none)
    (hown : s.occupancy w.part + (s.tileOf w.tile).2 / 8192 ≤ s.ceiling w.part)
    (hfree : (s.tileOf w.tile).2 / 8192 ≤ s.freeUnits (halfOf w.tile)) :
    s.retryPromo w = (s.startPromote w.tile (s.tileOf w.tile).2 w.p3, none) := by
  simp [State.retryPromo, hv, State.obtain_free, hown, hfree]

/-- Settles O11: from the promotion that finds its units free. -/
theorem promoteStartsCopyOrMove : Obligations.PromoteStartsCopyOrMove := by
  unfold Obligations.PromoteStartsCopyOrMove
  refine ⟨fun p off p3 s wf hu ha hd => ⟨fun hc => ?_, fun hc hw hown hfree => ?_⟩, fun off w s hl hu hw hflush hv hown hfree => ?_⟩
  · rw [exec_tilePromote_admitted hu ha, State.promote_noCeiling hu hd hc]
  · obtain ⟨e, he, hst, howner, htouch, hp3, hheld⟩ :=
      State.dirEntry_startPromote wf.dir (s.tileOf off).1 (s.tileOf (s.tileOf off).1).2 p3
    refine ⟨_, e, exec_tilePromote_admitted hu ha, ?_⟩
    rw [State.promote_free hu hd hc hw hown hfree]
    exact ⟨he, hst, howner, htouch, hp3, hheld, fun a => State.dirEntry_startPromote_other wf.dir _ p3, rfl⟩
  · change execPromotionUnits off s = _
    simp only [execPromotionUnits, hw, hl, hflush, State.use_calm hu, State.retryPromo_free hv hown hfree]
    rfl

end Sys2Proof.Machine
end

section
/-! GRANULE_WRITE (R253). -/

namespace Sys2Proof.Machine

theorem State.evictTile_eq (s : State) (tile : Nat) : ∃ d, s.evictTile tile = { s with dir := d } := by
  unfold State.evictTile
  split
  · exact ⟨_, rfl⟩
  · split <;> exact ⟨_, rfl⟩

theorem State.evacuate_eq (s : State) (l : List (Nat × DirEntry)) : ∃ d, s.evacuate l = { s with dir := d } :=
  List.foldlRecOn (motive := fun t : State => ∃ d, t = { s with dir := d }) l _ ⟨s.dir, rfl⟩ fun t ⟨d, hd⟩ x _ => by
    obtain ⟨d', hd'⟩ := t.evictTile_eq x.1
    exact ⟨d', by rw [hd', hd]⟩

/-- What a changed MEM_GRAN starts: the flush, and what is to follow it. -/
def State.flushFor (s : State) (g : Nat) (w : Word) : GranProc :=
  { flush := true
    scrub := false
    needScrub := (s.granProc g).needScrub ||
      (fld (s.val (.memGran g)) 9 9 != fld w 9 9 || fld (s.val (.memGran g)) 4 0 != fld w 4 0)
    clearClass := (s.granProc g).clearClass || (fld (s.val (.memGran g)) 11 10 != fld w 11 10 ||
      (fld (s.val (.memGran g)) 13 12 != fld w 13 12 && fld w 13 12 == 2)) }

theorem State.granApply_same {s : State} {g : Nat} {w : Word} (h : w = s.val (.memGran g)) :
    s.granApply g w = s.setVal (.memGran g) w := if_pos h.symm

theorem State.granApply_changed {s : State} {g : Nat} {w : Word} (h : w ≠ s.val (.memGran g)) :
    ∃ d, s.granApply g w = { (s.setVal (.memGran g) w).setGranProc g (s.flushFor g w) with dir := d } := by
  obtain ⟨d, hd⟩ := ((s.setVal (.memGran g) w).setGranProc g (s.flushFor g w)).evacuate_eq
    (((s.setVal (.memGran g) w).setGranProc g (s.flushFor g w)).granTiles g)
  exact ⟨d, (if_neg h.symm).trans hd⟩

/-- GRANULE_WRITE that is taken applies the value. -/
theorem exec_granuleWrite_taken {fn : FnId} {g : GranId} {w : Word} {s : State} (h : Taken s fn (.memGran g) w) :
    exec (.granuleWrite fn g w) s = .next (s.granApply g (s.merged (.memGran g) w)) :=
  exec_registerWrite_taken h

/-- The write of a granule's register: the registers as a plain write leaves them, and nothing beside registers,
flushes and directories. -/
theorem State.granApply_frame (s : State) (g : Nat) (w : Word) :
    (s.granApply g w).regs = (s.setVal (.memGran g) w).regs ∧
      s.granApply g w = { s with regs := (s.granApply g w).regs, gran := (s.granApply g w).gran, dir := (s.granApply g w).dir } := by
  by_cases h : w = s.val (.memGran g)
  · rw [State.granApply_same h]
    exact ⟨rfl, rfl⟩
  · obtain ⟨d, hd⟩ := State.granApply_changed h
    rw [hd]
    exact ⟨rfl, rfl⟩

theorem State.val_granApply {s : State} (wf : s.Wf) (g : Nat) (w : Word) : (s.granApply g w).val (.memGran g) = w :=
  (State.val_congr (s.granApply_frame g w).1 _).trans (State.val_setVal_same s wf.regs _ w)

theorem State.cell_congr {s t : State} (h : t.regs = s.regs) (r : Reg) : t.cell r = s.cell r := by
  simp only [State.cell, h]

theorem State.granApply_sameRegs {s : State} (wf : s.Wf) (g : Nat) (w : Word) :
    s.sameRegs (s.granApply g w) [(Reg.memGran g).key] := fun r hr =>
  (State.cell_congr (s.granApply_frame g w).1 r).trans (State.setVal_sameRegs wf.regs (.memGran g) w r hr)

theorem State.granProc_granApply {s : State} (wf : s.Wf) {g : Nat} {w : Word} (h : w ≠ s.val (.memGran g)) (k : Nat) :
    (s.granApply g w).granProc k = if k = g then s.flushFor g w else s.granProc k := by
  obtain ⟨d, hd⟩ := State.granApply_changed h
  rw [hd]
  exact State.granProc_setGranProc (s.setVal (.memGran g) w) wf.gran g _ k

theorem State.granProc_granApply_other {s : State} (wf : s.Wf) {g k : Nat} (w : Word) (hk : k ≠ g) :
    (s.granApply g w).granProc k = s.granProc k := by
  by_cases h : w = s.val (.memGran g)
  · rw [State.granApply_same h, State.setVal_get_granProc]
  · rw [State.granProc_granApply wf h, if_neg hk]

end Sys2Proof.Machine
end

section
/-! FLUSH_DONE and SCRUB_DONE (R253). -/

namespace Sys2Proof.Machine

/-- An offset that lies outside granule g, which a scrub of it leaves. -/
def besideGranule (g x : Nat) : Bool := !(decide (granBase g ≤ x) && decide (x < granBase g + 2 ^ 30))

theorem besideGranule_iff (g x : Nat) : besideGranule g x = true ↔ x < granBase g ∨ granBase g + 2 ^ 30 ≤ x := by
  simp [besideGranule]

/-- An offset lies in the granule where its 256 bytes begin there. -/
theorem besideGranule_poison (g a : Nat) : besideGranule g (a / 256 * 256) = besideGranule g a := by
  have hbase : granBase g % 256 = 0 := by
    unfold granBase
    omega
  rw [Bool.eq_iff_iff, besideGranule_iff, besideGranule_iff]
  omega

theorem tget_filter_from {α : Type} (d : α) (f : Nat → Bool) (k : Nat) :
    ∀ (m : SMap α) (lo : Nat), risingFrom lo m = true → tget (m.filter fun x => f x.1) d k = if f k then tget m d k else d
  | [], _, _ => by simp
  | (k', v) :: t, lo, w => by
    have hrest := risingFrom_filter (fun x => f x.1) t (k' + 1)
    simp only [risingFrom, Bool.and_eq_true, decide_eq_true_eq] at w
    have ih := tget_filter_from d f k t (k' + 1) w.2
    rw [List.filter_cons]
    by_cases hk : k = k'
    · subst hk
      cases hf : f k with
      | true => simp [tget]
      | false => simpa [hf] using tget_below d (Nat.lt_succ_self k) _ (hrest w.2)
    · by_cases hlt : k < k'
      · have hbelow := tget_below d (show k < k' + 1 by omega) _ (hrest w.2)
        split <;> simp [tget, hk, hlt, hbelow]
      · split <;> simp [tget, hk, hlt, ih]

/-- Bytes kept by their address. -/
theorem rd_filter {m : Mem} (h : memWf m = true) (f : Nat → Bool) (a : Nat) :
    rd (m.filter fun c => f c.1) a = if f a then rd m a else 0 :=
  tget_filter_from 0 f a m 0 (rising_of_memWf h)

theorem contains_filter (l : List Nat) (f : Nat → Bool) (a : Nat) : (l.filter f).contains a = (l.contains a && f a) := by
  rw [Bool.eq_iff_iff]
  simp

/-- The granule scrubbed. -/
def State.scrubbed (s : State) (g : Nat) : State :=
  { s with
    mem := s.mem.filter fun c => besideGranule g c.1
    classBits := s.classBits.filter (besideGranule g)
    poison := s.poison.filter fun x => besideGranule g (x * 256) }.setGranProc g gran0

theorem exec_scrubDone {g : GranId} {s : State} (hl : s.live = true) (hs : (s.granProc g).scrub = true) :
    exec (.scrubDone g) s = .next (s.scrubbed g).pumpAll := by
  change execScrubDone g s = _
  simp only [execScrubDone, hl, hs]
  rfl

theorem exec_flushDone {g : GranId} {s : State} (hl : s.live = true) (hf : (s.granProc g).flush = true)
    (ht : s.granTiles g = []) (hc : (s.granProc g).clearClass = false) :
    exec (.flushDone g) s = .next (s.setGranProc g
      (if (s.granProc g).needScrub then { s.granProc g with flush := false, scrub := true } else gran0)).pumpAll := by
  change execFlushDone g s = _
  simp only [execFlushDone, hl, hf, ht, hc]
  rfl

theorem State.granProc_scrubbed {s : State} (wf : s.Wf) (g k : Nat) :
    (s.scrubbed g).granProc k = if k = g then gran0 else s.granProc k :=
  State.granProc_setGranProc _ wf.gran g gran0 k

theorem State.rd_scrubbed {s : State} (wf : s.Wf) (g a : Nat) :
    rd (s.scrubbed g).mem a = if besideGranule g a then rd s.mem a else 0 := rd_filter (memWf_of_wf wf) _ a

theorem State.classBits_scrubbed (s : State) (g a : Nat) :
    (s.scrubbed g).classBits.contains a = (s.classBits.contains a && besideGranule g a) := contains_filter _ _ a

theorem State.poison_scrubbed (s : State) (g a : Nat) :
    (s.scrubbed g).poison.contains (a / 256) = (s.poison.contains (a / 256) && besideGranule g a) := by
  rw [← besideGranule_poison g a]
  exact contains_filter _ (fun x => besideGranule g (x * 256)) _

/-- Settles O14: from what a granule's register, the end of a flush and a scrub leave. -/
theorem granuleIsFlushedThenScrubbed : Obligations.GranuleIsFlushedThenScrubbed := by
  unfold Obligations.GranuleIsFlushedThenScrubbed
  refine ⟨fun fn g w s wf h => ?_, fun g s wf hl => ⟨exec_flushDone hl, fun hs => ?_⟩⟩
  · obtain ⟨-, hframe⟩ := s.granApply_frame g (s.merged (.memGran g) w)
    refine ⟨_, exec_granuleWrite_taken h, State.val_granApply wf g _, State.granApply_sameRegs wf g _, fun hsame => ?_,
      fun hne => ?_, fun k => State.granProc_granApply_other wf _, by rw [hframe], hframe⟩
    · rw [State.granApply_same hsame]
      exact ⟨rfl, rfl⟩
    · rw [State.granProc_granApply wf hne, if_pos rfl]
      refine ⟨rfl, rfl, ?_⟩
      simp only [State.get, State.val_granApply wf, State.flushFor, Bool.or_assoc, bne_comm]
  · refine ⟨s.scrubbed g, exec_scrubDone hl hs, ?_, fun a hlo hhi => ?_, fun a ha => ?_, fun k hk => ?_, rfl⟩
    · rw [State.granProc_scrubbed wf, if_pos rfl]
    · have hin : besideGranule g a = false := by
        rw [Bool.eq_false_iff, Ne, besideGranule_iff]
        omega
      rw [State.rd_scrubbed wf, State.classBits_scrubbed, State.poison_scrubbed, hin]
      simp
    · have hout := (besideGranule_iff g a).mpr ha
      rw [State.rd_scrubbed wf, State.classBits_scrubbed, hout]
      simp
    · rw [State.granProc_scrubbed wf, if_neg hk]

end Sys2Proof.Machine
end

section
/-! Writes that land at once (R259, R262, R264): no tile of theirs moves, and no earlier write of their source waits. -/

namespace Sys2Proof.Machine

/-- The tile of an address takes a write of the source at once. -/
def State.takesNow (s : State) (src a : Nat) : Prop :=
  s.moving (s.tileOf a).1 = false ∧ ∀ w ∈ s.waitWrites, w.src = src → w.tile ≠ (s.tileOf a).1

theorem State.applyStore_eq (s : State) (cells : List Host.Cell) (bad : Bool) :
    ∃ l, s.applyStore cells bad = { s with mem := wrCells s.mem cells, poison := l } :=
  State.poisonAfter_eq { s with mem := wrCells s.mem cells } cells bad

theorem State.moving_iff (s : State) (a : Nat) :
    s.moving a = false ↔ ∀ e, s.dirEntry a = some e → e.st = .copy ∨ e.st = .near := by
  cases he : s.dirEntry a with
  | none => simp [State.moving, he]
  | some e =>
    simp only [State.moving, he, Option.some.injEq, forall_eq']
    cases e.st <;> decide

theorem State.moving_setDir {s : State} (h : rising s.dir = true) {tile a : Nat} {v : Option DirEntry}
    (hv : ∀ e, v = some e → e.st = .near) (ha : s.moving a = false) : (s.setDir tile v).moving a = false := by
  rw [State.moving_iff] at ha ⊢
  intro e he
  rw [State.dirEntry_setDir s h] at he
  split at he
  · exact .inr (hv e he)
  · exact ha e he

theorem applyOp_store {w : HeldWrite} {cells : List Host.Cell} (hop : w.op = .store cells) (near : Bool) (s : State) :
    applyOp near w s = s.applyStore cells w.bad := by
  simp only [applyOp, applyCells, hop]

/-- A store to a tile that does not move lands: a copy is dropped, a near tile stays near. -/
theorem State.writeNow_lands {s : State} (h : rising s.dir = true) {w : HeldWrite} {cells : List Host.Cell}
    (hop : w.op = .store cells) (hm : s.moving w.tile = false) :
    ∃ d l, s.writeNow w = { s with mem := wrCells s.mem cells, dir := d, poison := l } ∧
      ∀ a, s.moving a = false → (s.writeNow w).moving a = false := by
  have hlands : ∃ u near, s.writeNow w = applyOp near w u ∧ (∃ d, u = { s with dir := d }) ∧
      ∀ a, s.moving a = false → u.moving a = false := by
    unfold State.writeNow State.writeVia
    cases he : s.dirEntry w.tile with
    | none => exact ⟨s, false, rfl, ⟨_, rfl⟩, fun _ => id⟩
    | some e =>
      obtain hst | hst := (s.moving_iff _).mp hm e he
      · simp only [hst]
        exact ⟨_, false, rfl, ⟨_, rfl⟩, fun a => State.moving_setDir h (by simp)⟩
      · simp only [hst]
        exact ⟨_, true, rfl, ⟨_, rfl⟩, fun a => State.moving_setDir h (by simp)⟩
  obtain ⟨u, near, hw, ⟨d, hu⟩, hmove⟩ := hlands
  obtain ⟨l, hl⟩ := u.applyStore_eq cells w.bad
  rw [hw, applyOp_store hop, hl]
  exact ⟨d, l, by rw [hu], hmove⟩

/-- A store that nothing of its source precedes reaches its tile. -/
theorem State.dirWrite_lands {s : State} {w : HeldWrite} {cells : List Host.Cell} (hop : w.op = .store cells)
    (hm : s.moving w.tile = false) (hw : ∀ x ∈ s.waitWrites, x.src = w.src → x.tile ≠ w.tile) : s.dirWrite w = s.writeNow w := by
  have hafter : s.waitWrites.any w.after = false := by
    rw [List.any_eq_false]
    intro x hx
    have hne := hw x hx
    simp only [HeldWrite.after, hop]
    cases x.op <;> simpa [imp_not_comm] using hne
  simp [State.dirWrite, State.writeNow, State.dirVia, hm, hafter]

@[simp] theorem groupCells_flatten (cells : List Host.Cell) : (groupCells cells).flatten = cells := by
  induction cells with
  | nil => rfl
  | cons c t ih =>
    unfold groupCells
    split
    · rename_i h
      rw [h] at ih
      simp [← ih]
    · rename_i h
      rw [h] at ih
      simp [← ih]
    · rename_i h
      rw [h] at ih
      split <;> simp [← ih]

/-- One write of each group of cells, to the tile of its first. -/
def State.storeGroup (s : State) (src p : Nat) (bad : Bool) (tx : Option Nat) (g : List Host.Cell) : State :=
  match g with
  | [] => s
  | c :: _ => s.dirWrite { src := src, part := p, tile := (s.tileOf c.1).1, op := .store g, bad := bad, tx := tx }

theorem State.storeGroup_kept {s0 X : State} (h : Kept s0 X) (src p : Nat) (bad : Bool) (tx : Option Nat) (g : List Host.Cell) :
    Kept s0 (X.storeGroup src p bad tx g) := by
  cases g with
  | nil => exact h
  | cons c t => exact State.dirWrite_kept h _

theorem State.storeGroup_lands {s : State} (w : s.Wf) {src p : Nat} {bad : Bool} {tx : Option Nat} {g : List Host.Cell}
    (hnow : ∀ c ∈ g, s.takesNow src c.1) :
    ∃ d l, s.storeGroup src p bad tx g = { s with mem := wrCells s.mem g, dir := d, poison := l } ∧
      (s.storeGroup src p bad tx g).Wf ∧ ∀ a, s.takesNow src a → (s.storeGroup src p bad tx g).takesNow src a := by
  cases g with
  | nil => exact ⟨s.dir, s.poison, rfl, w, fun _ => id⟩
  | cons c t =>
    obtain ⟨hm, hw⟩ := hnow c (List.mem_cons_self ..)
    have hkept := (State.storeGroup_kept (Kept.refl s) src p bad tx (c :: t)).wf w
    have hdir : s.storeGroup src p bad tx (c :: t) = s.writeNow _ := State.dirWrite_lands rfl hm hw
    obtain ⟨d, l, heq, hmove⟩ := State.writeNow_lands w.dir (w := ⟨src, p, (s.tileOf c.1).1, .store (c :: t), bad, tx⟩) rfl hm
    refine ⟨d, l, hdir.trans heq, hkept, fun a ⟨ha, hwait⟩ => ?_⟩
    rw [hdir]
    have htile : ((s.writeNow ⟨src, p, (s.tileOf c.1).1, .store (c :: t), bad, tx⟩).tileOf a) = s.tileOf a := by
      rw [heq]
      rfl
    refine ⟨htile ▸ hmove _ ha, ?_⟩
    rw [htile, heq]
    exact hwait

theorem wrCells_append (m : Mem) (l k : List (Nat × Byte)) : wrCells m (l ++ k) = wrCells (wrCells m l) k := by
  induction l generalizing m with
  | nil => rfl
  | cons c t ih => exact ih (wr m c.1 c.2)

theorem State.storeGroups_land {s : State} (w : s.Wf) {src p : Nat} {bad : Bool} {tx : Option Nat} {l : List (List Host.Cell)}
    (hnow : ∀ g ∈ l, ∀ c ∈ g, s.takesNow src c.1) :
    ∃ d x, l.foldl (fun s g => s.storeGroup src p bad tx g) s = { s with mem := wrCells s.mem l.flatten, dir := d, poison := x } := by
  induction l generalizing s with
  | nil => exact ⟨s.dir, s.poison, rfl⟩
  | cons g rest ih =>
    obtain ⟨d, x, heq, hwf, hstill⟩ := State.storeGroup_lands w (p := p) (bad := bad) (tx := tx) (hnow g (by simp))
    obtain ⟨d', x', heq'⟩ := ih hwf fun g' hg c hc => hstill c.1 (hnow g' (by simp [hg]) c hc)
    refine ⟨d', x', ?_⟩
    rw [List.foldl_cons, heq', heq, List.flatten_cons, wrCells_append]

theorem State.storeCells_lands {s : State} (w : s.Wf) (hu : s.upset = false) {src p : Nat} {cells : List Host.Cell}
    (bad : Bool) (tx : Option Nat) (hnow : ∀ c ∈ cells, s.takesNow src c.1) :
    ∃ d x, s.storeCells src p cells bad tx = { s with mem := wrCells s.mem cells, dir := d, poison := x } := by
  unfold State.storeCells
  simp only [hu, Bool.false_eq_true, if_false]
  split
  · obtain ⟨x, hx⟩ := State.poisonAfter_eq { s with mem := wrCells s.mem cells } cells bad
    exact ⟨s.dir, x, hx⟩
  · obtain ⟨d, x, h⟩ := State.storeGroups_land w (p := p) (bad := bad) (tx := tx) (l := groupCells cells) fun g hg c hc =>
      hnow c (by rw [← groupCells_flatten cells]; exact List.mem_flatten_of_mem hg hc)
    rw [groupCells_flatten] at h
    exact ⟨d, x, h⟩

/-- Bytes beside a byte string written read as before. -/
theorem rd_wrCells_beside {m : Mem} (h : memWf m = true) {a x : Nat} {b : List Byte} (hx : x < a ∨ a + b.length ≤ x) :
    rd (wrCells m (cellsAt a b)) x = rd m x := by
  refine rd_wrCells_other _ m h fun c hc => ?_
  have := mem_cellsAt b a hc
  omega

/-- A store of bytes of which none is held or waits. -/
theorem State.storeBytes_lands {s : State} (w : s.Wf) (hu : s.upset = false) {src off : Nat} {b : List Byte}
    (hnow : s.writesNow src off b.length) (p : Nat) (bad : Bool) :
    ∃ d x, s.storeBytes src p 0 off b bad = { s with mem := wrCells s.mem (cellsAt off b), dir := d, poison := x } := by
  refine State.storeCells_lands w hu bad none fun c hc => ?_
  obtain ⟨hlo, hhi⟩ := mem_cellsAt b off hc
  have := hnow (c.1 - off) (by omega)
  rwa [Nat.add_sub_cancel' hlo] at this

end Sys2Proof.Machine
end

section
/-! BAR4_ACCESS (R380, R425). -/

namespace Sys2Proof.Machine

/-- An access that a function of a running vertex answers and that lies within its BAR4 (R375, R378). -/
structure Bar4Claimed (s : State) (fn off len : Nat) : Prop where
  answers : s.answersTo fn = true
  bytes : 0 < len
  runs : s.freeze.frozen = false
  fits : off + len ≤ 2 ^ (s.fn fn).barLog

/-- The offset of space 0 that an access through BAR4 reaches. -/
def State.bar4Addr (s : State) (fn off : Nat) : Nat :=
  ((s.val (.bar4Base fn true)).toNat * 2 ^ 32 + (s.val (.bar4Base fn false)).toNat + off) % 2 ^ 64

theorem exec_bar4Access_beyond {fn : FnId} {off : Nat} {d : List Byte} {s : State}
    (h : 2 ^ (s.fn fn).barLog < off + d.length) : exec (.bar4Access fn off d.length (some d)) s = .next s := by
  change execBar4Access fn off d.length (some d) s = _
  simp [execBar4Access, h]

section
variable {fn : FnId} {off len : Nat} {s : State} (h : Bar4Claimed s fn off len)
include h

/-- Out of recovery an access reaches the stacks: a read of its length, or a write of as many bytes. -/
theorem Bar4Claimed.exec_stacks {x : Option (List Byte)} (hx : ∀ d, x = some d → d.length = len)
    (hrec : s.boot.recovery = false) :
    exec (.bar4Access fn off len x) s = .next (s.bar4At false fn (s.bar4Addr fn off) len x) := by
  change execBar4Access fn off len x s = _
  cases x with
  | none => simp [execBar4Access, h.answers, Nat.not_lt.mpr h.fits, Nat.ne_of_gt h.bytes, h.runs, hrec, State.bar4Addr]
  | some d =>
    obtain rfl := hx d rfl
    simp [execBar4Access, h.answers, Nat.not_lt.mpr h.fits, List.length_pos_iff.mp h.bytes, h.runs, hrec, State.bar4Addr]

theorem Bar4Claimed.exec_bufferRead (hrec : s.boot.recovery = true) (hbuf : off + len ≤ 2 ^ 24) :
    exec (.bar4Access fn off len none) s = .next (s.showData (rdBytes s.boot.recBuf off len) false) := by
  change execBar4Access fn off len none s = _
  simp only [execBar4Access, h.answers, Nat.not_lt.mpr h.fits, Nat.ne_of_gt h.bytes, h.runs, hrec, hbuf]
  rfl

theorem Bar4Claimed.exec_bufferWrite {d : List Byte} (hd : d.length = len) (hrec : s.boot.recovery = true)
    (hbuf : off + len ≤ 2 ^ 24) (hgo : s.boot.going = false) :
    exec (.bar4Access fn off len (some d)) s =
      .next { s with boot := { s.boot with recBuf := wrCells s.boot.recBuf (cellsAt off d) } } := by
  change execBar4Access fn off len (some d) s = _
  simp only [execBar4Access, hd, h.answers, Nat.not_lt.mpr h.fits, Nat.ne_of_gt h.bytes, h.runs, hrec, hbuf, hgo]
  rfl
end

section
variable {s : State} {fn a n : Nat} (hu : s.upset = false)
include hu

theorem State.bar4At_denied {x : Option (List Byte)} (h : s.bar4Ok fn a n = false) (late : Bool) :
    s.bar4At late fn a n x = s.bar4Deny n x.isNone := by
  simp [State.bar4At, hu, h]

theorem State.bar4At_waits {x : Option (List Byte)} (h : s.bar4Ok fn a n = true)
    (hw : s.granBusy a n = true ∨ (s.fn fn).waiting ≠ []) : s.bar4At false fn a n x = s.hostWait fn (.bar4 a n x) := by
  have hheld : (!false && (s.granBusy a n || !(s.fn fn).waiting.isEmpty)) = true := by simpa using hw
  simp only [State.bar4At, State.useReach_calm hu, State.useStacks_calm hu, h, hheld]
  rfl

theorem State.bar4At_read (h : s.bar4Ok fn a n = true) (hb : s.granBusy a n = false) (hw : (s.fn fn).waiting = []) :
    s.bar4At false fn a n none = (s.touchRange a n).showData (rdBytes s.mem a n) (s.poisoned a n) := by
  simp [State.bar4At, hu, h, hb, hw, State.rdMem]

theorem State.bar4At_write {d : List Byte} (h : s.bar4Ok fn a n = true) (hb : s.granBusy a n = false)
    (hw : (s.fn fn).waiting = []) :
    s.bar4At false fn a n (some d) = s.storeBytes (srcHost fn) (s.bar4Part a) 0 a d false := by
  simp [State.bar4At, hu, h, hb, hw]
end

theorem State.setWz_sameRegs {s : State} (w : s.Wf) (r : Reg) (b : Nat) : s.sameRegs (s.setWz r b []) [r.key] := by
  intro r' hr
  obtain ⟨-, h⟩ | ⟨c, -, h⟩ := s.setWz_cases r b [] <;> rw [h]
  rw [State.cell_congr (State.msix_regs _ 0 0)]
  exact State.cell_setCell_other s w.regs c fun hk => hr (List.mem_singleton.mpr hk)

/-- Settles O27: from where an access goes, and what it reads or stores there. -/
theorem bar4ReachesStacks : Obligations.Bar4ReachesStacks := by
  unfold Obligations.Bar4ReachesStacks
  intro fn off a d s wf hu hans hd hfrozen
  refine ⟨exec_bar4Access_beyond, fun hfit ha => ?_⟩
  have h : Bar4Claimed s fn off d.length := ⟨hans, List.length_pos_iff.mpr hd, hfrozen, hfit⟩
  obtain rfl : a = s.bar4Addr fn off := ha
  have hstacks : s.boot.recovery = false → ∀ x, x = none ∨ x = some d →
      exec (.bar4Access fn off d.length x) s = .next (s.bar4At false fn (s.bar4Addr fn off) d.length x) :=
    fun hrec x hx => h.exec_stacks (fun y hy => by simp_all) hrec
  refine ⟨fun hrec hok hbusy hwait => ⟨?_, fun hnow => ?_⟩, fun hrec hok hwait x hx => ?_, fun hrec hok => ?_,
    fun hrec hbuf => ⟨h.exec_bufferRead hrec hbuf, h.exec_bufferWrite rfl hrec hbuf⟩⟩
  · obtain ⟨dir, hdir⟩ := State.touchRange_eq hu (s.bar4Addr fn off) d.length
    refine ⟨_, hstacks hrec none (.inl rfl), ?_⟩
    rw [State.bar4At_read hu hok hbusy hwait, hdir]
    exact ⟨rfl, rfl, rfl⟩
  · obtain ⟨dir, poison, hstore⟩ := State.storeBytes_lands wf hu hnow (s.bar4Part (s.bar4Addr fn off)) false
    refine ⟨_, hstacks hrec (some d) (.inr rfl), ?_⟩
    rw [State.bar4At_write hu hok hbusy hwait, hstore]
    exact ⟨rdBytes_wrCells d s.mem _ (memWf_of_wf wf), fun x hx => rd_wrCells_beside (memWf_of_wf wf) hx, rfl⟩
  · refine ⟨_, hstacks hrec x hx, ?_⟩
    rw [State.bar4At_waits hu hok hwait, State.hostWait]
    refine ⟨?_, fun k hk => ?_, rfl⟩
    · rw [State.fn_setFn s wf.fns, if_pos rfl]
    · rw [State.fn_setFn s wf.fns, if_neg hk]
  · have hbit := State.setWz_bit wf .hstLog (b := 0) (by decide) []
    refine ⟨_, _, hstacks hrec none (.inl rfl), hstacks hrec (some d) (.inr rfl), ?_⟩
    rw [State.bar4At_denied hu hok, State.bar4At_denied hu hok]
    exact ⟨rfl, hbit, hbit, State.setWz_mem s .hstLog 0 [], s.setWz_flagged .hstLog 0 [], State.setWz_sameRegs wf .hstLog 0⟩

end Sys2Proof.Machine
end

section
/-! What work beside a completion ring leaves (R391, R405): bits of logs set, registers repaired, bytes stored and tiles
moved change neither a ring's registers nor who may reach it. -/

namespace Sys2Proof.Machine

/-- The registers that events of queues, promotions and repairs change. -/
def eventKeys : List Nat :=
  queueLogKeys ++ promoKeys ++ [Reg.errVoteCnt.key, Reg.errRegLog.key, Reg.errVoteWhere.key]

/-- A register that reads 0 at reset and that neither such an event nor a change at the listed keys touches. -/
def Reg.lasts (keys : List Nat) (r : Reg) : Prop := r.resetValue = 0 ∧ r.key ∉ eventKeys ∧ r.key ∉ keys

/-- A state without registers, messages, queues' notes, counters, codec engines and the bytes of memory. -/
def State.rest (s : State) : State :=
  { s with
    regs := [], out := State.reset.out, fns := [], queues := [], posts := 0, ctr := [], codecs := [], mem := [], host := []
    poison := [], dir := [], waitWrites := [], promos := [] }

/-- From `s` to `t`, registers change by events and at the listed keys alone, and what records need stays. -/
structure RingKept (keys : List Nat) (s t : State) : Prop where
  wf : t.Wf
  val : ∀ r : Reg, r.lasts keys → t.val r = s.val r
  access : ∀ n, (t.fn n).bme = (s.fn n).bme ∧ (t.fn n).vf = (s.fn n).vf
  waiting : ∀ q, (t.queue q).waiting = (s.queue q).waiting
  rest : t.rest = s.rest

/-- The same, and counters and codec engines stay too. -/
structure Aside (keys : List Nat) (s t : State) : Prop extends RingKept keys s t where
  ctr : t.ctr = s.ctr
  codecs : t.codecs = s.codecs

variable {keys : List Nat} {s t u : State}

theorem RingKept.refl (w : s.Wf) : RingKept keys s s := ⟨w, fun _ _ => rfl, fun _ => ⟨rfl, rfl⟩, fun _ => rfl, rfl⟩

theorem RingKept.trans (h : RingKept keys s t) (k : RingKept keys t u) : RingKept keys s u where
  wf := k.wf
  val r hr := (k.val r hr).trans (h.val r hr)
  access n := ⟨(k.access n).1.trans (h.access n).1, (k.access n).2.trans (h.access n).2⟩
  waiting q := (k.waiting q).trans (h.waiting q)
  rest := k.rest.trans h.rest

theorem Aside.refl (w : s.Wf) : Aside keys s s := ⟨RingKept.refl w, rfl, rfl⟩

theorem Aside.trans (h : Aside keys s t) (k : Aside keys t u) : Aside keys s u :=
  ⟨h.toRingKept.trans k.toRingKept, k.ctr.trans h.ctr, k.codecs.trans h.codecs⟩

theorem Aside.foldl {α : Type} {f : State → α → State} {l : List α} (w : s.Wf)
    (step : ∀ Y : State, Y.Wf → ∀ a ∈ l, Aside keys Y (f Y a)) : Aside keys s (l.foldl f s) :=
  List.foldlRecOn (motive := fun t => Aside keys s t) l f (Aside.refl w) fun Y h a ha => h.trans (step Y h.wf a ha)

/-- A change of counters, codec engines and the bytes of memory alone. -/
theorem RingKept.of_eq (w : t.Wf)
    (h : t = { s with ctr := t.ctr, codecs := t.codecs, mem := t.mem, host := t.host, poison := t.poison, dir := t.dir,
                      waitWrites := t.waitWrites, promos := t.promos }) : RingKept keys s t where
  wf := w
  val r _ := State.val_congr (congrArg State.regs h) r
  access n := by rw [h]; exact ⟨rfl, rfl⟩
  waiting q := by rw [h]; rfl
  rest := by rw [h]; rfl

theorem Aside.of_eq (w : t.Wf)
    (h : t = { s with mem := t.mem, host := t.host, poison := t.poison, dir := t.dir, waitWrites := t.waitWrites,
                      promos := t.promos }) : Aside keys s t :=
  ⟨RingKept.of_eq w (by rw [h]), (congrArg State.ctr h :), (congrArg State.codecs h :)⟩

/-! Registers and messages. -/

theorem State.msix_access (w : s.Wf) (fn v n : Nat) :
    ((s.msix fn v).fn n).bme = (s.fn n).bme ∧ ((s.msix fn v).fn n).vf = (s.fn n).vf := by
  unfold State.msix
  split
  · exact ⟨rfl, rfl⟩
  · split
    · exact ⟨rfl, rfl⟩
    · rw [State.fn_setFn s w.fns]
      split
      · rename_i h
        rw [h]
        exact ⟨rfl, rfl⟩
      · exact ⟨rfl, rfl⟩

theorem State.msix_aside (w : s.Wf) (fn v : Nat) : Aside keys s (s.msix fn v) := by
  have hflag := s.msix_flagged fn v
  rw [State.flagged] at hflag
  refine ⟨⟨(State.msix_kept (Kept.refl s) fn v).wf w, fun r _ => State.val_congr (State.msix_regs s fn v) r,
    State.msix_access w fn v, fun q => ?_, ?_⟩, ?_, ?_⟩ <;> rw [hflag] <;> rfl

/-- The register may be changed by an event, or stands at a listed key. -/
def Reg.mayChange (keys : List Nat) (r : Reg) : Prop := r.key ∈ eventKeys ∨ r.key ∈ keys

theorem Reg.lasts.ne {r r' : Reg} (h : r'.lasts keys) (hr : r.mayChange keys) : r'.key ≠ r.key := by
  intro hk
  obtain ⟨-, hevent, hkeys⟩ := h
  rw [hk] at hevent hkeys
  exact hr.elim hevent hkeys

theorem State.setCell_aside (w : s.Wf) {r : Reg} (hr : r.mayChange keys) (c : RegCell) : Aside keys s (s.setCell r c) :=
  ⟨⟨(State.setCell_kept (Kept.refl s) r c).wf w, fun _ hr' => State.val_setCell_other s w.regs c (hr'.ne hr),
    fun _ => ⟨rfl, rfl⟩, fun _ => rfl, rfl⟩, rfl, rfl⟩

theorem State.setVal_aside (w : s.Wf) {r : Reg} (hr : r.mayChange keys) (v : Word) : Aside keys s (s.setVal r v) :=
  State.setCell_aside w hr _

theorem State.count_aside (w : s.Wf) {r : Reg} (hr : r.mayChange keys) (n : Nat) : Aside keys s (s.count r n) := by
  unfold State.count
  split
  · exact Aside.refl w
  · exact State.setVal_aside w hr _

theorem State.putAll_aside (w : s.Wf) {caps : List (Reg × Nat × Nat × Nat)} (hcaps : ∀ x ∈ caps, x.1.mayChange keys) :
    Aside keys s (s.putAll caps) :=
  Aside.foldl w fun _ wY x hx => State.setVal_aside wY (hcaps x hx) _

theorem State.setWz_aside (w : s.Wf) {r : Reg} (hr : r.mayChange keys) (b : Nat) {caps : List (Reg × Nat × Nat × Nat)}
    (hcaps : ∀ x ∈ caps, x.1.mayChange keys) : Aside keys s (s.setWz r b caps) := by
  obtain ⟨-, h⟩ | ⟨c, -, h⟩ := s.setWz_cases r b caps <;> rw [h]
  · exact Aside.refl w
  · have hput := State.putAll_aside w hcaps
    have hcell := State.setCell_aside hput.wf hr c
    exact (hput.trans hcell).trans (State.msix_aside hcell.wf 0 0)

theorem State.flag_aside (w : s.Wf) {r : Reg} (hr : r.mayChange keys) (b : Nat) (c : Bool) : Aside keys s (s.flag r b c) := by
  unfold State.flag
  split
  · exact State.setWz_aside w hr b (by simp)
  · exact Aside.refl w

/-! Repairs. -/

theorem errVoteCnt_mayChange : Reg.errVoteCnt.mayChange keys := .inl (by simp [eventKeys])
theorem errRegLog_mayChange : Reg.errRegLog.mayChange keys := .inl (by simp [eventKeys])
theorem errVoteWhere_mayChange : Reg.errVoteWhere.mayChange keys := .inl (by simp [eventKeys])

/-- All copies of a register made its vote: no register reads otherwise. -/
theorem State.setVal_vote_aside (w : s.Wf) {r : Reg} (hr : r.resetValue = 0) : Aside keys s (s.setVal r (s.val r)) := by
  refine ⟨⟨(State.setVal_kept (Kept.refl s) r _).wf w, fun r' hr' => ?_, fun _ => ⟨rfl, rfl⟩, fun _ => rfl, rfl⟩, rfl, rfl⟩
  by_cases hk : r'.key = r.key
  · -- Registers of one key that read the same at reset have one cell.
    have hcell : ∀ u : State, u.val r' = u.val r := fun u => by
      simp only [State.val, State.cell, hk, hr, hr'.1]
    rw [hcell, hcell, State.val_setVal_same s w.regs]
  · exact State.val_setVal_other s w.regs _ hk

theorem State.repair_aside (w : s.Wf) {r : Reg} (hr : r.resetValue = 0) : Aside keys s (s.repair r) := by
  unfold State.repair
  dsimp only
  split
  · exact Aside.refl w
  · have hvote : Aside keys s (s.setVal r (vote (s.cell r).a (s.cell r).b (s.cell r).c)) := State.setVal_vote_aside w hr
    have hcount := hvote.trans (State.count_aside hvote.wf errVoteCnt_mayChange 1)
    exact hcount.trans (State.setWz_aside hcount.wf errRegLog_mayChange 0 (by simp [errVoteWhere_mayChange]))

theorem State.use_aside (w : s.Wf) {l : List Reg} (hl : ∀ r ∈ l, r.resetValue = 0) : Aside keys s (s.use l) := by
  unfold State.use State.useNow
  split
  · split
    · exact Aside.foldl w fun _ wY r hr => State.repair_aside wY (hl r hr)
    · exact Aside.refl w
  · exact Aside.refl w

theorem State.useRank_aside (w : s.Wf) (p r : Nat) : Aside keys s (s.useRank p r) := by
  unfold State.useRank
  split
  · exact Aside.refl w
  · exact State.use_aside w (by simp [Reg.resetValue])

theorem State.useStacks_aside (w : s.Wf) (off len : Nat) : Aside keys s (s.useStacks off len) := by
  unfold State.useStacks
  split
  · refine State.use_aside w fun r hr => ?_
    obtain ⟨g, -, rfl⟩ := List.mem_map.mp hr
    rfl
  · exact Aside.refl w

theorem State.useAddr_aside (w : s.Wf) (p : Nat) (a : GAddr) (len : Nat) : Aside keys s (s.useAddr p a len) := by
  have hrank := State.useRank_aside (keys := keys) w p a.rank
  unfold State.useAddr
  dsimp only
  split
  · exact hrank.trans (State.useStacks_aside hrank.wf a.off len)
  · exact hrank

/-! Repairs change registers and messages alone. -/

theorem State.repair_flagged (s : State) (r : Reg) : s.flagged (s.repair r) := by
  unfold State.repair
  dsimp only
  split
  · exact s.flagged_refl
  · exact State.flagged_trans (State.flagged_trans (s.setVal_flagged r _) (State.count_flagged _ _ 1))
      (State.setWz_flagged _ _ _ _)

theorem State.use_flagged (s : State) (l : List Reg) : s.flagged (s.use l) := by
  unfold State.use State.useNow
  split
  · split
    · exact List.foldlRecOn (motive := fun t => s.flagged t) l _ s.flagged_refl fun t h r _ =>
        State.flagged_trans h (t.repair_flagged r)
    · exact s.flagged_refl
  · exact s.flagged_refl

theorem State.useRank_flagged (s : State) (p r : Nat) : s.flagged (s.useRank p r) := by
  unfold State.useRank
  split
  · exact s.flagged_refl
  · exact s.use_flagged _

theorem State.useStacks_flagged (s : State) (off len : Nat) : s.flagged (s.useStacks off len) := by
  unfold State.useStacks
  split
  · exact s.use_flagged _
  · exact s.flagged_refl

theorem State.useAddr_flagged (s : State) (p : Nat) (a : GAddr) (len : Nat) : s.flagged (s.useAddr p a len) := by
  unfold State.useAddr
  dsimp only
  split
  · exact State.flagged_trans (s.useRank_flagged p a.rank) (State.useStacks_flagged _ _ _)
  · exact s.useRank_flagged p a.rank

end Sys2Proof.Machine
end

section
/-! Moving tiles and storing bytes leave what records need (R262, R264, R269). -/

namespace Sys2Proof.Machine

variable {keys : List Nat} {s : State}

theorem State.setDir_aside (w : s.Wf) (tile : Nat) (v : Option DirEntry) : Aside keys s (s.setDir tile v) :=
  Aside.of_eq ((State.setDir_kept (Kept.refl s) tile v).wf w) rfl

theorem State.touch_aside (w : s.Wf) (tile : Nat) : Aside keys s (s.touch tile) := by
  obtain ⟨d, hd⟩ := s.touch_eq tile
  exact Aside.of_eq ((State.touch_kept (Kept.refl s) tile).wf w) (by rw [hd])

theorem State.evictTile_aside (w : s.Wf) (tile : Nat) : Aside keys s (s.evictTile tile) := by
  obtain ⟨d, hd⟩ := s.evictTile_eq tile
  exact Aside.of_eq ((State.evictTile_kept (Kept.refl s) tile).wf w) (by rw [hd])

theorem State.startPromote_aside (w : s.Wf) (tile size : Nat) (p3 : Bool) : Aside keys s (s.startPromote tile size p3) :=
  State.setDir_aside w tile _

theorem State.tileOwner_lt (s : State) (tile : Nat) : s.tileOwner tile < 32 := by
  unfold State.tileOwner
  split
  · decide
  · exact Nat.mod_lt _ (by decide)

theorem nmhEvwaitCnt_mayChange {p : Nat} (hp : p < 32) : (Reg.nmhEvwaitCnt p).mayChange keys :=
  .inl (by simp only [eventKeys, promoKeys, List.mem_append]
           exact .inl (.inr (.inl (List.mem_map.mpr ⟨p, List.mem_range.mpr hp, rfl⟩))))

theorem nmhLog_mayChange (off : Nat) : (Reg.nmhLog (halfOf off)).mayChange keys := by
  refine .inl ?_
  unfold halfOf
  split <;> simp [eventKeys, promoKeys]

/-- A promotion that looks for units evicts, starts, or is counted as waiting. -/
theorem State.obtain_aside (n : Nat) {p : PromoWait} (w : s.Wf) (hp : p.part < 32) : Aside keys s (State.obtain n s p).1 := by
  induction n generalizing s p with
  | zero => exact Aside.refl w
  | succ n ih =>
    unfold State.obtain
    dsimp only
    split
    · exact State.startPromote_aside w _ _ _
    · split
      · split
        · exact Aside.refl w
        · have hcount := State.count_aside (keys := keys) w (nmhEvwaitCnt_mayChange hp) 1
          exact hcount.trans (State.setWz_aside hcount.wf (nmhLog_mayChange _) 0 (by simp))
      · rename_i v _
        have hevict := State.evictTile_aside (keys := keys) w v
        split
        · exact hevict
        · exact hevict.trans (ih hevict.wf hp)

theorem State.promote_aside (w : s.Wf) (tile : Nat) (p3 : Bool) : Aside keys s (s.promote tile p3) := by
  unfold State.promote
  split
  · split
    · exact State.setDir_aside w _ _
    · exact State.touch_aside w _
    · exact State.touch_aside w _
    · exact State.setDir_aside w _ _
    · exact State.setDir_aside w _ _
    · exact Aside.refl w
  · have huse : Aside keys s (s.use [.partCeil (s.tileOwner tile)]) := State.use_aside w (by simp [Reg.resetValue])
    refine huse.trans ?_
    have wu := huse.wf
    dsimp only
    generalize s.use [.partCeil (s.tileOwner tile)] = u at wu
    split
    · exact Aside.refl wu
    · split
      · exact Aside.of_eq wu rfl
      · have hobtain := State.obtain_aside (keys := keys) (u.dir.length + 1) wu (s.tileOwner_lt tile)
          (p := { tile := tile, part := s.tileOwner tile, p3 := p3, counted := false, victim := none, since := u.limClock })
        split <;> rename_i heq <;> rw [heq] at hobtain
        · exact hobtain
        · exact hobtain.trans (Aside.of_eq hobtain.wf rfl)

theorem State.promoteRange_aside (w : s.Wf) (off len : Nat) (p3 : Bool) : Aside keys s (s.promoteRange off len p3) := by
  have huse := State.useStacks_aside (keys := keys) w off len
  exact huse.trans (Aside.foldl huse.wf fun _ wY tile _ => State.promote_aside wY tile p3)

theorem State.nearOf_aside (w : s.Wf) (a len : Nat) : Aside keys s (s.nearOf a len) := by
  unfold State.nearOf
  split
  · exact State.promoteRange_aside w _ _ _
  · exact Aside.refl w

theorem State.nearOf_far {a : Nat} (h : (gaddr a).space ≠ 1) (s : State) (len : Nat) : s.nearOf a len = s := if_neg h

/-! Stores. -/

theorem State.raise_aside (w : s.Wf) (x : HeldWrite) : Aside keys s (s.raise x) := by
  unfold State.raise
  split
  · exact Aside.refl w
  · exact State.setDir_aside w _ _

theorem State.applyStore_aside (w : s.Wf) (cells : List Host.Cell) (bad : Bool) : Aside keys s (s.applyStore cells bad) := by
  obtain ⟨l, hl⟩ := s.applyStore_eq cells bad
  exact Aside.of_eq ((State.applyStore_kept (Kept.refl s) cells bad).wf w) (by rw [hl])

theorem State.dirWrite_aside (w : s.Wf) {x : HeldWrite} {cells : List Host.Cell} (hx : x.op = .store cells) :
    Aside keys s (s.dirWrite x) := by
  have happ : ∀ near {Y : State}, Aside keys s Y → Aside keys s (applyOp near x Y) := fun near Y h => by
    rw [applyOp_store hx]
    exact h.trans (State.applyStore_aside h.wf cells x.bad)
  unfold State.dirWrite State.dirVia
  split
  · have hwait : Aside keys s { s with waitWrites := s.waitWrites ++ [x] } := Aside.of_eq w rfl
    exact hwait.trans (State.raise_aside hwait.wf x)
  · unfold State.writeVia
    split
    · exact happ false (Aside.refl w)
    · split
      · exact happ false (State.setDir_aside w _ _)
      · exact happ true (State.setDir_aside w _ _)
      · have hhold := State.setDir_aside (keys := keys) w x.tile
        exact (hhold _).trans (State.raise_aside (hhold _).wf x)

theorem State.storeGroup_aside (w : s.Wf) (src p : Nat) (bad : Bool) (tx : Option Nat) (g : List Host.Cell) :
    Aside keys s (s.storeGroup src p bad tx g) := by
  cases g with
  | nil => exact Aside.refl w
  | cons c t => exact State.dirWrite_aside w rfl

/-- The granules' registers repaired before a store. -/
def State.cellsUsed (s : State) (cells : List Host.Cell) : State :=
  if s.upset then s.use ((cellGrans cells).map Reg.memGran) else s

theorem State.storeCells_eq (s : State) (src p : Nat) (cells : List Host.Cell) (bad : Bool) (tx : Option Nat) :
    s.storeCells src p cells bad tx =
      if (s.cellsUsed cells).dir.isEmpty && (s.cellsUsed cells).waitWrites.isEmpty then (s.cellsUsed cells).applyStore cells bad
      else (groupCells cells).foldl (fun s g => s.storeGroup src p bad tx g) (s.cellsUsed cells) := rfl

theorem State.cellsUsed_aside (w : s.Wf) (cells : List Host.Cell) : Aside keys s (s.cellsUsed cells) := by
  unfold State.cellsUsed
  split
  · refine State.use_aside w fun r hr => ?_
    obtain ⟨g, -, rfl⟩ := List.mem_map.mp hr
    rfl
  · exact Aside.refl w

theorem State.cellsUsed_flagged (s : State) (cells : List Host.Cell) : s.flagged (s.cellsUsed cells) := by
  unfold State.cellsUsed
  split
  · exact s.use_flagged _
  · exact s.flagged_refl

theorem State.storeCells_aside (w : s.Wf) (src p : Nat) (cells : List Host.Cell) (bad : Bool) (tx : Option Nat) :
    Aside keys s (s.storeCells src p cells bad tx) := by
  have hused := State.cellsUsed_aside (keys := keys) w cells
  rw [State.storeCells_eq]
  split
  · exact hused.trans (State.applyStore_aside hused.wf cells bad)
  · exact hused.trans (Aside.foldl hused.wf fun _ wY g _ => State.storeGroup_aside wY src p bad tx g)

theorem State.wrHost_aside (w : s.Wf) (fn off : Nat) (b : List Byte) : Aside keys s (s.wrHost fn off b) := by
  refine Aside.of_eq ((State.wrHost_kept (Kept.refl s) fn off b).wf w) ?_
  unfold State.wrHost
  split <;> rfl

theorem State.storeBytes_aside (w : s.Wf) (src p space off : Nat) (b : List Byte) (bad : Bool) (tx : Option Nat) :
    Aside keys s (s.storeBytes src p space off b bad tx) := by
  unfold State.storeBytes
  split
  · split
    · exact Aside.refl w
    · exact State.wrHost_aside w p off b
  · exact State.storeCells_aside w src p _ bad tx

/-- A write to the stacks with no tile near and no write waiting: it lands, whatever is repaired first. -/
theorem State.storeBytes_mem (hd : s.dir = []) (hw : s.waitWrites = []) (src p : Nat) {space : Nat} (hs : space ≠ 3)
    (off : Nat) (b : List Byte) (bad : Bool) (tx : Option Nat) :
    (s.storeBytes src p space off b bad tx).mem = wrCells s.mem (cellsAt off b) ∧
      (s.storeBytes src p space off b bad tx).dir = [] ∧ (s.storeBytes src p space off b bad tx).waitWrites = [] := by
  have hused := s.cellsUsed_flagged (cellsAt off b)
  rw [State.flagged] at hused
  have hmem : (s.cellsUsed (cellsAt off b)).mem = s.mem := (congrArg State.mem hused :)
  have hdir : (s.cellsUsed (cellsAt off b)).dir = [] := (congrArg State.dir hused).trans hd
  have hwait : (s.cellsUsed (cellsAt off b)).waitWrites = [] := (congrArg State.waitWrites hused).trans hw
  obtain ⟨l, hl⟩ := (s.cellsUsed (cellsAt off b)).applyStore_eq (cellsAt off b) bad
  rw [State.storeBytes, if_neg hs, State.storeCells_eq, if_pos (by simp [hdir, hwait]), hl, ← hmem]
  exact ⟨rfl, hdir, hwait⟩

end Sys2Proof.Machine
end

section
/-! Signals (R25): beside the counter, only queues' notes and logs change. -/

namespace Sys2Proof.Machine

variable {keys : List Nat} {s : State}

theorem State.Wf.queues (w : s.Wf) : rising s.queues = true := by
  have := w.2
  simp_all [State.tablesWf]

theorem State.Wf.ctr (w : s.Wf) : rising s.ctr = true := by
  have := w.2
  simp_all [State.tablesWf]

theorem State.Wf.codecs (w : s.Wf) : rising s.codecs = true := by
  have := w.2
  simp_all [State.tablesWf]

theorem State.setQueue_aside (w : s.Wf) {q : Nat} {v : Queue} (hv : v.waiting = (s.queue q).waiting) :
    Aside keys s (s.setQueue q v) := by
  refine ⟨⟨(State.setQueue_kept (Kept.refl s) q v).wf w, fun _ _ => rfl, fun _ => ⟨rfl, rfl⟩, fun k => ?_, rfl⟩, rfl, rfl⟩
  rw [State.queue_setQueue s w.queues]
  split
  · rename_i h
    rw [h, hv]
  · rfl

theorem qLog_mayChange {q : Nat} (hq : q < 4096) : (Reg.qLog q).mayChange keys :=
  .inl (by simp only [eventKeys, queueLogKeys, List.mem_append]
           exact .inl (.inl (List.mem_map.mpr ⟨q, List.mem_range.mpr hq, rfl⟩)))

theorem State.enabledQueues_lt {q : Nat} (h : q ∈ s.enabledQueues) : q < 4096 := by
  obtain ⟨x, -, hx⟩ := List.mem_filterMap.mp h
  dsimp only at hx
  split at hx
  · injection hx with hx
    omega
  · cases hx

theorem State.overPost_aside (w : s.Wf) (n : Nat) : Aside keys s (s.overPost n) := by
  refine Aside.foldl w fun Y wY q hq => ?_
  split
  · have hset : Aside keys Y (Y.setQueue q { Y.queue q with overPosted := true }) := State.setQueue_aside wY rfl
    exact hset.trans (State.setWz_aside hset.wf (qLog_mayChange (State.enabledQueues_lt hq)) 1 (by simp))
  · exact Aside.refl wY

theorem State.notePost_aside (w : s.Wf) (n : Nat) : Aside keys s (s.notePost n) := by
  have hposts : Aside keys s (s.enabledQueues.foldl (fun t q =>
      if s.get (.qCfg q) 24 11 = n ∧ s.qKind q ≠ 0 then
        t.setQueue q { t.queue q with posts := (t.queue q).posts ++ [(s.posts, s.counter n)] }
      else t) s) := by
    refine Aside.foldl w fun Y wY q _ => ?_
    split
    · exact State.setQueue_aside wY rfl
    · exact Aside.refl wY
  exact ⟨⟨hposts.wf, hposts.val, hposts.access, hposts.waiting, hposts.rest⟩, hposts.ctr, hposts.codecs⟩

/-- A signal sets its counter; the rest is beside it. -/
theorem State.signal_aside (w : s.Wf) (n : Nat) (v : Word) : Aside keys (s.setCounter n (s.counter n + v)) (s.signal n v) := by
  have hset := (State.setCounter_kept (Kept.refl s) n (s.counter n + v)).wf w
  have hnote := State.notePost_aside (keys := keys) hset n
  exact hnote.trans (State.overPost_aside hnote.wf n)

theorem State.signal_ringKept (w : s.Wf) (n : Nat) (v : Word) : RingKept keys s (s.signal n v) :=
  (RingKept.of_eq ((State.setCounter_kept (Kept.refl s) n _).wf w) rfl).trans (State.signal_aside w n v).toRingKept

theorem State.signal_codecs (w : s.Wf) (n : Nat) (v : Word) : (s.signal n v).codecs = s.codecs :=
  (State.signal_aside (keys := []) w n v).codecs

theorem State.counter_congr {t : State} (h : t.ctr = s.ctr) (n : Nat) : t.counter n = s.counter n := by
  rw [State.counter, State.counter, h]

theorem State.counter_signal (w : s.Wf) (n : Nat) (v : Word) (k : Nat) :
    (s.signal n v).counter k = if k = n then s.counter k + v else s.counter k := by
  rw [State.counter_congr (State.signal_aside (keys := []) w n v).ctr, State.counter_setCounter s w.ctr]
  split
  · rename_i h
    rw [h]
  · rfl

end Sys2Proof.Machine
end

section
/-! What signals and messages leave of memory: bytes, and the writes that wait to become bytes. -/

namespace Sys2Proof.Machine

/-- The bytes of memory, the directories, and the writes that wait. -/
def State.stored (s : State) : Mem × Mem × SMap (Option DirEntry) × List HeldWrite := (s.mem, s.host, s.dir, s.waitWrites)

variable {s t : State}

theorem State.stored_iff : t.stored = s.stored ↔ t.mem = s.mem ∧ t.host = s.host ∧ t.dir = s.dir ∧ t.waitWrites = s.waitWrites := by
  simp only [State.stored, Prod.mk.injEq]

theorem State.flagged_stored (h : s.flagged t) : t.stored = s.stored := by
  rw [State.flagged] at h
  rw [h]
  rfl

theorem State.interrupt_stored (s : State) (q : Nat) : (s.interrupt q).stored = s.stored := by
  unfold State.interrupt
  dsimp only
  split
  · rfl
  · split
    · exact (State.flagged_stored (State.msix_flagged _ _ _)).trans rfl
    · rfl

theorem State.signal_stored (s : State) (n : Nat) (v : Word) : (s.signal n v).stored = s.stored := by
  have hnote : ((s.setCounter n (s.counter n + v)).notePost n).stored = s.stored := by
    refine List.foldlRecOn (motive := fun t : State => t.stored = s.stored) _ _ rfl fun t ih q _ => ?_
    split
    · exact ih
    · exact ih
  refine List.foldlRecOn (motive := fun t : State => t.stored = s.stored) _ _ hnote fun t ih q _ => ?_
  split
  · exact (State.flagged_stored (State.setWz_flagged _ _ _ _)).trans ih
  · exact ih

end Sys2Proof.Machine
end

section
/-! The registers of a completion ring, and what a record needs of them (R377, R391). -/

namespace Sys2Proof.Machine

/-- The registers that place a queue's completion ring, the partition table that names the queue's owner, and the granules' table that
gives the tiles of memory their sizes. -/
inductive Reg.OfRing (q : Nat) : Reg → Prop where
  | address (hi : Bool) : Reg.OfRing q (.qCq q hi)
  | config : Reg.OfRing q (.qCqCfg q)
  | head : Reg.OfRing q (.qCqHead q)
  | tail : Reg.OfRing q (.qCqTail q)
  | owner {p : Nat} (hp : p < 32) : Reg.OfRing q (.partQueues p)
  | granule {g : Nat} (hg : g < 576) : Reg.OfRing q (.memGran g)

theorem mem_eventKeys {k : Nat} (h : k ∈ eventKeys) :
    (∃ q < 4096, k = 0x00A1_0024 + q * 0x40) ∨ (∃ p < 32, k = 0x0051_0100 + 4 * p) ∨
      k ∈ [0x0050_0008, 0x0050_8008, 0x1F0C, 0x1F00, 0x1F04] := by
  simp only [eventKeys, queueLogKeys, promoKeys, parts32, List.mem_append, List.mem_map, List.mem_range] at h
  obtain (⟨q, hq, rfl⟩ | ⟨p, hp, rfl⟩ | h) | h := h
  · left
    exact ⟨q, hq, by simp [Reg.key, Reg.copyOf, Reg.offset, queueBlock]; omega⟩
  · right; left
    exact ⟨p, hp, by simp [Reg.key, Reg.copyOf, Reg.offset]⟩
  · right; right
    revert h
    simp [Reg.key, Reg.copyOf, Reg.offset, nmhBlock]
    omega
  · right; right
    revert h
    simp [Reg.key, Reg.copyOf, Reg.offset]
    omega

/-- A register whose key lies in none of the events' ranges. -/
theorem key_not_mem_eventKeys {k : Nat} (hq : ∀ q < 4096, k ≠ 0x00A1_0024 + q * 0x40)
    (hlow : 0x0060_0000 ≤ k ∨ 0x0001_0000 ≤ k ∧ k < 0x0050_0000) : k ∉ eventKeys := by
  intro h
  obtain ⟨q, hlt, h⟩ | ⟨p, hp, h⟩ | h := mem_eventKeys h
  · exact hq q hlt h
  · omega
  · simp only [List.mem_cons, List.not_mem_nil, or_false] at h
    omega

theorem Reg.OfRing.reset {q : Nat} {r : Reg} (h : r.OfRing q) : r.resetValue = 0 := by cases h <;> rfl

/-- Where the registers of a ring stand: in its queue's block, in the partition table, or in a stack's block. -/
theorem Reg.OfRing.key_cases {q : Nat} {r : Reg} (h : r.OfRing q) :
    (∃ o ∈ [0x10, 0x14, 0x18, 0x1C, 0x20], r.key = 0x00A1_0000 + q * 0x40 + o) ∨
      (∃ p < 32, r.key = 0x0001_0010 + p * 0x400) ∨ 0x0040_0100 ≤ r.key ∧ r.key < 0x004C_0000 := by
  cases h with
  | address hi => cases hi <;> simp [Reg.key, Reg.copyOf, Reg.offset, queueBlock, hiOff]
  | config => simp [Reg.key, Reg.copyOf, Reg.offset, queueBlock]
  | head => simp [Reg.key, Reg.copyOf, Reg.offset, queueBlock]
  | tail => simp [Reg.key, Reg.copyOf, Reg.offset, queueBlock]
  | @owner p hp =>
    right; left
    exact ⟨p, hp, by simp [Reg.key, Reg.copyOf, Reg.offset, partBlock]; omega⟩
  | @granule g hg =>
    right; right
    simp [Reg.key, Reg.copyOf, Reg.offset, memBlock]
    omega

theorem Reg.OfRing.lasts {q : Nat} {r : Reg} (h : r.OfRing q) (hq : q < 4096) : r.lasts [] := by
  refine ⟨h.reset, ?_, List.not_mem_nil⟩
  obtain ⟨o, ho, hk⟩ | ⟨p, hp, hk⟩ | hk := h.key_cases
  · rw [hk]
    simp only [List.mem_cons, List.not_mem_nil, or_false] at ho
    exact key_not_mem_eventKeys (fun q' hq' => by omega) (by omega)
  · rw [hk]
    exact key_not_mem_eventKeys (fun q' hq' => by omega) (by omega)
  · exact key_not_mem_eventKeys (fun q' hq' => by omega) (by omega)

theorem Reg.lasts.cons {keys : List Nat} {r : Reg} (h : r.lasts keys) {k : Nat} (hk : r.key ≠ k) : r.lasts (k :: keys) :=
  ⟨h.1, h.2.1, by simp [hk, h.2.2]⟩

theorem codLog_key (c : Nat) : (Reg.codLog c).key = 0x0080_0008 + c * 0x0001_0000 := by
  simp [Reg.key, Reg.copyOf, Reg.offset, codecBlock]
  omega

/-- An engine's log is no register of a ring. -/
theorem Reg.OfRing.ne_codLog {q : Nat} {r : Reg} (h : r.OfRing q) (c : CodecId) : r.key ≠ (Reg.codLog c).key := by
  have := c.isLt
  rw [codLog_key]
  obtain ⟨o, ho, hk⟩ | ⟨p, hp, hk⟩ | hk := h.key_cases
  · simp only [List.mem_cons, List.not_mem_nil, or_false] at ho
    omega
  · omega
  · omega

theorem codLog_lasts (c : CodecId) : (Reg.codLog c).lasts [] := by
  have := c.isLt
  refine ⟨rfl, ?_, List.not_mem_nil⟩
  rw [codLog_key]
  exact key_not_mem_eventKeys (fun q hq => by omega) (by omega)

/-- The registers of queue q's ring stay, whatever happens at the listed keys. -/
def RingApart (keys : List Nat) (q : Nat) : Prop := ∀ r : Reg, r.OfRing q → r.lasts keys

theorem ringApart_nil {q : Nat} (hq : q < 4096) : RingApart [] q := fun _ h => h.lasts hq

theorem ringApart_codLog {q : Nat} (hq : q < 4096) (c : CodecId) : RingApart [(Reg.codLog c).key] q :=
  fun _ h => (h.lasts hq).cons (h.ne_codLog c)

/-- A queue can take a record now. -/
structure Recordable (s : State) (q : Nat) : Prop where
  range : q < 4096
  none : (s.queue q).waiting = []
  reach : s.cqReachable q = true
  free : s.cqFull q = false
  due : s.txDue = []

theorem Room.recordable {s : State} {q : Nat} (h : Room s q) : Recordable s q := ⟨h.range, h.none, h.reach, h.free, h.clear.1⟩

section
variable {keys : List Nat} {s t : State} {q : Nat} (h : RingKept keys s t)
include h

theorem RingKept.hostOn (fn : Nat) : t.hostOn fn = s.hostOn fn := by
  have hclocks : t.clocks = s.clocks := (congrArg State.clocks h.rest :)
  simp only [State.hostOn, hclocks, (h.access fn).1, (h.access fn).2]

theorem RingKept.granBusy (off len : Nat) : t.granBusy off len = s.granBusy off len := by
  have hgran : t.gran = s.gran := (congrArg State.gran h.rest :)
  simp only [State.granBusy, hgran]

theorem RingKept.time : t.time = s.time := (congrArg State.time h.rest :)

variable (ha : RingApart keys q)
include ha

theorem RingKept.tail : t.val (.qCqTail q) = s.val (.qCqTail q) := h.val _ (ha _ .tail)

theorem RingKept.ringAddr : t.ringAddr q true = s.ringAddr q true := by
  simp only [State.ringAddr, if_true, h.val _ (ha _ (.address true)), h.val _ (ha _ (.address false))]

theorem RingKept.cqDepth : t.cqDepth q = s.cqDepth q := by
  simp only [State.cqDepth, State.get, h.val _ (ha _ .config)]

theorem RingKept.qPart : t.qPart q = s.qPart q := by
  have howns : ∀ p ∈ parts32, t.ownsQueue p q = s.ownsQueue p q := fun p hp => by
    rw [State.ownsQueue, State.ownsQueue, State.get, State.get, State.get, State.get, h.val _ (ha _ (.owner (List.mem_range.mp hp)))]
  rw [State.qPart, State.qPart, State.queuePart, State.queuePart, ← List.head?_filter, ← List.head?_filter,
    List.filter_congr howns]

theorem RingKept.tileOf (a : Nat) : t.tileOf a = s.tileOf a := by
  unfold State.tileOf
  cases hg : granuleOf a with
  | none => rfl
  | some g =>
    have hlt : g < 576 := by
      simp only [granuleOf, Option.ite_none_right_eq_some, Option.some.injEq] at hg
      omega
    simp only [State.tileBytes, State.get, h.val _ (ha _ (.granule hlt))]

/-- What keeps a write from landing is the same where the directories are, and the writes that wait. -/
theorem RingKept.takesNow {src a : Nat} (hd : t.dir = s.dir) (hw : t.waitWrites = s.waitWrites) (k : s.takesNow src a) :
    t.takesNow src a := by
  have hmoving : ∀ x, t.moving x = s.moving x := fun x => by simp only [State.moving, State.dirEntry, hd]
  rw [State.takesNow, h.tileOf ha, hmoving, hw]
  exact k

theorem RingKept.recordable (k : Recordable s q) : Recordable t q where
  range := k.range
  none := (h.waiting q).trans k.none
  reach := by
    rw [← k.reach]
    simp only [State.cqReachable, h.ringAddr ha, h.cqDepth ha, h.tail ha, h.qPart ha, h.hostOn, h.granBusy]
  free := by
    rw [← k.free]
    simp only [State.cqFull, h.cqDepth ha, h.tail ha, h.val _ (ha _ .head)]
  due := (congrArg State.txDue h.rest).trans k.due
end

end Sys2Proof.Machine
end

section
/-! Completion records (R391, R393): the record is put into its slot, the tail moves, and the interrupt follows once the record has landed. -/

namespace Sys2Proof.Machine

variable {keys : List Nat} {s t u v p : State} {q : Nat} {r : Rec}

/-- The offset of the slot that a ring's next record takes. -/
def State.recordAt (s : State) (q : Nat) : Nat := (s.ringAddr q true).off + (s.val (.qCqTail q)).toNat % s.cqDepth q * 64

/-- The bytes of the record that a ring takes next. -/
def State.recordData (s : State) (q : Nat) (r : Rec) : List Byte := recordBytes r (s.val (.qCqTail q)) q s.time.toNat

@[simp] theorem recordData_length (s : State) (q : Nat) (r : Rec) : (s.recordData q r).length = 64 := by
  simp [State.recordData, recordBytes]

/-- A record's transaction is open. -/
def State.openRecord (s : State) (q : Nat) : State := s.openTx (.record q none)

theorem State.openRecord_stored (s : State) (q : Nat) : (s.openRecord q).stored = s.stored := rfl

/-- The record stands in its slot, or is held on its way there: what its write uses, in `v`, is repaired before. -/
def State.recordStored (s v : State) (q : Nat) (r : Rec) : State :=
  (v.openRecord q).storeBytes srcQueue (s.qPart q) (s.ringAddr q true).space (s.recordAt q) (s.recordData q r) false (some v.txSeq)

/-- And the tail has moved. -/
def State.tailMoved (s p : State) (q : Nat) : State := p.setVal (.qCqTail q) (s.val (.qCqTail q) + 1)

/-- A record without a DONE_CTR is stored after repairs, the tail moves, and what has landed is settled. -/
theorem State.writeRecord_eq (w : s.Wf) (hq : q < 4096) (hr : r.doneCtr = none) :
    ∃ v, Aside [] s v ∧ s.flagged v ∧ s.writeRecord q r = (s.tailMoved (s.recordStored v q r) q).settleTx := by
  have huse : Aside [] s (s.useAddr (s.qPart q) (s.ringAddr q true) 64) := State.useAddr_aside w _ _ _
  refine ⟨_, huse, s.useAddr_flagged _ _ _, ?_⟩
  unfold State.writeRecord State.tailMoved State.recordStored State.recordAt State.recordData State.openRecord
  dsimp only
  rw [hr, huse.qPart (ringApart_nil hq), huse.time]

theorem State.settleTx_record {n : Nat} (h : s.txDue = [{ seq := n, back := .record q none, old := [] }]) :
    s.settleTx = if s.txLeft n then s else { s with txDue := [] }.interrupt q := by
  simp [State.settleTx, h, State.txBack]

theorem State.interrupt_aside (w : s.Wf) (q : Nat) : Aside keys s (s.interrupt q) := by
  unfold State.interrupt
  dsimp only
  split
  · exact Aside.refl w
  · split
    · have hset : Aside keys s (s.setQueue q { s.queue q with irq := [] }) := State.setQueue_aside w rfl
      exact hset.trans (State.msix_aside hset.wf _ _)
    · exact State.setQueue_aside w rfl

/-- What a record leaves: counters, codec engines, and registers but for the ring's tail, which has moved. -/
structure Recorded (q : Nat) (s t : State) : Prop where
  wf : t.Wf
  ctr : t.ctr = s.ctr
  codecs : t.codecs = s.codecs
  val : ∀ r : Reg, r.lasts [(Reg.qCqTail q).key] → t.val r = s.val r
  tail : t.val (.qCqTail q) = s.val (.qCqTail q) + 1

theorem State.recordStored_aside (w : v.Wf) : Aside [] (v.openRecord q) (s.recordStored v q r) :=
  State.storeBytes_aside ((State.openTx_kept (Kept.refl v) _).wf w) _ _ _ _ _ _ _

theorem Recorded.of_tailMoved (huse : Aside [] s v) (hstored : Aside [] (v.openRecord q) p) : Recorded q s (s.tailMoved p q) where
  wf := (State.setVal_kept (Kept.refl p) _ _).wf hstored.wf
  ctr := hstored.ctr.trans huse.ctr
  codecs := hstored.codecs.trans huse.codecs
  val r hr := by
    have hlasts : r.lasts [] := ⟨hr.1, hr.2.1, List.not_mem_nil⟩
    exact (State.val_setVal_other p hstored.wf.regs _ (by simpa using hr.2.2)).trans
      ((hstored.val r hlasts).trans (huse.val r hlasts))
  tail := State.val_setVal_same p hstored.wf.regs _ _

theorem State.tailMoved_due (huse : Aside [] s v) (hstored : Aside [] (v.openRecord q) p) (hdue : s.txDue = []) :
    (s.tailMoved p q).txDue = [{ seq := v.txSeq, back := .record q none, old := [] }] := by
  have hp : p.txDue = (v.openRecord q).txDue := (congrArg State.txDue hstored.rest :)
  have hv : v.txDue = s.txDue := (congrArg State.txDue huse.rest :)
  rw [State.tailMoved, State.setVal, State.setCell, hp, State.openRecord, State.openTx, hv, hdue]
  rfl

theorem State.tailMoved_stored (s p : State) (q : Nat) : (s.tailMoved p q).stored = p.stored := rfl

theorem qCqTail_lasts (hq : q < 4096) : (Reg.qCqTail q).lasts [] := Reg.OfRing.tail.lasts hq

/-- What follows a record that has landed changes nothing that the record leaves. -/
theorem State.settleTx_recorded {n : Nat} (hq : q < 4096) (h : Recorded q s t)
    (hdue : t.txDue = [{ seq := n, back := .record q none, old := [] }]) :
    Recorded q s t.settleTx ∧ t.settleTx.stored = t.stored := by
  rw [State.settleTx_record hdue]
  split
  · exact ⟨h, rfl⟩
  · have wf : ({ t with txDue := [] } : State).Wf := h.wf
    have hint : Aside [] { t with txDue := [] } ({ t with txDue := [] }.interrupt q) := State.interrupt_aside wf q
    refine ⟨⟨hint.wf, hint.ctr.trans h.ctr, hint.codecs.trans h.codecs, fun r hr => ?_, ?_⟩, State.interrupt_stored _ q⟩
    · exact (hint.val r ⟨hr.1, hr.2.1, List.not_mem_nil⟩).trans (h.val r hr)
    · exact (hint.val _ (qCqTail_lasts hq)).trans h.tail

/-! Where the record's bytes stand. -/

theorem Recordable.hostOn (k : Recordable s q) (h : (s.ringAddr q true).space = 3) : s.hostOn (s.qPart q) = true := by
  have := k.reach
  rwa [State.cqReachable, if_pos h] at this

theorem State.wrHost_on {fn : Nat} (h : s.hostOn fn = true) (off : Nat) (b : List Byte) :
    (s.wrHost fn off b).mem = s.mem ∧ (s.wrHost fn off b).host = wrCells s.host (cellsAt (hostKey fn off) b) := by
  rw [State.wrHost, if_pos h]
  exact ⟨rfl, rfl⟩

/-- A record in host memory is written. -/
theorem State.recordStored_host (hon : v.hostOn (s.qPart q) = true) (h : (s.ringAddr q true).space = 3) :
    (s.recordStored v q r).mem = v.mem ∧
      (s.recordStored v q r).host = wrCells v.host (cellsAt (hostKey (s.qPart q) (s.recordAt q)) (s.recordData q r)) := by
  have hmuted : (v.openRecord q).muted srcQueue = false := by simp [State.muted, srcQueue]
  have hopen : (v.openRecord q).hostOn (s.qPart q) = true := hon
  obtain ⟨hmem, hhost, -⟩ := State.stored_iff.mp (v.openRecord_stored q)
  obtain ⟨hwmem, hwhost⟩ := State.wrHost_on hopen (s.recordAt q) (s.recordData q r)
  rw [State.recordStored, State.storeBytes, if_pos h, hmuted, if_neg (by decide), hwmem, hwhost, hmem, hhost]
  exact ⟨rfl, rfl⟩

/-- Cells whose tiles take them now land, whatever is repaired first. -/
theorem State.storeCells_mem (w : s.Wf) {src part : Nat} {cells : List Host.Cell} (bad : Bool) (tx : Option Nat)
    (hnow : ∀ c ∈ cells, s.takesNow src c.1) : (s.storeCells src part cells bad tx).mem = wrCells s.mem cells := by
  have hused : Aside [] s (s.cellsUsed cells) := State.cellsUsed_aside w cells
  have hflag := s.cellsUsed_flagged cells
  rw [State.storeCells_eq]
  generalize s.cellsUsed cells = x at hused hflag
  rw [State.flagged] at hflag
  have hmem : x.mem = s.mem := (congrArg State.mem hflag :)
  have hdir : x.dir = s.dir := (congrArg State.dir hflag :)
  have hwait : x.waitWrites = s.waitWrites := (congrArg State.waitWrites hflag :)
  split
  · obtain ⟨l, hl⟩ := x.applyStore_eq cells bad
    rw [hl, ← hmem]
  · obtain ⟨d, l, hland⟩ := State.storeGroups_land hused.wf (src := src) (p := part) (bad := bad) (tx := tx)
      (l := groupCells cells) fun g hg c hc =>
        hused.takesNow (ringApart_nil (q := 0) (by decide)) hdir hwait
          (hnow c (by rw [← groupCells_flatten cells]; exact List.mem_flatten_of_mem hg hc))
    rw [hland, ← hmem, groupCells_flatten]

/-- A record in the stacks lands where no tile of its slot moves and no record before it waits there. -/
theorem State.recordStored_mem (w : v.Wf) (h : (s.ringAddr q true).space = 0)
    (hnow : ∀ k < 64, v.takesNow srcQueue (s.recordAt q + k)) :
    (s.recordStored v q r).mem = wrCells v.mem (cellsAt (s.recordAt q) (s.recordData q r)) := by
  have wopen := (State.openTx_kept (Kept.refl v) (.record q none)).wf w
  rw [State.recordStored, State.storeBytes, if_neg (by omega)]
  refine State.storeCells_mem wopen false _ fun c hc => ?_
  obtain ⟨hlo, hhi⟩ := mem_cellsAt _ _ hc
  rw [recordData_length] at hhi
  have := hnow (c.1 - s.recordAt q) (by omega)
  rwa [Nat.add_sub_cancel' hlo] at this

theorem hostWf_of_wf (w : s.Wf) : memWf s.host = true := by
  have := w.1
  simp_all [State.memsWf]

section
variable (k : Recordable s q) (w : s.Wf) (hr : r.doneCtr = none)
include k w hr

/-- What writing a record comes to: repairs, the record stored, its tail moved and its interrupt. -/
theorem State.writeRecord_steps :
    ∃ v, Aside [] s v ∧ s.flagged v ∧ Recorded q s (s.writeRecord q r) ∧
      (s.writeRecord q r).stored = (s.recordStored v q r).stored := by
  obtain ⟨v, huse, hflag, heq⟩ := State.writeRecord_eq w k.range hr
  have hstored : Aside [] (v.openRecord q) (s.recordStored v q r) := State.recordStored_aside huse.wf
  obtain ⟨hrec, hsettle⟩ := State.settleTx_recorded k.range (Recorded.of_tailMoved huse hstored)
    (State.tailMoved_due huse hstored k.due)
  rw [heq]
  exact ⟨v, huse, hflag, hrec, hsettle.trans (State.tailMoved_stored ..)⟩

theorem State.writeRecord_recorded : Recorded q s (s.writeRecord q r) := by
  obtain ⟨-, -, -, hrec, -⟩ := State.writeRecord_steps k w hr
  exact hrec

/-- A record in host memory leaves the stacks. -/
theorem State.writeRecord_mem (h : (s.ringAddr q true).space = 3) : (s.writeRecord q r).mem = s.mem := by
  obtain ⟨v, huse, hflag, -, hstored⟩ := State.writeRecord_steps k w hr
  obtain ⟨hmem, -⟩ := State.stored_iff.mp (State.flagged_stored hflag)
  rw [(State.stored_iff.mp hstored).1, (State.recordStored_host ((huse.hostOn _).trans (k.hostOn h)) h).1, hmem]

/-- The record stands in its slot. -/
theorem State.writeRecord_stands : s.recordStands (s.writeRecord q r) q r := by
  obtain ⟨v, huse, hflag, -, hstored⟩ := State.writeRecord_steps k w hr
  obtain ⟨hmem, hhost, hdir, hwait⟩ := State.stored_iff.mp (State.flagged_stored hflag)
  obtain ⟨hsmem, hshost, -⟩ := State.stored_iff.mp hstored
  intro off (hoff : off = s.recordAt q)
  rw [hoff]
  have hreads : ∀ m a, memWf m = true → rdBytes (wrCells m (cellsAt a (s.recordData q r))) a 64 = s.recordData q r := fun m a hm =>
    recordData_length s q r ▸ rdBytes_wrCells (s.recordData q r) m a hm
  refine ⟨fun h => ?_, fun h hnow => ?_⟩
  · rw [hshost, (State.recordStored_host ((huse.hostOn _).trans (k.hostOn h)) h).2]
    exact hreads _ _ (hhost ▸ hostWf_of_wf w)
  · have hv : ∀ i < 64, v.takesNow srcQueue (s.recordAt q + i) := fun i hi =>
      huse.takesNow (ringApart_nil k.range) hdir hwait (hnow i hi)
    rw [hsmem, State.recordStored_mem huse.wf h hv]
    exact hreads _ _ (hmem ▸ memWf_of_wf w)
end

end Sys2Proof.Machine
end

section
/-! The end of a codec job (R355, R391): its log, its record, and the engine that is free. -/

namespace Sys2Proof.Machine

variable {keys : List Nat} {s t x : State} {q : Nat} {r : Rec} {c : CodecId} {j : CodecJob}

/-- Where a ring's registers stay, and what keeps its record from landing, the record stands where it did. -/
theorem RingKept.recordStands (h : RingKept keys s x) (ha : RingApart keys q) (hstored : x.stored = s.stored)
    (k : x.recordStands t q r) : s.recordStands t q r := by
  obtain ⟨-, -, hdir, hwait⟩ := State.stored_iff.mp hstored
  intro off hoff
  obtain ⟨hhost, hmem⟩ := k off (by rw [hoff, h.ringAddr ha, h.tail ha, h.cqDepth ha])
  rw [h.ringAddr ha, h.tail ha, h.time] at hhost hmem
  rw [h.qPart ha] at hhost
  exact ⟨hhost, fun h0 hnow => hmem h0 fun i hi => h.takesNow ha hdir hwait (hnow i hi)⟩

theorem State.recordStands_congr {u : State} (hstored : u.stored = t.stored) (k : s.recordStands t q r) : s.recordStands u q r := by
  obtain ⟨hmem, hhost, -⟩ := State.stored_iff.mp hstored
  intro off hoff
  rw [hhost, hmem]
  exact k off hoff

theorem State.postRecord_now (k : Recordable s q) (hm : r.mute = false) : s.postRecord q r = (s.writeRecord q r, true) := by
  simp [State.postRecord, hm, k.none, k.reach, k.free]

/-- A job has ended with record `r` in queue q: the engine is free, the record stands and the ring's tail has moved. -/
structure JobEnded (c : CodecId) (q : Nat) (r : Rec) (s t : State) : Prop where
  job : (t.codec c).job = none
  tail : t.val (.qCqTail q) = s.val (.qCqTail q) + 1
  mem : (s.ringAddr q true).space = 3 → t.mem = s.mem
  stands : s.recordStands t q r

/-- The same from a state before, where the ring is the same and the same bytes stand. -/
theorem JobEnded.back (h : RingKept keys s x) (ha : RingApart keys q) (hstored : x.stored = s.stored) (k : JobEnded c q r x t) :
    JobEnded c q r s t where
  job := k.job
  tail := k.tail.trans (by rw [h.tail ha])
  mem hs := (k.mem (by rw [h.ringAddr ha, hs])).trans (State.stored_iff.mp hstored).1
  stands := h.recordStands ha hstored k.stands

theorem State.codec_congr (h : t.codecs = s.codecs) (c : Nat) : t.codec c = s.codec c := by rw [State.codec, State.codec, h]

/-- The engine is free. -/
def State.freed (s : State) (c : CodecId) : State := s.setCodec c { s.codec c with job := none }

theorem State.freed_job (w : s.Wf) (c : CodecId) : ((s.freed c).codec c).job = none := by
  rw [State.freed, State.codec_setCodec s w.codecs, if_pos rfl]

@[simp] theorem State.freed_slots (w : s.Wf) (c : CodecId) : ((s.freed c).codec c).slots = (s.codec c).slots := by
  rw [State.freed, State.codec_setCodec s w.codecs, if_pos rfl]

theorem State.freed_val (s : State) (c : CodecId) (r : Reg) : (s.freed c).val r = s.val r := rfl
theorem State.freed_ctr (s : State) (c : CodecId) : (s.freed c).ctr = s.ctr := rfl
theorem State.freed_stored (s : State) (c : CodecId) : (s.freed c).stored = s.stored := rfl

/-- A job's record is written, and its engine is free. -/
def State.recordFreed (s : State) (c : CodecId) (q : Nat) (r : Rec) : State := (s.writeRecord q r).freed c

section
variable (w : s.Wf) (k : Recordable s q) (hr : r.doneCtr = none)
include w k hr

theorem State.recordFreed_ended (c : CodecId) : JobEnded c q r s (s.recordFreed c q r) where
  job := State.freed_job (State.writeRecord_recorded k w hr).wf c
  tail := (State.freed_val ..).trans (State.writeRecord_recorded k w hr).tail
  mem hs := (State.stored_iff.mp (State.freed_stored ..)).1.trans (State.writeRecord_mem k w hr hs)
  stands := State.recordStands_congr (State.freed_stored ..) (State.writeRecord_stands k w hr)

theorem State.recordFreed_slots (c : CodecId) : ((s.recordFreed c q r).codec c).slots = (s.codec c).slots :=
  (State.freed_slots (State.writeRecord_recorded k w hr).wf c).trans
    (by rw [State.codec_congr (State.writeRecord_recorded k w hr).codecs])

theorem State.recordFreed_ctr (c : CodecId) : (s.recordFreed c q r).ctr = s.ctr :=
  (State.freed_ctr ..).trans (State.writeRecord_recorded k w hr).ctr

theorem State.recordFreed_log (c : CodecId) : (s.recordFreed c q r).val (.codLog c) = s.val (.codLog c) :=
  (State.freed_val ..).trans ((State.writeRecord_recorded k w hr).val _
    ((codLog_lasts c).cons ((Reg.OfRing.tail : (Reg.qCqTail q).OfRing q).ne_codLog c).symm))
end

theorem codLog_mayChange (c : CodecId) : (Reg.codLog c).mayChange [(Reg.codLog c).key] := .inr (by simp)

theorem State.codLog_flag_aside (w : s.Wf) (c : CodecId) (b : Nat) (f : Bool) :
    Aside [(Reg.codLog c).key] s (s.flag (.codLog c) b f) := State.flag_aside w (codLog_mayChange c) b f

theorem State.flag_flagged (s : State) (r : Reg) (b : Nat) (f : Bool) : s.flagged (s.flag r b f) := by
  unfold State.flag
  split
  · exact s.setWz_flagged r b []
  · exact s.flagged_refl

theorem State.endCodec_eq {fault : Bool} (k : Recordable (s.flag (.codLog c) 0 fault) j.queue) (hm : j.mute = false) (code : Nat) :
    s.endCodec c j code fault = (s.flag (.codLog c) 0 fault).recordFreed c j.queue (jobRec (.codec c) j.wseq code) := by
  have hrec : ({ jobRec (.codec c) j.wseq code with mute := j.mute } : Rec) = jobRec (.codec c) j.wseq code := by
    rw [hm]
    rfl
  rw [State.endCodec, hrec]
  dsimp only
  rw [State.postRecord_now k rfl]
  rfl

section
variable (w : s.Wf) (k : Recordable s j.queue) (hm : j.mute = false) (code : Nat)
include w k hm

/-- A job that ends with a code and without a fault. -/
theorem State.endCodec_calm :
    JobEnded c j.queue (jobRec (.codec c) j.wseq code) s (s.endCodec c j code false) ∧
      ((s.endCodec c j code false).codec c).slots = (s.codec c).slots ∧ (s.endCodec c j code false).ctr = s.ctr ∧
      (s.endCodec c j code false).val (.codLog c) = s.val (.codLog c) := by
  have k' : Recordable (s.flag (.codLog c) 0 false) j.queue := k
  rw [State.endCodec_eq k' hm]
  exact ⟨State.recordFreed_ended w k rfl c, State.recordFreed_slots w k rfl c, State.recordFreed_ctr w k rfl c,
    State.recordFreed_log w k rfl c⟩

/-- A job that faults is logged (R355). -/
theorem State.endCodec_faulted :
    JobEnded c j.queue (jobRec (.codec c) j.wseq code) s (s.endCodec c j code true) ∧
      ((s.endCodec c j code true).codec c).slots = (s.codec c).slots ∧ (s.endCodec c j code true).ctr = s.ctr ∧
      ((s.endCodec c j code true).val (.codLog c)).getLsbD 0 = true := by
  have hflag := State.codLog_flag_aside w c 0 true
  have hbit : ((s.flag (.codLog c) 0 true).val (.codLog c)).getLsbD 0 = true := State.setWz_bit w _ (by decide) []
  have hstored := State.flagged_stored (s.flag_flagged (.codLog c) 0 true)
  have ha := ringApart_codLog k.range c
  have ky := hflag.recordable ha k
  rw [State.endCodec_eq ky hm]
  generalize s.flag (.codLog c) 0 true = y at *
  have hlog := State.recordFreed_log hflag.wf ky (r := jobRec (.codec c) j.wseq code) rfl c
  exact ⟨(State.recordFreed_ended hflag.wf ky rfl c).back hflag.toRingKept ha hstored,
    (State.recordFreed_slots hflag.wf ky rfl c).trans (by rw [State.codec_congr hflag.codecs]),
    (State.recordFreed_ctr hflag.wf ky rfl c).trans hflag.ctr, hlog ▸ hbit⟩

/-- A job that has done its work: SIG_CTR is signalled, then the job ends. -/
theorem State.doneCodec_ended :
    JobEnded c j.queue (jobRec (.codec c) j.wseq 0) s (s.doneCodec c j false) ∧
      ((s.doneCodec c j false).codec c).slots = (s.codec c).slots ∧
      ∀ n, (s.doneCodec c j false).counter n = if n = jSig j.record then s.counter n + 1 else s.counter n := by
  have hsig : RingKept [] s (s.signal (jSig j.record) 1) := State.signal_ringKept w _ _
  have hctr := State.counter_signal w (jSig j.record) 1
  have hcodecs := State.signal_codecs w (jSig j.record) 1
  have hstored := s.signal_stored (jSig j.record) 1
  have ha := ringApart_nil k.range
  rw [State.doneCodec, if_neg (by decide)]
  generalize s.signal (jSig j.record) 1 = y at *
  obtain ⟨hend, hslots, hsame, -⟩ := State.endCodec_calm (c := c) hsig.wf (hsig.recordable ha k) hm 0
  exact ⟨hend.back hsig ha hstored, hslots.trans (by rw [State.codec_congr hcodecs]), fun n => by
    rw [State.counter_congr hsame, hctr]⟩
end

end Sys2Proof.Machine
end

section
/-! A stream's slots, and the start of a codec job (R352, R354 to R356). -/

namespace Sys2Proof.Machine

variable {keys : List Nat} {s t x : State} {c : CodecId} {j : CodecJob}

theorem State.slot_setSlot (w : s.Wf) (hs : rising (s.codec c).slots = true) (k : Nat) (v : Option Slot) (i : Nat) :
    (s.setSlot c k v).slot c i = if i = k then v else s.slot c i := by
  rw [State.slot, State.setSlot, State.codec_setCodec s w.codecs, if_pos rfl, State.slot]
  split
  · rename_i h
    rw [h]
    exact tget_tset_same none k v hs
  · rename_i h
    exact tget_tset_other none v h hs

theorem State.setSlot_slots (w : s.Wf) (hs : rising (s.codec c).slots = true) (k : Nat) (v : Option Slot) :
    rising ((s.setSlot c k v).codec c).slots = true := by
  rw [State.setSlot, State.codec_setCodec s w.codecs, if_pos rfl]
  exact rising_tset none k v hs

theorem State.setSlot_ringKept (w : s.Wf) (k : Nat) (v : Option Slot) : RingKept keys s (s.setSlot c k v) :=
  RingKept.of_eq ((State.setSlot_kept (Kept.refl s) c k v).wf w) rfl

theorem State.setSlot_stored (s : State) (k : Nat) (v : Option Slot) : (s.setSlot c k v).stored = s.stored := rfl

theorem State.setSlot_counter (s : State) (k : Nat) (v : Option Slot) (n : Nat) : (s.setSlot c k v).counter n = s.counter n := rfl

theorem State.slot_congr (h : (t.codec c).slots = (s.codec c).slots) (k : Nat) : t.slot c k = s.slot c k := by
  rw [State.slot, State.slot, h]

/-- The engine holds this job. -/
def State.setJob (s : State) (c : CodecId) (j : CodecJob) : State := s.setCodec c { s.codec c with job := some j }

theorem State.codec_setJob (w : s.Wf) (c : CodecId) (j : CodecJob) : (s.setJob c j).codec c = { s.codec c with job := some j } := by
  rw [State.setJob, State.codec_setCodec s w.codecs, if_pos rfl]

theorem State.setJob_wf (w : s.Wf) (c : CodecId) (j : CodecJob) : (s.setJob c j).Wf := (State.setCodec_kept (Kept.refl s) c _).wf w

theorem State.setJob_slots (w : s.Wf) (c : CodecId) (j : CodecJob) : ((s.setJob c j).codec c).slots = (s.codec c).slots := by
  rw [State.codec_setJob w]

/-- A job that passes its checks runs. -/
theorem CodecStarts.startCodec {op : Nat} (h : CodecStarts s c op j) (run : State → CodecJob → State) :
    s.startCodec c op run = run s j := by
  obtain ⟨hposted, hstarted⟩ := h.fresh
  simp [State.startCodec, h.job, h.live, hposted, hstarted, h.opcode, State.usePart_calm h.calm, h.code]

/-- A job that changes one slot and has done its work. -/
theorem State.setSlot_doneCodec (w : s.Wf) (hs : rising (s.codec c).slots = true) (kq : Recordable s j.queue) (hm : j.mute = false)
    (k : Nat) (v : Option Slot) :
    JobEnded c j.queue (jobRec (.codec c) j.wseq 0) s ((s.setSlot c k v).doneCodec c j false) ∧
      (∀ i, ((s.setSlot c k v).doneCodec c j false).slot c i = if i = k then v else s.slot c i) ∧
      ∀ n, ((s.setSlot c k v).doneCodec c j false).counter n = if n = jSig j.record then s.counter n + 1 else s.counter n := by
  have hset : RingKept [] s (s.setSlot c k v) := State.setSlot_ringKept w k v
  have ha := ringApart_nil kq.range
  have hslot := State.slot_setSlot w hs k v
  have hstored := s.setSlot_stored (c := c) k v
  have hcounter := s.setSlot_counter (c := c) k v
  generalize s.setSlot c k v = y at *
  obtain ⟨hend, hslots, hctr⟩ := State.doneCodec_ended (c := c) hset.wf (hset.recordable ha kq) hm
  exact ⟨hend.back hset ha hstored, fun i => (State.slot_congr hslots i).trans (hslot i), fun n => by rw [hctr, hcounter]⟩

/-! Bringing tiles near leaves what is poisoned. -/

theorem State.flagged_poison (h : s.flagged t) : t.poison = s.poison := by
  rw [State.flagged] at h
  exact (congrArg State.poison h :)

theorem State.evictTile_poison (s : State) (tile : Nat) : (s.evictTile tile).poison = s.poison := by
  obtain ⟨d, hd⟩ := s.evictTile_eq tile
  rw [hd]

theorem State.obtain_poison (n : Nat) (s : State) (p : PromoWait) : (State.obtain n s p).1.poison = s.poison := by
  induction n generalizing s p with
  | zero => rfl
  | succ n ih =>
    unfold State.obtain
    dsimp only
    split
    · rfl
    · split
      · split
        · rfl
        · exact State.flagged_poison (State.flagged_trans (s.count_flagged _ 1) (State.setWz_flagged _ _ 0 []))
      · split
        · exact s.evictTile_poison _
        · exact (ih _ _).trans (s.evictTile_poison _)

theorem State.promote_poison (s : State) (tile : Nat) (p3 : Bool) : (s.promote tile p3).poison = s.poison := by
  unfold State.promote
  split
  · split
    case h_2 | h_3 =>
      obtain ⟨d, hd⟩ := s.touch_eq tile
      rw [hd]
    all_goals rfl
  · have huse := State.flagged_poison (s.use_flagged [.partCeil (s.tileOwner tile)])
    dsimp only
    generalize s.use [.partCeil (s.tileOwner tile)] = u at huse
    split
    · exact huse
    · split
      · exact huse
      · split
        all_goals
          rename_i heq
          exact (congrArg (fun x => x.1.poison) heq).symm.trans ((State.obtain_poison _ _ _).trans huse)

theorem State.nearOf_poison (s : State) (a len : Nat) : (s.nearOf a len).poison = s.poison := by
  unfold State.nearOf
  split
  · refine List.foldlRecOn (motive := fun t : State => t.poison = s.poison) _ _
      (State.flagged_poison (s.useStacks_flagged _ _)) fun t ih tile _ => (t.promote_poison tile true).trans ih
  · rfl

end Sys2Proof.Machine
end

section
/-! OPEN and CLOSE (R356, R357). -/

namespace Sys2Proof.Machine

variable {s t : State} {c : CodecId} {j : CodecJob}

/-- The slot that OPEN fills: the configuration at ADDR_A, and a stream that has not begun. -/
def State.openedSlot (s : State) (j : CodecJob) : Slot :=
  { cfg := BitVec.ofNat 512 (s.rdVal j.part (gaddr (jA j.record)) 64), frames := 0, full := 0, ref := 0, outN := 0, cycle := none
    mapBase := 0, vecs := [], qp := 0, dec := dec0 }

theorem exec_openStream (h : CodecStarts s c 0 j) (hbusy : s.jobBusy (jA j.record) 64 = false)
    (hpoison : s.jobPoison (jA j.record) 64 = false) :
    exec (.openStream c) s =
      .next (((s.nearOf (jA j.record) 64).setSlot c (jStream j.record) (some (s.openedSlot j))).doneCodec c j false) := by
  have hnear : (s.nearOf (jA j.record) 64).jobPoison (jA j.record) 64 = false := by
    rw [← hpoison]
    simp only [State.jobPoison, State.poisoned, State.nearOf_poison]
  change execOpenStream c s = _
  rw [execOpenStream, h.startCodec, hbusy, if_neg (by decide)]
  dsimp only
  rw [hnear, if_neg (by decide)]
  rfl

/-- A job that has not started has written no frames. -/
theorem CodecStarts.emitted {op : Nat} (h : CodecStarts s c op j) : s.emitted c op = none := by
  simp [State.emitted, h.job, h.fresh.2]

/-- The frames that a CLOSE of the slot has still to write. -/
def dueAtClose (c : CodecId) (sl : Slot) : List Config.Decoded :=
  if isDecoder c then dueFrames sl.dec.kept (Config.decodeFlush sl.cfg sl.ref) else []

section
variable {sl : Slot} (h : CodecStarts s c 2 j) (hsl : s.slot c (jStream j.record) = some sl)
include h hsl

theorem exec_closeStream_none (hdue : dueAtClose c sl = []) :
    exec (.closeStream c) s = .next ((s.setSlot c (jStream j.record) none).doneCodec c j false) := by
  change execCloseStream c s = _
  rw [execCloseStream, h.emitted, h.startCodec, hsl]
  dsimp only
  rw [← dueAtClose, hdue]
  rfl

theorem exec_closeStream_refused (hdue : dueAtClose c sl ≠ []) (hring : s.ringCheck j.part sl.cfg sl.mapBase ≠ 0) :
    exec (.closeStream c) s = .next (s.endCodec c j (s.ringCheck j.part sl.cfg sl.mapBase) true) := by
  change execCloseStream c s = _
  rw [execCloseStream, h.emitted, h.startCodec, hsl]
  dsimp only
  rw [← dueAtClose, List.isEmpty_eq_false_iff.mpr hdue, if_neg (by decide)]
  split
  · exact absurd ‹_› hring
  · rfl

theorem exec_closeStream_emits (hdue : dueAtClose c sl ≠ []) (hring : s.ringCheck j.part sl.cfg sl.mapBase = 0)
    (hbusy : s.ringsBusy sl.cfg sl.mapBase = false) :
    exec (.closeStream c) s = .next (s.emitAll c j sl.cfg sl.mapBase false (dueAtClose c sl)) := by
  change execCloseStream c s = _
  rw [execCloseStream, h.emitted, h.startCodec, hsl]
  dsimp only
  rw [← dueAtClose, List.isEmpty_eq_false_iff.mpr hdue, if_neg (by decide), hring, hbusy]
  rfl
end

/-- A CLOSE whose frames are written waits for them to land. -/
theorem exec_closeStream_started (hd : isDecoder c = true) (hl : s.live = true) (hj : (s.codec c).job = some j)
    (hs : j.started = true) (hp : j.posted = false) (hop : jOp j.record = 2) :
    exec (.closeStream c) s = .next (s.decodeEnd c j) := by
  have hemitted : s.emitted c 2 = some j := by simp [State.emitted, hj, hl, hd, hs, hp, hop]
  change execCloseStream c s = _
  rw [execCloseStream, hemitted]

/-- The frames written are counted in UNIT_CTR. -/
def State.unitsSignalled (s : State) (j : CodecJob) : State :=
  if j.done = 0 then s else s.signal (jUnit j.record) (BitVec.ofNat 32 j.done)

theorem State.unitsSignalled_ringKept (w : s.Wf) (j : CodecJob) : RingKept [] s (s.unitsSignalled j) := by
  unfold State.unitsSignalled
  split
  · exact RingKept.refl w
  · exact State.signal_ringKept w _ _

theorem State.unitsSignalled_codecs (w : s.Wf) (j : CodecJob) : (s.unitsSignalled j).codecs = s.codecs := by
  unfold State.unitsSignalled
  split
  · rfl
  · exact State.signal_codecs w _ _

theorem State.unitsSignalled_stored (s : State) (j : CodecJob) : (s.unitsSignalled j).stored = s.stored := by
  unfold State.unitsSignalled
  split
  · rfl
  · exact s.signal_stored _ _

theorem State.unitsSignalled_counter (w : s.Wf) (j : CodecJob) (n : Nat) :
    (s.unitsSignalled j).counter n = s.counter n + if n = jUnit j.record then BitVec.ofNat 32 j.done else 0 := by
  unfold State.unitsSignalled
  split
  · rename_i h
    simp [h]
  · rw [State.counter_signal w]
    split <;> simp

theorem State.decodeEnd_closes (hleft : s.writesLeft (srcCodec c) = false) (hop : jOp j.record = 2) (hbad : j.bad = false) :
    s.decodeEnd c j = ((s.unitsSignalled j).setSlot c (jStream j.record) none).doneCodec c j false := by
  rw [State.decodeEnd, hleft, if_neg (by decide), hbad, hop, State.unitsSignalled]
  simp

/-- What the end of a CLOSE leaves once all that it wrote has landed. -/
theorem State.decodeEnd_ended (w : s.Wf) (hs : rising (s.codec c).slots = true) (kq : Recordable s j.queue) (hm : j.mute = false)
    (hleft : s.writesLeft (srcCodec c) = false) (hop : jOp j.record = 2) (hbad : j.bad = false) :
    JobEnded c j.queue (jobRec (.codec c) j.wseq 0) s (s.decodeEnd c j) ∧
      (∀ i, (s.decodeEnd c j).slot c i = if i = jStream j.record then none else s.slot c i) ∧
      ∀ n, (s.decodeEnd c j).counter n = s.counter n + (if n = jUnit j.record then BitVec.ofNat 32 j.done else 0) +
        (if n = jSig j.record then 1 else 0) := by
  have hsig := State.unitsSignalled_ringKept w j
  have hcodecs := State.unitsSignalled_codecs w j
  have hstored := s.unitsSignalled_stored j
  have hcounter := State.unitsSignalled_counter w j
  have ha := ringApart_nil kq.range
  rw [State.decodeEnd_closes hleft hop hbad]
  generalize s.unitsSignalled j = y at *
  have hcodec := State.codec_congr hcodecs c
  obtain ⟨hend, hslot, hctr⟩ :=
    State.setSlot_doneCodec hsig.wf (by rw [hcodec, hs]) (hsig.recordable ha kq) hm (jStream j.record) none
  refine ⟨hend.back hsig ha hstored, fun i => ?_, fun n => ?_⟩
  · rw [hslot, State.slot_congr (congrArg Codec.slots hcodec)]
  · rw [hctr, hcounter]
    split <;> simp

end Sys2Proof.Machine
end

section
/-! Frames that fall due are written (R367, R370). -/

namespace Sys2Proof.Machine

variable {s t : State} {c : CodecId} {j : CodecJob}

/-- Pieces of bytes written one after the other. -/
def putPieces (m : Mem) (l : List (Nat × List Byte)) : Mem := l.foldl (fun m x => wrCells m (cellsAt x.1 x.2)) m

theorem putPieces_append (m : Mem) (l k : List (Nat × List Byte)) : putPieces m (l ++ k) = putPieces (putPieces m l) k :=
  List.foldl_append

/-- Bytes apart from every piece read as before. -/
theorem rdBytes_putPieces_apart {l : List (Nat × List Byte)} {m : Mem} (hm : memWf m = true) {a n : Nat}
    (h : ∀ x ∈ l, a + n ≤ x.1 ∨ x.1 + x.2.length ≤ a) : rdBytes (putPieces m l) a n = rdBytes m a n := by
  induction l generalizing m with
  | nil => rfl
  | cons y l ih =>
    refine (ih (memWf_wrCells _ m hm) fun x hx => h x (List.mem_cons_of_mem y hx)).trans (rdBytes_congr n fun i hlo hhi => ?_)
    have := h y (List.mem_cons_self ..)
    exact rd_wrCells_beside hm (by omega)

theorem rdBytes_putPieces {l : List (Nat × List Byte)} {m : Mem} (hm : memWf m = true) (h : piecesApart l) {x : Nat × List Byte}
    (hx : x ∈ l) : rdBytes (putPieces m l) x.1 x.2.length = x.2 := by
  induction l generalizing m with
  | nil => simp at hx
  | cons y l ih =>
    obtain ⟨hy, hl⟩ := List.pairwise_cons.mp h
    obtain rfl | hx := List.mem_cons.mp hx
    · exact (rdBytes_putPieces_apart (memWf_wrCells _ m hm) hy).trans (rdBytes_wrCells x.2 m x.1 hm)
    · exact ih (memWf_wrCells _ m hm) hl hx

/-- What one frame writes, as output frame `n` of its stream. -/
def piecesOf (cfg : Cfg) (map n : Nat) (f : Config.Decoded) : List (Nat × List Byte) :=
  (frameCells cfg f).map (fun y => ((gaddr (cRing cfg)).off + n % max (cOut cfg) 1 * cStep cfg + y.1, y.2)) ++
    [((gaddr map).off + n % max (cOut cfg) 1 * cMap cfg, mapBytes n f)]

theorem framePieces_cons (cfg : Cfg) (map n : Nat) (f : Config.Decoded) (l : List Config.Decoded) :
    framePieces cfg map n (f :: l) = piecesOf cfg map n f ++ framePieces cfg map (n + 1) l := by
  have heach : ∀ m k, framePieces cfg map m k = k.zipIdx.flatMap fun x => piecesOf cfg map (m + x.2) x.1 := fun _ _ => rfl
  have hshift : ∀ x : Config.Decoded × Nat, piecesOf cfg map (n + (x.2 + 1)) x.1 = piecesOf cfg map (n + 1 + x.2) x.1 := fun x => by
    rw [Nat.add_right_comm, Nat.add_assoc]
  simp only [heach, List.zipIdx_cons', List.flatMap_cons, List.flatMap_map, Prod.map_fst, Prod.map_snd, id_eq, hshift]
  rfl

theorem memWf_putPieces {m : Mem} (hm : memWf m = true) (l : List (Nat × List Byte)) : memWf (putPieces m l) = true :=
  List.foldlRecOn (motive := fun m => memWf m = true) l _ hm fun _ h _ _ => memWf_wrCells _ _ h

theorem State.Wf.withMem (w : s.Wf) {m : Mem} (hm : memWf m = true) (x : List Nat) : ({ s with mem := m, poison := x } : State).Wf := by
  refine ⟨?_, w.2⟩
  have := w.1
  simp_all [State.memsWf]

/-- Pieces stored in the stacks while nothing keeps them from landing. -/
theorem State.storePieces (hd : s.dir = []) (hw : s.waitWrites = []) (hu : s.upset = false) (src p : Nat) {space : Nat}
    (hs : space ≠ 3) (l : List (Nat × List Byte)) :
    ∃ x, l.foldl (fun (t : State) y => t.storeBytes src p space y.1 y.2 false) s = { s with mem := putPieces s.mem l, poison := x } := by
  induction l generalizing s with
  | nil => exact ⟨s.poison, rfl⟩
  | cons y l ih =>
    obtain ⟨x, hx⟩ := State.storeBytes_still hd hw hu src p hs y.1 y.2 false
    obtain ⟨x', hx'⟩ := ih (s := { s with mem := wrCells s.mem (cellsAt y.1 y.2), poison := x }) hd hw hu
    exact ⟨x', by rw [List.foldl_cons, hx, hx']; rfl⟩

section
variable {sl : Slot} {map : Nat} (hd : s.dir = []) (hw : s.waitWrites = []) (hu : s.upset = false)
  (hring : (gaddr (cRing sl.cfg)).space = 0) (hmap : (gaddr map).space = 0)
include hd hw hu hring hmap

theorem State.emitFrame_eq (hsl : s.slot c (jStream j.record) = some sl) (f : Config.Decoded) :
    ∃ x, s.emitFrame c j map false f =
      ({ s with mem := putPieces s.mem (piecesOf sl.cfg map sl.outN f), poison := x } : State).setSlot c (jStream j.record)
        (some { sl with outN := sl.outN + 1 }) := by
  obtain ⟨x, hx⟩ := State.storePieces hd hw hu (srcCodec c) j.part (space := 0) (by decide) (piecesOf sl.cfg map sl.outN f)
  refine ⟨x, ?_⟩
  rw [← hx, piecesOf, List.foldl_append, List.foldl_map, State.emitFrame, hsl]
  simp only [hring, hmap]
  rfl

/-- Frames are written one after the other: their pieces stand in memory, and no other slot changes. -/
theorem State.emitFrames (w : s.Wf) (hs : rising (s.codec c).slots = true) (hsl : s.slot c (jStream j.record) = some sl)
    (l : List Config.Decoded) :
    ∃ t, l.foldl (fun t f => t.emitFrame c j map false f) s = t ∧ t.Wf ∧ rising (t.codec c).slots = true ∧
      (∀ i, i ≠ jStream j.record → t.slot c i = s.slot c i) ∧
      t = { s with mem := putPieces s.mem (framePieces sl.cfg map sl.outN l), poison := t.poison, codecs := t.codecs } := by
  induction l generalizing s sl with
  | nil => exact ⟨s, rfl, w, hs, fun _ _ => rfl, rfl⟩
  | cons f l ih =>
    have wput := (State.emitFrame_kept (Kept.refl s) c j map false f).wf w
    obtain ⟨x, hx⟩ := State.emitFrame_eq hd hw hu hring hmap hsl f
    have wstore := w.withMem (memWf_putPieces (memWf_of_wf w) (piecesOf sl.cfg map sl.outN f)) x
    have hslot := State.slot_setSlot wstore hs (jStream j.record) (some { sl with outN := sl.outN + 1 })
    have hslots := State.setSlot_slots wstore hs (jStream j.record) (some { sl with outN := sl.outN + 1 })
    rw [← hx] at hslot hslots
    obtain ⟨t, hfold, wt, hts, hother, heq⟩ := ih (s := s.emitFrame c j map false f) (sl := { sl with outN := sl.outN + 1 })
      (by rw [hx]; exact hd) (by rw [hx]; exact hw) (by rw [hx]; exact hu) hring wput hslots (by rw [hslot, if_pos rfl])
    refine ⟨t, hfold, wt, hts, fun i hi => ?_, ?_⟩
    · rw [hother i hi, hslot, if_neg hi]
      rfl
    · rw [heq, hx, framePieces_cons, putPieces_append]
      rfl
end

/-- A job that has written `n` frames. -/
def CodecJob.wrote (j : CodecJob) (n : Nat) : CodecJob := { j with started := true, done := n, bad := false }

/-- The state in which a CLOSE has written its last frames. -/
def State.emitting (s : State) (c : CodecId) (j : CodecJob) (sl : Slot) (l : List Config.Decoded) : State :=
  l.foldl (fun t f => t.emitFrame c (j.wrote l.length) sl.mapBase false f)
    (s.setJob c (j.wrote l.length))

theorem State.emitAll_eq {sl : Slot} (hring : (gaddr (cRing sl.cfg)).space = 0) (hmap : (gaddr sl.mapBase).space = 0)
    {l : List Config.Decoded} (hl : l ≠ []) :
    s.emitAll c j sl.cfg sl.mapBase false l =
      (s.emitting c j sl l).decodeEnd c (j.wrote l.length) := by
  simp only [State.emitAll, List.isEmpty_eq_false_iff.mpr hl, Bool.false_eq_true, if_false, State.ringsNear]
  rw [State.nearOf_far (by omega), State.nearOf_far (by omega)]
  rfl

section
variable {sl : Slot} {l : List Config.Decoded} (w : s.Wf) (hs : rising (s.codec c).slots = true)
  (hsl : s.slot c (jStream j.record) = some sl) (hcalm : s.upset = false) (hland : s.landsNow)
  (hring : (gaddr (cRing sl.cfg)).space = 0) (hmap : (gaddr sl.mapBase).space = 0)
include w hs hsl hcalm hland hring hmap

/-- What the frames of a CLOSE leave: their pieces in memory, and every other slot. -/
theorem State.emitting_frame :
    RingKept [] s (s.emitting c j sl l) ∧ rising ((s.emitting c j sl l).codec c).slots = true ∧
      (∀ i, i ≠ jStream j.record → (s.emitting c j sl l).slot c i = s.slot c i) ∧
      (∀ n, (s.emitting c j sl l).counter n = s.counter n) ∧ (s.emitting c j sl l).writesLeft (srcCodec c) = false ∧
      (s.emitting c j sl l).mem = putPieces s.mem (framePieces sl.cfg sl.mapBase sl.outN l) := by
  obtain ⟨hd, hw, -⟩ := hland
  have hslots := State.setJob_slots w c (j.wrote l.length)
  have hslot := State.slot_congr hslots
  obtain ⟨t, hfold, wt, hts, hother, heq⟩ := State.emitFrames (c := c) (j := j.wrote l.length) (map := sl.mapBase)
    (s := s.setJob c (j.wrote l.length)) hd hw hcalm hring hmap (State.setJob_wf w c _) (by rw [hslots, hs])
    ((hslot _).trans hsl) l
  rw [State.emitting, hfold]
  refine ⟨RingKept.of_eq wt (by rw [heq]; rfl), hts, fun i hi => (hother i hi).trans (hslot i), fun n => ?_, ?_, ?_⟩
  · rw [heq]; rfl
  · rw [heq]
    simp [State.writesLeft, State.entries, State.setJob, State.setCodec, hd, hw]
  · rw [heq]; rfl
end

end Sys2Proof.Machine
end

section
/-! What OPEN and CLOSE leave. -/

namespace Sys2Proof.Machine

variable {s : State} {c : CodecId} {j : CodecJob}

section
variable (w : s.Wf) (hs : rising (s.codec c).slots = true) (hm : j.mute = false) (kq : Recordable s j.queue)
include w hs hm kq

theorem openStream_opens (h : CodecStarts s c 0 j) (hbusy : s.jobBusy (jA j.record) 64 = false)
    (hpoison : s.jobPoison (jA j.record) 64 = false) :
    ∃ t, exec (.openStream c) s = .next t ∧ (t.codec c).job = none ∧
      (∀ k, t.slot c k = if k = jStream j.record then some (s.openedSlot j) else s.slot c k) ∧
      (∀ n, t.counter n = if n = jSig j.record then s.counter n + 1 else s.counter n) ∧
      t.val (.qCqTail j.queue) = s.val (.qCqTail j.queue) + 1 := by
  refine ⟨_, exec_openStream h hbusy hpoison, ?_⟩
  have hnear : Aside [] s (s.nearOf (jA j.record) 64) := State.nearOf_aside w _ _
  generalize s.nearOf (jA j.record) 64 = x at hnear
  have ha := ringApart_nil kq.range
  have hcodec := State.codec_congr hnear.codecs c
  obtain ⟨hend, hslot, hctr⟩ := State.setSlot_doneCodec hnear.wf (by rw [hcodec, hs]) (hnear.recordable ha kq) hm
    (jStream j.record) (some (s.openedSlot j))
  refine ⟨hend.job, fun k => ?_, fun n => ?_, hend.tail.trans (by rw [hnear.tail ha])⟩
  · rw [hslot, State.slot_congr (congrArg Codec.slots hcodec)]
  · rw [hctr, State.counter_congr hnear.ctr]

section
variable {sl : Slot} (h : CodecStarts s c 2 j) (hsl : s.slot c (jStream j.record) = some sl)
include h hsl

theorem closeStream_closes (hdue : dueAtClose c sl = []) :
    ∃ t, exec (.closeStream c) s = .next t ∧ JobEnded c j.queue (jobRec (.codec c) j.wseq 0) s t ∧
      (∀ k, t.slot c k = if k = jStream j.record then none else s.slot c k) ∧
      (∀ n, t.counter n = if n = jSig j.record then s.counter n + 1 else s.counter n) :=
  ⟨_, exec_closeStream_none h hsl hdue, State.setSlot_doneCodec w hs kq hm _ none⟩

omit hs in
theorem closeStream_refused (hdue : dueAtClose c sl ≠ []) (hring : s.ringCheck j.part sl.cfg sl.mapBase ≠ 0) :
    ∃ t, exec (.closeStream c) s = .next t ∧
      JobEnded c j.queue (jobRec (.codec c) j.wseq (s.ringCheck j.part sl.cfg sl.mapBase)) s t ∧
      (∀ k, t.slot c k = s.slot c k) ∧ t.ctr = s.ctr ∧ (t.val (.codLog c)).getLsbD 0 = true := by
  obtain ⟨hend, hslots, hctr, hlog⟩ :=
    State.endCodec_faulted (c := c) w kq hm (s.ringCheck j.part sl.cfg sl.mapBase)
  exact ⟨_, exec_closeStream_refused h hsl hdue hring, hend, State.slot_congr hslots, hctr, hlog⟩

theorem closeStream_emits (hdue : dueAtClose c sl ≠ []) (hcheck : s.ringCheck j.part sl.cfg sl.mapBase = 0)
    (hbusy : s.ringsBusy sl.cfg sl.mapBase = false) (hland : s.landsNow) (hring : (gaddr (cRing sl.cfg)).space = 0)
    (hmap : (gaddr sl.mapBase).space = 0) :
    ∃ t, exec (.closeStream c) s = .next t ∧ JobEnded c j.queue (jobRec (.codec c) j.wseq 0) (s.emitting c j sl (dueAtClose c sl)) t ∧
      (∀ k, t.slot c k = if k = jStream j.record then none else s.slot c k) ∧
      (∀ n, t.counter n = s.counter n + (if n = jUnit j.record then BitVec.ofNat 32 (dueAtClose c sl).length else 0) +
        (if n = jSig j.record then 1 else 0)) := by
  refine ⟨_, (exec_closeStream_emits h hsl hdue hcheck hbusy).trans (by rw [State.emitAll_eq hring hmap hdue]), ?_⟩
  obtain ⟨hkept, hslots, hother, hctr, hleft, -⟩ :=
    State.emitting_frame (l := dueAtClose c sl) w hs hsl h.calm hland hring hmap
  generalize s.emitting c j sl (dueAtClose c sl) = y at *
  obtain ⟨hend, hslot, hcounter⟩ := State.decodeEnd_ended (j := j.wrote (dueAtClose c sl).length) hkept.wf hslots
    (hkept.recordable (ringApart_nil kq.range) kq) hm hleft h.opcode rfl
  refine ⟨hend, fun k => ?_, fun n => by rw [hcounter, hctr]; rfl⟩
  rw [hslot]
  by_cases hk : k = jStream j.record
  · rw [if_pos hk]
    exact if_pos hk
  · rw [if_neg hk]
    exact (if_neg hk).trans (hother k hk)
end
end

/-- The pieces of the frames that a CLOSE wrote read back once its record stands in host memory. -/
theorem emitted_pieces_read {q : Nat} {r : Rec} {sl : Slot} {l : List Config.Decoded} {t : State} (w : s.Wf) (hq : q < 4096)
    (hkept : RingKept [] s (s.emitting c j sl l))
    (hmem : (s.emitting c j sl l).mem = putPieces s.mem (framePieces sl.cfg sl.mapBase sl.outN l))
    (hend : JobEnded c q r (s.emitting c j sl l) t) (hspace : (s.ringAddr q true).space = 3)
    (hapart : piecesApart (framePieces sl.cfg sl.mapBase sl.outN l)) :
    ∀ x ∈ framePieces sl.cfg sl.mapBase sl.outN l, rdBytes t.mem x.1 x.2.length = x.2 := fun x hx => by
  rw [hend.mem (by rw [hkept.ringAddr (ringApart_nil hq), hspace]), hmem]
  exact rdBytes_putPieces (memWf_of_wf w) hapart hx

/-- Settles O35: from the end of a codec job, the slot it fills or empties, and the frames that a CLOSE writes before. -/
theorem streamOpensAndCloses : Obligations.StreamOpensAndCloses := by
  unfold Obligations.StreamOpensAndCloses
  intro c j s w hs hm hroom
  have kq := hroom.recordable
  refine ⟨fun h hbusy hpoison => ?_, fun sl due h hsl hdue => ?_, fun hd hl hj hst hp hop hbad => ⟨fun hleft => ?_, fun hleft => ?_⟩⟩
  · obtain ⟨t, ht, hjob, hslot, hctr, htail⟩ := openStream_opens w hs hm kq h hbusy hpoison
    exact ⟨t, ht, hjob, (hslot _).trans (if_pos rfl), fun k hk => (hslot k).trans (if_neg hk), hctr, htail⟩
  · obtain rfl : due = dueAtClose c sl := hdue
    refine ⟨fun hnone => ?_, fun hsome hcheck hbusy hland hring hmap => ?_, fun hsome hcheck => ?_⟩
    · obtain ⟨t, ht, hend, hslot, hctr⟩ := closeStream_closes w hs hm kq h hsl hnone
      exact ⟨t, ht, hend.job, (hslot _).trans (if_pos rfl), fun k hk => (hslot k).trans (if_neg hk), hctr, hend.stands, hend.tail⟩
    · obtain ⟨hkept, -, -, -, -, hmem⟩ := State.emitting_frame (l := dueAtClose c sl) w hs hsl h.calm hland hring hmap
      obtain ⟨t, ht, hend, hslot, hctr⟩ := closeStream_emits w hs hm kq h hsl hsome hcheck hbusy hland hring hmap
      exact ⟨t, ht, hend.job, (hslot _).trans (if_pos rfl), fun k hk => (hslot k).trans (if_neg hk), hctr,
        emitted_pieces_read w kq.range hkept hmem hend, hend.tail.trans (by rw [hkept.tail (ringApart_nil kq.range)])⟩
    · obtain ⟨t, ht, hend, hslot, hctr, hlog⟩ := closeStream_refused w hm kq h hsl hsome hcheck
      exact ⟨t, ht, hend.job, hslot, hctr, hlog, hend.stands⟩
  · rw [exec_closeStream_started hd hl hj hst hp hop, State.decodeEnd, if_pos hleft]
  · obtain ⟨hend, hslot, hctr⟩ := State.decodeEnd_ended (c := c) w hs kq hm hleft hop hbad
    exact ⟨_, exec_closeStream_started hd hl hj hst hp hop, hend.job, (hslot _).trans (if_pos rfl), hctr⟩

end Sys2Proof.Machine
end

section
/-! How the units of a frame begin (R359), and the bounds of its QPs (R362). -/

namespace Sys2Proof.Machine

/-- The first unit of an AV1 frame begins with a temporal delimiter. -/
theorem av1Unit_first (c : Cfg) (key : Bool) (frame tiles : List Byte) : (av1Unit c key true frame tiles).take 2 = [0x12, 0x00] := rfl

/-- Any other unit of an AV1 frame is a tile group. -/
theorem av1Unit_other (c : Cfg) (key : Bool) (frame tiles : List Byte) : (av1Unit c key false frame tiles).take 1 = [0x22] := rfl

/-- The first unit of an HEVC frame begins with an access unit delimiter. -/
theorem hevcUnit_first (c : Cfg) (key sei : Bool) (slice : List Byte) :
    (hevcUnit c key true sei slice).take 6 = [0, 0, 0, 1, 0x46, 1] := rfl

/-- Any other unit of an HEVC frame is a slice. -/
theorem hevcUnit_other (c : Cfg) (key sei : Bool) (slice : List Byte) :
    (hevcUnit c key false sei slice).take 6 = [0, 0, 0, 1, (if key then 0x26 else 0x02), 1] := by
  cases key <;> rfl

theorem frameUnits_length (c : Cfg) (key sei : Bool) (x : Config.EncResult) :
    (frameUnits c key sei x).length = cdiv (cHsb c) (cRows c) := by
  simp [frameUnits, unitCount]

theorem frameUnits_getElem? {c : Cfg} {key sei : Bool} {x : Config.EncResult} {k : Nat} {u : List Byte}
    (h : (frameUnits c key sei x)[k]? = some u) :
    u = if cCodec c = 0 then av1Unit c key (k == 0) x.frame (x.units.getD k []) else hevcUnit c key (k == 0) sei (x.units.getD k []) := by
  obtain ⟨i, hi, rfl⟩ := Option.map_eq_some_iff.mp (List.getElem?_map.symm.trans h)
  obtain ⟨-, rfl⟩ := List.getElem?_eq_some_iff.mp hi
  rw [List.getElem_range]

/-- Each unit of a frame begins as its standard asks. -/
theorem frameUnits_framed {c : Cfg} {key sei : Bool} {x : Config.EncResult} {k : Nat} {u : List Byte}
    (h : (frameUnits c key sei x)[k]? = some u) :
    (cCodec c = 0 → u.take (if k = 0 then 2 else 1) = (if k = 0 then [0x12, 0x00] else [0x22])) ∧
      (cCodec c ≠ 0 → u.take 6 = [0, 0, 0, 1, (if k = 0 then 0x46 else if key then 0x26 else 0x02), 1]) := by
  rw [frameUnits_getElem? h]
  refine ⟨fun hc => ?_, fun hc => ?_⟩
  · rw [if_pos hc]
    by_cases hk : k = 0
    · rw [if_pos hk, if_pos hk, hk]
      exact av1Unit_first ..
    · rw [if_neg hk, if_neg hk, beq_eq_false_iff_ne.mpr hk]
      exact av1Unit_other ..
  · rw [if_neg hc]
    by_cases hk : k = 0
    · rw [if_pos hk, hk]
      exact hevcUnit_first ..
    · rw [if_neg hk, beq_eq_false_iff_ne.mpr hk]
      exact hevcUnit_other ..

/-- The header of a slice, by the type of its frame. -/
theorem sliceHeader_key (type : Nat) : (if type == 0 then 0x26 else 0x02 : Byte) = if type = 0 then 0x26 else 0x02 := by
  by_cases h : type = 0
  · rw [h]
    rfl
  · rw [if_neg h, beq_eq_false_iff_ne.mpr h]
    rfl

theorem rowQps_length (cfg : Cfg) (start : Nat) (free : List Nat) (n : Nat) : (rowQps cfg start free n).length = n := by
  induction n with
  | zero => rfl
  | succ n ih => simp [rowQps, ih]

theorem frameQps_length (cfg : Cfg) (full prev bits : Nat) (free : List Nat) : (frameQps cfg full prev bits free).length = cHsb cfg := by
  unfold frameQps
  dsimp only
  split
  · rw [List.length_map, rowQps_length]
  · rw [rowQps_length]

section
variable {cfg : Cfg} (hlo : cQpMin cfg ≤ cQp cfg) (hhi : cQp cfg ≤ cQpMax cfg)
include hlo hhi

theorem qpClamp_bounds (q : Nat) : cQpMin cfg ≤ qpClamp cfg q ∧ qpClamp cfg q ≤ cQpMax cfg := by
  unfold qpClamp
  dsimp only
  split <;> omega

theorem rowQps_bounds (hmode : cMode cfg ≠ 0) (start : Nat) (free : List Nat) (n : Nat) :
    ∀ q ∈ rowQps cfg start free n, cQpMin cfg ≤ q ∧ q ≤ cQpMax cfg := by
  induction n with
  | zero => simp [rowQps]
  | succ n ih =>
    intro q hq
    rw [rowQps, List.mem_append, List.mem_singleton, if_neg hmode] at hq
    obtain hq | rfl := hq
    · exact ih q hq
    · split
      · exact qpClamp_bounds hlo hhi _
      · exact qpClamp_bounds hlo hhi _

theorem frameQps_bounds (hmode : cMode cfg ≠ 0) (full prev bits : Nat) (free : List Nat) :
    ∀ q ∈ frameQps cfg full prev bits free, cQpMin cfg ≤ q ∧ q ≤ cQpMax cfg := by
  intro q hq
  unfold frameQps at hq
  dsimp only at hq
  split at hq
  · obtain ⟨-, -, rfl⟩ := List.mem_map.mp hq
    omega
  · exact rowQps_bounds hlo hhi hmode _ free _ q hq
end

end Sys2Proof.Machine
end

section
/-! The start of an encode (R358, R371). -/

namespace Sys2Proof.Machine

variable {s : State} {c : CodecId} {j : CodecJob} {sl : Slot}

/-- The job that runs once an encode has started: its frame's units and QPs, nothing written and the input not released. -/
structure EncodeBegun (sl : Slot) (j j' : CodecJob) : Prop where
  started : j'.started = true
  record : j'.record = j.record
  done : j'.done = j.done
  released : j'.released = j.released
  units : ∃ sei x, j'.units = frameUnits sl.cfg (frameType sl j.record == 0) sei x
  qps : ∃ bits free, j'.qps = frameQps sl.cfg sl.full sl.qp bits free

theorem State.jobPin_aside {keys : List Nat} (w : s.Wf) (c : Nat) (tiles : List Nat) : Aside keys s (s.jobPin c tiles) := by
  refine Aside.foldl w fun Y wY tile _ => ?_
  split
  · exact State.setDir_aside wY _ _
  · exact Aside.refl wY

theorem State.refBytes_aside {keys : List Nat} (w : s.Wf) (c p : Nat) (cfg : Cfg) (state : Nat) (bad : Bool) :
    Aside keys s (s.refBytes c p cfg state bad) := by
  have hnear := State.nearOf_aside (keys := keys) w (cRef cfg) (refNeed (isDecoder c) cfg)
  exact hnear.trans (State.storeBytes_aside hnear.wf _ _ _ _ _ _ _)

/-- An encode pins the input's tiles, holds its job, brings near what it names and writes its reference area. -/
theorem State.encodeStart_eq (s : State) (c : CodecId) (j : CodecJob) (sl : Slot) :
    ∃ j' tiles hints rois state bad, EncodeBegun sl j j' ∧ s.encodeStart c j sl =
      (((((s.jobPin c tiles).setCodec c { s.codec c with job := some j' }).nearOf (jA j.record) (cFrame sl.cfg)).nearOf
        (jB j.record) (jLen j.record)).nearOf (jC j.record) hints |>.nearOf (jD j.record) rois).refBytes c j.part sl.cfg state bad := by
  refine ⟨_, _, _, _, _, _, ?_, rfl⟩
  exact ⟨rfl, rfl, rfl, rfl, ⟨_, _, rfl⟩, ⟨_, _, rfl⟩⟩

theorem State.encodeStart_begun (w : s.Wf) (c : CodecId) (j : CodecJob) (sl : Slot) :
    ∃ j', EncodeBegun sl j j' ∧ (s.encodeStart c j sl).codec c = { s.codec c with job := some j' } ∧
      (s.encodeStart c j sl).ctr = s.ctr := by
  obtain ⟨j', tiles, hints, rois, state, bad, hbegun, heq⟩ := s.encodeStart_eq c j sl
  have hpin : Aside [] s (s.jobPin c tiles) := State.jobPin_aside w c tiles
  generalize s.jobPin c tiles = x at hpin heq
  have wset := (State.setCodec_kept (Kept.refl x) c { s.codec c with job := some j' }).wf hpin.wf
  have hcodec := State.codec_setCodec x hpin.wf.codecs c { s.codec c with job := some j' } c
  have hctr : (x.setCodec c { s.codec c with job := some j' }).ctr = s.ctr := hpin.ctr
  rw [if_pos rfl] at hcodec
  generalize x.setCodec c { s.codec c with job := some j' } = y at wset hcodec hctr heq
  have hA : Aside [] y _ := State.nearOf_aside wset (jA j.record) (cFrame sl.cfg)
  have hB := hA.trans (State.nearOf_aside hA.wf (jB j.record) (jLen j.record))
  have hC := hB.trans (State.nearOf_aside hB.wf (jC j.record) hints)
  have hD := hC.trans (State.nearOf_aside hC.wf (jD j.record) rois)
  have href := hD.trans (State.refBytes_aside hD.wf c j.part sl.cfg state bad)
  rw [heq]
  exact ⟨j', hbegun, (State.codec_congr href.codecs c).trans hcodec, href.ctr.trans hctr⟩

end Sys2Proof.Machine
end

section
/-! ENCODE_FRAME: an encode starts, and ends (R358, R360). -/

namespace Sys2Proof.Machine

variable {s : State} {c : CodecId} {j : CodecJob} {sl : Slot}

/-- No granule that an encode touches waits for new values (R253). -/
structure EncodeFree (s : State) (j : CodecJob) (sl : Slot) : Prop where
  input : s.jobBusy (jA j.record) (cFrame sl.cfg) = false
  output : s.jobBusy (jB j.record) (jLen j.record) = false
  reference : s.jobBusy (cRef sl.cfg) (refNeed false sl.cfg) = false
  hints : jC j.record ≠ 0 → s.jobBusy (jC j.record) (16 * cWsb sl.cfg * cHsb sl.cfg) = false
  regions : jD j.record ≠ 0 → s.jobBusy (jD j.record) (8 * jRoi j.record) = false

theorem exec_encodeFrame_starts (hdec : isDecoder c = false) (hsl : s.slot c (jStream j.record) = some sl) (h : CodecStarts s c 1 j)
    (hfree : EncodeFree s j sl) : exec (.encodeFrame c) s = .next (s.encodeStart c j sl) := by
  have hhints : (jC j.record != 0 && s.jobBusy (jC j.record) (16 * cWsb sl.cfg * cHsb sl.cfg)) = false := by
    simpa using hfree.hints
  have hregions : (jD j.record != 0 && s.jobBusy (jD j.record) (8 * jRoi j.record)) = false := by
    simpa using hfree.regions
  change execEncodeFrame c s = _
  simp only [execEncodeFrame, h.job, hdec, hsl, h.fresh.2, h.startCodec, hfree.input, hfree.output, hfree.reference, hhints, hregions]
  rfl

/-- An encode whose units are written, or whose next unit does not fit, ends. -/
structure EncodeEnds (s : State) (c : CodecId) (j : CodecJob) (sl : Slot) : Prop where
  job : (s.codec c).job = some j
  live : s.live = true
  started : j.started = true
  posted : j.posted = false
  released : j.released = true
  good : j.bad = false
  written : j.done = j.units.length ∨ j.full = true
  landed : s.writesLeft (srcCodec c) = false
  free : s.jobHeld (jB j.record) (jLen j.record) = false
  code : s.encodeCode j sl.cfg = 0

theorem exec_encodeFrame_ends (hdec : isDecoder c = false) (hsl : s.slot c (jStream j.record) = some sl) (h : EncodeEnds s c j sl) :
    exec (.encodeFrame c) s = .next (s.encodeEnd c j sl) := by
  have hwritten : (decide (j.done < j.units.length) && !j.full) = false := by
    obtain hdone | hfull := h.written
    · simp [hdone]
    · simp [hfull]
  change execEncodeFrame c s = _
  simp [execEncodeFrame, h.job, hdec, hsl, h.started, h.live, h.posted, h.released, hwritten, h.landed, h.free, h.code]

/-- The state in which an encode's header and its stream's next state stand, before its record. -/
def State.encodeClosed (s : State) (c : CodecId) (j : CodecJob) (head : List Byte) (next : Slot) (limit : Bool) : State :=
  ((s.storeBytes (srcCodec c) j.part (gaddr (jB j.record)).space (gaddr (jB j.record)).off head false).setSlot c (jStream j.record)
    (some next)).flag (.codLog c) 5 limit

theorem State.encodeEnd_complete (hbad : j.bad = false) (hfull : j.full = false) :
    ∃ head limit bits qp, s.encodeEnd c j sl =
      (s.encodeClosed c j head (sl.after j.record j.nextRef bits qp j.nextVecs) limit).doneCodec c j false := by
  simp only [State.encodeEnd, hbad, hfull, Bool.false_eq_true, if_false]
  exact ⟨_, _, _, _, rfl⟩

theorem State.encodeEnd_full (hbad : j.bad = false) (hfull : j.full = true) :
    ∃ head limit, s.encodeEnd c j sl =
      ((s.encodeClosed c j head { sl with frames := sl.frames + 1 } limit).flag (.codLog c) 1 true).endCodec c j eStreamFull false := by
  simp only [State.encodeEnd, hbad, hfull, Bool.false_eq_true, if_false, if_true]
  exact ⟨_, _, rfl⟩

section
variable (w : s.Wf) (hs : rising (s.codec c).slots = true)
include w hs

theorem State.encodeClosed_frame (j : CodecJob) (head : List Byte) (next : Slot) (limit : Bool) :
    RingKept [(Reg.codLog c).key] s (s.encodeClosed c j head next limit) ∧ (s.encodeClosed c j head next limit).ctr = s.ctr ∧
      ∀ k, (s.encodeClosed c j head next limit).slot c k = if k = jStream j.record then some next else s.slot c k := by
  have hstore : Aside [(Reg.codLog c).key] s
      (s.storeBytes (srcCodec c) j.part (gaddr (jB j.record)).space (gaddr (jB j.record)).off head false) :=
    State.storeBytes_aside w _ _ _ _ _ _ _
  rw [State.encodeClosed]
  generalize s.storeBytes (srcCodec c) j.part (gaddr (jB j.record)).space (gaddr (jB j.record)).off head false = x at hstore
  have hcodec := State.codec_congr hstore.codecs c
  have hset : RingKept [(Reg.codLog c).key] x (x.setSlot c (jStream j.record) (some next)) := State.setSlot_ringKept hstore.wf _ _
  have hslot := State.slot_setSlot hstore.wf (by rw [hcodec, hs]) (jStream j.record) (some next)
  have hctr : (x.setSlot c (jStream j.record) (some next)).ctr = x.ctr := rfl
  generalize x.setSlot c (jStream j.record) (some next) = y at hset hslot hctr
  have hflag := State.codLog_flag_aside hset.wf c 5 limit
  refine ⟨(hstore.toRingKept.trans hset).trans hflag.toRingKept, (hflag.ctr.trans hctr).trans hstore.ctr, fun k => ?_⟩
  rw [State.slot_congr (congrArg Codec.slots (State.codec_congr hflag.codecs c)), hslot,
    State.slot_congr (congrArg Codec.slots hcodec)]

section
variable (hdec : isDecoder c = false) (hsl : s.slot c (jStream j.record) = some sl) (h : EncodeEnds s c j sl) (hm : j.mute = false)
  (kq : Recordable s j.queue)
include hdec hsl h hm kq

/-- A complete frame signals SIG_CTR and counts as output. -/
theorem encodeFrame_completes (hdone : j.done = j.units.length) :
    ∃ t bits qp, exec (.encodeFrame c) s = .next t ∧ (t.codec c).job = none ∧
      t.slot c (jStream j.record) = some (sl.after j.record j.nextRef bits qp j.nextVecs) ∧
      (∀ n, t.counter n = if n = jSig j.record then s.counter n + 1 else s.counter n) := by
  have hfull : j.full = false := by simp [CodecJob.full, hdone]
  obtain ⟨head, limit, bits, qp, heq⟩ := State.encodeEnd_complete (s := s) (c := c) (sl := sl) h.good hfull
  obtain ⟨hkept, hctr, hslot⟩ :=
    State.encodeClosed_frame w hs j head (sl.after j.record j.nextRef bits qp j.nextVecs) limit
  refine ⟨_, bits, qp, (exec_encodeFrame_ends hdec hsl h).trans (by rw [heq]), ?_⟩
  generalize s.encodeClosed c j head (sl.after j.record j.nextRef bits qp j.nextVecs) limit = y at *
  obtain ⟨hend, hslots, hcounter⟩ :=
    State.doneCodec_ended (c := c) hkept.wf (hkept.recordable (ringApart_codLog kq.range c) kq) hm
  refine ⟨hend.job, ?_, fun n => by rw [hcounter, State.counter_congr hctr]⟩
  rw [State.slot_congr hslots, hslot, if_pos rfl]

/-- A frame whose units do not fit ends with STREAM_FULL. -/
theorem encodeFrame_full (hfull : j.full = true) :
    ∃ t, exec (.encodeFrame c) s = .next t ∧ (t.codec c).job = none ∧
      t.slot c (jStream j.record) = some { sl with frames := sl.frames + 1 } ∧ (t.val (.codLog c)).getLsbD 1 = true ∧
      t.ctr = s.ctr := by
  obtain ⟨head, limit, heq⟩ := State.encodeEnd_full (s := s) (c := c) (sl := sl) h.good hfull
  obtain ⟨hkept, hctr, hslot⟩ := State.encodeClosed_frame w hs j head { sl with frames := sl.frames + 1 } limit
  refine ⟨_, (exec_encodeFrame_ends hdec hsl h).trans (by rw [heq]), ?_⟩
  generalize s.encodeClosed c j head { sl with frames := sl.frames + 1 } limit = y at *
  have hflag := State.codLog_flag_aside hkept.wf c 1 true
  have hbit : ((y.flag (.codLog c) 1 true).val (.codLog c)).getLsbD 1 = true := State.setWz_bit hkept.wf _ (by decide) []
  generalize y.flag (.codLog c) 1 true = z at *
  have hall := hkept.trans hflag.toRingKept
  obtain ⟨hend, hslots, hsame, hlog⟩ :=
    State.endCodec_calm (c := c) hall.wf (hall.recordable (ringApart_codLog kq.range c) kq) hm eStreamFull
  refine ⟨hend.job, ?_, by rw [hlog, hbit], (hsame.trans hflag.ctr).trans hctr⟩
  rw [State.slot_congr hslots, State.slot_congr (congrArg Codec.slots (State.codec_congr hflag.codecs c)), hslot, if_pos rfl]
end
end

end Sys2Proof.Machine
end

section
/-! ENCODE_UNIT_DONE (R359). -/

namespace Sys2Proof.Machine

variable {s : State} {c : CodecId} {j : CodecJob}

/-- The job of an engine that encodes has a unit left that fits, and its accesses are permitted. -/
structure UnitDue (s : State) (c : CodecId) (j : CodecJob) : Prop where
  job : (s.codec c).job = some j
  live : s.live = true
  started : j.started = true
  posted : j.posted = false
  good : j.bad = false
  encoder : isDecoder c = false
  left : j.done < j.units.length
  fits : j.full = false
  free : s.jobHeld (jB j.record) (jLen j.record) = false
  code : s.runCode c j = 0

/-- Bytes of a job at an offset of its output buffer. -/
def State.putOutput (s : State) (c : CodecId) (j : CodecJob) (o : Nat) (l : List Byte) : State :=
  s.storeBytes (srcCodec c) j.part (gaddr (jB j.record)).space ((gaddr (jB j.record)).off + o) l false

/-- The next unit and its length. -/
def State.putUnit (s : State) (c : CodecId) (j : CodecJob) (u : List Byte) : State :=
  if 48 ≤ j.done then s.putOutput c j (j.unitAt j.done) u
  else (s.putOutput c j (j.unitAt j.done) u).putOutput c j (64 + 4 * j.done) (natLe 4 u.length)

theorem exec_encodeUnitDone (h : UnitDue s c j) :
    exec (.encodeUnitDone c) s =
      .next (((s.putUnit c j (j.units.getD j.done [])).setJob c { j with done := j.done + 1 }).signal (jUnit j.record) 1) := by
  change execEncodeUnitDone c s = _
  simp only [execEncodeUnitDone, h.job, h.live, h.started, h.posted, h.encoder, Nat.not_le.mpr h.left, h.fits, h.free, h.code, h.good]
  rfl

theorem State.putUnit_aside {keys : List Nat} (w : s.Wf) (c : CodecId) (j : CodecJob) (u : List Byte) :
    Aside keys s (s.putUnit c j u) := by
  have hunit : Aside keys s (s.putOutput c j (j.unitAt j.done) u) := State.storeBytes_aside w _ _ _ _ _ _ _
  unfold State.putUnit
  split
  · exact hunit
  · exact hunit.trans (State.storeBytes_aside hunit.wf _ _ _ _ _ _ _)

/-- Units begin behind the header and the table of lengths. -/
theorem CodecJob.unitAt_ge (j : CodecJob) (k : Nat) : 256 ≤ j.unitAt k := Nat.le_add_right _ _

/-- The unit and its length read back. -/
theorem State.putUnit_reads (w : s.Wf) (hland : s.landsNow) (hspace : (gaddr (jB j.record)).space ≠ 3) (u : List Byte) :
    rdBytes (s.putUnit c j u).mem ((gaddr (jB j.record)).off + j.unitAt j.done) u.length = u ∧
      (j.done < 48 → rdBytes (s.putUnit c j u).mem ((gaddr (jB j.record)).off + 64 + 4 * j.done) 4 = natLe 4 u.length) := by
  obtain ⟨hd, hw, -⟩ := hland
  have hwf := memWf_of_wf w
  have hafter := j.unitAt_ge j.done
  obtain ⟨hmem, hd', hw'⟩ := State.storeBytes_mem hd hw (srcCodec c) j.part hspace ((gaddr (jB j.record)).off + j.unitAt j.done) u
    false none
  obtain ⟨hmem', -⟩ := State.storeBytes_mem hd' hw' (srcCodec c) j.part hspace ((gaddr (jB j.record)).off + (64 + 4 * j.done))
    (natLe 4 u.length) false none
  rw [State.putUnit]
  split
  · refine ⟨?_, fun hlt => by omega⟩
    rw [State.putOutput, hmem]
    exact rdBytes_wrCells u _ _ hwf
  · rw [State.putOutput, State.putOutput, hmem', hmem]
    refine ⟨rdBytes_wrCells_apart hwf _ _ u _ (.inr (by rw [natLe_length]; omega)), fun _ => ?_⟩
    have hread := rdBytes_wrCells (natLe 4 u.length) (wrCells s.mem (cellsAt ((gaddr (jB j.record)).off + j.unitAt j.done) u))
      ((gaddr (jB j.record)).off + (64 + 4 * j.done)) (memWf_wrCells _ _ hwf)
    rw [natLe_length] at hread
    rwa [Nat.add_assoc]

theorem encodeUnitDone_writes (w : s.Wf) (h : UnitDue s c j) :
    ∃ t, exec (.encodeUnitDone c) s = .next t ∧ (t.codec c).job = some { j with done := j.done + 1 } ∧
      t.mem = (s.putUnit c j (j.units.getD j.done [])).mem ∧
      (∀ n, t.counter n = if n = jUnit j.record then s.counter n + 1 else s.counter n) ∧ t.units = s.units := by
  refine ⟨_, exec_encodeUnitDone h, ?_⟩
  have hput : Aside [] s (s.putUnit c j (j.units.getD j.done [])) := State.putUnit_aside w c j _
  generalize s.putUnit c j (j.units.getD j.done []) = x at hput
  have wset := State.setJob_wf hput.wf c { j with done := j.done + 1 }
  have hcodec := State.codec_setJob hput.wf c { j with done := j.done + 1 }
  have hsame : (x.setJob c { j with done := j.done + 1 }).ctr = x.ctr ∧ (x.setJob c { j with done := j.done + 1 }).mem = x.mem ∧
      (x.setJob c { j with done := j.done + 1 }).units = x.units := ⟨rfl, rfl, rfl⟩
  generalize x.setJob c { j with done := j.done + 1 } = y at *
  obtain ⟨hctr, hmem, hunits⟩ := hsame
  have hsig : RingKept [] y (y.signal (jUnit j.record) 1) := State.signal_ringKept wset _ _
  refine ⟨?_, ?_, fun n => ?_, ?_⟩
  · rw [State.codec_congr (State.signal_codecs wset _ _), hcodec]
  · exact (State.stored_iff.mp (y.signal_stored _ _)).1.trans hmem
  · rw [State.counter_signal wset, State.counter_congr hctr, State.counter_congr hput.ctr]
  · exact ((congrArg State.units hsig.rest :).trans hunits).trans (congrArg State.units hput.rest :)

end Sys2Proof.Machine
end

section
/-! INPUT_RELEASE (R371). -/

namespace Sys2Proof.Machine

variable {s : State} {c : CodecId} {j : CodecJob}

theorem exec_inputRelease (hl : s.live = true) (hj : (s.codec c).job = some j) (hp : j.posted = false) (hs : j.started = true)
    (hdec : isDecoder c = false) (hr : j.released = false) :
    exec (.inputRelease c) s =
      .next (((s.jobUnpin c j.pins true).setJob c { j with released := true, pins := [] }).signal (jRel j.record) 1) := by
  change execInputRelease c s = _
  simp only [execInputRelease, hj, hl, hp, hs, hdec, hr]
  rfl

/-- An entry without the engine's pin, and without the hand-over pin. -/
def DirEntry.unpinned (d : DirEntry) (c : Nat) : DirEntry :=
  { d with jobPins := d.jobPins.filter fun x => x ≠ c, handPin := false }

theorem DirEntry.unpinned_contains (d : DirEntry) (c : Nat) : (d.unpinned c).jobPins.contains c = false := by
  simp [DirEntry.unpinned]

theorem DirEntry.unpinned_unpinned (d : DirEntry) (c : Nat) : (d.unpinned c).unpinned c = d.unpinned c := by
  simp [DirEntry.unpinned]

/-- One tile's entry is unpinned. -/
def State.unpinTile (s : State) (c tile : Nat) : State :=
  match s.dirEntry tile with
  | some d => s.setDir tile (some (d.unpinned c))
  | none => s

theorem State.jobUnpin_eq (s : State) (c : Nat) (tiles : List Nat) : s.jobUnpin c tiles true = tiles.foldl (fun s t => s.unpinTile c t) s := by
  simp only [State.jobUnpin, Bool.not_true, Bool.and_false]
  rfl

theorem State.unpinTile_aside {keys : List Nat} (w : s.Wf) (c tile : Nat) : Aside keys s (s.unpinTile c tile) := by
  unfold State.unpinTile
  split
  · exact State.setDir_aside w _ _
  · exact Aside.refl w

theorem State.unpinTile_mem (s : State) (c tile : Nat) : (s.unpinTile c tile).mem = s.mem := by
  unfold State.unpinTile
  split <;> rfl

theorem State.dirEntry_unpinTile (w : s.Wf) (c tile x : Nat) :
    (s.unpinTile c tile).dirEntry x = if x = tile then (s.dirEntry x).map (DirEntry.unpinned · c) else s.dirEntry x := by
  unfold State.unpinTile
  split
  · rename_i d hd
    rw [State.dirEntry_setDir s w.dir]
    split
    · rename_i hx
      rw [hx, hd]
      rfl
    · rfl
  · rename_i hd
    split
    · rename_i hx
      rw [hx, hd]
      rfl
    · rfl

theorem State.jobUnpin_aside {keys : List Nat} (w : s.Wf) (c : Nat) (tiles : List Nat) : Aside keys s (s.jobUnpin c tiles true) := by
  rw [State.jobUnpin_eq]
  exact Aside.foldl w fun _ wY tile _ => State.unpinTile_aside wY c tile

theorem State.jobUnpin_mem (s : State) (c : Nat) (tiles : List Nat) : (s.jobUnpin c tiles true).mem = s.mem := by
  rw [State.jobUnpin_eq]
  exact List.foldlRecOn (motive := fun t : State => t.mem = s.mem) _ _ rfl fun t ih tile _ => (t.unpinTile_mem c tile).trans ih

/-- No tile of those released is pinned. -/
theorem State.dirEntry_jobUnpin (w : s.Wf) (c : Nat) (tiles : List Nat) (x : Nat) :
    (s.jobUnpin c tiles true).dirEntry x = if x ∈ tiles then (s.dirEntry x).map (DirEntry.unpinned · c) else s.dirEntry x := by
  rw [State.jobUnpin_eq]
  induction tiles generalizing s with
  | nil => rfl
  | cons tile tiles ih =>
    have wtile := (State.unpinTile_aside (keys := []) w c tile).wf
    rw [List.foldl_cons, ih wtile, State.dirEntry_unpinTile w]
    by_cases hx : x = tile
    · by_cases hmem : tile ∈ tiles
      · simp [hx, hmem, Function.comp_def, DirEntry.unpinned_unpinned]
      · simp [hx, hmem]
    · simp [hx]

theorem inputRelease_unpins (w : s.Wf) (hl : s.live = true) (hj : (s.codec c).job = some j) (hp : j.posted = false)
    (hs : j.started = true) (hdec : isDecoder c = false) (hr : j.released = false) :
    ∃ t, exec (.inputRelease c) s = .next t ∧ (t.codec c).job = some { j with released := true, pins := [] } ∧
      (∀ n, t.counter n = if n = jRel j.record then s.counter n + 1 else s.counter n) ∧ t.mem = s.mem ∧
      (∀ x e, x ∈ j.pins → t.dirEntry x = some e → e.jobPins.contains c.val = false ∧ e.handPin = false) := by
  refine ⟨_, exec_inputRelease hl hj hp hs hdec hr, ?_⟩
  have hunpin : Aside [] s (s.jobUnpin c j.pins true) := State.jobUnpin_aside w c j.pins
  have hsmem := s.jobUnpin_mem c j.pins
  have hentry := State.dirEntry_jobUnpin w c j.pins
  generalize s.jobUnpin c j.pins true = x at *
  have wset := State.setJob_wf hunpin.wf c { j with released := true, pins := [] }
  have hcodec := State.codec_setJob hunpin.wf c { j with released := true, pins := [] }
  have hsame : (x.setJob c { j with released := true, pins := [] }).ctr = x.ctr ∧
      (x.setJob c { j with released := true, pins := [] }).stored = x.stored := ⟨rfl, rfl⟩
  generalize x.setJob c { j with released := true, pins := [] } = y at *
  obtain ⟨hctr, hstored⟩ := hsame
  obtain ⟨hmem, -, hdir, -⟩ := State.stored_iff.mp ((y.signal_stored (jRel j.record) 1).trans hstored)
  refine ⟨?_, fun n => ?_, hmem.trans hsmem, fun i e hi he => ?_⟩
  · rw [State.codec_congr (State.signal_codecs wset _ _), hcodec]
  · rw [State.counter_signal wset, State.counter_congr hctr, State.counter_congr hunpin.ctr]
  · rw [State.dirEntry, hdir, ← State.dirEntry, hentry, if_pos hi] at he
    obtain ⟨d, -, rfl⟩ := Option.map_eq_some_iff.mp he
    exact ⟨d.unpinned_contains c, rfl⟩

end Sys2Proof.Machine
end

section
/-! LATE (R372), and the statement about encodes. -/

namespace Sys2Proof.Machine

variable {s : State} {c : CodecId} {j : CodecJob} {sl : Slot}

/-- A FRAME job outlasts its deadline and has not been counted as late. -/
structure Overdue (s : State) (c : CodecId) (j : CodecJob) (sl : Slot) : Prop where
  job : (s.codec c).job = some j
  live : s.live = true
  posted : j.posted = false
  slot : s.slot c (jStream j.record) = some sl
  clock : s.clocks.vid = true
  frame : jOp j.record = 1
  fresh : j.late = false
  deadline : cDeadline sl.cfg ≠ 0
  passed : cDeadline sl.cfg * 1000 ≤ (s.limClock - j.waitAt) * 27

/-- A late frame is counted and logged. -/
def State.lateLogged (s : State) (c : CodecId) : State := (s.count (.codLateCnt c) 1).flag (.codLog c) 2 true

theorem exec_late (h : Overdue s c j sl) : exec (.late c) s = .next ((s.setJob c { j with late := true }).lateLogged c) := by
  change execLate c s = _
  simp only [execLate, h.job, h.slot, h.live, h.clock, h.frame, h.fresh, h.posted, h.deadline, Nat.not_lt.mpr h.passed]
  rfl

theorem codLateCnt_ne_codLog (c : CodecId) : (Reg.codLateCnt c).key ≠ (Reg.codLog c).key := by
  simp [Reg.key, Reg.copyOf, Reg.offset]

theorem State.lateLogged_flagged (s : State) (c : CodecId) : s.flagged (s.lateLogged c) :=
  State.flagged_trans (s.count_flagged _ 1) (State.flag_flagged _ _ 2 true)

theorem State.lateLogged_bit (w : s.Wf) (c : CodecId) : ((s.lateLogged c).val (.codLog c)).getLsbD 2 = true :=
  State.setWz_bit (State.count_wf w _ 1) _ (by decide) []

theorem State.lateLogged_count (w : s.Wf) (c : CodecId) :
    (s.lateLogged c).val (.codLateCnt c) = satAdd32 (s.val (.codLateCnt c)) 1 :=
  (State.setWz_val (State.count_wf w _ 1) 2 (codLateCnt_ne_codLog c) (by simp)).trans (State.val_count_one s w.regs _)

theorem State.lateLogged_sameRegs (w : s.Wf) (c : CodecId) :
    s.sameRegs (s.lateLogged c) [(Reg.codLateCnt c).key, (Reg.codLog c).key] := fun r hr => by
  rw [List.mem_cons, not_or] at hr
  exact (State.setWz_sameRegs (State.count_wf w _ 1) _ 2 r hr.2).trans
    (State.setVal_sameRegs w.regs _ _ r (by simpa using hr.1))

theorem late_counts (w : s.Wf) (h : Overdue s c j sl) :
    ∃ t, exec (.late c) s = .next t ∧ (t.codec c).job = some { j with late := true } ∧
      t.val (.codLateCnt c) = satAdd32 (s.val (.codLateCnt c)) 1 ∧ (t.val (.codLog c)).getLsbD 2 = true ∧
      s.sameRegs t [(Reg.codLateCnt c).key, (Reg.codLog c).key] ∧
      t = { s with codecs := t.codecs, regs := t.regs, out := { s.out with msix := t.out.msix }, fns := t.fns } := by
  refine ⟨_, exec_late h, ?_⟩
  have wset := State.setJob_wf w c { j with late := true }
  have hcodec := State.codec_setJob w c { j with late := true }
  have hregs : (s.setJob c { j with late := true }).regs = s.regs := rfl
  have heq : s.setJob c { j with late := true } = { s with codecs := (s.setJob c { j with late := true }).codecs } := rfl
  generalize s.setJob c { j with late := true } = y at *
  have hflag := y.lateLogged_flagged c
  have hcodecs : (y.lateLogged c).codecs = y.codecs := by
    rw [State.flagged] at hflag
    exact (congrArg State.codecs hflag :)
  refine ⟨?_, ?_, State.lateLogged_bit wset c, fun r hr => ?_, ?_⟩
  · rw [State.codec_congr hcodecs, hcodec]
  · rw [State.lateLogged_count wset, State.val_congr hregs]
  · rw [State.lateLogged_sameRegs wset c r hr, State.cell_congr hregs]
  · rw [State.flagged] at hflag
    rw [hcodecs]
    generalize y.lateLogged c = z at *
    rw [hflag, heq]

/-- Settles O40: from an encode's start and end, the units it writes, the input it releases, and its deadline. -/
theorem encodesRunAndReport : Obligations.EncodesRunAndReport := by
  unfold Obligations.EncodesRunAndReport
  refine ⟨fun c j sl s w hs hdec hsl => ⟨fun h hA hB hR hC hD hdone hrel => ?_,
    fun hj hl hst hp hrel hbad hleft hheld hcode hm hroom => ?_⟩, fun c j s w hl hj hp => ⟨fun hst hdec hlt hfull hbad hheld hcode => ?_,
    fun hst hdec hrel => inputRelease_unpins w hl hj hp hst hdec hrel, fun sl hsl hclock hop hlate hdead hpassed =>
      late_counts w ⟨hj, hl, hp, hsl, hclock, hop, hlate, hdead, hpassed⟩⟩⟩
  · obtain ⟨j', hbegun, hcodec, hctr⟩ := State.encodeStart_begun w c j sl
    obtain ⟨sei, x, hunits⟩ := hbegun.units
    obtain ⟨bits, free, hqps⟩ := hbegun.qps
    refine ⟨_, j', exec_encodeFrame_starts hdec hsl h ⟨hA, hB, hR, hC, hD⟩, by rw [hcodec], hbegun.started, ?_, ?_, fun k u hu => ?_,
      fun q hq hmode hlo hhi => ?_, hbegun.done.trans hdone, hbegun.released.trans hrel, hbegun.record, by rw [hcodec], hctr⟩
    · rw [hunits, frameUnits_length]
    · rw [hqps, frameQps_length]
    · rw [← sliceHeader_key]
      exact frameUnits_framed (hunits ▸ hu)
    · exact frameQps_bounds hlo hhi hmode _ _ _ _ q (hqps ▸ hq)
  · have kq := hroom.recordable
    refine ⟨fun hdone => ?_, fun hfull => ?_⟩
    · obtain ⟨t, bits, qp, ht, hjob, hslot, hctr⟩ :=
        encodeFrame_completes w hs hdec hsl ⟨hj, hl, hst, hp, hrel, hbad, .inl hdone, hleft, hheld, hcode⟩ hm kq hdone
      exact ⟨t, _, ht, hjob, hslot, rfl, rfl, rfl, hctr⟩
    · exact encodeFrame_full w hs hdec hsl ⟨hj, hl, hst, hp, hrel, hbad, .inr hfull, hleft, hheld, hcode⟩ hm kq hfull
  · obtain ⟨t, ht, hjob, hmem, hctr, hunits⟩ := encodeUnitDone_writes w ⟨hj, hl, hst, hp, hbad, hdec, hlt, hfull, hheld, hcode⟩
    refine ⟨t, ht, hjob, fun hland hspace u hu => ?_, hctr, hunits⟩
    rw [hmem, List.getD_eq_getElem?_getD, hu]
    exact State.putUnit_reads w hland hspace u

end Sys2Proof.Machine
end
